-- ==== Sys2Proof/Word.lean ====
section
/-! DEFINITION. The words of the AK25: bytes and the register, memory and key widths the spec names. -/

namespace Sys2Proof

/-- One byte of memory or of a frame. -/
abbrev Byte := BitVec 8
/-- A 16-bit code or field (00 Table 0.6). -/
abbrev W16 := BitVec 16
/-- A 32-bit register word (00, Document conventions). -/
abbrev W32 := BitVec 32
/-- A 64-bit address, counter or operand. -/
abbrev W64 := BitVec 64
/-- A 256-bit SHA3-256 digest or a 256-bit key. -/
abbrev Digest := BitVec 256

end Sys2Proof
end

