-- ==== Sys2Proof/Syntax.lean ====
section
/-! DEFINITION. The commands of the block: one constructor per row of spec/opcode_table.json. The table gives no
operands; the operands are the model's (notes/assumptions/10.md), and what each row's rule needs from outside. -/

namespace Sys2Proof

/-- A descriptor (04 Table 4.3). `rsvd` is the reserved word at offset 0x3C. -/
structure Descriptor where
  opcode : W16
  flags : W16
  handle : W32
  seq : W64
  inAddr : W64
  inLen : W64
  outAddr : W64
  outLen : W64
  paramAddr : W64
  paramLen : W32
  rsvd : W32
  deriving DecidableEq, Repr

/-- A control item (04 Table 4.8) less its OPCODE, which the row gives. `rsvd0` is the word at offset 0x02, `rsvd1` the
32 bytes at offset 0x20. -/
structure CtlItem where
  rsvd0 : W16
  handle : W32
  tag : W64
  arg0 : W64
  arg1 : W64
  rsvd1 : BitVec 256
  deriving DecidableEq, Repr

/-- A sequencer command list: global reef, sheet and list number (14 R336). -/
structure ListId where
  reef : BitVec 7
  sheet : BitVec 2
  list : BitVec 4
  deriving DecidableEq, Repr

/-- An accepted descriptor, by channel index and sequence number. -/
structure RunRef where
  chan : BitVec 12
  seq : BitVec 48
  deriving DecidableEq, Repr

/-- A signal attached to an engine command (14 R349): the object and N. -/
structure Attach where
  obj : BitVec 13
  n : W16
  deriving DecidableEq, Repr

/-- An ASU command (10 Table 10.3) less its OP, which the row gives. -/
structure AsuCmd where
  table : Byte
  flags : W16
  partition : W16
  rsvd0 : W16
  offset : W32
  data : W32
  key : BitVec 128
  mask : BitVec 128
  cursor : W64
  rsvd1 : W64
  deriving DecidableEq, Repr

/-- A Yazer frame header (15 Table 15.4). -/
structure FrameHdr where
  version : Byte
  type : Byte
  tc : Byte
  opCount : Byte
  sid : W32
  nonce : W64
  seq : W64
  ack : W64
  deriving DecidableEq, Repr

/-- A Yazer operation header (15 Table 15.6) less its OP, which the row gives. -/
structure OpHdr where
  rsvd : BitVec 24
  len : W32
  addr : W64
  op0 : W64
  op1 : W64
  deriving DecidableEq, Repr

/-- Where an operation stands: its session, its frame's SEQ and its index in the frame (15 R380). -/
structure OpRef where
  sid : W32
  seq : BitVec 48
  idx : Byte
  deriving DecidableEq, Repr

/-- A received frame as its link hands it over: header, decrypted body, the verdict on its tag (15 R368, R373), and
whether its packet was CE-marked (R376). -/
structure Frame where
  link : BitVec 5
  hdr : FrameHdr
  body : List Byte
  tagOk : Bool
  ce : Bool
  deriving DecidableEq, Repr

/-- A term that arrives at a WXA (03 R82, R87): from a record cell, in a format of Table 3.1, or from a dot row, as the
exact sum `num` times 2 to the `exp`. -/
inductive Term where
  | cell (fmt : BitVec 4) (width : BitVec 7) (bits : W64)
  | dot (num : Int) (exp : Int)
  deriving DecidableEq, Repr

/-- One symbol of a codeword found in error: its position 0-38 (0-31 data, 32-33 address, 34-38 check; 19 R452) and the
bits that differ. -/
structure SymErr where
  pos : BitVec 6
  bits : W16
  deriving DecidableEq, Repr

/-- The commands of the AK25, in the order of spec/opcode_table.json. -/
inductive Instr where
  -- plates (02)
  | loadStaged (sid : W32)
  | loadFlash (sid : W32) (slot : BitVec 4)
  | discard (sid : W32)
  | abortCommit (sid : W32)
  | proofActive (sid : W32) (bad : W16)
  | commit (sid : W32)
  | evict (sid : W32)
  | plateLoadDone (sigOk : Bool)
  | proofDone (island : BitVec 4) (same : Bool)
  | bankSwap
  | fallbackSwitch (bad : W16)
  | sheetSliceEnd (island : BitVec 4)
  | sheetSwitch (island : BitVec 4)
  -- channels and work (04, 17)
  | descriptorSubmit (sid : W32) (d : Descriptor)
  | create (sid : W32) (c : CtlItem)
  | destroy (sid : W32) (c : CtlItem)
  | retire (sid : W32) (c : CtlItem)
  | setTc (sid : W32) (c : CtlItem)
  | setDeadline (sid : W32) (c : CtlItem)
  | descriptorCommit (chan : BitVec 12)
  | batchApply (island : BitVec 4) (r : RunRef)
  | completionReady (chan : BitVec 12)
  -- sequencer commands (14)
  | take (l : ListId)
  | done (l : ListId)
  | nop (l : ListId)
  | jump (l : ListId) (target : W32)
  | signal (l : ListId) (obj : BitVec 13) (n : W16)
  | wait (l : ListId) (obj : BitVec 13) (n : W16) (timeout : BitVec 24)
  | decrement (l : ListId) (obj : BitVec 13) (n : W16)
  | arrive (l : ListId) (bar : BitVec 6)
  | bwait (l : ListId) (bar : BitVec 6) (timeout : BitVec 24)
  | arriveWait (l : ListId) (bar : BitVec 6) (timeout : BitVec 24)
  | waitTimeout (l : ListId)
  | attachedSignal (reef : BitVec 7) (unit : Byte)
  | engine (l : ListId) (unit : Byte) (entry : W32) (att : Option Attach)
  | asuIssue (l : ListId) (resultOff : W32) (cmdOff : W64) (att : Option Attach)
  -- WXA, record and dot cells (03)
  | wxaClear (l : ListId) (row : BitVec 4)
  | wxaSetMode (l : ListId) (row : BitVec 4) (square : Bool)
  | wxaSave (l : ListId) (row : BitVec 4) (addr : W64)
  | wxaRestore (l : ListId) (row : BitVec 4) (addr : W64)
  | wxaMerge (l : ListId) (row : BitVec 4) (addr : W64)
  | wxaReadFp32 (l : ListId) (row : BitVec 4) (addr : W64)
  | wxaTerm (reef : BitVec 7) (row : BitVec 4) (t : Term)
  | recordCellStep (r : RunRef) (sample : W64) (reef : BitVec 7) (row col : BitVec 4) (lag0 lag1 port : W64)
  | dotStep (r : RunRef) (reef : BitVec 7) (row : BitVec 4) (acts : List (List Byte))
  -- stages of a descriptor (05-09)
  | graverRun (r : RunRef)
  | recordDecode (r : RunRef)
  | recordDeadline (r : RunRef) (sample : W64)
  | stippleAugment (r : RunRef)
  | hatchStage (r : RunRef)
  | statsGather (r : RunRef)
  | normalise (r : RunRef)
  | joinProbe (r : RunRef)
  | joinBuild (r : RunRef)
  | nearDupProbe (r : RunRef)
  | nearDupBuild (r : RunRef)
  | shuffleFeed (r : RunRef)
  | census (r : RunRef)
  | sealBatch (r : RunRef)
  | deliver (r : RunRef) (expired : Bool)
  | stagingSlotWrite (slot : W64) (batch : W64) (data : List Byte)
  -- associative search (10)
  | asuUpdate (r : RunRef)
  | asuSearch (reef : BitVec 7) (c : AsuCmd)
  | asuNext (reef : BitVec 7) (c : AsuCmd)
  | asuRead (reef : BitVec 7) (c : AsuCmd)
  | asuWrite (reef : BitVec 7) (c : AsuCmd)
  | asuDelete (reef : BitVec 7) (c : AsuCmd)
  | asuInsert (reef : BitVec 7) (c : AsuCmd)
  | asuRebuild (reef : BitVec 7) (c : AsuCmd)
  | asuRefreshScrub (pos : BitVec 23)
  | asuThrottleEval (island : BitVec 4) (temp : Byte)
  -- selection (11), embedding tables (12), layout (13)
  | topk (r : RunRef)
  | sort (r : RunRef)
  | merge (r : RunRef)
  | gather (r : RunRef)
  | scatter (r : RunRef)
  | fold (r : RunRef)
  | writeRows (r : RunRef)
  | initialise (r : RunRef)
  | fetchEpochAdvance (table : BitVec 6)
  | shoalIntervalEnd (island : BitVec 4)
  | migrateIntervalEnd (island : BitVec 4)
  | migrationFlip (table : BitVec 6) (row : W64)
  | layoutTransform (r : RunRef)
  | pack (r : RunRef)
  -- sessions and frames (15)
  | hello (link : BitVec 5) (body : List Byte) (sigOk : Bool)
  | helloReply (link : BitVec 5) (body : List Byte) (sigOk : Bool)
  | confirm (f : Frame)
  | reject (link : BitVec 5) (entry : BitVec 10) (code : W16)
  | close (f : Frame)
  | dataFrame (f : Frame)
  | ack (f : Frame)
  | probe (f : Frame)
  | probeReply (f : Frame)
  | yzRead (o : OpRef) (h : OpHdr)
  | yzWrite (o : OpRef) (h : OpHdr) (data : List Byte)
  | add32 (o : OpRef) (h : OpHdr)
  | add64 (o : OpRef) (h : OpHdr)
  | addDelta (o : OpRef) (h : OpHdr) (data : List Byte)
  | cas64 (o : OpRef) (h : OpHdr)
  | yzSignal (o : OpRef) (h : OpHdr)
  | message (o : OpRef) (h : OpHdr) (data : List Byte)
  | fence (o : OpRef) (h : OpHdr)
  | fate (o : OpRef) (h : OpHdr)
  | result (o : OpRef) (h : OpHdr) (data : List Byte)
  | retransmitTimeout (sid : W32) (seq : BitVec 48)
  | probeTimer (entry : BitVec 10)
  | peerDown (entry : BitVec 10)
  | sessionRetry (entry : BitVec 10)
  | fateHoldExpired (entry : BitVec 10)
  | helloIntervalEnd
  | quarIntervalEnd
  | linkUp (link : BitVec 5)
  | fabricLinkDown (link : BitVec 5)
  -- strait links, losses and resets (01, 17, 19, 25)
  | straitFlit (link : BitVec 6) (dir : Bool) (lsn : W32) (tc : BitVec 2) (ackFlit : Bool) (errs : List SymErr)
  | straitLinkLost (link : BitVec 6)
  | straitDieLost (die : BitVec 2)
  | islandLost (island : BitVec 4)
  | stackLost (stack : BitVec 4)
  | stackUeIntervalEnd (stack : BitVec 4)
  | harbourLost (harbour : BitVec 2)
  | capeLost
  | mirrorRebuilt (chan : BitVec 12)
  | recoveryComplete
  | hbmClockLost (clock : BitVec 2)
  | ethClockLost (clock : BitVec 3)
  | channelReset (sid : W32)
  | islandReset (sid : W32)
  | portReset (sid : W32)
  | deviceReset (sid : W32)
  | warmN
  | porNAssert (us : Nat)
  | porNRelease
  | powerLoss
  -- boot and service (23)
  | bootRom
  | bootFirmware (sigA sigB listSig pendingSig : Bool)
  | hbmTraining (failed : W16)
  | straitTraining (failed : BitVec 4) (harbours : BitVec 4)
  | islandBringup (failed : W16) (sigA sigB : Bool)
  | ethernetLinkup (up : BitVec 17)
  | readyNoPlate
  | bootPlateLoad
  | serviceRequest (sid : W32) (addr : W64) (req : List Byte)
  | readFlash (flashOk : Bool)
  | writePlate (sigOk flashOk : Bool)
  | erasePlate (flashOk : Bool)
  | writeConfig (sigOk flashOk : Bool)
  | writeRoleList (sigOk flashOk : Bool)
  | writeFirmware (sigOk flashOk : Bool)
  -- registers (20, 21)
  | registerWrite (sid : W32) (addr : W64) (data : List Byte)
  | guardValueHalf (sid : W32) (addr : W64) (v : W32)
  | guardComplementHalf (sid : W32) (addr : W64) (v : W32)
  | guardPairExpired (sid : W32)
  | aliasWrite (sid : W32) (addr : W64) (data : List Byte)
  | counterWrite (sid : W32) (addr : W64) (data : List Byte)
  | counterLowRead (sid : W32) (addr : W64)
  | capture (sid : W32)
  | snapshotMarker (die : BitVec 5)
  | snapshotComplete
  | checkpoint (sid : W32)
  | flush (sid : W32)
  | flushDone
  | pwrSwitch (sid : W32) (word : BitVec 2) (v : W32)
  | domainSwitchDone (domain : BitVec 7)
  | fiEnable (sid : W32) (slot : BitVec 3)
  | fiDisable (sid : W32) (slot : BitVec 3)
  | fiHoldTimeout (slot : BitVec 3)
  | yzPeerCommit (sid : W32) (entry : BitVec 10) (v : W32)
  | yzWinCommit (sid : W32) (entry : BitVec 10) (win : BitVec 6) (v : W32)
  -- thermal, power, scrub, management, JTAG (19, 24, 25)
  | thermalSample (temps : List Byte) (catastrophic : W16)
  | powerSample (watts : W16)
  | hbmScrub (stack : BitVec 4) (codeword : BitVec 30) (errs : List SymErr)
  | lagoonScrub (island : BitVec 4) (line : BitVec 22) (errs : List SymErr)
  | i3cPointerWrite (data : List Byte)
  | i3cRead (words : Nat)
  | jtagBypass
  | jtagIdcode
  | samplePreload (shifted : Option (BitVec 64))
  | extest
  | clamp
  | highz
  | sheetFillDone (island : BitVec 4)
  | flitResend (link : BitVec 6) (dir : Bool) (lsn : W32)
  | ethClockReturn (clock : BitVec 3)
  | pauseFrame (link : BitVec 5) (priority : BitVec 3) (pause : Bool)
  | neighbourSolicitation (link : BitVec 5) (target : BitVec 128)
  | arpRequest (link : BitVec 5) (target : W32)
  | powerUp
  | debugUnlock (sid : W32)
  | trstN (low : Bool)
  deriving DecidableEq, Repr

end Sys2Proof
end

