-- ==== Sys2Proof/Decode.lean ====
section
/-! DEFINITION. The table of commands gives no row any bits (spec/opcode_table.json, every row's "fields" is empty), so no
word spells a command: a command reaches the block from outside, in the forms of chapters 04, 14, 15, 20 and 25. -/

namespace Sys2Proof

/-- The command a word spells by the table's bits: none, for the table gives no bits (notes/assumptions/10.md). -/
def decodeTableWord (_nbits _w : Nat) : Option Instr := none

end Sys2Proof
end

