-- ==== Sys2Proof/Machine/Bytes.lean ====
section
/-! DEFINITION. Byte strings and their little-endian fields (00, Document conventions: little-endian throughout). -/

namespace Sys2Proof.Machine

/-- The low `n` bytes of `v`, least significant first. -/
def leBytes : Nat → Nat → List Byte
  | 0, _ => []
  | n + 1, v => BitVec.ofNat 8 v :: leBytes n (v / 256)

/-- The number that a little-endian byte string spells. -/
def leNat : List Byte → Nat
  | [] => 0
  | b :: t => b.toNat + 256 * leNat t

/-- `n` zero bytes. -/
def zeros (n : Nat) : List Byte := List.replicate n 0

/-- Bytes `off` to `off + n - 1` of `bs`; zero bytes stand for those beyond its end. -/
def slice (bs : List Byte) (off n : Nat) : List Byte :=
  let t := (bs.drop off).take n
  t ++ zeros (n - t.length)

/-- The little-endian field of `n` bytes at `off`. -/
def fieldAt (n : Nat) (bs : List Byte) (off : Nat) : Nat := leNat ((bs.drop off).take n)

/-- The u8 at `off`. -/
def u8At (bs : List Byte) (off : Nat) : Nat := fieldAt 1 bs off
/-- The u16 at `off`. -/
def u16At (bs : List Byte) (off : Nat) : Nat := fieldAt 2 bs off
/-- The u32 at `off`. -/
def u32At (bs : List Byte) (off : Nat) : Nat := fieldAt 4 bs off
/-- The u64 at `off`. -/
def u64At (bs : List Byte) (off : Nat) : Nat := fieldAt 8 bs off

/-- Every byte of the list is zero. -/
def allZero (bs : List Byte) : Bool := bs.all (fun b => decide (b = 0))

/-- The field of `n` bytes at `off` is zero. -/
def zeroAt (bs : List Byte) (off n : Nat) : Bool := allZero ((bs.drop off).take n)

/-- `bs` with `new` written at `off` (the part beyond its end is dropped). -/
def patch (bs : List Byte) (off : Nat) (new : List Byte) : List Byte :=
  (bs.take off) ++ (new.take (bs.length - off)) ++ bs.drop (off + new.length)

/-- `bs` padded with zeros to a multiple of `n` bytes. -/
def padTo (n : Nat) (bs : List Byte) : List Byte :=
  if n = 0 then bs else bs ++ zeros ((n - bs.length % n) % n)

/-- Smallest multiple of `m` not below `n`. -/
def roundUp (n m : Nat) : Nat := if m = 0 then n else (n + m - 1) / m * m

/-- `bs` cut into pieces of `n` bytes, the last perhaps shorter. -/
def chunksAux (n : Nat) : Nat → List Byte → List (List Byte)
  | 0, _ => []
  | _, [] => []
  | f + 1, bs => bs.take n :: chunksAux n f (bs.drop n)

/-- `bs` cut into pieces of `n` bytes. -/
def chunks (n : Nat) (bs : List Byte) : List (List Byte) := if n = 0 then [] else chunksAux n bs.length bs

/-- The bytes of an ASCII text. -/
def ascii (t : String) : List Byte := t.toList.map (fun c => BitVec.ofNat 8 c.toNat)

/-- Bits `hi` to `lo` of `v`, as a number. -/
def bits (v hi lo : Nat) : Nat := v / 2 ^ lo % 2 ^ (hi + 1 - lo)

/-- Bit `i` of `v`. -/
def bit (v i : Nat) : Bool := decide (v / 2 ^ i % 2 = 1)

/-- A 256-bit digest from its 32 bytes, byte 0 least significant. -/
def digestOf (bs : List Byte) : Digest := BitVec.ofNat 256 (leNat (bs.take 32))

/-- The 32 bytes of a digest. -/
def digestBytes (d : Digest) : List Byte := leBytes 32 d.toNat

/-- The two's complement value of the low `w` bits of `v`. -/
def sintOf (w v : Nat) : Int :=
  let u := v % 2 ^ w
  if w = 0 then 0 else if u < 2 ^ (w - 1) then (u : Int) else (u : Int) - (2 ^ w : Nat)

/-- The low `w` bits of the two's complement form of `i`. -/
def uintOf (w : Nat) (i : Int) : Nat := (i % ((2 ^ w : Nat) : Int)).toNat

end Sys2Proof.Machine
end

