-- ==== Sys2Proof/Machine/Number.lean ====
section
/-! DEFINITION. Number formats, exact values and rounding (03 R71-R79, R572). A finite value is a sign and an exact rational
magnitude; every rounding is one rounding of an exact magnitude. -/

namespace Sys2Proof.Machine

/-- An exact value: a NaN, an infinity, or the magnitude `n ÷ d` with a sign (which a zero keeps, R74). -/
inductive Num where
  | nan
  | inf (neg : Bool)
  | fin (neg : Bool) (n d : Nat)
  deriving DecidableEq, Repr

/-- Plus zero. -/
def Num.zero : Num := .fin false 0 1

/-- `m` times 2 to the `e`. -/
def scaled (neg : Bool) (m : Nat) (e : Int) : Num :=
  if 0 ≤ e then .fin neg (m * 2 ^ e.toNat) 1 else .fin neg m (2 ^ (-e).toNat)

/-- The value of an integer. -/
def ofInt (i : Int) : Num := .fin (decide (i < 0)) i.natAbs 1

/-- Exponent bits, fraction bits, bias and whether there is an infinity, of a float format code (Table 3.2). -/
def floatParams (c : Nat) : Option (Nat × Nat × Nat × Bool) :=
  match c with
  | 6 => some (4, 3, 7, false)
  | 7 => some (5, 2, 15, true)
  | 8 => some (5, 10, 15, true)
  | 9 => some (8, 7, 127, true)
  | 10 => some (8, 23, 127, true)
  | _ => none

/-- The width of a fixed-width format (Table 3.1); for codes 0 to 2 the field's width `w`. -/
def fmtWidth (c w : Nat) : Nat :=
  match c with
  | 3 => 4
  | 4 => 8
  | 5 => 32
  | 6 => 8
  | 7 => 8
  | 8 => 16
  | 9 => 16
  | 10 => 32
  | 11 => 40
  | 12 => 1
  | _ => w

/-- The canonical NaN of a float format (Table 3.2). -/
def canonNan (c : Nat) : Nat :=
  match c with
  | 6 => 0x7F
  | 7 => 0x7E
  | 8 => 0x7E00
  | 9 => 0x7FC0
  | _ => 0x7FC00000

/-- The value of float bits (R73). -/
def floatVal (c v : Nat) : Num :=
  match floatParams c with
  | none => .nan
  | some (eb, f, bias, hasInf) =>
    let frac := v % 2 ^ f
    let e := v / 2 ^ f % 2 ^ eb
    let neg := decide (v / 2 ^ (f + eb) % 2 = 1)
    if e = 2 ^ eb - 1 ∧ hasInf then (if frac = 0 then .inf neg else .nan)
    else if e = 2 ^ eb - 1 ∧ frac = 2 ^ f - 1 then .nan
    else if e = 0 then scaled neg frac (1 - (bias : Int) - f)
    else scaled neg (2 ^ f + frac) ((e : Int) - bias - f)

/-- The value of a word in a format, its low bits taken at the format's width (Table 3.1). -/
def fmtVal (c w v : Nat) : Num :=
  let u := v % 2 ^ fmtWidth c w
  match c with
  | 2 => ofInt (sintOf w u)
  | 3 => ofInt (sintOf 4 u)
  | 4 => ofInt (sintOf 8 u)
  | 5 => ofInt (sintOf 32 u)
  | 11 =>
    let i := sintOf 40 u
    .fin (decide (i < 0)) i.natAbs (2 ^ 24)
  | 0 => .fin false u 1
  | 1 => .fin false u 1
  | 12 => .fin false u 1
  | _ => floatVal c u

/-! ## Exact arithmetic (R572) -/

/-- The exact sum; a zero sum is plus zero unless both addends are minus zero. -/
def Num.add : Num → Num → Num
  | .nan, _ => .nan
  | _, .nan => .nan
  | .inf a, .inf b => if a = b then .inf a else .nan
  | .inf a, _ => .inf a
  | _, .inf b => .inf b
  | .fin s n d, .fin t m e =>
    let x : Int := (if s then -((n * e : Nat) : Int) else ((n * e : Nat) : Int))
      + (if t then -((m * d : Nat) : Int) else ((m * d : Nat) : Int))
    if x = 0 then .fin (s && t && decide (n = 0) && decide (m = 0)) 0 1 else .fin (decide (x < 0)) x.natAbs (d * e)

/-- The exact product; its sign is the exclusive or of the signs. -/
def Num.mul : Num → Num → Num
  | .nan, _ => .nan
  | _, .nan => .nan
  | .inf a, .inf b => .inf (a != b)
  | .inf a, .fin t m _ => if m = 0 then .nan else .inf (a != t)
  | .fin s n _, .inf b => if n = 0 then .nan else .inf (s != b)
  | .fin s n d, .fin t m e => .fin (s != t) (n * m) (d * e)

/-- The value with its sign turned. -/
def Num.neg : Num → Num
  | .nan => .nan
  | .inf a => .inf !a
  | .fin s n d => .fin (!s) n d

/-- The value is a zero. -/
def Num.isZero : Num → Bool
  | .fin _ n _ => decide (n = 0)
  | _ => false

/-- Less than, on values that are no NaN; zeros of either sign are equal (R75). -/
def Num.lt : Num → Num → Bool
  | .nan, _ => false
  | _, .nan => false
  | .inf a, .inf b => a && !b
  | .inf a, _ => a
  | _, .inf b => !b
  | .fin s n d, .fin t m e =>
    let x : Int := if s then -((n * e : Nat) : Int) else ((n * e : Nat) : Int)
    let y : Int := if t then -((m * d : Nat) : Int) else ((m * d : Nat) : Int)
    decide (x < y)

/-- Equality of values that are no NaN. -/
def Num.eqv (a b : Num) : Bool :=
  match a, b with
  | .nan, _ => false
  | _, .nan => false
  | _, _ => !a.lt b && !b.lt a

/-! ## Rounding (R76, R77) -/

/-- A rounding mode of Table 3.3; SR carries its draw. -/
inductive Rnd where
  | rne
  | rtz
  | sr (u : W32)
  deriving DecidableEq, Repr

/-- The integer that the magnitude N ÷ D rounds to. -/
def roundNat (r : Rnd) (n d : Nat) : Nat :=
  let k := n / d
  let rem := n % d
  match r with
  | .rtz => k
  | .rne => if 2 * rem < d then k else if d < 2 * rem then k + 1 else k + k % 2
  | .sr u => if u.toNat < rem * 2 ^ 32 / d then k + 1 else k

/-- The integer that (n ÷ d) ÷ 2^q rounds to. -/
def roundAt (r : Rnd) (n d : Nat) (q : Int) : Nat :=
  if 0 ≤ q then roundNat r n (d * 2 ^ q.toNat) else roundNat r (n * 2 ^ (-q).toNat) d

/-- ⌊log2 (n ÷ d)⌋ for n, d above 0. -/
def ilog2 (n d : Nat) : Int :=
  let g : Int := (n.log2 : Int) - (d.log2 : Int)
  -- 2^g is within a factor of two of n ÷ d
  if 0 ≤ g then (if d * 2 ^ g.toNat ≤ n then g else g - 1) else (if d ≤ n * 2 ^ (-g).toNat then g else g - 1)

/-- A value rounded once to a float format (R79): the bits. `sat` is SAT of pack; FP8_E4M3 always saturates. -/
def toFloat (c : Nat) (r : Rnd) (sat : Bool) (x : Num) : Nat :=
  match floatParams c with
  | none => 0
  | some (eb, f, bias, hasInf) =>
    let top := 2 ^ (f + eb)
    -- bits of the largest finite magnitude
    let big := if hasInf then (2 ^ eb - 1) * 2 ^ f - 1 else 2 ^ (f + eb) - 2
    let infBits := if hasInf then (2 ^ eb - 1) * 2 ^ f else big
    match x with
    | .nan => canonNan c
    | .inf s => (if s then top else 0) + (if sat then big else infBits)
    | .fin s n d =>
      let sg := if s then top else 0
      if n = 0 then sg
      else
        let emin : Int := 1 - (bias : Int)
        let q : Int := (if ilog2 n d < emin then emin else ilog2 n d) - f
        let k := roundAt r n d q
        -- k counts units of 2^q; with q at emin - f it is the subnormal fraction itself
        let base : Nat := (q - (emin - f)).toNat * 2 ^ f
        let mag := base + k
        if big < mag then
          (match r with
           | .rne => if sat || !hasInf then sg + big else sg + infBits
           | _ => sg + big)
        else sg + mag

/-- Saturation to `[lo, hi]`. -/
def clampInt (lo hi i : Int) : Int := if i < lo then lo else if hi < i then hi else i

/-- A value rounded to multiples of 2^-frac and saturated to [lo, hi] in those units (R79); NaN gives 0. -/
def toFixed (r : Rnd) (frac : Nat) (lo hi : Int) (x : Num) : Int :=
  match x with
  | .nan => 0
  | .inf s => if s then lo else hi
  | .fin s n d =>
    let k : Int := roundNat r (n * 2 ^ frac) d
    clampInt lo hi (if s then -k else k)

/-- A value converted to a format, once rounded (R79): the bits at the format's width. -/
def toFmt (c w : Nat) (r : Rnd) (sat : Bool) (x : Num) : Nat :=
  let sw := fmtWidth c w
  match floatParams c with
  | some _ => toFloat c r sat x
  | none =>
    if c = 11 then uintOf 40 (toFixed r 24 (-(2 ^ 39 : Int)) (2 ^ 39 - 1) x)
    else if c = 2 ∨ c = 3 ∨ c = 4 ∨ c = 5 then
      uintOf sw (toFixed r 0 (-((2 ^ (sw - 1) : Nat) : Int)) (((2 ^ (sw - 1) : Nat) : Int) - 1) x)
    else uintOf sw (toFixed r 0 0 (((2 ^ sw : Nat) : Int) - 1) x)

/-- Bytes that hold an element of width `w` (R167). -/
def elemBytes (w : Nat) : Nat := if w ≤ 8 then 1 else if w ≤ 16 then 2 else if w ≤ 32 then 4 else 8

/-- An element's bytes: sign-extended for SINT, INT4, INT8 and INT32, zero-extended otherwise (R167). -/
def elemOf (fmt w bits : Nat) : List Byte :=
  let sw := fmtWidth fmt w
  let n := elemBytes sw
  if fmt = 2 ∨ fmt = 3 ∨ fmt = 4 ∨ fmt = 5 then leBytes n (uintOf (8 * n) (sintOf sw bits)) else leBytes n (bits % 2 ^ sw)

/-- Code of FP32. -/
def fmtFp32 : Nat := 10

/-- A value rounded to FP32 by RNE. -/
def toFp32 (x : Num) : W32 := BitVec.ofNat 32 (toFloat 10 .rne false x)

/-- The value of FP32 bits. -/
def fp32Val (v : W32) : Num := floatVal 10 v.toNat

/-- The relation `rel` of compare (Table 3.5) between two values; `un` makes it true of unordered operands (R75). -/
def relHolds (rel : Nat) (un : Bool) (a b : Num) : Bool :=
  if a = .nan ∨ b = .nan then un || rel == 1
  else
    match rel with
    | 0 => a.eqv b
    | 1 => !a.eqv b
    | 2 => a.lt b
    | 3 => !b.lt a
    | 4 => b.lt a
    | 5 => !a.lt b
    | _ => false

/-- Sign of a value (false for a NaN). -/
def Num.sign : Num → Bool
  | .nan => false
  | .inf s => s
  | .fin s _ _ => s

/-- The first operand is the one min (or max) returns (R75): a NaN loses, minus zero is below plus zero, A when equal. -/
def pickFirst (isMax : Bool) (a b : Num) : Bool :=
  if a = .nan then false
  else if b = .nan then true
  else if a.isZero && b.isZero && a.sign != b.sign then (if isMax then !a.sign else a.sign)
  else if isMax then !a.lt b else !b.lt a

end Sys2Proof.Machine
end

