-- ==== Sys2Proof/Config.lean ====
section
/-! DEFINITION. What an implementation fixes and the spec does not give: opaque constants, of which nothing can be proved but
what holds of every value. Each is applied to what it depends on, or to the free counter of State (notes/assumptions/3.md). -/

namespace Sys2Proof

/-- A 256-bit value the spec does not give (random bytes, keys, digests of what the model does not hold). -/
opaque Config.free256 : Nat → BitVec 256
/-- A signature of the device identity key (22 R516, 23 R534): 2,420 bytes. -/
opaque Config.signature : Nat → BitVec 19360
/-- An ML-DSA-44 public key of the device identity (23 R532): 1,312 bytes. -/
opaque Config.publicKey : BitVec 256 → BitVec 10496
/-- An ML-KEM-768 encapsulation key (15 R369): 1,184 bytes. -/
opaque Config.encapsKey : Nat → BitVec 9472
/-- An ML-KEM-768 ciphertext: 1,088 bytes. -/
opaque Config.ciphertext : Nat → BitVec 8704
/-- M0: SHA3-256 of the ROM contents (23 R527), which the spec does not give. -/
opaque Config.romDigest : BitVec 256
/-- A 64-bit value the spec does not give. -/
opaque Config.free64 : Nat → W64

/-- Bytes of the flash that the board attaches (23 R521). -/
opaque Config.flashBytes : Nat

/-- The body of a dynamic-Huffman DEFLATE block for its tokens (05 R145): the code lengths are the implementation's. -/
opaque Config.deflateDyn : List (Nat × Nat) → List Bool
/-- A TANS section (05 R139, R145) for a table log and symbols: the counts and the first state are the implementation's. -/
opaque Config.tansSection : Nat → List Nat → List Byte
/-- The content of a compressed Zstandard block for its literals and its (LL, ML, OF) sequences (05 R145). -/
opaque Config.zstdBlock : List Byte → List (Nat × Nat × Nat) → List Byte

end Sys2Proof
end

