-- ==== Sys2Proof/Machine/Codes.lean ====
section
/-! DEFINITION. The codes of the manual (00 Table 0.6), each by the name its chapter gives it. -/

namespace Sys2Proof.Machine

abbrev cOk : W16 := 0x0000#16
-- transport (15 Table 15.13)
abbrev cPeerDown : W16 := 0x1001#16
abbrev cFateUnknown : W16 := 0x1002#16
abbrev cNodeUnknown : W16 := 0x1003#16
abbrev cAddrNodeMismatch : W16 := 0x1004#16
abbrev cAddrUnmapped : W16 := 0x1005#16
abbrev cWindowRefused : W16 := 0x1006#16
abbrev cAccessProtected : W16 := 0x1007#16
abbrev cAccessUnpopulated : W16 := 0x1008#16
abbrev cDeltaRowAbsent : W16 := 0x1009#16
abbrev cOpInvalid : W16 := 0x100A#16
abbrev cMessageRefused : W16 := 0x100B#16
abbrev cSignalRefused : W16 := 0x100C#16
abbrev cPeerQuarantined : W16 := 0x100D#16
abbrev cSessionLimit : W16 := 0x100E#16
-- channels and work (04 Table 4.11)
abbrev cDescriptorInvalid : W16 := 0x1801#16
abbrev cHandleInvalid : W16 := 0x1802#16
abbrev cStaleHandle : W16 := 0x1803#16
abbrev cSeqGap : W16 := 0x1804#16
abbrev cSeqConflict : W16 := 0x1805#16
abbrev cSeqRetired : W16 := 0x1806#16
abbrev cChannelClosing : W16 := 0x1808#16
abbrev cOpcodeNotAccepted : W16 := 0x1809#16
abbrev cOutOfBounds : W16 := 0x180A#16
abbrev cChannelFull : W16 := 0x180B#16
abbrev cCancelled : W16 := 0x180C#16
abbrev cNoFreeChannel : W16 := 0x180D#16
abbrev cRingSpace : W16 := 0x180E#16
abbrev cTcNotAllowed : W16 := 0x180F#16
abbrev cControlInvalid : W16 := 0x1810#16
abbrev cJournalUnavailable : W16 := 0x1811#16
-- sync (14 Table 14.9)
abbrev cUnderflow : W16 := 0x4001#16
abbrev cOverflow : W16 := 0x4002#16
abbrev cWaitTimeout : W16 := 0x4003#16
abbrev cBarrierLap : W16 := 0x4004#16
abbrev cSyncTargetInvalid : W16 := 0x4005#16
-- layout (13)
abbrev cAlignment : W16 := 0x5001#16
-- embedding (12)
abbrev cTableNotReady : W16 := 0x6002#16
-- register access (20 Table 20.7)
abbrev cRegUnaligned : W16 := 0x9001#16
abbrev cNarrowWrite : W16 := 0x9002#16
abbrev cGuardFail : W16 := 0x9003#16
abbrev cRegUndefined : W16 := 0x9004#16
abbrev cRegOpInvalid : W16 := 0x9005#16
abbrev cSnapBusy : W16 := 0x9006#16
-- plate (02 Table 2.12)
abbrev cPlateHeader : W16 := 0xA001#16
abbrev cPlateTarget : W16 := 0xA002#16
abbrev cSection : W16 := 0xA003#16
abbrev cDigest : W16 := 0xA004#16
abbrev cSigner : W16 := 0xA005#16
abbrev cSignature : W16 := 0xA006#16
abbrev cSectionCrc : W16 := 0xA007#16
abbrev cCellConfig : W16 := 0xA008#16
abbrev cNoFit : W16 := 0xA009#16
abbrev cFallback : W16 := 0xA00A#16
abbrev cProof : W16 := 0xA00B#16
abbrev cPlateState : W16 := 0xA00C#16
abbrev cInletMissing : W16 := 0xA00D#16
abbrev cStandbyDiscarded : W16 := 0xA00E#16
abbrev cChannelsExist : W16 := 0xA00F#16
abbrev cNoPlate : W16 := 0xA010#16
-- security and roles (22 Table 22.6)
abbrev cRoleRefused : W16 := 0xB001#16
abbrev cRoleList : W16 := 0xB002#16
-- memory integrity (19 Table 19.6)
abbrev cPoisoned : W16 := 0xC001#16
abbrev cMiConfig : W16 := 0xC002#16
-- recovery (17 Table 17.8)
abbrev cInputLost : W16 := 0xD001#16
abbrev cNoFallback : W16 := 0xD002#16
abbrev cDataLost : W16 := 0xD003#16
abbrev cOutputLost : W16 := 0xD004#16
abbrev cCommitTooLarge : W16 := 0xD005#16
abbrev cRecoveryBusy : W16 := 0xD006#16
abbrev cDoubleFault : W16 := 0xD007#16
abbrev cCapeLost : W16 := 0xD008#16
abbrev cResetInvalid : W16 := 0xD009#16
-- fault injection (18 Table 18.5)
abbrev cFiConfig : W16 := 0xE001#16
abbrev cFiTarget : W16 := 0xE002#16
abbrev cFiBusy : W16 := 0xE003#16
abbrev cFiAudit : W16 := 0xE004#16
abbrev cFiLost : W16 := 0xE005#16

end Sys2Proof.Machine
end

