-- ==== Sys2Proof/Machine/Hash.lean ====
section
/-! DEFINITION. The hash functions the spec fixes: CRC32C (08 R193), SipHash-2-4 (R194), AKH64 (R196), Philox4x32-10 (07 R180),
the checksums that the Graver's formats carry (05 R131, R132), and SHA3-256 (00 Table 0.1; FIPS 202, notes/assumptions/11.md). -/

namespace Sys2Proof.Machine

/-- `f n`, with `n` computed first where Lean's kernel evaluates it. -/
def evalFirst (n : Nat) (f : Nat → Nat) : Nat :=
  match n with
  | 0 => f 0
  | k + 1 => f (k + 1)

/-- One bit of a reflected 32-bit CRC of a polynomial. -/
def crcBit (poly c : Nat) : Nat := if c % 2 = 0 then c / 2 else c / 2 ^^^ poly

/-- Some bits of it. -/
def crcBits (poly : Nat) : Nat → Nat → Nat
  | 0, c => c
  | n + 1, c => evalFirst (crcBit poly c) (crcBits poly n)

/-- The CRC register after some bytes. -/
def crcBytes (poly : Nat) : List Byte → Nat → Nat
  | [], c => c
  | b :: t, c => evalFirst (crcBits poly 8 (c ^^^ b.toNat)) (crcBytes poly t)

/-- The same on a register word, without initial value and final XOR. -/
def crcFrom (poly c : W32) (bs : List Byte) : W32 := BitVec.ofNat 32 (crcBytes poly.toNat bs c.toNat)

/-- A reflected 32-bit CRC with initial value and final XOR of all ones. -/
def crcOf (poly : W32) (bs : List Byte) : W32 := ~~~ crcFrom poly 0xFFFFFFFF#32 bs

/-- CRC32C (08 R193): every CRC32C of the manual. -/
def crc32c (bs : List Byte) : W32 := crcOf 0x82F63B78#32 bs

/-- The CRC-32 of gzip and of Parquet pages (05 R131, 06 Table 6.2). -/
def crc32 (bs : List Byte) : W32 := crcOf 0xEDB88320#32 bs

/-- The Adler-32 of zlib (05 R131), from a running value. -/
def adlerFrom (v : Nat) (bs : List Byte) : Nat :=
  let p := bs.foldl (fun (p : Nat × Nat) b => let a := (p.1 + b.toNat) % 65521; (a, (p.2 + a) % 65521))
    (v % 65536, v / 65536)
  p.2 * 65536 + p.1

/-- The Adler-32 of zlib. -/
def adler32 (bs : List Byte) : Nat := adlerFrom 1 bs

/-- akh_mix of 08 R196. -/
def akhMix (w : W64) : W64 := let x := w * 0xBF58476D1CE4E5B9#64; x ^^^ (x >>> 31)

/-- akh_fin of 08 R196. -/
def akhFin (h : W64) : W64 :=
  let h := (h ^^^ (h >>> 33)) * 0xFF51AFD7ED558CCD#64
  let h := (h ^^^ (h >>> 33)) * 0xC4CEB9FE1A85EC53#64
  h ^^^ (h >>> 33)

/-- The absorbing step of akh64 (08 R196). -/
def akhAbsorb (h w : W64) : W64 :=
  let h := (h ^^^ akhMix w) * 0xC2B2AE3D27D4EB4F#64
  h ^^^ (h >>> 29)

/-- akh64 of 08 R196. -/
def akh64 (bs : List Byte) (seed : W64) : W64 :=
  let h0 := seed ^^^ (BitVec.ofNat 64 bs.length * 0x9E3779B97F4A7C15#64)
  akhFin ((chunks 8 bs).foldl (fun h c => akhAbsorb h (BitVec.ofNat 64 (leNat c))) h0)

/-- The four state words of SipHash. -/
structure Sip where
  v0 : W64
  v1 : W64
  v2 : W64
  v3 : W64
  deriving DecidableEq, Repr

/-- One SipRound (08 R194: the function of Aumasson and Bernstein). -/
def sipRound (s : Sip) : Sip :=
  let v0 := s.v0 + s.v1
  let v1 := (s.v1.rotateLeft 13) ^^^ v0
  let v0 := v0.rotateLeft 32
  let v2 := s.v2 + s.v3
  let v3 := (s.v3.rotateLeft 16) ^^^ v2
  let v0 := v0 + v3
  let v3 := (v3.rotateLeft 21) ^^^ v0
  let v2 := v2 + v1
  let v1 := (v1.rotateLeft 17) ^^^ v2
  let v2 := v2.rotateLeft 32
  ⟨v0, v1, v2, v3⟩

/-- One message word of SipHash-2-4. -/
def sipWord (s : Sip) (m : W64) : Sip :=
  let t := sipRound (sipRound { s with v3 := s.v3 ^^^ m })
  { t with v0 := t.v0 ^^^ m }

/-- SipHash-2-4 with 64-bit output (08 R194): k0 is key bytes 0-7, k1 bytes 8-15. -/
def sipHash (key bs : List Byte) : W64 :=
  let k0 := BitVec.ofNat 64 (u64At key 0)
  let k1 := BitVec.ofNat 64 (u64At key 8)
  let s0 : Sip := ⟨k0 ^^^ 0x736F6D6570736575#64, k1 ^^^ 0x646F72616E646F6D#64,
    k0 ^^^ 0x6C7967656E657261#64, k1 ^^^ 0x7465646279746573#64⟩
  let whole := bs.length / 8
  let last := BitVec.ofNat 64 (leNat (bs.drop (8 * whole)) + 2 ^ 56 * (bs.length % 256))
  let s1 := (chunks 8 (bs.take (8 * whole))).foldl (fun s c => sipWord s (BitVec.ofNat 64 (leNat c))) s0
  let s2 := sipWord s1 last
  let s3 := sipRound (sipRound (sipRound (sipRound { s2 with v2 := s2.v2 ^^^ 0xFF#64 })))
  s3.v0 ^^^ s3.v1 ^^^ s3.v2 ^^^ s3.v3

/-- A Philox block: the four counter words. -/
structure PBlock where
  c0 : W32
  c1 : W32
  c2 : W32
  c3 : W32
  deriving DecidableEq, Repr

/-- Word `i mod 4` of a block. -/
def PBlock.word (b : PBlock) (i : Nat) : W32 :=
  if i % 4 = 0 then b.c0 else if i % 4 = 1 then b.c1 else if i % 4 = 2 then b.c2 else b.c3

/-- One Philox round (07 R180). -/
def philoxRound (k0 k1 : W32) (b : PBlock) : PBlock :=
  let p0 : W64 := 0xD2511F53#64 * b.c0.setWidth 64
  let p1 : W64 := 0xCD9E8D57#64 * b.c2.setWidth 64
  ⟨(p1 >>> 32).setWidth 32 ^^^ b.c1 ^^^ k0, p1.setWidth 32, (p0 >>> 32).setWidth 32 ^^^ b.c3 ^^^ k1, p0.setWidth 32⟩

/-- Philox4x32-10 (07 R180). -/
def philox (k0 k1 : W32) (b : PBlock) : PBlock :=
  ((List.range 10).foldl
    (fun (x : PBlock × W32 × W32) _ =>
      (philoxRound x.2.1 x.2.2 x.1, x.2.1 + 0x9E3779B9#32, x.2.2 + 0xBB67AE85#32)) (b, k0, k1)).1

/-- Word u_j of operation `op` on sample `idx` under a job seed (07 Table 7.1, R181; 03 R78). -/
def drawWord (seed idx : W64) (op : Nat) (j : Nat) : W32 :=
  (philox (seed.setWidth 32) ((seed >>> 32).setWidth 32)
    ⟨idx.setWidth 32, (idx >>> 32).setWidth 32, BitVec.ofNat 32 (op % 65536 + 65536 * (j / 4 % 65536)), 0⟩).word j

/-- XXH64 with seed 0, whose low 32 bits are the Content_Checksum of a Zstandard frame (05 R132). -/
def xxRound (acc w : W64) : W64 := ((acc + w * 0xC2B2AE3D27D4EB4F#64).rotateLeft 31) * 0x9E3779B185EBCA87#64

/-- The merge of one accumulator of XXH64. -/
def xxMerge (h v : W64) : W64 := (h ^^^ xxRound 0 v) * 0x9E3779B185EBCA87#64 + 0x85EBCA77C2B2AE63#64

/-- The tail bytes of XXH64. -/
def xxTail : Nat → W64 → List Byte → W64
  | 0, h, _ => h
  | f + 1, h, bs =>
    if 8 ≤ bs.length then
      xxTail f (((h ^^^ xxRound 0 (BitVec.ofNat 64 (leNat (bs.take 8)))).rotateLeft 27) * 0x9E3779B185EBCA87#64
        + 0x85EBCA77C2B2AE63#64) (bs.drop 8)
    else if 4 ≤ bs.length then
      xxTail f (((h ^^^ (BitVec.ofNat 64 (leNat (bs.take 4)) * 0x9E3779B185EBCA87#64)).rotateLeft 23)
        * 0xC2B2AE3D27D4EB4F#64 + 0x165667B19E3779F9#64) (bs.drop 4)
    else match bs with
      | [] => h
      | b :: t => xxTail f (((h ^^^ (b.setWidth 64 * 0x27D4EB2F165667C5#64)).rotateLeft 11) * 0x9E3779B185EBCA87#64) t

/-- XXH64 with seed 0. -/
def xxh64 (bs : List Byte) : W64 :=
  let p1 : W64 := 0x9E3779B185EBCA87#64
  let p2 : W64 := 0xC2B2AE3D27D4EB4F#64
  let n := bs.length / 32 * 32
  let h :=
    if bs.length < 32 then 0x27D4EB2F165667C5#64
    else
      let a := (chunks 32 (bs.take n)).foldl
        (fun (a : W64 × W64 × W64 × W64) c =>
          let w := fun i => BitVec.ofNat 64 (u64At c (8 * i))
          (xxRound a.1 (w 0), xxRound a.2.1 (w 1), xxRound a.2.2.1 (w 2), xxRound a.2.2.2 (w 3)))
        (p1 + p2, p2, 0#64, 0 - p1)
      xxMerge (xxMerge (xxMerge (xxMerge
        (a.1.rotateLeft 1 + a.2.1.rotateLeft 7 + a.2.2.1.rotateLeft 12 + a.2.2.2.rotateLeft 18) a.1) a.2.1) a.2.2.1) a.2.2.2
  let h := xxTail bs.length (h + BitVec.ofNat 64 bs.length) (bs.drop n)
  let h := (h ^^^ (h >>> 33)) * p2
  let h := (h ^^^ (h >>> 29)) * 0x165667B19E3779F9#64
  h ^^^ (h >>> 32)

/-- The round constants of Keccak-f[1600]. -/
def keccakRc : List W64 :=
  [0x0000000000000001#64, 0x0000000000008082#64, 0x800000000000808A#64, 0x8000000080008000#64, 0x000000000000808B#64,
   0x0000000080000001#64, 0x8000000080008081#64, 0x8000000000008009#64, 0x000000000000008A#64, 0x0000000000000088#64,
   0x0000000080008009#64, 0x000000008000000A#64, 0x000000008000808B#64, 0x800000000000008B#64, 0x8000000000008089#64,
   0x8000000000008003#64, 0x8000000000008002#64, 0x8000000000000080#64, 0x000000000000800A#64, 0x800000008000000A#64,
   0x8000000080008081#64, 0x8000000000008080#64, 0x0000000080000001#64, 0x8000000080008008#64]

/-- One round of Keccak-f[1600], theta: every lane of the 1600-bit state, lane (x, y) at bit 64 (5y + x), takes the parity of the
column before it and that of the column after it, the latter rotated by one. -/
def keccakTheta (a : Nat) : Nat :=
  let ones := 2 ^ 256 + 2 ^ 192 + 2 ^ 128 + 2 ^ 64 + 1
  let c := (a ^^^ a / 2 ^ 320 ^^^ a / 2 ^ 640 ^^^ a / 2 ^ 960 ^^^ a / 2 ^ 1280) % 2 ^ 320
  let q := c * 2 % 2 ^ 320
  let rot := (q ^^^ (q &&& ones)) + (c / 2 ^ 63 &&& ones)
  let d := (c * 2 ^ 64 % 2 ^ 320 + c / 2 ^ 256) ^^^ (rot / 2 ^ 64 + rot % 2 ^ 64 * 2 ^ 256)
  a ^^^ d * (2 ^ 1280 + 2 ^ 960 + 2 ^ 640 + 2 ^ 320 + 1)

/-- Rho and pi: the bit where a lane goes, the bit it comes from, its rotation. -/
def keccakMoves : List (Nat × Nat × Nat) :=
  [(0, 0, 0), (64, 384, 44), (128, 768, 43), (192, 1152, 21), (256, 1536, 14), (320, 192, 28), (384, 576, 20), (448, 640, 3),
   (512, 1024, 45), (576, 1408, 61), (640, 64, 1), (704, 448, 6), (768, 832, 25), (832, 1216, 8), (896, 1280, 18), (960, 256, 27),
   (1024, 320, 36), (1088, 704, 10), (1152, 1088, 15), (1216, 1472, 56), (1280, 128, 62), (1344, 512, 55), (1408, 896, 39),
   (1472, 960, 41), (1536, 1344, 2)]

/-- The lanes rotated and moved. -/
def keccakRhoPi (t : Nat) : Nat :=
  keccakMoves.foldl (fun b m =>
    let v := t / 2 ^ m.2.1 % 2 ^ 64
    b + (v * 2 ^ m.2.2 % 2 ^ 64 + v / 2 ^ (64 - m.2.2)) * 2 ^ m.1) 0

/-- Chi: each lane takes the AND of the next one's complement with the one after, along its row. -/
def keccakChi (b : Nat) : Nat :=
  let planes := 2 ^ 1280 + 2 ^ 960 + 2 ^ 640 + 2 ^ 320 + 1
  let full := 2 ^ 1600 - 1
  let four := (2 ^ 256 - 1) * planes
  let three := (2 ^ 192 - 1) * planes
  let b1 := (b / 2 ^ 64 &&& four) + (b * 2 ^ 256 &&& (full - four))
  let b2 := (b / 2 ^ 128 &&& three) + (b * 2 ^ 192 &&& (full - three))
  b ^^^ ((full - b1) &&& b2)

/-- One round, with its round constant. -/
def keccakRound (a : Nat) (rc : W64) : Nat :=
  evalFirst a (fun a => evalFirst (keccakTheta a) (fun t => evalFirst (keccakRhoPi t) (fun b => keccakChi b ^^^ rc.toNat)))

/-- Keccak-f[1600]. -/
def keccakF (a : Nat) : Nat := keccakRc.foldl keccakRound a

/-- SHA3-256 of a byte string. -/
def sha3 (bs : List Byte) : Digest :=
  let rate := 136
  let q := rate - bs.length % rate
  let padded := bs ++ (if q = 1 then [0x86#8] else 0x06#8 :: (zeros (q - 2) ++ [0x80#8]))
  BitVec.ofNat 256 ((chunks rate padded).foldl (fun st blk => keccakF (st ^^^ leNat blk)) 0)

end Sys2Proof.Machine
end

