-- ==== Sys2Proof/Machine/Sparse.lean ====
section
/-! DEFINITION. Sparse data: a list of (key, value) pairs in ONE canonical form, keys strictly rising, no pair holding the
default value. Memory, register words, counters and every numbered object of the device are held so. -/

namespace Sys2Proof.Machine

/-- A sparse map from numbers. The default value is an argument of the functions below. -/
abbrev SMap (α : Type) := List (Nat × α)

/-- The value at key `k`; `d` where none is listed. -/
def mget {α : Type} (d : α) : SMap α → Nat → α
  | [], _ => d
  | (j, v) :: t, k => if j = k then v else mget d t k

/-- `m` with the pair at `k` replaced by `(k, v)`, in key order. -/
def mput {α : Type} : SMap α → Nat → α → SMap α
  | [], k, v => [(k, v)]
  | (j, w) :: t, k, v =>
    if k < j then (k, v) :: (j, w) :: t
    else if j = k then (k, v) :: t
    else (j, w) :: mput t k v

/-- `m` without a pair at `k`. -/
def mdel {α : Type} : SMap α → Nat → SMap α
  | [], _ => []
  | (j, w) :: t, k => if j = k then t else (j, w) :: mdel t k

/-- `m` with `v` at `k`; writing the default removes the pair, so that equal maps are equal lists. -/
def mset {α : Type} [DecidableEq α] (d : α) (m : SMap α) (k : Nat) (v : α) : SMap α :=
  if v = d then mdel m k else mput m k v

/-- `m` with the value at `k` changed by `f`. -/
def mmod {α : Type} [DecidableEq α] (d : α) (m : SMap α) (k : Nat) (f : α → α) : SMap α :=
  mset d m k (f (mget d m k))

/-- The keys rise strictly, each above `lo` when there is one. -/
def mrising {α : Type} : Option Nat → SMap α → Bool
  | _, [] => true
  | lo, (k, _) :: t => (match lo with | none => true | some l => decide (l < k)) && mrising (some k) t

/-- The canonical form: keys strictly rising and no pair at the default. -/
def mwf {α : Type} [DecidableEq α] (d : α) (m : SMap α) : Bool :=
  mrising none m && m.all (fun p => decide (p.2 ≠ d))

/-- `f` applied to every value (values that become the default are dropped). -/
def mmap {α : Type} [DecidableEq α] (d : α) (f : Nat → α → α) (m : SMap α) : SMap α :=
  (m.map (fun p => (p.1, f p.1 p.2))).filter (fun p => decide (p.2 ≠ d))

/-- A set of numbers, as a sparse map to Bool with default false. -/
abbrev NSet := SMap Bool

/-- Membership of a sparse set. -/
def nmem (s : NSet) (k : Nat) : Bool := mget false s k

/-- `s` with `k`. -/
def nadd (s : NSet) (k : Nat) : NSet := mset false s k true

/-- `s` without `k`. -/
def ndel (s : NSet) (k : Nat) : NSet := mset false s k false

end Sys2Proof.Machine
end

