-- ==== Sys2Proof/Machine/State.lean ====
section
/-! DEFINITION. The state of the AK25: every register, store, queue, counter, mode and pin the spec gives it, as plain data.
Each structure names the rules of spec/ that give its fields; INVENTORY.md lists the fields with their reset values. -/

namespace Sys2Proof.Machine

/-! ## Roles, audit and the register block (20, 22) -/

/-- The role of a session (22 R507). -/
inductive Role where
  | none
  | operator
  | installer
  | maker
  deriving DecidableEq, Repr

/-- An audit record (22 Table 22.3), held in the ring of R517. -/
structure AuditRec where
  index : Nat
  time : Nat
  kind : Byte
  code : W16
  role : Role
  source : Byte
  sid : W32
  subject : Digest
  detail : List Byte
  chain : Digest
  deriving DecidableEq, Repr

/-- A signed checkpoint (22 R516): the last record it covers, that record's chain, the signature. -/
structure Checkpoint where
  covered : Nat
  chain : Digest
  sig : BitVec 19360
  deriving DecidableEq, Repr

/-- The audit log engine (22 R513-R519). -/
structure Audit where
  /-- Records written since cold start (SEC_AUDIT_COUNT). -/
  count : Nat
  /-- Chain value of the last record (SEC_AUDIT_HEAD), or the value record 0 chains from. -/
  head : Digest
  /-- Records in the ring that are not yet flushed, oldest first. -/
  ring : List AuditRec
  /-- Checkpoints not yet flushed, oldest first. -/
  checkpoints : List Checkpoint
  /-- Checkpoint slot the next one takes (0-1023). -/
  slot : Nat
  /-- FLUSH_BUSY. -/
  busy : Bool
  /-- The records and checkpoints the flush in progress copies. -/
  flushing : Nat
  flushingCp : Nat
  /-- A FLUSH set while a flush runs starts another after it. -/
  again : Bool
  /-- Flash audit area offset where the next flushed byte goes (circular, 64 MiB). -/
  flashPos : Nat
  /-- DEBUG_UNLOCKED. -/
  unlocked : Bool
  /-- INDEX of this boot's BOOT record (Table 23.6). -/
  bootIndex : Nat
  /-- INDEX and CHAIN of the last record flushed to flash, which power loss leaves (R514, Table 22.4). -/
  lastIndex : Nat
  lastChain : Digest
  deriving DecidableEq, Repr

/-- The pending value of a guarded pair (20 R480): offset, V, accesses left. -/
structure Guard where
  off : Nat
  v : W32
  left : Nat
  deriving DecidableEq, Repr

/-- The captured high word of a counter (20 R476): offset of the high word and its value. -/
structure HiCapture where
  off : Nat
  v : W32
  deriving DecidableEq, Repr

/-- The counter snapshot (20 R487-R489). -/
structure Snap where
  seq : Nat
  busy : Bool
  /-- Dies that have taken their cut of the capture in progress. -/
  cut : NSet
  bankA : SMap W64
  bankB : SMap W64
  deriving DecidableEq, Repr

/-! ## Plates (02) -/

/-- One section of a plate, as copied into the plate store. -/
structure Section where
  kind : Nat
  island : Nat
  sheet : Nat
  case : Nat
  data : List Byte
  deriving DecidableEq, Repr

/-- A plate that passed its checks: the header fields the device keeps and its sections in table order. -/
structure Plate where
  id : W64
  version : W32
  rateNominal : W32
  rateFallback : W32
  sheets : List Nat
  mask : W16
  digest : Digest
  sections : List Section
  deriving DecidableEq, Repr

/-- The state of the standby bank (02 Table 2.8). -/
inductive Standby where
  | empty
  | loading
  | proofing
  | proofed
  | committing
  deriving DecidableEq, Repr

/-- The state of the active bank (02 Table 2.8); the case is a field of its own. -/
inductive Active where
  | empty
  | running
  | fallback
  | paused
  deriving DecidableEq, Repr

/-- A load in progress: the command that began it (1 or 2 of Table 21.3, 8 for the boot plate), its session, the bytes
copied into the standby copy (none where they could not be read). -/
structure Load where
  cmd : Nat
  sid : W32
  bytes : Option (List Byte)
  deriving DecidableEq, Repr

/-- The plate block (02 R54-R68, 21 Table 21.3). -/
structure Plt where
  standby : Standby
  active : Active
  /-- n of FALLBACK(n) or PAUSED(n). -/
  case : Nat
  bootPlate : Bool
  /-- ACTIVE_COPY: store copy Y is the active one. -/
  copyY : Bool
  storeX : Option Plate
  storeY : Option Plate
  load : Option Load
  /-- Islands whose standby bank has passed its proof, and those rewritten once (R60). -/
  proofed : NSet
  rewritten : NSet
  /-- The commit instant has passed (R62-R64). -/
  instant : Bool
  /-- The fallback case that the burin is writing (R53). -/
  fallbackFor : Option Nat
  /-- PLT_CMD LOAD of the boot plate: commit it with no session. -/
  bootLoad : Bool
  deriving DecidableEq, Repr

/-- What an island holds of its sheets (02 R49, 21 R505). -/
structure Isl where
  sheet : Nat
  /-- The outgoing sheet's slice has ended and the switch waits. -/
  switching : Bool
  /-- The next sheet's private lagoon has been filled. -/
  filled : Bool
  /-- The switch waits for that fill. -/
  stalled : Bool
  /-- Switches of the island; the running sheet's private lagoon lies in buffer 0 after an even number of them, else in buffer 1 (R46). -/
  turns : Nat
  deriving DecidableEq, Repr

/-! ## Channels (04) -/

/-- STATE of a channel (04 Table 4.1). -/
inductive ChState where
  | free
  | opened
  | paused
  | draining
  | cancelling
  | closed
  deriving DecidableEq, Repr

/-- STATE of a journal entry (17 Table 17.2). -/
inductive JState where
  | accepted
  | committed
  | completed
  | pushed
  deriving DecidableEq, Repr

/-- A journal entry (17 R411). -/
structure Journal where
  d : Descriptor
  deadline : W32
  tc : BitVec 2
  state : JState
  session : W32
  plate : Digest
  /-- Accepted after the commit instant of a commit in progress (02 R63). -/
  after : Bool
  /-- CANCELLED, NO_PLATE and the like decided for it before its stages ran; 0 none. -/
  verdict : W16
  deriving DecidableEq, Repr

/-- A DESTROY whose reply waits for CLOSED (04 R120). -/
structure Waiting where
  sid : W32
  tag : W64
  deriving DecidableEq, Repr

/-- One channel index (04 R97, Table 4.1; 21 Table 21.4). -/
structure Chan where
  gen : W16
  state : ChState
  held : Bool
  inlet : Byte
  tc : BitVec 2
  ringLog2 : Nat
  deadline : W32
  accepted : Nat
  committed : Nat
  completed : Nat
  retired : Nat
  last : Nat
  /-- Offset of the ring within the ring area (04 R114). -/
  ringOff : Nat
  primary : Nat
  mirror : Nat
  single : Bool
  journal : SMap Journal
  waiting : List Waiting
  /-- Created after the commit instant of a commit in progress. -/
  fresh : Bool
  deriving DecidableEq, Repr

/-- An index that was never used (04 R97). -/
def Chan.init : Chan :=
  { gen := 1, state := .free, held := false, inlet := 0, tc := 0, ringLog2 := 0, deadline := 0, accepted := 0,
    committed := 0, completed := 0, retired := 0, last := 0, ringOff := 0, primary := 0, mirror := 0, single := false,
    journal := [], waiting := [], fresh := false }

/-! ## Sequencers, sync objects and barriers (14) -/

/-- Who waits on an object: the list's key and its N (14 R341). -/
structure Waiter where
  list : Nat
  n : Nat
  deriving DecidableEq, Repr

/-- A sync object (14 R338). -/
structure SyncObj where
  count : Nat
  ceiling : Nat
  timeout : Nat
  queue : List Waiter
  deriving DecidableEq, Repr

/-- What a command list waits on (14 R344), with the microseconds its timeout has left. -/
inductive SeqWait where
  | obj (o : Nat) (n : Nat) (left : Nat)
  | bar (b : Nat) (left : Nat)
  | take
  deriving DecidableEq, Repr

/-- A command list (14 R336): next command, current descriptor, wait, and whether that wait has stopped its handshakes
(14 R347). -/
structure SeqList where
  pc : Nat
  cur : Option RunRef
  wait : Option SeqWait
  slept : Bool
  deriving DecidableEq, Repr

/-- A barrier participant (14 R354): arrivals counted, and one more than w_p (so 0 stands for -1). -/
structure Part where
  a : Nat
  w1 : Nat
  deriving DecidableEq, Repr

/-- A barrier (14 R353, R354): completed generations, the even and odd counters at the root, its participants by list
key (device roots at 0x10000 + node). -/
structure Barrier where
  g : Nat
  even : Nat
  odd : Nat
  parts : SMap Part
  deriving DecidableEq, Repr

/-- A transfer in progress whose signal is attached (14 R349): the issuing list and command index, the descriptor with the
position of its chain at issue, and the result address of an ASU command. -/
structure EngineCmd where
  list : Nat
  index : Nat
  att : Attach
  run : Option RunRef
  pos : Nat
  dest : Option Nat
  deriving DecidableEq, Repr

/-- A sync error record (14 Table 14.5). -/
structure SynErr where
  code : W16
  target : Nat
  reef : Nat
  list : Nat
  index : Nat
  handle : W32
  count : Nat
  node : Nat
  deriving DecidableEq, Repr

/-- An island's sync error ring (14 R346). -/
structure SynRing where
  recs : SMap SynErr
  head : Nat
  written : Nat
  deriving DecidableEq, Repr

/-! ## Cells and accumulators (03) -/

/-- A wide exact accumulator (03 R86): the 320-bit ACC as its integer value in units of 2^-149. -/
structure Wxa where
  acc : Int
  terms : Nat
  exclNan : Nat
  exclInf : Nat
  exclRange : Nat
  lowBits : Bool
  full : Bool
  square : Bool
  deriving DecidableEq, Repr

/-- A record cell's own state (02 Table 2.6, 03 R78): previous result, SR draws on the current record, its run and sample. -/
structure RCell where
  prev : W64
  srCount : Nat
  run : Nat
  sample : W64
  deriving DecidableEq, Repr

/-- A dot cell (03 R83-R85): accumulator bits, steps done of the current output, next weight line. -/
structure DCell where
  acc : W32
  steps : Nat
  line : Nat
  deriving DecidableEq, Repr

/-! ## Sessions (15) -/

/-- An operation that the device issues in a session: its class, its record (Table 15.6), whether a RESULT answers it, the run
whose completion waits for it (17 R415), and for a FATE the session and SEQ it asks about. -/
structure TxOp where
  tc : BitVec 2
  body : List Byte
  awaits : Bool
  run : Option Nat
  fate : Option (Nat × Nat)
  deriving DecidableEq, Repr

/-- A DATA frame sent, of one operation (notes/assumptions/24.md): unacknowledged, unanswered or in doubt (15 R377, R388). -/
structure TxFrame where
  op : TxOp
  sentAt : Nat
  resends : Nat
  acked : Bool
  answered : Bool
  deriving DecidableEq, Repr

/-- The arbiter of a session's send queues (16 R398-R400): class 0 grants in a row while a lower class waited, the class whose turn it
is, whether that turn's credit is taken, and the bytes that classes 1, 2 and 3 have left. -/
structure Arb where
  row : Nat
  turn : Nat
  credited : Bool
  left1 : Nat
  left2 : Nat
  left3 : Nat
  deriving DecidableEq, Repr

/-- An arbiter that has granted nothing. -/
def Arb.init : Arb := { row := 0, turn := 1, credited := false, left1 := 0, left2 := 0, left3 := 0 }

/-- A session (15 R369-R378). -/
structure Session where
  entry : Nat
  index : Nat
  link : Nat
  role : Role
  opened : Bool
  initiator : Bool
  /-- The id the peer assigned, which the device's frames carry. -/
  peerSid : W32
  transcript : Digest
  /-- Highest SEQ taken, and frames held beyond a gap. -/
  taken : Nat
  held : SMap Frame
  /-- NONCE_CTR record (R373): one more than the highest accepted value, and the accepted ones of the last 64. -/
  nonceTop : Nat
  nonces : NSet
  nextSeq : Nat
  nextNonce : Nat
  /-- Operations that wait for credit, oldest first; frames sent by SEQ. -/
  queue : List TxOp
  arb : Arb
  unacked : SMap TxFrame
  credit : Nat
  cwnd : Nat
  /-- Time of the window's last change (R378). -/
  cwndAt : Nat
  srtt : Nat
  rttvar : Nat
  rto : Nat
  /-- CE-marked frames received, and the peer's CE_COUNT last seen. -/
  ce : Nat
  peerCe : Nat
  suspendedAt : Nat
  lastHeard : Nat
  deriving DecidableEq, Repr

/-- The frames in doubt of a session that was suspended or has ended (15 R388, R389): its peer entry, the id the peer gave it,
the frames by SEQ. -/
structure Doubt where
  entry : Nat
  peerSid : W32
  frames : SMap TxFrame
  deriving DecidableEq, Repr

/-- The fate of one operation (15 R386). -/
structure FateOp where
  status : W16
  value : W64
  deriving DecidableEq, Repr

/-- The fate records of a session (15 R386, R387): its peer entry, whether it was closed and when it was suspended or
closed, the highest SEQ taken, and the records by SEQ. -/
structure Fates where
  entry : Nat
  closed : Bool
  since : Option Nat
  taken : Nat
  recs : SMap (List FateOp)
  deriving DecidableEq, Repr

/-- An establishment in progress at the initiator (15 R369), by peer entry. -/
structure HelloOut where
  link : Nat
  body : List Byte
  at_ : Nat
  deriving DecidableEq, Repr

/-- An establishment in progress at the responder: the session it will open. -/
structure HelloIn where
  entry : Nat
  link : Nat
  sid : W32
  transcript : Digest
  deriving DecidableEq, Repr

/-! ## Recovery, integrity, fault injection (17, 18, 19) -/

/-- Recovery (17 R431). -/
structure Rcv where
  recovering : Bool
  double : Bool
  /-- Time the recovery in progress was detected. -/
  since : Nat
  islands : W16
  straits : BitVec 4
  harbours : BitVec 4
  cape : Bool
  /-- Strait links marked lost (Table 17.1). -/
  links : NSet
  /-- Channels of restarted groups that wait for the fallback switch (R420 step 1). -/
  frozen : NSet
  /-- A WARM_N that waits (25 R558). -/
  warmPending : Bool
  /-- Stage 7 has been entered since POR_N (23 R531). -/
  served : Bool
  deriving DecidableEq, Repr

/-- An integrity record (19 Table 19.3). -/
structure IntRec where
  kind : Nat
  place : Nat
  unit : Nat
  symbols : Nat
  pos0 : Nat
  pos1 : Nat
  source : Nat
  addr : W64
  handle : W32
  deriving DecidableEq, Repr

/-- A holder's ring of integrity records (19 R464). -/
structure IntRing where
  recs : SMap IntRec
  head : Nat
  written : Nat
  deriving DecidableEq, Repr

/-- A strait link and direction (01 R24, 19 R455): next flit the receiver takes, resends of the flit that waits. -/
structure StraitDir where
  next : Nat
  pending : SMap Nat
  deriving DecidableEq, Repr

/-! ## Boot, service, power and pins (23, 24, 25) -/

/-- The two routes of an endpoint pair (01 R20, R21): the strait dies crossed by the one that leaves the source through its lower-numbered
die and by the other, and whether both cross the fewest. -/
structure Route where
  low : List Nat
  high : List Nat
  split : Bool
  deriving DecidableEq, Repr

/-- The boot block (23). -/
structure Boot where
  stage : Nat
  /-- Firmware slot running (0 A, 1 B) and whether it runs as a trial; none before stage 2. -/
  slot : Option Nat
  trial : Bool
  fwSvn : Nat
  m0 : Digest
  m1 : Digest
  m2 : Digest
  m3 : Digest
  m4 : Digest
  identity : Digest
  /-- The current role list: SEQ and (digest, role) of each entry, in order. -/
  roleSeq : Nat
  roles : List (Digest × Role)
  /-- Flash plate slot that the configuration marks (0xFF none). -/
  bootSlot : Nat
  /-- Neither firmware slot passed (R524): ALERT_N whatever its enables. -/
  stuck : Bool
  /-- Audit records the burin holds until the BOOT record (R524). -/
  heldRecs : List (Byte × W16 × List Byte)
  /-- The route table (01 R21), by 32 x source + destination: islands 0-15, harbours 20-23, the cape 24. -/
  routes : SMap Route
  deriving DecidableEq, Repr

/-- The fuses of the cape (22 R507, 23 R525, R532): maker slots, revoke bits, SVN counter, device secret, MAC base. -/
structure Fuses where
  maker : List (Option Digest)
  revoked : List Bool
  svn : Nat
  secret : BitVec 256
  mac : BitVec 48
  deriving DecidableEq, Repr

/-- A service request taken by the burin (23 R535, R536). -/
structure SvcReq where
  sid : W32
  slot : Nat
  op : Nat
  arg : Nat
  tag : W32
  flashOff : W64
  addr : W64
  len : Nat
  wellFormed : Bool
  deriving DecidableEq, Repr

/-- The rails of one die (24 R544, R551): setpoint, time of the last step, time since which it has been cool, and
whether the last step was R552's. -/
structure Rail where
  mv : Nat
  stepped : Option Nat
  coolSince : Option Nat
  byPower : Bool
  deriving DecidableEq, Repr

/-- Power, thermal and supplies (24, 25 Table 25.7). -/
structure Pwr where
  /-- Bit d: domain d is powered and awake. -/
  state : BitVec 80
  switching : NSet
  rails : SMap Rail
  /-- Temperatures by die code (R501); an unlisted one is the reset value 0. -/
  temps : SMap Byte
  /-- Whether the hottest sensor was above WARN_C at the last sample. -/
  warn : Bool
  tripped : Bool
  watts : Nat
  /-- Time since which the power has exceeded 3.6 kW, time of the last step, time since which it is at or below 3.4 kW. -/
  overSince : Option Nat
  /-- Ethernet reference clocks out of tolerance: harbours 0-3, the cape 4 (25 R561). -/
  ethLost : NSet
  deriving DecidableEq, Repr

/-- The low-speed pins and the TAP (25). -/
structure Pins where
  porN : Bool
  trstN : Bool
  /-- V3P3_AON, V1P8_IO and VIN_MAIN within their operating conditions. -/
  supplies : Bool
  /-- TAP instruction register and boundary register. -/
  ir : Byte
  boundary : BitVec 64
  /-- I3C word pointer (R563). -/
  pointer : W16
  deriving DecidableEq, Repr

/-! ## The data plane: records, runs, deferred effects (04, 17), searches (10), tables (08, 12) -/

/-- A record's entry in a stream (06 R167): the shape of its binding (0 scalar, 1 variable list, 2 fixed list, 3 byte string),
the format and width of its elements, its bytes. -/
structure SEnt where
  shape : Nat
  fmt : Nat
  w : Nat
  data : List Byte
  deriving DecidableEq, Repr

/-- A record between stages (06 R167): its sample index, its REASON (0 for a sound record), its entry in each stream. -/
structure DRec where
  idx : Nat
  reason : W16
  streams : SMap SEnt
  deriving DecidableEq, Repr

/-- A join index (08 R211): its method, the rows it names in ascending order, each with its key at the build. -/
structure JoinIdx where
  method : Nat
  rows : List (Nat × BitVec 128)
  deriving DecidableEq, Repr

/-- A deferred effect (17 Table 17.3), in local addresses. -/
inductive Eff where
  /-- Bytes written: state and statistics images, manifests, seals, header fields. -/
  | bytes (addr : Nat) (data : List Byte)
  /-- A kept bit set (09 R222). -/
  | orByte (addr : Nat) (mask : Byte)
  /-- A staging slot header of an epoch (09 R230, R231), with the reef that counts it. -/
  | slotHead (addr epoch reef : Nat) (data : List Byte)
  /-- A batch delivered (09 R231): the address of its slot 0, its epoch, the reef that counts it. -/
  | delivered (slot0 epoch reef : Nat)
  /-- A signal attached to a staged transfer (14 R351), with the issuing list and command index. -/
  | signal (obj n list index : Nat)
  /-- A join index made current (08 R211), over an ASU table for methods 1 and 2. -/
  | joinSwitch (base asu : Nat) (idx : JoinIdx)
  /-- Band keys and representatives added to a table (08 R216). -/
  | bandRows (base asu method : Nat) (rows : List (BitVec 128 × Nat))
  /-- A scatter record (12 R302): table, step, row, gradient format, elements. -/
  | scatter (table step row fmt : Nat) (xs : List Nat)
  /-- A row flipped to a slot by write rows (12 R289). -/
  | flip (table row stack slot : Nat)
  /-- A fold (12 R304-R306), with the reef that counts it. -/
  | fold (table step reef : Nat) (seed : W64) (refit : Bool)
  /-- An initialise (12 R288). -/
  | initTable (table : Nat)
  /-- An operation issued to another device (17 R415). -/
  | peer (node op : Nat) (addr op0 op1 : W64) (data : List Byte)
  deriving DecidableEq, Repr

/-- The execution of an accepted descriptor (04 R110, 17 R414): position in its inlet's chain, code of the first stage that
failed, what the stages hand on, the counts of its completion record, its deferred effects. -/
structure Run where
  pos : Nat
  code : W16
  /-- A stage failed and no later stage runs. -/
  halted : Bool
  /-- Bytes handed on by a Graver stage, where one has run. -/
  bytes : Option (List Byte)
  recs : List DRec
  recsIn : Nat
  recsOut : Nat
  replaced : Nat
  dropped : Nat
  lines : Nat
  eff : List Eff
  /-- Record kinds of the current stage whose unit has run, and lists that have taken the descriptor at this position of the
  chain (14 R337). -/
  did : NSet
  served : NSet
  /-- Islands that have applied their batch (17 R415), and the first refusal of a deferred effect (R575). -/
  applied : NSet
  effCode : W16
  /-- Samples abandoned by the deadline (06 R174). -/
  abandoned : NSet
  /-- The area that a stage found poisoned, where it is not one of the descriptor's (19 R457). -/
  met : Option (Nat × Nat)
  deriving DecidableEq, Repr

/-- A run that has not begun. -/
def Run.init : Run :=
  { pos := 0, code := 0, halted := false, bytes := none, recs := [], recsIn := 0, recsOut := 0, replaced := 0, dropped := 0,
    lines := 0, eff := [], did := [], served := [], applied := [], effCode := 0, abandoned := [], met := none }

/-- An entry of an ASU bank (10 Table 10.2): KEY AND MASK, MASK, DATA, VALID, and the lost mark of R257. -/
structure AsuEntry where
  key : BitVec 128
  mask : BitVec 128
  data : W32
  valid : Bool
  lost : Bool
  deriving DecidableEq, Repr

/-- A free position. -/
def AsuEntry.free : AsuEntry := { key := 0, mask := 0, data := 0, valid := false, lost := false }

/-- A search that waits at the Held level (10 R259): operation, command, and the lagoon address of its result where a
sequencer issued it. -/
structure HeldSearch where
  reef : Nat
  op : Nat
  cmd : AsuCmd
  dest : Option Nat
  deriving DecidableEq, Repr

/-- An embedding table's state (12). Slots are named 2^32 x stack + slot, rows of an island 2^36 x island + row. -/
structure Emb where
  ready : Bool
  folded : Option Nat
  lostStep : Option Nat
  epoch : Nat
  used : NSet
  displaced : SMap Nat
  replicas : NSet
  /-- Fetches of this replication interval by island and row; of this migration interval by 16 x island + stack and by
  island and row (R296, R297). -/
  heat : SMap Nat
  shard : SMap Nat
  hits : SMap Nat
  /-- Moves in progress: the slot each row moves to. -/
  moves : SMap Nat
  /-- Prefetched rows by reef, oldest first (R294). -/
  prefetch : SMap (List Nat)
  deriving DecidableEq, Repr

/-- A table that was never initialised. -/
def Emb.init : Emb :=
  { ready := false, folded := none, lostStep := none, epoch := 0, used := [], displaced := [], replicas := [], heat := [],
    shard := [], hits := [], moves := [], prefetch := [] }

/-! ## What the device emits -/

/-- An output of the block. -/
inductive Out where
  /-- The RESULT of a write or command of a session in the register region (20 R490). -/
  | writeStatus (sid : W32) (code : W16)
  /-- The RESULT of a register read. -/
  | readData (sid : W32) (code : W16) (data : List Byte)
  /-- The RESULT of an operation (15 R380). -/
  | opResult (o : OpRef) (code : W16) (value : W64) (data : List Byte)
  /-- An ANSWER message (04 R102), and a control reply that follows it (R120). -/
  | answer (sid : W32) (data : List Byte)
  /-- A COMPLETION message (04 R113). -/
  | push (sid : W32) (data : List Byte)
  /-- An ACK frame (15 R376): cumulative, selective, CREDIT, CE_COUNT. -/
  | ack (sid : W32) (upTo : Nat) (sack : BitVec 256) (credit : Nat) (ce : Nat)
  /-- HELLO, HELLO_REPLY, CONFIRM, REJECT, CLOSE, PROBE, PROBE_REPLY frames by TYPE. -/
  | frame (link : Nat) (type : Nat) (sid : W32) (body : List Byte)
  /-- A DATA frame sent or sent again (15 R377), and an operation the device issues to a peer entry. -/
  | data (sid : W32) (tc : BitVec 2) (seq : Nat) (body : List Byte)
  | peerOp (entry : Nat) (op : Nat) (addr : W64) (op0 op1 : W64) (data : List Byte)
  /-- Completion of an operation that the device issued to a peer (15 R388, R389). -/
  | opDone (sid : W32) (seq : Nat) (idx : Nat) (code : W16) (value : W64)
  /-- A snapshot marker into every class queue of every output of a die (20 R488). -/
  | marker (die : Nat) (n : Nat)
  /-- A strait flit acknowledged, or resent over the alternate route (01 R24). -/
  | flitAck (link : Nat) (dir : Bool) (lsn : W32)
  | flitSent (link : Nat) (dir : Bool) (lsn : W32) (alternate : Bool)
  /-- A frame that leaves a link with one bit inverted by injection (18 R439), with the draw that names the bit. -/
  | damaged (link : Nat) (draw : W64)
  /-- Neighbour advertisement and ARP reply (15 R367). -/
  | neighbour (link : Nat) (target : BitVec 128)
  | arp (link : Nat) (target : W32)
  /-- An in-band interrupt on I3C (25 R562). -/
  | ibi
  /-- Bytes returned on I3C, and the value captured by a JTAG data register. -/
  | i3c (data : List Byte)
  | jtag (width : Nat) (value : Nat)
  /-- A word that a cell writes to its lagoon stream (02 R42), and what a dot cell emits (03 R84). -/
  | cell (num : Nat) (value : W64)
  /-- The 64-byte result of an ASU command (10 Table 10.4). -/
  | asu (data : List Byte)
  /-- A command answered with a code outside any session. -/
  | code (c : W16)
  deriving DecidableEq, Repr

/-! ## Injection slots (18) -/

/-- An item that passes a link under injection (18 R439): a frame or flit that arrives, as its command, or what the device sends
on a link. -/
inductive FiItem where
  | inn (c : Instr)
  | out (link : Nat) (o : Out)
  deriving DecidableEq, Repr

/-- STATE of an injection slot (18 Table 18.2). -/
inductive FiState where
  | off
  | active
  | suspended
  | stopped
  deriving DecidableEq, Repr

/-- An injection slot (18 R438-R444). -/
structure FiSlot where
  state : FiState
  cause : Nat
  s : W64
  /-- The item held by REORDER, and the later items that have passed. -/
  held : Option FiItem
  passed : Nat
  deriving DecidableEq, Repr

/-! ## Why a step may stop -/

/-- The faults of the model. The device itself stops on nothing (00 R9-R11: a refused access or command is answered with a
code, which is an output), so no meaning raises one. -/
inductive Fault where
  /-- Raised by no meaning; kept so that the type of outcomes has a fault of its own. Safe: no run ends in it. -/
  | none
  deriving DecidableEq, Repr

/-- The refusals of the model. -/
inductive Refusal where
  /-- Raised by exec for a command that has no meaning yet, named by its mnemonic. Safe: the run stops. -/
  | notModelled (mnemonic : String)
  deriving DecidableEq, Repr

/-! ## The whole state -/

/-- The state of the block. -/
structure State where
  /-- Commands that wait, first in first out (notes/assumptions/1.md). -/
  pending : List Instr
  /-- What the device has emitted, oldest first. -/
  out : List Out
  /-- The model's own counter for free values (notes/assumptions/3.md). -/
  free : Nat
  /-- Microseconds since POR_N on the interval timers (notes/assumptions/2.md). -/
  time : Nat
  mem : SMap Byte
  /-- Poisoned codewords and lines: the canonical address of an HBM codeword or of a lagoon line (19 R456). -/
  poison : NSet
  flash : SMap Byte
  /-- Register words by offset from 0x0300_0000_0000 (21). -/
  regs : SMap W32
  /-- Shadows of YZ_PEER and YZ_WIN words (21 R503), by offset: one more than the word, where the entry has a shadow. -/
  shadow : SMap Nat
  /-- Counters by the snapshot index of Table 21.13. -/
  counters : SMap W64
  snap : Snap
  guards : SMap Guard
  hiCaps : SMap HiCapture
  plt : Plt
  isl : SMap Isl
  chans : SMap Chan
  /-- APPLIED_THROUGH by 4096 x island + channel (17 R415). -/
  applied : SMap Nat
  objs : SMap SyncObj
  /-- Yazer SIGNALs applied to each object since it took its SYNC_ASSIGN state (17 R420). -/
  yzApplied : SMap Nat
  lists : SMap SeqList
  barriers : SMap Barrier
  engines : SMap EngineCmd
  synRings : SMap SynRing
  wxas : SMap Wxa
  rcells : SMap RCell
  /-- The word last sent over each neighbour link of a cell, by 4 x cell + direction (02 R42). -/
  cellLinks : SMap W64
  dcells : SMap DCell
  /-- Runs by 2^48 x channel + SEQ. -/
  runs : SMap Run
  /-- ASU entries by position; active side 1 by 128 x table + partition; layout generations by 2 x that + side; throttle
  levels by island (0 Full to 3 Held); searches held. -/
  asu : SMap AsuEntry
  asuSide : NSet
  asuGen : SMap Nat
  asuLevel : SMap Nat
  asuHeld : List HeldSearch
  /-- Current join indexes by the local address of their table (08 R211). -/
  joins : SMap JoinIdx
  emb : SMap Emb
  /-- One more than the last epoch delivered of a batch, by the local address of its slot 0; slot writes that wait for it
  (09 R231): slot, slot 0 of the batch, header and record. -/
  delivered : SMap Nat
  slotWaits : List (Nat × Nat × List Byte)
  sessions : SMap Session
  nextSid : Nat
  fates : SMap Fates
  doubts : SMap Doubt
  /-- Operations for a node that no session has taken yet (17 R417), oldest first. -/
  peerQueue : List (Nat × TxOp)
  helloOut : SMap HelloOut
  helloIn : SMap HelloIn
  /-- HELLO frames of this one-second interval; malformed frames of this interval by peer entry (R370, R392). -/
  helloCount : Nat
  malformed : SMap Nat
  /-- Links that are up, and links whose class 0 is paused (R365, R403). -/
  linksUp : NSet
  paused : NSet
  rcv : Rcv
  /-- Uncorrectable codewords of each stack in this 10 ms interval, and MI_STACK_UE_LIMIT as it stood when the interval began
  (19 R463, R466; 256 from reset). -/
  ueCount : SMap Nat
  ueLimit : SMap Nat
  intRings : SMap IntRing
  /-- Scrub positions of stacks 0-15 and of lagoons at 16 + i, and codewords recorded as correctable in this pass. -/
  scrub : SMap Nat
  ceSeen : NSet
  straits : SMap StraitDir
  fi : SMap FiSlot
  /-- Items that a slot has released, each with the first slot it still meets (18 R440). -/
  wire : List (Nat × FiItem)
  audit : Audit
  boot : Boot
  fuses : Fuses
  svc : List SvcReq
  pwr : Pwr
  pins : Pins
  deriving DecidableEq, Repr

/-- The machine right after reset: POR_N low, supplies not yet up (25 R565), nothing received, every field at its reset value (INVENTORY.md, State). -/
def State.reset : State :=
  { pending := [], out := [], free := 0, time := 0, mem := [], poison := [], flash := [],
    regs := [(0x0000000C, 0x19), (0x00030018, 0x00FFFFFF), (0x00060000, 0x0073695F), (0x00090004, 8), (0x00090008, 100), (0x0009000C, 256),
      (0x000A0000, 1), (0x000B0010, 1000), (0x000B0014, 1024), (0x000B0018, 10000), (0x000B001C, 160), (0x000D0000, 0xFFF),
      (0x000D0004, 0x9BED), (0x000D0008, 0x135), (0x000D000C, 60000), (0x000D0010, 1024), (0x000D0014, 10000)],
    shadow := [], counters := [],
    snap := { seq := 0, busy := false, cut := [], bankA := [], bankB := [] },
    guards := [], hiCaps := [],
    plt := { standby := .empty, active := .empty, case := 0, bootPlate := false, copyY := false, storeX := none,
             storeY := none, load := none, proofed := [], rewritten := [], instant := false, fallbackFor := none,
             bootLoad := false },
    isl := [], chans := [], applied := [], objs := [], yzApplied := [], lists := [], barriers := [], engines := [], synRings := [],
    wxas := [], rcells := [], cellLinks := [], dcells := [], runs := [], asu := [],
    asuSide := [], asuGen := [], asuLevel := [], asuHeld := [], joins := [], emb := [], delivered := [], slotWaits := [], sessions := [], nextSid := 1, fates := [], doubts := [], peerQueue := [], helloOut := [], helloIn := [],
    helloCount := 0, malformed := [], linksUp := [], paused := [],
    rcv := { recovering := false, double := false, since := 0, islands := 0, straits := 0, harbours := 0, cape := false,
             links := [], frozen := [], warmPending := false, served := false },
    ueCount := [], ueLimit := [], intRings := [], scrub := [], ceSeen := [], straits := [], fi := [], wire := [],
    audit := { count := 0, head := 0, ring := [], checkpoints := [], slot := 0, busy := false, flushing := 0,
               flushingCp := 0, again := false, flashPos := 0, unlocked := false, bootIndex := 0, lastIndex := 0, lastChain := 0 },
    boot := { stage := 1, slot := none, trial := false, fwSvn := 0, m0 := 0, m1 := 0, m2 := 0, m3 := 0, m4 := 0,
              identity := 0, roleSeq := 0, roles := [], bootSlot := 255, stuck := false, heldRecs := [], routes := [] },
    fuses := { maker := [none, none, none, none], revoked := [false, false, false, false], svn := 0, secret := 0,
               mac := 0 },
    svc := [],
    pwr := { state := 0, switching := [], rails := [], temps := [], warn := false, tripped := false, watts := 0,
             overSince := none, ethLost := [] },
    pins := { porN := false, trstN := false, supplies := false, ir := 1, boundary := 0, pointer := 0 } }

end Sys2Proof.Machine
end

