-- ==== Sys2Proof/Machine/Ops.lean ====
section
/-! DEFINITION. The named operations that every family uses: outputs, registers, counters, alerts, roles, the audit log, lost
dies, and memory by canonical address. -/

namespace Sys2Proof.Machine

/-! ## Outputs, registers and counters -/

/-- The device emits `o`. -/
def emit (o : Out) (s : State) : State := { s with out := s.out ++ [o] }

/-- The state that an outcome leaves. -/
def stateOf (o : Host.Outcome State Fault Refusal) (s : State) : State :=
  match o with
  | .next t => t
  | _ => s

/-- The register word at `off` (an offset from 0x0300_0000_0000). -/
def rget (s : State) (off : Nat) : W32 := mget 0 s.regs off

/-- `s` with the register word at `off` set. -/
def rset (off : Nat) (v : W32) (s : State) : State := { s with regs := mset 0 s.regs off v }

/-- Counter `i` (a snapshot index of Table 21.13) raised by `n`. -/
def bump (i n : Nat) (s : State) : State :=
  { s with counters := mset 0 s.counters i (mget 0 s.counters i + BitVec.ofNat 64 n) }

/-- Snapshot index of counter `c` of reef `r` (21 R506). -/
def reefCnt (r c : Nat) : Nat := 8192 * (r / 32) + 128 * (r % 32) + c
/-- Snapshot index of counter `c` of island `i`. -/
def islCnt (i c : Nat) : Nat := 32768 + 128 * i + c
/-- Snapshot index of counter `c` of strait die `d`. -/
def straitCnt (d c : Nat) : Nat := 32768 + 128 * (16 + d) + c
/-- Snapshot index of counter `c` of harbour `h`. -/
def harbourCnt (h c : Nat) : Nat := 32768 + 128 * (20 + h) + c
/-- Snapshot index of counter `c` of the cape. -/
def capeCnt (c : Nat) : Nat := 32768 + 128 * 24 + c
/-- Snapshot index of the recovery counter `c` (17 Table 17.7). -/
def rcvCnt (c : Nat) : Nat := 35968 + c
/-- Snapshot index of REG_ERR_COUNT. -/
def regErrCnt : Nat := 35977
/-- Snapshot index of MI_MIRROR_FIXED. -/
def mirrorCnt : Nat := 35978
/-- Snapshot index of FI_ELIGIBLE_k, FI_INJECTED_k, FI_SUSPENSIONS_k (j = 0, 1, 2). -/
def fiCnt (k j : Nat) : Nat := 35984 + 3 * k + j
/-- Snapshot index of counter `c` of link `l`. -/
def linkCnt (l c : Nat) : Nat := 36096 + 8 * l + c
/-- Snapshot index of counter `c` of peer entry `p`. -/
def peerCnt (p c : Nat) : Nat := 8192 * (5 + p / 512) + 8 * (p % 512) + c

/-- ALERT_N is asserted (21 R495, 23 R524); while POR_N is low it is released. -/
def alertN (s : State) : Bool := s.pins.porN && (s.boot.stuck || decide (rget s 8 &&& rget s 0xC ≠ 0))

/-- An in-band interrupt goes out on I3C where ALERT_N became asserted (25 R562). -/
def alertEdge (before after : State) : State := if alertN after && !alertN before then emit .ibi after else after

/-- Bit `k` of GLB_ALERT_STATUS set by hardware (21 Table 21.2). -/
def alert (k : Nat) (s : State) : State := alertEdge s (rset 8 (rget s 8 ||| (1#32 <<< k)) s)

/-- A fresh index into the free values of Config (notes/assumptions/3.md). -/
def takeFree (s : State) : Nat × State := (s.free, { s with free := s.free + 1 })

/-! ## Lost dies (17 R431) -/

/-- Island and stack `i` are lost. -/
def islLost (s : State) (i : Nat) : Bool := s.rcv.islands.getLsbD i
/-- Strait die `d` is lost. -/
def straitLost (s : State) (d : Nat) : Bool := s.rcv.straits.getLsbD d
/-- Harbour `h` is lost. -/
def harbourLost (s : State) (h : Nat) : Bool := s.rcv.harbours.getLsbD h
/-- RCV_LOST as a word. -/
def rcvLostWord (s : State) : W32 :=
  BitVec.ofNat 32 (s.rcv.islands.toNat + 2 ^ 16 * s.rcv.straits.toNat + 2 ^ 20 * s.rcv.harbours.toNat
    + 2 ^ 24 * s.rcv.cape.toNat)
/-- The lowest-numbered island that is not lost. -/
def firstIsland (s : State) : Nat := ((List.range 16).find? (fun i => !islLost s i)).getD 0

/-! ## Sessions, roles and peer entries -/

/-- The value listed at `k`, if any. -/
def mlook {α : Type} : SMap α → Nat → Option α
  | [], _ => none
  | (j, v) :: t, k => if j = k then some v else mlook t k

/-- Session `sid`. -/
def sess? (s : State) (sid : W32) : Option Session := mlook s.sessions sid.toNat

/-- The role of session `sid`; no role where there is none (22 R507). -/
def roleOf (s : State) (sid : W32) : Role := ((sess? s sid).map (·.role)).getD .none

/-- Byte offset of peer entry `p` in the register region (21 Table 21.1). -/
def peerBase (p : Nat) : Nat := 0x02000000 + 0x10000 * p

/-- DIGEST of the entry in use (15 Table 15.10). -/
def peerDigest (s : State) (p : Nat) : Digest :=
  BitVec.ofNat 256 ((List.range 8).foldr (fun k acc => (rget s (peerBase p + 4 * k)).toNat + 2 ^ 32 * acc) 0)

/-- NODE of the entry in use. -/
def peerNode (s : State) (p : Nat) : Nat := (rget s (peerBase p + 0x20)).toNat % 65536
/-- FLAGS of the entry in use. -/
def peerFlags (s : State) (p : Nat) : Nat := (rget s (peerBase p + 0x20)).toNat / 65536
/-- ENABLED and not QUARANTINED. -/
def peerUsable (s : State) (p : Nat) : Bool := bit (peerFlags s p) 0 && !bit (peerFlags s p) 1

/-- The key digest of a session's peer, 0 without a session. -/
def subjectOf (s : State) (sid : W32) : Digest := ((sess? s sid).map (fun x => peerDigest s x.entry)).getD 0

/-- YZ_NODE (0xFFF unset). -/
def ownNode (s : State) : Nat := (rget s 0x000D0000).toNat % 4096

/-! ## The audit log (22) -/

/-- The code of a role in a record. -/
def Role.toNat : Role → Nat
  | .none => 0
  | .operator => 1
  | .installer => 2
  | .maker => 3

/-- Bytes 0x00-0x5F of a record (22 Table 22.3). -/
def AuditRec.body (r : AuditRec) : List Byte :=
  leBytes 8 r.index ++ leBytes 8 r.time ++ leBytes 2 r.kind.toNat ++ leBytes 2 r.code.toNat
    ++ leBytes 1 r.role.toNat ++ [r.source] ++ zeros 2 ++ leBytes 4 r.sid.toNat ++ zeros 4
    ++ digestBytes r.subject ++ slice r.detail 0 32

/-- The 128 bytes of a record. -/
def AuditRec.bytes (r : AuditRec) : List Byte := r.body ++ digestBytes r.chain

/-- One record appended to the ring and the chain (22 R514). -/
def auditAppend (kind : Byte) (code : W16) (role : Role) (source : Byte) (sid : W32) (subject : Digest)
    (detail : List Byte) (s : State) : State :=
  let r : AuditRec := { index := s.audit.count, time := s.time, kind := kind, code := code, role := role,
                        source := source, sid := sid, subject := subject, detail := detail, chain := 0 }
  let c := sha3 (digestBytes s.audit.head ++ r.body)
  { s with audit := { s.audit with count := s.audit.count + 1, head := c, ring := s.audit.ring ++ [{ r with chain := c }] } }

/-- A CHECKPOINT record and its signed slot (22 R516). -/
def auditCheckpoint (s : State) : State :=
  let cp : Checkpoint := { covered := s.audit.count - 1, chain := s.audit.head, sig := Config.signature s.free }
  let d := leBytes 8 (s.audit.count - 1) ++ leBytes 2 s.audit.slot
  let s1 := { s with free := s.free + 1, audit := { s.audit with checkpoints := s.audit.checkpoints ++ [cp],
                                                                 slot := (s.audit.slot + 1) % 1024 } }
  let s2 := auditAppend 0x0D 0 .none 2 0 0 d s1
  { s2 with regs := mset 0 s2.regs 0x00040010 (rget s2 0x00040010 &&& 0xFFFFFFFE#32) }

/-- The periodic CHECKPOINT: the record with INDEX c is one when c mod 256 = 255 (22 R516). -/
def auditPeriodic (s : State) : State := if s.audit.count % 256 = 255 then auditCheckpoint s else s

/-- A flush begins with its CHECKPOINT and takes what the ring holds (22 R518); during a flush another is owed. -/
def auditFlush (s : State) : State :=
  if s.rcv.cape then s
  else if s.audit.busy then { s with audit := { s.audit with again := true } }
  else
    let t := auditCheckpoint s
    auditPeriodic { t with audit := { t.audit with busy := true, flushing := t.audit.ring.length,
                                                   flushingCp := t.audit.checkpoints.length } }

/-- One audit record, with what follows from it: the periodic CHECKPOINT and the flush at 8,192 unflushed records. In the
degraded state it is missed and counted (22 R519); before stage 7 the burin holds it (23 R524). -/
def audit (kind : Byte) (code : W16) (sid : W32) (source : Byte) (detail : List Byte) (s : State) : State :=
  if s.rcv.cape then bump (rcvCnt 8) 1 s
  else if !s.rcv.served then
    { s with boot := { s.boot with heldRecs := s.boot.heldRecs ++ [(kind, code, detail)] } }
  else
    let t := auditPeriodic (auditAppend kind code (roleOf s sid) source sid (subjectOf s sid) detail s)
    if 8192 ≤ t.audit.ring.length && !t.audit.busy then auditFlush t else t

/-- No slot of the ring is free: 98,304 records wait for a flush (22 R518). -/
def auditFull (s : State) : Bool := decide (98304 ≤ s.audit.ring.length)

/-! ## Register-block refusals (20 R491) -/

/-- The code is one of the register access block (20 Table 20.7). -/
def isRegCode (c : W16) : Bool := decide (0x9001 ≤ c.toNat) && decide (c.toNat ≤ 0x9006)

/-- A register-block code recorded in the registers of Table 20.6; a GUARD_FAIL is audited (20 R482). -/
def regRefuse (code : W16) (sid : W32) (addr : Nat) (s : State) : State :=
  if isRegCode code then
    let s1 := rset 0x00020000 (rget s 0x00020000 ||| 1) (rset 0x00020004 (code.setWidth 32)
      (rset 0x00020008 sid (rset 0x0002000C (BitVec.ofNat 32 addr)
        (rset 0x00020010 (BitVec.ofNat 32 (addr / 2 ^ 32 % 2 ^ 20)) s))))
    let s2 := alert 2 (bump regErrCnt 1 s1)
    if code = cGuardFail then audit 0x05 code sid 0 (leBytes 8 addr) s2 else s2
  else s

/-- A ROLE_REFUSED audited with its address, or the item's opcode at offset 8 (22 Table 22.4). -/
def auditRefused (sid : W32) (addr opcode : Nat) (s : State) : State :=
  audit 0x06 cRoleRefused sid 0 (leBytes 8 addr ++ leBytes 2 opcode) s

/-! ## Memory by canonical address (15 R361, 19 R450, 01 R16) -/

/-- Where a local address lies (15 Table 15.1). -/
inductive Place where
  | hbm (stack off : Nat)
  | lagoon (island off : Nat)
  | reg (off : Nat)
  | bitAlias (off : Nat)
  | unmapped
  deriving DecidableEq, Repr

/-- The region of a local address. -/
def placeOf (a : Nat) : Place :=
  if a < 0x010000000000 then .hbm (a / 4096 % 16) (a / 65536 * 4096 + a % 4096)
  else if a < 0x020000000000 then .hbm ((a - 0x010000000000) / 0x1000000000) (a % 0x1000000000)
  else if a < 0x020100000000 then .lagoon ((a - 0x020000000000) / 0x10000000) (a % 0x10000000)
  else if a < 0x030000000000 then .unmapped
  else if a < 0x038000000000 then .reg (a - 0x030000000000)
  else if a < 0x040000000000 then .bitAlias (a - 0x038000000000)
  else .unmapped

/-- The per-stack view address of offset `o` of stack `k`: the canonical address of an HBM byte. -/
def hbmKey (k o : Nat) : Nat := 0x010000000000 + k * 0x1000000000 + o
/-- The lagoon window address of offset `o` of island `i`: the canonical address of a lagoon byte. -/
def lagKey (i o : Nat) : Nat := 0x020000000000 + i * 0x10000000 + o
/-- Canonical address of byte `p` of the lagoon share of global reef `r` (01 R16). -/
def shareKey (r p : Nat) : Nat := lagKey (r / 8) (r % 8 * 0x01800000 + p)

/-- The canonical address of a memory address; nothing for an address that is no memory. -/
def memKey (a : Nat) : Option Nat :=
  match placeOf a with
  | .hbm k o => some (hbmKey k o)
  | .lagoon i o => if o < 0x0C000000 then some (lagKey i o) else none
  | _ => none

/-- The byte at a canonical address. -/
def kget (s : State) (k : Nat) : Byte := mget 0 s.mem k

/-- Reading one byte at a local address: what `mem` holds, zero beyond a lagoon window's populated part. -/
def readByte (s : State) (a : Nat) : Byte :=
  match memKey a with
  | some k => kget s k
  | none => 0

/-- `n` bytes from local address `a`. -/
def readMem (s : State) (a n : Nat) : List Byte := (List.range n).map (fun i => readByte s (a + i))

/-- Bytes written from local address `a` upward, address by address. -/
def putMem : List Byte → Nat → SMap Byte → SMap Byte
  | [], _, m => m
  | b :: t, a, m =>
    match memKey a with
    | some k => putMem t (a + 1) (mset 0 m k b)
    | none => putMem t (a + 1) m

/-- The poison units that `[a, a + n)` covers whole: HBM codewords of 64 bytes, lagoon lines of 32 (19 R454, R458). A write
of them clears their poison. -/
def wholeUnits (a n : Nat) : List Nat :=
  (List.range (n / 32 + 2)).filterMap (fun i =>
    let u := (a / 32 + i) * 32
    match placeOf u with
    | .hbm k o => if o % 64 = 0 ∧ a ≤ u ∧ u + 64 ≤ a + n then some (hbmKey k o) else none
    | .lagoon j o => if a ≤ u ∧ u + 32 ≤ a + n then some (lagKey j o) else none
    | _ => none)

/-- The poison units that `[a, a + n)` touches. -/
def touchedUnits (a n : Nat) : List Nat :=
  (List.range ((a % 32 + n + 31) / 32)).filterMap (fun i =>
    let u := (a / 32 + i) * 32
    match placeOf u with
    | .hbm k o => some (hbmKey k (o / 64 * 64))
    | .lagoon j o => some (lagKey j o)
    | _ => none)

/-- Bytes written at local address `a`: the bytes land and whole poisoned units they cover lose their poison. -/
def writeMem (a : Nat) (bs : List Byte) (s : State) : State :=
  { s with mem := putMem bs a s.mem, poison := (wholeUnits a bs.length).foldl ndel s.poison }

/-- Some unit of the range is poisoned (19 R457). -/
def anyPoison (s : State) (a n : Nat) : Bool := (touchedUnits a n).any (nmem s.poison)

/-- Some unit that the range covers only in part is poisoned (19 R454, R458). -/
def partPoison (s : State) (a n : Nat) : Bool :=
  (touchedUnits a n).any (fun u => nmem s.poison u && !(wholeUnits a n).contains u)

/-- Local addresses of the 32-byte lines that a range touches; every area boundary of the map is a multiple of 32. -/
def lineAddrs (a n : Nat) : List Nat := (List.range ((a % 32 + n + 31) / 32)).map (fun i => (a / 32 + i) * 32)

/-- The island whose loss takes the byte away (17 R423); none outside memory. -/
def homeIsland (a : Nat) : Option Nat :=
  match placeOf a with
  | .hbm k _ => some k
  | .lagoon i _ => some i
  | _ => none

/-- Some byte of the range lies in lost memory (17 R423). -/
def anyLost (s : State) (a n : Nat) : Bool :=
  (lineAddrs a n).any (fun l => match homeIsland l with | some i => islLost s i | none => false)

/-- The lagoon of island `i` is powered (24 R540). -/
def lagoonOn (s : State) (i : Nat) : Bool := s.pwr.state.getLsbD (4 * i + 2)

/-- The first code that a list of codes raises; success where none does. -/
def firstCode : List W16 → W16
  | [] => cOk
  | c :: t => if c = cOk then firstCode t else c

/-- The address map's answer to a read of one line (15 R361, 24 R540). -/
def mapRead (a : Nat) : W16 := match placeOf a with | .unmapped => cAddrUnmapped | _ => cOk

/-- The address map's answer to a write of one line. -/
def mapWrite (s : State) (a : Nat) : W16 :=
  match placeOf a with
  | .unmapped => cAddrUnmapped
  | .lagoon i o => if 0x0C000000 ≤ o || !lagoonOn s i then cAccessUnpopulated else cOk
  | _ => cOk

/-- A Causeway address names this device: node 4,095 or its own (15 R360). -/
def nodeLocal (s : State) (a : W64) : Bool :=
  let n := a.toNat / 2 ^ 52
  decide (n = 4095) || (decide (n = ownNode s) && decide (ownNode s ≠ 4095))

/-- The local part of a Causeway address. -/
def localOf (a : W64) : Nat := a.toNat % 2 ^ 52

end Sys2Proof.Machine
end

