-- ==== Sys2Proof/Machine/PlateRec.lean ====
section
/-! DEFINITION. Reading a plate: its sections, the records of ENGINE_BIND, REGION_MAP, INLET_BIND and TABLE_INIT (02 R571),
and the regions, inlets and chains they define, in the normal configuration or a fallback case (02 R52, R53). -/

namespace Sys2Proof.Machine

/-- A record of 02 Table 2.14, with the island and sheet of its section (0xFF for a device-wide section). -/
structure PRec where
  island : Nat
  sheet : Nat
  kind : Nat
  reef : Nat
  unit : Nat
  stage : Nat
  index : Nat
  body : List Byte
  deriving DecidableEq, Repr

/-- Records one after another, each padded to 8 bytes (02 R571); nothing where they do not fill the bytes. -/
def parseRecsAux (isl sh : Nat) : Nat → List Byte → Option (List PRec)
  | _, [] => some []
  | 0, _ => none
  | f + 1, bs =>
    let n := u32At bs 4
    let m := 16 + roundUp n 8
    if bs.length < m then none
    else if !zeroAt bs 12 4 || !zeroAt bs (16 + n) (m - 16 - n) then none
    else
      match parseRecsAux isl sh f (bs.drop m) with
      | none => none
      | some t => some ({ island := isl, sheet := sh, kind := u16At bs 0, reef := u8At bs 2, unit := u8At bs 3,
                          stage := u16At bs 8, index := u16At bs 10, body := (bs.drop 16).take n } :: t)

/-- The records of a section, if its bytes are records. -/
def parseRecs? (x : Section) : Option (List PRec) := parseRecsAux x.island x.sheet x.data.length x.data

/-- The records of a section; none where its bytes are not records. -/
def recsOf (x : Section) : List PRec := (parseRecs? x).getD []

/-- No case: the number 0xFF of the normal configuration. -/
def normalCase : Nat := 255

/-- The section of a kind, island and sheet under case `c`: the case-c section replaces the normal one (02, Fallback maps). -/
def sectionIn (p : Plate) (c kind isl sh : Nat) : Option Section :=
  match p.sections.find? (fun x => x.case = c && x.kind = kind && x.island = isl && x.sheet = sh) with
  | some x => some x
  | none => p.sections.find? (fun x => x.case = normalCase && x.kind = kind && x.island = isl && x.sheet = sh)

/-- Every section of a kind under case `c`; under a case, island c has none. -/
def sectionsIn (p : Plate) (c kind : Nat) : List Section :=
  let cs := p.sections.filter (fun x => x.case = c && x.kind = kind)
  if c = normalCase then cs
  else cs ++ p.sections.filter (fun x => x.case = normalCase && x.kind = kind && x.island ≠ c
        && !cs.any (fun y => y.island = x.island && y.sheet = x.sheet))

/-- Every record of the sections of a kind under case `c`. -/
def recordsIn (p : Plate) (c kind : Nat) : List PRec := (sectionsIn p c kind).flatMap recsOf

/-- A section of a sheet that the island runs under case `c`: a normal sheet at or above the case-n count is not run. -/
def sheetRuns (c : Nat) (n : Nat → Nat) (x : Section) : Bool :=
  decide (x.sheet = 255) || decide (x.sheet < n x.island) || decide (x.case = c)

/-! ## Demand and sheet counts (02 R46, Table 2.7) -/

/-- Capacity per sheet of the countable resources 1-11 (02 Table 2.7). -/
def sheetCaps : List Nat := [1536, 512, 128, 16, 8, 8, 8, 8, 8, 8, 8]

/-- ⌈d ÷ c⌉. -/
def ceilDiv (d c : Nat) : Nat := (d + c - 1) / c

/-- Sheets that an island with this DEMAND section needs (02 R46). -/
def sheetsNeeded (d : List Byte) : Nat :=
  (sheetCaps.zipIdx).foldl (fun m p => max m (ceilDiv (u32At d (4 * p.2)) p.1)) 1

/-- The sheet count of island `i` under case `c` (02, Fallback maps). -/
def sheetCount (p : Plate) (c i : Nat) : Nat :=
  if c = normalCase then p.sheets.getD i 0
  else if i = c then 0
  else match p.sections.find? (fun x => x.case = c && x.kind = 0x0A && x.island = i) with
    | some x => sheetsNeeded x.data
    | none => p.sheets.getD i 0

/-! ## Regions (02 Table 2.15, 0x0100 and 0x0101) -/

/-- A memory region of REGION_MAP. -/
structure Region where
  num : Nat
  base : Nat
  len : Nat
  view : Nat
  place : Nat
  purpose : Nat
  deriving DecidableEq, Repr

/-- The region a REGION record defines. -/
def regionOf (r : PRec) : Region :=
  { num := r.index, base := u64At r.body 0 % 2 ^ 52, len := u64At r.body 8, view := u8At r.body 16,
    place := u8At r.body 17, purpose := u8At r.body 18 }

/-- The regions under case `c`. -/
def regionsIn (p : Plate) (c : Nat) : List Region :=
  ((recordsIn p c 5).filter (fun r => r.kind = 0x0100)).map regionOf

/-- Region `n`. -/
def regionNum (p : Plate) (c n : Nat) : Option Region := (regionsIn p c).find? (fun r => r.num = n)

/-- The rights that stage `st` has on region `n`: bit 0 read, bit 1 write. -/
def stageRights (p : Plate) (c st n : Nat) : Nat :=
  (((recordsIn p c 5).find? (fun r => r.kind = 0x0101 && r.stage = st && r.index = n)).map (fun r => u8At r.body 0)).getD 0

/-- The region that holds [a, a + n) whole and admits the stage: bit 0 of `right` to read, bit 1 to write. -/
def regionFor (p : Plate) (c st a n right : Nat) : Option Region :=
  (regionsIn p c).find? (fun r => r.base ≤ a && a + n ≤ r.base + r.len
    && decide (stageRights p c st r.num / (if right = 1 then 1 else 2) % 2 = 1))

/-! ## Inlets and chains (02 Table 2.15, 0x0200 and 0x0201; 04 Table 4.4) -/

/-- An inlet. -/
structure Inlet where
  num : Nat
  entry : Nat
  maxTc : Nat
  ranges : List (Nat × Nat)
  chain : List Nat
  deriving DecidableEq, Repr

/-- The stage numbers of a CHAIN record. -/
def chainOf (r : PRec) : List Nat := (List.range (u16At r.body 0)).map (fun i => u16At r.body (2 + 2 * i))

/-- Inlet `n` under case `c`. -/
def inletNum (p : Plate) (c n : Nat) : Option Inlet :=
  let rs := recordsIn p c 6
  match rs.find? (fun r => r.kind = 0x0200 && r.index = n) with
  | none => none
  | some r =>
    some { num := n, entry := u16At r.body 0, maxTc := u8At r.body 2,
           ranges := (List.range (min 8 (u8At r.body 3))).map (fun i => (u16At r.body (8 + 4 * i), u16At r.body (10 + 4 * i))),
           chain := ((rs.find? (fun q => q.kind = 0x0201 && q.index = n)).map chainOf).getD [] }

/-- The inlet accepts an opcode. -/
def inletTakes (x : Inlet) (op : Nat) : Bool := x.ranges.any (fun g => g.1 ≤ op && op ≤ g.2)

/-- The ENGINE_BIND records of stage `st`, over every island and sheet (02 R571). -/
def stageRecs (p : Plate) (c st : Nat) : List PRec :=
  (((sectionsIn p c 2).filter (sheetRuns c (sheetCount p c))).flatMap recsOf).filter (fun r => r.stage = st)

/-- The record of a kind in a stage's records. -/
def recKind (rs : List PRec) (k : Nat) : Option PRec := rs.find? (fun r => r.kind = k)

/-- `r` put among records in INDEX order. -/
def insRec (r : PRec) : List PRec → List PRec
  | [] => [r]
  | q :: t => if r.index ≤ q.index then r :: q :: t else q :: insRec r t

/-- A number that orders the units of a stage: island, reef, sheet, unit. -/
def PRec.place (r : PRec) : Nat := ((r.island * 256 + r.reef) * 256 + r.sheet) * 256 + r.unit

/-- The records of a kind in a stage's records, in INDEX order, of the lowest unit that has them: where several units serve a
stage each has its own set (R571), and they serve the same work. -/
def recKinds (rs : List PRec) (k : Nat) : List PRec :=
  match rs.filter (fun r => r.kind = k) with
  | [] => []
  | h :: t =>
    let m := t.foldl (fun m r => min m r.place) h.place
    ((h :: t).filter (fun r => r.place = m)).foldr insRec []

/-- Offset, within a descriptor's parameter block, of the section of kind `sec` of inlet `n` (02 Table 2.15, 0x0010). -/
def sectionOffset (p : Plate) (c n sec : Nat) : Option Nat :=
  ((recordsIn p c 2).find? (fun r => r.kind = 0x0010 && r.index = n && u8At r.body 0 = sec)).map (fun r => u32At r.body 4)

/-- Bytes of each parameter section: 1 decoder, 2 Stipple, 3 operator, 4 shuffle, 5 embedding (R155, R183, R195, R227, R287). -/
def sectionBytes (sec : Nat) : Nat :=
  if sec = 1 then 32 else if sec = 2 then 16 else if sec = 3 then 32 else if sec = 4 then 64 else if sec = 5 then 48 else 0

/-- Bytes that the parameter block must have to hold every section of the inlet (04 Table 4.4 step 8). -/
def paramNeed (p : Plate) (c n : Nat) : Nat :=
  ((recordsIn p c 2).filter (fun r => r.kind = 0x0010 && r.index = n)).foldl
    (fun m r => max m (u32At r.body 4 + sectionBytes (u8At r.body 0))) 0

/-! ## The plates of the state -/

/-- The plate in the active store copy. -/
def activePlate (s : State) : Option Plate :=
  if s.plt.active = .empty then none else if s.plt.copyY then s.plt.storeY else s.plt.storeX

/-- The plate in the active store copy, whatever the bank holds (02 R54). -/
def storeActive (s : State) : Option Plate := if s.plt.copyY then s.plt.storeY else s.plt.storeX

/-- The plate in the standby store copy, while the standby bank holds one. -/
def standbyPlate (s : State) : Option Plate :=
  match s.plt.standby with
  | .empty => none
  | .loading => none
  | _ => if s.plt.copyY then s.plt.storeX else s.plt.storeY

/-- The case in force on the active plate. -/
def caseNow (s : State) : Nat := if s.plt.active = .fallback then s.plt.case else normalCase

/-- A plate is committed and awaits its bank swap (02 R63). -/
def awaitsSwap (s : State) : Bool := decide (s.plt.standby = .committing) && s.plt.instant

end Sys2Proof.Machine
end

