-- ==== Sys2Proof/Machine/Cells.lean ====
section
/-! DEFINITION. Cell configurations (02 R42-R45, 03 R72, R80, R82), what a record cell and a dot cell compute (03 R80-R85), and
the wide exact accumulators (03 R86-R92). -/

namespace Sys2Proof.Machine

/-! ## Configurations (02 Table 2.5, R44) -/

/-- Bits `hi:lo` of a 64-byte configuration. -/
def cfgBits (cfg : Nat) (hi lo : Nat) : Nat := bits cfg hi lo

/-- A source of Table 2.6 that is no reserved code and names no neighbour beyond the array's edge (02 R43). -/
def srcOk (row col c : Nat) : Bool :=
  decide (c ≤ 10) && !(c = 1 && row = 0) && !(c = 2 && col = 15) && !(c = 3 && row = 15) && !(c = 4 && col = 0)

/-- The hash-step combinations that Table 8.2 allows (08 R197). -/
def hashStepOk (v imm w : Nat) : Bool :=
  match v with
  | 0 => decide (imm < 4) && decide (w % 8 = 0)
  | 1 => decide (imm < 3)
  | 2 => decide (imm < 256) && decide (imm / 64 ≠ 3) && (decide (imm / 64 = 1) || decide (imm % 64 = 0))
  | 3 => decide (imm = 0)
  | _ => false

/-- The VARIANT values of Table 3.5. -/
def variantOk (op v imm w : Nat) : Bool :=
  match op with
  | 1 => decide (v = 0)
  | 2 => decide (v = 0)
  | 3 => decide (v < 16) && decide (v % 8 ≤ 5)
  | 4 => decide (v ≤ 2)
  | 5 => decide (v < 32)
  | 6 => hashStepOk v imm w
  | 7 => decide (v < 8)
  | 8 => decide (1 ≤ v % 16) && decide (v % 16 ≤ 11) && decide (v / 16 % 4 ≠ 3)
  | 9 => decide (v = 0)
  | 10 => decide (v ≤ 1)
  | _ => false

/-- The width rule of R72 and Table 3.5: pack's width is its target's, or its fixed source's when affine. -/
def widthOk (op v fmt w : Nat) : Bool :=
  if op = 8 then
    let tgt := v % 16
    let fixed := if v / 128 % 2 = 1 then fmt else tgt
    (decide (fixed < 3) || decide (w = fmtWidth fixed w)) && !(tgt = 2 && w < 2)
  else (decide (fmt < 3) || decide (w = fmtWidth fmt w)) && !(fmt = 2 && w < 2)

/-- A record cell configuration meets R45; `lut` is how many bytes the section's lookup areas hold. -/
def recordCellOk (row col cfg lut : Nat) : Bool :=
  let op := cfgBits cfg 7 0
  let v := cfgBits cfg 15 8
  let w := cfgBits cfg 27 22 + 1
  let fmt := cfgBits cfg 31 28
  decide (op ≤ 10) && decide (cfgBits cfg 63 50 = 0) && decide (cfgBits cfg 143 134 = 0) && decide (cfgBits cfg 511 160 = 0)
    && decide (fmt ≤ 12) && srcOk row col (cfgBits cfg 35 32) && srcOk row col (cfgBits cfg 39 36)
    && srcOk row col (cfgBits cfg 43 40) && decide (cfgBits cfg 21 16 + w ≤ 64)
    && variantOk op v (cfgBits cfg 127 64) w && widthOk op v fmt w
    && (!(col = 15 && cfgBits cfg 45 45 = 1) || (decide (1 ≤ fmt) && decide (fmt ≤ 11)))
    && (decide (op ≠ 10) || decide (cfgBits cfg 159 144 * 512 + 8 * (cfgBits cfg 133 128 + 1) ≤ lut))

/-- A dot cell configuration meets R44, R45 and R72. -/
def dotCellOk (row col cfg : Nat) : Bool :=
  let op := cfgBits cfg 7 0
  let inf := cfgBits cfg 11 8
  (decide (op = 0x20) || decide (op = 0x21) || decide (op = 0x22))
    && decide (cfgBits cfg 31 28 = 0) && decide (cfgBits cfg 63 48 = 0) && decide (cfgBits cfg 68 64 = 0)
    && decide (cfgBits cfg 127 120 = 0) && decide (cfgBits cfg 511 160 = 0)
    && srcOk row col (cfgBits cfg 19 16) && srcOk row col (cfgBits cfg 23 20)
    && decide (cfgBits cfg 95 64 + 32 * cfgBits cfg 119 96 ≤ 0x01800000) && decide (cfgBits cfg 47 32 ≠ 0)
    && ((inf = 4 && cfgBits cfg 15 12 = 5) || ((inf = 6 || inf = 7 || inf = 9) && cfgBits cfg 15 12 = 10))

/-- A cell's configuration meets R45: an idle cell is all zeros. -/
def cellOk (row col cfg lut : Nat) : Bool :=
  if cfgBits cfg 7 0 = 0 then decide (cfg = 0)
  else if row < 12 then recordCellOk row col cfg lut else dotCellOk row col cfg

/-- The first cell of a CELL_WIRING section that breaks R45, as reef, row, column. -/
def cellsBad (d : List Byte) : Option (Nat × Nat × Nat) :=
  (List.range 2048).findSome? (fun k =>
    if cellOk (k % 256 / 16) (k % 16) (fieldAt 64 d (64 * k)) (d.length - 131072) then none
    else some (k / 256, k % 256 / 16, k % 16))

/-- The number of a cell in the device: 256 per reef, row-major. -/
def cellNum (reef row col : Nat) : Nat := 256 * reef + 16 * row + col

/-- The sheet that island `i` runs. -/
def runningSheet (s : State) (i : Nat) : Nat := (mget ⟨0, false, false, false, 0⟩ s.isl i).sheet

/-- The CELL_WIRING bytes of the sheet that a reef's island runs. -/
def wiringOf (s : State) (reef : Nat) : List Byte :=
  match activePlate s with
  | none => []
  | some p => ((sectionIn p (caseNow s) 1 (reef / 8) (runningSheet s (reef / 8))).map (·.data)).getD []

/-- The configuration of a cell: all zeros (idle) where no plate wires it. -/
def cellCfg (s : State) (reef row col : Nat) : Nat := fieldAt 64 (wiringOf s reef) (64 * (reef % 8 * 256 + 16 * row + col))

/-! ## The record cell (03 R80, R81) -/

/-- `v` with bits `[lsb, lsb + w)` replaced by the low bits of `f`. -/
def insertField (v lsb w f : Nat) : Nat := v - bits v (lsb + w - 1) lsb * 2 ^ lsb + f % 2 ^ w * 2 ^ lsb

/-- A value of a field widened to 64 bits as Table 3.5's unpack does. -/
def unpackField (fmt w f : Nat) : Nat :=
  if fmt = 2 ∨ fmt = 3 ∨ fmt = 4 ∨ fmt = 5 ∨ fmt = 11 then uintOf 64 (sintOf (fmtWidth fmt w) f)
  else if (floatParams fmt).isSome then toFloat 10 .rne false (floatVal fmt f)
  else f

/-- One hash step (08 Table 8.2): A, B, the field of A, its width. -/
def hashStep (v imm : Nat) (a b field : W64) (w : Nat) : W64 :=
  match v with
  | 0 =>
    let st := if imm % 2 = 1 then ~~~ (b.setWidth 32 : W32) else b.setWidth 32
    let r := crcFrom 0x82F63B78#32 st (leBytes (w / 8) field.toNat)
    (if imm / 2 % 2 = 1 then ~~~ r else r).setWidth 64
  | 1 => if imm = 0 then a ^^^ (b * 0x9E3779B97F4A7C15#64) else if imm = 1 then akhAbsorb b field else akhFin b
  | 2 =>
    let x := a + b
    if imm / 64 = 0 then x else if imm / 64 = 1 then (b.rotateLeft (imm % 64)) ^^^ x else a ^^^ b
  | _ => BitVec.ofNat 64 (field.toNat * b.toNat / 2 ^ 64)

/-- A shift of Table 3.5. -/
def shiftBy (kind : Nat) (a : W64) (n : Nat) : W64 :=
  match kind with
  | 0 => a <<< n
  | 1 => a >>> n
  | 2 => a.sshiftRight n
  | _ => a.rotateRight n

/-- What a record cell's step gives: the result, whether it drew for SR, whether it drops the record in flight. -/
structure CellOut where
  res : W64
  drew : Bool
  drop : Bool
  deriving DecidableEq, Repr

/-- The result of a record cell (Table 3.5) from A, B, the predicate, the SR draw and the cell's lookup area. -/
def recordCell (cfg : Nat) (a b : W64) (pred : Bool) (u : W32) (lut : List Byte) : CellOut :=
  let op := cfgBits cfg 7 0
  let v := cfgBits cfg 15 8
  let lsb := cfgBits cfg 21 16
  let w := cfgBits cfg 27 22 + 1
  let fmt := cfgBits cfg 31 28
  let imm := cfgBits cfg 127 64
  let fa := bits a.toNat (lsb + w - 1) lsb
  let fb := bits b.toNat (lsb + w - 1) lsb
  let va := fmtVal fmt w fa
  let vb := fmtVal fmt w fb
  let ok := fun (n : Nat) => ({ res := BitVec.ofNat 64 n, drew := false, drop := false } : CellOut)
  if op = 4 ∧ v = 0 then ok (if pred then a.toNat else b.toNat)
  else if !pred then ok a.toNat
  else
    match op with
    | 1 => ok (if fmt = 2 ∨ fmt = 3 ∨ fmt = 4 ∨ fmt = 5 then uintOf 64 (sintOf w fa) else fa)
    | 2 => ok (insertField a.toNat lsb w b.toNat)
    | 3 => ok (if relHolds (v % 8) (v / 8 % 2 = 1) va vb then 1 else 0)
    | 4 =>
      if va = .nan ∧ vb = .nan then ok (insertField a.toNat lsb w (canonNan fmt))
      else ok (if pickFirst (v = 2) va vb then a.toNat else b.toNat)
    | 5 =>
      let r := bit v (2 * (b.toNat % 2) + a.toNat % 2)
      { res := if r then 1 else 0, drew := false, drop := v / 16 % 2 = 1 && !r }
    | 6 => ok (hashStep v imm a b (BitVec.ofNat 64 fa) w).toNat
    | 7 => ok (shiftBy (v % 4) a (if v / 4 % 2 = 1 then b.toNat % 64 else imm % 64)).toNat
    | 8 =>
      let tgt := v % 16
      let r : Rnd := if v / 16 % 4 = 0 then .rne else if v / 16 % 4 = 1 then .rtz else .sr u
      let sat := v / 64 % 2 = 1
      let x := fmtVal fmt (if fmt < 3 then 64 else w) a.toNat
      if v / 128 % 2 = 0 then
        { res := BitVec.ofNat 64 (insertField b.toNat lsb w (toFmt tgt w r sat x)), drew := v / 16 % 4 = 2, drop := false }
      else
        let y := (x.add (floatVal 10 (b.toNat % 2 ^ 32))).mul (floatVal 10 (b.toNat / 2 ^ 32))
        { res := BitVec.ofNat 64 (toFmt tgt w r sat y), drew := v / 16 % 4 = 2, drop := false }
    | 9 => ok (unpackField fmt w fa)
    | 10 =>
      let n := cfgBits cfg 133 128 + 1
      if fa < n then ok (u64At lut (8 * fa)) else if v = 0 then ok (u64At lut (8 * (n - 1))) else ok imm
    | _ => ok 0

/-! ## Wide exact accumulators (03 R86-R91) -/

/-- A WXA after CLEAR with MODE_SQUARE as given. -/
def Wxa.init : Wxa :=
  { acc := 0, terms := 0, exclNan := 0, exclInf := 0, exclRange := 0, lowBits := false, full := false, square := false }

/-- The number of the WXA of a row of a reef. -/
def wxaNum (reef row : Nat) : Nat := 16 * reef + row

/-- The WXA of a row. -/
def wxaGet (s : State) (k : Nat) : Wxa := mget Wxa.init s.wxas k

/-- `s` with a WXA set. -/
def wxaPut (k : Nat) (w : Wxa) (s : State) : State := { s with wxas := mset Wxa.init s.wxas k w }

/-- A counter that saturates at 0xFFFF_FFFF. -/
def satAdd32 (a b : Nat) : Nat := min (a + b) 0xFFFFFFFF

/-- ACC as a 320-bit two's complement number. -/
def wrap320 (i : Int) : Int := sintOf 320 (uintOf 320 i)

/-- The integer part of a magnitude in units of 2^-149, and whether bits below were dropped (R87 step 3). -/
def wxaUnits (n d : Nat) : Nat × Bool := (n * 2 ^ 149 / d, decide (n * 2 ^ 149 % d ≠ 0))

/-- A term enters the WXA (R87, R88); `dot` terms are never squared. -/
def wxaEnter (dot : Bool) (t : Num) (w : Wxa) : Wxa :=
  let x := if w.square && !dot then t.mul t else t
  match x with
  | .nan => { w with exclNan := satAdd32 w.exclNan 1 }
  | .inf _ => { w with exclInf := satAdd32 w.exclInf 1 }
  | .fin s n d =>
    if d * 2 ^ 128 ≤ n then { w with exclRange := satAdd32 w.exclRange 1 }
    else if 2 ^ 40 ≤ w.terms then { w with full := true }
    else
      let u := wxaUnits n d
      { w with acc := wrap320 (w.acc + (if s then -(u.1 : Int) else (u.1 : Int))), terms := w.terms + 1,
               lowBits := w.lowBits || u.2 }

/-- The 64-byte state image (Table 3.6). -/
def wxaImage (w : Wxa) : List Byte :=
  leBytes 40 (uintOf 320 w.acc) ++ leBytes 8 w.terms ++ leBytes 4 w.exclNan ++ leBytes 4 w.exclInf ++ leBytes 4 w.exclRange
    ++ [BitVec.ofNat 8 (w.lowBits.toNat + 2 * w.full.toNat + 4 * w.square.toNat)] ++ zeros 3

/-- The state that an image holds. -/
def wxaOfImage (b : List Byte) : Wxa :=
  let f := u8At b 0x3C
  { acc := sintOf 320 (fieldAt 40 b 0), terms := u64At b 0x28 % 2 ^ 41, exclNan := u32At b 0x30, exclInf := u32At b 0x34,
    exclRange := u32At b 0x38, lowBits := bit f 0, full := bit f 1, square := bit f 2 }

/-- MERGE (R90). -/
def wxaMergeIn (w i : Wxa) : Wxa :=
  if 2 ^ 40 < w.terms + i.terms then { w with full := true }
  else { w with acc := wrap320 (w.acc + i.acc), terms := w.terms + i.terms, exclNan := satAdd32 w.exclNan i.exclNan,
                exclInf := satAdd32 w.exclInf i.exclInf, exclRange := satAdd32 w.exclRange i.exclRange,
                lowBits := w.lowBits || i.lowBits, full := w.full || i.full }

/-- CLEAR. -/
def wxaCleared (w : Wxa) : Wxa := { Wxa.init with square := w.square }

/-- The value of ACC. -/
def wxaVal (w : Wxa) : Num := .fin (decide (w.acc < 0)) w.acc.natAbs (2 ^ 149)

/-- ACC rounded once by RNE to FP32 (READ_FP32). -/
def wxaFp32 (w : Wxa) : W32 := toFp32 (wxaVal w)

/-- What a cell reads from its row's WXA (R91). -/
def wxaWord (w : Wxa) : W64 :=
  BitVec.ofNat 64 ((wxaFp32 w).toNat + 2 ^ 32 * (w.lowBits.toNat + 2 * w.full.toNat + 4 * w.square.toNat))

/-! ## The dot cell (03 R83-R85) -/

/-- A dot cell that has done nothing. -/
def DCell.init : DCell := { acc := 0, steps := 0, line := 0 }

/-- The lanes of an operand in an input format. -/
def lanes (fmt : Nat) (b : List Byte) : List Num :=
  if fmt = 4 then (List.range 64).map (fun k => fmtVal 4 8 (u8At b k))
  else if fmt = 9 then (List.range 32).map (fun k => fmtVal 9 16 (u16At b (2 * k)))
  else (List.range 32).map (fun k => fmtVal fmt 8 (u8At b k))

/-- The exact step sum (R84). -/
def stepSum (fmt : Nat) (act wgt : List Byte) : Num :=
  ((lanes fmt act).zip (lanes fmt wgt)).foldl (fun x p => x.add (p.1.mul p.2)) (.fin true 0 1)

/-- The integer of a value that is an integer. -/
def numInt : Num → Int
  | .fin s n d => if s then -((n / d : Nat) : Int) else ((n / d : Nat) : Int)
  | _ => 0

/-- One dot step of OP 0x20 or 0x22 (R84, R85): the cell after it and what it emits, if the output is complete. -/
def dotAccumulate (cfg : Nat) (c : DCell) (sum : Num) : DCell × Option W32 :=
  let int8 := cfgBits cfg 11 8 = 4
  let acc : W32 := if int8 then c.acc + BitVec.ofInt 32 (numInt sum) else toFp32 ((fp32Val c.acc).add sum)
  if c.steps + 1 < cfgBits cfg 47 32 then ({ c with acc := acc, steps := c.steps + 1 }, none)
  else
    let outv : W32 :=
      if cfgBits cfg 7 0 = 0x22 then
        let x := if int8 then fmtVal 5 32 acc.toNat else fp32Val acc
        BitVec.ofNat 32 (toFmt (cfgBits cfg 11 8) 8 .rne true (x.mul (floatVal 10 (cfgBits cfg 159 128))))
      else acc
    ({ c with acc := 0, steps := 0 }, some outv)

end Sys2Proof.Machine
end

