-- ==== Sys2Proof/Machine/Access.lean ====
section
/-! DEFINITION. Memory as a requester may use it: the device-owned areas (15 R362), references of descriptors (04 R105), and
the accesses of engines (15 R574). -/

namespace Sys2Proof.Machine

/-! ## Tables of REGION_MAP (10 Table 10.1, 12 Table 12.1) -/

/-- An ASU table record. -/
structure AsuTab where
  num : Nat
  ternary : Bool
  partLog : Nat
  sel : Nat
  hole : Nat
  sides : Nat
  first : Nat
  size : Nat
  stride : Nat
  seed : W64
  copy : Nat
  deriving DecidableEq, Repr

/-- The record of 64 bytes. -/
def asuTabOf (b : List Byte) : AsuTab :=
  { num := u8At b 0, ternary := decide (u8At b 1 = 1), partLog := u8At b 2, sel := u8At b 3, hole := u16At b 4,
    sides := u8At b 6, first := u32At b 8, size := u32At b 12, stride := u32At b 16, seed := BitVec.ofNat 64 (u64At b 24),
    copy := u64At b 32 }

/-- Partitions of a table. -/
def AsuTab.parts (t : AsuTab) : Nat := 2 ^ t.partLog

/-- Position of offset `o` of partition `q` of side `sd` (10 R237). -/
def AsuTab.pos (t : AsuTab) (sd q o : Nat) : Nat := t.first + sd * t.stride + q * t.size + o

/-- A position of the table. -/
def AsuTab.holds (t : AsuTab) (g : Nat) : Bool :=
  (List.range t.sides).any (fun sd => t.pos sd 0 0 ≤ g && g < t.pos sd 0 0 + t.parts * t.size)

/-- The ASU tables under case `c`. -/
def asuTabs (p : Plate) (c : Nat) : List AsuTab := ((recordsIn p c 5).filter (fun r => r.kind = 0x0102)).map (asuTabOf ·.body)

/-- ASU table `n` of the active plate. -/
def asuTab? (s : State) (n : Nat) : Option AsuTab :=
  (activePlate s).bind (fun p => (asuTabs p (caseNow s)).find? (fun t => t.num = n))

/-- An embedding table record. -/
structure EmbTab where
  id : Nat
  fmt : Nat
  c : Nat
  rows : Nat
  deltaRows : Nat
  seed : W64
  ind : Nat
  d0 : Nat
  d1 : Nat
  pool : Nat
  slots : Nat
  shoal : Nat
  prefetch : Nat
  deriving DecidableEq, Repr

/-- The record of 128 bytes. -/
def embTabOf (b : List Byte) : EmbTab :=
  { id := u8At b 0, fmt := u8At b 1, c := u16At b 2, rows := u64At b 0x10, deltaRows := u64At b 0x18,
    seed := BitVec.ofNat 64 (u64At b 0x20), ind := u64At b 0x28 % 2 ^ 52, d0 := u64At b 0x30 % 2 ^ 52, d1 := u64At b 0x38 % 2 ^ 52,
    pool := u64At b 0x40, slots := u32At b 0x48, shoal := u32At b 0x4C, prefetch := u32At b 0x50 }

/-- Code bytes of a row. -/
def EmbTab.codeBytes (t : EmbTab) : Nat := if t.fmt = 4 then t.c else t.c / 2
/-- ROW_BYTES. -/
def EmbTab.rowBytes (t : EmbTab) : Nat := 32 * ceilDiv (8 + t.codeBytes) 32
/-- DROW. -/
def EmbTab.drow (t : EmbTab) : Nat := 32 + 8 * t.c
/-- The delta area of a step (12 R299). -/
def EmbTab.delta (t : EmbTab) (step : Nat) : Nat := if step % 2 = 0 then t.d0 else t.d1

/-- The embedding tables under case `c`. -/
def embTabs (p : Plate) (c : Nat) : List EmbTab := ((recordsIn p c 5).filter (fun r => r.kind = 0x0103)).map (embTabOf ·.body)

/-- Embedding table `n` of the active plate. -/
def embTab? (s : State) (n : Nat) : Option EmbTab :=
  (activePlate s).bind (fun p => (embTabs p (caseNow s)).find? (fun t => t.id = n))

/-! ## Device-owned areas (15 Table 15.2) -/

/-- What Table 15.2 leaves of a line. -/
inductive Prot where
  /-- No device-owned area. -/
  | free
  /-- Reads and ADD_DELTA. -/
  | lanes
  /-- Reads alone. -/
  | readOnly
  /-- Nothing. -/
  | closed
  deriving DecidableEq, Repr

/-- The interleaved address of offset `o` of stack `k` (19 R450); nothing beyond the interleaved view. -/
def interleaved (k o : Nat) : Nat := (o / 4096 * 16 + k) * 4096 + o % 4096

/-- The areas that hold whatever plate is active: plate store, rings, recovery area, audit ring, fate area; the service area
takes requests alone (23 R535). -/
def fixedProt (k o : Nat) : Prot :=
  if 0xFF0000000 ≤ o && k < 4 then .closed
  else if 0xFEC000000 ≤ o && o < 0xFF0000000 then .readOnly
  else if 0xFD4000000 ≤ o && o < 0xFEC000000 then .closed
  else if 0xFD3000000 ≤ o && o < 0xFD4000000 && (k = 0 || k = 2) then .closed
  else if 0xFD2000000 ≤ o && o < 0xFD3000000 && (k = 1 || k = 3) then .readOnly
  else if 0xFA0000000 ≤ o && o < 0xFD0000000 then .closed
  else .free

/-- A line of a delta area: header line or lanes. -/
def deltaProt (t : EmbTab) (base v : Nat) : Prot :=
  if base ≤ v && v < base + t.deltaRows * t.drow then (if (v - base) % t.drow < 32 then .readOnly else .lanes) else .free

/-- The stricter of two. -/
def Prot.max : Prot → Prot → Prot
  | .closed, _ => .closed
  | _, .closed => .closed
  | .readOnly, _ => .readOnly
  | _, .readOnly => .readOnly
  | .lanes, _ => .lanes
  | _, q => q

/-- Areas of the embedding tables in HBM. -/
def embProt (ts : List EmbTab) (k o : Nat) : Prot :=
  let v := interleaved k o
  ts.foldl (fun a t =>
    let pool := if t.pool ≤ o && o < t.pool + t.slots * t.rowBytes then Prot.readOnly else .free
    let ind := if t.ind ≤ v && v < t.ind + 8 * t.rows then Prot.readOnly else .free
    a.max (pool.max (ind.max ((deltaProt t t.d0 v).max (deltaProt t t.d1 v))))) .free

/-- Copies of ternary entries, in HBM (10 R238). -/
def ternaryCopy (ts : List AsuTab) (key : Nat) : Bool :=
  ts.any (fun t => t.ternary && (match memKey (t.copy % 2 ^ 52) with
    | some b => decide (b ≤ key) && decide (key < b + 64 * ((t.sides - 1) * t.stride + t.parts * t.size))
    | none => false))

/-- Copies of exact entries, in the lagoon share of their reef. -/
def exactCopy (ts : List AsuTab) (i o : Nat) : Bool :=
  let reef := 8 * i + o / 0x01800000
  let p := o % 0x01800000
  ts.any (fun t => !t.ternary && t.copy ≤ p && p < t.copy + 32 * 65536 && t.holds (65536 * reef + (p - t.copy) / 32))

/-- What Table 15.2 leaves of the line at a local address. -/
def protAt (s : State) (line : Nat) : Prot :=
  let (at_, et) := match activePlate s with
    | some p => (asuTabs p (caseNow s), embTabs p (caseNow s))
    | none => ([], [])
  match placeOf line with
  | .hbm k o => (fixedProt k o).max ((embProt et k o).max (if ternaryCopy at_ (hbmKey k o) then .readOnly else .free))
  | .lagoon i o => if exactCopy at_ i o then .readOnly else .free
  | _ => .free

/-- The answer of Table 15.2 to a read. -/
def protRead (s : State) (a n : Nat) : W16 :=
  if (lineAddrs a n).any (fun l => protAt s l = .closed) then cAccessProtected else cOk

/-- The answer of Table 15.2 to a write or an atomic other than ADD_DELTA. -/
def protWrite (s : State) (a n : Nat) : W16 :=
  if (lineAddrs a n).any (fun l => protAt s l ≠ .free) then cAccessProtected else cOk

/-! ## References (04 R105) -/

/-- Addresses of registers or of the unpopulated part of a lagoon window, or outside the map. -/
def offMemory (a n : Nat) : Bool := (lineAddrs a n).any (fun l => (memKey l).isNone)

/-- A reference is valid for a stage (`right` 1 to read, 2 to write): node, one region that admits it, no device-owned area, no register (R105). -/
def refOk (s : State) (p : Plate) (c st : Nat) (a : W64) (n right : Nat) : Bool :=
  nodeLocal s a && (regionFor p c st (localOf a) n right).isSome
    && !(lineAddrs (localOf a) n).any (fun l => protAt s l ≠ .free) && !offMemory (localOf a) n

/-! ## Accesses of engines (15 R574) -/

/-- The answer to an engine's read of `[a, a + n)` for stage `st`. -/
def engRead (s : State) (p : Plate) (c st a n : Nat) : W16 :=
  firstCode [
    firstCode ((lineAddrs a n).map mapRead),
    protRead s a n,
    if anyLost s a n then cDataLost else cOk,
    if anyPoison s a n then cPoisoned else cOk,
    if (regionFor p c st a n 1).isSome then cOk else cOutOfBounds]

/-- The answer to an engine's write. -/
def engWrite (s : State) (p : Plate) (c st a n : Nat) : W16 :=
  firstCode [
    firstCode ((lineAddrs a n).map (mapWrite s)),
    protWrite s a n,
    if anyLost s a n then cDataLost else cOk,
    if partPoison s a n then cPoisoned else cOk,
    if (regionFor p c st a n 2).isSome then cOk else cOutOfBounds]

end Sys2Proof.Machine
end

