-- ==== Sys2Proof/Machine/Integrity.lean ====
section
/-! DEFINITION. Integrity records, their rings and counters (19 R457, R464, R465). -/

namespace Sys2Proof.Machine

/-- Offset of a holder's block: islands 0-15, strait dies 16-19, harbours 20-23, the cape 24 (21 Table 21.1). -/
def holderBase (h : Nat) : Nat :=
  if h < 16 then 0x01800000 + 0x10000 * h
  else if h < 20 then 0x01900000 + 0x10000 * (h - 16)
  else if h < 24 then 0x01940000 + 0x10000 * (h - 20)
  else 0x01980000

/-- A holder's die is lost. -/
def holderLost (s : State) (h : Nat) : Bool :=
  if h < 16 then islLost s h else if h < 20 then straitLost s (h - 16) else if h < 24 then harbourLost s (h - 20) else s.rcv.cape

/-- A ring with nothing in it. -/
def IntRing.init : IntRing := { recs := [], head := 0, written := 0 }

/-- A saturating 32-bit register word raised by one. -/
def satBump (off : Nat) (s : State) : State :=
  let v := (rget s off).toNat
  if v = 2 ^ 32 - 1 then s else rset off (BitVec.ofNat 32 (v + 1)) s

/-- A record written into a holder's ring (R464): MI_ERR_PENDING sets, a record that replaces another counts, and an
uncorrectable one of a holder with UE_ALERT raises the alert. -/
def intRecord (h : Nat) (r : IntRec) (s : State) : State :=
  if holderLost s h then s
  else
    let g := mget IntRing.init s.intRings h
    let s1 := { s with intRings := mset IntRing.init s.intRings h
                         { recs := mput g.recs g.head r, head := (g.head + 1) % 32, written := min 32 (g.written + 1) } }
    let st := holderBase h + 0x800
    let s2 := if g.written = 32 then satBump (holderBase h + 0x804) s1 else s1
    let s3 := rset st (rget s2 st ||| 1) s2
    if r.kind = 2 && (rget s3 st).getLsbD 1 then alert 0 s3 else s3

/-- The bytes of a record (Table 19.3). -/
def IntRec.bytes (r : IntRec) : List Byte :=
  leBytes 1 r.kind ++ leBytes 1 r.place ++ leBytes 1 r.unit ++ leBytes 1 r.symbols ++ leBytes 1 r.pos0 ++ leBytes 1 r.pos1
    ++ leBytes 2 r.source ++ leBytes 8 r.addr.toNat ++ leBytes 4 r.handle.toNat ++ zeros 12

/-- The codeword of a lagoon line: the window address of line 2m of its bank (R452, 01 R16). -/
def lagoonWord (i o : Nat) : Nat := let p := o / 32 * 32; lagKey i (if p / 1024 % 2 = 1 then p - 1024 else p)

/-- The home of a poison unit: holder, PLACE, UNIT, codeword address, counter of its kind `c` (0 MI_CE, 1 MI_UE,
2 MI_POISON_READS, 3 MI_SCRUB_FIXED). -/
structure Home where
  island : Nat
  place : Nat
  unit : Nat
  addr : Nat
  counter : Nat → Nat

/-- The home of the unit at a canonical address. -/
def homeOf (k : Nat) : Option Home :=
  match placeOf k with
  | .hbm st o => some { island := st, place := 0, unit := st, addr := hbmKey st (o / 64 * 64), counter := islCnt st }
  | .lagoon i o =>
    let r := 8 * i + o / 0x01800000
    some { island := i, place := 1, unit := r, addr := lagoonWord i o, counter := fun c => reefCnt r (90 + c) }
  | _ => none

/-- A read that reached poison (R457): MI_POISON_READS of its home and a record of KIND 3. -/
def poisonedRead (a n : Nat) (handle : W32) (s : State) : State :=
  match (touchedUnits a n).find? (nmem s.poison) with
  | none => s
  | some u =>
    match homeOf u with
    | none => s
    | some h =>
      intRecord h.island { kind := 3, place := h.place, unit := h.unit, symbols := 255, pos0 := 255, pos1 := 255, source := 0,
                           addr := BitVec.ofNat 64 h.addr, handle := handle } (bump (h.counter 2) 1 s)

end Sys2Proof.Machine
end

