-- ==== Sys2Proof/Machine/Runs.lean ====
section
/-! DEFINITION. The execution of an accepted descriptor: which stage it stands at, what that stage finds, and how a stage ends
(04 R108-R112, 17 R414-R424, 02 R571). -/

namespace Sys2Proof.Machine

/-- The number of a run: 2^48 x channel + SEQ. -/
def runNum (chan seq : Nat) : Nat := chan * 2 ^ 48 + seq

/-- A run. -/
def runGet (s : State) (k : Nat) : Run := mget Run.init s.runs k

/-- `s` with a run set. -/
def runPut (k : Nat) (x : Run) (s : State) : State := { s with runs := mset Run.init s.runs k x }

/-- Channel `i`. -/
def chanGet (s : State) (i : Nat) : Chan := mget Chan.init s.chans i

/-- `s` with a channel set. -/
def chanPut (i : Nat) (c : Chan) (s : State) : State := { s with chans := mset Chan.init s.chans i c }

/-- An ENGINE record (02 Table 2.15, 0x0001). -/
structure EngineRec where
  reef : Nat
  unit : Nat
  inRegion : Nat
  outRegion : Nat
  auxRegion : Nat
  corrupt : Bool
  auxOff : Nat
  auxLen : Nat
  outOff : Nat
  outLen : Nat
  deriving DecidableEq, Repr

/-- The ENGINE record of a record of kind 1. -/
def engineOf (r : PRec) : EngineRec :=
  { reef := 8 * r.island + r.reef, unit := r.unit, inRegion := u16At r.body 0, outRegion := u16At r.body 2,
    auxRegion := u16At r.body 4, corrupt := bit (u16At r.body 6) 0, auxOff := u64At r.body 24, auxLen := u32At r.body 40,
    outOff := u64At r.body 16, outLen := u32At r.body 36 }

/-- The ENGINE record of lowest REEF and UNIT of a stage's records (05 R128). -/
def engineRec (rs : List PRec) : Option EngineRec :=
  ((rs.filter (fun r => r.kind = 1)).map engineOf).foldl (fun m e =>
    match m with
    | none => some e
    | some x => if e.reef < x.reef ∨ (e.reef = x.reef ∧ e.unit < x.unit) then some e else some x) none

/-- The global reef whose counters a stage's work raises: that of its lowest record (DESIGN CHOICE,
notes/assumptions/13.md). -/
def reefOf (rs : List PRec) : Nat :=
  (rs.filter (fun r => r.reef ≤ 7)).foldl (fun m r => min m (8 * r.island + r.reef)) 127

/-- What the units of a stage find when they run. -/
structure Ctx where
  chan : Nat
  seq : Nat
  ch : Chan
  j : Journal
  p : Plate
  c : Nat
  inl : Inlet
  st : Nat
  rs : List PRec
  reef : Nat
  run : Run
  deriving DecidableEq, Repr

/-- The number of the context's run. -/
def Ctx.num (x : Ctx) : Nat := runNum x.chan x.seq
/-- The stage is the first of its chain. -/
def Ctx.entry (x : Ctx) : Bool := decide (x.run.pos = 0)
/-- The stage is the last of its chain. -/
def Ctx.last (x : Ctx) : Bool := decide (x.run.pos + 1 = x.inl.chain.length)

/-- A statistics stage, and an ASU update stage, as kinds beside those of Table 2.15. -/
def kindStats : Nat := 0x1000
def kindAsu : Nat := 0x1001

/-- The kinds of work a stage's records give it. A stage of bindings uses its GRAVER_PARAMS for pages (06); a stage of ENGINE
records alone is a Graver, ASU update, select, layout or statistics stage by its unit (notes/assumptions/13.md). -/
def stageKinds (rs : List PRec) : List Nat :=
  let has := fun k => rs.any (fun r => r.kind = k)
  let ks := [3, 5, 6, 7, 8, 9, 10, 12, 13, 14, 15].filter has
  let ks := if has 2 && !has 3 then 2 :: ks else ks
  if ks ≠ [] then ks
  else match engineRec rs with
    | none => []
    | some e => if e.unit ≤ 1 then [2] else if e.unit = 4 then [kindAsu] else if e.unit = 5 then [14]
      else if e.unit = 7 then [13] else if e.auxRegion ≠ 0xFFFF then [kindStats] else []

/-- The journal entry of a sequence number. -/
def journalOf (s : State) (chan seq : Nat) : Option Journal := mlook (chanGet s chan).journal seq

/-- The channel's descriptors may execute: its state and hold allow it (04 Table 4.2, 17 R426). -/
def chanRuns (c : Chan) : Bool :=
  decide (c.state = .opened) || (decide (c.state = .draining) && !c.held)

/-- The context of a descriptor's current stage, where it may execute: accepted and not committed, its plate active, a stage
left and none failed. -/
def ctxOf (s : State) (chan seq : Nat) : Option Ctx :=
  let ch := chanGet s chan
  match mlook ch.journal seq, activePlate s with
  | some j, some p =>
    let k := caseNow s
    let run := runGet s (runNum chan seq)
    if j.state ≠ .accepted || j.after || j.verdict ≠ 0 || !chanRuns ch || nmem s.rcv.frozen chan || run.halted || s.plt.active = .empty then none
    else
      match inletNum p k ch.inlet.toNat with
      | none => none
      | some inl =>
        match inl.chain[run.pos]? with
        | none => none
        | some st =>
          let rs := stageRecs p k st
          if rs.any (fun r => decide (r.island < 16) && islLost s r.island) then none
          else
            some { chan := chan, seq := seq, ch := ch, j := j, p := p, c := k, inl := inl, st := st, rs := rs,
                   reef := reefOf rs, run := run }
  | _, _ => none

/-! ## How a stage ends -/

/-- The unit of a kind has served the descriptor; when every kind of the stage has, the next stage is due. -/
def stageDid (x : Ctx) (kind : Nat) (r : Run) : Run :=
  let did := nadd r.did kind
  if (stageKinds x.rs).all (nmem did) then { r with pos := r.pos + 1, did := [], served := [] } else { r with did := did }

/-- The first failing stage's code (04 R112). -/
def runCode (c : W16) (r : Run) : Run := if r.code = 0 then { r with code := c } else r

/-- The stage failed: its code, and no later stage runs. -/
def runFail (c : W16) (r : Run) : Run := { runCode c r with halted := true }

/-- INPUT_LOST or OUTPUT_LOST (17 R424): no counts, no deferred effects. -/
def runLost (c : W16) (r : Run) : Run :=
  { r with code := if r.code = 0 then c else r.code, halted := true, eff := [], recsIn := 0, recsOut := 0, replaced := 0,
           dropped := 0, lines := 0 }

/-- A read or write code of an engine as the descriptor's end: lost memory ends it as R424 says, anything else with `c`. -/
def runAccess (lost c : W16) (r : Run) : Run := if c = cDataLost then runLost lost r else runFail c r

/-- The same for areas other than the descriptor's: a poisoned one among them is kept for the record of R464. -/
def runReads (s : State) (areas : List (Nat × Nat)) (lost c : W16) (r : Run) : Run :=
  let x := runAccess lost c r
  if c = cPoisoned then { x with met := areas.find? (fun p => anyPoison s p.1 p.2) } else x

/-- What R424 finds before a descriptor executes: lost input or parameters, else a lost output range. -/
def startLost (s : State) (d : Descriptor) : W16 :=
  if anyLost s (localOf d.inAddr) d.inLen.toNat then cInputLost
  else if d.paramLen ≠ 0 && anyLost s (localOf d.paramAddr) d.paramLen.toNat then cInputLost
  else if anyLost s (localOf d.outAddr) d.outLen.toNat then cOutputLost
  else cOk

/-- A stage that failed with DATA_POISONED met poison in an area that it read: it is counted and recorded (19 R457, R464;
notes/assumptions/22.md). A refused write of part of a codeword is no read and is not counted. -/
def notePoison (x : Ctx) (s : State) : State :=
  if x.run.code = 0 && decide ((runGet s x.num).code = cPoisoned) then
    let d := x.j.d
    let h := BitVec.ofNat 32 (x.ch.gen.toNat * 65536 + x.chan)
    let rs := match (runGet s x.num).met with
      | some r => [r]
      | none => [(localOf d.inAddr, d.inLen.toNat), (localOf d.paramAddr, d.paramLen.toNat)]
    match rs.find? (fun r => anyPoison s r.1 r.2) with
    | some r => poisonedRead r.1 r.2 h s
    | none => s
  else s

/-- A unit of kind `kind` serves descriptor `seq` of channel `chan`: nothing happens unless its stage is due and has that kind
of work left; lost memory is looked for first. -/
def unitRun (kind chan seq : Nat) (f : Ctx → State → State) (s : State) : State :=
  match ctxOf s chan seq with
  | none => s
  | some x =>
    if !(stageKinds x.rs).contains kind || nmem x.run.did kind then s
    else
      let lost := if x.entry && x.run.did = [] then startLost s x.j.d else cOk
      if lost ≠ cOk then runPut x.num (runLost lost x.run) s else notePoison x (f x s)

/-- The bytes of parameter section `sec` of the descriptor, `n` bytes. -/
def paramSection (s : State) (x : Ctx) (sec n : Nat) : List Byte :=
  match sectionOffset x.p x.c x.inl.num sec with
  | some o => readMem s (localOf x.j.d.paramAddr + o) n
  | none => zeros n

/-- Region `n` of the plate with an offset: the local address an ENGINE record names. -/
def areaAddr (x : Ctx) (region off : Nat) : Option Nat := (regionNum x.p x.c region).map (fun g => g.base + off)

/-- The counters of a stage's reef. -/
def bumpReef (x : Ctx) (c n : Nat) (s : State) : State := if n = 0 then s else bump (reefCnt x.reef c) n s

/-- The input bytes of a stage that reads the descriptor's input: a Graver stage's output where one has run, else memory. -/
def stageInput (s : State) (x : Ctx) : List Byte :=
  match x.run.bytes with
  | some b => b
  | none => readMem s (localOf x.j.d.inAddr) x.j.d.inLen.toNat

/-- The code of reading the input, where the stage reads memory. -/
def inputCode (s : State) (x : Ctx) : W16 :=
  match x.run.bytes with
  | some _ => cOk
  | none => engRead s x.p x.c x.st (localOf x.j.d.inAddr) x.j.d.inLen.toNat

/-- An engine's read of an area that the plate gives it (lost and poisoned memory, 17 R424, 19 R457). -/
def areaCode (s : State) (a n : Nat) : W16 := if anyLost s a n then cDataLost else if anyPoison s a n then cPoisoned else cOk

/-- Records that later stages see: those without a reason (06 R167). -/
def sound (r : DRec) : Bool := decide (r.reason = 0)

/-- A record's entry in a stream. -/
def streamOf (r : DRec) (n : Nat) : Option SEnt := mlook r.streams n

/-- A record with an entry set. -/
def setStream (n : Nat) (b : SEnt) (r : DRec) : DRec := { r with streams := mput r.streams n b }

/-- A scalar entry of `w` bits in format `fmt`, as R167 writes it. -/
def scalarEnt (fmt w v : Nat) : SEnt := { shape := 0, fmt := fmt, w := w, data := elemOf fmt w v }

/-- The u32 length entry of a variable list or byte string. -/
def lengthEnt (n : Nat) : SEnt := { shape := 0, fmt := 1, w := 32, data := leBytes 4 n }

/-- Bytes placed in the output range from its start and the rest of the last 32-byte line zeroed; RESULT_LINES. -/
def placeOut (x : Ctx) (out : List Byte) (s : State) : State := writeMem (localOf x.j.d.outAddr) (padTo 32 out) s

end Sys2Proof.Machine
end

