-- ==== Sys2Proof/Machine/Stipple.lean ====
section
/-! DEFINITION. STIPPLE_AUGMENT: draws, operation entries and the eight augmentation operations (07). -/

namespace Sys2Proof.Machine

/-- The job seed of a descriptor (R183). -/
def jobSeed (s : State) (x : Ctx) : W64 := BitVec.ofNat 64 (leNat (paramSection s x 2 8))

/-- An operation entry (Table 7.3). -/
structure StipOp where
  kind : Nat
  stream : Nat
  id : Nat
  p0 : Nat
  p1 : Nat
  p2 : Nat
  p3 : Nat
  rsvd : Bool
  deriving DecidableEq, Repr

/-- The entry of 32 bytes; `rsvd` tells that its reserved bytes are zero. -/
def stipOpOf (b : List Byte) : StipOp :=
  { kind := u8At b 0, stream := u8At b 1, id := u16At b 2, p0 := u32At b 4, p1 := u32At b 8, p2 := u32At b 12, p3 := u32At b 16,
    rsvd := zeroAt b 20 12 }

/-- The fields keep Tables 7.3 and 7.4. -/
def stipOk (e : StipOp) : Bool :=
  let h := e.p0 % 65536
  let wd := e.p0 / 65536
  let r := e.p1 % 65536
  let c := e.p1 / 65536
  let g16 := decide (1 ≤ e.p0) && decide (e.p0 ≤ 65535)
  let none23 := decide (e.p2 = 0) && decide (e.p3 = 0)
  e.rsvd && decide (e.stream ≤ 62) && decide (e.id ≤ 0xDFFF) &&
  match e.kind with
  | 1 => g16 && decide (1 ≤ e.p1) && decide (e.p1 ≤ 65535) && none23
  | 2 => g16 && decide (e.p2 < 65536) && decide (e.p3 ≤ 1)
  | 3 => decide (1 ≤ h) && decide (1 ≤ wd) && decide (1 ≤ r) && decide (r ≤ h) && decide (1 ≤ c) && decide (c ≤ wd) && none23
  | 4 => decide (1 ≤ h) && decide (1 ≤ wd) && none23
  | 5 => decide (e.p0 = 0) && decide (e.p2 < 65536) && decide (e.p3 = 0)
  | 6 => g16 && decide (1 ≤ e.p1) && decide (e.p1 ≤ e.p2) && decide (e.p2 ≤ 256) && decide (e.p3 = 0)
  | 7 => decide (1 ≤ e.p0) && decide (e.p0 ≤ 256) && decide (1 ≤ e.p1) && decide (e.p1 ≤ 65535) && none23
  | 8 =>
    (match floatVal 10 e.p0 with
     | .fin neg n _ => !neg || decide (n = 0)
     | _ => false) && decide (e.p1 ≤ 1) && none23
  | _ => false

/-- The entry acts on an entry of a record (R185-R187). -/
def stipActs (e : StipOp) (t : SEnt) : Bool :=
  if e.kind = 8 then decide (t.shape ≠ 3) && (decide (t.fmt = 8) || decide (t.fmt = 9) || decide (t.fmt = 10))
  else decide (t.shape = 1) || (decide (t.shape = 2) && (decide (e.kind = 4) || decide (e.kind = 5) || (decide (e.kind = 2) && decide (e.p3 = 0))))

/-- The draws of an entry on a record: word j (R181). -/
abbrev Draws := Nat → W32

/-- An index below `n` (R186). -/
def drawIndex (u : W32) (n : Nat) : Nat := u.toNat * n / 2 ^ 32

/-- A fraction of a word (R186). -/
def drawFraction (u : W32) : Num := .fin false (2 * (u.toNat / 256) + 1) (2 ^ 25)

/-- Tokens per frame. -/
def StipOp.frame (e : StipOp) : Nat := if e.kind = 3 ∨ e.kind = 4 then (e.p0 % 65536) * (e.p0 / 65536) else e.p0

/-- An element's bytes in a list of elements. -/
abbrev Elem := List Byte

/-- The elements of an entry. -/
def elemsOf (t : SEnt) : List Elem := chunks (elemBytes t.w) t.data

/-- The mask token as an element of the stream. -/
def maskElem (e : StipOp) (t : SEnt) : Elem := elemOf t.fmt t.w (e.p2 % 65536)

/-- A list cut into frames of `g`. -/
def framesOf {α : Type} (g : Nat) (f : Nat) (l : List α) : List (List α) :=
  match f with
  | 0 => []
  | f + 1 => l.take g :: framesOf g f (l.drop g)

/-- An operation in frames on the whole frames of its elements (Table 7.4), and how many words it uses. -/
def stipFrames (e : StipOp) (t : SEnt) (u : Draws) (fs : List (List Elem)) : List (List Elem) × Nat :=
  let n := fs.length
  let wd := e.p0 / 65536
  match e.kind with
  | 1 =>
    let s := drawIndex (u 0) (n - e.p1 + 1)
    (if n ≤ e.p1 then fs else (fs.drop s).take e.p1, 1)
  | 2 =>
    let hit := fun (i : Nat) => decide ((u i).toNat < e.p1)
    (if e.p3 = 1 then (fs.zipIdx.filter (fun p => !hit p.2)).map (·.1)
     else fs.zipIdx.map (fun p => if hit p.2 then p.1.map (fun _ => maskElem e t) else p.1), n)
  | 3 =>
    let h := e.p1 % 65536
    let w := e.p1 / 65536
    let a := drawIndex (u 0) (e.p0 % 65536 - h + 1)
    let b := drawIndex (u 1) (wd - w + 1)
    (fs.map (fun f => (List.range h).flatMap (fun r => (f.drop ((a + r) * wd + b)).take w)), 2)
  | 4 =>
    (if (u 0).toNat < e.p1 then fs.map (fun f => (framesOf wd (e.p0 % 65536) f).flatMap List.reverse) else fs, 1)
  | _ =>
    let r := e.p1 + drawIndex (u 0) (e.p2 - e.p1 + 1)
    let phi := drawIndex (u 1) r
    ((fs.zipIdx.filter (fun p => decide (p.2 % r = phi))).map (·.1), 2)

/-- Numeric jitter of one element (KIND 0x08). -/
def stipJitter (e : StipOp) (t : SEnt) (u : Draws) (i : Nat) (b : Elem) : Elem :=
  let v := fmtVal t.fmt t.w (leNat b)
  let d := if e.p1 = 1 then (drawFraction (u (2 * i))).add (drawFraction (u (2 * i + 1))).neg
    else ((drawFraction (u i)).mul (.fin false 2 1)).add (.fin true 1 1)
  match v with
  | .nan => elemOf t.fmt t.w (canonNan t.fmt)
  | .inf _ => b
  | _ => elemOf t.fmt t.w (toFloat t.fmt .rne false (v.add ((floatVal 10 e.p0).mul d)))

/-- An entry's result on a stream, and how many words it uses (R186, R187). -/
def stipApply (e : StipOp) (t : SEnt) (u : Draws) : List Elem × Nat :=
  let xs := elemsOf t
  match e.kind with
  | 5 => (xs.zipIdx.map (fun p => if (u p.2).toNat < e.p1 then maskElem e t else p.1), xs.length)
  | 7 => (if xs.length < e.p0 * e.p1 then xs else (xs.drop (drawIndex (u 0) e.p0 * e.p1)).take e.p1, 1)
  | 8 => (xs.zipIdx.map (fun p => stipJitter e t u p.2 p.1), if e.p1 = 1 then 2 * xs.length else xs.length)
  | _ =>
    let n := xs.length / e.frame
    let (fs, k) := stipFrames e t u (framesOf e.frame n xs)
    let tail := if t.shape = 1 then [] else xs.drop (n * e.frame)
    (fs.flatten ++ tail, k)

/-- What a record's entries add to the counters. -/
structure StipCnt where
  blocks : Nat
  idle : Nat
  wraps : Nat
  deriving DecidableEq, Repr

/-- One entry on one record. -/
def stipEntry (seed : W64) (disable i : Nat) (e : StipOp) (a : DRec × StipCnt) : DRec × StipCnt :=
  let (r, c) := a
  if bit disable i then a
  else
    match streamOf r e.stream with
    | none => (r, { c with idle := c.idle + 1 })
    | some t =>
      if !(stipOk e && stipActs e t) then (r, { c with idle := c.idle + 1 })
      else
        let (xs, k) := stipApply e t (drawWord seed (BitVec.ofNat 64 r.idx) e.id)
        let data := xs.flatten
        let r1 := setStream e.stream { t with data := data } r
        (if t.shape = 1 then setStream (e.stream + 1) (lengthEnt data.length) r1 else r1,
         { c with blocks := c.blocks + min (ceilDiv k 4) 65536, wraps := c.wraps + (if 2 ^ 18 < k then 1 else 0) })

/-- Every entry of a stage on one record, in entry order. -/
def stipRecord (seed : W64) (disable : Nat) (es : List (Nat × StipOp)) (r : DRec) (c : StipCnt) : DRec × StipCnt :=
  es.foldl (fun a e => stipEntry seed disable e.1 e.2 a) (r, c)

/-- Every sound record of a stage; corrupt records and empty positions pass (R184). -/
def stipRecords (seed : W64) (disable : Nat) (es : List (Nat × StipOp)) : List DRec → StipCnt → List DRec × StipCnt
  | [], c => ([], c)
  | r :: t, c =>
    let (r1, c1) := if sound r then stipRecord seed disable es r c else (r, c)
    let (t1, c2) := stipRecords seed disable es t c1
    (r1 :: t1, c2)

/-- The Stipple stage of a descriptor. -/
def stippleStage (x : Ctx) (s : State) : State :=
  let sec := paramSection s x 2 16
  let es := (recKinds x.rs 5).map (fun r => (r.index, stipOpOf r.body))
  let (rs, c) := stipRecords (jobSeed s x) (u16At sec 8) es x.run.recs { blocks := 0, idle := 0, wraps := 0 }
  bumpReef x 21 c.blocks (bumpReef x 23 (x.run.recs.filter sound).length (bumpReef x 24 c.idle (bumpReef x 25 c.wraps
    (runPut x.num (stageDid x 5 { x.run with recs := rs }) s))))

/-- STIPPLE_AUGMENT. -/
def execStippleAugment (r : RunRef) (s : State) : Host.Outcome State Fault Refusal :=
  .next (unitRun 5 r.chan.toNat r.seq.toNat stippleStage s)

end Sys2Proof.Machine
end

