-- ==== Sys2Proof/Machine/Array.lean ====
section
/-! DEFINITION. The cell array at work: a term at a WXA, a step of a record cell, a dot step of a dot row (03 R78-R87). -/

namespace Sys2Proof.Machine

/-- The value of a term (R82, R87). -/
def termVal : Term → Num
  | .cell f w b => fmtVal f.toNat (w.toNat) (b.toNat % 2 ^ w.toNat)
  | .dot n e => if e < 0 then .fin (decide (n < 0)) n.natAbs (2 ^ e.natAbs) else .fin (decide (n < 0)) (n.natAbs * 2 ^ e.natAbs) 1

/-- The term comes from a dot row. -/
def termDot : Term → Bool
  | .cell .. => false
  | .dot .. => true

/-- A term of an arithmetic format (R82); a dot-row term is one. -/
def termOk : Term → Bool
  | .cell f w _ => decide (1 ≤ f.toNat) && decide (f.toNat ≤ 11) && decide (1 ≤ w.toNat) && decide (w.toNat ≤ 64)
  | .dot .. => true

/-- WXA_TERM (R87, R88). -/
def execWxaTerm (reef : BitVec 7) (row : BitVec 4) (t : Term) (s : State) : Host.Outcome State Fault Refusal :=
  let k := wxaNum reef.toNat row.toNat
  .next (if termOk t && !islLost s (reef.toNat / 8) then wxaPut k (wxaEnter (termDot t) (termVal t) (wxaGet s k)) s else s)

/-- The cells of a reef's running sheet work: its island stands and does not switch. -/
def cellsRun (s : State) (reef : Nat) : Bool := !islLost s (reef / 8) && !(mget ⟨0, false, false, false, 0⟩ s.isl (reef / 8)).switching

/-- A record cell's own state. -/
def RCell.init : RCell := { prev := 0, srCount := 0, run := 0, sample := 0 }

/-- The word last sent by a cell in a direction: 0 north, 1 east, 2 south, 3 west. -/
def linkWord (s : State) (cell dir : Nat) : W64 := mget 0 s.cellLinks (4 * cell + dir)

/-- The neighbour of a place in the array in a direction; none beyond the edge. -/
def neighbourOf (row col dir : Nat) : Option (Nat × Nat) :=
  match dir with
  | 0 => if row = 0 then none else some (row - 1, col)
  | 1 => if col = 15 then none else some (row, col + 1)
  | 2 => if row = 15 then none else some (row + 1, col)
  | _ => if col = 0 then none else some (row, col - 1)

/-- The operand of a source code of Table 2.6: a neighbour's last word toward the cell, a lagoon stream's, IMM, the row's WXA,
the engine port's word, the previous result. -/
def operand (s : State) (reef row col : Nat) (imm lag0 lag1 port : W64) (src : Nat) : W64 :=
  let from_ := fun (dir back : Nat) =>
    match neighbourOf row col dir with
    | some p => linkWord s (cellNum reef p.1 p.2) back
    | none => 0
  match src with
  | 1 => from_ 0 2
  | 2 => from_ 1 3
  | 3 => from_ 2 0
  | 4 => from_ 3 1
  | 5 => lag0
  | 6 => lag1
  | 7 => imm
  | 8 => wxaWord (wxaGet s (wxaNum reef row))
  | 9 => port
  | 10 => (mget RCell.init s.rcells (cellNum reef row col)).prev
  | _ => 0

/-- A word sent to the neighbours of OUT_MASK. -/
def sendLinks (reef row col mask : Nat) (v : W64) (s : State) : State :=
  (List.range 4).foldl (fun s d =>
    if bit mask d && (neighbourOf row col d).isSome then
      { s with cellLinks := mset 0 s.cellLinks (4 * cellNum reef row col + d) v }
    else s) s

/-- Where a record cell's result goes: column 15 with east set delivers a term and to no cell (R82). -/
def cellResult (reef row col cfg : Nat) (v : W64) (s : State) : State :=
  let mask := cfgBits cfg 47 44
  let k := wxaNum reef row
  let w := cfgBits cfg 27 22 + 1
  let s1 :=
    if col = 15 && bit mask 1 then wxaPut k (wxaEnter false (fmtVal (cfgBits cfg 31 28) w (v.toNat % 2 ^ w)) (wxaGet s k)) s
    else sendLinks reef row col mask v s
  if cfgBits cfg 48 48 = 1 then emit (.cell (cellNum reef row col) v) s1 else s1

/-- The record in flight is dropped from the stage (Table 3.5, predicate). -/
def dropRecord (x : Ctx) (sample : Nat) (s : State) : State :=
  let r := runGet s x.num
  if r.recs.any (fun d => decide (d.idx = sample)) then
    runPut x.num { r with recs := r.recs.filter (fun d => decide (d.idx ≠ sample)), dropped := r.dropped + 1 } s
  else s

/-- One step of the record cell of a place, on the record in flight. -/
def recordStep (x : Ctx) (sample : W64) (reef row col : Nat) (lag0 lag1 port : W64) (s : State) : State :=
  let cfg := cellCfg s reef row col
  let n := cellNum reef row col
  let op := operand s reef row col (BitVec.ofNat 64 (cfgBits cfg 127 64)) lag0 lag1 port
  let c0 := mget RCell.init s.rcells n
  let c := if c0.run = x.num ∧ c0.sample = sample then c0 else { c0 with srCount := 0, run := x.num, sample := sample }
  let srcP := cfgBits cfg 43 40
  let pred := decide (srcP = 0) || ((op srcP).getLsbD 0 != decide (cfgBits cfg 49 49 = 1))
  let u := drawWord (jobSeed s x) sample (0xF000 + cfgBits cfg 127 64 % 4096) (c.srCount % 2 ^ 18)
  let r := recordCell cfg (op (cfgBits cfg 35 32)) (op (cfgBits cfg 39 36)) pred u
    ((wiringOf s reef).drop (131072 + 512 * cfgBits cfg 159 144))
  let s1 := { s with rcells := mset RCell.init s.rcells n { c with prev := r.res, srCount := c.srCount + r.drew.toNat } }
  cellResult reef row col cfg r.res (if r.drop then dropRecord x sample.toNat s1 else s1)

/-- RECORD_CELL_STEP: `lag0`, `lag1` and `port` are the words that the cell's lagoon streams and engine port hold out. An idle cell
passes nothing. -/
def execRecordCellStep (r : RunRef) (sample : W64) (reef : BitVec 7) (row col : BitVec 4) (lag0 lag1 port : W64) (s : State) :
    Host.Outcome State Fault Refusal :=
  let cfg := cellCfg s reef.toNat row.toNat col.toNat
  .next (match ctxOf s r.chan.toNat r.seq.toNat with
    | none => s
    | some x =>
      if decide (11 < row.toNat) || decide (cfgBits cfg 7 0 = 0) || !cellsRun s reef.toNat then s
      else recordStep x sample reef.toNat row.toNat col.toNat lag0 lag1 port s)

/-! ## The dot step (R83-R85) -/

/-- The two weight lines of a dot cell's step. A weight area of no lines gives unstated bytes. -/
def dotWeights (s : State) (reef col cfg line : Nat) : List Byte :=
  let lines := cfgBits cfg 119 96
  if lines = 0 then digestBytes (Config.free256 (s.free + 2 * col)) ++ digestBytes (Config.free256 (s.free + 2 * col + 1))
  else
    let at_ := fun (k : Nat) => readMem s (shareKey reef (cfgBits cfg 95 64 + 32 * (k % lines))) 32
    at_ line ++ at_ (line + 1)

/-- A weight line of the step is poisoned. -/
def dotPoison (s : State) (reef cfg line : Nat) : Option Nat :=
  let lines := cfgBits cfg 119 96
  if lines = 0 then none
  else
    ([line, line + 1].map (fun k => shareKey reef (cfgBits cfg 95 64 + 32 * (k % lines)))).find? (fun a => anyPoison s a 32)

/-- A dot row's step so far: the state, the exact sum for the row's WXA, and whether a cell gave one. -/
structure DotAcc where
  s : State
  sum : Num
  any : Bool

/-- One dot cell's step: its step sum goes to the row's WXA or its accumulator, which is emitted when the output is complete. -/
def dotCell (x : Ctx) (reef row : Nat) (acts : List (List Byte)) (a : DotAcc) (col : Nat) : DotAcc :=
  let s := a.s
  let cfg := cellCfg s reef row col
  let n := cellNum reef row col
  let c := mget DCell.init s.dcells n
  if cfgBits cfg 7 0 = 0 then a
  else
    match dotPoison s reef cfg c.line with
    | some l =>
      let s1 := poisonedRead l 32 (BitVec.ofNat 32 (x.ch.gen.toNat * 65536 + x.chan)) s
      { a with s := runPut x.num (runFail cPoisoned (runGet s1 x.num)) s1 }
    | none =>
      let sum := stepSum (cfgBits cfg 11 8) (acts.getD col []) (dotWeights s reef col cfg c.line)
      let next := if cfgBits cfg 119 96 = 0 then 0 else (c.line + 2) % cfgBits cfg 119 96
      let put := fun (d : DCell) (s : State) => { s with dcells := mset DCell.init s.dcells n { d with line := next } }
      if cfgBits cfg 7 0 = 0x21 then { s := put c s, sum := a.sum.add sum, any := true }
      else
        let (d, out) := dotAccumulate cfg c sum
        match out with
        | none => { a with s := put d s }
        | some v =>
          let w : W64 := v.setWidth 64
          { a with s := emit (.cell n w) (sendLinks reef row col (cfgBits cfg 27 24) w (put d s)) }

/-- A dot step of a row: each cell with its 64-byte activation operand, and one term of the row's OP 0x21 cells (R87). -/
def dotRow (x : Ctx) (reef row : Nat) (acts : List (List Byte)) (s : State) : State :=
  let a := (List.range 16).foldl (dotCell x reef row acts) { s := s, sum := .fin true 0 1, any := false }
  let k := wxaNum reef row
  if a.any then wxaPut k (wxaEnter true a.sum (wxaGet a.s k)) a.s else a.s

/-- DOT_STEP. -/
def execDotStep (r : RunRef) (reef : BitVec 7) (row : BitVec 4) (acts : List (List Byte)) (s : State) :
    Host.Outcome State Fault Refusal :=
  .next (match ctxOf s r.chan.toNat r.seq.toNat with
    | none => s
    | some x =>
      if decide (row.toNat < 12) || !cellsRun s reef.toNat then s
      else
        let t := dotRow x reef.toNat row.toNat acts s
        { t with free := t.free + 32 })

end Sys2Proof.Machine
end

