-- ==== Sys2Proof/Machine/Asu.lean ====
section
/-! DEFINITION. The ASU commands, their results, refresh, scrub and throttling (10 R236-R259). -/

namespace Sys2Proof.Machine

/-! ## Entries (R237-R239) -/

/-- The entry at a position. -/
def asuGet (s : State) (g : Nat) : AsuEntry := mget AsuEntry.free s.asu g

/-- An entry image (Table 10.2). -/
def asuImage (e : AsuEntry) : List Byte :=
  leBytes 16 e.key.toNat ++ leBytes 16 e.mask.toNat ++ leBytes 4 e.data.toNat ++ leBytes 4 e.valid.toNat ++ zeros 24

/-- Local address of the copy of position `g` (R238). -/
def asuCopyAddr (t : AsuTab) (g : Nat) : Nat :=
  if t.ternary then t.copy % 2 ^ 52 + 64 * (g - t.first) else shareKey (g / 65536) (t.copy + 32 * (g % 65536))

/-- Bytes of a copy. -/
def asuCopyBytes (t : AsuTab) : Nat := if t.ternary then 64 else 32

/-- The copy of an entry. -/
def asuCopy (t : AsuTab) (e : AsuEntry) : List Byte :=
  let b := asuImage e
  if t.ternary then b else b.take 16 ++ (b.drop 32).take 16

/-- The entry that a copy holds. -/
def asuFromCopy (t : AsuTab) (b : List Byte) : AsuEntry :=
  if t.ternary then
    { key := BitVec.ofNat 128 (fieldAt 16 b 0), mask := BitVec.ofNat 128 (fieldAt 16 b 16), data := BitVec.ofNat 32 (u32At b 32),
      valid := bit (u32At b 36) 0, lost := false }
  else
    { key := BitVec.ofNat 128 (fieldAt 16 b 0), mask := BitVec.allOnes 128, data := BitVec.ofNat 32 (u32At b 16),
      valid := bit (u32At b 20) 0, lost := false }

/-- An entry and its copy written at a position. -/
def asuPut (t : AsuTab) (g : Nat) (e : AsuEntry) (s : State) : State :=
  writeMem (asuCopyAddr t g) (asuCopy t e) { s with asu := mset AsuEntry.free s.asu g e }

/-- The copy of a position cannot be read (R257). -/
def asuCopyBad (s : State) (t : AsuTab) (g : Nat) : Bool :=
  anyLost s (asuCopyAddr t g) (asuCopyBytes t) || anyPoison s (asuCopyAddr t g) (asuCopyBytes t)

/-- An entry marked lost. -/
def asuLose (g : Nat) (s : State) : State :=
  if (asuGet s g).lost then s
  else bump (reefCnt (g / 65536) 52) 1 { s with asu := mset AsuEntry.free s.asu g { asuGet s g with lost := true } }

/-! ## Sides and generations (R244, R246) -/

/-- The active side of a partition. -/
def asuActive (s : State) (t : AsuTab) (q : Nat) : Nat := (nmem s.asuSide (128 * t.num + q)).toNat

/-- The layout generation of a side of a partition. -/
def asuGenOf (s : State) (t : AsuTab) (q sd : Nat) : Nat := mget 0 s.asuGen (2 * (128 * t.num + q) + sd)

/-- A layout generation advanced. -/
def asuBumpGen (t : AsuTab) (q sd : Nat) (s : State) : State :=
  { s with asuGen := mset 0 s.asuGen (2 * (128 * t.num + q) + sd) ((asuGenOf s t q sd + 1) % 65536) }

/-- A partition's active side set. -/
def asuSetSide (t : AsuTab) (q sd : Nat) (s : State) : State :=
  { s with asuSide := mset false s.asuSide (128 * t.num + q) (decide (sd = 1)) }

/-! ## Searching (R240, R241, R254, R255, R257) -/

/-- An entry matches a key. -/
def asuHits (e : AsuEntry) (key : BitVec 128) : Bool := e.valid && decide ((key ^^^ e.key) &&& e.mask = 0)

/-- Offsets of the matches within a partition and side, lowest first. Banks of lost islands answer nothing. -/
def asuMatches (s : State) (t : AsuTab) (q sd : Nat) (key : BitVec 128) (above : Option Nat) : List Nat :=
  let b := t.pos sd q 0
  (s.asu.filter (fun p => b ≤ p.1 && p.1 < b + t.size && asuHits p.2 key && !islLost s (p.1 / 524288)
    && (match above with | none => true | some o => decide (b + o < p.1)))).map (fun p => p.1 - b)

/-- What a search finds: the offset reported, whether a lost entry was reached, false hits discarded. -/
structure AsuFound where
  hit : Option Nat
  more : Bool
  lost : Bool
  discarded : Bool
  deriving DecidableEq, Repr

/-- The matches taken in priority order, each exact one verified against its copy (R254, R255). -/
def asuTake (t : AsuTab) (q sd : Nat) (key : BitVec 128) : List Nat → Bool → State → AsuFound × State
  | [], disc, s => ({ hit := none, more := false, lost := false, discarded := disc }, s)
  | o :: os, disc, s =>
    let g := t.pos sd q o
    if (asuGet s g).lost then ({ hit := none, more := false, lost := true, discarded := disc }, s)
    else if t.ternary then ({ hit := some o, more := decide (os ≠ []), lost := false, discarded := disc }, s)
    else if asuCopyBad s t g then ({ hit := none, more := false, lost := true, discarded := disc }, asuLose g s)
    else
      let c := asuFromCopy t (readMem s (asuCopyAddr t g) 32)
      if c.key = key then ({ hit := some o, more := decide (os ≠ []), lost := false, discarded := disc }, s)
      else asuTake t q sd key os true (bump (reefCnt (g / 65536) 49) 1 (asuPut t g c s))

/-! ## Commands (R242-R250) -/

/-- A result of Table 10.4. -/
structure AsuRes where
  status : W16
  flags : Nat := 0
  data : Nat := 0
  off : Nat := 0
  part : Nat := 0
  cursor : Nat := 0
  key : Nat := 0
  mask : Nat := 0
  deriving DecidableEq, Repr

/-- The 64 bytes of a result. -/
def AsuRes.bytes (r : AsuRes) : List Byte :=
  leBytes 2 r.status.toNat ++ leBytes 2 r.flags ++ leBytes 4 r.data ++ leBytes 4 r.off ++ leBytes 2 r.part ++ zeros 2
    ++ leBytes 8 r.cursor ++ zeros 8 ++ leBytes 16 r.key ++ leBytes 16 r.mask

/-- The command of 64 bytes: its OP and the rest (Table 10.3). -/
def asuCmdOf (b : List Byte) : Nat × AsuCmd :=
  (u8At b 0, { table := BitVec.ofNat 8 (u8At b 1), flags := BitVec.ofNat 16 (u16At b 2), partition := BitVec.ofNat 16 (u16At b 4),
               rsvd0 := BitVec.ofNat 16 (u16At b 6), offset := BitVec.ofNat 32 (u32At b 8), data := BitVec.ofNat 32 (u32At b 12),
               key := BitVec.ofNat 128 (fieldAt 16 b 16), mask := BitVec.ofNat 128 (fieldAt 16 b 32),
               cursor := BitVec.ofNat 64 (u64At b 48), rsvd1 := BitVec.ofNat 64 (u64At b 56) })

/-- The partition that a command names or its key selects (R237). -/
def asuPart (t : AsuTab) (c : AsuCmd) : Nat :=
  if t.sel = 2 then c.partition.toNat
  else if t.partLog = 0 then 0
  else if t.sel = 0 then (akh64 (leBytes 16 c.key.toNat) t.seed).toNat * t.parts / 2 ^ 64
  else c.key.toNat / 2 ^ (128 - t.partLog)

/-- The side a command uses (R244). -/
def asuSideOf (s : State) (t : AsuTab) (c : AsuCmd) (q : Nat) : Nat :=
  if c.flags.getLsbD 0 then (c.flags.getLsbD 1).toNat else asuActive s t q

/-- PARTITION as Table 10.3 gives it. -/
def asuPartOk (t : AsuTab) (c : AsuCmd) : Bool :=
  if t.sel = 2 then decide (c.partition.toNat < t.parts) else decide (c.partition = 0)

/-- The command's other fields keep R243 and Table 10.3. -/
def asuCmdOk (t : AsuTab) (op : Nat) (c : AsuCmd) : Bool :=
  let offs := op = 3 || op = 4 || op = 5 || op = 6
  let put := op = 4 || op = 6
  decide (1 ≤ op) && decide (op ≤ 7) && decide (c.flags.toNat < 4) && decide (c.rsvd0 = 0) && decide (c.rsvd1 = 0)
    && !(c.flags.getLsbD 0 && c.flags.getLsbD 1 && t.sides = 1)
    && (if offs then decide (c.offset.toNat < t.size) else decide (c.offset = 0))
    && (put || decide (c.data = 0)) && ((put && t.ternary) || decide (c.mask = 0)) && (op = 2 || decide (c.cursor = 0))
    && !(op = 7 && t.sides = 1)

/-- A WRITE or INSERT whose key does not select its partition (R243). -/
def asuMismatch (t : AsuTab) (op : Nat) (c : AsuCmd) : Bool :=
  (op = 4 || op = 6) && ((t.sel ≠ 2 && c.partition ≠ 0 && c.partition.toNat ≠ asuPart t c)
    || (t.ternary && t.sel = 1 && c.mask.toNat / 2 ^ (128 - t.partLog) ≠ t.parts - 1))

/-- A cursor (R246). -/
def asuCursor (t : AsuTab) (q sd gen o : Nat) : Nat := o + 2 ^ 23 * sd + 2 ^ 24 * t.num + 2 ^ 30 * q + 2 ^ 37 * gen

/-- The entry that a WRITE or INSERT stores. -/
def asuNew (t : AsuTab) (c : AsuCmd) : AsuEntry :=
  let m := if t.ternary then c.mask else BitVec.allOnes 128
  { key := c.key &&& m, mask := m, data := c.data, valid := true, lost := false }

/-- SEARCH and NEXT (R245). -/
def asuFind (t : AsuTab) (q sd : Nat) (key : BitVec 128) (above : Option Nat) (s : State) : AsuRes × State :=
  let bank := t.pos sd q 0 / 65536
  let ms := asuMatches s t q sd key above
  let (f, s1) := asuTake t q sd key ms false (bump (reefCnt bank 42) 1 s)
  let disc := 4 * f.discarded.toNat
  match f.hit with
  | none => ({ status := if f.lost then 0x7006 else 0, flags := disc, part := q }, s1)
  | some o =>
    let s2 := bump (reefCnt bank 43) 1 (if f.more then bump (reefCnt bank 44) 1 s1 else s1)
    ({ status := 0, flags := 1 + 2 * f.more.toNat + disc, data := (asuGet s1 (t.pos sd q o)).data.toNat, off := o, part := q,
       cursor := asuCursor t q sd (asuGenOf s1 t q sd) o }, s2)

/-- NEXT's cursor is one of its own command's; its generation is current (R246). -/
def asuNext (t : AsuTab) (q sd : Nat) (c : AsuCmd) (s : State) : AsuRes × State :=
  let k := c.cursor.toNat
  if k / 2 ^ 53 ≠ 0 ∨ k / 2 ^ 23 % 2 ≠ sd ∨ k / 2 ^ 24 % 64 ≠ t.num ∨ k / 2 ^ 30 % 128 ≠ q then ({ status := 0x7001 }, s)
  else if k / 2 ^ 37 % 65536 ≠ asuGenOf s t q sd then
    ({ status := 0x7003, part := q }, bump (reefCnt (t.pos sd q 0 / 65536) 47) 1 s)
  else asuFind t q sd c.key (some (k % 2 ^ 23)) s

/-- READ (R247). -/
def asuRead (t : AsuTab) (q sd : Nat) (c : AsuCmd) (s : State) : AsuRes × State :=
  let o := c.offset.toNat
  let e := asuGet s (t.pos sd q o)
  ({ status := 0, flags := e.valid.toNat, data := if e.valid then e.data.toNat else 0, off := o, part := q, key := e.key.toNat,
     mask := e.mask.toNat },
   if e.valid then bump (reefCnt (t.pos sd q 0 / 65536) 43) 1 s else s)

/-- WRITE (R247). -/
def asuWrite (t : AsuTab) (q sd : Nat) (c : AsuCmd) (s : State) : AsuRes × State :=
  let o := c.offset.toNat
  ({ status := 0, off := o, part := q },
   bump (reefCnt (t.pos sd q 0 / 65536) 45) 1 (asuPut t (t.pos sd q o) (asuNew t c) s))

/-- DELETE (R247). -/
def asuDelete (t : AsuTab) (q sd : Nat) (c : AsuCmd) (s : State) : AsuRes × State :=
  let o := c.offset.toNat
  let g := t.pos sd q o
  let e := asuGet s g
  ({ status := 0, off := o, part := q },
   bump (reefCnt (t.pos sd q 0 / 65536) 45) 1
     (if e.valid || e.lost then asuPut t g { e with valid := false, lost := false } s else s))

/-- The free position at or above `p`, and the one below it, that are nearest. -/
def asuHoles (s : State) (t : AsuTab) (q sd p : Nat) : Option Nat × Option Nat :=
  let free := fun (o : Nat) => !(asuGet s (t.pos sd q o)).valid
  (((List.range (t.size - p)).find? (fun i => free (p + i))).map (p + ·),
   ((List.range p).find? (fun i => free (p - 1 - i))).map (p - 1 - ·))

/-- Entries moved one up from `p` to below `h`, highest first. -/
def asuMoveUp (t : AsuTab) (q sd p : Nat) : Nat → State → State
  | 0, s => s
  | n + 1, s => asuMoveUp t q sd p n (asuPut t (t.pos sd q (p + n + 1)) (asuGet s (t.pos sd q (p + n))) s)

/-- `n` entries above `h` moved one down, lowest first. -/
def asuMoveDown (t : AsuTab) (q sd h : Nat) : Nat → State → State
  | 0, s => s
  | n + 1, s => asuMoveDown t q sd (h + 1) n (asuPut t (t.pos sd q h) (asuGet s (t.pos sd q (h + 1))) s)

/-- INSERT (R248). -/
def asuInsert (t : AsuTab) (q sd : Nat) (c : AsuCmd) (s : State) : AsuRes × State :=
  let p := c.offset.toNat
  let limit := max 64 (4 * t.hole)
  let bank := t.pos sd q 0 / 65536
  let (up, down) := asuHoles s t q sd p
  let place := fun (o n : Nat) (s1 : State) =>
    let s2 := asuPut t (t.pos sd q o) (asuNew t c) s1
    let s3 := if n = 0 then s2 else bump (reefCnt bank 46) n (asuBumpGen t q sd s2)
    (({ status := 0, off := o, part := q } : AsuRes), bump (reefCnt bank 45) 1 s3)
  let above := fun (h : Nat) =>
    if limit < h - p then ({ status := 0x7004, part := q }, s) else place p (h - p) (asuMoveUp t q sd p (h - p) s)
  let below := fun (h : Nat) =>
    if limit < p - 1 - h then ({ status := 0x7004, part := q }, s) else place (p - 1) (p - 1 - h) (asuMoveDown t q sd h (p - 1 - h) s)
  match up, down with
  | none, none => ({ status := 0x7005, part := q }, s)
  | some h, none => above h
  | none, some h => below h
  | some h, some k => if h - p ≤ p - 1 - k then above h else below k

/-- The offsets that a rebuild or build fills, from 0 upward (R250). -/
def asuSlots (t : AsuTab) : List Nat :=
  (List.range t.size).filter (fun o => decide (t.hole = 0) || decide (o % t.hole ≠ t.hole - 1))

/-- A side of a partition written with entries at the filled offsets, every other offset free. -/
def asuFill (t : AsuTab) (q sd : Nat) (es : List AsuEntry) (s : State) : State :=
  let slots := (asuSlots t).zip es
  (List.range t.size).foldl (fun s o =>
    let e := ((slots.find? (fun p => p.1 = o)).map (·.2)).getD AsuEntry.free
    if e = AsuEntry.free && asuGet s (t.pos sd q o) = AsuEntry.free then s else asuPut t (t.pos sd q o) e s) s

/-- REBUILD (R250). No search or descriptor holds a side between commands of the model, so none waits. -/
def asuRebuild (t : AsuTab) (q : Nat) (s : State) : AsuRes × State :=
  let sd := asuActive s t q
  let b := t.pos sd q 0
  let es := ((s.asu.filter (fun p => b ≤ p.1 && p.1 < b + t.size && p.2.valid)).map (fun p => { p.2 with lost := false }))
  if (asuSlots t).length < es.length then ({ status := 0x7005, part := q }, s)
  else
    ({ status := 0, part := q },
     asuBumpGen t q 0 (asuBumpGen t q 1 (asuSetSide t q (1 - sd) (asuFill t q (1 - sd) es s))))

/-- An ASU command, whole: its result and what it does. -/
def asuRun (op : Nat) (c : AsuCmd) (s : State) : AsuRes × State :=
  match asuTab? s c.table.toNat with
  | none => ({ status := 0x7001 }, s)
  | some t =>
    if !asuCmdOk t op c then ({ status := 0x7001 }, s)
    else if asuMismatch t op c then ({ status := 0x7002 }, s)
    else if !asuPartOk t c then ({ status := 0x7001 }, s)
    else
      let q := asuPart t c
      let sd := asuSideOf s t c q
      match op with
      | 1 => asuFind t q sd c.key none s
      | 2 => asuNext t q sd c s
      | 3 => asuRead t q sd c s
      | 4 => asuWrite t q sd c s
      | 5 => asuDelete t q sd c s
      | 6 => asuInsert t q sd c s
      | _ => asuRebuild t q s

/-! ## Throttling (R258, R259) -/

/-- The first position of a search's partition and side, where some bank of it is on an island at the Held level. -/
def asuHeldAt (s : State) (op : Nat) (c : AsuCmd) : Option Nat :=
  match asuTab? s c.table.toNat with
  | none => none
  | some t =>
    let q := asuPart t c
    let b := t.pos (asuSideOf s t c q) q 0
    if (op = 1 || op = 2) && asuCmdOk t op c && asuPartOk t c
        && (List.range 16).any (fun i => decide (mget 0 s.asuLevel i = 3) && decide (b < 524288 * (i + 1)) && decide (524288 * i < b + t.size))
    then some b else none

/-- A search that the Held level holds (R258). -/
def asuIsHeld (s : State) (op : Nat) (c : AsuCmd) : Bool := (asuHeldAt s op c).isSome

/-- A result handed over: to the lagoon address of a sequencer's ASU_ISSUE, or to the bank's caller. -/
def asuDeliver (dest : Option Nat) (r : AsuRes) (s : State) : State :=
  match dest with
  | some a => writeMem a r.bytes s
  | none => emit (.asu r.bytes) s

/-- A command that reaches the bank of global reef `reef`: a search at the Held level queues (R259). -/
def asuStart (reef op : Nat) (c : AsuCmd) (dest : Option Nat) (s : State) : State :=
  match asuHeldAt s op c with
  | some b => bump (reefCnt (b / 65536) 54) 1 { s with asuHeld := s.asuHeld ++ [{ reef := reef, op := op, cmd := c, dest := dest }] }
  | none =>
    let (r, s1) := asuRun op c s
    asuDeliver dest r s1

/-- Held searches whose level has fallen start, in order; the others keep theirs. -/
def asuRelease : List HeldSearch → State → State
  | [], s => s
  | h :: t, s =>
    if asuIsHeld s h.op h.cmd then asuRelease t { s with asuHeld := s.asuHeld ++ [h] }
    else
      let (r, s1) := asuRun h.op h.cmd s
      asuRelease t (asuDeliver h.dest r s1)

/-- The threshold of a throttle level, in °C (Table 10.7). -/
def asuThreshold (l : Nat) : Int := if l = 1 then 95 else if l = 2 then 105 else 110

/-- The level at a temperature: it rises at once, and falls only 2 °C below the threshold. -/
def asuLevelNext (l : Nat) (t : Int) : Nat :=
  let raw := if 110 < t then 3 else if 105 < t then 2 else if 95 < t then 1 else 0
  let hold := if l = 3 ∧ asuThreshold 3 - 2 < t then 3 else if 2 ≤ l ∧ asuThreshold 2 - 2 < t then 2
    else if 1 ≤ l ∧ asuThreshold 1 - 2 < t then 1 else 0
  max raw hold

/-- ASU_THROTTLE_EVAL: an island sets the level of its banks from its hottest sensor, in °C. -/
def execAsuThrottleEval (island : BitVec 4) (temp : Byte) (s : State) : Host.Outcome State Fault Refusal :=
  let i := island.toNat
  let l := asuLevelNext (mget 0 s.asuLevel i) temp.toInt
  let s1 := { s with asuLevel := mset 0 s.asuLevel i l }
  .next (asuRelease s1.asuHeld { s1 with asuHeld := [] })

/-! ## The rows -/

/-- ASU_SEARCH. -/
def execAsuSearch (reef : BitVec 7) (c : AsuCmd) (s : State) : Host.Outcome State Fault Refusal := .next (asuStart reef.toNat 1 c none s)
/-- ASU_NEXT. -/
def execAsuNext (reef : BitVec 7) (c : AsuCmd) (s : State) : Host.Outcome State Fault Refusal := .next (asuStart reef.toNat 2 c none s)
/-- ASU_READ. -/
def execAsuRead (reef : BitVec 7) (c : AsuCmd) (s : State) : Host.Outcome State Fault Refusal := .next (asuStart reef.toNat 3 c none s)
/-- ASU_WRITE. -/
def execAsuWrite (reef : BitVec 7) (c : AsuCmd) (s : State) : Host.Outcome State Fault Refusal := .next (asuStart reef.toNat 4 c none s)
/-- ASU_DELETE. -/
def execAsuDelete (reef : BitVec 7) (c : AsuCmd) (s : State) : Host.Outcome State Fault Refusal := .next (asuStart reef.toNat 5 c none s)
/-- ASU_INSERT. -/
def execAsuInsert (reef : BitVec 7) (c : AsuCmd) (s : State) : Host.Outcome State Fault Refusal := .next (asuStart reef.toNat 6 c none s)
/-- ASU_REBUILD. -/
def execAsuRebuild (reef : BitVec 7) (c : AsuCmd) (s : State) : Host.Outcome State Fault Refusal := .next (asuStart reef.toNat 7 c none s)

/-- ASU_REFRESH_SCRUB: the pass reaches a position (R256, R257). It pauses at the Held level and stops under bit 2 of
MI_SCRUB_DISABLE. -/
def execAsuRefreshScrub (pos : BitVec 23) (s : State) : Host.Outcome State Fault Refusal :=
  let g := pos.toNat
  .next (
    if (rget s 0x00090000).getLsbD 2 || decide (mget 0 s.asuLevel (g / 524288) = 3) || islLost s (g / 524288) then s
    else
      match (activePlate s).bind (fun p => (asuTabs p (caseNow s)).find? (fun t => t.holds g)) with
      | none => s
      | some t =>
        if asuCopyBad s t g then asuLose g s
        else
          let c := asuFromCopy t (readMem s (asuCopyAddr t g) (asuCopyBytes t))
          let e := asuGet s g
          let c' := if c.valid || e.valid then { c with mask := if t.ternary || c.valid then c.mask else e.mask, lost := e.lost } else e
          if c' = e then s
          else bump (reefCnt (g / 65536) (if t.ternary then 51 else 50)) 1 { s with asu := mset AsuEntry.free s.asu g c' })

end Sys2Proof.Machine
end

