-- ==== Sys2Proof/Machine/Embed.lean ====
section
/-! DEFINITION. GATHER, SCATTER, FOLD, WRITE_ROWS, INITIALISE, FETCH_EPOCH_ADVANCE, SHOAL_INTERVAL_END, MIGRATE_INTERVAL_END and
MIGRATION_FLIP (12). -/

namespace Sys2Proof.Machine

/-! ## Tables, rows and slots (R281-R286) -/

/-- An embedding table's state. -/
def embGet (s : State) (t : Nat) : Emb := mget Emb.init s.emb t

/-- `s` with a table's state set. -/
def embPut (t : Nat) (e : Emb) (s : State) : State := { s with emb := mset Emb.init s.emb t e }

/-- The name of a slot of a stack. -/
def slotKey (stack slot : Nat) : Nat := 2 ^ 32 * stack + slot

/-- The name of a row of an island or reef. -/
def rowKey (island row : Nat) : Nat := 2 ^ 36 * island + row

/-- Local address of a slot's row image. -/
def slotAt (t : EmbTab) (k : Nat) : Nat := hbmKey (k / 2 ^ 32) (t.pool + k % 2 ^ 32 * t.rowBytes)

/-- The indirection entry of a row: its slot, where it is present. -/
def rowSlot (s : State) (t : EmbTab) (r : Nat) : Option Nat :=
  let e := leNat (readMem s (t.ind + 8 * r) 8)
  if bit e 63 then some (slotKey (e % 16) (e / 16 % 2 ^ 32)) else none

/-- The 64-bit entry of a row in a slot (Table 12.3). -/
def indEntry (k : Nat) : Nat := k / 2 ^ 32 + 16 * (k % 2 ^ 32) + 2 ^ 63

/-- A row image. -/
def rowImage (s : State) (t : EmbTab) (k : Nat) : List Byte := readMem s (slotAt t k) t.rowBytes

/-- VERSION of a row image. -/
def rowVersion (img : List Byte) : Nat := u16At img 4

/-- A row image with VERSION and CLAMPED set. -/
def stampRow (version : Nat) (clamped : Bool) (img : List Byte) : List Byte :=
  let b := u16At img 6
  patch img 4 (leBytes 2 version ++ leBytes 2 (b / 2 * 2 + clamped.toNat))

/-- Code `j` of a row image. -/
def rowCode (t : EmbTab) (img : List Byte) (j : Nat) : Int :=
  if t.fmt = 4 then sintOf 8 (u8At img (8 + j)) else sintOf 4 (u8At img (8 + j / 2) / 16 ^ (j % 2))

/-- Code bytes of a row's codes. -/
def codeImage (t : EmbTab) (cs : List Int) : List Byte :=
  if t.fmt = 4 then cs.map (fun c => BitVec.ofInt 8 c)
  else (List.range (t.c / 2)).map (fun m => BitVec.ofNat 8 (uintOf 4 (cs.getD (2 * m) 0) + 16 * uintOf 4 (cs.getD (2 * m + 1) 0)))

/-- Slots in use on a stack, in order. -/
def usedOn (e : Emb) (stack : Nat) : List Nat :=
  (e.used.filter (fun p => decide (p.1 / 2 ^ 32 = stack))).map (fun p => p.1 % 2 ^ 32)

/-- The n-th number that an ascending list leaves out. -/
def nthFree : List Nat → Nat → Nat
  | [], n => n
  | u :: t, n => if u ≤ n then nthFree t (n + 1) else n

/-- The stack a new row is placed on: the first from `st` on with a free slot (R284). -/
def poolFrom (s : State) (t : EmbTab) (st : Nat) : Option Nat :=
  ((List.range 16).map (fun i => (st + i) % 16)).find? (fun k => !islLost s k && decide ((usedOn (embGet s t.id) k).length < t.slots))

/-- The stack that R284 hashes a row to. -/
def homeStack (t : EmbTab) (r : Nat) : Nat := (akh64 (leBytes 8 r) t.seed).toNat * 16 / 2 ^ 64

/-- A free slot of a stack, which the spec does not specify (R284): a free value chooses it. It is in use from now on. -/
def takeSlot (t : EmbTab) (stack : Nat) (s : State) : Nat × State :=
  let e := embGet s t.id
  let us := usedOn e stack
  let (f, s1) := takeFree s
  let k := slotKey stack (nthFree us ((Config.free64 f).toNat % (t.slots - us.length)))
  (k, embPut t.id { e with used := nadd e.used k } s1)

/-- A slot for a row's new image: on its present stack, else as R284 places it (R289). -/
def shadowSlot (t : EmbTab) (r : Nat) (s : State) : Option (Nat × State) :=
  let here := match rowSlot s t r with
    | some k => if !islLost s (k / 2 ^ 32) && decide ((usedOn (embGet s t.id) (k / 2 ^ 32)).length < t.slots) then some (k / 2 ^ 32) else none
    | none => none
  match (match here with | some k => some k | none => poolFrom s t (homeStack t r)) with
  | some k => some (takeSlot t k s)
  | none => none

/-- A slot free again. -/
def dropSlot (t : Nat) (k : Nat) (s : State) : State :=
  embPut t { embGet s t with used := ndel (embGet s t).used k, displaced := mdel (embGet s t).displaced k } s

/-- Keys of a row over every island. -/
def rowKeys (r : Nat) : List Nat := (List.range 16).map (fun i => rowKey i r)

/-- A flip (R285, R286, R298): replicas and prefetched copies go first, the entry is replaced, the slot left is displaced, a move
in progress is abandoned. -/
def embFlip (t : EmbTab) (r k : Nat) (s : State) : State :=
  let old := rowSlot s t r
  let e := embGet s t.id
  let moving := mlook e.moves r
  let e1 := { e with replicas := (rowKeys r).foldl ndel e.replicas,
                     prefetch := mmap [] (fun _ l => l.filter (fun x => decide (x ≠ r))) e.prefetch,
                     displaced := (match old with | some o => mput e.displaced o e.epoch | none => e.displaced),
                     moves := mdel e.moves r }
  let s1 := writeMem (t.ind + 8 * r) (leBytes 8 (indEntry k)) (embPut t.id e1 s)
  match moving with
  | some m => if m = k then s1 else bump (reefCnt (8 * (m / 2 ^ 32)) 78) 1 (dropSlot t.id m s1)
  | none => s1

/-! ## The section (R287) -/

/-- The embedding section (Table 12.4). -/
structure EmbSec where
  table : Nat
  role : Nat
  step : Nat
  seed : W64
  next : W64
  nextCount : Nat
  outMode : Nat
  requant : Nat
  grad : Nat
  rsvd : Bool
  deriving DecidableEq, Repr

/-- The section of 48 bytes. -/
def embSecOf (b : List Byte) : EmbSec :=
  { table := u8At b 0, role := u8At b 1, step := u64At b 8, seed := BitVec.ofNat 64 (u64At b 16), next := BitVec.ofNat 64 (u64At b 24),
    nextCount := u32At b 32, outMode := u8At b 36, requant := u8At b 37, grad := u8At b 38, rsvd := zeroAt b 2 6 && zeroAt b 39 9 }

/-- The section keeps Table 12.4. -/
def embSecOk (e : EmbSec) : Bool :=
  let g := e.role = 0
  let f := e.role = 2
  e.rsvd && decide (e.role ≤ 4) && (e.role = 1 || f || decide (e.step = 0)) && (f || decide (e.seed = 0))
    && (if g then decide (e.next.toNat % 8 = 0) && decide (e.nextCount ≤ 65536) && decide (e.outMode ≤ 2)
        else decide (e.next = 0) && decide (e.nextCount = 0) && decide (e.outMode = 0))
    && (if f then decide (e.requant ≤ 1) else decide (e.requant = 0))
    && (if e.role = 1 then e.grad = 9 || e.grad = 10 else decide (e.grad = 0))

/-- Bytes of a gradient record of a standalone scatter. -/
def gradRecord (t : EmbTab) (fmt : Nat) : Nat := 32 + roundUp (t.c * elemBytes (fmtWidth fmt 0)) 32

/-- Bytes of an output row of a gather. -/
def gatherRow (t : EmbTab) (mode : Nat) : Nat := if mode = 0 then 8 + t.codeBytes else if mode = 1 then 2 * t.c else 4 * t.c

/-- What R287 asks of a standalone descriptor's ranges. -/
def embRangesOk (x : Ctx) (t : EmbTab) (e : EmbSec) : Bool :=
  let n := x.j.d.inLen.toNat
  match e.role with
  | 0 => decide (n % 8 = 0) && decide (n / 8 * roundUp (gatherRow t e.outMode) 32 + n / 8 ≤ x.j.d.outLen.toNat)
  | 1 => decide (n % gradRecord t e.grad = 0)
  | 3 => decide (n % (32 + t.rowBytes) = 0)
  | _ => true

/-- An embedding stage in one of its roles: the checks of R287 and R288, then its work. -/
def embRun (role : Nat) (f : Ctx → PRec → EmbTab → EmbSec → State → State) (r : RunRef) (s : State) : State :=
  unitRun 15 r.chan.toNat r.seq.toNat (fun x s =>
    match recKind x.rs 15 with
    | none => s
    | some rec =>
      if u8At rec.body 1 ≠ role then s
      else
        let e := embSecOf (paramSection s x 5 48)
        match embTab? s e.table with
        | none => runPut x.num (runFail 0x6001 x.run) s
        | some t =>
          if !embSecOk e || e.role ≠ role || ((role = 1 || role = 2) && t.deltaRows = 0) || (x.entry && !embRangesOk x t e) then
            runPut x.num (runFail 0x6001 x.run) s
          else if role ≠ 4 && !(embGet s e.table).ready then runPut x.num (runFail 0x6002 x.run) s
          else f x rec t e s) s

/-! ## Gathers (R290-R294) -/

/-- The row an index names, if it is valid. -/
def validRow (s : State) (t : EmbTab) (v : Num) : Option Nat :=
  match v with
  | .fin neg n d =>
    if d = 0 ∨ n % d ≠ 0 ∨ (neg ∧ n ≠ 0) ∨ t.rows ≤ n / d then none
    else if (rowSlot s t (n / d)).isSome then some (n / d) else none
  | _ => none

/-- An output row of a row image (R291). -/
def gatherOut (t : EmbTab) (mode : Nat) (img : List Byte) : List Byte :=
  if mode = 0 then img.take (8 + t.codeBytes)
  else
    let fmt := if mode = 1 then 9 else 10
    let scale := floatVal 9 (u16At img 0)
    let off := floatVal 9 (u16At img 2)
    (List.range t.c).flatMap (fun j => leBytes (if mode = 1 then 2 else 4) (toFloat fmt .rne false (off.add (scale.mul (ofInt (rowCode t img j))))))

/-- What the positions of a gather have come to. -/
structure GatherAcc where
  window : NSet
  distinct : Nat
  fetched : List Nat
  coalesced : Nat
  invalid : Nat
  deriving DecidableEq, Repr

/-- A position in its coalescing window (R292). -/
def gatherPos (a : GatherAcc) (v : Option Nat) : GatherAcc :=
  match v with
  | none => { a with invalid := a.invalid + 1 }
  | some r =>
    if nmem a.window r then { a with coalesced := a.coalesced + 1 }
    else if a.distinct = 4096 then { a with window := nadd [] r, distinct := 1, fetched := a.fetched ++ [r] }
    else { a with window := nadd a.window r, distinct := a.distinct + 1, fetched := a.fetched ++ [r] }

/-- Island `i` counts a fetch of a row for the skew remedies (R296, R297): at most 4,096 rows a table. -/
def countHeat (i : Nat) (k : Option Nat) (r : Nat) (e : Emb) : Emb :=
  let room := fun (m : SMap Nat) => (mlook m (rowKey i r)).isSome || decide ((m.filter (fun p => decide (p.1 / 2 ^ 36 = i))).length < 4096)
  let e1 := if room e.heat then { e with heat := mset 0 e.heat (rowKey i r) (mget 0 e.heat (rowKey i r) + 1) } else e
  match k with
  | none => e1
  | some st =>
    { e1 with shard := mset 0 e1.shard (16 * i + st) (mget 0 e1.shard (16 * i + st) + 1),
              hits := mset 0 e1.hits (rowKey i r) (mget 0 e1.hits (rowKey i r) + 1) }

/-- One fetch of a row by a reef: from a prefetched copy, a replica, or HBM. -/
def fetchRow (x : Ctx) (t : EmbTab) (s : State) (r : Nat) : State :=
  let e := embGet s t.id
  let i := x.reef / 8
  if (mget [] e.prefetch x.reef).contains r then bumpReef x 69 1 (embPut t.id (countHeat i none r e) s)
  else if nmem e.replicas (rowKey i r) then bumpReef x 68 1 (embPut t.id (countHeat i none r e) s)
  else bumpReef x 65 1 (embPut t.id (countHeat i ((rowSlot s t r).map (· / 2 ^ 32)) r e) s)

/-- The bytes of `n` of a list's last elements. -/
def lastN {α : Type} (n : Nat) (l : List α) : List α := l.drop (l.length - n)

/-- The prefetch of a gather (R294). -/
def prefetchRows (x : Ctx) (t : EmbTab) (e : EmbSec) (s : State) : State :=
  if e.next = 0 ∨ e.nextCount = 0 ∨ engRead s x.p x.c x.st (localOf e.next) (8 * e.nextCount) ≠ 0 then s
  else
    (List.range e.nextCount).foldl (fun s i =>
      match validRow s t (ofInt (sintOf 64 (leNat (readMem s (localOf e.next + 8 * i) 8)))) with
      | none => s
      | some r =>
        let m := embGet s t.id
        let l := mget [] m.prefetch x.reef
        if l.contains r ∨ t.prefetch = 0 then s
        else bumpReef x 65 1 (embPut t.id { m with prefetch := mset [] m.prefetch x.reef (lastN t.prefetch (l ++ [r])) } s)) s

/-- A row's entry and image. -/
def rowAreas (s : State) (t : EmbTab) (r : Nat) : List (Nat × Nat) :=
  (t.ind + 8 * r, 8) :: (match rowSlot s t r with
    | some k => [(slotAt t k, t.rowBytes)]
    | none => [])

/-- The code of reading a row's entry and image. -/
def rowCodeOf (s : State) (t : EmbTab) (r : Nat) : W16 :=
  firstCode [areaCode s (t.ind + 8 * r) 8, match rowSlot s t r with
    | some k => areaCode s (slotAt t k) t.rowBytes
    | none => cOk]

/-- Every position's row (or zeros) and mask, and the effects of the fetches on the counters. -/
def gatherRows (x : Ctx) (t : EmbTab) (mode : Nat) (vs : List (Option Nat)) (s : State) : List (List Byte × Bool) × State :=
  let a := vs.foldl gatherPos { window := [], distinct := 0, fetched := [], coalesced := 0, invalid := 0 }
  let out := vs.map (fun v => match v with
    | some r => (match rowSlot s t r with
        | some k => (gatherOut t mode (rowImage s t k), true)
        | none => (zeros (gatherRow t mode), false))
    | none => (zeros (gatherRow t mode), false))
  (out, bumpReef x 64 vs.length (bumpReef x 66 a.coalesced (bumpReef x 67 a.invalid (a.fetched.foldl (fetchRow x t) s))))

/-- A standalone gather. -/
def gatherAlone (x : Ctx) (t : EmbTab) (e : EmbSec) (s : State) : State :=
  match inputCode s x with
  | 0 =>
    let vs := (chunks 8 (stageInput s x)).map (fun b => validRow s t (ofInt (sintOf 64 (leNat b))))
    (match firstCode (vs.map (fun v => match v with | some r => rowCodeOf s t r | none => cOk)) with
     | 0 =>
       let need := vs.length * roundUp (gatherRow t e.outMode) 32 + vs.length
       (match engWrite s x.p x.c x.st (localOf x.j.d.outAddr) need with
        | 0 =>
          let (out, s1) := gatherRows x t e.outMode vs s
          let bytes := out.flatMap (fun p => padTo 32 p.1) ++ out.map (fun p => if p.2 then 1 else 0)
          let bad := (out.filter (fun p => !p.2)).length
          let r := { x.run with recsIn := vs.length, recsOut := vs.length - bad, dropped := bad, lines := ceilDiv bytes.length 32 }
          prefetchRows x t e (runPut x.num (stageDid x 15 r) (if bytes = [] then s1 else placeOut x bytes s1))
        | c => runPut x.num (runAccess cOutputLost c x.run) s)
     | c => runPut x.num (runReads s ((vs.filterMap id).flatMap (rowAreas s t)) cInputLost c x.run) s)
  | c => runPut x.num (runAccess cInputLost c x.run) s

/-- The rows that a record's index stream names, one per element. -/
def recRows (s : State) (t : EmbTab) (stream : Nat) (r : DRec) : Option (SEnt × List (Option Nat)) :=
  (streamOf r stream).map (fun q => (q, (chunks (elemBytes q.w) q.data).map (fun b => validRow s t (fmtVal q.fmt q.w (leNat b)))))

/-- A record with its gathered rows and mask (R291). -/
def gatherRec (t : EmbTab) (mode out mask : Nat) (q : SEnt) (rows : List (List Byte × Bool)) (r : DRec) : DRec :=
  let fmt := if mode = 0 then 0 else if mode = 1 then 9 else 10
  let data := rows.flatMap (·.1)
  let marks := rows.map (fun p => if p.2 then (1 : Byte) else 0)
  let sh := if q.shape = 1 then 1 else 2
  let r1 := setStream out { shape := sh, fmt := fmt, w := if mode = 0 then 8 else fmtWidth fmt 0, data := data } r
  let r2 := setStream mask { shape := q.shape, fmt := 12, w := 1, data := marks } r1
  if q.shape = 1 then setStream (out + 1) (lengthEnt data.length) (setStream (mask + 1) (lengthEnt marks.length) r2) else r2

/-- A list cut into pieces of given lengths. -/
def cutAs {α : Type} : List Nat → List α → List (List α)
  | [], _ => []
  | n :: t, l => l.take n :: cutAs t (l.drop n)

/-- Records with their rows, in order; those without the index stream pass. -/
def gatherRecs (t : EmbTab) (mode out mask : Nat) : List (DRec × Option (SEnt × List (Option Nat))) → List (List Byte × Bool) → List DRec
  | [], _ => []
  | (r, none) :: l, rows => r :: gatherRecs t mode out mask l rows
  | (r, some (q, vs)) :: l, rows => gatherRec t mode out mask q (rows.take vs.length) r :: gatherRecs t mode out mask l (rows.drop vs.length)

/-- A gather inside a pipeline. -/
def gatherInline (x : Ctx) (rec : PRec) (t : EmbTab) (e : EmbSec) (s : State) : State :=
  let ps := x.run.recs.map (fun r => (r, if sound r then recRows s t (u8At rec.body 2) r else none))
  let vs := ps.flatMap (fun p => match p.2 with | some q => q.2 | none => [])
  match firstCode (vs.map (fun v => match v with | some r => rowCodeOf s t r | none => cOk)) with
  | 0 =>
    let (out, s1) := gatherRows x t e.outMode vs s
    let bad := (out.filter (fun p => !p.2)).length
    let r := { x.run with recs := gatherRecs t e.outMode (u8At rec.body 3) (u8At rec.body 4) ps out, dropped := x.run.dropped + bad }
    prefetchRows x t e (runPut x.num (stageDid x 15 r) s1)
  | c => runPut x.num (runReads s ((vs.filterMap id).flatMap (rowAreas s t)) cInputLost c x.run) s

/-- GATHER. -/
def execGather (r : RunRef) (s : State) : Host.Outcome State Fault Refusal :=
  .next (embRun 0 (fun x rec t e s => if x.entry then gatherAlone x t e s else gatherInline x rec t e s) r s)

/-! ## Scatters (R299-R302) -/

/-- The address of a delta row of a step. -/
def deltaAddr (t : EmbTab) (step r : Nat) : Nat := t.delta step + r * t.drow

/-- The scale of a row. -/
def rowScale (s : State) (t : EmbTab) (r : Nat) : Num :=
  match rowSlot s t r with
  | some k => floatVal 9 (leNat (readMem s (slotAt t k) 2))
  | none => .nan

/-- A scatter record's row takes it (R302). -/
def scatterRow (s : State) (t : EmbTab) (v : Num) : Option Nat :=
  match validRow s t v with
  | none => none
  | some r =>
    if t.deltaRows ≤ r then none
    else match rowScale s t r with
      | .fin _ n _ => if n = 0 then none else some r
      | _ => none

/-- x × 2^24 ÷ SCALE as an FX40 integer (R302, 03 R79). -/
def toLane (x scale : Num) : Int :=
  match x, scale with
  | .fin a n d, .fin b m e => toFixed .rne 0 (-(2 ^ 39 : Int)) (2 ^ 39 - 1) (.fin (a != b) (n * 2 ^ 24 * e) (d * m))
  | .inf a, .fin b _ _ => toFixed .rne 0 (-(2 ^ 39 : Int)) (2 ^ 39 - 1) (.inf (a != b))
  | _, _ => 0

/-- `n` added to a lane, modulo 2^64 (R300). -/
def addLane (t : EmbTab) (step r j : Nat) (n : Int) (s : State) : State :=
  let a := deltaAddr t step r + 32 + 8 * j
  writeMem a (leBytes 8 (uintOf 64 ((leNat (readMem s a 8) : Int) + n))) s

/-- A scatter record's contributions land (R302). -/
def applyScatter (tab step row fmt : Nat) (xs : List Nat) (s : State) : State :=
  match embTab? s tab with
  | none => s
  | some t =>
    match rowScale s t row with
    | .fin b m e =>
      if m = 0 ∨ t.deltaRows ≤ row then s
      else (xs.zipIdx).foldl (fun s p => addLane t step row p.2 (toLane (floatVal fmt p.1) (.fin b m e)) s) s
    | _ => s

/-- The gradient elements of bytes. -/
def gradElems (fmt : Nat) (b : List Byte) : List Nat := (chunks (elemBytes (fmtWidth fmt 0)) b).map leNat

/-- A scatter stage's records: the row's value and the gradient bytes. -/
def scatterIn (s : State) (x : Ctx) (rec : PRec) (t : EmbTab) (e : EmbSec) : List (Option (Num × List Nat)) :=
  if x.entry then
    (chunks (gradRecord t e.grad) (stageInput s x)).map (fun b =>
      some (ofInt (u64At b 0), (gradElems e.grad ((b.drop 32).take (t.c * elemBytes (fmtWidth e.grad 0))))))
  else
    (x.run.recs.filter sound).map (fun r =>
      match streamOf r (u8At rec.body 2), streamOf r (u8At rec.body 3) with
      | some q, some g =>
        if g.data.length = t.c * elemBytes (fmtWidth e.grad 0) then some (fmtVal q.fmt q.w (leNat (q.data.take (elemBytes q.w))), gradElems e.grad g.data)
        else none
      | _, _ => none)

/-- The scatter stage. -/
def scatterStage (x : Ctx) (rec : PRec) (t : EmbTab) (e : EmbSec) (s : State) : State :=
  match (if x.entry then inputCode s x else cOk) with
  | 0 =>
    let ins := scatterIn s x rec t e
    let ok := ins.filterMap (fun p => match p with
      | some (v, g) => (scatterRow s t v).map (fun r => Eff.scatter t.id e.step r e.grad g)
      | none => none)
    let bad := ins.length - ok.length
    let r0 := { x.run with eff := x.run.eff ++ ok, dropped := x.run.dropped + bad }
    let r := if x.entry then { r0 with recsIn := ins.length, recsOut := ok.length } else r0
    bumpReef x 67 bad (bumpReef x 70 ok.length (runPut x.num (stageDid x 15 r) s))
  | c => runPut x.num (runAccess cInputLost c x.run) s

/-- SCATTER. -/
def execScatter (r : RunRef) (s : State) : Host.Outcome State Fault Refusal := .next (embRun 1 scatterStage r s)

/-! ## The fold (R304-R308) -/

/-- The rows of a delta area that hold a byte other than zero, ascending. -/
def touchedRows (s : State) (t : EmbTab) (step : Nat) : List Nat :=
  let base := t.delta step
  (s.mem.foldl (fun (a : NSet) p =>
    match placeOf p.1 with
    | .hbm k o =>
      let v := interleaved k o
      if base ≤ v ∧ v < base + t.deltaRows * t.drow then nadd a ((v - base) / t.drow) else a
    | _ => a) []).map (·.1)

/-- What a fold does with a row (R305). -/
inductive FoldCase where
  | discard
  | leave
  | saturated
  | requant (lanes : List Int)
  deriving DecidableEq, Repr

/-- The case of a delta row. -/
def foldCase (s : State) (t : EmbTab) (step r : Nat) : FoldCase :=
  let b := readMem s (deltaAddr t step r) t.drow
  let ls := (List.range t.c).map (fun j => sintOf 64 (u64At b (32 + 8 * j)))
  if bit (u16At b 0) 0 then .discard
  else if ls.all (fun l => decide (l = 0)) then .leave
  else if ls.any (fun l => decide (l < -(2 ^ 39 : Int)) || decide ((2 ^ 39 : Int) ≤ l)) then .saturated
  else if (rowSlot s t r).isNone then .leave
  else .requant ls

/-- The word of a code's rounding (R307). -/
def foldWord (seed : W64) (tab r step j : Nat) : W32 :=
  (philox (seed.setWidth 32) ((seed >>> 32).setWidth 32)
    ⟨BitVec.ofNat 32 r, BitVec.ofNat 32 (r / 2 ^ 32), BitVec.ofNat 32 (0xE000 + tab + 65536 * (j / 4)), BitVec.ofNat 32 step⟩).word j

/-- The largest code of a format; the least is its negative less one. -/
def codeMax (t : EmbTab) : Int := if t.fmt = 4 then 127 else 7

/-- SCALE × 2^k is a finite BF16: its bits. -/
def scaleUp (scale k : Nat) : Option Nat :=
  match floatVal 9 scale with
  | .fin s n d =>
    let v := toFloat 9 .rne false (.fin s (n * 2 ^ k) d)
    (match floatVal 9 v with | .fin .. => some v | _ => none)
  | _ => none

/-- The k of REQUANT 1 (R306). -/
def foldShift (t : EmbTab) (scale : Nat) (ts : List Int) : Nat :=
  let fits := fun (k : Nat) => ts.all (fun v =>
    decide (v ≤ codeMax t * (2 ^ (24 + k) : Nat)) && decide (-(codeMax t + 1) * (2 ^ (24 + k) : Nat) ≤ v))
  match (List.range 9).find? (fun k => fits k && (scaleUp scale k).isSome) with
  | some k => k
  | none => (((List.range 9).filter (fun k => (scaleUp scale k).isSome)).getLast?).getD 0

/-- A row requantised (R306): its new image less the version, and whether a code was clamped. -/
def requantRow (t : EmbTab) (step : Nat) (seed : W64) (refit : Bool) (r : Nat) (img : List Byte) (ls : List Int) : List Byte × Bool :=
  let ts := (List.range t.c).map (fun j => rowCode t img j * (2 ^ 24 : Nat) + ls.getD j 0)
  let k := if refit then foldShift t (u16At img 0) ts else 0
  let rounded := ts.zipIdx.map (fun p =>
    let m : Int := roundNat (.sr (foldWord seed t.id r step p.2)) p.1.natAbs (2 ^ (24 + k))
    if p.1 < 0 then -m else m)
  let cs := rounded.map (clampInt (-(codeMax t + 1)) (codeMax t))
  let scale := if k = 0 then u16At img 0 else (scaleUp (u16At img 0) k).getD (u16At img 0)
  (padTo 32 (leBytes 2 scale ++ (img.drop 2).take 6 ++ codeImage t cs), decide (cs ≠ rounded))

/-- A row folded at the commit. -/
def foldRow (t : EmbTab) (step reef : Nat) (seed : W64) (refit : Bool) (s : State) (r : Nat) : State :=
  let clear := fun (s : State) => writeMem (deltaAddr t step r) (zeros t.drow) s
  match foldCase s t step r with
  | .leave => s
  | .discard => bump (reefCnt reef 74) 1 (clear s)
  | .saturated => bump (reefCnt reef 73) 1 (clear s)
  | .requant ls =>
    match rowSlot s t r with
    | none => s
    | some k =>
      let img := rowImage s t k
      let (new, cl) := requantRow t step seed refit r img ls
      match shadowSlot t r s with
      | none => s
      | some (m, s1) =>
        let s2 := writeMem (slotAt t m) (stampRow ((rowVersion img + 1) % 65536) cl new) s1
        bump (reefCnt reef 71) 1 (bump (reefCnt reef 75) cl.toNat (clear (embFlip t r m s2)))

/-- A fold at its commit (R304). -/
def applyFold (tab step reef : Nat) (seed : W64) (refit : Bool) (s : State) : State :=
  match embTab? s tab with
  | none => s
  | some t =>
    let s1 := (touchedRows s t step).foldl (foldRow t step reef seed refit) s
    embPut tab { embGet s1 tab with folded := some step } s1

/-- Free slots of a table on stacks that are not lost. -/
def freeSlots (s : State) (t : EmbTab) : Nat :=
  (List.range 16).foldl (fun n k => if islLost s k then n else n + (t.slots - (usedOn (embGet s t.id) k).length)) 0

/-- Every earlier descriptor of the channel has committed. -/
def atHead (x : Ctx) : Bool := decide (x.ch.committed + 1 = x.seq)

/-- The fold stage: it runs when the channel's earlier descriptors have committed, so that FOLDED_STEP is the one it follows. -/
def foldStage (x : Ctx) (_rec : PRec) (t : EmbTab) (e : EmbSec) (s : State) : State :=
  if !atHead x then s
  else
    let m := embGet s t.id
    let done := match m.folded with | some f => decide (e.step ≤ f) | none => false
    let next := match m.folded with | some f => f + 1 | none => 0
    if done then bumpReef x 72 1 (runPut x.num (stageDid x 15 x.run) s)
    else if e.step ≠ next then runPut x.num (runFail 0x6004 x.run) s
    else
      let rows := touchedRows s t e.step
      match firstCode (rows.map (fun r => firstCode [areaCode s (deltaAddr t e.step r) t.drow, rowCodeOf s t r])) with
      | 0 =>
        let cases := rows.map (foldCase s t e.step)
        let need := (cases.filter (fun c => match c with | .requant _ => true | _ => false)).length
        if freeSlots s t < need then runPut x.num (runFail 0x6005 x.run) s
        else
          let r := { x.run with eff := x.run.eff ++ [Eff.fold t.id e.step x.reef e.seed (decide (e.requant = 1))] }
          runPut x.num (stageDid x 15 (if cases.contains .saturated then runCode 0x6003 r else r)) s
      | c => runPut x.num (runReads s (rows.flatMap (fun r => (deltaAddr t e.step r, t.drow) :: rowAreas s t r)) cInputLost c x.run) s

/-- FOLD. -/
def execFold (r : RunRef) (s : State) : Host.Outcome State Fault Refusal := .next (embRun 2 foldStage r s)

/-! ## Write rows and initialise (R288, R289, R309) -/

/-- Records kept: of those that name one row, the last (R289). -/
def lastPerRow : List (Nat × List Byte) → List (Nat × List Byte)
  | [] => []
  | p :: t => if t.any (fun q => decide (q.1 = p.1)) then lastPerRow t else p :: lastPerRow t

/-- Records up to the first that fails, and whether one does. -/
def writeRecs (t : EmbTab) : List (List Byte) → List (Nat × List Byte) × Bool
  | [] => ([], false)
  | b :: l =>
    if t.rows ≤ u64At b 0 ∨ !zeroAt b 8 24 then ([], true)
    else let (r, bad) := writeRecs t l; ((u64At b 0, (b.drop 32).take t.rowBytes) :: r, bad)

/-- Images placed in shadow slots; nothing where a slot is wanting. -/
def placeRows (t : EmbTab) : List (Nat × List Byte) → State → Option (List Eff × State)
  | [], s => some ([], s)
  | (r, img) :: l, s =>
    match shadowSlot t r s with
    | none => none
    | some (k, s1) =>
      match placeRows t l (writeMem (slotAt t k) (stampRow 0 false img) s1) with
      | none => none
      | some (es, s2) => some (Eff.flip t.id r (k / 2 ^ 32) (k % 2 ^ 32) :: es, s2)

/-- The write-rows stage. -/
def writeRowsStage (x : Ctx) (_rec : PRec) (t : EmbTab) (_e : EmbSec) (s : State) : State :=
  match inputCode s x with
  | 0 =>
    let (rs, bad) := writeRecs t (chunks (32 + t.rowBytes) (stageInput s x))
    let keep := lastPerRow rs
    (match placeRows t keep s with
     | none => runPut x.num (runFail 0x6005 x.run) s
     | some (es, s1) =>
       let r := { x.run with eff := x.run.eff ++ es, recsIn := rs.length, recsOut := keep.length }
       bumpReef x 76 keep.length (runPut x.num (if bad then runFail 0x6006 r else stageDid x 15 r) s1))
  | c => runPut x.num (runAccess cInputLost c x.run) s

/-- WRITE_ROWS. -/
def execWriteRows (r : RunRef) (s : State) : Host.Outcome State Fault Refusal := .next (embRun 3 writeRowsStage r s)

/-- REPLACED set in a row's delta rows (R309). -/
def setReplaced (t : EmbTab) (r : Nat) (s : State) : State :=
  if t.deltaRows ≤ r then s
  else [0, 1].foldl (fun s st =>
    let a := deltaAddr t st r
    writeMem a [readByte s a ||| 1] s) s

/-- A write-rows flip at its commit (R289). -/
def applyFlip (tab r k : Nat) (s : State) : State :=
  match embTab? s tab with
  | none => s
  | some t =>
    let ver := match rowSlot s t r with
      | some o => (rowVersion (rowImage s t o) + 1) % 65536
      | none => 0
    setReplaced t r (embFlip t r k (writeMem (slotAt t k) (stampRow ver false (rowImage s t k)) s))

/-- Bytes of an interleaved range set to zero. -/
def zeroInterleaved (base n : Nat) (s : State) : State :=
  let inside := fun (key : Nat) => match placeOf key with
    | .hbm k o => decide (base ≤ interleaved k o) && decide (interleaved k o < base + n)
    | _ => false
  { s with mem := s.mem.filter (fun p => !inside p.1), poison := s.poison.filter (fun p => !inside p.1) }

/-- An initialise at its commit (R288). -/
def applyInit (tab : Nat) (s : State) : State :=
  match embTab? s tab with
  | none => s
  | some t =>
    let n := t.deltaRows * t.drow
    embPut tab { Emb.init with ready := true, epoch := (embGet s tab).epoch }
      (zeroInterleaved t.d0 n (zeroInterleaved t.d1 n (zeroInterleaved t.ind (8 * t.rows) s)))

/-- INITIALISE. -/
def execInitialise (r : RunRef) (s : State) : Host.Outcome State Fault Refusal :=
  .next (embRun 4 (fun x _ t _ s => runPut x.num (stageDid x 15 { x.run with eff := x.run.eff ++ [Eff.initTable t.id] }) s) r s)

/-! ## Epochs, shoals and migration (R286, R295-R298) -/

/-- FETCH_EPOCH_ADVANCE: rows are fetched whole within a command, so no fetch of an earlier epoch is left. -/
def execFetchEpochAdvance (table : BitVec 6) (s : State) : Host.Outcome State Fault Refusal :=
  let e := embGet s table.toNat
  let n := e.epoch + 1
  let gone := (e.displaced.filter (fun p => decide (p.2 + 2 ≤ n))).map (·.1)
  .next (embPut table.toNat { e with epoch := n, used := gone.foldl ndel e.used,
                                     displaced := e.displaced.filter (fun p => !decide (p.2 + 2 ≤ n)) } s)

/-- The skew mode of a table (21 Table 21.10). -/
def skewMode (s : State) (t : Nat) : Nat := (rget s (0x000B0000 + 4 * (t / 16))).toNat / 4 ^ (t % 16) % 4

/-- The rows of an island in a count, with their counts. -/
def rowsOf (m : SMap Nat) (i : Nat) : List (Nat × Nat) :=
  (m.filter (fun p => decide (p.1 / 2 ^ 36 = i))).map (fun p => (p.1 % 2 ^ 36, p.2))

/-- A pair put before those of a lesser second part. -/
def insHot (p : Nat × Nat) : List (Nat × Nat) → List (Nat × Nat)
  | [] => [p]
  | q :: t => if q.2 < p.2 then p :: q :: t else q :: insHot p t

/-- Rows by falling count. -/
def hottest (l : List (Nat × Nat)) : List (Nat × Nat) := l.foldr insHot []

/-- An island's replicas of a table at the end of a replication interval (R296). -/
def shoalTable (s : State) (i : Nat) (t : EmbTab) (e : Emb) : Emb :=
  let thr := (rget s 0x000B0014).toNat
  let cold := (e.replicas.filter (fun p => decide (p.1 / 2 ^ 36 = i))).map (·.1)
  let cleared := cold.foldl ndel e.replicas
  let heat := e.heat.filter (fun p => decide (p.1 / 2 ^ 36 ≠ i))
  if skewMode s t.id % 2 = 0 then { e with replicas := cleared, heat := heat }
  else
    let counts := rowsOf e.heat i
    let want := (hottest counts).filter (fun p => decide (thr ≤ p.2) || (nmem e.replicas (rowKey i p.1) && decide (thr ≤ 4 * p.2)))
    { e with replicas := ((want.take t.shoal).filter (fun p => (rowSlot s t p.1).isSome)).foldl (fun m p => nadd m (rowKey i p.1)) cleared,
             heat := heat }

/-- Every embedding table of the active plate. -/
def tablesNow (s : State) : List EmbTab :=
  match activePlate s with
  | some p => embTabs p (caseNow s)
  | none => []

/-- SHOAL_INTERVAL_END. -/
def execShoalIntervalEnd (island : BitVec 4) (s : State) : Host.Outcome State Fault Refusal :=
  .next ((tablesNow s).foldl (fun s t => embPut t.id (shoalTable s island.toNat t (embGet s t.id)) s) s)

/-- The moves that an island begins at the end of a migration interval (R297). -/
def migrateTable (i : Nat) (s : State) (t : EmbTab) : State :=
  let e := embGet s t.id
  let cnt := fun (k : Nat) => mget 0 e.shard (16 * i + k)
  let hot := (List.range 16).foldl (fun m k => if cnt m < cnt k then k else m) 0
  let sum := (List.range 16).foldl (fun n k => n + cnt k) 0
  let ratio := (rget s 0x000B001C).toNat
  let e1 := { e with shard := e.shard.filter (fun p => decide (p.1 / 16 ≠ i)), hits := e.hits.filter (fun p => decide (p.1 / 2 ^ 36 ≠ i)) }
  let s1 := embPut t.id e1 s
  if skewMode s t.id < 2 ∨ cnt hot * 128 * 16 ≤ ratio * sum then s1
  else
    let open_ := (List.range 16).filter (fun k => k ≠ hot && !islLost s k && decide ((usedOn e1 k).length < t.slots))
    match open_ with
    | [] => s1
    | k0 :: ks =>
      let cool := ks.foldl (fun m k => if cnt k < cnt m then k else m) k0
      let rows := ((hottest (rowsOf e.hits i)).filter (fun p => match rowSlot s t p.1 with
        | some o => decide (o / 2 ^ 32 = hot) && (mlook e.moves p.1).isNone
        | none => false)).take 4096
      rows.foldl (fun s p =>
        let m := embGet s t.id
        if (usedOn m cool).length < t.slots then
          let (k, s2) := takeSlot t cool s
          embPut t.id { embGet s2 t.id with moves := mput (embGet s2 t.id).moves p.1 k } s2
        else s) s1

/-- MIGRATE_INTERVAL_END. -/
def execMigrateIntervalEnd (island : BitVec 4) (s : State) : Host.Outcome State Fault Refusal :=
  .next ((tablesNow s).foldl (migrateTable island.toNat) s)

/-- MIGRATION_FLIP: the move of a row ends. One whose row was flipped meanwhile has been abandoned (R297). -/
def execMigrationFlip (table : BitVec 6) (row : W64) (s : State) : Host.Outcome State Fault Refusal :=
  .next (match embTab? s table.toNat with
    | none => s
    | some t =>
      match mlook (embGet s t.id).moves row.toNat, rowSlot s t row.toNat with
      | some k, some o =>
        bump (reefCnt (8 * (k / 2 ^ 32)) 77) 1 (embFlip t row.toNat k (writeMem (slotAt t k) (rowImage s t o) s))
      | _, _ => s)

end Sys2Proof.Machine
end

