-- ==== Sys2Proof/Machine/Binding.lean ====
section
/-! DEFINITION. Binding entries, conversions and stream elements (06 R164-R167). -/

namespace Sys2Proof.Machine

/-- A reason code of 06 Table 6.12. -/
abbrev rPageCrc : W16 := 0x3101#16
abbrev rDecompress : W16 := 0x3102#16
abbrev rParquet : W16 := 0x3103#16
abbrev rCbor : W16 := 0x3104#16
abbrev rTooLarge : W16 := 0x3105#16
abbrev rNesting : W16 := 0x3106#16
abbrev rDuplicate : W16 := 0x3107#16
abbrev rMissing : W16 := 0x3108#16
abbrev rType : W16 := 0x3109#16
abbrev rRange : W16 := 0x310A#16
abbrev rList : W16 := 0x310B#16
abbrev rFrameCrc : W16 := 0x310C#16
abbrev rFrameLost : W16 := 0x310D#16
abbrev rFileFailed : W16 := 0x310E#16
abbrev rDeadline : W16 := 0x310F#16

/-- A binding entry (Table 6.6), with its path's components. -/
structure Bind where
  shape : Nat
  fmt : Nat
  width : Nat
  out : Nat
  fill : Bool
  path : List (List Byte)
  listLen : Nat
  fillBits : Nat
  maxBytes : Nat
  deriving DecidableEq, Repr

/-- `bs` split at each zero byte. -/
def splitZero : List Byte → List (List Byte)
  | [] => [[]]
  | b :: t =>
    match splitZero t with
    | [] => [[b]]
    | h :: r => if b = 0 then [] :: h :: r else (b :: h) :: r

/-- The format codes and widths of Table 6.6. -/
def bindFormatOk (fmt w : Nat) : Bool :=
  decide (fmt ≤ 12) && (match fmt with
    | 0 => decide (w ≤ 64)
    | 1 => decide (w ≤ 64)
    | 2 => decide (2 ≤ w) && decide (w ≤ 64)
    | _ => decide (w = fmtWidth fmt w))

/-- The entry that 32 bytes and a path area spell, if it keeps Table 6.6. -/
def bindOf (b area : List Byte) : Option Bind :=
  let shape := u8At b 0
  let fmt := u8At b 1
  let w := u8At b 2 + 1
  let out := u8At b 3
  let pl := u16At b 6
  let po := u32At b 8
  let ll := u32At b 12
  let mb := u32At b 24
  let two := decide (shape = 1) || decide (shape = 3)
  let sw := fmtWidth fmt w
  if 3 < shape ∨ !(if shape = 3 then decide (fmt = 0) && decide (u8At b 2 ≤ 63) else bindFormatOk fmt w)
      ∨ (if two then 61 < out else 62 < out)
      ∨ 1 < u8At b 4 ∨ !zeroAt b 5 1 ∨ pl = 0 ∨ 1024 < pl ∨ area.length < po + pl
      ∨ !(if shape = 2 then decide (1 ≤ ll) && decide (ll ≤ 65535) else decide (ll = 0))
      ∨ (shape ≠ 3 && 2 ^ sw ≤ u64At b 16)
      ∨ !(if two then decide (1 ≤ mb) && decide (mb ≤ 0x1000000) else decide (mb = 0)) ∨ !zeroAt b 28 4 then none
  else
    some { shape := shape, fmt := fmt, width := w, out := out, fill := decide (u8At b 4 = 1),
           path := splitZero ((area.drop po).take pl), listLen := ll, fillBits := u64At b 16, maxBytes := mb }

/-- A source value. -/
inductive SVal where
  | bool (b : Bool)
  | int (i : Int)
  | flt (x : Num)
  /-- Bytes of a string; `fixed` for FIXED_LEN_BYTE_ARRAY, `notUtf8` for a text string with a chunk that is not UTF-8. -/
  | bytes (b : List Byte) (fixed notUtf8 : Bool)
  /-- A value that may not be bound. -/
  | other
  deriving DecidableEq, Repr

/-- What a path reaches in one record. -/
inductive BVal where
  | null
  | one (v : SVal)
  | list (l : List (Option SVal))
  | bad (reason : W16)
  deriving DecidableEq, Repr

/-- The bounds of an integer target. -/
def intBounds (fmt w : Nat) : Int × Int :=
  let sw := fmtWidth fmt w
  if fmt = 1 then (0, ((2 ^ sw : Nat) : Int) - 1)
  else if fmt = 11 then (-32768, 32767)
  else (-((2 ^ (sw - 1) : Nat) : Int), ((2 ^ (sw - 1) : Nat) : Int) - 1)

/-- Table 6.7: the bits of a value in a target format. -/
def convert (fmt w : Nat) (v : SVal) : Except W16 Nat :=
  match v with
  | .bool b => if fmt = 12 ∨ fmt = 1 ∨ fmt = 0 then .ok b.toNat else .error rType
  | .int i =>
    if fmt = 1 ∨ fmt = 2 ∨ fmt = 3 ∨ fmt = 4 ∨ fmt = 5 ∨ fmt = 11 then
      let (lo, hi) := intBounds fmt w
      if i < lo ∨ hi < i then .error rRange
      else if fmt = 11 then .ok (uintOf 40 (i * (2 ^ 24 : Nat)))
      else .ok (uintOf (fmtWidth fmt w) i)
    else if fmt = 8 ∨ fmt = 9 ∨ fmt = 10 then .ok (toFloat fmt .rne false (ofInt i))
    else .error rType
  | .flt x => if fmt = 6 ∨ fmt = 7 ∨ fmt = 8 ∨ fmt = 9 ∨ fmt = 10 then .ok (toFloat fmt .rne false x) else .error rType
  | .bytes b fixed _ => if fmt = 0 ∧ fixed ∧ b.length ≤ 8 then .ok (leNat b % 2 ^ w) else .error rType
  | .other => .error rType

/-- One element, null or not, under the entry's null mode (R166). -/
def element (b : Bind) (v : Option SVal) : Except W16 (List Byte) :=
  match v with
  | none => if b.fill then .ok (elemOf b.fmt b.width b.fillBits) else .error rMissing
  | some x => (convert b.fmt b.width x).map (elemOf b.fmt b.width)

/-- Elements in order; the first failing one decides. -/
def elements (b : Bind) : List (Option SVal) → Except W16 (List Byte)
  | [] => .ok []
  | v :: t => do let x ← element b v; let r ← elements b t; return x ++ r

/-- Well-formed UTF-8 (RFC 3629). -/
def utf8Ok : Nat → List Byte → Bool
  | 0, bs => bs.isEmpty
  | _, [] => true
  | f + 1, b :: t =>
    let c := fun (i : Nat) => decide ((t.getD i 0).toNat / 64 = 2)
    let n := b.toNat
    let x := (t.getD 0 0).toNat
    if n < 0x80 then utf8Ok f t
    else if 0xC2 ≤ n ∧ n < 0xE0 then decide (1 ≤ t.length) && c 0 && utf8Ok f (t.drop 1)
    else if 0xE0 ≤ n ∧ n < 0xF0 then
      decide (2 ≤ t.length) && c 0 && c 1 && !(decide (n = 0xE0) && decide (x < 0xA0)) && !(decide (n = 0xED) && decide (0xA0 ≤ x))
        && utf8Ok f (t.drop 2)
    else if 0xF0 ≤ n ∧ n < 0xF5 then
      decide (3 ≤ t.length) && c 0 && c 1 && c 2 && !(decide (n = 0xF0) && decide (x < 0x90)) && !(decide (n = 0xF4) && decide (0x90 ≤ x))
        && utf8Ok f (t.drop 3)
    else false

/-- The stream entries that a binding writes for one record, or its reason (R166, R167). -/
def bindRecord (b : Bind) (v : BVal) : Except W16 (List (Nat × SEnt)) :=
  let esz := elemBytes (fmtWidth b.fmt b.width)
  let ent := fun (d : List Byte) => ({ shape := b.shape, fmt := b.fmt, w := fmtWidth b.fmt b.width, data := d } : SEnt)
  let sized := fun (d : List Byte) => [(b.out, ent d), (b.out + 1, lengthEnt d.length)]
  match b.shape, v with
  | _, .bad r => .error r
  | 0, .null => (element b none).map (fun e => [(b.out, ent e)])
  | 0, .one x => (element b (some x)).map (fun e => [(b.out, ent e)])
  | 1, .null => if b.fill then .ok (sized []) else .error rMissing
  | 1, .list l => if b.maxBytes < l.length * esz then .error rList else (elements b l).map sized
  | 2, .null => if b.fill then .ok [(b.out, ent (List.replicate b.listLen (elemOf b.fmt b.width b.fillBits)).flatten)] else .error rMissing
  | 2, .list l => if l.length ≠ b.listLen then .error rList else (elements b l).map (fun e => [(b.out, ent e)])
  | 3, .null => if b.fill then .ok (sized []) else .error rMissing
  | 3, .one (.bytes d _ notUtf8) =>
    if notUtf8 then .error rCbor
    else if b.maxBytes < d.length then .error rList
    else .ok (sized d)
  | _, _ => .error rType

/-- Every entry of a record in order; the lowest-numbered entry that fails gives the reason (R160). -/
def bindAll : List (Bind × BVal) → Except W16 (List (Nat × SEnt))
  | [] => .ok []
  | (b, v) :: t => do let x ← bindRecord b v; let r ← bindAll t; return x ++ r

/-- The value of binary64 bits. -/
def doubleVal (v : Nat) : Num :=
  let frac : Nat := v % 2 ^ 52
  let e : Nat := v / 2 ^ 52 % 2048
  let neg := decide (v / 2 ^ 63 % 2 = 1)
  if e = 2047 then (if frac = 0 then .inf neg else .nan)
  else if e = 0 then scaled neg frac (-1074)
  else scaled neg (2 ^ 52 + frac) ((e : Int) - 1075)

end Sys2Proof.Machine
end

