-- ==== Sys2Proof/Machine/TableOps.lean ====
section
/-! DEFINITION. HATCH_STAGE, STATS_GATHER and NORMALISE: keys, hashes, buckets, statistics images, normalisation (08 R192-R204,
R576). -/

namespace Sys2Proof.Machine

/-! ## Keys (R192) -/

/-- The bits of an element with -0 made +0 and every NaN the canonical one. -/
def canonElem (fmt v : Nat) : Nat :=
  match floatParams fmt with
  | none => v
  | some _ => match floatVal fmt v with
    | .nan => canonNan fmt
    | .fin _ 0 _ => 0
    | _ => v

/-- The canonical bytes of a field. -/
def canonField (t : SEnt) : List Byte :=
  if t.shape = 3 then leBytes 4 t.data.length ++ t.data
  else if (floatParams t.fmt).isNone then t.data
  else (chunks (elemBytes t.w) t.data).flatMap (fun e => leBytes e.length (canonElem t.fmt (leNat e)))

/-- The canonical bytes of a key, if the record carries its fields. -/
def canonKey (r : DRec) (streams : List Nat) : Option (List Byte) :=
  (streams.mapM (streamOf r)).map (fun ts => (ts.map canonField).flatten)

/-- The value of a scalar entry. -/
def scalarVal (t : SEnt) : Num := fmtVal t.fmt t.w (leNat (t.data.take (elemBytes t.w)))

/-- The parameters of a stage's operator section (Table 8.1). -/
def operatorSection (s : State) (x : Ctx) : List Byte := paramSection s x 3 32

/-! ## The Hatch (R198, R199) -/

/-- A Hatch entry (Table 8.3) and the reef whose lagoon holds its boundary list. -/
structure HatchOp where
  fn : Nat
  out : Nat
  n : Nat
  keys : List Nat
  seed : W64
  base : Nat
  width : Nat
  list : Nat
  len : Nat
  nanBucket : Nat
  deriving DecidableEq, Repr

/-- The entry of a record. -/
def hatchOf (r : PRec) : HatchOp :=
  let b := r.body
  { fn := u8At b 0, out := u8At b 2, n := u32At b 4, keys := (List.range (min 8 (u8At b 1))).map (fun i => u8At b (8 + i)),
    seed := BitVec.ofNat 64 (u64At b 16), base := u32At b 24, width := u32At b 28,
    list := shareKey (8 * r.island + r.reef) (u32At b 32), len := u16At b 36, nanBucket := u32At b 40 }

/-- ⌊value⌋ of a finite value over a positive finite one. -/
def floorDiv (a b : Num) : Int :=
  match a, b with
  | .fin s n d, .fin _ m e => if m = 0 then 0 else (if s then -((n * e : Nat) : Int) else ((n * e : Nat) : Int)) / ((d * m : Nat) : Int)
  | _, _ => 0

/-- What an entry gives: the element, and whether it is a NaN key's bucket or clamped. -/
structure HatchOut where
  v : Nat
  nan : Bool
  clamped : Bool
  deriving DecidableEq, Repr

/-- The fixed-width bucket. -/
def fixedBucket (e : HatchOp) (x : Num) : HatchOut :=
  match x with
  | .nan => { v := e.nanBucket, nan := true, clamped := false }
  | .inf s => { v := if s then 0 else e.n - 1, nan := false, clamped := true }
  | x =>
    let q := floorDiv (x.add (floatVal 10 e.base).neg) (floatVal 10 e.width)
    if q < 0 then { v := 0, nan := false, clamped := true }
    else if (e.n : Int) ≤ q then { v := e.n - 1, nan := false, clamped := true }
    else { v := q.toNat, nan := false, clamped := false }

/-- The boundary bucket over a list's values. -/
def boundaryBucket (e : HatchOp) (bs : List Num) (x : Num) : HatchOut :=
  if x = .nan then { v := e.nanBucket, nan := true, clamped := false }
  else { v := (bs.filter (fun b => !x.lt b)).length, nan := false, clamped := false }

/-- The boundary list of an entry. -/
def boundaries (s : State) (e : HatchOp) : List Num := (List.range e.len).map (fun i => floatVal 10 (leNat (readMem s (e.list + 4 * i) 4)))

/-- An entry's result on a record that carries its key; `bs` is its boundary list. -/
def hatchEntry (sip : List Byte) (e : HatchOp) (bs : List Num) (r : DRec) : Option HatchOut :=
  match canonKey r e.keys with
  | none => none
  | some k =>
    let plain := fun (v : Nat) => some ({ v := v, nan := false, clamped := false } : HatchOut)
    match e.fn with
    | 1 => plain (crc32c k).toNat
    | 2 => plain (sipHash sip k).toNat
    | 3 => plain (akh64 k e.seed).toNat
    | 6 => plain ((akh64 k e.seed).toNat * e.n / 2 ^ 64)
    | f =>
      match (e.keys.head?).bind (streamOf r) with
      | none => none
      | some t => some (if f = 4 then fixedBucket e (scalarVal t) else boundaryBucket e bs (scalarVal t))

/-- Bits of an entry's output element. -/
def hatchWidth (fn : Nat) : Nat := if fn = 2 ∨ fn = 3 then 64 else 32

/-- Every entry on one record; the counts are of results, NaN buckets and clamped results. -/
def hatchRecord (sip : List Byte) (es : List (HatchOp × List Num)) (r : DRec) (c : Nat × Nat × Nat) : DRec × (Nat × Nat × Nat) :=
  es.foldl (fun a e =>
    match hatchEntry sip e.1 e.2 a.1 with
    | none => a
    | some o => (setStream e.1.out (scalarEnt 1 (hatchWidth e.1.fn) o.v) a.1,
        (a.2.1 + 1, a.2.2.1 + o.nan.toNat, a.2.2.2 + o.clamped.toNat))) (r, c)

/-- A function with counts over the sound records of a list. -/
def eachSound {γ : Type} (f : DRec → γ → DRec × γ) : List DRec → γ → List DRec × γ
  | [], c => ([], c)
  | r :: t, c =>
    let (r1, c1) := if sound r then f r c else (r, c)
    let (t1, c2) := eachSound f t c1
    (r1 :: t1, c2)

/-- The Hatch stage of a descriptor. -/
def hatchStage (x : Ctx) (s : State) : State :=
  let es := (recKinds x.rs 6).map hatchOf
  let acc := firstCode (es.map (fun e => if e.fn = 5 then areaCode s e.list (4 * e.len) else cOk))
  if acc ≠ 0 then runPut x.num (runReads s ((es.filter (fun e => decide (e.fn = 5))).map (fun e => (e.list, 4 * e.len))) cInputLost acc x.run) s
  else
    let (rs, c) := eachSound (hatchRecord ((operatorSection s x).take 16) (es.map (fun e => (e, boundaries s e)))) x.run.recs (0, 0, 0)
    bumpReef x 26 c.1 (bumpReef x 27 c.2.1 (bumpReef x 28 c.2.2
      (runPut x.num (stageDid x 6 { x.run with recs := rs }) s)))

/-- HATCH_STAGE. -/
def execHatchStage (r : RunRef) (s : State) : Host.Outcome State Fault Refusal :=
  .next (unitRun 6 r.chan.toNat r.seq.toNat hatchStage s)

/-! ## Statistics (R201, R576) -/

/-- A value rounded to FP32 toward −∞ (or +∞). -/
def fp32Toward (up : Bool) (x : Num) : Nat :=
  let t := toFloat 10 .rtz false x
  let v := floatVal 10 t
  if up then (if v.lt x then t + 1 else t) else (if x.lt v then (if t = 0 then 0x80000001 else t + 1) else t)

/-- One feature as it is gathered. -/
structure Feature where
  sum : Wxa
  sq : Wxa
  lo : Num
  hi : Num
  deriving DecidableEq, Repr

/-- A feature with no terms (R576). -/
def Feature.init : Feature := { sum := Wxa.init, sq := { Wxa.init with square := true }, lo := .nan, hi := .nan }

/-- A term enters a feature. -/
def Feature.enter (f : Feature) (t : Num) : Feature :=
  let fin := match t with | .fin .. => true | _ => false
  { sum := wxaEnter false t f.sum, sq := wxaEnter false t f.sq,
    lo := if fin then (if pickFirst false f.lo t then f.lo else t) else f.lo,
    hi := if fin then (if pickFirst true f.hi t then f.hi else t) else f.hi }

/-- The 160 bytes of a feature. -/
def Feature.bytes (f : Feature) : List Byte :=
  wxaImage f.sum ++ wxaImage f.sq
    ++ leBytes 4 (if f.lo = .nan then canonNan 10 else fp32Toward false f.lo)
    ++ leBytes 4 (if f.hi = .nan then canonNan 10 else fp32Toward true f.hi) ++ zeros 24

/-- The streams that are features: those of numbers that some sound record carries, in ascending order, less the length
entries of lists (DESIGN CHOICE, notes/assumptions/14.md). -/
def featureStreams (rs : List DRec) : List Nat :=
  let carry := fun (n : Nat) => rs.any (fun r => sound r && (match streamOf r n with
    | some t => decide (t.shape ≠ 3) && (n = 0 || (match streamOf r (n - 1) with
        | some p => decide (p.shape ≠ 1) && decide (p.shape ≠ 3)
        | none => true))
    | none => false))
  (List.range 63).filter carry

/-- A feature's terms over the records. -/
def gatherFeature (rs : List DRec) (n : Nat) : Feature :=
  (rs.filter sound).foldl (fun f r =>
    match streamOf r n with
    | none => f
    | some t => (chunks (elemBytes t.w) t.data).foldl (fun g e => g.enter (fmtVal t.fmt t.w (leNat e))) f) Feature.init

/-- A statistics image (Table 8.4). -/
def statsImage (fs : List Feature) : List Byte :=
  let front := leBytes 4 0x534E4B41 ++ leBytes 2 1 ++ leBytes 2 fs.length ++ zeros 52
  let body := (fs.map Feature.bytes).flatten
  front ++ leBytes 4 (crc32c (front ++ body)).toNat ++ body

/-- The gathering stage of a descriptor: the image is staged for the commit. -/
def statsStage (x : Ctx) (s : State) : State :=
  let ns := featureStreams x.run.recs
  let img := statsImage ((if ns = [] then [0] else ns).map (gatherFeature x.run.recs))
  let i := roundUp img.length 32
  match engineRec x.rs with
  | none => runPut x.num (stageDid x kindStats x.run) s
  | some e =>
    let r := e.auxLen / (4096 * i)
    match areaAddr x e.auxRegion e.auxOff with
    | none => runPut x.num (runFail cOutOfBounds x.run) s
    | some a =>
      if r = 0 then runPut x.num (runFail cOutOfBounds x.run) s
      else
        let at_ := a + i * (x.chan * r + x.seq % r)
        runPut x.num (stageDid x kindStats { x.run with eff := x.run.eff ++ [Eff.bytes at_ (padTo 32 img)] }) s

/-- STATS_GATHER. -/
def execStatsGather (r : RunRef) (s : State) : Host.Outcome State Fault Refusal :=
  .next (unitRun kindStats r.chan.toNat r.seq.toNat statsStage s)

/-! ## Exact roots and logarithms -/

/-- ⌊√n⌋, bit by bit. -/
def isqrt (n : Nat) : Nat :=
  ((List.range (n.log2 / 2 + 1)).reverse).foldl (fun r b => if (r + 2 ^ b) * (r + 2 ^ b) ≤ n then r + 2 ^ b else r) 0

/-- A magnitude that rounds to FP32 as √(n ÷ d) does: its floor at 2^-p with a bit below for an inexact root, where p leaves the
floor more than 30 bits. -/
def rootNum (n d : Nat) : Num :=
  let p := 200 + d.log2
  let m := n * 2 ^ (2 * p) / d
  let t := isqrt m
  if t * t * d = n * 2 ^ (2 * p) then .fin false t (2 ^ p) else .fin false (2 * t + 1) (2 ^ (p + 1))

/-- Bits of the fixed point in which log1p is summed. -/
def logBits : Nat := 480

/-- atanh(a ÷ b) for |a ÷ b| ≤ 1/3, in units of 2^-480, by its series. -/
def atanhFix (a : Int) (b : Nat) : Int :=
  let z := a * ((2 ^ logBits : Nat) : Int) / (b : Int)
  let z2 := z * z / ((2 ^ logBits : Nat) : Int)
  ((List.range 160).foldl (fun (acc : Int × Int) k =>
    (acc.1 + acc.2 / ((2 * k + 1 : Nat) : Int), acc.2 * z2 / ((2 ^ logBits : Nat) : Int))) (0, z)).1

/-- log(n ÷ d) for n, d above 0, in units of 2^-480: k log 2 + log m with m from 3/4 up to 3/2. -/
def logFix (n d : Nat) : Int :=
  let g := ilog2 n d
  let k := if 0 ≤ g then (if 3 * d * 2 ^ g.toNat ≤ 2 * n then g + 1 else g) else (if 3 * d ≤ 2 * n * 2 ^ (-g).toNat then g + 1 else g)
  let (m, e) := if 0 ≤ k then (n, d * 2 ^ k.toNat) else (n * 2 ^ (-k).toNat, d)
  2 * atanhFix ((m : Int) - (e : Int)) (m + e) + k * (2 * atanhFix 1 3)

/-- log1p of a value (R204), to far more bits than any format's rounding can tell apart. -/
def log1p (x : Num) : Num :=
  match x with
  | .nan => .nan
  | .inf s => if s then .nan else .inf false
  | .fin s n d =>
    if n = 0 then x
    else if s then
      if d < n then .nan
      else if d = n then .inf true
      else .fin true (logFix (d - n) d).natAbs (2 ^ logBits)
    else .fin false (logFix (d + n) d).natAbs (2 ^ logBits)

/-! ## Normalisation (R202-R204) -/

/-- A normalisation entry (Table 8.5). -/
structure NormOp where
  kind : Nat
  clip : Bool
  nanRep : Bool
  stream : Nat
  fmt : Nat
  feature : Nat
  eps : Nat
  lo : Nat
  hi : Nat
  nanVal : Nat
  deriving DecidableEq, Repr

/-- The entry of 32 bytes. -/
def normOf (b : List Byte) : NormOp :=
  { kind := u8At b 0, clip := bit (u8At b 1) 0, nanRep := bit (u8At b 1) 1, stream := u8At b 2, fmt := u8At b 3,
    feature := u16At b 4, eps := u32At b 8, lo := u32At b 12, hi := u32At b 16, nanVal := u32At b 20 }

/-- Feature `f` of an image: SUM, SQ, MIN and MAX. -/
def featureOf (img : List Byte) (f : Nat) : Wxa × Wxa × Num × Num :=
  let b := img.drop (64 + 160 * f)
  (wxaOfImage (b.take 64), wxaOfImage ((b.drop 64).take 64), floatVal 10 (u32At b 0x80), floatVal 10 (u32At b 0x84))

/-- The image passes R202 for the features that entries name. -/
def statsImageOk (img : List Byte) (fs : List Nat) : Bool :=
  let n := u16At img 6
  decide (u32At img 0 = 0x534E4B41) && decide (u16At img 4 = 1)
    && decide (u32At img 0x3C = (crc32c (img.take 0x3C ++ img.drop 0x40)).toNat) && fs.all (fun f => decide (f < n))
    && fs.all (fun f =>
      let (a, q, _, _) := featureOf img f
      !a.square && q.square && !a.full && !q.full && decide (a.terms = q.terms))

/-- The quotient of two values, the second a positive magnitude. -/
def Num.quot (a : Num) (n d : Nat) : Num :=
  match a with
  | .fin s m e => .fin s (m * d) (e * n)
  | y => y

/-- A value rounded to FP32 by RNE with SAT. -/
def satFp32 (x : Num) : Num := floatVal 10 (toFloat 10 .rne true x)

/-- The offset and scale of an entry (R203). -/
def normParams (e : NormOp) (img : List Byte) : Num × Num :=
  let (a, q, lo, hi) := featureOf img e.feature
  let n := a.terms
  if n = 0 then (Num.zero, ofInt 1)
  else if e.kind = 1 then
    let s1 := wxaVal a
    let s2 := wxaVal q
    let v := ((s2.mul (ofInt n)).add (s1.mul s1).neg).quot (n * n) 1
    let w := match v with | .fin true _ _ => Num.zero | y => y
    let o := if a.acc = 0 then Num.zero else satFp32 (s1.neg.quot n 1)
    let t := match w.add (floatVal 10 e.eps) with
      | .fin _ 0 _ => Num.zero
      | .fin _ m d => satFp32 (rootNum d m)
      | _ => Num.zero
    (o, t)
  else if lo = .nan then (Num.zero, ofInt 1)
  else
    let t := match hi.add lo.neg with
      | .fin s m d => if m = 0 then Num.zero else satFp32 (.fin s d m)
      | _ => Num.zero
    (satFp32 lo.neg, t)

/-- An entry's result on an element: bits in OUT_FORMAT (R204). -/
def normElem (e : NormOp) (o t x : Num) : Nat :=
  let y := if e.kind = 3 then log1p x else (x.add o).mul t
  let r := toFloat e.fmt .rne false y
  let v := floatVal e.fmt r
  let cl := if e.clip && v.lt (floatVal 10 e.lo) then toFloat e.fmt .rne false (floatVal 10 e.lo)
    else if e.clip && (floatVal 10 e.hi).lt v then toFloat e.fmt .rne false (floatVal 10 e.hi) else r
  if e.nanRep && decide (v = .nan) then toFloat e.fmt .rne false (floatVal 10 e.nanVal) else cl

/-- Every entry on one record; an entry on a stream that is not carried, or not of FP32, BF16 or FP16, does nothing. -/
def normRecord (es : List (NormOp × Num × Num)) (r : DRec) : DRec :=
  es.foldl (fun r e =>
    match streamOf r e.1.stream with
    | none => r
    | some t =>
      if e.1.kind = 0 || t.shape = 3 || !(t.fmt = 8 || t.fmt = 9 || t.fmt = 10) then r
      else
        let w := fmtWidth e.1.fmt 0
        let data := (chunks (elemBytes t.w) t.data).flatMap (fun b => elemOf e.1.fmt w (normElem e.1 e.2.1 e.2.2 (fmtVal t.fmt t.w (leNat b))))
        let r1 := setStream e.1.stream { t with fmt := e.1.fmt, w := w, data := data } r
        if t.shape = 1 then setStream (e.1.stream + 1) (lengthEnt data.length) r1 else r1) r

/-- The statistics image that a stage's entries need, or how its reading fails (R202). -/
def readStats (s : State) (x : Ctx) (a : W64) (fs : List Nat) : Except W16 (List Byte) :=
  if fs = [] then .ok []
  else if a.toNat % 32 ≠ 0 || !refOk s x.p x.c x.st a 64 1 then .error 0x7104
  else
    let n := 64 + 160 * u16At (readMem s (localOf a) 64) 6
    if !refOk s x.p x.c x.st a n 1 then .error 0x7104
    else match areaCode s (localOf a) n with
      | 0 =>
        let img := readMem s (localOf a) n
        if statsImageOk img fs then .ok img else .error 0x7104
      | c => .error c

/-- The normalisation stage of a descriptor. -/
def normaliseStage (x : Ctx) (s : State) : State :=
  let es := (recKinds x.rs 7).map (fun r => normOf r.body)
  let fs := (es.filter (fun e => decide (e.kind = 1) || decide (e.kind = 2))).map (·.feature)
  match readStats s x (BitVec.ofNat 64 (u64At (operatorSection s x) 16)) fs with
  | .error c =>
    let a := u64At (operatorSection s x) 16 % 2 ^ 52
    runPut x.num (runReads s [(a, 64 + 160 * u16At (readMem s a 64) 6)] cInputLost c x.run) s
  | .ok img =>
    let ps := es.map (fun e => (e, normParams e img))
    let rs := x.run.recs.map (fun r => if sound r then normRecord ps r else r)
    runPut x.num (stageDid x 7 { x.run with recs := rs }) s

/-- NORMALISE. -/
def execNormalise (r : RunRef) (s : State) : Host.Outcome State Fault Refusal :=
  .next (unitRun 7 r.chan.toNat r.seq.toNat normaliseStage s)

end Sys2Proof.Machine
end

