-- ==== Sys2Proof/Machine/Shuffle.lean ====
section
/-! DEFINITION. SHUFFLE_FEED, CENSUS, SEAL, DELIVER and STAGING_SLOT_WRITE: the kept directory, the permutation, staging slots,
reserve replacement and manifests (09; 06 R168-R172). -/

namespace Sys2Proof.Machine

/-! ## The permutation (R223-R225) -/

/-- The round keys of a job seed and epoch. -/
def shufKeys (seed : W64) (epoch : Nat) : List W64 :=
  (List.range 4).map (fun i => akh64 (leBytes 8 seed.toNat ++ leBytes 4 epoch) (BitVec.ofNat 64 i))

/-- ⌈log2 m⌉. -/
def clog2 (m : Nat) : Nat := if m ≤ 1 then 0 else (m - 1).log2 + 1

/-- Half the cipher's bits. -/
def shufHalf (m : Nat) : Nat := max 1 ((clog2 m + 1) / 2)

/-- A round function. -/
def fround (ks : List W64) (i r h : Nat) : Nat := (akh64 (leBytes 8 r) (ks.getD i 0)).toNat % 2 ^ h

/-- The cipher E. -/
def shufFwd (ks : List W64) (h x : Nat) : Nat :=
  let p := (List.range 4).foldl (fun (p : Nat × Nat) i => (p.2, p.1 ^^^ fround ks i p.2 h)) (x / 2 ^ h, x % 2 ^ h)
  p.1 * 2 ^ h + p.2

/-- Its inverse. -/
def shufInv (ks : List W64) (h x : Nat) : Nat :=
  let p := [3, 2, 1, 0].foldl (fun (p : Nat × Nat) i => (p.2 ^^^ fround ks i p.1 h, p.1)) (x / 2 ^ h, x % 2 ^ h)
  p.1 * 2 ^ h + p.2

/-- Cycle-walking: `e` applied while the value is `m` or more, with the number of steps beyond the first. -/
def shufWalk (e : Nat → Nat) (m : Nat) : Nat → Nat → Nat × Nat
  | 0, y => (y, 0)
  | f + 1, y => if y < m then (y, 0) else let (z, n) := shufWalk e m f (e y); (z, n + 1)

/-- π: position to rank. -/
def shufPi (ks : List W64) (m p : Nat) : Nat × Nat :=
  let h := shufHalf m
  shufWalk (shufFwd ks h) m (2 ^ (2 * h)) (shufFwd ks h p)

/-- π's inverse: rank to position. -/
def shufPiInv (ks : List W64) (m r : Nat) : Nat × Nat :=
  let h := shufHalf m
  shufWalk (shufInv ks h) m (2 ^ (2 * h)) (shufInv ks h r)

/-! ## Section, entry and directory (R221, R227, R228) -/

/-- The shuffle section (Table 9.2). -/
structure ShufSec where
  epoch : Nat
  role : Nat
  batch : Nat
  dir : W64
  base : Nat
  count : Nat
  batches : Nat
  rsvd : Bool
  deriving DecidableEq, Repr

/-- The section of 64 bytes. -/
def shufSecOf (b : List Byte) : ShufSec :=
  { epoch := u32At b 0, role := u8At b 4, batch := u64At b 8, dir := BitVec.ofNat 64 (u64At b 16), base := u64At b 24,
    count := u64At b 32, batches := u64At b 40, rsvd := zeroAt b 5 3 && zeroAt b 48 16 }

/-- A destination of the owner list. -/
structure Owner where
  node : Nat
  island : Nat
  region0 : Nat
  region1 : Nat
  deriving DecidableEq, Repr

/-- A shuffle entry (02 Table 2.15, 0x000A). -/
structure ShufOp where
  b : Nat
  q : Nat
  slotBytes : Nat
  region : Nat
  owners : List Owner
  deriving DecidableEq, Repr

/-- The entry of a record's body. -/
def shufOf (b : List Byte) : ShufOp :=
  { b := u32At b 0, q := u8At b 4, slotBytes := u32At b 8, region := u64At b 16,
    owners := (List.range (u16At b 6)).map (fun i =>
      let o := 32 + 24 * i
      { node := u16At b o, island := u8At b (o + 2), region0 := u64At b (o + 8) % 2 ^ 52, region1 := u64At b (o + 16) % 2 ^ 52 }) }

/-- Bytes of a kept directory of SPAN indices. -/
def dirBytes (span : Nat) : Nat := 128 + 544 * (span / 4096)

/-- The fields keep Table 9.2 and the first two cases of R228. -/
def shufSecOk (c : ShufSec) : Bool :=
  c.rsvd && decide (c.role ≤ 3) && (c.role = 3 || decide (c.batch = 0)) && decide (c.dir.toNat % 32 = 0)
    && (if c.dir = 0 then decide (c.role = 0 || c.role = 3) && decide (1 ≤ c.count) && decide (c.count ≤ 2 ^ 62)
        else decide (c.base = 0) && decide (c.count = 0))

/-- The directory passes R228 for the section's role. -/
def dirOk (s : State) (x : Ctx) (c : ShufSec) : Bool :=
  let writes := c.role = 1 || c.role = 2
  let ok := fun (n : Nat) => refOk s x.p x.c x.st c.dir n 1 && (!writes || refOk s x.p x.c x.st c.dir n 2)
  ok 128 &&
    (let h := readMem s (localOf c.dir) 128
     let span := u64At h 16
     decide (u32At h 0 = 0x44534B41) && decide (u16At h 4 = 1) && decide (u16At h 6 ≤ 1) && zeroAt h 0x40 60
       && decide (span % 4096 = 0) && decide (4096 ≤ span) && decide (span ≤ 2 ^ 62) && ok (dirBytes span)
       && (writes || (decide (u16At h 6 = 1) && decide (u32At h 0x7C = (crc32c (h.take 0x7C)).toNat)))
       && (decide (c.role ≠ 1) || decide (u16At h 6 = 0)))

/-- M of a feed or deliver descriptor. -/
def shufM (s : State) (c : ShufSec) : Nat := if c.dir = 0 then c.count else u64At (readMem s (localOf c.dir) 128) 24

/-- B. -/
def shufB (e : ShufOp) (c : ShufSec) (m : Nat) : Nat := if c.batches = 0 then m / (e.b + e.q) else c.batches

/-- The owner of a batch. -/
def shufOwner (e : ShufOp) (k : Nat) : Option Owner := e.owners[k % e.owners.length]?

/-- The owner is this device. -/
def ownerHere (s : State) (o : Owner) : Bool := nodeLocal s (BitVec.ofNat 64 (o.node * 2 ^ 52))

/-- The limits of R228 that need M. -/
def shufLimits (s : State) (e : ShufOp) (c : ShufSec) : Bool :=
  if c.role = 1 ∨ c.role = 2 then true
  else
    let m := shufM s c
    let b := shufB e c m
    decide (b * (e.b + e.q) ≤ m) && decide (ceilDiv b e.owners.length * (e.b + e.q) * e.slotBytes ≤ e.region)
      && (decide (c.role = 0) || (decide (c.batch < b) && (match shufOwner e c.batch with
        | some o => ownerHere s o
        | none => false)))

/-- Local address of slot `j` of batch `k` in epoch `ep` (R230). -/
def slotAddr (e : ShufOp) (ep k j : Nat) : Nat :=
  match shufOwner e k with
  | none => 0
  | some o => (if ep % 2 = 0 then o.region0 else o.region1) + (k / e.owners.length * (e.b + e.q) + j) * e.slotBytes

/-- The word of a bitmap's bytes below a bit counted, and the bit itself. -/
def popBelow (bs : List Byte) (n : Nat) : Nat := ((List.range n).filter (fun i => bit (leNat bs) i)).length

/-- The rank of a kept sample (R220, R221); nothing for one that is not kept. -/
def shufRank (s : State) (c : ShufSec) (x : Nat) : Option Nat :=
  if c.dir = 0 then (if c.base ≤ x ∧ x < c.base + c.count then some (x - c.base) else none)
  else
    let a := localOf c.dir
    let h := readMem s a 32
    let base := u64At h 8
    if x < base ∨ base + u64At h 16 ≤ x then none
    else
      let blk := a + 128 + 544 * ((x - base) / 4096)
      let i := (x - base) % 4096
      if !bit (readByte s (blk + 32 + i / 8)).toNat (i % 8) then none
      else
        let below := (readMem s (blk + 32) (i / 8)).foldl (fun n b => n + popBelow [b] 8) 0
          + popBelow [readByte s (blk + 32 + i / 8)] (i % 8)
        some (leNat (readMem s blk 8) + below)

/-! ## Record data of a slot (DESIGN CHOICE, notes/assumptions/16.md) -/

/-- A record's entries as bytes: for each stream its number, shape, format and width, its length, its data. -/
def slotRecord (r : DRec) : List Byte :=
  r.streams.flatMap (fun p => leBytes 1 p.1 ++ leBytes 1 p.2.shape ++ leBytes 1 p.2.fmt ++ leBytes 1 p.2.w
    ++ leBytes 4 p.2.data.length ++ p.2.data)

/-- The entries that such bytes spell. -/
def slotStreams : Nat → List Byte → SMap SEnt
  | 0, _ => []
  | _, [] => []
  | f + 1, b =>
    let n := u32At b 4
    (u8At b 0, { shape := u8At b 1, fmt := u8At b 2, w := u8At b 3, data := (b.drop 8).take n }) :: slotStreams f (b.drop (8 + n))

/-- A slot header (Table 9.3). -/
def slotHeader (epoch : Nat) (reason : W16) (sample len : Nat) : List Byte :=
  leBytes 4 epoch ++ leBytes 2 reason.toNat ++ leBytes 2 1 ++ leBytes 8 sample ++ leBytes 4 len ++ zeros 12

/-- The slot holds FILLED contents of an epoch whose successor but one must wait for its delivery (R231). -/
def slotBlocked (s : State) (slot slot0 epoch : Nat) : Bool :=
  let h := readMem s slot 8
  decide (2 ≤ epoch) && bit (u16At h 6) 0 && decide (u32At h 0 + 2 = epoch) && decide (mget 0 s.delivered slot0 < epoch - 1)

/-! ## Feed (R229-R231) -/

/-- Where a record goes: the batch and offset of its position. -/
inductive Placed where
  | notKept
  | unused (walks : Nat)
  | at_ (k j walks : Nat)
  deriving DecidableEq, Repr

/-- The place of a sample (R229). -/
def shufPlace (s : State) (e : ShufOp) (c : ShufSec) (ks : List W64) (x : Nat) : Placed :=
  match shufRank s c x with
  | none => .notKept
  | some r =>
    let m := shufM s c
    let b := shufB e c m
    let (p, w) := shufPiInv ks m r
    let n := b * e.b
    if p < n then .at_ (p / e.b) (p % e.b) w
    else if p < n + b * e.q then .at_ ((p - n) / e.q) (e.b + (p - n) % e.q) w
    else .unused w

/-- A slot write of a feed. -/
structure SlotWrite where
  slot : Nat
  slot0 : Nat
  node : Nat
  here : Bool
  head : List Byte
  body : List Byte
  deriving DecidableEq, Repr

/-- The slot write of a record with a place (R230). -/
def slotWrite (s : State) (e : ShufOp) (ep k j : Nat) (r : DRec) : SlotWrite :=
  let body := if sound r then slotRecord r else []
  let big := decide (e.slotBytes - 32 < body.length)
  let reason := if big then rList else r.reason
  let body := if big then [] else body
  let o := (shufOwner e k).getD { node := 0, island := 0, region0 := 0, region1 := 0 }
  { slot := slotAddr e ep k j, slot0 := slotAddr e ep k 0, node := o.node, here := ownerHere s o,
    head := slotHeader ep reason r.idx body.length, body := body }

/-- The deferred effects of a slot write: its header here, its operations to another owner (R230, 17 Table 17.3). -/
def slotEffs (ep reef : Nat) (w : SlotWrite) : List Eff :=
  if w.here then [Eff.slotHead w.slot ep reef w.head]
  else
    let at_ := fun (a : Nat) => BitVec.ofNat 64 (w.node * 2 ^ 52 + a)
    ((chunks 4096 w.body).zipIdx.map (fun p => Eff.peer w.node 0x02 (at_ (w.slot + 32 + 4096 * p.2)) 0 0 p.1))
      ++ (if w.body = [] then [] else [Eff.peer w.node 0x09 0 0 0 []]) ++ [Eff.peer w.node 0x02 (at_ w.slot) 0 0 w.head]

/-- Marks, in a run's `did`, that its slot writes have been found waiting, so that they count once. -/
def waitMark : Nat := 0x2000

/-- The feed stage. -/
def feedStage (x : Ctx) (e : ShufOp) (c : ShufSec) (s : State) : State :=
  let ks := shufKeys (jobSeed s x) c.epoch
  let ps := x.run.recs.map (fun r => (r, shufPlace s e c ks r.idx))
  let ws := ps.filterMap (fun p => match p.2 with | .at_ k j _ => some (slotWrite s e c.epoch k j p.1) | _ => none)
  let blocked := (ws.filter (fun w => w.here && slotBlocked s w.slot w.slot0 c.epoch)).length
  if blocked ≠ 0 then
    if nmem x.run.did waitMark then s
    else bumpReef x 40 blocked (runPut x.num { x.run with did := nadd x.run.did waitMark } s)
  else
    let live := ws.filter (fun w => !w.here || decide (leNat (readMem s w.slot 4) ≤ c.epoch))
    let acc := firstCode ((live.filter (·.here)).map (fun w => engWrite s x.p x.c x.st w.slot (32 + w.body.length)))
    if acc ≠ 0 then runPut x.num (runAccess cOutputLost acc x.run) s
    else
      let s1 := (live.filter (·.here)).foldl (fun s w => if w.body = [] then s else writeMem (w.slot + 32) w.body s) s
      let walks := ps.foldl (fun n p => n + (match p.2 with | .at_ _ _ w => w | .unused w => w | .notKept => 0)) 0
      let unused := (ps.filter (fun p => match p.2 with | .unused _ => true | _ => false)).length
      let notKept := (ps.filter (fun p => decide (p.2 = .notKept))).length
      let r := { x.run with recs := [], eff := x.run.eff ++ live.flatMap (slotEffs c.epoch x.reef) }
      bumpReef x 35 (ps.length - notKept) (bumpReef x 36 walks (bumpReef x 37 unused (bumpReef x 38 notKept
        (bumpReef x 39 (ws.length - live.length) (runPut x.num (stageDid x 10 r) s1)))))

/-! ## Census and seal (R222) -/

/-- The census stage: a bit for every record, whether kept or corrupt, and the plate digest. -/
def censusStage (x : Ctx) (c : ShufSec) (s : State) : State :=
  let a := localOf c.dir
  let h := readMem s a 32
  let base := u64At h 8
  let bits_ := x.run.recs.filterMap (fun r =>
    if r.idx < base ∨ base + u64At h 16 ≤ r.idx then none
    else
      let i := r.idx - base
      some (Eff.orByte (a + 128 + 544 * (i / 4096) + 32 + i % 4096 / 8) (BitVec.ofNat 8 (2 ^ (i % 8)))))
  let r := { x.run with eff := x.run.eff ++ Eff.bytes (a + 0x20) (digestBytes x.p.digest) :: bits_ }
  runPut x.num (stageDid x 10 r) s

/-- PREFIX of every block in turn, and the count of all. -/
def sealBlocks (s : State) (a : Nat) : Nat → Nat → Nat → List Eff × Nat
  | 0, _, kept => ([], kept)
  | n + 1, j, kept =>
    let blk := a + 128 + 544 * j
    let k := (readMem s (blk + 32) 512).foldl (fun n b => n + popBelow [b] 8) 0
    let (es, m) := sealBlocks s a n (j + 1) (kept + k)
    (Eff.bytes blk (leBytes 8 kept) :: es, m)

/-- The seal stage. -/
def sealStage (x : Ctx) (c : ShufSec) (s : State) : State :=
  let a := localOf c.dir
  let h := readMem s a 128
  let span := u64At h 16
  match areaCode s a (dirBytes span) with
  | 0 =>
    let (es, m) := sealBlocks s a (span / 4096) 0 0
    let h1 := patch (patch h 6 (leBytes 2 1)) 24 (leBytes 8 m)
    let h2 := patch h1 0x7C (leBytes 4 (crc32c (h1.take 0x7C)).toNat)
    runPut x.num (stageDid x 10 { x.run with eff := x.run.eff ++ Eff.bytes a h2 :: es }) s
  | k => runPut x.num (runReads s [(a, dirBytes span)] cInputLost k x.run) s

/-! ## Deliver (R232; 06 R168-R172) -/

/-- A slot as deliver reads it: FILLED in the epoch, its REASON and its record. -/
structure SlotIn where
  ready : Bool
  item : DRec
  deriving DecidableEq, Repr

/-- The slot at a local address. -/
def slotRead (s : State) (epoch a : Nat) : SlotIn :=
  let h := readMem s a 32
  let n := u32At h 16
  let reason := BitVec.ofNat 16 (u16At h 4)
  { ready := bit (u16At h 6) 0 && decide (u32At h 0 = epoch),
    item := { idx := u64At h 8, reason := reason,
              streams := if reason = 0 then slotStreams (n + 1) (readMem s (a + 32) n) else [] } }

/-- A manifest entry (Table 6.9). -/
structure ManEntry where
  pos : Nat
  reason : W16
  reserve : Bool
  orig : Nat
  repl : Nat
  deriving DecidableEq, Repr

/-- An empty position (06 R169): it reaches no stage but the layout mover. -/
def emptyPos : DRec := { idx := 0, reason := 0x3005, streams := [] }

/-- The batch as it fills: samples, manifest entries, reserve samples used, positions filled from the reserve and left empty.
`none` where a reserve slot that is needed is not ready. -/
structure Fill where
  out : List DRec
  man : List ManEntry
  used : Nat
  filled : Nat
  unfilled : Nat
  deriving DecidableEq, Repr

/-- A position whose sample `r` is corrupt takes the next unused reserve samples (R168); `f` bounds their number. -/
def takeReserve (res : List SlotIn) (pos : Nat) : Nat → Bool → DRec → Fill → Option Fill
  | 0, _, _, a => some a
  | f + 1, reserve, r, a =>
    let e := fun (repl : Nat) => ({ pos := pos, reason := r.reason, reserve := reserve, orig := r.idx, repl := repl } : ManEntry)
    match res[a.used]? with
    | none => some { a with out := a.out ++ [emptyPos], man := a.man ++ [e 0xFFFFFFFFFFFFFFFF], unfilled := a.unfilled + 1 }
    | some n =>
      if !n.ready then none
      else
        let a1 := { a with man := a.man ++ [e n.item.idx], used := a.used + 1 }
        if n.item.reason = 0 then some { a1 with out := a1.out ++ [n.item], filled := a1.filled + 1 }
        else takeReserve res pos f true n.item a1

/-- The positions of a batch in ascending order. -/
def fillBatch (res : List SlotIn) : List (SlotIn × Nat) → Fill → Option Fill
  | [], a => some a
  | (n, pos) :: t, a =>
    if n.item.reason = 0 then fillBatch res t { a with out := a.out ++ [n.item] }
    else (takeReserve res pos (res.length + 1) false n.item a).bind (fillBatch res t)

/-- A manifest (Tables 6.8, 6.9). -/
def manifestBytes (limit epoch batch : Nat) (f : Fill) : List Byte :=
  let flags := (decide (limit < f.man.length)).toNat + 2 * (decide (f.unfilled ≠ 0)).toNat
    + 4 * (f.man.any (fun e => decide (e.reason = rDeadline))).toNat
  leBytes 4 0x464D4B41 ++ leBytes 2 1 ++ leBytes 2 flags ++ leBytes 4 f.man.length ++ leBytes 4 f.used ++ leBytes 4 epoch
    ++ zeros 4 ++ leBytes 8 batch
    ++ (f.man.take limit).flatMap (fun e =>
      leBytes 4 e.pos ++ leBytes 2 e.reason.toNat ++ leBytes 1 e.reserve.toNat ++ zeros 1 ++ leBytes 8 e.orig ++ leBytes 8 e.repl
        ++ zeros 8)

/-- The manifest effect of a batch (R172). -/
def manifestEff (x : Ctx) (epoch batch : Nat) (f : Fill) : List Eff :=
  match recKind x.rs 11, engineRec x.rs with
  | some m, some g =>
    let slots := u32At m.body 0
    let limit := u32At m.body 4
    (match areaAddr x g.auxRegion g.auxOff with
     | some a => if slots = 0 then [] else [Eff.bytes (a + batch % slots * (32 + 32 * limit)) (manifestBytes limit epoch batch f)]
     | none => [])
  | _, _ => []

/-- The deliver stage; `expired` tells that its wait has timed out. -/
def deliverStage (x : Ctx) (e : ShufOp) (c : ShufSec) (expired : Bool) (s : State) : State :=
  let addrs := (List.range (e.b + e.q)).map (slotAddr e c.epoch c.batch)
  match firstCode (addrs.map (fun a => engRead s x.p x.c x.st a e.slotBytes)) with
  | 0 =>
    let ins := addrs.map (slotRead s c.epoch)
    let nominal := ins.take e.b
    let fill := if nominal.all (·.ready) then
        fillBatch (ins.drop e.b) (nominal.zip (List.range e.b)) { out := [], man := [], used := 0, filled := 0, unfilled := 0 }
      else none
    (match fill with
     | none => if expired then runPut x.num (runFail cWaitTimeout x.run) s else s
     | some f =>
       let eff := manifestEff x c.epoch c.batch f ++ [Eff.delivered (addrs.headD 0) c.epoch x.reef]
       let r := { x.run with recs := f.out, recsIn := e.b + f.used, recsOut := e.b - f.unfilled, replaced := f.filled + f.unfilled,
                             eff := x.run.eff ++ eff }
       let r1 := if f.unfilled = 0 then r else runCode 0x3005 r
       bumpReef x 19 f.filled (bumpReef x 20 f.unfilled (runPut x.num (stageDid x 10 r1) s)))
  | k => runPut x.num (runReads s (addrs.map (fun a => (a, e.slotBytes))) cInputLost k x.run) s

/-! ## The rows -/

/-- A shuffle or batch stage in one of its roles (R228). -/
def shufRun (role : Nat) (f : Ctx → ShufOp → ShufSec → State → State) (r : RunRef) (s : State) : State :=
  unitRun 10 r.chan.toNat r.seq.toNat (fun x t =>
    match recKind x.rs 10 with
    | none => t
    | some rec =>
      let e := shufOf rec.body
      let c := shufSecOf (paramSection t x 4 64)
      if c.role ≠ role ∧ c.role ≤ 3 then t
      else if !shufSecOk c then runPut x.num (runFail 0x3201 x.run) t
      else if c.dir ≠ 0 && !dirOk t x c then runPut x.num (runFail 0x3202 x.run) t
      else if !shufLimits t e c then runPut x.num (runFail 0x3201 x.run) t
      else f x e c t) s

/-- SHUFFLE_FEED. -/
def execShuffleFeed (r : RunRef) (s : State) : Host.Outcome State Fault Refusal := .next (shufRun 0 feedStage r s)

/-- CENSUS. -/
def execCensus (r : RunRef) (s : State) : Host.Outcome State Fault Refusal :=
  .next (shufRun 1 (fun x _ c t => censusStage x c t) r s)

/-- SEAL. -/
def execSeal (r : RunRef) (s : State) : Host.Outcome State Fault Refusal :=
  .next (shufRun 2 (fun x _ c t => sealStage x c t) r s)

/-- DELIVER; `expired` tells that its wait has timed out (R232). -/
def execDeliver (r : RunRef) (expired : Bool) (s : State) : Host.Outcome State Fault Refusal :=
  .next (shufRun 3 (fun x e c t => deliverStage x e c expired t) r s)

/-- A slot write that reaches its owner: header and record of a slot, with the address of the batch's slot 0 (R231). `reef`
counts it. -/
def slotArrive (first : Bool) (reef slot slot0 : Nat) (data : List Byte) (s : State) : State :=
  let ep := u32At data 0
  if ep < leNat (readMem s slot 4) then bump (reefCnt reef 39) 1 s
  else if slotBlocked s slot slot0 ep then
    let t := { s with slotWaits := s.slotWaits ++ [(slot, slot0, data)] }
    if first then bump (reefCnt reef 40) 1 t else t
  else writeMem slot data s

/-- The reef that counts a write from another device: the first of the slot's island (notes/assumptions/13.md). -/
def slotReef (slot : Nat) : Nat := 8 * (homeIsland slot).getD 0

/-- Waiting slot writes tried again, in order. -/
def slotRetry (ws : List (Nat × Nat × List Byte)) (s : State) : State :=
  ws.foldl (fun s w => slotArrive false (slotReef w.1) w.1 w.2.1 w.2.2 s) { s with slotWaits := [] }

/-- A batch is delivered: later epochs may write its slots (R231). -/
def slotDelivered (slot0 epoch reef : Nat) (s : State) : State :=
  let t := bump (reefCnt reef 41) 1 { s with delivered := mset 0 s.delivered slot0 (max (mget 0 s.delivered slot0) (epoch + 1)) }
  slotRetry t.slotWaits t

/-- STAGING_SLOT_WRITE: `batch` is the address of the batch's slot 0. -/
def execStagingSlotWrite (slot batch : W64) (data : List Byte) (s : State) : Host.Outcome State Fault Refusal :=
  .next (slotArrive true (slotReef (localOf slot)) (localOf slot) (localOf batch) data s)

end Sys2Proof.Machine
end

