-- ==== Sys2Proof/Machine/Layout.lean ====
section
/-! DEFINITION. The layout mover: views, transforms and sequence packing (13 R314-R335). -/

namespace Sys2Proof.Machine

/-! ## Views (R314-R317) -/

/-- A tensor view (Table 13.1). -/
structure View where
  base : W64
  g32 : Bool
  fmt : Nat
  rank : Nat
  dims : List Nat
  strides : List Nat
  raw : List Byte
  deriving DecidableEq, Repr

/-- The view of 128 bytes. -/
def viewOf (b : List Byte) : View :=
  let n := u8At b 10
  { base := BitVec.ofNat 64 (u64At b 0), g32 := decide (u8At b 8 = 1), fmt := u8At b 9, rank := n,
    dims := (List.range n).map (fun d => u32At b (16 + 4 * d)), strides := (List.range n).map (fun d => u64At b (48 + 8 * d)),
    raw := b }

/-- The element width w (R314). -/
def View.w (v : View) : Nat := fmtWidth v.fmt 0

/-- Fields that break Table 13.1 or R315. -/
def View.ok (v : View) : Bool :=
  let b := v.raw
  decide (u8At b 8 ≤ 1) && decide (3 ≤ v.fmt) && decide (v.fmt ≤ 10) && decide (1 ≤ v.rank) && decide (v.rank ≤ 8)
    && zeroAt b 11 5 && zeroAt b (16 + 4 * v.rank) (4 * (8 - v.rank)) && zeroAt b (48 + 8 * v.rank) (8 * (8 - v.rank))
    && zeroAt b 0x70 16 && v.dims.all (fun d => decide (d ≠ 0)) && (v.g32 || decide (v.strides.getLastD 0 = 0))

/-- R317: base and strides are multiples of 32, and a G32 group stride is not zero. A RANK out of range breaks R320, not R317. -/
def View.aligned (v : View) : Bool :=
  decide (v.base.toNat % 32 = 0) && (v.rank = 0 || decide (8 < v.rank) || (v.strides.all (fun x => decide (x % 32 = 0))
    && (!v.g32 || decide (v.strides.getLastD 0 ≠ 0))))

/-- Channels of a vector group (R316). -/
def View.g (v : View) : Nat := 256 / v.w

/-- Size of the innermost dimension. -/
def View.inner (v : View) : Nat := v.dims.getLastD 1

/-- The sum over the outer dimensions of index times stride. -/
def outerOff (v : View) (is : List Nat) : Nat := ((is.dropLast).zip v.strides).foldl (fun a p => a + p.1 * p.2) 0

/-- Bit offset of an element from BASE (R315, R316). -/
def View.bitOff (v : View) (is : List Nat) : Nat :=
  let c := is.getLastD 0
  if v.g32 then 8 * (outerOff v is + c / v.g * v.strides.getLastD 0) + c % v.g * v.w else 8 * outerOff v is + c * v.w

/-- Bytes from BASE to the end of the footprint (R320). -/
def View.footprint (v : View) : Nat :=
  ((v.dims.dropLast).zip v.strides).foldl (fun a p => a + (p.1 - 1) * p.2) 0
    + (if v.g32 then (ceilDiv v.inner v.g - 1) * v.strides.getLastD 0 + 32 else ceilDiv (v.inner * v.w) 8)

/-- The coordinates of the `i`-th element in row-major order. -/
def coords : List Nat → Nat → List Nat
  | [], _ => []
  | d :: t, i =>
    let n := t.foldl (· * ·) 1
    (i / n % d) :: coords t i

/-- Elements of a view. -/
def View.size (v : View) : Nat := v.dims.foldl (· * ·) 1

/-! ## Transforms (R319-R322) -/

/-- A transform entry (Table 13.3). -/
structure Transform where
  src : View
  dst : View
  perm : List Nat
  mode : Nat
  pad : Nat
  origin : List Int
  raw : List Byte
  deriving DecidableEq, Repr

/-- The transform of 384 bytes. -/
def transformOf (b : List Byte) : Transform :=
  let s := viewOf (b.take 128)
  { src := s, dst := viewOf ((b.drop 128).take 128), perm := (List.range s.rank).map (fun d => u8At b (0x100 + d)),
    mode := u8At b 0x108, pad := u32At b 0x10C, origin := (List.range s.rank).map (fun d => sintOf 64 (u64At b (0x110 + 8 * d))),
    raw := b }

/-- Fields that break Table 13.3, or views that differ in RANK or FORMAT (R320). -/
def Transform.ok (t : Transform) : Bool :=
  t.src.ok && t.dst.ok && decide (t.src.rank = t.dst.rank) && decide (t.src.fmt = t.dst.fmt)
    && (List.range t.src.rank).all (fun d => t.perm.contains d) && zeroAt t.raw (0x100 + t.src.rank) (8 - t.src.rank)
    && decide (t.mode ≤ 2) && zeroAt t.raw 0x109 3 && decide (t.pad < 2 ^ t.src.w)
    && zeroAt t.raw (0x110 + 8 * t.src.rank) (8 * (8 - t.src.rank)) && zeroAt t.raw 0x150 48

/-- R317 of both views. -/
def Transform.aligned (t : Transform) : Bool := t.src.aligned && t.dst.aligned

/-- An outside coordinate under REFLECT (R322). -/
def reflect (d : Nat) (x : Int) : Nat :=
  if d ≤ 1 then 0
  else
    let p := 2 * (d - 1)
    let m := (x % (p : Int)).toNat
    if m < d then m else p - m

/-- The coordinate read for `x` along a dimension of size `d`, by PAD_MODE. -/
def padCoord (mode d : Nat) (x : Int) : Nat :=
  if 0 ≤ x ∧ x < d then x.toNat else if mode = 2 then reflect d x else if x < 0 then 0 else d - 1

/-- The source coordinates, by source dimension, of a destination element, before padding (R321). -/
def srcCoords (t : Transform) (js : List Nat) : List Int :=
  (List.range t.src.rank).map (fun sd =>
    match (List.range t.src.rank).find? (fun d => t.perm.getD d 0 = sd) with
    | some d => t.origin.getD d 0 + js.getD d 0
    | none => 0)

/-- What a destination element takes: a source element, by bit offset, or the pad value; and whether a coordinate was outside. -/
structure Taken where
  off : Option Nat
  outside : Bool
  deriving DecidableEq, Repr

/-- R321, R322. -/
def takenOf (t : Transform) (js : List Nat) : Taken :=
  let xs := srcCoords t js
  let out := (xs.zip t.src.dims).any (fun p => !(decide (0 ≤ p.1) && decide (p.1 < p.2)))
  if out && t.mode = 1 then { off := none, outside := true }
  else { off := some (t.src.bitOff ((xs.zip t.src.dims).map (fun p => padCoord t.mode p.2 p.1))), outside := out }

/-- The element of `w` bits at a bit offset from a local address. -/
def elemBits (s : State) (base off w : Nat) : Nat :=
  leNat (readMem s (base + off / 8) ((off % 8 + w + 7) / 8)) / 2 ^ (off % 8) % 2 ^ w

/-! ## Windows (R325, R326) -/

/-- Bytes of a destination window by their offset from its base, the later write standing. -/
abbrev Window := SMap Nat

/-- An element of `w` bits put into a window at a bit offset. Half-byte elements keep the other half. -/
def putElem (w off v : Nat) (m : Window) : Window :=
  if w = 4 then
    let b := mget 0 m (off / 8)
    mput m (off / 8) (if off % 8 = 0 then b / 16 * 16 + v else b % 16 + 16 * v)
  else (List.range (w / 8)).foldl (fun m i => mput m (off / 8 + i) (v / 256 ^ i % 256)) m

/-- The upper half of the last byte of an INT4 row of odd length belongs to no element: a free value
(notes/assumptions/21.md). -/
def rowTail (t : Transform) : Nat :=
  if t.dst.w = 4 ∧ !t.dst.g32 ∧ t.dst.inner % 2 = 1 then (Config.free64 (leNat t.raw)).toNat % 16 * 16 else 0

/-- The pad lanes of the last group of every position, as bytes of the window with their zeros (R316), and the tails of R315. -/
def padLanes (t : Transform) (m : Window) : Window :=
  let v := t.dst
  let outer := (v.dims.dropLast).foldl (· * ·) 1
  (List.range outer).foldl (fun m i =>
    let is := coords v.dims.dropLast i
    if v.g32 then
      let o := outerOff v (is ++ [0]) + (ceilDiv v.inner v.g - 1) * v.strides.getLastD 0
      (List.range 32).foldl (fun m k => mput m (o + k) 0) m
    else if rowTail t ≠ 0 then mput m (outerOff v (is ++ [0]) + v.inner / 2) (rowTail t) else m) m

/-- What a transform did. -/
structure Moved where
  win : Window
  clamped : Nat
  padded : Nat
  deriving DecidableEq, Repr

/-- A transform's window: every destination element in row-major order, from the sources as they stand in `s`. -/
def moveAll (s : State) (t : Transform) : Moved :=
  let w := t.src.w
  let sb := localOf t.src.base
  (List.range t.dst.size).foldl (fun a i =>
    let js := coords t.dst.dims i
    let k := takenOf t js
    let v := match k.off with | some o => elemBits s sb o w | none => t.pad
    { win := putElem w (t.dst.bitOff js) v a.win,
      clamped := a.clamped + (k.outside && decide (t.mode = 0)).toNat,
      padded := a.padded + (k.outside && decide (t.mode ≠ 0)).toNat })
    { win := padLanes t [], clamped := 0, padded := 0 }

/-- The groups of a window, by number from its base, with the count of bytes covered; a window's keys rise. -/
def groupsOf : Window → List (Nat × Nat) → List (Nat × Nat)
  | [], acc => acc
  | (k, _) :: t, (g, n) :: acc => if k / 32 = g then groupsOf t ((g, n + 1) :: acc) else groupsOf t ((k / 32, 1) :: (g, n) :: acc)
  | (k, _) :: t, [] => groupsOf t [(k / 32, 1)]

/-- The bytes of a group after the window is laid over it. -/
def groupBytes (s : State) (a : Nat) (g : Nat) (m : Window) : List Byte :=
  let old := readMem s a 32
  (List.range 32).map (fun i => match mlook m (32 * g + i) with | some b => BitVec.ofNat 8 b | none => old.getD i 0)

/-- A window written, group by group. -/
def putWindow (base : Nat) (m : Window) (s : State) : State :=
  (groupsOf m []).reverse.foldl (fun s p => writeMem (base + 32 * p.1) (groupBytes s (base + 32 * p.1) p.1 m) s) s

/-- Groups of the source that a transform reads. -/
def readGroups (t : Transform) : List Nat :=
  let m : NSet := (List.range t.dst.size).foldl (fun m i =>
    match (takenOf t (coords t.dst.dims i)).off with | some o => nadd m (o / 256) | none => m) []
  m.map (·.1)

/-! ## The layout stage -/

/-- The transforms of a stage: those of its TRANSFORM records, else those of the layout parameter block (R319); nothing where
the block breaks R319. -/
def layTransforms (s : State) (x : Ctx) : Option (List Transform) :=
  let rs := recKinds x.rs 13
  if rs ≠ [] then some (rs.map (fun r => transformOf r.body))
  else
    let a := localOf x.j.d.paramAddr
    let h := readMem s a 32
    let n := u16At h 0
    if x.j.d.paramLen.toNat < 32 || n = 0 || decide (64 < n) || !zeroAt h 2 30 || decide (x.j.d.paramLen.toNat ≠ 32 + 384 * n)
    then none
    else some ((List.range n).map (fun i => transformOf (readMem s (a + 32 + 384 * i) 384)))

/-- A footprint lies inside a range of the descriptor: the same node and bytes (R320). -/
def inRange (v : View) (a : W64) (n : Nat) : Bool :=
  decide (a.toNat ≤ v.base.toNat) && decide (v.base.toNat + v.footprint ≤ a.toNat + n)

/-- Uncommitted descriptors before this one whose output range meets a source footprint (R324). -/
def layWaits (x : Ctx) (ts : List Transform) : Bool :=
  x.ch.journal.any (fun p => p.1 < x.seq && x.ch.committed < p.1 && ts.any (fun t =>
    let a := localOf t.src.base
    let o := localOf p.2.d.outAddr
    decide (a < o + p.2.d.outLen.toNat) && decide (o < a + t.src.footprint)))

/-- The code of reading a transform's sources. -/
def layRead (s : State) (x : Ctx) (t : Transform) : W16 :=
  firstCode ((readGroups t).map (fun g => engRead s x.p x.c x.st (localOf t.src.base + 32 * g) 32))

/-- The code of writing a transform's groups: a group merged under R326 is read too. -/
def layWrite (s : State) (x : Ctx) (t : Transform) (m : Moved) : W16 :=
  firstCode ((groupsOf m.win []).map (fun p =>
    let a := localOf t.dst.base + 32 * p.1
    firstCode [engWrite s x.p x.c x.st a 32, if p.2 < 32 then areaCode s a 32 else cOk]))

/-- The transforms of a stage in their order, every source read as memory stood before the first (R324, R325). -/
def layStage (x : Ctx) (ts : List Transform) (s : State) : State :=
  match firstCode (ts.map (layRead s x)) with
  | 0 =>
    let ms := ts.map (fun t => (t, moveAll s t))
    (match firstCode (ms.map (fun p => layWrite s x p.1 p.2)) with
     | 0 =>
       let s1 := ms.foldl (fun s p => putWindow (localOf p.1.dst.base) p.2.win s) s
       let gs := ms.map (fun p => groupsOf p.2.win [])
       let out := gs.foldl (fun n g => n + g.length) 0
       let rmw := gs.foldl (fun n g => n + (g.filter (fun q => q.2 < 32)).length) 0
       let s2 := bumpReef x 79 (32 * out) (bumpReef x 80 ts.length (bumpReef x 83 rmw
         (bumpReef x 81 (ms.foldl (fun n p => n + p.2.clamped) 0) (bumpReef x 82 (ms.foldl (fun n p => n + p.2.padded) 0) s1))))
       runPut x.num (stageDid x 13 { x.run with lines := out }) s2
     | c => runPut x.num (runAccess cOutputLost c x.run) s)
  | c => runPut x.num (runReads s (ts.flatMap (fun t => (readGroups t).map (fun g => (localOf t.src.base + 32 * g, 32)))) cInputLost c x.run) s

/-- LAYOUT_TRANSFORM (R314-R326). -/
def execLayoutTransform (r : RunRef) (s : State) : Host.Outcome State Fault Refusal :=
  .next (unitRun 13 r.chan.toNat r.seq.toNat (fun x s =>
    match layTransforms s x with
    | none => runPut x.num (runFail 0x5002 x.run) s
    | some ts =>
      if ts.any (fun t => !t.ok) then runPut x.num (runFail 0x5002 x.run) s
      else if ts.any (fun t => !t.aligned) then runPut x.num (runFail cAlignment x.run) s
      else if ts.any (fun t => !inRange t.src x.j.d.inAddr x.j.d.inLen.toNat || !inRange t.dst x.j.d.outAddr x.j.d.outLen.toNat) then
        runPut x.num (runFail 0x5003 x.run) s
      else if layWaits x ts then s
      else layStage x ts s) s)

/-- R318 for a descriptor whose inlet enters at a layout stage: a view of its parameter block breaks R317. -/
def layMisaligned (s : State) (paramAddr : Nat) (paramLen : Nat) : Bool :=
  let n := u16At (readMem s paramAddr 32) 0
  (List.range (min n 64)).any (fun i =>
    decide (32 + 384 * (i + 1) ≤ paramLen) && !(transformOf (readMem s (paramAddr + 32 + 384 * i) 384)).aligned)

/-! ## Sequence packing (R327-R331) -/

/-- A pack entry (Table 13.5). -/
structure PackOp where
  len : Nat
  seqs : Nat
  split : Bool
  tokens : List Nat
  fixed : List (Nat × Nat)
  pad : Nat
  deriving DecidableEq, Repr

/-- The entry of 64 bytes. -/
def packOf (b : List Byte) : PackOp :=
  { len := u32At b 0, seqs := u32At b 4, split := decide (u8At b 8 = 1),
    tokens := (List.range (min 8 (u8At b 9))).map (fun i => u8At b (16 + i)),
    fixed := (List.range (min 8 (u8At b 10))).map (fun i => (u8At b (24 + i), u32At b (32 + 4 * i))), pad := u16At b 12 }

/-- Bytes of the entry that break Table 13.5. -/
def packBodyOk (b : List Byte) : Bool :=
  decide (16 ≤ u32At b 0) && decide (u32At b 0 ≤ 65536) && decide (u32At b 0 % 16 = 0) && decide (1 ≤ u32At b 4)
    && decide (u32At b 4 ≤ 2 ^ 20) && decide (u8At b 8 ≤ 1) && decide (1 ≤ u8At b 9) && decide (u8At b 9 ≤ 8) && decide (u8At b 10 ≤ 8)
    && zeroAt b 11 1 && zeroAt b 14 2 && zeroAt b (16 + u8At b 9) (8 - u8At b 9) && zeroAt b (24 + u8At b 10) (8 - u8At b 10)
    && (List.range 8).all (fun i => u8At b (16 + i) ≤ 63 && u8At b (24 + i) ≤ 63)

/-- A sample's tokens: the elements of its token streams, two bytes each, in stream order. -/
def packTokens (e : PackOp) (r : DRec) : List Nat :=
  e.tokens.flatMap (fun n => match streamOf r n with | some q => (chunks 2 q.data).map leNat | none => [])

/-- Where packing stands: sequence and place, parts placed in the sequence, tokens and SEG numbers placed by sequence
(newest first), and whether no sequence is left. -/
structure Packer where
  sq : Nat
  place : Nat
  parts : Nat
  toks : List (List Nat)
  segs : List (List Nat)
  full : Bool
  deriving DecidableEq, Repr

/-- A SAMPLES entry (Table 13.6) with its flags. -/
structure Sample where
  sq : Nat
  start : Nat
  len : Nat
  flags : Nat
  deriving DecidableEq, Repr

/-- Tokens put at the next places of the current sequence as one part. -/
def packPart (ts : List Nat) (p : Packer) : Packer :=
  if ts = [] then p
  else { p with place := p.place + ts.length, parts := p.parts + 1,
                toks := (p.toks.headD [] ++ ts) :: p.toks.drop 1,
                segs := (p.segs.headD [] ++ List.replicate ts.length (p.parts + 1)) :: p.segs.drop 1 }

/-- The next sequence begins; the rest of this one takes PAD_TOKEN. -/
def packNext (p : Packer) : Packer := { p with sq := p.sq + 1, place := 0, parts := 0, toks := [] :: p.toks, segs := [] :: p.segs }

/-- SPLIT's walk over sequences; tokens that find none left are dropped with the sample (the result says so). -/
def packSplit (e : PackOp) : Nat → List Nat → Packer → Packer × Bool
  | 0, _, p => (p, true)
  | f + 1, ts, p =>
    let r := e.len - p.place
    if ts.length ≤ r then (packPart ts p, true)
    else if e.seqs ≤ p.sq + 1 then (p, false)
    else packSplit e f (ts.drop r) (packNext (packPart (ts.take r) p))

/-- One sample placed (R328-R330). -/
def packOne (e : PackOp) (p : Packer) (r : DRec) : Packer × Sample :=
  let empty := !sound r
  let ts := if empty then [] else packTokens e r
  let lost : Sample := { sq := 0xFFFFFFFF, start := 0, len := 0, flags := 8 + empty.toNat }
  if p.full then (p, lost)
  else if e.split then
    let q := if p.place = e.len ∧ ts ≠ [] ∧ p.sq + 1 < e.seqs then packNext p else p
    let (n, ok) := packSplit e (ts.length + 1) ts q
    if ok then (n, { sq := q.sq, start := q.place, len := ts.length, flags := empty.toNat + 4 * (decide (n.sq ≠ q.sq)).toNat })
    else ({ p with full := true }, lost)
  else
    let cut := ts.take e.len
    let q := if cut.length ≤ e.len - p.place then p else packNext p
    if e.seqs ≤ q.sq then ({ p with full := true }, lost)
    else (packPart cut q, { sq := q.sq, start := q.place, len := cut.length, flags := empty.toNat + 2 * (decide (e.len < ts.length)).toNat })

/-- Every sample in position order. -/
def packAll (e : PackOp) : List DRec → Packer → List Sample → Packer × List Sample
  | [], p, acc => (p, acc.reverse)
  | r :: t, p, acc => let (q, m) := packOne e p r; packAll e t q (m :: acc)

/-- A list of words cut or filled to `n`. -/
def fillTo (n v : Nat) (l : List Nat) : List Nat := l.take n ++ List.replicate (n - l.length) v

/-- The packed batch (Table 13.6). -/
def packBytes (e : PackOp) (rs : List DRec) (p : Packer) (ms : List Sample) : List Byte :=
  let rows := fun (v : Nat) (ls : List (List Nat)) =>
    ((ls.reverse.flatMap (fillTo e.len v)) ++ List.replicate ((e.seqs - ls.length) * e.len) v).flatMap (leBytes 2)
  let samples := ms.flatMap (fun m => leBytes 4 m.sq ++ leBytes 4 m.start ++ leBytes 4 m.len ++ leBytes 2 m.flags ++ zeros 2)
  let fixed := e.fixed.map (fun f => (rs.zip ms).flatMap (fun q =>
    let d := if q.2.flags % 2 = 1 then [] else ((streamOf q.1 f.1).map (·.data)).getD []
    slice (d.take f.2) 0 (32 * ceilDiv f.2 32)))
  padTo 32 (rows e.pad p.toks) ++ padTo 32 (rows 0 p.segs) ++ padTo 32 samples ++ fixed.flatten

/-- The pack stage: the batch is written and committed even where samples were not placed (R330). -/
def packStage (x : Ctx) (s : State) : State :=
  match recKind x.rs 12 with
  | none => s
  | some r =>
    let e := packOf r.body
    let (p, ms) := packAll e x.run.recs { sq := 0, place := 0, parts := 0, toks := [[]], segs := [[]], full := false } []
    let out := packBytes e x.run.recs p ms
    let cnt := fun (f : Sample → Bool) => (ms.filter f).length
    if x.j.d.outLen.toNat < out.length then runPut x.num (runFail 0x5003 x.run) s
    else
      match engWrite s x.p x.c x.st (localOf x.j.d.outAddr) out.length with
      | 0 =>
        let dups := cnt (fun m => decide (m.flags / 8 % 2 = 1))
        let s1 := bumpReef x 79 out.length (bumpReef x 84 e.seqs (bumpReef x 85 (ms.length - dups)
          (bumpReef x 86 (cnt (fun m => m.flags % 2 = 1)) (bumpReef x 87 (cnt (fun m => m.flags / 2 % 2 = 1))
            (bumpReef x 88 (cnt (fun m => m.flags / 4 % 2 = 1)) (bumpReef x 89 dups s))))))
        let r := { x.run with recsOut := ms.length - dups, lines := out.length / 32 }
        runPut x.num (stageDid x 12 (if dups = 0 then r else runCode 0x5004 r)) (placeOut x out s1)
      | c => runPut x.num (runAccess cOutputLost c x.run) s

/-- The pack work of a stage that is also a shuffle or batch stage follows the batch that a deliver descriptor passes to the layout
mover (09 R232); descriptors of the other roles pass none, and nothing is packed for them. -/
def packDue (x : Ctx) (s : State) : State :=
  if (recKind x.rs 10).isNone then packStage x s
  else if !nmem x.run.did 10 then s
  else if (shufSecOf (paramSection s x 4 64)).role = 3 then packStage x s
  else runPut x.num (stageDid x 12 x.run) s

/-- PACK (R327-R331). -/
def execPack (r : RunRef) (s : State) : Host.Outcome State Fault Refusal :=
  .next (unitRun 12 r.chan.toNat r.seq.toNat packDue s)

end Sys2Proof.Machine
end

