-- ==== Sys2Proof/Machine/Inject.lean ====
section
/-! DEFINITION. Fault injection: slots, draws, and what a slot does to an item that passes its link (18 R436-R446). -/

namespace Sys2Proof.Machine

/-! ## Links (Table 18.1) -/

/-- The lower-numbered of island `i`'s strait dies and so on: the strait die at the far end of strait link `l`, from the unit that
the table names first (the lower ring die for a ring link). -/
def linkDie (l : Nat) : Nat :=
  if l < 32 then (l / 2 + l % 2) % 4
  else if l < 36 then (l - 32 + 1) % 4
  else if l < 44 then ((l - 36) / 2 + (l - 36) % 2) % 4
  else 2 * (l - 44)

/-- The holder at the near end of strait link `l`: islands 0-15, strait dies 16-19, harbours 20-23, the cape 24. -/
def linkNear (l : Nat) : Nat :=
  if l < 32 then l / 2 else if l < 36 then 16 + (l - 32) else if l < 44 then 20 + (l - 36) / 2 else 24

/-- A holder's die is lost. -/
def dieLost (s : State) (h : Nat) : Bool :=
  if h < 16 then islLost s h else if h < 20 then straitLost s (h - 16) else if h < 24 then harbourLost s (h - 20) else s.rcv.cape

/-- Strait link `l` carries nothing any more: it is marked lost, or one of its ends is. -/
def straitLinkDown (s : State) (l : Nat) : Bool := nmem s.rcv.links l || dieLost s (linkNear l) || dieLost s (16 + linkDie l)

/-- Fabric port `n` is broken out (21 Table 21.9). -/
def brokenOut (s : State) (n : Nat) : Bool := (rget s (0x000D1014 + 0x100 * (1 + 2 * n))).getLsbD 2

/-! ## Slots (Table 18.2) -/

/-- Offset of slot `k`'s registers. -/
def fiBase (k : Nat) : Nat := 0x00080000 + 0x40 * k
/-- FI_TARGET_k and FI_MODE_k. -/
def fiTarget (s : State) (k : Nat) : Nat := (rget s (fiBase k)).toNat
def fiMode (s : State) (k : Nat) : Nat := (rget s (fiBase k + 4)).toNat
/-- FI_LIMIT_k. -/
def fiLimit (s : State) (k : Nat) : Nat := (rget s (fiBase k + 0x10)).toNat

/-- INDEX, CLASS 1 and DIR of a target; KIND, POSITION, SYMBOLS, N, M and TC_MASK of a mode. -/
def fiIndex (t : Nat) : Nat := t % 64
def fiStrait (t : Nat) : Bool := bit t 6
def fiDir (t : Nat) : Bool := bit t 7
def fiKind (m : Nat) : Nat := bits m 1 0
def fiBefore (m : Nat) : Bool := bit m 2
def fiSymbols (m : Nat) : Nat := bits m 4 3
def fiN (m : Nat) : Nat := bits m 10 5
def fiM (m : Nat) : Nat := bits m 16 11
def fiMask (m : Nat) : Nat := bits m 20 17

/-- A slot that has never been enabled. -/
def FiSlot.init : FiSlot := { state := .off, cause := 0, s := 0, held := none, passed := 0 }

/-- Slot `k`. -/
def fiGet (s : State) (k : Nat) : FiSlot := mget FiSlot.init s.fi k

/-- `s` with slot `k` set. -/
def fiPut (k : Nat) (x : FiSlot) (s : State) : State := { s with fi := mset FiSlot.init s.fi k x }

/-- Bits of the FI_ENABLE word follow the slots. -/
def fiMark (k : Nat) (on : Bool) (s : State) : State :=
  let w := rget s 0x00080400
  rset 0x00080400 (if on then w ||| (1#32 <<< k) else w &&& ~~~(1#32 <<< k)) s

/-- A FAULT_INJECTION record: slot, event (1 enabled, 2 disabled, 3 STOPPED; notes/assumptions/56.md), the five words. -/
def fiAudit (k ev : Nat) (sid : W32) (s : State) : State :=
  audit 0x0A cOk sid (if sid = 0 then 2 else 0)
    (leBytes 1 k ++ leBytes 1 ev ++ [0, 4, 8, 12, 16].flatMap (fun o => leBytes 4 (rget s (fiBase k + o)).toNat)) s

/-- A slot's held item goes on to the next slot. -/
def fiRelease (k : Nat) (s : State) : State :=
  let x := fiGet s k
  match x.held with
  | none => s
  | some it => { fiPut k { x with held := none, passed := 0 } s with wire := s.wire ++ [(k + 1, it)] }

/-- A slot goes to STOPPED with a cause. -/
def fiStop (k cause : Nat) (s : State) : State :=
  fiAudit k 3 0 (fiPut k { fiGet s k with state := .stopped, cause := cause } s)

/-- The slot is ACTIVE or SUSPENDED. -/
def fiBusy (s : State) (k : Nat) : Bool := decide ((fiGet s k).state = .active) || decide ((fiGet s k).state = .suspended)

/-- The target is on a lost die, or its strait link is lost. -/
def fiLost (s : State) (t : Nat) : Bool :=
  let i := fiIndex t
  if fiStrait t then straitLinkDown s i else harbourLost s ((if i < 8 then i else (i - 8) / 2) / 2)

/-- Slots whose target is lost stop with cause 3 and hold nothing. -/
def fiLostCheck (s : State) : State :=
  (List.range 8).foldl (fun s k => if fiBusy s k && fiLost s (fiTarget s k) then fiStop k 3 (fiRelease k s) else s) s

/-- A recovery begins: every ACTIVE slot is SUSPENDED, and what it holds is sent (R444). -/
def fiSuspend (s : State) : State :=
  (List.range 8).foldl (fun s k =>
    if (fiGet s k).state = .active then
      let s1 := fiRelease k s
      bump (fiCnt k 2) 1 (fiPut k { fiGet s1 k with state := .suspended } s1)
    else s) s

/-- A recovery is over: SUSPENDED slots are ACTIVE again. -/
def fiResume (s : State) : State :=
  (List.range 8).foldl (fun s k => if (fiGet s k).state = .suspended then fiPut k { fiGet s k with state := .active } s else s) s

/-- A level 4 warm reset stops every slot with cause 4. -/
def fiReset (s : State) : State :=
  (List.range 8).foldl (fun s k => if fiBusy s k then fiStop k 4 (fiRelease k s) else s) s

/-! ## Items -/

/-- What a slot looks at in an item: whether it is a strait flit, its link, its direction, its class, whether it is tagged. -/
structure FiView where
  strait : Bool
  link : Nat
  dir : Bool
  tc : Nat
  tagged : Bool
  deriving DecidableEq, Repr

/-- The class of a frame of an establishment, whose header a command does not give (notes/assumptions/54.md). -/
def handClass : Nat := 1

/-- The class in which a session's frame arrives or leaves. -/
def frameView (link : Nat) (dir : Bool) (tc : Nat) (tagged : Bool) : FiView := { strait := false, link := link, dir := dir, tc := tc, tagged := tagged }

/-- What passes a link: frames that arrive (DIR 1), what the device sends (DIR 0), strait flits. -/
def fiView : FiItem → Option FiView
  | .inn (.straitFlit l d _ tc ackF _) => some { strait := true, link := l.toNat, dir := d, tc := if ackF then 0 else tc.toNat, tagged := false }
  | .inn (.dataFrame f) => some (frameView f.link.toNat true (f.hdr.tc.toNat % 4) true)
  | .inn (.ack f) => some (frameView f.link.toNat true (f.hdr.tc.toNat % 4) true)
  | .inn (.probe f) => some (frameView f.link.toNat true (f.hdr.tc.toNat % 4) true)
  | .inn (.probeReply f) => some (frameView f.link.toNat true (f.hdr.tc.toNat % 4) true)
  | .inn (.close f) => some (frameView f.link.toNat true (f.hdr.tc.toNat % 4) true)
  | .inn (.confirm f) => some (frameView f.link.toNat true (f.hdr.tc.toNat % 4) true)
  | .inn (.hello l _ _) => some (frameView l.toNat true handClass false)
  | .inn (.helloReply l _ _) => some (frameView l.toNat true handClass false)
  | .inn (.reject l _ _) => some (frameView l.toNat true handClass false)
  | .inn _ => none
  | .out l (.data _ tc _ _) => some (frameView l false tc.toNat true)
  | .out l (.ack ..) => some (frameView l false 0 true)
  | .out l (.frame _ t _ _) => some (frameView l false (if t = 3 ∨ t = 4 then 0 else handClass) (decide (t < 0x10) || decide (t = 0x12) || decide (t = 0x13)))
  | .out _ _ => none

/-- The slot's target and classes take the item in. -/
def fiEligible (s : State) (k : Nat) (v : FiView) : Bool :=
  let t := fiTarget s k
  let i := fiIndex t
  (fiStrait t == v.strait) && (fiDir t == v.dir) && bit (fiMask (fiMode s k)) v.tc
    && (if v.strait then decide (i = v.link)
        else decide (1 ≤ v.link) && (if i < 8 then decide ((v.link - 1) / 2 = i) else decide (v.link - 1 = i - 8)))

/-- fi_next (R438): the new state and the draw. -/
def fiNext (x : W64) : W64 × W64 :=
  let a := x ^^^ (x >>> 12)
  let b := a ^^^ (a <<< 25)
  let c := b ^^^ (b >>> 27)
  (c, c * 0x25450F914F6CDD1D#64)

/-- fi_select: selected with probability 2^-n. -/
def fiSelect (draw : W64) (n : Nat) : Bool := decide (draw.toNat / 2 ^ (64 - n) = 0)

/-- `n` distinct stored symbols of a flit, whose places the manual leaves open (free values). -/
def fiPlaces : Nat → Nat → List Nat → List Nat
  | 0, _, acc => acc
  | n + 1, f, acc =>
    let left := ((List.range 32) ++ [34, 35, 36, 37, 38]).filter (fun p => !acc.contains p)
    fiPlaces n (f + 1) (acc ++ (left[(Config.free64 f).toNat % left.length]?).toList)

/-- Symbols of a codeword in error after another error at a place. -/
def symXor (e : SymErr) (es : List SymErr) : List SymErr :=
  match es.find? (fun x => x.pos = e.pos) with
  | none => es ++ [e]
  | some x =>
    let b := x.bits ^^^ e.bits
    let rest := es.filter (fun y => y.pos ≠ e.pos)
    if b = 0 then rest else rest ++ [{ e with bits := b }]

/-- A frame whose tag no longer authenticates. -/
def spoil (c : Instr) : Instr :=
  match c with
  | .dataFrame f => .dataFrame { f with tagOk := false }
  | .ack f => .ack { f with tagOk := false }
  | .probe f => .probe { f with tagOk := false }
  | .probeReply f => .probeReply { f with tagOk := false }
  | .close f => .close { f with tagOk := false }
  | .confirm f => .confirm { f with tagOk := false }
  | c => c

/-- The injection of slot `k` counted; at a non-zero LIMIT the slot stops with cause 2. -/
def fiInjected (k : Nat) (s : State) : State :=
  let s1 := bump (fiCnt k 1) 1 s
  if fiLimit s1 k ≠ 0 ∧ fiLimit s1 k ≤ (mget 0 s1.counters (fiCnt k 1)).toNat then fiStop k 2 s1 else s1

/-- The state S of a slot after a draw. -/
def fiDrew (k : Nat) (x : W64) (s : State) : State := fiPut k { fiGet s k with s := x } s

/-- CORRUPT of a strait flit: SYMBOLS 1 or 2 change so many symbols, 3 fails its check. -/
def corruptFlit (k n : Nat) (c : Instr) (s : State) : FiItem × State :=
  match c with
  | .straitFlit l d q tc a es =>
    if 3 ≤ n then (.inn (.straitFlit l d q tc a (es ++ [⟨0, 1⟩, ⟨1, 1⟩, ⟨2, 1⟩])), s)
    else
      let ps := fiPlaces n s.free []
      let (es2, s2) := ps.foldl (fun (a : List SymErr × State) p =>
        let (st, dr) := fiNext (fiGet a.2 k).s
        let b : W16 := if dr.toNat % 65536 = 0 then 1 else BitVec.ofNat 16 dr.toNat
        (symXor { pos := BitVec.ofNat 6 p, bits := b } a.1, fiDrew k st a.2)) (es, { s with free := s.free + n })
      (.inn (.straitFlit l d q tc a es2), s2)
  | c => (.inn c, s)

/-- What slot `k` does to a selected item: the item as it goes on, if it does. -/
def fiAct (k : Nat) (it : FiItem) (v : FiView) (s : State) : Option FiItem × State :=
  let m := fiMode s k
  match fiKind m with
  | 0 => (none, fiInjected k s)
  | 1 =>
    if v.strait then
      match it with
      | .inn c => let (x, t) := corruptFlit k (fiSymbols m) c s; (some x, fiInjected k t)
      | .out .. => (some it, s)
    else if fiBefore m && !v.tagged then (some it, s)
    else
      let (st, dr) := fiNext (fiGet s k).s
      let t := fiInjected k (fiDrew k st s)
      (match it with
       | .inn c => (if fiBefore m then some (.inn (spoil c)) else none, t)
       | .out l _ => (none, emit (.damaged l dr) t))
  | _ => (none, fiInjected k (fiPut k { fiGet s k with held := some it, passed := 0 } s))

/-- An item that meets slot `k`, which holds another: it passes, and after M of them the held one goes on. -/
def fiPass (k : Nat) (s : State) : State :=
  let x := fiGet s k
  let s1 := fiPut k { x with passed := x.passed + 1 } s
  if fiM (fiMode s k) ≤ x.passed + 1 then fiRelease k s1 else s1

/-- An item meets the slots from `ks` on, in ascending order (R440). -/
def fiSlots : List Nat → FiItem → State → Option FiItem × State
  | [], it, s => (some it, s)
  | k :: t, it, s =>
    let x := fiGet s k
    match fiView it with
    | none => (some it, s)
    | some v =>
      if !fiEligible s k v then fiSlots t it s
      else
        let s1 := if x.state = .active then bump (fiCnt k 0) 1 s else s
        if x.held.isSome then fiSlots t it (fiPass k s1)
        else if x.state ≠ .active then fiSlots t it s
        else
          let (st, dr) := fiNext x.s
          let s2 := fiDrew k st s1
          if !fiSelect dr (fiN (fiMode s k)) then fiSlots t it s2
          else
            match fiAct k it v s2 with
            | (none, s3) => (none, s3)
            | (some it2, s3) => fiSlots t it2 s3

/-- The slots from `k` on. -/
def fiFrom (k : Nat) (it : FiItem) (s : State) : Option FiItem × State := fiSlots ((List.range 8).filter (fun j => decide (k ≤ j))) it s

/-- Frames that egress slots have released pass the later slots and leave. A frame meets each slot once, so eight rounds do. -/
def flushOut : Nat → State → State
  | 0, s => s
  | n + 1, s =>
    match s.wire.find? (fun w => match w.2 with | .out .. => true | .inn _ => false) with
    | none => s
    | some w =>
      match fiFrom w.1 w.2 { s with wire := s.wire.erase w } with
      | (some (.out _ o), t) => flushOut n (emit o t)
      | (_, t) => flushOut n t

/-- What the device sends on a link passes its egress slots. -/
def emitOn (link : Nat) (o : Out) (s : State) : State :=
  match fiFrom 0 (.out link o) s with
  | (some (.out _ o2), t) => flushOut 8 (emit o2 t)
  | (_, t) => flushOut 8 t

end Sys2Proof.Machine
end

