-- ==== Sys2Proof/Machine/Send.lean ====
section
/-! DEFINITION. What the device sends in its sessions: operation records, send queues, credit and frames (15 R376-R379, R383,
R385, 16 R396-R401, R403). -/

namespace Sys2Proof.Machine

/-- An operation record (15 Table 15.6): header and data padded to 8 bytes. -/
def opRecord (op : Nat) (addr op0 op1 : W64) (len : Nat) (data : List Byte) : List Byte :=
  leBytes 1 op ++ zeros 3 ++ leBytes 4 len ++ leBytes 8 addr.toNat ++ leBytes 8 op0.toNat ++ leBytes 8 op1.toNat ++ padTo 8 data

/-- Session `k` set. -/
def sessPut (k : Nat) (x : Session) (s : State) : State := { s with sessions := mput s.sessions k x }

/-- Session `k` changed. -/
def sessMod (k : Nat) (f : Session → Session) (s : State) : State :=
  match mlook s.sessions k with
  | some x => sessPut k (f x) s
  | none => s

/-- The traffic counters of a link's port: the cape for HP (link 0), else the port's harbour (01 Table 1.1, 21 Table 21.12). -/
def portCnt (link t : Nat) : Nat := if link = 0 then capeCnt t else harbourCnt ((link - 1) / 4) t

/-- A link's port is on a lost die. -/
def portLost (s : State) (link : Nat) : Bool := if link = 0 then s.rcv.cape else harbourLost s ((link - 1) / 4)

/-- Frames of a session outstanding: class 0, and classes 1-3. -/
def Session.out0 (x : Session) : Nat := (x.unacked.filter (fun p => p.2.op.tc = 0 && !p.2.acked)).length
/-- Unacknowledged frames of classes 1-3. -/
def Session.outN (x : Session) : Nat := (x.unacked.filter (fun p => p.2.op.tc ≠ 0 && !p.2.acked)).length

/-- The session may send an operation of class `tc` now (R378, 16 R403). -/
def canSend (s : State) (x : Session) (tc : BitVec 2) : Bool :=
  x.opened && nmem s.linksUp x.link && !portLost s x.link
    && (if tc = 0 then decide (x.out0 < 16) && !nmem s.paused x.link else decide (x.outN < min x.credit x.cwnd))

/-- A frame of one operation leaves: SEQ and NONCE_CTR advance, the port grants a packet of its class. -/
def sendFrame (k : Nat) (x : Session) (o : TxOp) (s : State) : State :=
  let f : TxFrame := { op := o, sentAt := s.time, resends := 0, acked := false, answered := !o.awaits }
  bump (portCnt x.link o.tc.toNat) 1
    (emitOn x.link (.data x.peerSid o.tc x.nextSeq o.body)
      (sessPut k { x with nextSeq := x.nextSeq + 1, nextNonce := x.nextNonce + 1, unacked := mput x.unacked x.nextSeq f } s))

/-! ## The send queues of a session (15 R378, R383; 16 R398-R402) -/

/-- The bytes that an operation accesses at the peer: its address and how many (15 Table 15.7). -/
def TxOp.span (o : TxOp) : Nat × Nat :=
  let op := leNat (o.body.take 1)
  (leNat ((o.body.drop 8).take 8),
    if op = 1 ∨ op = 2 ∨ op = 5 then leNat ((o.body.drop 4).take 4) else if op = 3 then 4 else if op = 4 ∨ op = 6 then 8 else 0)

/-- The byte ranges of two operations overlap. -/
def TxOp.overlaps (a b : TxOp) : Bool := decide (a.span.1 < b.span.1 + b.span.2) && decide (b.span.1 < a.span.1 + a.span.2)

/-- An operation that may not pass an earlier one: their ranges overlap, one is a FENCE, or it is a SIGNAL (15 R383, 16 R402). -/
def mustFollow (o e : TxOp) : Bool :=
  let op := fun (x : TxOp) => leNat (x.body.take 1)
  decide (op o = 9) || decide (op e = 9) || decide (op o = 7) || o.overlaps e

/-- The oldest waiting operation of class `c`, unless it must follow one that waits before it (`seen`). -/
def headOf (c : BitVec 2) : List TxOp → List TxOp → Option TxOp
  | [], _ => none
  | o :: t, seen => if o.tc = c then (if seen.any (mustFollow o) then none else some o) else headOf c t (o :: seen)

/-- Bytes that a round credits to classes 1, 2 and 3 (16 R400). -/
def drrCredit (c : Nat) : Nat := if c = 1 then 1024 else if c = 2 then 2048 else 512

/-- The bytes that class `c` has left. -/
def Arb.left (a : Arb) (c : Nat) : Nat := if c = 1 then a.left1 else if c = 2 then a.left2 else a.left3
/-- The bytes that class `c` has left, set. -/
def Arb.setLeft (a : Arb) (c n : Nat) : Arb :=
  if c = 1 then { a with left1 := n } else if c = 2 then { a with left2 := n } else { a with left3 := n }

/-- Deficit round robin over bytes among classes 1-3 (16 R400): the class whose packet goes next; `need` is the size of what each class
has waiting. `fuel` bounds the rounds. -/
def drrPick (need : Nat → Option Nat) : Nat → Arb → Option (Nat × Arb)
  | 0, _ => none
  | n + 1, a =>
    let c := if a.turn = 2 then 2 else if a.turn = 3 then 3 else 1
    let pass := fun (d : Nat) => { a.setLeft c d with turn := c % 3 + 1, credited := false }
    match need c with
    | none => drrPick need n (pass 0)
    | some z =>
      let d := a.left c + (if a.credited then 0 else drrCredit c)
      if z ≤ d then some (c, { a.setLeft c (d - z) with credited := true }) else drrPick need n (pass d)

/-- What the arbiter of a session's send queues grants next (16 R398-R400): the class, and whether class 0 yields to it under R399. -/
def arbPick (s : State) (x : Session) : Option (Nat × Bool × Arb) :=
  let head := fun (c : Nat) => if canSend s x (BitVec.ofNat 2 c) then headOf (BitVec.ofNat 2 c) x.queue [] else none
  let need := fun (c : Nat) => (head c).map (fun o => o.body.length)
  let zero := (head 0).isSome
  let lower := [1, 2, 3].filterMap need
  if zero && !(decide (7 ≤ x.arb.row) && !lower.isEmpty) then
    some (0, false, { x.arb with row := if lower.isEmpty then 0 else x.arb.row + 1 })
  else (drrPick need (3 * (lower.foldl max 0 / 512 + 2)) x.arb).map (fun p => (p.1, zero, { p.2 with row := 0 }))

/-- Waiting operations of session `k` sent while its arbiter grants them, at most `n`. -/
def drainQueue (k : Nat) : Nat → State → State
  | 0, s => s
  | n + 1, s =>
    match mlook s.sessions k with
    | none => s
    | some x =>
      match arbPick s x with
      | none => s
      | some (c, yields, a) =>
        match x.queue.find? (fun o => decide (o.tc.toNat = c)) with
        | none => s
        | some o =>
          let y := { x with queue := x.queue.eraseP (fun o => decide (o.tc.toNat = c)), arb := a }
          drainQueue k n (sendFrame k y o (if yields then bump (portCnt x.link 4) 1 s else s))

/-- A session's queues tried again. -/
def pumpSession (k : Nat) (s : State) : State :=
  match mlook s.sessions k with
  | none => s
  | some x => drainQueue k x.queue.length s

/-- An operation handed to a session. A class 0 operation beyond the 16 outstanding waits at its requester (16 R401); one held for the
bytes of an earlier operation of another class counts as a hold (16 R402; notes/assumptions/55.md). -/
def sendOp (k : Nat) (o : TxOp) (s : State) : State :=
  match mlook s.sessions k with
  | none => s
  | some x =>
    let s1 := if o.tc = 0 && decide (16 ≤ x.out0) then bump (portCnt x.link 5) 1 s else s
    let s2 := if x.queue.any (fun e => e.tc ≠ o.tc && o.overlaps e) then bump (portCnt x.link 6) 1 s1 else s1
    pumpSession k (sessPut k { x with queue := x.queue ++ [o] } s2)

/-- A MESSAGE of a KIND: 2 ANSWER, 3 COMPLETION; class 1 (16 Table 16.1). -/
def sendMessage (sid : W32) (kind : Nat) (data : List Byte) (s : State) : State :=
  sendOp sid.toNat { tc := 1, body := opRecord 0x08 0 (BitVec.ofNat 64 kind) 0 data.length data, awaits := true, run := none, fate := none } s

/-- An ANSWER to a session: given out, and sent where the session is there (04 R102). -/
def sendAnswer (sid : W32) (data : List Byte) (s : State) : State := sendMessage sid 2 data (emit (.answer sid data) s)

/-! ## Operations for other devices (R385, 17 R417) -/

/-- The enabled peer entry whose NODE is `n`. -/
def entryOfNode (s : State) (n : Nat) : Option Nat :=
  (List.range 1024).find? (fun p => bit (peerFlags s p) 0 && decide (peerNode s p = n))

/-- The session that carries the device's operations to an entry: the first open one (R383). -/
def openSession (s : State) (entry : Nat) : Option Nat :=
  (s.sessions.find? (fun p => p.2.entry = entry && p.2.opened)).map (·.1)

/-- The code of an operation that completes with a run's name on it: the run's first refusal. -/
def runOpDone (k : Option Nat) (c : W16) (s : State) : State :=
  match k with
  | none => s
  | some n =>
    let x := mget Run.init s.runs n
    if c = 0 || x.effCode ≠ 0 then s else { s with runs := mset Run.init s.runs n { x with effCode := c } }

/-- An operation for node `n`: sent in the peer's session, or kept until one opens or the peer is DOWN; a quarantined peer refuses
what no run waits for (R385, R388, R392, 17 R417). -/
def sendToNode (n : Nat) (o : TxOp) (s : State) : State :=
  match entryOfNode s n with
  | none => runOpDone o.run cNodeUnknown (emit (.opDone 0 0 0 cNodeUnknown 0) s)
  | some p =>
    match openSession s p with
    | some k => sendOp k o s
    | none =>
      if o.run.isNone && bit (peerFlags s p) 1 then emit (.opDone 0 0 0 cPeerQuarantined 0) s
      else { s with peerQueue := s.peerQueue ++ [(n, o)] }

/-- Some operation of a run has no answer yet: it waits for a session, for credit, for its RESULT or in doubt. -/
def runAwaits (s : State) (k : Nat) : Bool :=
  s.peerQueue.any (fun q => q.2.run = some k)
    || s.sessions.any (fun p => p.2.queue.any (fun o => o.run = some k)
        || p.2.unacked.any (fun f => f.2.op.run = some k && !f.2.answered))
    || s.doubts.any (fun p => p.2.frames.any (fun f => f.2.op.run = some k && !f.2.answered))

end Sys2Proof.Machine
end

