-- ==== Sys2Proof/Machine/Channel.lean ====
section
/-! DEFINITION. Channels: handles, descriptor checks and acceptance, control items, rings, closing (04 R97-R123). -/

namespace Sys2Proof.Machine

/-! ## Handles (R97, R98) -/

/-- The handle of index `i` in its current generation. -/
def handleOf (i : Nat) (c : Chan) : W32 := BitVec.ofNat 32 (c.gen.toNat * 65536 + i)

/-- The index a handle names. -/
def handleIdx (h : W32) : Nat := h.toNat % 65536

/-- R98; success for a current handle. -/
def handleCode (s : State) (h : W32) : W16 :=
  let i := handleIdx h
  let g := h.toNat / 65536
  let c := chanGet s i
  if 4095 < i ∨ g = 0 then cHandleInvalid
  else if g ≠ c.gen.toNat then cStaleHandle
  else if c.state = .free then cHandleInvalid
  else cOk

/-! ## Rings (R114, R115) -/

/-- Ring slots N. -/
def Chan.slots (c : Chan) : Nat := 2 ^ c.ringLog2

/-- The stacks of a channel's ring, journal and commit log copies that stand. -/
def chanCopies (s : State) (c : Chan) : List Nat :=
  (if c.single then [c.primary] else [c.primary, c.mirror]).filter (fun k => !islLost s k)

/-- Address of the slot of sequence number `n` on stack `k`. -/
def ringAddr (c : Chan) (k n : Nat) : Nat := hbmKey k (0xFEC000000 + c.ringOff + 32 * (n % c.slots))

/-- A slot written on every copy. -/
def ringWrite (c : Chan) (n : Nat) (b : List Byte) (s : State) : State :=
  (chanCopies s c).foldl (fun s k => writeMem (ringAddr c k n) b s) s

/-- EMPTY(g) (Table 4.7). -/
def emptySlot (g : Nat) : List Byte := zeros 28 ++ leBytes 4 (g % 2 ^ 15 * 65536)

/-- Bytes zeroed from canonical address `k`, and the poison of whole units there. -/
def zeroKeys (k n : Nat) (s : State) : State :=
  let inside := fun (j : Nat) => decide (k ≤ j) && decide (j < k + n)
  { s with mem := s.mem.filter (fun p => !inside p.1), poison := s.poison.filter (fun p => !inside p.1) }

/-- Ring ranges in use on stack `k`: offset and bytes. -/
def ringsOn (s : State) (k : Nat) : List (Nat × Nat) :=
  (s.chans.filter (fun p => p.2.state ≠ .free && (p.2.primary = k || (!p.2.single && p.2.mirror = k)))).map
    (fun p => (p.2.ringOff, 32 * p.2.slots))

/-- A range of the ring area of stack `k` is unused. -/
def ringFits (s : State) (k off n : Nat) : Bool := (ringsOn s k).all (fun r => decide (off + n ≤ r.1) || decide (r.1 + r.2 ≤ off))

/-- Every placement of a ring of 2^log2 slots: stack p and offset, both copies free (R114). -/
def ringPlaces (s : State) (log2 : Nat) : List (Nat × Nat) :=
  let n := 32 * 2 ^ log2
  ((List.range 16).filter (fun p => !islLost s p && !islLost s ((p + 2) % 16))).flatMap (fun p =>
    ((List.range ((0x4000000 - n) / 2048 + 1)).filter (fun i =>
      ringFits s p (2048 * i) n && ringFits s ((p + 2) % 16) (2048 * i) n)).map (fun i => (p, 2048 * i)))

/-! ## Validation (R104, R105) -/

/-- The plate and case that a descriptor of inlet `n` is checked against: the committed plate that awaits its swap (02 R63), the
active one, and the normal configuration where a case in force does not define the inlet (02 R573). -/
def acceptPlate (s : State) (n : Nat) : Option (Plate × Nat) :=
  if awaitsSwap s then (standbyPlate s).map (fun p => (p, normalCase))
  else (activePlate s).map (fun p => (p, if (inletNum p (caseNow s) n).isSome then caseNow s else normalCase))

/-- Step 1 of Table 4.4. -/
def descFields (d : Descriptor) : Bool :=
  decide (d.rsvd = 0) && decide (d.flags.toNat < 2) && decide (1 ≤ d.opcode.toNat) && decide (d.opcode.toNat < 0x8000)
    && decide (1 ≤ d.seq.toNat) && decide (d.seq.toNat < 2 ^ 48) && decide (1 ≤ d.inLen.toNat) && decide (d.inLen.toNat ≤ 2 ^ 40)
    && decide (32 ≤ d.outLen.toNat) && decide (d.outLen.toNat ≤ 2 ^ 40) && decide (d.paramLen.toNat ≤ 65536)
    && (decide (d.paramLen ≠ 0) || decide (d.paramAddr = 0))

/-- Step 9. -/
def descAligned (d : Descriptor) : Bool :=
  decide (d.outAddr.toNat % 32 = 0) && decide (d.outLen.toNat % 32 = 0) && decide (d.paramAddr.toNat % 32 = 0)
    && decide (d.paramLen.toNat % 32 = 0)

/-- Step 10 (R105). -/
def descRefs (s : State) (p : Plate) (c st : Nat) (d : Descriptor) : Bool :=
  refOk s p c st d.inAddr d.inLen.toNat 1 && refOk s p c st d.outAddr d.outLen.toNat 2
    && (d.paramLen = 0 || refOk s p c st d.paramAddr d.paramLen.toNat 1)

/-- R318: the inlet enters at a layout stage that takes its transforms from the parameter block, and a view there breaks R317. -/
def descViews (s : State) (p : Plate) (c st : Nat) (d : Descriptor) : Bool :=
  let rs := stageRecs p c st
  (stageKinds rs).contains 13 && (recKinds rs 13).isEmpty && layMisaligned s (localOf d.paramAddr) d.paramLen.toNat

/-- Steps 7 to 12 of Table 4.4 for channel `i`. -/
def descTail (s : State) (i : Nat) (c : Chan) (d : Descriptor) : W16 :=
  match acceptPlate s c.inlet.toNat with
  | none => cNoPlate
  | some (p, k) =>
    match inletNum p k c.inlet.toNat with
    | none => cOpcodeNotAccepted
    | some inl =>
      if !inletTakes inl d.opcode.toNat then cOpcodeNotAccepted
      else if d.paramLen.toNat < paramNeed p k c.inlet.toNat then cDescriptorInvalid
      else if !descAligned d then cAlignment
      else if !descRefs s p k inl.entry d then cOutOfBounds
      else if descViews s p k inl.entry d then cAlignment
      else if c.slots < d.seq.toNat - c.retired then cChannelFull
      else if chanCopies s (chanGet s i) = [] then cJournalUnavailable
      else cOk

/-- A receipt (Table 4.5). -/
def receipt (d : Descriptor) (code : W16) (flags : Nat) : List Byte :=
  leBytes 4 d.handle.toNat ++ leBytes 2 code.toNat ++ leBytes 2 flags ++ leBytes 8 d.seq.toNat

/-- Digest of the plate that a descriptor accepted now runs under. -/
def acceptDigest (s : State) : Digest :=
  ((if awaitsSwap s then standbyPlate s else activePlate s).map (·.digest)).getD 0

/-- The journal entry is durable: the descriptor is accepted (R107, R108, 17 R411, R412). -/
def accept (sid : W32) (i : Nat) (d : Descriptor) (s : State) : State :=
  let c := chanGet s i
  let j : Journal := { d := d, deadline := c.deadline, tc := c.tc, state := .accepted, session := sid, plate := acceptDigest s,
                       after := awaitsSwap s, verdict := 0 }
  let s1 := chanPut i { c with accepted := d.seq.toNat, journal := mput c.journal d.seq.toNat j } s
  if (chanCopies s c).length < 2 then bump (rcvCnt 3) 1 s1 else s1

/-- A resubmission (R106): code and flags of its receipt. -/
def resubmit (c : Chan) (d : Descriptor) : W16 × Nat :=
  if d.seq.toNat ≤ c.retired then (cSeqRetired, 0)
  else match mlook c.journal d.seq.toNat with
    | some j => if j.d = d then (cOk, 3) else (cSeqConflict, 0)
    | none => (cSeqConflict, 0)

/-- A descriptor item: its receipt and what it does (R104, Table 4.4). -/
def submitItem (sid : W32) (d : Descriptor) (s : State) : List Byte × State :=
  let no := fun (c : W16) => (receipt d c 0, s)
  if !descFields d then no cDescriptorInvalid
  else
    let h := handleCode s d.handle
    if h ≠ cOk then no h
    else if roleOf s sid ≠ .operator then (receipt d cRoleRefused 0, auditRefused sid 0 d.opcode.toNat s)
    else
      let i := handleIdx d.handle
      let c := chanGet s i
      if d.seq.toNat ≤ c.accepted then
        let (code, fl) := resubmit c d
        (receipt d code fl, s)
      else if s.rcv.double then no cDoubleFault
      else if d.seq.toNat ≠ c.accepted + 1 then no cSeqGap
      else if c.state ≠ .opened ∧ c.state ≠ .paused then no cChannelClosing
      else
        let t := descTail s i c d
        if t ≠ cOk then no t else (receipt d cOk 1, accept sid i d s)

/-! ## Closing and freeing (R99, R120-R122) -/

/-- A control reply (Table 4.9). -/
def ctlReply (op : Nat) (code : W16) (h : W32) (tag : W64) (v0 v1 : Nat) : List Byte :=
  leBytes 2 op ++ leBytes 2 code.toNat ++ leBytes 4 h.toNat ++ leBytes 8 tag.toNat ++ leBytes 8 v0 ++ leBytes 8 v1

/-- A CLOSED channel whose last completion is retired goes to FREE with its generation advanced (R97). -/
def freeIfDue (i : Nat) (s : State) : State :=
  let c := chanGet s i
  if c.state = .closed ∧ c.last ≤ c.retired then
    let g : W16 := if c.gen = 0xFFFF#16 then 1 else c.gen + 1
    { chanPut i { Chan.init with gen := g } s with
      runs := s.runs.filter (fun p => p.1 / 2 ^ 48 ≠ i), applied := s.applied.filter (fun p => p.1 % 4096 ≠ i) }
  else s

/-- A DRAINING or CANCELLING channel whose COMPLETED_THROUGH has reached LAST_SEQ is CLOSED, and its DESTROY replies go (R120). -/
def closeIfDue (i : Nat) (s : State) : State :=
  let c := chanGet s i
  if (c.state = .draining ∨ c.state = .cancelling) ∧ c.last ≤ c.completed then
    let h := handleOf i c
    let s1 := c.waiting.foldl (fun s w => sendAnswer w.sid (ctlReply 0x8002 cOk h w.tag c.last 0) s)
      (chanPut i { c with state := .closed, held := false, waiting := [] } s)
    freeIfDue i s1
  else s

/-! ## Control items (R117-R121) -/

/-- Reserved fields of a control item other than CREATE and its argument 1. -/
def ctlPlain (c : CtlItem) : Bool := decide (c.rsvd0 = 0) && decide (c.rsvd1 = 0)

/-- Step 1 of R118. -/
def ctlFields (op : Nat) (c : CtlItem) : Bool :=
  let a := c.arg0.toNat
  ctlPlain c && (match op with
    | 0x8001 => decide (c.handle = 0) && decide (a / 2 ^ 10 % 64 = 0) && decide (a / 2 ^ 21 = 0) && decide (6 ≤ a / 2 ^ 16)
        && decide (a / 2 ^ 16 ≤ 16) && decide (c.arg1.toNat < 2 ^ 32)
    | 0x8002 => decide (a ≤ 1) && decide (c.arg1 = 0)
    | 0x8003 => decide (c.arg1 = 0)
    | 0x8004 => decide (a ≤ 3) && decide (c.arg1 = 0)
    | _ => decide (a < 2 ^ 32) && decide (c.arg1 = 0))

/-- The CHANNEL record of a CREATE or DESTROY (22 Table 22.4). -/
def auditChannel (sid : W32) (code : W16) (op : Nat) (h : W32) (inlet mode : Nat) (s : State) : State :=
  audit 0x07 code sid 0 (leBytes 2 op ++ leBytes 4 h.toNat ++ leBytes 1 inlet ++ leBytes 1 mode) s

/-- What a control operation answers: code, handle, VALUE0, VALUE1. -/
structure CtlAns where
  code : W16
  handle : W32
  v0 : Nat := 0
  v1 : Nat := 0
  deriving DecidableEq, Repr

/-- The lowest FREE index. -/
def freeIndex? (s : State) : Option Nat := (List.range 4096).find? (fun i => decide ((chanGet s i).state = .free))

/-- The inlet that a CREATE binds to (R119): of the committed plate or of the case in force, with no recourse to the normal
configuration (02 R573). -/
def createInlet (s : State) (n : Nat) : W16 × Nat :=
  if awaitsSwap s then
    match standbyPlate s with
    | none => (cNoPlate, 0)
    | some p => match inletNum p normalCase n with | none => (cInletMissing, 0) | some x => (cOk, x.maxTc)
  else
    match activePlate s with
    | none => (cNoPlate, 0)
    | some p => match inletNum p (caseNow s) n with | none => (cInletMissing, 0) | some x => (cOk, x.maxTc)

/-- The placement a CREATE takes: the device's own choice among those that fit (a free value, notes/assumptions/23.md). -/
def ringChoice (s : State) (log2 : Nat) : Option (Nat × Nat) :=
  let ps := ringPlaces s log2
  if ps = [] then none else ps[(Config.free64 s.free).toNat % ps.length]?

/-- CREATE on index `i`, its ring placed (R119). -/
def openChan (i : Nat) (item : CtlItem) (at_ : Nat × Nat) (s : State) : State :=
  let a := item.arg0.toNat
  let log2 := a / 2 ^ 16
  let m := (at_.1 + 2) % 16
  let c : Chan := { Chan.init with
    gen := (chanGet s i).gen, state := .opened, inlet := BitVec.ofNat 8 (a % 256), tc := BitVec.ofNat 2 (a / 256 % 4),
    ringLog2 := log2, deadline := BitVec.ofNat 32 item.arg1.toNat, ringOff := at_.2, primary := at_.1, mirror := m,
    fresh := awaitsSwap s }
  let n := 32 * 2 ^ log2
  let z := zeroKeys (hbmKey m (0xFEC000000 + at_.2)) n (zeroKeys (hbmKey at_.1 (0xFEC000000 + at_.2)) n s)
  { chanPut i c z with free := s.free + 1, applied := s.applied.filter (fun p => p.1 % 4096 ≠ i) }

/-- A Causeway address of this device: node 4,095. -/
def causeway (a : Nat) : Nat := 2 ^ 52 * 4095 + a

/-- The rules of CREATE in the order of R119. -/
def createItem (item : CtlItem) (s : State) : CtlAns × State :=
  let a := item.arg0.toNat
  let no := fun (c : W16) => (({ code := c, handle := item.handle } : CtlAns), s)
  let (code, maxTc) := createInlet s (a % 256)
  if code ≠ cOk then no code
  else if maxTc < a / 256 % 4 then no cTcNotAllowed
  else match freeIndex? s with
    | none => no cNoFreeChannel
    | some i =>
      match ringChoice s (a / 2 ^ 16) with
      | none => no cRingSpace
      | some at_ =>
        let t := openChan i item at_ s
        let c := chanGet t i
        ({ code := cOk, handle := handleOf i c, v0 := causeway (ringAddr c c.primary 0), v1 := causeway (ringAddr c c.mirror 0) }, t)

/-- Every accepted descriptor that has not committed takes a verdict; what it staged is dropped, the slots its flips name freed
(R120, 17 R418). -/
def dropRun (k : Nat) (s : State) : State :=
  let s1 := (runGet s k).eff.foldl (fun s e => match e with
    | .flip t _ st sl => dropSlot t (slotKey st sl) s
    | _ => s) s
  { s1 with runs := mdel s1.runs k }

/-- Cancel mode on channel `i` (R120). -/
def cancelChan (i : Nat) (s : State) : State :=
  let c := chanGet s i
  let s1 := c.journal.foldl (fun s p => if p.2.state = .accepted then dropRun (runNum i p.1) s else s) s
  chanPut i { c with state := .cancelling, held := false,
                     journal := c.journal.map (fun p =>
                       if p.2.state = .accepted then (p.1, { p.2 with verdict := cCancelled, after := false }) else p) } s1

/-- DESTROY of channel `i` (R120, R121, Table 4.2). -/
def destroyItem (sid : W32) (i : Nat) (item : CtlItem) (s : State) : CtlAns × State :=
  let c := chanGet s i
  let cancel := decide (item.arg0 ≠ 0)
  if c.state = .closed then ({ code := cOk, handle := item.handle, v0 := c.last }, s)
  else if c.state = .cancelling ∧ !cancel then ({ code := cChannelClosing, handle := item.handle }, s)
  else
    let last := if c.state = .opened ∨ c.state = .paused then c.accepted else c.last
    let s1 := chanPut i { c with last := last } s
    let s2 := if cancel && c.state ≠ .cancelling then cancelChan i s1
      else if !cancel && c.state ≠ .draining then
        chanPut i { c with last := last, state := .draining, held := decide (c.state = .paused) } s1
      else s1
    let c2 := chanGet s2 i
    let s3 := if c.completed < last then chanPut i { c2 with waiting := c2.waiting ++ [{ sid := sid, tag := item.tag }] } s2 else s2
    ({ code := cOk, handle := item.handle, v0 := last }, closeIfDue i s3)

/-- RETIRE on channel `i` (R117): retired slots become EMPTY of the next lap. -/
def retireItem (i : Nat) (item : CtlItem) (s : State) : CtlAns × State :=
  let c := chanGet s i
  let new := max c.retired (min item.arg0.toNat c.completed)
  let s1 := (List.range (new - c.retired)).foldl (fun s k =>
    let n := c.retired + 1 + k
    ringWrite c n (emptySlot (n / c.slots + 1)) s) s
  let s2 := chanPut i { c with retired := new, journal := c.journal.filter (fun p => new < p.1) } s1
  ({ code := cOk, handle := item.handle, v0 := new, v1 := c.completed }, freeIfDue i s2)

/-- SET_TC and SET_DEADLINE: the channel is OPEN or PAUSED (R119). -/
def setTcItem (i : Nat) (item : CtlItem) (s : State) : CtlAns × State :=
  let c := chanGet s i
  let top := ((acceptPlate s c.inlet.toNat).bind (fun p => inletNum p.1 p.2 c.inlet.toNat)).map (·.maxTc)
  if c.state ≠ .opened ∧ c.state ≠ .paused then ({ code := cChannelClosing, handle := item.handle }, s)
  else if (match top with | some m => decide (m < item.arg0.toNat) | none => false) then
    ({ code := cTcNotAllowed, handle := item.handle }, s)
  else ({ code := cOk, handle := item.handle }, chanPut i { c with tc := BitVec.ofNat 2 item.arg0.toNat } s)

/-- SET_DEADLINE. -/
def setDeadlineItem (i : Nat) (item : CtlItem) (s : State) : CtlAns × State :=
  let c := chanGet s i
  if c.state ≠ .opened ∧ c.state ≠ .paused then ({ code := cChannelClosing, handle := item.handle }, s)
  else ({ code := cOk, handle := item.handle }, chanPut i { c with deadline := BitVec.ofNat 32 item.arg0.toNat } s)

/-- Step 4 of R118 for an opcode. -/
def ctlRules (op : Nat) (sid : W32) (item : CtlItem) (s : State) : CtlAns × State :=
  let i := handleIdx item.handle
  match op with
  | 0x8001 => createItem item s
  | 0x8002 => destroyItem sid i item s
  | 0x8003 => retireItem i item s
  | 0x8004 => setTcItem i item s
  | _ => setDeadlineItem i item s

/-- CREATE and DESTROY leave a record (22 R513), written before they take effect (R515). -/
def ctlAudit (op : Nat) (sid : W32) (item : CtlItem) (before : State) (a : CtlAns) (s : State) : State :=
  if op = 0x8001 then auditChannel sid a.code op a.handle (item.arg0.toNat % 256) 0 s
  else if op = 0x8002 then
    auditChannel sid a.code op a.handle (chanGet before (handleIdx item.handle)).inlet.toNat (item.arg0.toNat % 256) s
  else s

/-- A control item: its reply and what it does (R118). -/
def controlItem (op : Nat) (sid : W32) (item : CtlItem) (s : State) : List Byte × State :=
  let reply := fun (a : CtlAns) => ctlReply op a.code a.handle item.tag a.v0 a.v1
  let no := fun (c : W16) =>
    let a : CtlAns := { code := c, handle := item.handle }
    (reply a, ctlAudit op sid item s a s)
  if !ctlFields op item then no cControlInvalid
  else
    let h := if op = 0x8001 then cOk else handleCode s item.handle
    if h ≠ cOk then no h
    else if roleOf s sid ≠ .operator then
      (reply { code := cRoleRefused, handle := item.handle }, auditRefused sid 0 op s)
    else
      let (a, t) := ctlRules op sid item s
      (reply a, ctlAudit op sid item s a t)

/-! ## The rows -/

/-- DESCRIPTOR_SUBMIT (R104): an ANSWER with the receipt. -/
def execDescriptorSubmit (sid : W32) (d : Descriptor) (s : State) : Host.Outcome State Fault Refusal :=
  let (b, t) := submitItem sid d s
  .next (sendAnswer sid b t)

/-- A control item as its own work message: the ANSWER with the reply or placeholder (R102). -/
def ctlStep (op : Nat) (sid : W32) (c : CtlItem) (s : State) : State :=
  let (b, t) := controlItem op sid c s
  sendAnswer sid b t

/-- CREATE (R119). -/
def execCreate (sid : W32) (c : CtlItem) (s : State) : Host.Outcome State Fault Refusal := .next (ctlStep 0x8001 sid c s)
/-- DESTROY (R120). -/
def execDestroy (sid : W32) (c : CtlItem) (s : State) : Host.Outcome State Fault Refusal := .next (ctlStep 0x8002 sid c s)
/-- RETIRE (R117). -/
def execRetire (sid : W32) (c : CtlItem) (s : State) : Host.Outcome State Fault Refusal := .next (ctlStep 0x8003 sid c s)
/-- SET_TC (R118, R119). -/
def execSetTc (sid : W32) (c : CtlItem) (s : State) : Host.Outcome State Fault Refusal := .next (ctlStep 0x8004 sid c s)
/-- SET_DEADLINE (R118, R119). -/
def execSetDeadline (sid : W32) (c : CtlItem) (s : State) : Host.Outcome State Fault Refusal := .next (ctlStep 0x8005 sid c s)

/-! ## Work messages (R101, R102) -/

/-- A descriptor from 64 bytes (Table 4.3). -/
def descriptorOf (b : List Byte) : Descriptor :=
  { opcode := BitVec.ofNat 16 (u16At b 0), flags := BitVec.ofNat 16 (u16At b 2), handle := BitVec.ofNat 32 (u32At b 4),
    seq := BitVec.ofNat 64 (u64At b 8), inAddr := BitVec.ofNat 64 (u64At b 16), inLen := BitVec.ofNat 64 (u64At b 24),
    outAddr := BitVec.ofNat 64 (u64At b 32), outLen := BitVec.ofNat 64 (u64At b 40), paramAddr := BitVec.ofNat 64 (u64At b 48),
    paramLen := BitVec.ofNat 32 (u32At b 56), rsvd := BitVec.ofNat 32 (u32At b 60) }

/-- A control item from 64 bytes (Table 4.8). -/
def ctlOf (b : List Byte) : CtlItem :=
  { rsvd0 := BitVec.ofNat 16 (u16At b 2), handle := BitVec.ofNat 32 (u32At b 4), tag := BitVec.ofNat 64 (u64At b 8),
    arg0 := BitVec.ofNat 64 (u64At b 16), arg1 := BitVec.ofNat 64 (u64At b 24), rsvd1 := BitVec.ofNat 256 (fieldAt 32 b 32) }

/-- One item of a work message whose framing holds or not. -/
def workItem (sid : W32) (framed : Bool) (b : List Byte) (s : State) : List Byte × State :=
  let op := u16At b 0
  if framed && decide (1 ≤ op) && decide (op ≤ 0x7FFF) then submitItem sid (descriptorOf b) s
  else if framed && decide (0x8001 ≤ op) && decide (op ≤ 0x8005) then controlItem op sid (ctlOf b) s
  else (receipt (descriptorOf b) cDescriptorInvalid 0, s)

/-- The items in message order, each as if alone at its place (R100). -/
def workItems (sid : W32) (framed : Bool) : List (List Byte) → State → List Byte × State
  | [], s => ([], s)
  | b :: t, s =>
    let (a, s1) := workItem sid framed b s
    let (rest, s2) := workItems sid framed t s1
    (a ++ rest, s2)

/-- A work message of a session: one answer message with every item's answer (R101, R102). -/
def workMessage (sid : W32) (data : List Byte) (s : State) : State :=
  let n := data.length
  let framed := decide (n % 64 = 0) && decide (0 < n) && decide (n ≤ 4096)
  let (a, t) := workItems sid framed ((chunks 64 data).filter (fun b => decide (b.length = 64))) s
  if a = [] then t else sendAnswer sid a t

end Sys2Proof.Machine
end

