-- ==== Sys2Proof/Machine/Joins.lean ====
section
/-! DEFINITION. JOIN_PROBE, JOIN_BUILD, NEAR_DUP_PROBE and NEAR_DUP_BUILD (08 R205-R216). -/

namespace Sys2Proof.Machine

/-! ## Entries and tables -/

/-- A join entry (Table 8.7). -/
structure JoinOp where
  kind : Nat
  method : Nat
  keys : List Nat
  nullMask : Nat
  maxMatch : Nat
  out : Nat
  flag : Nat
  base : Nat
  asu : Nat
  nulls : List Nat
  deriving DecidableEq, Repr

/-- The entry of 96 bytes. -/
def joinOf (b : List Byte) : JoinOp :=
  { kind := u8At b 0, method := u8At b 1, keys := (List.range (min 8 (u8At b 2))).map (fun i => u8At b (8 + i)),
    nullMask := u8At b 3, maxMatch := u16At b 4, out := u8At b 6, flag := u8At b 7, base := u64At b 16 % 2 ^ 52,
    asu := u8At b 24, nulls := (List.range 8).map (fun i => u64At b (32 + 8 * i)) }

/-- A join table header (Table 8.8). -/
structure JoinHdr where
  keyBytes : Nat
  rows : Nat
  cap : Nat
  pay : Nat
  index : Nat
  ok : Bool
  bytes : List Byte
  deriving DecidableEq, Repr

/-- The header of 64 bytes; `ok` tells that MAGIC, VERSION and HDR_CRC are right. -/
def joinHdrOf (b : List Byte) : JoinHdr :=
  { keyBytes := u8At b 6, rows := u32At b 8, cap := u32At b 12, pay := u32At b 16, index := u64At b 24,
    ok := decide (u32At b 0 = 0x544A4B41) && decide (u16At b 4 = 1) && decide (u32At b 0x3C = (crc32c (b.take 0x3C)).toNat),
    bytes := b }

/-- Bytes of a row. -/
def JoinHdr.rowBytes (h : JoinHdr) : Nat := 32 + h.pay

/-- Address of row `r` (R210). -/
def joinRowAddr (base : Nat) (h : JoinHdr) (r : Nat) : Nat := base + 64 + r * h.rowBytes

/-- A row as it stands: key, VALID, NULL_KEY. -/
structure JoinRow where
  key : BitVec 128
  valid : Bool
  null : Bool
  deriving DecidableEq, Repr

/-- Row `r`. -/
def joinRow (s : State) (base : Nat) (h : JoinHdr) (r : Nat) : JoinRow :=
  let b := readMem s (joinRowAddr base h r) 20
  { key := BitVec.ofNat 128 (leNat (b.take 16)), valid := bit (u32At b 16) 0, null := bit (u32At b 16) 1 }

/-- The payload of row `r`. -/
def joinPayload (s : State) (base : Nat) (h : JoinHdr) (r : Nat) : List Byte := readMem s (joinRowAddr base h r + 32) h.pay

/-- The current index of the table at a local address. -/
def joinIndex (s : State) (base : Nat) : JoinIdx := mget { method := 0, rows := [] } s.joins base

/-- Rows that the index names under a key and whose stored key still equals it, ascending (R207, R212). -/
def joinMatches (s : State) (base : Nat) (h : JoinHdr) (key : BitVec 128) : List Nat :=
  ((joinIndex s base).rows.filter (fun p =>
    decide (p.2 = key) && (let r := joinRow s base h p.1; decide (r.key = key) && !r.null))).map (·.1)

/-- A key's 16 bytes as a number. -/
def key16 (b : List Byte) : BitVec 128 := BitVec.ofNat 128 (leNat b)

/-! ## Probing (R205-R208, R212) -/

/-- A field of a probe is null (R206). -/
def nullField (r : DRec) (stream value : Nat) : Bool :=
  match streamOf r stream with
  | some t => decide (leNat t.data = value % 2 ^ (8 * t.data.length))
  | none => false

/-- The probe key is null. -/
def nullKey (e : JoinOp) (r : DRec) : Bool :=
  ((e.keys.zip e.nulls).zipIdx).any (fun p => bit e.nullMask p.2 && nullField r p.1.1 p.1.2)

/-- The output records of a probe with matching rows `ms` (R205); nothing where it is dropped. -/
def joinOutput (s : State) (e : JoinOp) (h : JoinHdr) (r : DRec) (ms : List Nat) : List DRec :=
  let pay := fun (b : List Byte) => ({ shape := 2, fmt := 0, w := 8, data := b } : SEnt)
  let flag := fun (v : Nat) (q : DRec) => if e.kind = 1 then setStream e.flag (scalarEnt 12 1 v) q else q
  match e.kind with
  | 2 => if ms = [] then [] else [r]
  | 3 => if ms = [] then [r] else []
  | k =>
    if ms = [] then (if k = 1 then [flag 0 (setStream e.out (pay (zeros h.pay)) r)] else [])
    else ms.map (fun m => flag 1 (setStream e.out (pay (joinPayload s e.base h m)) r))

/-- What the probes of a stage have come to. -/
structure JoinAcc where
  out : List DRec
  dropped : Nat
  probes : Nat
  found : Nat
  nulls : Nat
  code : W16
  /-- The rows read where `code` came. -/
  met : List (Nat × Nat)
  deriving DecidableEq, Repr

/-- One probe. Where a probe fails no later one runs. -/
def joinProbe1 (s : State) (x : Ctx) (e : JoinOp) (h : JoinHdr) (a : JoinAcc) (r : DRec) : JoinAcc :=
  if a.code ≠ 0 then a
  else if !sound r then { a with out := a.out ++ [r] }
  else
    match canonKey r e.keys with
    | none => { a with out := a.out ++ [r] }
    | some kb =>
      let null := nullKey e r
      let named := if null then [] else ((joinIndex s e.base).rows.filter (fun p => decide (p.2 = key16 kb))).map (·.1)
      let acc := firstCode (named.map (fun m => engRead s x.p x.c x.st (joinRowAddr e.base h m) h.rowBytes))
      if acc ≠ 0 then { a with code := acc, met := named.map (fun m => (joinRowAddr e.base h m, h.rowBytes)) }
      else
        let ms := if null then [] else joinMatches s e.base h (key16 kb)
        let a1 := { a with probes := a.probes + 1, found := a.found + ms.length, nulls := a.nulls + null.toNat }
        if e.kind ≤ 1 ∧ e.maxMatch < ms.length then { a1 with code := 0x7101 }
        else
          let o := joinOutput s e h r ms
          { a1 with out := a1.out ++ o, dropped := a1.dropped + (if o = [] then 1 else 0) }

/-- A record put before those of greater key (method 3, R207). -/
def insByKey (keys : List Nat) (r : DRec) : List DRec → List DRec
  | [] => [r]
  | q :: t =>
    let k := fun (d : DRec) => leNat ((canonKey d keys).getD [])
    if k r ≤ k q then r :: q :: t else q :: insByKey keys r t

/-- The order in which a stage takes its probes (R207). -/
def probeOrder (e : JoinOp) (rs : List DRec) : List DRec :=
  if e.method = 3 then rs.filter (fun r => !sound r) ++ (rs.filter sound).foldr (insByKey e.keys) [] else rs

/-- The canonical length of the entry's key in the records, where some record carries it. -/
def keyLength (e : JoinOp) (rs : List DRec) : Option Nat :=
  ((rs.filter sound).findSome? (fun r => canonKey r e.keys)).map List.length

/-- The probe stage of a join. -/
def joinProbeStage (x : Ctx) (s : State) : State :=
  match recKind x.rs 8 with
  | none => s
  | some rec =>
    let e := joinOf rec.body
    match engRead s x.p x.c x.st e.base 64 with
    | 0 =>
      let h := joinHdrOf (readMem s e.base 64)
      if !h.ok || h.index = 0 || !((keyLength e x.run.recs).all (fun n => decide (n = h.keyBytes))) then
        runPut x.num (runFail 0x7103 x.run) s
      else
        let a := (probeOrder e x.run.recs).foldl (joinProbe1 s x e h)
          { out := [], dropped := 0, probes := 0, found := 0, nulls := 0, code := 0, met := [] }
        let r := { x.run with recs := a.out, dropped := x.run.dropped + a.dropped }
        let r1 := if a.code = 0 then stageDid x 8 r else runReads s a.met cInputLost a.code r
        bumpReef x 29 a.probes (bumpReef x 30 a.found (bumpReef x 31 a.nulls
          (bumpReef x 32 (if a.code = 0x7101 then 1 else 0) (runPut x.num r1 s))))
    | c => runPut x.num (runReads s [(e.base, 64)] cInputLost c x.run) s

/-- JOIN_PROBE: a join stage that receives records. -/
def execJoinProbe (r : RunRef) (s : State) : Host.Outcome State Fault Refusal :=
  .next (unitRun 8 r.chan.toNat r.seq.toNat (fun x t => if x.entry then t else joinProbeStage x t) s)

/-! ## Building (R210, R211, R213) -/

/-- Keys per directory page of method 1. -/
def pageKeys : Nat := 30

/-- Usable offsets of a partition: every H-th offset is left free (Table 8.9). -/
def usableOffsets (t : AsuTab) : Nat := if t.hole = 0 then t.size else t.size - t.size / t.hole

/-- Partition of a key (10 R241). -/
def partOfKey (t : AsuTab) (key : BitVec 128) : Nat :=
  if t.sel = 0 then (akh64 (leBytes 16 key.toNat) t.seed).toNat / 2 ^ (64 - t.partLog) % 2 ^ t.partLog
  else key.toNat / 2 ^ (128 - t.partLog) % 2 ^ t.partLog

/-- The rows of each partition. -/
def partCount (t : AsuTab) (rows : List (Nat × BitVec 128)) (q : Nat) : Nat :=
  (rows.filter (fun p => decide (partOfKey t p.2 = q))).length

/-- The rows keep the method's limit (Table 8.9). Pages split as far as the keys allow, so a partition needs no more than its
rows fill (notes/assumptions/17.md). -/
def joinFits (s : State) (method asu : Nat) (n : Nat) (rows : List (Nat × BitVec 128)) : Bool :=
  match method with
  | 0 => decide (n ≤ 2 ^ 20)
  | 1 => (match asuTab? s asu with
      | some t => (List.range t.parts).all (fun q => decide (ceilDiv (partCount t rows q) pageKeys ≤ usableOffsets t))
      | none => false)
  | 2 => decide (n ≤ 8388608) && (match asuTab? s asu with
      | some t => (List.range t.parts).all (fun q => decide (partCount t rows q ≤ usableOffsets t))
      | none => false)
  | _ => decide (n ≤ 2 ^ 32 - 1)

/-- The rows of a table that an index names: valid and not null, ascending, with their keys. -/
def indexRows (s : State) (base : Nat) (h : JoinHdr) : List (Nat × BitVec 128) :=
  (List.range h.rows).filterMap (fun r =>
    let w := joinRow s base h r
    if w.valid && !w.null then some (r, w.key) else none)

/-- A nonzero INDEX_ADDR: the index layout is internal (R211), so its address is a free value. -/
def freeIndex (n : Nat) : Nat := let v := (Config.free64 n).toNat; if v = 0 then 1 else v

/-- The bytes a successful build writes into the header: INDEX_ADDR and HDR_CRC. -/
def joinHeaderEff (base : Nat) (hdr : List Byte) (index : Nat) : List Eff :=
  let b := patch hdr 24 (leBytes 8 index)
  [Eff.bytes (base + 24) (leBytes 8 index), Eff.bytes (base + 0x3C) (leBytes 4 (crc32c (b.take 0x3C)).toNat)]

/-- The build stage of a join. -/
def joinBuildStage (x : Ctx) (s : State) : State :=
  match recKind x.rs 8 with
  | none => s
  | some rec =>
    let e := joinOf rec.body
    match engRead s x.p x.c x.st e.base 64 with
    | 0 =>
      let h := joinHdrOf (readMem s e.base 64)
      if !h.ok then runPut x.num (runFail 0x7103 x.run) s
      else if h.cap < h.rows then runPut x.num (runFail 0x7102 x.run) s
      else
        match engRead s x.p x.c x.st e.base (64 + h.rows * h.rowBytes) with
        | 0 =>
          let rows := indexRows s e.base h
          if !joinFits s e.method e.asu h.rows rows then runPut x.num (runFail 0x7102 x.run) s
          else
            let (f, t) := takeFree s
            let eff := Eff.joinSwitch e.base e.asu { method := e.method, rows := rows } :: joinHeaderEff e.base h.bytes (freeIndex f)
            runPut x.num (stageDid x 8 { x.run with eff := x.run.eff ++ eff, recsIn := h.rows, recsOut := rows.length }) t
        | c => runPut x.num (runReads s [(e.base, 64 + h.rows * h.rowBytes)] cInputLost c x.run) s
    | c => runPut x.num (runReads s [(e.base, 64)] cInputLost c x.run) s

/-- JOIN_BUILD: a join stage that nothing feeds (notes/assumptions/13.md). -/
def execJoinBuild (r : RunRef) (s : State) : Host.Outcome State Fault Refusal :=
  .next (unitRun 8 r.chan.toNat r.seq.toNat (fun x t => if x.entry then joinBuildStage x t else t) s)

/-! ## Near-duplicates (R214-R216) -/

/-- A near-duplicate entry (02 Table 2.15, 0x0009). -/
structure NearOp where
  stream : Nat
  w : Nat
  bands : Nat
  rows : Nat
  build : Bool
  method : Nat
  asu : Nat
  seed : W64
  base : Nat
  deriving DecidableEq, Repr

/-- The entry of 32 bytes. -/
def nearOf (b : List Byte) : NearOp :=
  { stream := u8At b 0, w := u8At b 1, bands := u8At b 2, rows := u8At b 3, build := decide (u8At b 4 = 1), method := u8At b 5,
    asu := u8At b 6, seed := BitVec.ofNat 64 (u64At b 8), base := u64At b 16 % 2 ^ 52 }

/-- The shingles of a token stream's canonical tokens. -/
def shingles (w : Nat) (ts : List (List Byte)) : List (List Byte) :=
  if ts.length < w then [ts.flatten]
  else (List.range (ts.length - w + 1)).map (fun j => ((ts.drop j).take w).flatten)

/-- The least of a nonempty list of hashes. -/
def minHash (seed : W64) (ss : List (List Byte)) : W64 :=
  match ss.map (fun b => akh64 b seed) with
  | [] => 0
  | h :: t => t.foldl (fun m v => if v.toNat < m.toNat then v else m) h

/-- The band keys of a token stream (R214). -/
def bandKeys (e : NearOp) (t : SEnt) : List (BitVec 128) :=
  let toks := (chunks (elemBytes t.w) t.data).map (fun b => leBytes b.length (canonElem t.fmt (leNat b)))
  let ss := shingles e.w toks
  let k := e.bands * e.rows
  let sig := (List.range k).map (fun i => minHash (e.seed + BitVec.ofNat 64 i) ss)
  (List.range e.bands).map (fun b =>
    let h := akh64 (((sig.drop (b * e.rows)).take e.rows).flatMap (fun m => leBytes 8 m.toNat)) (e.seed + BitVec.ofNat 64 (k + b))
    BitVec.ofNat 128 (h.toNat + 2 ^ 64 * b))

/-- The representative of a row (bytes 0-7 of its payload). -/
def rowRep (s : State) (base : Nat) (h : JoinHdr) (r : Nat) : Nat := leNat (readMem s (joinRowAddr base h r + 32) 8)

/-- The header of a near-duplicate table serves it: KEY_BYTES 16 and PAYLOAD_BYTES 32. -/
def nearHdrOk (h : JoinHdr) : Bool := h.ok && decide (h.keyBytes = 16) && decide (h.pay = 32)

/-- The tokens of a record; none where it does not carry the stream. -/
def nearTokens (e : NearOp) (r : DRec) : Option SEnt := streamOf r e.stream

/-- A record is a near-duplicate (R215). -/
def isNearDup (s : State) (e : NearOp) (h : JoinHdr) (r : DRec) : Bool :=
  match nearTokens e r with
  | none => false
  | some t => t.data ≠ [] && (bandKeys e t).any (fun k => (joinMatches s e.base h k).any (fun m => decide (rowRep s e.base h m < r.idx)))

/-- Sound records without tokens. -/
def emptyRecs (e : NearOp) (rs : List DRec) : Nat :=
  (rs.filter (fun r => sound r && (match nearTokens e r with | some t => t.data.isEmpty | none => true))).length

/-- The probe stage. -/
def nearProbeStage (x : Ctx) (e : NearOp) (s : State) : State :=
  match engRead s x.p x.c x.st e.base 64 with
  | 0 =>
    let h := joinHdrOf (readMem s e.base 64)
    if !nearHdrOk h || h.index = 0 then runPut x.num (runFail 0x7103 x.run) s
    else
      match engRead s x.p x.c x.st e.base (64 + h.rows * h.rowBytes) with
      | 0 =>
        let gone := x.run.recs.filter (fun r => sound r && isNearDup s e h r)
        let keep := x.run.recs.filter (fun r => !(sound r && isNearDup s e h r))
        bumpReef x 33 gone.length (bumpReef x 34 (emptyRecs e x.run.recs)
          (runPut x.num (stageDid x 9 { x.run with recs := keep, dropped := x.run.dropped + gone.length }) s))
      | c => runPut x.num (runReads s [(e.base, 64 + h.rows * h.rowBytes)] cInputLost c x.run) s
  | c => runPut x.num (runReads s [(e.base, 64)] cInputLost c x.run) s

/-- Every band key of the sound records with its least sample index, in order of first sight. -/
def bandReps (e : NearOp) (rs : List DRec) : List (BitVec 128 × Nat) :=
  (rs.filter sound).foldl (fun acc r =>
    match nearTokens e r with
    | none => acc
    | some t =>
      if t.data = [] then acc
      else (bandKeys e t).foldl (fun a k =>
        if a.any (fun p => decide (p.1 = k)) then a.map (fun p => if p.1 = k then (p.1, min p.2 r.idx) else p) else a ++ [(k, r.idx)]) acc) []

/-- The build stage. Its rows join the table at the descriptor's commit. -/
def nearBuildStage (x : Ctx) (e : NearOp) (s : State) : State :=
  match engRead s x.p x.c x.st e.base 64 with
  | 0 =>
    let h := joinHdrOf (readMem s e.base 64)
    if !nearHdrOk h then runPut x.num (runFail 0x7103 x.run) s
    else
      let ks := bandReps e x.run.recs
      let new := (ks.filter (fun p => decide (joinMatches s e.base h p.1 = []))).length
      if h.cap < h.rows + new then runPut x.num (runFail 0x7102 x.run) s
      else
        bumpReef x 34 (emptyRecs e x.run.recs)
          (runPut x.num (stageDid x 9 { x.run with eff := x.run.eff ++ [Eff.bandRows e.base e.asu e.method ks] }) s)
  | c => runPut x.num (runReads s [(e.base, 64)] cInputLost c x.run) s

/-- A near-duplicate stage of a mode. -/
def nearRun (build : Bool) (x : Ctx) (s : State) : State :=
  match recKind x.rs 9 with
  | none => s
  | some rec =>
    let e := nearOf rec.body
    if e.build ≠ build then s else if build then nearBuildStage x e s else nearProbeStage x e s

/-- NEAR_DUP_PROBE. -/
def execNearDupProbe (r : RunRef) (s : State) : Host.Outcome State Fault Refusal :=
  .next (unitRun 9 r.chan.toNat r.seq.toNat (nearRun false) s)

/-- NEAR_DUP_BUILD. -/
def execNearDupBuild (r : RunRef) (s : State) : Host.Outcome State Fault Refusal :=
  .next (unitRun 9 r.chan.toNat r.seq.toNat (nearRun true) s)

end Sys2Proof.Machine
end

