-- ==== Sys2Proof/Machine/Sync.lean ====
section
/-! DEFINITION. Sync objects, their waiters and errors, and barriers (14 R336-R356). -/

namespace Sys2Proof.Machine

/-! ## Lists and their programs (R336, R337) -/

/-- The number of a list: 64 x reef + 16 x sheet + list. -/
def listNum (reef sheet list : Nat) : Nat := 64 * reef + 16 * sheet + list

/-- The number of a list by its name. -/
def listKey (l : ListId) : Nat := listNum l.reef.toNat l.sheet.toNat l.list.toNat

/-- A list that has not run. -/
def SeqList.init : SeqList := { pc := 0, cur := none, wait := none, slept := false }

/-- List `k`. -/
def seqGet (s : State) (k : Nat) : SeqList := mget SeqList.init s.lists k

/-- `s` with a list set. -/
def seqPut (k : Nat) (x : SeqList) (s : State) : State := { s with lists := mset SeqList.init s.lists k x }

/-- A sequencer command (Table 14.1). -/
structure SeqCmd where
  word : Nat
  arg : Nat
  addr : Nat
  deriving DecidableEq, Repr

/-- OP of a command. -/
def SeqCmd.op (c : SeqCmd) : Nat := c.word % 256
/-- ATTACH of a command. -/
def SeqCmd.attach (c : SeqCmd) : Bool := bit c.word 31

/-- The lengths of a SEQ_PROGRAM section (R569), reef by reef. -/
def progLens (d : List Byte) : List Nat := (List.range 128).map (fun k => u32At d (4 * k))

/-- The commands of list `k` of reef `r` of the island. -/
def progList (d : List Byte) (r k : Nat) : List SeqCmd :=
  let ls := progLens d
  let skip := (ls.take (16 * r + k)).foldl (· + ·) 0
  (List.range (ls.getD (16 * r + k) 0)).map (fun i =>
    let o := 512 + 16 * (skip + i)
    { word := u32At d o, arg := u32At d (o + 4), addr := u64At d (o + 8) })

/-- The program of a list under the plate and case in force. -/
def listProg (s : State) (k : Nat) : List SeqCmd :=
  match activePlate s with
  | none => []
  | some p =>
    match sectionIn p (caseNow s) 3 (k / 512) (k / 16 % 4) with
    | some x => progList x.data (k / 64 % 8) (k % 16)
    | none => []

/-- An island whose sheet has never switched. -/
def Isl.init : Isl := { sheet := 0, switching := false, filled := false, stalled := false, turns := 0 }

/-- Island `i`. -/
def islGet (s : State) (i : Nat) : Isl := mget Isl.init s.isl i

/-- The list's sheet runs on its island. -/
def listRuns (s : State) (k : Nat) : Bool :=
  let i := k / 512
  !islLost s i && decide ((islGet s i).sheet = k / 16 % 4) && !(islGet s i).switching
    && (s.plt.active = .running || s.plt.active = .fallback || s.plt.active = .paused)

/-- The list issues `c` next: its sheet runs, it does not wait, and its program has `c` at its command index. -/
def listIssues (s : State) (k : Nat) (c : SeqCmd) : Bool :=
  let x := seqGet s k
  listRuns s k && decide (x.wait = none) && decide ((listProg s k)[x.pc]? = some c)

/-- A list goes on to command `n`. -/
def seqGo (k n : Nat) (s : State) : State := seqPut k { seqGet s k with pc := n, wait := none, slept := false } s

/-- A list goes on to its next command. -/
def seqNext (k : Nat) (s : State) : State := seqGo k ((seqGet s k).pc + 1) s

/-- SYNC_MODE is SPIN, or a recovery runs and waiters spin (R347). -/
def spins (s : State) : Bool := (rget s 0x000A0000).getLsbD 0 || s.rcv.recovering

/-- A waiter whose condition is false: under QUIESCENT it stops its handshakes, counted once a wait (R347). -/
def waiterTests (k : Nat) (s : State) : State :=
  let x := seqGet s k
  if spins s || x.slept then s
  else match x.wait with
    | some (.obj _ _ _) | some (.bar _ _) => bump (reefCnt (k / 64) 2) 1 (seqPut k { x with slept := true } s)
    | _ => s

/-- Every waiter that still spins tests again (R347). -/
def waitersTest (s : State) : State := (s.lists.map (·.1)).foldl (fun s k => waiterTests k s) s

/-! ## Objects (R338-R342) -/

/-- An unassigned object. -/
def SyncObj.init : SyncObj := { count := 0, ceiling := 0, timeout := 0, queue := [] }

/-- Object `o`. -/
def objGet (s : State) (o : Nat) : SyncObj := mget SyncObj.init s.objs o

/-- `s` with an object set. -/
def objPut (o : Nat) (x : SyncObj) (s : State) : State := { s with objs := mset SyncObj.init s.objs o x }

/-- The object may be named: it exists, is assigned, and its island is not lost (R340). -/
def objOk (s : State) (o : Nat) : Bool := decide (o < 6144) && decide ((objGet s o).ceiling ≠ 0) && !islLost s (o / 384)

/-- The head waiters whose condition holds and whose sheet runs are served, in queue order (R341, R50). -/
def objServe (o : Nat) : Nat → State → State
  | 0, s => s
  | f + 1, s =>
    let x := objGet s o
    match x.queue with
    | [] => s
    | w :: t =>
      if w.n ≤ x.count ∧ listRuns s w.list then
        objServe o f (seqNext w.list (bump (reefCnt (w.list / 64) 1) 1 (objPut o { x with count := x.count - w.n, queue := t } s)))
      else s

/-- An object's waiters served. -/
def objWake (o : Nat) (s : State) : State := objServe o (objGet s o).queue.length s

/-- SIGNAL n, from any source: its code and effect (Table 14.3, R340). -/
def objSignal (o n : Nat) (s : State) : W16 × State :=
  if !objOk s o then (cSyncTargetInvalid, s)
  else
    let x := objGet s o
    if x.ceiling < x.count + n then (cOverflow, bump (reefCnt (o / 48) 4) 1 s)
    else (cOk, objWake o (bump (reefCnt (o / 48) 0) 1 (objPut o { x with count := x.count + n } s)))

/-! ## Errors (R345, R346) -/

/-- A ring with no record. -/
def SynRing.init : SynRing := { recs := [], head := 0, written := 0 }

/-- A record written into an island's ring: SYN_ERR_PENDING, SYN_ERR_LOST, the alert. -/
def synRecord (i : Nat) (r : SynErr) (s : State) : State :=
  let g := mget SynRing.init s.synRings i
  let base := 0x01800000 + 0x10000 * i
  let s1 := { s with synRings := mset SynRing.init s.synRings i
                       { recs := mput g.recs g.head r, head := (g.head + 1) % 16, written := min 16 (g.written + 1) } }
  let lost := base + 0x404
  let s2 := if g.written = 16 ∧ rget s1 lost ≠ 0xFFFFFFFF#32 then rset lost (rget s1 lost + 1) s1 else s1
  alert 1 (rset (base + 0x400) (rget s2 (base + 0x400) ||| 1) s2)

/-- The bytes of a record (Table 14.5). -/
def SynErr.bytes (r : SynErr) : List Byte :=
  leBytes 2 r.code.toNat ++ leBytes 2 r.target ++ leBytes 1 r.reef ++ leBytes 1 r.list ++ leBytes 2 r.index
    ++ leBytes 4 r.handle.toNat ++ leBytes 2 r.count ++ leBytes 2 r.node

/-- The count a record gives: an object's count, a barrier's G modulo 2^16. -/
def targetCount (s : State) (target : Nat) : Nat :=
  if target / 2 ^ 15 = 1 then (mget (⟨0, 0, 0, []⟩ : Barrier) s.barriers (target % 2 ^ 15)).g % 65536
  else (objGet s target).count

/-- The handle of a run's channel; 0 for none. -/
def runHandle (s : State) (r : Option RunRef) : W32 :=
  match r with
  | some r => BitVec.ofNat 32 ((chanGet s r.chan.toNat).gen.toNat * 65536 + r.chan.toNat)
  | none => 0

/-- A descriptor that has not committed completes with a sync code (R345, 04 R112). -/
def runSyncFail (c : W16) (r : Option RunRef) (s : State) : State :=
  match r with
  | none => s
  | some r =>
    let k := runNum r.chan.toNat r.seq.toNat
    match journalOf s r.chan.toNat r.seq.toNat with
    | some j => if j.state = .accepted then runPut k (runFail c (runGet s k)) s else s
    | none => s

/-- The first TAKE after command `n` in list order, wrapping. -/
def nextTake (cs : List SeqCmd) (n : Nat) : Option Nat :=
  let at_ := fun (l : List Nat) => l.find? (fun i => match cs[i]? with | some c => decide (c.op = 1) | none => false)
  match at_ ((List.range (cs.length - (n + 1))).map (n + 1 + ·)) with
  | some i => some i
  | none => at_ (List.range (min (n + 1) cs.length))

/-- A sync error of a list's command at its index (R345): record, descriptor, and the list at its next TAKE; a list without a TAKE
goes on as after success. -/
def seqError (code : W16) (target k : Nat) (s : State) : State :=
  let x := seqGet s k
  let cs := listProg s k
  let take := nextTake cs x.pc
  let run := if take = none then none else x.cur
  let s1 := synRecord (k / 512)
    { code := code, target := target, reef := k / 64, list := k % 64, index := x.pc, handle := runHandle s run,
      count := targetCount s target, node := 0xFFF } s
  match take with
  | none => seqNext k s1
  | some i => seqPut k { pc := i, cur := none, wait := none, slept := false } (runSyncFail code run s1)

/-- A list's SIGNAL. -/
def seqSignal (k o n : Nat) (s : State) : State :=
  let (c, t) := objSignal o n s
  if c = cOk then seqNext k t else seqError c o k t

/-- A list's WAIT: it joins the queue and the head is served (R339, R341). -/
def seqWait (k o n timeout : Nat) (s : State) : State :=
  if !objOk s o || decide (o / 48 ≠ k / 64) then seqError cSyncTargetInvalid o k s
  else
    let x := objGet s o
    let left := if timeout = 0 then x.timeout else timeout
    let now := decide (x.queue = []) && decide (n ≤ x.count)
    let s1 := objPut o { x with queue := x.queue ++ [{ list := k, n := n }] } (seqPut k { seqGet s k with wait := some (.obj o n left) } s)
    objWake o (if now then s1 else waiterTests k s1)

/-- A list's DECREMENT. -/
def seqDecrement (k o n : Nat) (s : State) : State :=
  if !objOk s o || decide (o / 48 ≠ k / 64) then seqError cSyncTargetInvalid o k s
  else
    let x := objGet s o
    if x.count < n then seqError cUnderflow o k (bump (reefCnt (o / 48) 5) 1 s)
    else seqNext k (objPut o { x with count := x.count - n } s)

/-! ## Barriers (R352-R355) -/

/-- A barrier record (02 Table 2.13). -/
structure BarRec where
  num : Nat
  p : Nat
  timeout : Nat
  root : Nat
  parts : List Nat
  nodes : List Nat
  deriving DecidableEq, Repr

/-- The barrier records that follow the objects of a SYNC_ASSIGN section. -/
def barRecsAux : Nat → List Byte → List BarRec
  | 0, _ => []
  | n + 1, b =>
    let pc := u16At b 10
    let nc := u16At b 12
    { num := u8At b 0, p := u16At b 2, timeout := u32At b 4 % 2 ^ 24, root := u16At b 8,
      parts := (List.range pc).map (fun i => u16At b (32 + 2 * i)), nodes := (List.range nc).map (fun i => u16At b (32 + 2 * pc + 2 * i)) }
      :: barRecsAux n (b.drop (roundUp (32 + 2 * pc + 2 * nc) 8))

/-- The barrier records of a section. -/
def barRecs (d : List Byte) : List BarRec := barRecsAux (min 64 (u32At d 3072)) (d.drop 3104)

/-- The list number of a PARTS word of island `i`. -/
def partList (i w : Nat) : Nat := listNum (8 * i + w % 8) (w / 128 % 4) (w / 8 % 16)

/-- A barrier as the plate gives it over all islands. -/
structure BarPlan where
  p : Nat
  timeout : Nat
  root : Nat
  lists : List Nat
  nodes : List Nat
  deriving DecidableEq, Repr

/-- Barrier `b` of a plate under a case. -/
def barPlan (pl : Plate) (c b : Nat) : Option BarPlan :=
  let rs := (sectionsIn pl c 4).filterMap (fun x => ((barRecs x.data).find? (fun r => r.num = b)).map (fun r => (x.island, r)))
  match rs with
  | [] => none
  | (i, r) :: t =>
    some { p := r.p, timeout := r.timeout, root := r.root, nodes := r.nodes,
           lists := ((i, r) :: t).flatMap (fun q => q.2.parts.map (partList q.1)) }

/-- Barrier `b` of the plate and case in force. -/
def barNow (s : State) (b : Nat) : Option BarPlan := (activePlate s).bind (fun p => barPlan p (caseNow s) b)

/-- A barrier that has not been used. -/
def Barrier.init : Barrier := { g := 0, even := 0, odd := 0, parts := [] }

/-- Barrier `b`. -/
def barGet (s : State) (b : Nat) : Barrier := mget Barrier.init s.barriers b

/-- `s` with a barrier set. -/
def barPut (b : Nat) (x : Barrier) (s : State) : State := { s with barriers := mset Barrier.init s.barriers b x }

/-- A participant's counts. -/
def partGet (x : Barrier) (p : Nat) : Part := mget ⟨0, 0⟩ x.parts p

/-- The root counter of a parity. -/
def Barrier.cnt (x : Barrier) (g : Nat) : Nat := if g % 2 = 0 then x.even else x.odd

/-- The root counter of a parity set. -/
def Barrier.setCnt (x : Barrier) (g n : Nat) : Barrier := if g % 2 = 0 then { x with even := n } else { x with odd := n }

/-- A SIGNAL that carries a barrier arrival (KIND 1) or release (KIND 2) to a node (R353, 15 Table 15.7). -/
def sendBar (kind b g node : Nat) (s : State) : State :=
  sendToNode node { tc := 0, body := opRecord 0x07 0 (BitVec.ofNat 64 (kind + 2 ^ 16 * b + 2 ^ 32 * (g % 2 ^ 32))) 0 0 [], awaits := true,
                    run := none, fate := none } s

/-- A waiting list whose barrier condition holds goes on: w_p becomes a_p - 1 (R354). -/
def barServeList (b k : Nat) (s : State) : State :=
  match (seqGet s k).wait with
  | some (.bar b' _) =>
    let x := barGet s b
    let p := partGet x k
    if b' = b ∧ p.a ≤ x.g ∧ listRuns s k then
      seqNext k (bump (reefCnt (k / 64) 1) 1 (barPut b { x with parts := mset ⟨0, 0⟩ x.parts k { p with w1 := p.a } } s))
    else s
  | _ => s

/-- Every waiting participant of a barrier served. -/
def barWake (b : Nat) (ls : List Nat) (s : State) : State := ls.foldl (fun s k => barServeList b k s) s

/-- Generation G completes at this device: its counter clears, G advances, every participant is released (R354). -/
def barRelease (b : Nat) (pl : BarPlan) (s : State) : State :=
  let x := barGet s b
  let y := { x.setCnt x.g 0 with g := x.g + 1 }
  let s1 := pl.lists.foldl (fun s k => bump (reefCnt (k / 64) 8) 1 s) (barPut b y s)
  let s2 := pl.nodes.foldl (fun s n =>
    let q := partGet (barGet s b) (0x10000 + n)
    sendBar 2 b x.g n (barPut b { barGet s b with parts := mset ⟨0, 0⟩ (barGet s b).parts (0x10000 + n) { q with w1 := x.g + 1 } } s)) s1
  barWake b pl.lists s2

/-- Generations that have reached P complete at the root, the next one too where its arrivals are all there. -/
def barComplete (b : Nat) (pl : BarPlan) : Nat → State → State
  | 0, s => s
  | f + 1, s =>
    let x := barGet s b
    if pl.root = 0xFFF ∧ x.cnt x.g = pl.p then barComplete b pl f (barRelease b pl s) else s

/-- An arrival of participant `p` counted in its generation's parity; a root elsewhere is told when the count is P. -/
def barCount (b : Nat) (pl : BarPlan) (p : Nat) (s : State) : State :=
  let x := barGet s b
  let q := partGet x p
  let n := x.cnt q.a + 1
  let s1 := barPut b { x.setCnt q.a n with parts := mset ⟨0, 0⟩ x.parts p { q with a := q.a + 1 } } s
  if pl.root = 0xFFF then barComplete b pl 2 s1 else if n = pl.p then sendBar 1 b q.a pl.root s1 else s1

/-- A participant's arrival would be a lap: g is at least w + 3. -/
def barLaps (s : State) (b p : Nat) : Bool := let q := partGet (barGet s b) p; decide (q.w1 + 2 ≤ q.a)

/-- BARRIER_LAP of a list. -/
def seqLap (b k : Nat) (s : State) : State := seqError cBarrierLap (0x8000 + b) k (bump (reefCnt (k / 64) 9) 1 s)

/-- A list's arrival, without its advance. -/
def listArrives (b : Nat) (pl : BarPlan) (k : Nat) (s : State) : State := barCount b pl k (bump (reefCnt (k / 64) 7) 1 s)

/-- A list waits on a barrier, and is served where the condition holds. -/
def seqBarWait (b : Nat) (pl : BarPlan) (k timeout : Nat) (s : State) : State :=
  let x := barGet s b
  let p := partGet x k
  if p.a = 0 then seqNext k s
  else
    let left := if timeout = 0 then pl.timeout else timeout
    let s1 := seqPut k { seqGet s k with wait := some (.bar b left) } s
    barServeList b k (if p.a ≤ x.g then s1 else waiterTests k s1)

/-! ## Sheets and resets -/

/-- The waiters of a list's object or barrier tried again, when its sheet runs again (R50). -/
def seqResume (k : Nat) (s : State) : State :=
  match (seqGet s k).wait with
  | some (.obj o _ _) => objWake o s
  | some (.bar b _) => barServeList b k s
  | _ => s

/-- The objects of island `i` as a SYNC_ASSIGN section gives them. -/
def assignObjs (i : Nat) (d : List Byte) (s : State) : State :=
  (List.range 384).foldl (fun s k =>
    objPut (384 * i + k) { count := u16At d (8 * k + 2), ceiling := u16At d (8 * k), timeout := u32At d (8 * k + 4) % 2 ^ 24, queue := [] } s) s

/-- Every object and barrier takes the plate's values, G = 0, a = 0, w = -1 (R356). -/
def syncAssign (p : Plate) (c : Nat) (s : State) : State :=
  (sectionsIn p c 4).foldl (fun s x => assignObjs x.island x.data s) { s with objs := [], barriers := [], yzApplied := [] }

/-! ## Yazer SIGNAL (15 R384) -/

/-- The record of a Yazer source: the object's island, or the lowest that is not lost (R346). -/
def synRecordPeer (code : W16) (target island node : Nat) (s : State) : State :=
  synRecord (if islLost s island then firstIsland s else island)
    { code := code, target := target, reef := 255, list := 255, index := 0xFFFF, handle := 0, count := targetCount s target,
      node := if node ≤ 4094 then node else 0xFFF } s

/-- KIND 0 from node `node`: the code that answers it. -/
def yzSignalObj (o n node : Nat) (s : State) : W16 × State :=
  let (c, t) := objSignal o n s
  if c = cOk then (c, { t with yzApplied := mmod 0 t.yzApplied o (· + 1) }) else (c, synRecordPeer c (o % 8192) (o / 384 % 16) node t)

/-- KIND 1 and 2 from node `node` (R353, R384). -/
def yzSignalBar (kind b g node : Nat) (s : State) : W16 × State :=
  match barNow s b with
  | none => (cSignalRefused, s)
  | some pl =>
    if kind = 1 then
      if pl.root ≠ 0xFFF || !pl.nodes.contains node then (cSignalRefused, s)
      else if barLaps s b (0x10000 + node) then (cBarrierLap, synRecordPeer cBarrierLap (0x8000 + b) (firstIsland s) node s)
      else (cOk, barCount b pl (0x10000 + node) s)
    else
      if pl.root ≠ node then (cSignalRefused, s)
      else if (barGet s b).g % 2 ^ 32 = g then (cOk, barRelease b pl s)
      else (cOk, s)

end Sys2Proof.Machine
end

