-- ==== Sys2Proof/Machine/Commit.lean ====
section
/-! DEFINITION. The commit point, the batches of deferred effects and the completion record (17 R406-R418, 04 R110-R116). -/

namespace Sys2Proof.Machine

/-! ## Targets and sizes (R414-R416) -/

/-- The local address where an effect lands; nothing for one that lands in no memory. -/
def effAddr (s : State) : Eff → Option Nat
  | .bytes a _ => some a
  | .orByte a _ => some a
  | .slotHead a _ _ _ => some a
  | .delivered a _ _ => some a
  | .joinSwitch b _ _ => some b
  | .bandRows b _ _ _ => some b
  | .scatter t step row _ _ => (embTab? s t).map (fun e => deltaAddr e step row)
  | .flip t row _ _ => (embTab? s t).map (fun e => e.ind + 8 * row)
  | .fold t step _ _ _ => (embTab? s t).map (fun e => e.delta step)
  | .initTable t => (embTab? s t).map (·.ind)
  | .signal .. => none
  | .peer .. => none

/-- The island whose batch carries an effect: that of its first byte (notes/assumptions/36.md), of a signal's object; nothing
for an operation on another device. A signal for a lost island's object is judged by its issuer. -/
def effIsland (s : State) (e : Eff) : Option Nat :=
  match e with
  | .peer .. => none
  | .signal o _ l _ => some (if decide (6144 ≤ o) || islLost s (o / 384) then l / 512 else o / 384)
  | _ => some (((effAddr s e).bind homeIsland).getD (firstIsland s))

/-- The islands that a run's deferred effects target. -/
def effIslands (s : State) (es : List Eff) : List Nat := (List.range 16).filter (fun i => es.any (fun e => effIsland s e = some i))

/-- Bytes that an effect takes in the commit log: its payload (notes/assumptions/37.md). -/
def effSize : Eff → Nat
  | .bytes _ d => d.length
  | .orByte _ _ => 1
  | .slotHead _ _ _ d => d.length
  | .bandRows _ _ _ rs => 24 * rs.length
  | .scatter _ _ _ f xs => elemBytes (fmtWidth f 0) * xs.length
  | .peer _ _ _ _ _ d => 32 + d.length
  | _ => 8

/-- Bytes of a run's deferred effects. -/
def effBytes (es : List Eff) : Nat := es.foldl (fun n e => n + effSize e) 0

/-- Bytes of the commit log in use on stack `k`: those of descriptors committed and not completed. -/
def logUsed (s : State) (k : Nat) : Nat :=
  s.chans.foldl (fun n p =>
    if (chanCopies s p.2).contains k then
      p.2.journal.foldl (fun n j => if j.2.state = .committed then n + effBytes (runGet s (runNum p.1 j.1)).eff else n) n
    else n) 0

/-- The commit log of every copy of the channel has room for `n` bytes more (R410, R416). -/
def logFits (s : State) (c : Chan) (n : Nat) : Bool := (chanCopies s c).all (fun k => decide (logUsed s k + n ≤ 0x8000000))

/-! ## DESCRIPTOR_COMMIT (R414) -/

/-- Every stage of the run has finished: none is left in its chain, or one failed. -/
def runFinished (s : State) (c : Chan) (x : Run) : Bool :=
  x.halted || (match activePlate s with
    | none => false
    | some p => match inletNum p (caseNow s) c.inlet.toNat with
      | none => false
      | some inl => decide (inl.chain.length ≤ x.pos))

/-- Deferred effects withdrawn from a run: those beyond 16 MiB (R416). -/
def capEff (k : Nat) (s : State) : State :=
  let x := runGet s k
  if effBytes x.eff ≤ 0x1000000 then s
  else
    let s1 := x.eff.foldl (fun s e => match e with
      | .flip t _ st sl => dropSlot t (slotKey st sl) s
      | _ => s) s
    runPut k { runCode cCommitTooLarge x with eff := [] } s1

/-- Some deferred target, and with it the descriptor, was lost before the commit (R424). -/
def lostTarget (s : State) (es : List Eff) : Bool := (effIslands s es).any (islLost s)

/-- A descriptor's operation on another device is sent, or waits for a session (R417). -/
def dispatchPeer (k : Nat) (tc : BitVec 2) (s : State) (e : Eff) : State :=
  match e with
  | .peer n op a o0 o1 d =>
    sendToNode n { tc := tc, body := opRecord op a o0 o1 d.length d, awaits := true, run := some k, fate := none } s
  | _ => s

/-- Marks in a run's `did`: its commit waits for log space. -/
def logMark : Nat := 0x2001

/-- The commit point of descriptor `n` of channel `i`: STATE 1, COMMITTED_THROUGH, and dispatch to peers. -/
def commitNow (i n : Nat) (j : Journal) (s : State) : State :=
  let c := chanGet s i
  let k := runNum i n
  let s1 := chanPut i { c with committed := n, journal := mput c.journal n { j with state := .committed } } s
  (runGet s k).eff.foldl (dispatchPeer k j.tc) s1

/-- Descriptor `n` of channel `i` commits where R414's conditions hold. -/
def commitRun (i n : Nat) (j : Journal) (s : State) : State :=
  let k := runNum i n
  let c := chanGet s i
  let owed := s.engines.any (fun p => match p.2.run with | some r => decide (runNum r.chan.toNat r.seq.toNat = k) | none => false)
  if !runFinished s c (runGet s k) || (owed && !(runGet s k).halted) then s
  else
    let s1 := capEff k s
    let x := runGet s1 k
    let s2 := if x.eff ≠ [] && lostTarget s1 x.eff then runPut k (runLost cOutputLost x) s1 else s1
    let y := runGet s2 k
    if logFits s2 c (effBytes y.eff) then commitNow i n j s2
    else if nmem y.did logMark then s2
    else bump (rcvCnt 4) 1 (runPut k { y with did := nadd y.did logMark } s2)

/-- DESCRIPTOR_COMMIT: the descriptor after COMMITTED_THROUGH. One with a verdict never commits. -/
def execDescriptorCommit (chan : BitVec 12) (s : State) : Host.Outcome State Fault Refusal :=
  let i := chan.toNat
  let c := chanGet s i
  .next (match mlook c.journal (c.committed + 1) with
    | none => s
    | some j =>
      if j.state ≠ .accepted || j.after || j.verdict ≠ 0 || !chanRuns c || nmem s.rcv.frozen i || chanCopies s c = [] then s
      else commitRun i (c.committed + 1) j s)

/-! ## Applying effects (R415, R575) -/

/-- What a target answers to a write of an effect's bytes (15 R574). -/
def targetCode (s : State) (a n : Nat) : W16 :=
  firstCode [firstCode ((lineAddrs a n).map (mapWrite s)), protWrite s a n, if anyLost s a n then cOutputLost else cOk,
    if partPoison s a n then cPoisoned else cOk]

/-- Bytes of an effect written, or refused. -/
def applyBytes (a : Nat) (b : List Byte) (s : State) : W16 × State :=
  let c := targetCode s a b.length
  if c = cOk then (cOk, writeMem a b s) else (c, s)

/-- A header of a join table with ROWS and INDEX_ADDR set and HDR_CRC over it. -/
def joinHdrBytes (b : List Byte) (rows index : Nat) : List Byte :=
  let b1 := patch (patch b 8 (leBytes 4 rows)) 24 (leBytes 8 index)
  patch b1 0x3C (leBytes 4 (crc32c (b1.take 0x3C)).toNat)

/-- The ASU side of a join index written and made active (10 R251). The directory of method 1 is internal, and its positions
stay free (notes/assumptions/17.md); method 2 holds an exact entry per row. -/
def joinSides (t : AsuTab) (x : JoinIdx) (s : State) : State :=
  (List.range t.parts).foldl (fun s q =>
    let sd := if t.sides = 2 then 1 - asuActive s t q else 0
    let es := if x.method = 2 then
        (x.rows.filter (fun p => decide (partOfKey t p.2 = q))).map (fun p =>
          ({ key := p.2, mask := BitVec.allOnes 128, data := BitVec.ofNat 32 p.1, valid := true, lost := false } : AsuEntry))
      else []
    asuBumpGen t q 0 (asuBumpGen t q 1 (asuSetSide t q sd (asuFill t q sd es s)))) s

/-- A join index becomes current (08 R211). -/
def applyJoin (base asu : Nat) (x : JoinIdx) (s : State) : State :=
  let s1 := { s with joins := mset { method := 0, rows := [] } s.joins base x }
  if x.method = 1 ∨ x.method = 2 then
    match asuTab? s asu with
    | some t => joinSides t x s1
    | none => s1
  else s1

/-- A row of a near-duplicate table: key, VALID, representative (08 R214-R216). -/
def bandRow (key : BitVec 128) (rep : Nat) : List Byte := leBytes 16 key.toNat ++ leBytes 4 1 ++ zeros 12 ++ leBytes 8 rep ++ zeros 24

/-- A band key joins the table: a present key keeps the lesser representative, another takes the next row. -/
def bandKey (base : Nat) (h : JoinHdr) (a : List (Nat × BitVec 128) × State) (p : BitVec 128 × Nat) : List (Nat × BitVec 128) × State :=
  match a.1.find? (fun r => decide (r.2 = p.1)) with
  | some r =>
    let at_ := joinRowAddr base h r.1 + 32
    (a.1, if p.2 < leNat (readMem a.2 at_ 8) then writeMem at_ (leBytes 8 p.2) a.2 else a.2)
  | none => (a.1 ++ [(a.1.length, p.1)], writeMem (joinRowAddr base h a.1.length) (bandRow p.1 p.2) a.2)

/-- Every row of a table with its key, valid or not, so that a row's place is its number. -/
def allRows (s : State) (base : Nat) (h : JoinHdr) : List (Nat × BitVec 128) := (List.range h.rows).map (fun r => (r, (joinRow s base h r).key))

/-- Band rows at their commit (08 R216): rows, ROWS, INDEX_ADDR and HDR_CRC, and the index over them. -/
def applyBands (base asu method : Nat) (rows : List (BitVec 128 × Nat)) (s : State) : W16 × State :=
  let b := readMem s base 64
  let h := joinHdrOf b
  let old := allRows s base h
  let new := (rows.filter (fun p => !old.any (fun r => decide (r.2 = p.1)))).length
  let c := targetCode s base (64 + (h.rows + new) * h.rowBytes)
  if h.cap < h.rows + new then (0x7102, s)
  else if c ≠ cOk then (c, s)
  else
    let (all, s1) := rows.foldl (bandKey base h) (old, s)
    let (f, s2) := takeFree s1
    let h2 := joinHdrBytes b all.length (freeIndex f)
    let s3 := writeMem base h2 s2
    (cOk, applyJoin base asu { method := method, rows := indexRows s3 base (joinHdrOf h2) } s3)

/-- An attached signal (14 R339, R345, R349): SYN_ATTACHED, or an error record of its ENGINE command. -/
def applySignal (o n list index : Nat) (run : Option RunRef) (s : State) : W16 × State :=
  let (c, t) := objSignal o n s
  if c = cOk then (c, bump (reefCnt (o / 48) 6) 1 t)
  else
    (c, synRecord (list / 512) { code := c, target := o % 8192, reef := list / 64, list := 255, index := index,
                                 handle := runHandle s run, count := targetCount s (o % 8192), node := 0xFFF } t)

/-- One deferred effect at its target: its code and what it does. -/
def applyEff (r : RunRef) (e : Eff) (s : State) : W16 × State :=
  match e with
  | .bytes a d => applyBytes a d s
  | .orByte a m => applyBytes a [readByte s a ||| m] s
  | .slotHead a ep reef d =>
    if ep < leNat (readMem s a 4) then (cOk, bump (reefCnt reef 39) 1 s) else applyBytes a d s
  | .delivered a ep reef => (cOk, slotDelivered a ep reef s)
  | .signal o n l ix => applySignal o n l ix (some r) s
  | .joinSwitch b asu x => (cOk, applyJoin b asu x s)
  | .bandRows b asu m rs => applyBands b asu m rs s
  | .scatter t step row f xs =>
    (match effAddr s e with
     | some a =>
       if partPoison s (a + 32) (8 * xs.length) then (cPoisoned, s) else (cOk, applyScatter t step row f xs s)
     | none => (cOk, s))
  | .flip t row st sl => (cOk, applyFlip t row (slotKey st sl) s)
  | .fold t step reef seed refit => (cOk, applyFold t step reef seed refit s)
  | .initTable t => (cOk, applyInit t s)
  | .peer .. => (cOk, s)

/-- An island's effects of a run, in commit-log order; the first refusal is the run's (R575). -/
def applyBatch (r : RunRef) (i : Nat) : List Eff → State → State
  | [], s => s
  | e :: t, s =>
    if effIsland s e ≠ some i then applyBatch r i t s
    else
      let (c, s1) := applyEff r e s
      applyBatch r i t (runOpDone (some (runNum r.chan.toNat r.seq.toNat)) c s1)

/-- APPLIED_THROUGH of island `i` for channel `c`. -/
def appliedThrough (s : State) (i c : Nat) : Nat := mget 0 s.applied (4096 * i + c)

/-- Every descriptor of the channel before `n` has had its batch of island `i`. -/
def earlierApplied (s : State) (i c n : Nat) : Bool :=
  (chanGet s c).journal.all (fun p =>
    decide (n ≤ p.1) || decide (p.2.state ≠ .committed)
      || (let x := runGet s (runNum c p.1); nmem x.applied i || !(effIslands s x.eff).contains i))

/-- BATCH_APPLY (R415): the island takes the batch whole and raises APPLIED_THROUGH, or discards a repeat. -/
def execBatchApply (island : BitVec 4) (r : RunRef) (s : State) : Host.Outcome State Fault Refusal :=
  let i := island.toNat
  let c := r.chan.toNat
  let n := r.seq.toNat
  let k := runNum c n
  .next (match journalOf s c n with
    | none => s
    | some j =>
      let x := runGet s k
      if islLost s i || j.state = .accepted || j.verdict ≠ 0 then s
      else if n ≤ appliedThrough s i c then
        bump (rcvCnt 2) 1 (if j.state = .committed then runPut k { x with applied := nadd x.applied i } s else s)
      else if j.state ≠ .committed || !(effIslands s x.eff).contains i || !earlierApplied s i c n then s
      else
        let s1 := applyBatch r i x.eff { s with applied := mset 0 s.applied (4096 * i + c) n }
        let y := runGet s1 k
        runPut k { y with applied := nadd y.applied i } s1)

/-! ## COMPLETION_READY (R414 steps 3 and 4; 04 R110-R113, R115) -/

/-- Every target has confirmed: each island with effects has applied its batch or is lost, and no peer operation is open. -/
def allConfirmed (s : State) (k : Nat) (x : Run) : Bool :=
  (effIslands s x.eff).all (fun i => nmem x.applied i || islLost s i) && !runAwaits s k

/-- The completion's CODE: a stage's, else lost deferred targets, else a refusal of a deferred effect (R112, R424, R575). -/
def endCode (s : State) (x : Run) : W16 :=
  if x.code ≠ 0 then x.code
  else if (effIslands s x.eff).any (fun i => !nmem x.applied i && islLost s i) then cOutputLost
  else x.effCode

/-- A READY record (Table 4.6). -/
def readyRecord (h : W32) (n : Nat) (x : Run) (code : W16) (gen : Nat) : List Byte :=
  let a := leBytes 4 h.toNat ++ leBytes 4 n ++ leBytes 4 (min x.recsIn 0xFFFFFFFF) ++ leBytes 4 (min x.recsOut 0xFFFFFFFF)
    ++ leBytes 2 (min x.replaced 0xFFFF) ++ leBytes 2 (min x.dropped 0xFFFF) ++ leBytes 4 x.lines
  let st := leBytes 4 (code.toNat + 2 ^ 16 * (gen % 2 ^ 15) + 2 ^ 31)
  a ++ leBytes 4 (crc32c (a ++ st)).toNat ++ st

/-- The record pushed to its submitter: once, and not with NO_PUSH or to a closed session (R113, R418). -/
def pushRecord (i n : Nat) (j : Journal) (b : List Byte) (s : State) : State :=
  if j.d.flags.getLsbD 0 then s
  else
    let c := chanGet s i
    let s1 := chanPut i { c with journal := mput c.journal n { j with state := .pushed } } s
    if (sess? s j.session).isSome then sendMessage j.session 3 b (emit (.push j.session b) s1) else s1

/-- Descriptor `n` of channel `i` completes with a run's counts and a code. -/
def completeRun (i n : Nat) (j : Journal) (x : Run) (code : W16) (s : State) : State :=
  let c := chanGet s i
  let b := readyRecord (handleOf i c) n x code (n / c.slots)
  let s1 := if code = cInputLost then bump (rcvCnt 6) 1 s else if code = cOutputLost then bump (rcvCnt 7) 1 s else s
  let j2 := { j with state := .completed }
  let s2 := ringWrite c n b (chanPut i { c with completed := n, journal := mput c.journal n j2 } s1)
  let s3 := pushRecord i n j2 b s2
  closeIfDue i { s3 with runs := mdel s3.runs (runNum i n) }

/-- COMPLETION_READY: the descriptor after COMPLETED_THROUGH. CANCELLED completes without a commit; a descriptor that no plate
serves takes its place in the commit order too (notes/assumptions/38.md). -/
def execCompletionReady (chan : BitVec 12) (s : State) : Host.Outcome State Fault Refusal :=
  let i := chan.toNat
  let c := chanGet s i
  let n := c.completed + 1
  let k := runNum i n
  .next (match mlook c.journal n with
    | none => s
    | some j =>
      let x := runGet s k
      if chanCopies s c = [] then s
      else if j.state = .accepted && j.verdict ≠ 0 then
        let s1 := if j.verdict = cCancelled then s else chanPut i { c with committed := max c.committed n } s
        completeRun i n j Run.init j.verdict s1
      else if j.state = .committed && allConfirmed s k x then completeRun i n j x (endCode s x) s
      else s)

/-! ## ASU_UPDATE (10 R252) -/

/-- The commands of an update descriptor run in order; each result goes out at its index. -/
def updateAll (out : Nat) : List (List Byte) → Nat → W16 → Nat → State → W16 × Nat × State
  | [], _, c, ok, s => (c, ok, s)
  | b :: t, i, c, ok, s =>
    let (op, a) := asuCmdOf b
    let (r, s1) := asuRun op a s
    updateAll out t (i + 1) (if c = 0 then r.status else c) (if r.status = 0 then ok + 1 else ok) (writeMem (out + 64 * i) r.bytes s1)

/-- The update stage, when the commit point reaches its descriptor. -/
def updateStage (x : Ctx) (s : State) : State :=
  let d := x.j.d
  let n := d.paramLen.toNat / 64
  let cmds := chunks 64 (readMem s (localOf d.paramAddr) d.paramLen.toNat)
  if x.ch.committed + 1 ≠ x.seq then s
  else if d.paramLen.toNat % 64 ≠ 0 ∨ n < 1 ∨ 1024 < n ∨ d.outLen.toNat < 64 * n then runPut x.num (runFail 0x7001 x.run) s
  else
    match firstCode [engRead s x.p x.c x.st (localOf d.paramAddr) d.paramLen.toNat, engWrite s x.p x.c x.st (localOf d.outAddr) (64 * n)] with
    | 0 =>
      if cmds.any (fun b => let (op, a) := asuCmdOf b; asuIsHeld s op a) then s
      else
        let (c, ok, s1) := updateAll (localOf d.outAddr) cmds 0 0 0 s
        let r := { x.run with recsIn := n, recsOut := ok, lines := 2 * n }
        let r1 := if c = 0 then stageDid x kindAsu r else runFail c r
        let s2 := runPut x.num r1 s1
        if x.last || c ≠ 0 then commitRun x.chan x.seq x.j s2 else s2
    | c => runPut x.num (runAccess cInputLost c x.run) s

/-- ASU_UPDATE. -/
def execAsuUpdate (r : RunRef) (s : State) : Host.Outcome State Fault Refusal :=
  .next (unitRun kindAsu r.chan.toNat r.seq.toNat updateStage s)

end Sys2Proof.Machine
end

