-- ==== Sys2Proof/Machine/Inflate.lean ====
section
/-! DEFINITION. The DEFLATE family of the Graver, decompression (05 R130, R131, R147): RFC 1951, 1950 and 1952 at the grain at
which a stream can be carried over descriptors, one symbol a step. -/

namespace Sys2Proof.Machine

/-- The codes of 05 Table 5.9. -/
abbrev gIllegal : W16 := 0x2101#16
abbrev gDistance : W16 := 0x2102#16
abbrev gOverrun : W16 := 0x2103#16
abbrev gHeader : W16 := 0x2104#16
abbrev gTruncated : W16 := 0x2105#16
abbrev gChecksum : W16 := 0x2106#16
abbrev gWindow : W16 := 0x2107#16
abbrev gDictionary : W16 := 0x2108#16
abbrev gStateImage : W16 := 0x2109#16
abbrev gParam : W16 := 0x210A#16
abbrev gOutFull : W16 := 0x210B#16
abbrev gOverlap : W16 := 0x210C#16

/-! ## Bits -/

/-- A bit reader: bits held (the next one lowest), how many, the bytes not yet read, bytes read so far. -/
structure Bits where
  buf : Nat
  cnt : Nat
  rest : List Byte
  pos : Nat
  deriving DecidableEq, Repr

/-- Pull bytes until `n` bits are held. -/
def bitsFill (n : Nat) : Nat → Bits → Bits
  | 0, b => b
  | f + 1, b =>
    if n ≤ b.cnt then b
    else match b.rest with
      | [] => b
      | x :: t => bitsFill n f { buf := b.buf + x.toNat * 2 ^ b.cnt, cnt := b.cnt + 8, rest := t, pos := b.pos + 1 }

/-- The next `n` bits, the first the least significant; nothing when the input ends before. -/
def bitsRead (n : Nat) (b : Bits) : Option (Nat × Bits) :=
  let c := bitsFill n (n / 8 + 2) b
  if n ≤ c.cnt then some (c.buf % 2 ^ n, { c with buf := c.buf / 2 ^ n, cnt := c.cnt - n }) else none

/-- Offset of the byte that holds the next bit. -/
def bitsAt (b : Bits) : Nat := (8 * b.pos - b.cnt) / 8

/-- Bits up to the next byte boundary dropped. -/
def bitsAlign (b : Bits) : Bits := { b with buf := b.buf / 2 ^ (b.cnt % 8), cnt := b.cnt - b.cnt % 8 }

/-- `n` whole bytes. -/
def bytesRead : Nat → Bits → Option (List Byte × Bits)
  | 0, b => some ([], b)
  | n + 1, b =>
    match bitsRead 8 b with
    | none => none
    | some (v, c) => match bytesRead n c with
      | none => none
      | some (t, d) => some (BitVec.ofNat 8 v :: t, d)

/-- The buffered bits given back, whole bytes at a time, so that fewer than eight are held. -/
def bitsUnread (inp : List Byte) (b : Bits) : Bits :=
  let k := min (b.cnt / 8) b.pos
  { buf := b.buf % 2 ^ (b.cnt - 8 * k), cnt := b.cnt - 8 * k, rest := inp.drop (b.pos - k), pos := b.pos - k }

/-! ## Canonical Huffman codes -/

/-- A canonical code: how many codes of each length 0-15, and the symbols in order of length and value. -/
structure Huff where
  counts : List Nat
  syms : List Nat
  deriving DecidableEq, Repr

/-- The code of a list of lengths. -/
def huffOf (ls : List Nat) : Huff :=
  let cs := (List.range 16).map (fun l => if l = 0 then 0 else (ls.filter (· = l)).length)
  { counts := cs,
    syms := (List.range 15).flatMap (fun l => (ls.zipIdx.filter (fun p => p.1 = l + 1)).map (·.2)) }

/-- Code space left (an Int: negative means over-subscribed), in units of 2^-15. -/
def huffLeft (ls : List Nat) : Int :=
  (2 ^ 15 : Int) - ls.foldl (fun a l => if l = 0 then a else a + (2 ^ (15 - l) : Int)) 0

/-- Codes in the set. -/
def huffCodes (ls : List Nat) : Nat := (ls.filter (· ≠ 0)).length

/-- What decoding a symbol gives. -/
inductive SymRes where
  | sym (v : Nat) (b : Bits)
  | need
  | bad
  deriving DecidableEq, Repr

/-- Decoding bit by bit: `code` so far, `first` code and `idx` of the present length. -/
def huffGo (h : Huff) : List Nat → Nat → Nat → Nat → Bits → SymRes
  | [], _, _, _, _ => .bad
  | c :: t, code, first, idx, b =>
    match bitsRead 1 b with
    | none => .need
    | some (v, b') =>
      let code := code + v
      if code < first + c then .sym (h.syms.getD (idx + (code - first)) 0) b'
      else huffGo h t (2 * code) (2 * (first + c)) (idx + c) b'

/-- The next symbol of a code. -/
def huffSym (h : Huff) (b : Bits) : SymRes := huffGo h (h.counts.drop 1) 0 0 0 b

/-- Fixed literal and length code (RFC 1951 3.2.6). -/
def fixedLit : List Nat :=
  List.replicate 144 8 ++ List.replicate 112 9 ++ List.replicate 24 7 ++ List.replicate 8 8
/-- Fixed distance code. -/
def fixedDist : List Nat := List.replicate 30 5

/-- Base and extra bits of length symbols 257-285. -/
def lenTab : List (Nat × Nat) :=
  [(3, 0), (4, 0), (5, 0), (6, 0), (7, 0), (8, 0), (9, 0), (10, 0), (11, 1), (13, 1), (15, 1), (17, 1), (19, 2), (23, 2),
   (27, 2), (31, 2), (35, 3), (43, 3), (51, 3), (59, 3), (67, 4), (83, 4), (99, 4), (115, 4), (131, 5), (163, 5), (195, 5),
   (227, 5), (258, 0)]
/-- Base and extra bits of distance symbols 0-29. -/
def distTab : List (Nat × Nat) :=
  [(1, 0), (2, 0), (3, 0), (4, 0), (5, 1), (7, 1), (9, 2), (13, 2), (17, 3), (25, 3), (33, 4), (49, 4), (65, 5), (97, 5),
   (129, 6), (193, 6), (257, 7), (385, 7), (513, 8), (769, 8), (1025, 9), (1537, 9), (2049, 10), (3073, 10), (4097, 11),
   (6145, 11), (8193, 12), (12289, 12), (16385, 13), (24577, 13)]
/-- Order of the code-length code's lengths. -/
def clOrder : List Nat := [16, 17, 18, 0, 8, 7, 9, 6, 10, 5, 11, 4, 12, 3, 13, 2, 14, 1, 15]

/-! ## The output side -/

/-- Output of a stream: bytes newest first (history and output together), output bytes of this command, its limit. -/
structure OutBuf where
  rev : List Byte
  n : Nat
  limit : Nat
  deriving DecidableEq, Repr

/-- One byte put; the flag tells that it would lie beyond the limit. -/
def outPut (b : Byte) (o : OutBuf) : OutBuf × Bool :=
  if o.n < o.limit then ({ o with rev := b :: o.rev, n := o.n + 1 }, false) else (o, true)

/-- Bytes put in order until the limit. -/
def outPuts : List Byte → OutBuf → OutBuf × Bool
  | [], o => (o, false)
  | b :: t, o => match outPut b o with
    | (o', true) => (o', true)
    | (o', false) => outPuts t o'

/-- `n` bytes copied from `d` back, byte by byte. -/
def outCopy (d : Nat) : Nat → OutBuf → OutBuf × Bool
  | 0, o => (o, false)
  | n + 1, o => match outPut (o.rev.getD (d - 1) 0) o with
    | (o', true) => (o', true)
    | (o', false) => outCopy d n o'

/-- The bytes of this command, in order. -/
def outBytes (o : OutBuf) : List Byte := (o.rev.take o.n).reverse

/-! ## The stream machine -/

/-- Where a DEFLATE-family stream stands (05 Table 5.8). -/
structure Infl where
  fmt : Nat
  stage : Nat
  bfinal : Bool
  bits : Bits
  left : Nat
  lit : List Nat
  dist : List Nat
  out : OutBuf
  /-- Bytes of the stream or member produced, its running checksum, and the window of zlib. -/
  total : Nat
  check : Nat
  window : Nat
  /-- Members begun (gzip), members completed. -/
  member : Nat
  membersDone : Nat
  /-- The stream has ended. -/
  ended : Bool
  deriving DecidableEq, Repr

/-- The outcome of one step of the machine. -/
inductive InflRes where
  | go (s : Infl)
  | need
  | err (code : W16) (off : Nat) (s : Infl)
  deriving DecidableEq, Repr

/-- Bytes delivered: output, count and running checksum. -/
def inflTake (new : List Byte) (o : OutBuf) (s : Infl) : Infl :=
  { s with out := o, total := s.total + new.length,
           check := if s.fmt = 2 then adlerFrom s.check new else s.check }

/-- Code lengths read under the code-length code. -/
inductive LensRes where
  | ok (ls : List Nat) (b : Bits)
  | need
  | bad (code : W16) (off : Nat)
  deriving DecidableEq, Repr

/-- Reading `n` code lengths (R130). -/
def readLens (h : Huff) (n : Nat) : Nat → List Nat → Bits → LensRes
  | 0, _, _ => .need
  | f + 1, acc, b =>
    if n ≤ acc.length then .ok acc b
    else match huffSym h b with
      | .need => .need
      | .bad => .bad gIllegal (bitsAt b)
      | .sym v b1 =>
        if v < 16 then readLens h n f (acc ++ [v]) b1
        else
          let p := if v = 16 then (2, 3) else if v = 17 then (3, 3) else (7, 11)
          match bitsRead p.1 b1 with
          | none => .need
          | some (x, b2) =>
            if v = 16 ∧ acc = [] then .bad gIllegal (bitsAt b)
            else
              let rep := x + p.2
              if n < acc.length + rep then .bad gOverrun (bitsAt b)
              else readLens h n f (acc ++ List.replicate rep (if v = 16 then acc.getLastD 0 else 0)) b2

/-- The literal and distance code sets that R130 accepts. -/
def setsBad (lit dist : List Nat) : Bool :=
  let okDist := decide (huffLeft dist = 0) || decide (huffCodes dist = 0)
    || (decide (huffCodes dist = 1) && dist.any (· = 1))
  decide (huffLeft lit ≠ 0) || !okDist || decide (lit.getD 256 0 = 0)

/-- A dynamic block's tables, from just behind BTYPE. -/
def dynTables (s : Infl) (hdr : Nat) (b : Bits) : InflRes :=
  match bitsRead 14 b with
  | none => .need
  | some (v, b1) =>
    let hlit := v % 32 + 257
    let hdist := v / 32 % 32 + 1
    let hclen := v / 1024 + 4
    if 286 < hlit ∨ 30 < hdist then .err gHeader hdr s
    else match bitsRead (3 * hclen) b1 with
      | none => .need
      | some (w, b2) =>
        let cl := (List.range 19).map (fun sy =>
          match clOrder.findIdx? (· = sy) with
          | some i => if i < hclen then w / 2 ^ (3 * i) % 8 else 0
          | none => 0)
        if huffLeft cl ≠ 0 then .err gIllegal (bitsAt b1) s
        else match readLens (huffOf cl) (hlit + hdist) (hlit + hdist + 1) [] b2 with
          | .need => .need
          | .bad c off => .err c off s
          | .ok ls b3 =>
            let lit := ls.take hlit
            let dist := ls.drop hlit
            if setsBad lit dist then .err gIllegal (bitsAt b2) s
            else .go { s with bits := b3, stage := 3, lit := lit, dist := dist }

/-- One symbol of a Huffman block (R130). -/
def huffStep (s : Infl) : InflRes :=
  let off := bitsAt s.bits
  match huffSym (huffOf s.lit) s.bits with
  | .need => .need
  | .bad => .err gIllegal off s
  | .sym v b1 =>
    if v < 256 then
      let x := BitVec.ofNat 8 v
      match outPut x s.out with
      | (_, true) => .err gOutFull off s
      | (o, false) => .go { inflTake [x] o s with bits := b1 }
    else if v = 256 then .go { s with bits := b1, stage := 1, lit := [], dist := [] }
    else if 285 < v then .err gIllegal off s
    else
      let lt := lenTab.getD (v - 257) (3, 0)
      match bitsRead lt.2 b1 with
      | none => .need
      | some (lx, b2) =>
        let len := lt.1 + lx
        match huffSym (huffOf s.dist) b2 with
        | .need => .need
        | .bad => .err gIllegal (bitsAt b2) s
        | .sym d b3 =>
          if 29 < d then .err gIllegal (bitsAt b2) s
          else
            let dt := distTab.getD d (1, 0)
            match bitsRead dt.2 b3 with
            | none => .need
            | some (dx, b4) =>
              let dist := dt.1 + dx
              if s.out.rev.length < dist ∨ s.window < dist then .err gDistance (bitsAt b2) s
              else match outCopy dist len s.out with
                | (o, true) => .err gOutFull off { s with out := o }
                | (o, false) => .go { inflTake (o.rev.take len).reverse o s with bits := b4 }

/-- The zlib header (R131): whether a preset dictionary joins the history. -/
def zlibHeader (dict : List Byte) (dictId : Nat) (s : Infl) : InflRes :=
  let off := bitsAt s.bits
  match bytesRead 2 s.bits with
  | none => .need
  | some (h, b) =>
    let cmf := u8At h 0
    let flg := u8At h 1
    if cmf % 16 ≠ 8 ∨ 7 < cmf / 16 ∨ (cmf * 256 + flg) % 31 ≠ 0 then .err gHeader off s
    else
      let s1 := { s with bits := b, stage := 1, check := 1, window := 2 ^ (cmf / 16 + 8), member := 1 }
      if flg / 32 % 2 = 0 then .go s1
      else match bytesRead 4 b with
        | none => .need
        | some (d, b2) =>
          -- DICTID is big-endian (RFC 1950)
          if dict = [] ∨ leNat d.reverse ≠ dictId then .err gDictionary (bitsAt b) s
          else .go { s1 with bits := b2, out := { s1.out with rev := dict.reverse ++ s1.out.rev } }

/-- A zero-terminated string skipped. -/
def skipZ : Nat → Bits → Option Bits
  | 0, _ => none
  | f + 1, b => match bitsRead 8 b with
    | none => none
    | some (0, c) => some c
    | some (_, c) => skipZ f c

/-- The gzip header (R131). `inp` is the input from its first byte. -/
def gzipHeader (inp : List Byte) (s : Infl) : InflRes :=
  let off := bitsAt s.bits
  match bytesRead 10 s.bits with
  | none =>
    -- the bytes there are may already be wrong
    match bytesRead (min 2 s.bits.rest.length) s.bits with
    | some (h, _) => if (h.zip [0x1F#8, 0x8B#8]).any (fun p => p.1 != p.2) then .err gHeader off s else .need
    | none => .need
  | some (h, b) =>
    let flg := u8At h 3
    if u8At h 0 ≠ 0x1F ∨ u8At h 1 ≠ 0x8B ∨ u8At h 2 ≠ 8 ∨ flg / 32 ≠ 0 then .err gHeader off s
    else
      let fuel := b.rest.length + 2
      let extra : Option Bits :=
        if bit flg 2 then
          match bytesRead 2 b with
          | none => none
          | some (x, c) => (bytesRead (leNat x) c).map (·.2)
        else some b
      let name := extra.bind (fun c => if bit flg 3 then skipZ fuel c else some c)
      let comment := name.bind (fun c => if bit flg 4 then skipZ fuel c else some c)
      match comment with
      | none => .need
      | some c =>
        let done := { s with stage := 1, check := 0xFFFFFFFF, total := 0, member := s.member + 1 }
        if bit flg 1 then
          match bytesRead 2 c with
          | none => .need
          | some (x, d) =>
            let hdr := (inp.drop off).take (bitsAt c - off)
            if leNat x ≠ (crc32 hdr).toNat % 65536 then .err gChecksum (bitsAt c) s
            else .go { done with bits := d }
        else .go { done with bits := c }

/-- The trailer of zlib or of a gzip member (R131). The running CRC-32 of gzip is that of the member's bytes. -/
def trailerStep (s : Infl) : InflRes :=
  let b0 := bitsAlign s.bits
  let off := bitsAt b0
  if s.fmt = 2 then
    match bytesRead 4 b0 with
    | none => .need
    | some (x, b) => if leNat x.reverse ≠ s.check then .err gChecksum off s
                     else .go { s with bits := b, ended := true, membersDone := 1 }
  else
    match bytesRead 8 b0 with
    | none => .need
    | some (x, b) =>
      if u32At x 0 ≠ s.check then .err gChecksum off s
      else if u32At x 4 ≠ s.total % 2 ^ 32 then .err gChecksum (off + 4) s
      else .go { s with bits := b, stage := 0, membersDone := s.membersDone + 1 }

/-- One step of a DEFLATE-family stream. `crcNow` is the gzip CRC of the bytes so far with `s.check` as its register. -/
def inflStep (dict : List Byte) (dictId : Nat) (inp : List Byte) (s : Infl) : InflRes :=
  match s.stage with
  | 0 =>
    if s.fmt = 1 then .go { s with stage := 1, member := 1 }
    else if s.fmt = 2 then zlibHeader dict dictId s
    else gzipHeader inp s
  | 1 =>
    if s.bfinal then
      if s.fmt = 1 then .go { s with ended := true, bits := bitsAlign s.bits, membersDone := 1 }
      else .go { s with stage := 4, bfinal := false }
    else
      let hdr := bitsAt s.bits
      match bitsRead 3 s.bits with
      | none => .need
      | some (v, b) =>
        let s1 := { s with bfinal := decide (v % 2 = 1) }
        match v / 2 with
        | 0 =>
          let b0 := bitsAlign b
          match bytesRead 4 b0 with
          | none => .need
          | some (x, b1) =>
            if u16At x 0 + u16At x 2 ≠ 65535 then .err gHeader hdr s
            else .go { s1 with bits := b1, stage := 2, left := u16At x 0 }
        | 1 => .go { s1 with bits := b, stage := 3, lit := fixedLit, dist := fixedDist }
        | 2 =>
          match dynTables s1 hdr b with
          | .err c o _ => .err c o s
          | r => r
        | _ => .err gIllegal hdr s
  | 2 =>
    if s.left = 0 then .go { s with stage := 1 }
    else match bytesRead 1 s.bits with
      | none => .need
      | some (x, b) =>
        match outPuts x s.out with
        | (_, true) => .err gOutFull (bitsAt s.bits) s
        | (o, false) => .go { inflTake x o s with bits := b, left := s.left - 1 }
  | 3 => huffStep s
  | _ => trailerStep s

/-- A byte into the running CRC-32 register of gzip, kept complemented between bytes. -/
def crcFeed (c : Nat) (bs : List Byte) : Nat := (crcFrom 0xEDB88320#32 (BitVec.ofNat 32 c) bs).toNat

/-- How a run of the machine ends. -/
structure InflEnd where
  st : Infl
  code : W16
  off : Nat
  /-- The input ran out in the middle of an element. -/
  starved : Bool
  deriving DecidableEq, Repr

/-- Running a stream to its end, an error or the end of its input. gzip's register is fed here, from the bytes each step put;
at a trailer it is complemented. -/
def inflRun (dict : List Byte) (dictId : Nat) (inp : List Byte) : Nat → Infl → InflEnd
  | 0, s => { st := s, code := 0, off := 0, starved := true }
  | f + 1, s =>
    if s.ended then { st := s, code := 0, off := 0, starved := false }
    else if s.fmt = 3 ∧ s.stage = 0 ∧ 0 < s.membersDone ∧ s.bits.rest = [] ∧ s.bits.cnt = 0 then
      { st := { s with ended := true }, code := 0, off := 0, starved := false }
    else
      let s0 := if s.fmt = 3 ∧ s.stage = 4 then { s with check := 0xFFFFFFFF - s.check } else s
      match inflStep dict dictId inp s0 with
      | .need => { st := s, code := 0, off := 0, starved := true }
      | .err c o t => { st := { t with check := s.check }, code := c, off := o, starved := false }
      | .go t =>
        let t1 := if t.fmt = 3 ∧ (s.stage = 2 ∨ s.stage = 3) then
            { t with check := crcFeed t.check ((t.out.rev.take (t.out.n - s.out.n)).reverse) } else t
        inflRun dict dictId inp f t1

end Sys2Proof.Machine
end

