-- ==== Sys2Proof/Machine/Abf.lean ====
section
/-! DEFINITION. The Ihliofa Block Format, decompression (05 R134-R142). -/

namespace Sys2Proof.Machine

/-- An error of a decoder: code and input offset. -/
structure GErr where
  code : W16
  off : Nat
  deriving DecidableEq, Repr

/-! ## Bit streams of a section (R138) -/

/-- A section's bit stream: its bytes as one number, bits taken, bits there are, and the input offset of its first byte. -/
structure SecBits where
  val : Nat
  pos : Nat
  len : Nat
  off : Nat
  deriving DecidableEq, Repr

/-- The bit stream of some bytes. -/
def secBits (bs : List Byte) (off : Nat) : SecBits := { val := leNat bs, pos := 0, len := 8 * bs.length, off := off }

/-- read(n). -/
def secRead (n : Nat) (b : SecBits) : Except GErr (Nat × SecBits) :=
  if b.pos + n ≤ b.len then .ok (b.val / 2 ^ b.pos % 2 ^ n, { b with pos := b.pos + n })
  else .error { code := gIllegal, off := b.off + b.pos / 8 }

/-- After the last read: the rest of the final byte is zero and no byte remains. -/
def secDone (b : SecBits) : Except GErr Unit :=
  if b.len < b.pos + 8 ∧ b.val / 2 ^ b.pos = 0 then .ok () else .error { code := gIllegal, off := b.off + b.pos / 8 }

/-! ## tANS (R139) -/

/-- A tANS decoding table: for each state its symbol, bits to read and base. -/
structure Tans where
  r : Nat
  sym : List Nat
  nb : List Nat
  base : List Nat
  deriving DecidableEq, Repr

/-- The positions that the spread gives to symbols, in order of spreading. -/
def spreadSyms (cnt : List Nat) : List Nat := cnt.zipIdx.flatMap (fun p => List.replicate p.1 p.2)

/-- sym[] of the spread. -/
def tansSyms (r : Nat) (cnt : List Nat) : List Nat :=
  let t := 2 ^ r
  let step := t / 2 + t / 8 + 3
  let placed := (spreadSyms cnt).zipIdx.map (fun p => (p.2 * step % t, p.1))
  (List.range t).map (fun u => ((placed.find? (fun q => q.1 = u)).map (·.2)).getD 0)

/-- The table that build() makes. -/
def tansBuild (r : Nat) (cnt : List Nat) : Tans :=
  let t := 2 ^ r
  let syms := tansSyms r cnt
  let xs := (syms.foldl (fun (a : List Nat × List Nat) s =>
      (a.1.set s (a.1.getD s 0 + 1), a.1.getD s 0 :: a.2)) (cnt, [])).2.reverse
  let nbs := xs.map (fun x => r - x.log2)
  { r := r, sym := syms, nb := nbs, base := (xs.zip nbs).map (fun p => p.1 * 2 ^ p.2 - t) }

/-- decode(): `count` symbols, each with the input offset of the byte that holds its first bit. -/
def tansGo (tb : Tans) : Nat → Nat → Nat → SecBits → Except GErr (List (Nat × Nat) × SecBits)
  | 0, _, _, b => .ok ([], b)
  | n + 1, u, at_, b =>
    let s := tb.sym.getD u 0
    if n = 0 then .ok ([(s, at_)], b)
    else
      match secRead (tb.nb.getD u 0) b with
      | .error e => .error e
      | .ok (v, b') =>
        match tansGo tb n (tb.base.getD u 0 + v) (b.off + b.pos / 8) b' with
        | .error e => .error e
        | .ok (t, c) => .ok ((s, at_) :: t, c)

/-- A TANS section behind its MODE byte; `off` is the input offset of the section's length word. -/
def tansSection (body : List Byte) (off count alpha : Nat) : Except GErr (List (Nat × Nat)) :=
  let r := u8At body 1
  let m := u16At body 2
  if body.length < 4 + 2 * m ∨ r < 5 ∨ 11 < r ∨ m < 1 ∨ alpha < m then .error { code := gHeader, off := off }
  else
    let cnt := (List.range m).map (fun i => u16At body (4 + 2 * i))
    if cnt.foldl (· + ·) 0 ≠ 2 ^ r then .error { code := gIllegal, off := off + 5 }
    else
      let b := secBits (body.drop (4 + 2 * m)) (off + 8 + 2 * m)
      match secRead r b with
      | .error e => .error e
      | .ok (u, b1) =>
        match tansGo (tansBuild r cnt) count u b.off b1 with
        | .error e => .error e
        | .ok (xs, b2) => match secDone b2 with
          | .error e => .error e
          | .ok () => .ok xs

/-- A LIT, LL, ML or OF section (R137): its symbols with their offsets. -/
def abfSection (body : List Byte) (off count alpha : Nat) : Except GErr (List (Nat × Nat)) :=
  match body with
  | [] => .error { code := gHeader, off := off }
  | mode :: t =>
    if mode = 0 then
      if t.length = count then .ok (t.zipIdx.map (fun p => (p.1.toNat, off + 5 + p.2)))
      else .error { code := gHeader, off := off }
    else if mode = 1 ∧ count ≠ 0 then tansSection body off count alpha
    else .error { code := gHeader, off := off }

/-- The five sections of a CODED payload from offset 8: bodies with the input offsets of their length words. -/
def cutSections (off : Nat) : Nat → List Byte → Option (List (List Byte × Nat))
  | 0, bs => if bs = [] then some [] else none
  | n + 1, bs =>
    let l := u32At bs 0
    if bs.length < 4 + l then none
    else (cutSections (off + 4 + l) n (bs.drop (4 + l))).map (fun t => ((bs.drop 4).take l, off) :: t)

/-- The value of a code (R138). -/
def codeVal (c : Nat) (ex : SecBits) : Except GErr (Nat × SecBits) :=
  if c < 8 then .ok (c, ex)
  else match secRead (c - 5) ex with
    | .error e => .error e
    | .ok (v, b) => .ok (2 ^ (c - 5) + v, b)

/-- One sequence: LL, ML, OF and the offsets of its LL and ML symbols. -/
structure AbfSeq where
  ll : Nat
  ml : Nat
  of : Nat
  llAt : Nat
  mlAt : Nat
  deriving DecidableEq, Repr

/-- The sequences, their extra bits taken in order. -/
def abfSeqs : List (Nat × Nat) → List (Nat × Nat) → List (Nat × Nat) → SecBits → Except GErr (List AbfSeq × SecBits)
  | a :: la, b :: lb, c :: lc, ex =>
    match codeVal a.1 ex with
    | .error e => .error e
    | .ok (x, e1) => match codeVal b.1 e1 with
      | .error e => .error e
      | .ok (y, e2) => match codeVal c.1 e2 with
        | .error e => .error e
        | .ok (z, e3) => match abfSeqs la lb lc e3 with
          | .error e => .error e
          | .ok (t, e4) => .ok ({ ll := x, ml := y + 4, of := z + 1, llAt := a.2, mlAt := b.2 } :: t, e4)
  | _, _, _, ex => .ok ([], ex)

/-! ## Output with history -/

/-- Where a block writes: the command's output, and the bytes a match may reach, newest first. -/
structure AbfOut where
  out : OutBuf
  hist : List Byte
  deriving DecidableEq, Repr

/-- Bytes put until the limit. -/
def abfPuts : List Byte → AbfOut → AbfOut × Bool
  | [], o => (o, false)
  | b :: t, o => match outPut b o.out with
    | (_, true) => (o, true)
    | (o', false) => abfPuts t { out := o', hist := b :: o.hist }

/-- `n` bytes copied from `d` back. -/
def abfCopy (d : Nat) : Nat → AbfOut → AbfOut × Bool
  | 0, o => (o, false)
  | n + 1, o =>
    let b := o.hist.getD (d - 1) 0
    match outPut b o.out with
    | (_, true) => (o, true)
    | (o', false) => abfCopy d n { out := o', hist := b :: o.hist }

/-- The sequences executed (R140): literals left, bytes of the block so far. -/
def abfExec (raw hdr : Nat) : List AbfSeq → List Byte → Nat → AbfOut → AbfOut × Option GErr
  | [], lit, o, w =>
    match abfPuts lit w with
    | (w', true) => (w', some { code := gOutFull, off := hdr })
    | (w', false) => (w', if o + lit.length = raw then none else some { code := gOverrun, off := hdr })
  | q :: t, lit, o, w =>
    if lit.length < q.ll then (w, some { code := gOverrun, off := q.llAt })
    else match abfPuts (lit.take q.ll) w with
      | (w1, true) => (w1, some { code := gOutFull, off := hdr })
      | (w1, false) =>
        let o1 := o + q.ll
        if min w1.hist.length (2 ^ 20) < q.of then (w1, some { code := gDistance, off := hdr })
        else if raw < o1 + q.ml then (w1, some { code := gOverrun, off := q.mlAt })
        else match abfCopy q.of q.ml w1 with
          | (w2, true) => (w2, some { code := gOutFull, off := hdr })
          | (w2, false) => abfExec raw hdr t (lit.drop q.ll) (o1 + q.ml) w2

/-- A symbol above 24 in LL, ML or OF. -/
def badCode (xs : List (Nat × Nat)) : Except GErr Unit :=
  match xs.find? (fun p => decide (24 < p.1)) with
  | some p => .error { code := gIllegal, off := p.2 }
  | none => .ok ()

/-- A CODED payload decoded (R137, R138): literals and sequences. `hdr` is the offset of the block header. -/
def abfCoded (pl : List Byte) (hdr raw : Nat) : Except GErr (List Byte × List AbfSeq) := do
  let l := u32At pl 0
  let s := u32At pl 4
  match (if pl.length < 8 then none else cutSections (hdr + 16) 5 (pl.drop 8)) with
  | some [a, b, c, d, e] =>
    if raw < l + 4 * s then .error { code := gOverrun, off := hdr }
    else
      let lit ← abfSection a.1 a.2 l 256
      let ll ← abfSection b.1 b.2 s 25
      badCode ll
      let ml ← abfSection c.1 c.2 s 25
      badCode ml
      let of ← abfSection d.1 d.2 s 25
      badCode of
      let (qs, ex) ← abfSeqs ll ml of (secBits e.1 (e.2 + 4))
      secDone ex
      .ok (lit.map (fun p => BitVec.ofNat 8 p.1), qs)
  | _ => .error { code := gHeader, off := hdr }

/-! ## Frames -/

/-- A frame header (Table 5.4). -/
structure AbfHdr where
  kind : Nat
  log2 : Nat
  len : Nat
  chain : Nat
  frame : Nat
  deriving DecidableEq, Repr

/-- Blocks of a frame (R135). -/
def AbfHdr.blocks (h : AbfHdr) : Nat := (h.len + 2 ^ h.log2 - 1) / 2 ^ h.log2
/-- Raw length of block `k`. -/
def AbfHdr.raw (h : AbfHdr) (k : Nat) : Nat := if k + 1 < h.blocks then 2 ^ h.log2 else h.len - (h.blocks - 1) * 2 ^ h.log2

/-- What a decoder answers: a value, a failure, or that the input ends before. -/
inductive Dec (α : Type) where
  | ok (a : α)
  | err (e : GErr)
  | need
  deriving DecidableEq, Repr

/-- The header at offset `p` (R134): MAGIC, then HDR_CRC, then the fields. -/
def abfHeader (bs : List Byte) (p : Nat) : Dec AbfHdr :=
  let h := bs.take 32
  let magic : List Byte := [0x41, 0x4B, 0x42, 0x46]
  if (h.zip magic).any (fun q => q.1 != q.2) then .err { code := gHeader, off := p }
  else if h.length < 32 then .need
  else if (crc32c (h.take 28)).toNat ≠ u32At h 28 then .err { code := gChecksum, off := p + 0x1C }
  else
    let x : AbfHdr := { kind := u8At h 5, log2 := u8At h 6, len := u64At h 8, chain := u32At h 16, frame := u32At h 20 }
    if u8At h 4 ≠ 1 ∨ 1 < x.kind ∨ x.log2 < 12 ∨ 18 < x.log2 ∨ u8At h 7 ≠ 0 ∨ x.len < 1 ∨ 2 ^ 40 < x.len ∨ u32At h 24 ≠ 0
      ∨ (x.kind = 0 ∧ (x.chain ≠ 0 ∨ x.frame ≠ 0)) then .err { code := gHeader, off := p }
    else .ok x

/-- One block done: its length in the input, its content's CRC32C. -/
structure AbfBlock where
  len : Nat
  crc : W32
  deriving DecidableEq, Repr

/-- What stands after part of a frame. -/
structure AbfRun where
  w : AbfOut
  p : Nat
  rest : List Byte
  blocks : List AbfBlock
  deriving DecidableEq, Repr

/-- The block at `r.p` decoded and written (R135, R140). An error leaves what Table 5.9 says. -/
def abfBlock (h : AbfHdr) (k : Nat) (r : AbfRun) : AbfRun × Dec Unit :=
  let raw := h.raw k
  let typ := u8At r.rest 0
  let n := u32At r.rest 4
  let w0 := if h.kind = 0 then { r.w with hist := [] } else r.w
  if r.rest.length < 8 then (r, .need)
  else if 2 < typ ∨ !zeroAt r.rest 1 3 ∨ (typ = 0 ∧ n ≠ raw) ∨ (typ = 1 ∧ n ≠ 1) then (r, .err { code := gHeader, off := r.p })
  else if r.rest.length < 8 + n then (r, .need)
  else
    let pl := (r.rest.drop 8).take n
    let fin := fun (w : AbfOut) (e : Option GErr) =>
      let new := (w.out.rev.take (w.out.n - r.w.out.n)).reverse
      match e with
      | some e => ({ r with w := w }, Dec.err e)
      | none => ({ w := w, p := r.p + 8 + n, rest := r.rest.drop (8 + n),
                   blocks := r.blocks ++ [{ len := 8 + n, crc := crc32c new }] }, Dec.ok ())
    if typ = 2 then
      match abfCoded pl r.p raw with
      | .error e => (r, .err e)
      | .ok (lit, qs) => let (w, e) := abfExec raw r.p qs lit 0 w0; fin w e
    else
      let content := if typ = 0 then pl else List.replicate raw (pl.headD 0)
      match abfPuts content w0 with
      | (w, true) => fin w (some { code := gOutFull, off := r.p })
      | (w, false) => fin w none

/-- Blocks `k` to `k + n - 1` in order. -/
def abfBlocks (h : AbfHdr) : Nat → Nat → AbfRun → AbfRun × Dec Unit
  | 0, _, r => (r, .ok ())
  | n + 1, k, r => match abfBlock h k r with
    | (r', .ok ()) => abfBlocks h n (k + 1) r'
    | (r', d) => (r', d)

/-- The index and trailer checks of sequential decoding, in the order of R142; `content` is the CRC32C of the frame's bytes. -/
def abfTail (bl : List AbfBlock) (content : W32) (q : Nat) (bs : List Byte) : Dec Unit :=
  let b := bl.length
  if bs.length < 8 * b + 16 then .need
  else
    match bl.zipIdx.findSome? (fun x =>
        if u32At bs (8 * x.2) ≠ x.1.len then some ({ code := gHeader, off := q + 8 * x.2 } : GErr)
        else if u32At bs (8 * x.2 + 4) ≠ x.1.crc.toNat then some { code := gChecksum, off := q + 8 * x.2 + 4 }
        else none) with
    | some e => .err e
    | none =>
      let t := bs.drop (8 * b)
      let p := q + 8 * b
      if u32At t 0 ≠ b then .err { code := gHeader, off := p }
      else if u32At t 4 ≠ (crc32c (bs.take (8 * b))).toNat then .err { code := gChecksum, off := p + 4 }
      else if u32At t 8 ≠ content.toNat then .err { code := gChecksum, off := p + 8 }
      else if u32At t 12 ≠ 0x45424B41 then .err { code := gHeader, off := p + 12 }
      else .ok ()

/-- The chain a decoder stands in: CHAIN_ID, number of the next frame, history newest first. -/
structure AbfChain where
  id : Nat
  next : Nat
  hist : List Byte
  deriving DecidableEq, Repr

/-- The sequential decoder between frames: output, input offset and rest, the chain of the preceding frame and the restored
one, frames begun and frames completed. -/
structure AbfState where
  out : OutBuf
  p : Nat
  rest : List Byte
  prev : Option AbfChain
  img : Option AbfChain
  frames : Nat
  done : Nat
  deriving DecidableEq, Repr

/-- The history a frame starts with (R141). -/
def abfHistory (h : AbfHdr) (p : Nat) (s : AbfState) : Except GErr (List Byte) :=
  if h.kind = 0 ∨ h.frame = 0 then .ok []
  else
    let imgHist : Except GErr (List Byte) := match s.img with
      | none => .error { code := gDictionary, off := p }
      | some c => if c.id = h.chain ∧ c.next = h.frame then .ok c.hist else .error { code := gStateImage, off := p }
    match s.prev with
    | some c => if c.id = h.chain ∧ c.next = h.frame then .ok c.hist else imgHist
    | none => imgHist

/-- One frame (R134-R142). -/
def abfFrame (s : AbfState) : AbfState × Dec Unit :=
  match abfHeader s.rest s.p with
  | .need => (s, .need)
  | .err e => (s, .err e)
  | .ok h =>
    match abfHistory h s.p s with
    | .error e => (s, .err e)
    | .ok hist =>
      let r0 : AbfRun := { w := { out := s.out, hist := hist }, p := s.p + 32, rest := s.rest.drop 32, blocks := [] }
      match abfBlocks h h.blocks 0 r0 with
      | (r, .ok ()) =>
        let content := crc32c ((r.w.out.rev.take h.len).reverse)
        (match abfTail r.blocks content r.p r.rest with
         | .ok () =>
           let n := 8 * h.blocks + 16
           ({ s with out := r.w.out, p := r.p + n, rest := r.rest.drop n, done := s.done + 1,
                     prev := if h.kind = 1 then some { id := h.chain, next := h.frame + 1, hist := r.w.hist.take (2 ^ 20) }
                             else none }, .ok ())
         | d => ({ s with out := r.w.out }, d))
      | (r, d) => ({ s with out := r.w.out }, d)

/-- Frames in order until the input ends, an error, or a frame that is not whole: its state is the one before the frame, with
the output of the blocks it holds in the second part. -/
def abfRun : Nat → AbfState → AbfState × AbfState × Dec Unit
  | 0, s => (s, s, .ok ())
  | f + 1, s =>
    if s.rest = [] then (s, s, .ok ())
    else match abfFrame { s with frames := s.frames + 1 } with
      | (t, .ok ()) => abfRun f t
      | (t, d) => (s, t, d)

/-- Random access (R142): one independent frame; blocks `first` to `first + count - 1`. -/
def abfRandom (bs : List Byte) (first count limit : Nat) : OutBuf × Nat × Dec Unit :=
  let o : OutBuf := { rev := [], n := 0, limit := limit }
  match abfHeader bs 0 with
  | .need => (o, 0, .need)
  | .err e => (o, 0, .err e)
  | .ok h =>
    if h.kind = 1 ∨ h.blocks < first + count then (o, 0, .err { code := gParam, off := 0 })
    else
      let b := h.blocks
      let q := bs.length - 16 - 8 * b
      let t := bs.drop (bs.length - 16)
      let idx := (bs.drop q).take (8 * b)
      if bs.length < 32 + 8 * b + 16 then (o, 0, .need)
      else if u32At t 0 ≠ b then (o, 0, .err { code := gHeader, off := bs.length - 16 })
      else if u32At t 12 ≠ 0x45424B41 then (o, 0, .err { code := gHeader, off := bs.length - 4 })
      else if u32At t 4 ≠ (crc32c idx).toNat then (o, 0, .err { code := gChecksum, off := bs.length - 12 })
      else
        let lens := (List.range b).map (fun k => u32At idx (8 * k))
        if bs.length ≠ 32 + lens.foldl (· + ·) 0 + 8 * b + 16 then (o, 0, .err { code := gHeader, off := q })
        else
          (List.range count).foldl (fun (a : OutBuf × Nat × Dec Unit) i =>
            match a with
            | (o, u, .ok ()) =>
              let k := first + i
              let p := 32 + (lens.take k).foldl (· + ·) 0
              let r0 : AbfRun := { w := { out := o, hist := [] }, p := p, rest := bs.drop p, blocks := [] }
              (match abfBlock h k r0 with
               | (r, .ok ()) =>
                 let blk := r.blocks.headD { len := 0, crc := 0 }
                 if lens.getD k 0 ≠ blk.len then (r.w.out, k, Dec.err { code := gHeader, off := q + 8 * k })
                 else if u32At idx (8 * k + 4) ≠ blk.crc.toNat then
                   (r.w.out, k, .err { code := gChecksum, off := q + 8 * k + 4 })
                 else (r.w.out, u, .ok ())
               | (r, d) => (r.w.out, k, d))
            | x => x) (o, 0, .ok ())

end Sys2Proof.Machine
end

