-- ==== Sys2Proof/Machine/Zstd.lean ====
section
/-! DEFINITION. Zstandard, decompression (05 R132; RFC 8878, notes/assumptions/11.md). -/

namespace Sys2Proof.Machine

/-! ## Bit streams read backward (RFC 8878 4.1) -/

/-- A backward bit stream: its bytes as one number, bits left below the sentinel, input offset of its first byte. -/
structure RevBits where
  val : Nat
  left : Nat
  off : Nat
  deriving DecidableEq, Repr

/-- A backward stream from bytes whose last holds the sentinel; nothing where that byte is zero. -/
def revBits (bs : List Byte) (off : Nat) : Option RevBits :=
  let v := leNat bs
  if bs = [] ∨ bs.getLastD 0 = 0 then none else some { val := v, left := v.log2, off := off }

/-- The next `n` bits, most significant first. -/
def revRead (n : Nat) (b : RevBits) : Option (Nat × RevBits) :=
  if n ≤ b.left then some (b.val / 2 ^ (b.left - n) % 2 ^ n, { b with left := b.left - n }) else none

/-- Offset of the byte that holds the next bit. -/
def revAt (b : RevBits) : Nat := b.off + (b.left - 1) / 8

/-! ## FSE tables -/

/-- An FSE decoding table: accuracy log, and symbol, bits, base of each state. -/
structure Fse where
  log : Nat
  sym : List Nat
  nb : List Nat
  base : List Nat
  deriving DecidableEq, Repr

/-- Positions of the spread, from `p` on, skipping those at or above `high`. -/
def fseSpread (size high step : Nat) : Nat → Nat → List Nat → List (Nat × Nat)
  | 0, _, _ => []
  | _, _, [] => []
  | f + 1, p, s :: t =>
    if p < high then (p, s) :: fseSpread size high step f ((p + step) % size) t
    else fseSpread size high step f ((p + step) % size) (s :: t)

/-- The table of a distribution; -1 is a less-than-one probability. -/
def fseBuild (log : Nat) (probs : List Int) : Fse :=
  let size := 2 ^ log
  let low := (probs.zipIdx.filter (fun p => p.1 = -1)).map (·.2)
  let high := size - low.length
  let syms := probs.zipIdx.flatMap (fun p => List.replicate (if 0 < p.1 then p.1.toNat else 0) p.2)
  let placed := fseSpread size high (size / 2 + size / 8 + 3) (2 * size) 0 syms
    ++ low.zipIdx.map (fun p => (size - 1 - p.2, p.1))
  let tab := (List.range size).map (fun u => ((placed.find? (fun q => q.1 = u)).map (·.2)).getD 0)
  let start := probs.map (fun p => if p = -1 then 1 else p.toNat)
  let xs := (tab.foldl (fun (a : List Nat × List Nat) s => (a.1.set s (a.1.getD s 0 + 1), a.1.getD s 0 :: a.2)) (start, [])).2.reverse
  let nbs := xs.map (fun x => log - x.log2)
  { log := log, sym := tab, nb := nbs, base := (xs.zip nbs).map (fun p => p.1 * 2 ^ p.2 - size) }

/-- A table that always gives one symbol (RLE mode). -/
def fseRle (s : Nat) : Fse := { log := 0, sym := [s], nb := [0], base := [0] }

/-- The probabilities of an FSE table description from bit `pos` of `v`; symbols so far, what is left of the size plus one. -/
def fseProbs (v len : Nat) : Nat → Nat → List Int → Int → Option (List Int × Nat)
  | 0, _, _, _ => none
  | f + 1, pos, acc, left =>
    if left = 1 then some (acc, pos)
    else if left < 1 ∨ 256 ≤ acc.length then none
    else
      let mx := left.toNat
      let bitsN := mx.log2 + 1
      let lowMask := 2 ^ (bitsN - 1) - 1
      let thresh := 2 ^ bitsN - 1 - mx
      let raw := v / 2 ^ pos % 2 ^ bitsN
      let short := raw % 2 ^ (bitsN - 1)
      let (val, used) := if short < thresh then (short, bitsN - 1)
        else (if lowMask < raw then raw - thresh else raw, bitsN)
      if len < pos + used then none
      else
        let p : Int := (val : Int) - 1
        let left' := left - (if p < 0 then 1 else p)
        if p ≠ 0 then fseProbs v len f (pos + used) (acc ++ [p]) left'
        else fseZeros v len f (pos + used) (acc ++ [0]) left'
where
  /-- Two-bit repeat flags of zero probabilities. -/
  fseZeros (v len : Nat) : Nat → Nat → List Int → Int → Option (List Int × Nat)
    | 0, _, _, _ => none
    | f + 1, pos, acc, left =>
      if len < pos + 2 then none
      else
        let r := v / 2 ^ pos % 4
        let acc' := acc ++ List.replicate r 0
        if r = 3 then fseZeros v len f (pos + 2) acc' left else fseProbs v len f (pos + 2) acc' left

/-- A table description: the table and the bytes it took. -/
def fseDesc (bs : List Byte) (maxLog maxSym : Nat) : Option (Fse × Nat) :=
  let v := leNat (bs.take 600)
  let len := 8 * min bs.length 600
  if len < 4 then none
  else
    let log := v % 16 + 5
    if maxLog < log then none
    else match fseProbs v len 2000 4 [] ((2 ^ log : Nat) + 1 : Int) with
      | none => none
      | some (ps, pos) => if maxSym < ps.length then none else some (fseBuild log ps, (pos + 7) / 8)

/-! ## Huffman trees -/

/-- A Huffman decoding table of 2^log entries: symbol and length. -/
structure HufTab where
  log : Nat
  ent : List (Nat × Nat)
  deriving DecidableEq, Repr

/-- The table of weights, the last one implied. -/
def hufBuild (ws : List Nat) : Option HufTab :=
  let sum := ws.foldl (fun a w => if w = 0 then a else a + 2 ^ (w - 1)) 0
  if sum = 0 then none
  else
    let log := sum.log2 + 1
    let rest := 2 ^ log - sum
    if 11 < log ∨ 2 ^ rest.log2 ≠ rest then none
    else
      let all := ws ++ [rest.log2 + 1]
      some { log := log,
             ent := (List.range log).flatMap (fun i =>
               (all.zipIdx.filter (fun p => p.1 = i + 1)).flatMap (fun p =>
                 List.replicate (2 ^ i) (p.2, log - i))) }

/-- Weights coded with two interleaved FSE states. -/
def hufWeights (t : Fse) : Nat → Nat → Nat → RevBits → List Nat → Option (List Nat)
  | 0, _, _, _, _ => none
  | f + 1, a, b, r, acc =>
    let acc1 := acc ++ [t.sym.getD a 0]
    match revRead (t.nb.getD a 0) r with
    | none => some (acc1 ++ [t.sym.getD b 0])
    | some (v, r') => if 255 < acc1.length then none else hufWeights t f b (t.base.getD a 0 + v) r' acc1

/-- A Huffman tree description: the table and the bytes it took. -/
def hufDesc (bs : List Byte) : Option (HufTab × Nat) :=
  match bs with
  | [] => none
  | h :: t =>
    let n := h.toNat
    if 128 ≤ n then
      let k := n - 127
      let m := (k + 1) / 2
      if t.length < m then none
      else (hufBuild ((List.range k).map (fun i =>
          let b := u8At t (i / 2)
          if i % 2 = 0 then b / 16 else b % 16))).map (fun x => (x, 1 + m))
    else if t.length < n then none
    else
      let body := t.take n
      match fseDesc body 6 12 with
      | none => none
      | some (ft, used) =>
        match revBits (body.drop used) 0 with
        | none => none
        | some r0 => match revRead ft.log r0 with
          | none => none
          | some (a, r1) => match revRead ft.log r1 with
            | none => none
            | some (b, r2) => match hufWeights ft 300 a b r2 [] with
              | none => none
              | some ws => (hufBuild ws).map (fun x => (x, 1 + n))

/-- `n` literals of one Huffman stream, which ends exactly with them. -/
def hufLits (h : HufTab) : Nat → RevBits → Option (List Byte)
  | 0, r => if r.left = 0 then some [] else none
  | n + 1, r =>
    -- peek `log` bits, with zeros beyond the stream's start
    let w := if h.log ≤ r.left then r.val / 2 ^ (r.left - h.log) % 2 ^ h.log
             else r.val % 2 ^ r.left * 2 ^ (h.log - r.left)
    let e := h.ent.getD w (0, h.log)
    if r.left < e.2 then none
    else (hufLits h n { r with left := r.left - e.2 }).map (fun t => BitVec.ofNat 8 e.1 :: t)

/-! ## Blocks -/

/-- What carries over from block to block of a frame: tables and repeat offsets. -/
structure ZCtx where
  huf : Option HufTab
  ll : Option Fse
  of : Option Fse
  ml : Option Fse
  reps : List Nat
  deriving DecidableEq, Repr

/-- The literals section: the literals, its tables, the bytes it took. -/
def zLiterals (bs : List Byte) (off : Nat) (c : ZCtx) : Except GErr (List Byte × ZCtx × Nat) :=
  let bad : Except GErr (List Byte × ZCtx × Nat) := .error { code := gIllegal, off := off }
  match bs with
  | [] => bad
  | b0 :: _ =>
    let ty := b0.toNat % 4
    let sf := b0.toNat / 4 % 4
    if ty < 2 then
      let hl := if sf % 2 = 0 then 1 else if sf = 1 then 2 else 3
      let n := if sf % 2 = 0 then b0.toNat / 8 else fieldAt hl bs 0 / 16
      if ty = 0 then
        if bs.length < hl + n then .error { code := gOverrun, off := off } else .ok ((bs.drop hl).take n, c, hl + n)
      else if bs.length < hl + 1 then bad
      else .ok (List.replicate n (bs.getD hl 0), c, hl + 1)
    else
      let hl := if sf < 2 then 3 else if sf = 2 then 4 else 5
      let w := if sf < 2 then 10 else if sf = 2 then 14 else 18
      let v := fieldAt hl bs 0 / 16
      let n := v % 2 ^ w
      let k := v / 2 ^ w % 2 ^ w
      if bs.length < hl + k then .error { code := gOverrun, off := off }
      else
        let body := (bs.drop hl).take k
        let tree : Option (HufTab × Nat) := if ty = 2 then hufDesc body else c.huf.map (fun h => (h, 0))
        match tree with
        | none => .error { code := gIllegal, off := off + hl }
        | some (h, used) =>
          let st := body.drop used
          let so := off + hl + used
          let one := fun (x : List Byte) (m : Nat) => (revBits x 0).bind (hufLits h m)
          let lits : Option (List Byte) :=
            if sf = 0 then one st n
            else if st.length < 6 then none
            else
              let s1 := u16At st 0
              let s2 := u16At st 2
              let s3 := u16At st 4
              let d := st.drop 6
              let m := (n + 3) / 4
              if d.length < s1 + s2 + s3 ∨ n < 3 * m then none
              else do
                let a ← one (d.take s1) m
                let b ← one ((d.drop s1).take s2) m
                let e ← one ((d.drop (s1 + s2)).take s3) m
                let f ← one (d.drop (s1 + s2 + s3)) (n - 3 * m)
                some (a ++ b ++ e ++ f)
          match lits with
          | none => .error { code := gIllegal, off := so }
          | some l => .ok (l, { c with huf := some h }, hl + k)

/-- Default distributions (RFC 8878 3.1.1.3.2.2). -/
def llDefault : List Int :=
  [4, 3, 2, 2, 2, 2, 2, 2, 2, 2, 2, 2, 2, 1, 1, 1, 2, 2, 2, 2, 2, 2, 2, 2, 2, 3, 2, 1, 1, 1, 1, 1, -1, -1, -1, -1]
def mlDefault : List Int :=
  [1, 4, 3, 2, 2, 2, 2, 2, 2, 1, 1, 1, 1, 1, 1, 1, 1, 1, 1, 1, 1, 1, 1, 1, 1, 1, 1, 1, 1, 1, 1, 1, 1, 1, 1, 1, 1, 1, 1, 1, 1,
   1, 1, 1, 1, 1, -1, -1, -1, -1, -1, -1, -1]
def ofDefault : List Int :=
  [1, 1, 1, 1, 1, 1, 2, 2, 2, 1, 1, 1, 1, 1, 1, 1, 1, 1, 1, 1, 1, 1, 1, 1, -1, -1, -1, -1, -1]

/-- Base and extra bits of literals length codes 16-35. -/
def llTab : List (Nat × Nat) :=
  [(16, 1), (18, 1), (20, 1), (22, 1), (24, 2), (28, 2), (32, 3), (40, 3), (48, 4), (64, 6), (128, 7), (256, 8), (512, 9),
   (1024, 10), (2048, 11), (4096, 12), (8192, 13), (16384, 14), (32768, 15), (65536, 16)]
/-- Base and extra bits of match length codes 32-52. -/
def mlTab : List (Nat × Nat) :=
  [(35, 1), (37, 1), (39, 1), (41, 1), (43, 2), (47, 2), (51, 3), (59, 3), (67, 4), (83, 4), (99, 5), (131, 7), (259, 8),
   (515, 9), (1027, 10), (2051, 11), (4099, 12), (8195, 13), (16387, 14), (32771, 15), (65539, 16)]
/-- Base and bits of a literals length code. -/
def llCode (c : Nat) : Nat × Nat := if c < 16 then (c, 0) else llTab.getD (c - 16) (65536, 16)
/-- Base and bits of a match length code. -/
def mlCode (c : Nat) : Nat × Nat := if c < 32 then (c + 3, 0) else mlTab.getD (c - 32) (65539, 16)

/-- One field's table by its mode: the table and the bytes taken. -/
def zTable (mode : Nat) (bs : List Byte) (dflt : List Int) (dlog maxLog maxSym : Nat) (prev : Option Fse) : Option (Fse × Nat) :=
  match mode with
  | 0 => some (fseBuild dlog dflt, 0)
  | 1 => match bs with
    | [] => none
    | b :: _ => if maxSym ≤ b.toNat then none else some (fseRle b.toNat, 1)
  | 2 => fseDesc bs maxLog maxSym
  | _ => prev.map (fun t => (t, 0))

/-- One decoded sequence: LL, ML, the offset value of RFC 8878, and the input offset of its bits. -/
structure ZSeq where
  ll : Nat
  ml : Nat
  of : Nat
  at_ : Nat
  deriving DecidableEq, Repr

/-- The sequences of a block, its bit stream taken to its end. -/
def zSeqs (tl tof tm : Fse) : Nat → Nat → Nat → Nat → RevBits → Option (List ZSeq)
  | 0, _, _, _, r => if r.left = 0 then some [] else none
  | n + 1, a, b, c, r => do
    let oc := tof.sym.getD b 0
    let (ov, r1) ← revRead oc r
    let m := mlCode (tm.sym.getD c 0)
    let (mv, r2) ← revRead m.2 r1
    let l := llCode (tl.sym.getD a 0)
    let (lv, r3) ← revRead l.2 r2
    let q : ZSeq := { ll := l.1 + lv, ml := m.1 + mv, of := 2 ^ oc + ov, at_ := revAt r }
    if n = 0 then (if r3.left = 0 then some [q] else none)
    else
      let (x, r4) ← revRead (tl.nb.getD a 0) r3
      let (y, r5) ← revRead (tm.nb.getD c 0) r4
      let (z, r6) ← revRead (tof.nb.getD b 0) r5
      let t ← zSeqs tl tof tm n (tl.base.getD a 0 + x) (tof.base.getD b 0 + z) (tm.base.getD c 0 + y) r6
      some (q :: t)

/-- The sequences section: the sequences and the tables. -/
def zSequences (bs : List Byte) (off : Nat) (c : ZCtx) : Except GErr (List ZSeq × ZCtx) :=
  let bad : Except GErr (List ZSeq × ZCtx) := .error { code := gIllegal, off := off }
  match bs with
  | [] => bad
  | b0 :: _ =>
    let n0 := b0.toNat
    let (n, hl) := if n0 < 128 then (n0, 1) else if n0 < 255 then ((n0 - 128) * 256 + u8At bs 1, 2) else (u16At bs 1 + 0x7F00, 3)
    if n = 0 then (if bs.length = hl then .ok ([], c) else bad)
    else if bs.length < hl + 1 then bad
    else
      let md := u8At bs hl
      if md % 4 ≠ 0 then bad
      else
        let d0 := bs.drop (hl + 1)
        match zTable (md / 64) d0 llDefault 6 9 36 c.ll with
        | none => .error { code := gIllegal, off := off + hl + 1 }
        | some (tl, u1) => match zTable (md / 16 % 4) (d0.drop u1) ofDefault 5 8 32 c.of with
          | none => .error { code := gIllegal, off := off + hl + 1 + u1 }
          | some (tof, u2) => match zTable (md / 4 % 4) (d0.drop (u1 + u2)) mlDefault 6 9 53 c.ml with
            | none => .error { code := gIllegal, off := off + hl + 1 + u1 + u2 }
            | some (tm, u3) =>
              let so := off + hl + 1 + u1 + u2 + u3
              let qs : Option (List ZSeq) := do
                let r ← revBits (d0.drop (u1 + u2 + u3)) so
                let (a, r1) ← revRead tl.log r
                let (b, r2) ← revRead tof.log r1
                let (m, r3) ← revRead tm.log r2
                zSeqs tl tof tm n a b m r3
              match qs with
              | none => .error { code := gIllegal, off := so }
              | some q => .ok (q, { c with ll := some tl, of := some tof, ml := some tm })

/-- The offset of a sequence and the repeat offsets after it (RFC 8878 3.1.1.5). -/
def zOffset (q : ZSeq) (reps : List Nat) : Nat × List Nat :=
  let r0 := reps.getD 0 1
  let r1 := reps.getD 1 4
  let r2 := reps.getD 2 8
  if 3 < q.of then (q.of - 3, [q.of - 3, r0, r1])
  else
    let k := if q.ll = 0 then q.of + 1 else q.of
    if k = 1 then (r0, [r0, r1, r2])
    else if k = 2 then (r1, [r1, r0, r2])
    else if k = 3 then (r2, [r2, r0, r1])
    else (r0 - 1, [r0 - 1, r0, r1])

/-- Where a frame writes: output, bytes decoded in the frame with the dictionary behind them, bytes of the frame. -/
structure ZOut where
  w : AbfOut
  n : Nat
  deriving DecidableEq, Repr

/-- Sequences executed. -/
def zExec (window hdr : Nat) : List ZSeq → List Byte → List Nat → AbfOut → AbfOut × List Nat × Option GErr
  | [], lit, reps, w => match abfPuts lit w with
    | (w', true) => (w', reps, some { code := gOutFull, off := hdr })
    | (w', false) => (w', reps, none)
  | q :: t, lit, reps, w =>
    if lit.length < q.ll then (w, reps, some { code := gOverrun, off := q.at_ })
    else match abfPuts (lit.take q.ll) w with
      | (w1, true) => (w1, reps, some { code := gOutFull, off := hdr })
      | (w1, false) =>
        let (d, reps') := zOffset q reps
        if d = 0 ∨ w1.hist.length < d ∨ window < d then (w1, reps, some { code := gDistance, off := q.at_ })
        else match abfCopy d q.ml w1 with
          | (w2, true) => (w2, reps, some { code := gOutFull, off := hdr })
          | (w2, false) => zExec window hdr t (lit.drop q.ll) reps' w2

/-! ## Frames -/

/-- A frame's parameters from its header. -/
structure ZHdr where
  window : Nat
  size : Option Nat
  checksum : Bool
  hlen : Nat
  deriving DecidableEq, Repr

/-- A dictionary as a frame uses it: its content newest first, and the tables a formatted one gives. -/
structure ZDict where
  rev : List Byte
  ctx : ZCtx
  deriving DecidableEq, Repr

/-- No tables, and the repeat offsets a frame starts with. -/
def zCtx0 : ZCtx := { huf := none, ll := none, of := none, ml := none, reps := [1, 4, 8] }

/-- A supplied dictionary: formatted where it begins with 0xEC30A437, else raw content; nothing where its tables are invalid. -/
def zDict (d : List Byte) : Option ZDict :=
  if d = [] then some { rev := [], ctx := zCtx0 }
  else if u32At d 0 ≠ 0xEC30A437 then some { rev := d.reverse, ctx := zCtx0 }
  else do
    let e := d.drop 8
    let (h, u0) ← hufDesc e
    let (fo, u1) ← fseDesc (e.drop u0) 8 32
    let (fm, u2) ← fseDesc (e.drop (u0 + u1)) 9 53
    let (fl, u3) ← fseDesc (e.drop (u0 + u1 + u2)) 9 36
    let r := e.drop (u0 + u1 + u2 + u3)
    some { rev := (r.drop 12).reverse,
           ctx := { huf := some h, ll := some fl, of := some fo, ml := some fm, reps := [u32At r 0, u32At r 4, u32At r 8] } }

/-- The decoder between frames. -/
structure ZState where
  out : OutBuf
  p : Nat
  rest : List Byte
  frames : Nat
  done : Nat
  deriving DecidableEq, Repr

/-- The header of a Zstandard frame at offset `p` (R132). -/
def zHeader (bs : List Byte) (p : Nat) (dict : List Byte) (dictId : Nat) : Dec ZHdr :=
  if bs.length < 5 then .need
  else
    let fd := u8At bs 4
    let single := bit fd 5
    let fcs := fd / 64
    let dl := [0, 1, 2, 4].getD (fd % 4) 0
    let fl := if fcs = 0 then (if single then 1 else 0) else [0, 2, 4, 8].getD fcs 0
    let wl := if single then 0 else 1
    let hl := 5 + wl + dl + fl
    if bit fd 3 then .err { code := gHeader, off := p }
    else if bs.length < hl then .need
    else
      let wd := u8At bs 5
      let fcsV := fieldAt fl bs (5 + wl + dl) + (if fl = 2 then 256 else 0)
      let base := 2 ^ (10 + wd / 8)
      let win := if single then fcsV else base + base / 8 * (wd % 8)
      let id := fieldAt dl bs (5 + wl)
      if 0x800000 < win then .err { code := gWindow, off := p }
      else if id ≠ 0 ∧ (dict = [] ∨ id ≠ dictId) then .err { code := gDictionary, off := p + 5 + wl }
      else .ok { window := win, size := if fl = 0 then none else some fcsV, checksum := bit fd 2, hlen := hl }

/-- A frame in progress: where it writes, input offset and rest, tables, bytes of the frame. -/
structure ZRun where
  w : AbfOut
  p : Nat
  rest : List Byte
  ctx : ZCtx
  n : Nat
  deriving DecidableEq, Repr

/-- One block; true in the second part after the last one. -/
def zBlock (h : ZHdr) (r : ZRun) : ZRun × Dec Bool :=
  if r.rest.length < 3 then (r, .need)
  else
    let v := fieldAt 3 r.rest 0
    let ty := v / 2 % 4
    let sz := v / 8
    let last := decide (v % 2 = 1)
    let mx := min h.window 131072
    let body := r.rest.drop 3
    let take := if ty = 1 then 1 else sz
    if ty = 3 then (r, .err { code := gHeader, off := r.p })
    else if mx < sz then (r, .err { code := gOverrun, off := r.p })
    else if body.length < take then (r, .need)
    else
      let fin := fun (w : AbfOut) (c : ZCtx) (e : Option GErr) =>
        match e with
        | some e => ({ r with w := w }, Dec.err e)
        | none => ({ w := w, p := r.p + 3 + take, rest := body.drop take, ctx := c, n := r.n + (w.out.n - r.w.out.n) },
                   Dec.ok last)
      if ty ≠ 2 then
        let content := if ty = 0 then body.take sz else List.replicate sz (body.headD 0)
        match abfPuts content r.w with
        | (w, true) => fin w r.ctx (some { code := gOutFull, off := r.p })
        | (w, false) => fin w r.ctx none
      else
        let bs := body.take sz
        match zLiterals bs (r.p + 3) r.ctx with
        | .error e => (r, .err e)
        | .ok (lit, c1, used) =>
          match zSequences (bs.drop used) (r.p + 3 + used) c1 with
          | .error e => (r, .err e)
          | .ok (qs, c2) =>
            let (w, reps, e) := zExec h.window r.p qs lit c2.reps r.w
            let tooBig := mx < w.out.n - r.w.out.n
            fin w { c2 with reps := reps } (match e with
              | some e => some e
              | none => if tooBig then some { code := gOverrun, off := r.p } else none)

/-- Blocks to the last one. -/
def zBlocks (h : ZHdr) : Nat → ZRun → ZRun × Dec Unit
  | 0, r => (r, .need)
  | f + 1, r => match zBlock h r with
    | (r', .ok true) => (r', .ok ())
    | (r', .ok false) => zBlocks h f r'
    | (r', .err e) => (r', .err e)
    | (r', .need) => (r', .need)

/-- One frame or skippable frame (R132). -/
def zFrame (dict : List Byte) (dictId : Nat) (s : ZState) : ZState × Dec Unit :=
  let m := fieldAt 4 s.rest 0
  if s.rest.length < 4 then (s, .need)
  else if 0x184D2A50 ≤ m ∧ m ≤ 0x184D2A5F then
    if s.rest.length < 8 then (s, .need)
    else
      let n := 8 + u32At s.rest 4
      if s.rest.length < n then (s, .need)
      else ({ s with p := s.p + n, rest := s.rest.drop n, done := s.done + 1 }, .ok ())
  else if m ≠ 0xFD2FB528 then (s, .err { code := gHeader, off := s.p })
  else match zHeader s.rest s.p dict dictId with
    | .need => (s, .need)
    | .err e => (s, .err e)
    | .ok h =>
      match zDict dict with
      | none => (s, .err { code := gIllegal, off := s.p })
      | some zd =>
        let r0 : ZRun := { w := { out := s.out, hist := zd.rev }, p := s.p + h.hlen, rest := s.rest.drop h.hlen,
                           ctx := zd.ctx, n := 0 }
        match zBlocks h s.rest.length r0 with
        | (r, .need) => ({ s with out := r.w.out }, .need)
        | (r, .err e) => ({ s with out := r.w.out }, .err e)
        | (r, .ok ()) =>
          let frameBytes := (r.w.out.rev.take r.n).reverse
          let t := { s with out := r.w.out }
          if (match h.size with | some k => decide (k ≠ r.n) | none => false) then (t, .err { code := gOverrun, off := s.p })
          else if h.checksum then
            if r.rest.length < 4 then (t, .need)
            else if u32At r.rest 0 ≠ (xxh64 frameBytes).toNat % 2 ^ 32 then (t, .err { code := gChecksum, off := r.p })
            else ({ t with p := r.p + 4, rest := r.rest.drop 4, done := s.done + 1 }, .ok ())
          else ({ t with p := r.p, rest := r.rest, done := s.done + 1 }, .ok ())

/-- Frames in order until the input ends or one fails. -/
def zRun (dict : List Byte) (dictId : Nat) : Nat → ZState → ZState × Dec Unit
  | 0, s => (s, .ok ())
  | f + 1, s =>
    if s.rest = [] then (s, .ok ())
    else match zFrame dict dictId { s with frames := s.frames + 1 } with
      | (t, .ok ()) => zRun dict dictId f t
      | (t, d) => (t, d)

end Sys2Proof.Machine
end

