-- ==== Sys2Proof/Machine/Compress.lean ====
section
/-! DEFINITION. The Graver's compression (05 R143-R146). Where the spec leaves a choice (Huffman code lengths, TANS counts, FSE
tables) the coded bytes are opaque constants of Config applied to what they code (notes/assumptions/12.md). -/

namespace Sys2Proof.Machine

/-- The settings of a compression: HASH_BYTES, CHAIN_DEPTH, lazy matching. -/
structure CmpSet where
  hash : Nat
  depth : Nat
  lazy : Bool
  deriving DecidableEq, Repr

/-- The settings of LEVEL 1-9 (Table 5.7). -/
def levelSet (l : Nat) : CmpSet :=
  { hash := [6, 5, 5, 5, 4, 4, 4, 4, 4].getD (l - 1) 4, depth := [1, 2, 4, 8, 16, 32, 64, 128, 256].getD (l - 1) 1,
    lazy := decide (4 ≤ l) }

/-- The hash of a position (R143). -/
def cmpHash (h : Nat) (bs : Array Byte) (p : Nat) : Nat :=
  let v := leNat ((List.range h).map (fun i => bs.getD (p + i) 0))
  (BitVec.ofNat 64 v * 0x9E3779B185EBCA87#64).toNat / 2 ^ 48

/-- Length of the match of positions `q` and `p`, at most `n`. -/
def matchLen (bs : Array Byte) (q p : Nat) : Nat → Nat
  | 0 => 0
  | n + 1 => if bs.getD q 0 = bs.getD p 0 then 1 + matchLen bs (q + 1) (p + 1) n else 0

/-- A stretch of data being compressed: the bytes with the history before them, the first position that may be matched and
the end, the window and the longest match. -/
structure CmpData where
  bs : Array Byte
  lo : Nat
  hi : Nat
  window : Nat
  maxLen : Nat
  deriving DecidableEq, Repr

/-- The longest match at `p` among its candidates, newest first; among equals the first found. -/
def bestMatch (c : CmpSet) (d : CmpData) (cands : List Nat) (p : Nat) : Option (Nat × Nat) :=
  ((cands.filter (fun q => decide (d.lo ≤ q) && decide (p - q ≤ d.window))).take c.depth).foldl
    (fun best q =>
      let l := matchLen d.bs q p (min d.maxLen (d.hi - p))
      match best with
      | none => if c.hash ≤ l then some (l, p - q) else none
      | some (m, _) => if m < l then some (l, p - q) else best) none

/-- The chains: positions entered, newest first, by hash. -/
abbrev Chains := List (Nat × List Nat)

/-- The chain of a hash. -/
def chainGet : Chains → Nat → List Nat
  | [], _ => []
  | (h, l) :: t, k => if h = k then l else chainGet t k

/-- Position `p` entered into the chain of its hash. -/
def chainAdd : Chains → Nat → Nat → Chains
  | [], k, p => [(k, [p])]
  | (h, l) :: t, k, p => if h = k then (h, p :: l) :: t else (h, l) :: chainAdd t k p

/-- Positions `p` to `p + n - 1` hashed and entered, where HASH_BYTES bytes remain before the end. -/
def chainEnter (c : CmpSet) (d : CmpData) : Nat → Nat → Chains → Chains
  | 0, _, ch => ch
  | n + 1, p, ch =>
    chainEnter c d n (p + 1) (if p + c.hash ≤ d.hi then chainAdd ch (cmpHash c.hash d.bs p) p else ch)

/-- The match at `p`, if its hash may be taken. -/
def matchAt (c : CmpSet) (d : CmpData) (ch : Chains) (p : Nat) : Option (Nat × Nat) :=
  if p + c.hash ≤ d.hi then bestMatch c d (chainGet ch (cmpHash c.hash d.bs p)) p else none

/-- The tokens from `p` to the end: (0, byte) for a literal, (length, distance) for a match (R143). -/
def cmpTokens (c : CmpSet) (d : CmpData) : Nat → Nat → Chains → List (Nat × Nat)
  | 0, _, _ => []
  | f + 1, p, ch =>
    if d.hi ≤ p then []
    else
      let ch1 := chainEnter c d 1 p ch
      let lit := (0, (d.bs.getD p 0).toNat)
      match matchAt c d ch p with
      | none => lit :: cmpTokens c d f (p + 1) ch1
      | some (l, dist) =>
        let deferred := c.lazy && (match matchAt c d ch1 (p + 1) with | some (m, _) => decide (l < m) | none => false)
        if deferred then lit :: cmpTokens c d f (p + 1) ch1
        else (l, dist) :: cmpTokens c d f (p + l) (chainEnter c d l p ch)

/-- The tokens of some input behind some history. -/
def tokensOf (c : CmpSet) (hist inp : List Byte) (window maxLen : Nat) : List (Nat × Nat) :=
  let d : CmpData := { bs := (hist ++ inp).toArray, lo := 0, hi := hist.length + inp.length, window := window, maxLen := maxLen }
  cmpTokens c d (inp.length + 1) hist.length (chainEnter c d hist.length 0 [])

/-- Bytes that a token covers. -/
def tokLen (t : Nat × Nat) : Nat := if t.1 = 0 then 1 else t.1

/-! ## DEFLATE -/

/-- Bits of `v`, least significant first. -/
def bitsOfNat : Nat → Nat → List Bool
  | 0, _ => []
  | n + 1, v => decide (v % 2 = 1) :: bitsOfNat n (v / 2)

/-- Bits of a Huffman code, most significant first. -/
def codeBits (n v : Nat) : List Bool := (bitsOfNat n v).reverse

/-- Bytes of a bit string, the last padded with zero bits. -/
def packBits : Nat → List Bool → List Byte
  | 0, _ => []
  | _, [] => []
  | f + 1, bs =>
    BitVec.ofNat 8 ((bs.take 8).foldr (fun b a => b.toNat + 2 * a) 0) :: packBits f (bs.drop 8)

/-- The fixed code of a literal or length symbol. -/
def fixedCode (s : Nat) : List Bool :=
  if s < 144 then codeBits 8 (0x30 + s)
  else if s < 256 then codeBits 9 (0x190 + (s - 144))
  else if s < 280 then codeBits 7 (s - 256)
  else codeBits 8 (0xC0 + (s - 280))

/-- Index of the last entry of a base table that is at most `v`. -/
def tabIndex (tab : List (Nat × Nat)) (v : Nat) : Nat := (tab.filter (fun p => p.1 ≤ v)).length - 1

/-- A token under the fixed codes. -/
def fixedToken (t : Nat × Nat) : List Bool :=
  if t.1 = 0 then fixedCode t.2
  else
    let i := tabIndex lenTab t.1
    let j := tabIndex distTab t.2
    let a := lenTab.getD i (3, 0)
    let b := distTab.getD j (1, 0)
    fixedCode (257 + i) ++ bitsOfNat a.2 (t.1 - a.1) ++ codeBits 5 j ++ bitsOfNat b.2 (t.2 - b.1)

/-- Bits of a stored block at bit position `pos` of the stream. -/
def storedBits (final : Bool) (pos : Nat) (bs : List Byte) : List Bool :=
  [final, false, false] ++ List.replicate ((8 - (pos + 3) % 8) % 8) false
    ++ bitsOfNat 16 bs.length ++ bitsOfNat 16 (65535 - bs.length) ++ bs.flatMap (fun b => bitsOfNat 8 b.toNat)

/-- Bytes of a stretch in stored blocks of at most 65,535 bytes, the last carrying the flag. -/
def storedRun (final : Bool) (pos : Nat) (bs : List Byte) : List Bool :=
  if bs.length ≤ 65535 then storedBits final pos bs
  else
    let a := storedBits false pos (bs.take 65535)
    a ++ storedBits final (pos + a.length) (bs.drop 65535)

/-- One block: the smallest of stored, fixed and dynamic, the earlier winning a tie (R145). -/
def deflateBlock (final : Bool) (pos : Nat) (bs : List Byte) (toks : List (Nat × Nat)) : List Bool :=
  let st := storedRun final pos bs
  let fx := [final, true, false] ++ toks.flatMap fixedToken ++ fixedCode 256
  let dy := [final, false, true] ++ Config.deflateDyn toks
  let a := if fx.length < st.length then fx else st
  if dy.length < a.length then dy else a

/-- Tokens cut into blocks of at most 64 KiB of input. -/
def cutTokens : List (Nat × Nat) → Nat → List (Nat × Nat) → List (List (Nat × Nat))
  | [], _, acc => if acc = [] then [] else [acc]
  | t :: r, n, acc =>
    if acc ≠ [] ∧ 65536 < n + tokLen t then acc :: cutTokens r (tokLen t) [t]
    else cutTokens r (n + tokLen t) (acc ++ [t])

/-- The blocks of a DEFLATE stream from bit position 0; the last carries BFINAL when the input ends the stream. -/
def deflateBlocks (fin : Bool) : List (List (Nat × Nat)) → List Byte → Nat → List Bool
  | [], _, pos => if fin then deflateBlock true pos [] [] else storedBits false pos []
  | [t], bs, pos =>
    if fin then deflateBlock true pos bs t
    else
      let a := deflateBlock false pos bs t
      a ++ storedBits false (pos + a.length) []
  | t :: u :: r, bs, pos =>
    let n := t.foldl (fun a x => a + tokLen x) 0
    let a := deflateBlock false pos (bs.take n) t
    a ++ deflateBlocks fin (u :: r) (bs.drop n) (pos + a.length)

/-- The DEFLATE body of one descriptor. With END clear it ends with an empty stored block on a byte boundary. -/
def deflateBody (c : CmpSet) (hist inp : List Byte) (fin : Bool) : List Byte :=
  let b := deflateBlocks fin (cutTokens (tokensOf c hist inp 32768 258) 0 []) inp 0
  packBits (b.length / 8 + 1) b

/-! ## ABF -/

/-- Bits of an integer code (R138): the code and its extra bits. -/
def abfCode (v : Nat) : Nat × List Bool := if v < 8 then (v, []) else (v.log2 + 5, bitsOfNat v.log2 (v - 2 ^ v.log2))

/-- The smallest table log from 5 to 11 that can count every present symbol (R145). -/
def tansLog (syms : List Nat) : Nat :=
  let n := (List.range 256).foldl (fun a s => if syms.contains s then a + 1 else a) 0
  ((List.range 7).map (· + 5)).find? (fun r => decide (n ≤ 2 ^ r)) |>.getD 11

/-- A section: TANS when that is smaller than RAW. A TANS section cannot be shorter than its table and one stream byte. -/
def abfSectionOut (syms : List Nat) : List Byte :=
  let raw := 0 :: syms.map (BitVec.ofNat 8)
  let least := 5 + 2 * (syms.foldl max 0 + 1)
  let body := if syms = [] ∨ raw.length ≤ least then raw
    else
      let t := Config.tansSection (tansLog syms) syms
      if t.length < raw.length then t else raw
  leBytes 4 body.length ++ body

/-- Tokens as sequences: literal run, match length, offset; and the literals, those behind the last match included. -/
def toSeqs : List (Nat × Nat) → Nat → List (Nat × Nat × Nat) × List Byte
  | [], _ => ([], [])
  | t :: r, ll =>
    if t.1 = 0 then
      let (q, l) := toSeqs r (ll + 1)
      (q, BitVec.ofNat 8 t.2 :: l)
    else
      let (q, l) := toSeqs r 0
      ((ll, t.1, t.2) :: q, l)

/-- A CODED payload (R137, R138). -/
def abfPayload (toks : List (Nat × Nat)) : List Byte :=
  let (qs, lits) := toSeqs toks 0
  let ll := qs.map (fun q => abfCode q.1)
  let ml := qs.map (fun q => abfCode (q.2.1 - 4))
  let of := qs.map (fun q => abfCode (q.2.2 - 1))
  let ex := (ll.zip (ml.zip of)).flatMap (fun x => x.1.2 ++ x.2.1.2 ++ x.2.2.2)
  let exb := packBits (ex.length / 8 + 1) ex
  leBytes 4 lits.length ++ leBytes 4 qs.length ++ abfSectionOut (lits.map (·.toNat)) ++ abfSectionOut (ll.map (·.1))
    ++ abfSectionOut (ml.map (·.1)) ++ abfSectionOut (of.map (·.1)) ++ leBytes 4 exb.length ++ exb

/-- One ABF block of some bytes with its tokens: RLE for one repeated byte, RAW where CODED is not smaller. -/
def abfBlockOut (bs : List Byte) (toks : List (Nat × Nat)) : List Byte :=
  let hdr := fun (t n : Nat) => leBytes 4 t ++ leBytes 4 n
  let b0 := bs.headD 0
  if bs.all (· = b0) then hdr 1 1 ++ [b0]
  else
    let p := abfPayload toks
    if bs.length ≤ p.length then hdr 0 bs.length ++ bs else hdr 2 p.length ++ p

/-- Tokens of each block: an independent block sees only itself, a chained one reaches 1 MiB back; no match crosses a block
end. -/
def abfBlockTokens (c : CmpSet) (chained : Bool) (sz : Nat) (hist inp : List Byte) : List (List Byte × List (Nat × Nat)) :=
  let full := (hist ++ inp).toArray
  (List.range ((inp.length + sz - 1) / sz)).map (fun k =>
    let blk := (inp.drop (k * sz)).take sz
    if chained then
      let lo := hist.length + k * sz
      let d : CmpData := { bs := full, lo := 0, hi := lo + blk.length, window := 2 ^ 20, maxLen := blk.length }
      (blk, cmpTokens c d (blk.length + 1) lo (chainEnter c d lo 0 []))
    else (blk, tokensOf c [] blk blk.length blk.length))

/-- An ABF frame (R145). -/
def abfFrameOut (c : CmpSet) (kind log2 chain frame : Nat) (hist inp : List Byte) : List Byte :=
  let h0 := leBytes 4 0x46424B41 ++ leBytes 1 1 ++ leBytes 1 kind ++ leBytes 1 log2 ++ leBytes 1 0 ++ leBytes 8 inp.length
    ++ leBytes 4 chain ++ leBytes 4 frame ++ zeros 4
  let blocks := (abfBlockTokens c (kind = 1) (2 ^ log2) hist inp).map (fun x => (x.1, abfBlockOut x.1 x.2))
  let idx := blocks.flatMap (fun x => leBytes 4 x.2.length ++ leBytes 4 (crc32c x.1).toNat)
  h0 ++ leBytes 4 (crc32c h0).toNat ++ blocks.flatMap (·.2) ++ idx ++ leBytes 4 blocks.length
    ++ leBytes 4 (crc32c idx).toNat ++ leBytes 4 (crc32c inp).toNat ++ leBytes 4 0x45424B41

/-! ## Zstandard -/

/-- One block of at most 128 KiB: RLE, else Raw unless Compressed is smaller. -/
def zstdBlockOut (last : Bool) (bs : List Byte) (toks : List (Nat × Nat)) : List Byte :=
  let hdr := fun (t n : Nat) => leBytes 3 (last.toNat + 2 * t + 8 * n)
  let b0 := bs.headD 0
  if bs ≠ [] ∧ bs.all (· = b0) then hdr 1 bs.length ++ [b0]
  else
    let (qs, lits) := toSeqs toks 0
    let z := Config.zstdBlock lits qs
    if bs ≠ [] ∧ z.length < bs.length then hdr 2 z.length ++ z else hdr 0 bs.length ++ bs

/-- Tokens cut at multiples of 128 KiB: a match that crosses the cut is split there. -/
def zstdBlocks : Nat → List (Nat × Nat) → List Byte → List Byte
  | 0, _, _ => []
  | f + 1, toks, bs =>
    let blk := bs.take 131072
    let rec take (n : Nat) : List (Nat × Nat) → List (Nat × Nat) × List (Nat × Nat)
      | [] => ([], [])
      | t :: r =>
        if n = 0 then ([], t :: r)
        else if tokLen t ≤ n then let (a, b) := take (n - tokLen t) r; (t :: a, b)
        else ([(n, t.2)], (t.1 - n, t.2) :: r)
    let (a, b) := take blk.length toks
    if bs.length ≤ 131072 then zstdBlockOut true blk a
    else zstdBlockOut false blk a ++ zstdBlocks f b (bs.drop 131072)

/-- A Zstandard frame (R145): Window_Descriptor 0x50, Frame_Content_Size of the least width, Content_Checksum. -/
def zstdFrameOut (c : CmpSet) (inp : List Byte) : List Byte :=
  let n := inp.length
  let fcs := if n < 65792 then (if n < 256 then 2 else 1) else if n < 2 ^ 32 then 2 else 3
  let fl := [0, 2, 4, 8].getD fcs 4
  let fv := if fcs = 1 then n - 256 else n
  leBytes 4 0xFD2FB528 ++ leBytes 1 (64 * fcs + 4) ++ [0x50#8] ++ leBytes fl fv
    ++ zstdBlocks (n / 131072 + 1) (tokensOf c [] inp (2 ^ 20) 131074) inp
    ++ leBytes 4 ((xxh64 inp).toNat % 2 ^ 32)

end Sys2Proof.Machine
end

