-- ==== Sys2Proof/Machine/Graver.lean ====
section
/-! DEFINITION. GRAVER_RUN: parameter blocks, state images, reports, and the engine's use of the formats (05). -/

namespace Sys2Proof.Machine

/-! ## Parameters (05 R125, R126) -/

/-- A Graver parameter block (Table 5.2). -/
structure GParam where
  fmt : Nat
  compress : Bool
  restore : Bool
  save : Bool
  fin : Bool
  lazy : Bool
  level : Nat
  hash : Nat
  depth : Nat
  state : W64
  dict : W64
  dictLen : Nat
  dictId : Nat
  report : W64
  kind : Nat
  blockLog : Nat
  chain : Nat
  first : Nat
  count : Nat
  reserved : Bool
  deriving DecidableEq, Repr

/-- The block of 64 bytes; `reserved` tells that its reserved fields are zero and DIRECTION is 0 or 1. -/
def gParamOf (b : List Byte) : GParam :=
  let f := u16At b 2
  { fmt := u8At b 0, compress := decide (u8At b 1 = 1), restore := bit f 0, save := bit f 1, fin := bit f 2, lazy := bit f 3,
    level := u8At b 4, hash := u8At b 5, depth := u16At b 6, state := BitVec.ofNat 64 (u64At b 8),
    dict := BitVec.ofNat 64 (u64At b 16), dictLen := u32At b 24, dictId := u32At b 28,
    report := BitVec.ofNat 64 (u64At b 32), kind := u8At b 40, blockLog := u8At b 41, chain := u32At b 44,
    first := u32At b 48, count := u32At b 52,
    reserved := decide (f < 16) && zeroAt b 42 2 && zeroAt b 56 8 && decide (u8At b 1 ≤ 1) }

/-- The rules of Table 5.2 and of R126 that read no address map. -/
def gParamOk (g : GParam) : Bool :=
  let abf := decide (g.fmt = 5) && g.compress
  let expl := g.compress && decide (g.level = 0)
  g.reserved && decide (1 ≤ g.fmt) && decide (g.fmt ≤ 5) && decide (g.level ≤ 9)
    && (if expl then decide (4 ≤ g.hash) && decide (g.hash ≤ 6) && decide (1 ≤ g.depth) && decide (g.depth ≤ 256)
        else decide (g.hash = 0) && decide (g.depth = 0) && !g.lazy)
    && (g.compress || decide (g.level = 0))
    && (g.fin || g.save)
    && !(decide (g.fmt = 4) && (g.restore || g.save || !g.fin))
    && (decide (g.state ≠ 0) == (g.restore || g.save)) && decide (g.state.toNat % 4096 = 0)
    && decide (g.dictLen ≤ 0x800000) && (decide (g.dictLen ≠ 0) || decide (g.dict = 0))
    && !(decide (g.dictLen ≠ 0) && (g.compress || !(decide (g.fmt = 2) || decide (g.fmt = 4))))
    && !(decide (g.count ≠ 0) && (decide (g.fmt ≠ 5) || g.compress || g.restore || g.save || !g.fin))
    && (decide (g.count ≠ 0) || decide (g.first = 0))
    && (if abf then decide (g.kind ≤ 1) && decide (12 ≤ g.blockLog) && decide (g.blockLog ≤ 18)
          && (decide (g.kind = 1) || decide (g.chain = 0))
        else decide (g.kind = 0) && decide (g.blockLog = 0) && decide (g.chain = 0))

/-- The settings of a compression (R144). -/
def gSettings (g : GParam) : CmpSet :=
  if g.level = 0 then { hash := g.hash, depth := g.depth, lazy := g.lazy } else levelSet g.level

/-! ## State images (05 R148, R149) -/

/-- Bytes of a state image. -/
def imageBytes : Nat := 0x101000

/-- The 1 MiB of HISTORY in which `hist` (oldest first) ends at offset `head` - 1. -/
def ringOf (hist : List Byte) (head : Nat) : List Byte :=
  if hist.length < 0x100000 then slice (hist.drop (hist.length - head)) 0 0x100000
  else hist.drop (0x100000 - head) ++ hist.take (0x100000 - head)

/-- The latest `n` bytes of a HISTORY area, oldest first. -/
def unring (ring : List Byte) (head n : Nat) : List Byte :=
  let l := ring.drop head ++ ring.take head
  l.drop (l.length - n)

/-- What a state image says. -/
structure GImage where
  fmt : Nat
  compress : Bool
  totalIn : Nat
  totalOut : Nat
  check : Nat
  chain : Nat
  next : Nat
  stage : Nat
  bfinal : Bool
  bitCnt : Nat
  bitBuf : Nat
  left : Nat
  hlit : Nat
  hdist : Nat
  lit : List Nat
  dist : List Nat
  chainHist : Nat
  /-- Oldest first, HIST_LEN bytes. -/
  hist : List Byte
  deriving DecidableEq, Repr

/-- HIST_HEAD. -/
def GImage.head (i : GImage) : Nat := (if i.compress then i.totalIn else i.totalOut) % 0x100000

/-- The bytes of an image. -/
def GImage.bytes (i : GImage) : List Byte :=
  let front := leBytes 4 0x54534B41 ++ leBytes 2 1 ++ leBytes 1 i.fmt ++ leBytes 1 i.compress.toNat ++ leBytes 8 i.totalIn
    ++ leBytes 8 i.totalOut ++ leBytes 4 i.hist.length ++ leBytes 4 i.head ++ leBytes 4 i.check ++ leBytes 4 i.chain
    ++ leBytes 4 i.next ++ leBytes 1 i.stage ++ leBytes 1 i.bfinal.toNat ++ leBytes 1 i.bitCnt ++ zeros 1 ++ leBytes 8 i.bitBuf
    ++ leBytes 4 i.left ++ leBytes 2 i.hlit ++ leBytes 1 i.hdist ++ zeros 1
    ++ slice (i.lit.map (BitVec.ofNat 8)) 0 288 ++ slice (i.dist.map (BitVec.ofNat 8)) 0 32 ++ leBytes 4 i.chainHist ++ zeros 3704
  let ring := ringOf i.hist i.head
  front ++ leBytes 4 (crc32c (front ++ ring)).toNat ++ ring

/-- The image that bytes hold. -/
def imageOf (b : List Byte) : GImage :=
  let head := u32At b 0x1C
  { fmt := u8At b 6, compress := decide (u8At b 7 = 1), totalIn := u64At b 8, totalOut := u64At b 0x10, check := u32At b 0x20,
    chain := u32At b 0x24, next := u32At b 0x28, stage := u8At b 0x2C, bfinal := decide (u8At b 0x2D = 1), bitCnt := u8At b 0x2E,
    bitBuf := u64At b 0x30, left := u32At b 0x38, hlit := u16At b 0x3C, hdist := u8At b 0x3E,
    lit := (slice b 0x40 288).map (·.toNat), dist := (slice b 0x160 32).map (·.toNat), chainHist := u32At b 0x180,
    hist := unring (slice b 0x1000 0x100000) head (u32At b 0x18) }

/-- The checks of R149. -/
def imageOk (g : GParam) (b : List Byte) : Bool :=
  let i := imageOf b
  let total := if g.compress then i.totalIn else i.totalOut
  let infl := !g.compress && decide (g.fmt ≤ 3)
  decide (u32At b 0 = 0x54534B41) && decide (u16At b 4 = 1) && decide (u8At b 6 = g.fmt) && decide (u8At b 7 = g.compress.toNat)
    && decide (u32At b 0x18 ≤ min total 0x100000) && decide (u32At b 0x1C = total % 0x100000)
    && (decide (g.fmt = 2) || decide (g.fmt = 3) || decide (i.check = 0))
    && (decide (g.fmt = 5) || (decide (i.chain = 0) && decide (i.next = 0) && decide (i.chainHist = 0)))
    && decide (i.chainHist ≤ u32At b 0x18)
    && (if infl then decide (i.stage ≤ 4) else decide (i.stage = 0)) && decide (u8At b 0x2D ≤ 1) && decide (i.bitCnt ≤ 63)
    && (if i.stage = 3 then decide (257 ≤ i.hlit) && decide (i.hlit ≤ 286) && decide (1 ≤ i.hdist) && decide (i.hdist ≤ 30)
        else decide (i.hlit = 0) && decide (i.hdist = 0))
    && i.lit.all (fun l => decide (l ≤ 15)) && i.dist.all (fun l => decide (l ≤ 15))
    && zeroAt b 0x2F 1 && zeroAt b 0x3F 1 && zeroAt b 0x184 3704
    && decide (u32At b 0xFFC = (crc32c (b.take 0xFFC ++ (b.drop 0x1000).take 0x100000)).toNat)

/-! ## What a command gives -/

/-- The outcome of one Graver command. -/
structure GOut where
  code : W16
  off : Nat
  unit : Nat
  consumed : Nat
  out : List Byte
  frames : Nat
  done : Nat
  image : Option GImage
  deriving DecidableEq, Repr

/-- A command that did nothing. -/
def gNone (code : W16) : GOut :=
  { code := code, off := 0, unit := 0, consumed := 0, out := [], frames := 0, done := 0, image := none }

/-- How an input that ran out ends a command: at the poisoned unit, or truncated, or suspended (R147, R152, R578). -/
def gStarved (g : GParam) (n : Nat) (cut : Option Nat) : Option (W16 × Nat) :=
  match cut with
  | some o => some (cPoisoned, o)
  | none => if g.fin then some (gTruncated, n) else none

/-- The DEFLATE machine at the start of a command. -/
def inflStart (g : GParam) (limit : Nat) (inp : List Byte) (img : Option GImage) : Infl :=
  let fresh : Infl := { fmt := g.fmt, stage := 0, bfinal := false, bits := { buf := 0, cnt := 0, rest := inp, pos := 0 }, left := 0,
                        lit := [], dist := [], out := { rev := [], n := 0, limit := limit }, total := 0, check := 0,
                        window := 32768, member := 0, membersDone := 0, ended := false }
  match img with
  | none => fresh
  | some i =>
    { fresh with stage := i.stage, bfinal := i.bfinal, bits := { buf := i.bitBuf, cnt := i.bitCnt, rest := inp, pos := 0 },
                 left := i.left, lit := i.lit, dist := i.dist, out := { rev := i.hist.reverse, n := 0, limit := limit },
                 total := i.totalOut, check := if g.fmt = 3 then 0xFFFFFFFF - i.check else i.check,
                 member := if i.stage = 0 then 0 else 1 }

/-- The image of a DEFLATE-family decompression where it stands. -/
def inflImage (g : GParam) (img : Option GImage) (consumed : Nat) (b : Bits) (t : Infl) : GImage :=
  let base := img.getD { fmt := g.fmt, compress := false, totalIn := 0, totalOut := 0, check := 0, chain := 0, next := 0, stage := 0,
                         bfinal := false, bitCnt := 0, bitBuf := 0, left := 0, hlit := 0, hdist := 0, lit := [], dist := [],
                         chainHist := 0, hist := [] }
  let total := base.totalOut + t.out.n
  let st := if t.ended then 0 else t.stage
  { base with totalIn := base.totalIn + consumed, totalOut := total, stage := st, bfinal := t.bfinal && !t.ended,
              check := if g.fmt = 2 then t.check else if g.fmt = 3 then 0xFFFFFFFF - t.check else 0,
              bitCnt := b.cnt, bitBuf := b.buf, left := t.left, hlit := if st = 3 then min t.lit.length 286 else 0,
              hdist := if st = 3 then min t.dist.length 30 else 0, lit := if st = 3 then t.lit else [],
              dist := if st = 3 then t.dist else [], hist := (t.out.rev.take (min total 0x100000)).reverse }

/-- Decompression of the DEFLATE family (R130, R131, R147). -/
def inflCommand (g : GParam) (limit : Nat) (inp dict : List Byte) (cut : Option Nat) (img : Option GImage) : GOut :=
  let have_ := match cut with | some o => inp.take o | none => inp
  let e := inflRun dict g.dictId have_ (8 * have_.length + 8 * limit + 64) (inflStart g limit have_ img)
  let t := e.st
  let out := outBytes t.out
  let frames := if g.fmt = 3 then t.member else 1
  let done := if g.fmt = 3 then t.membersDone else (if t.ended then 1 else 0)
  let fail := fun (c : W16) (o : Nat) =>
    let u := if g.fmt = 3 then (if t.stage = 0 then t.member else t.member - 1) else 0
    { code := c, off := o, unit := u, consumed := o, out := out, frames := max frames 1, done := if c = gHeader && t.ended then 0 else done,
      image := none : GOut }
  let b := bitsUnread have_ t.bits
  if e.code ≠ 0 then fail e.code e.off
  else if t.ended then
    if g.fin && b.pos < inp.length then
      match cut with
      | some o => if b.pos < o then fail gHeader b.pos else fail cPoisoned o
      | none => fail gHeader b.pos
    else
      { code := 0, off := 0, unit := 0, consumed := if g.fin then inp.length else b.pos, out := out, frames := frames, done := done,
        image := if g.save then some (inflImage g img b.pos b t) else none }
  else
    match gStarved g inp.length cut with
    | some (c, o) => fail c o
    | none => { code := 0, off := 0, unit := 0, consumed := b.pos, out := out, frames := max frames 1, done := done,
                image := if g.save then some (inflImage g img b.pos b t) else none }

/-- Decompression of ABF frames in order (R134-R142, R147). -/
def abfCommand (g : GParam) (limit : Nat) (inp : List Byte) (cut : Option Nat) (img : Option GImage) : GOut :=
  let have_ := match cut with | some o => inp.take o | none => inp
  let chain : Option AbfChain := img.map (fun i => { id := i.chain, next := i.next, hist := (i.hist.drop (i.hist.length - i.chainHist)).reverse })
  let old := (img.map (·.hist)).getD []
  let s0 : AbfState := { out := { rev := old.reverse, n := 0, limit := limit }, p := 0, rest := have_, prev := none, img := chain,
                         frames := 0, done := 0 }
  let (s, t, d) := abfRun (have_.length + 1) s0
  let fail := fun (c : W16) (o : Nat) (ob : OutBuf) (fr : Nat) =>
    { code := c, off := o, unit := fr - 1, consumed := o, out := outBytes ob, frames := fr, done := s.done, image := none : GOut }
  let fine :=
    let tin := (img.map (·.totalIn)).getD 0 + s.p
    let tout := (img.map (·.totalOut)).getD 0 + s.out.n
    let ch : Option AbfChain := match s.prev with
      | some c => some c
      | none => if s.done = 0 then chain else none
    { code := 0, off := 0, unit := 0, consumed := if g.fin then inp.length else s.p, out := outBytes s.out, frames := s.done,
      done := s.done,
      image := if g.save then
          some { fmt := 5, compress := false, totalIn := tin, totalOut := tout, check := 0, chain := (ch.map (·.id)).getD 0,
                 next := (ch.map (·.next)).getD 0, stage := 0, bfinal := false, bitCnt := 0, bitBuf := 0, left := 0, hlit := 0,
                 hdist := 0, lit := [], dist := [], chainHist := (ch.map (·.hist.length)).getD 0,
                 hist := (s.out.rev.take (min tout 0x100000)).reverse }
        else none : GOut }
  match d with
  | .ok () =>
    (match cut with
     | some o => fail cPoisoned o s.out (s.frames + 1)
     | none => fine)
  | .err e => fail e.code e.off t.out t.frames
  | .need =>
    match gStarved g inp.length cut with
    | some (c, o) => fail c o t.out t.frames
    | none => fine

/-- Random access into one independent ABF frame (R142). -/
def abfPick (g : GParam) (limit : Nat) (inp : List Byte) (cut : Option Nat) : GOut :=
  match cut with
  | some o => { gNone cPoisoned with off := o, consumed := o, frames := 1 }
  | none =>
    let (o, u, d) := abfRandom inp g.first g.count limit
    match d with
    | .ok () => { code := 0, off := 0, unit := 0, consumed := inp.length, out := outBytes o, frames := 1, done := 1, image := none }
    | .need => { code := gTruncated, off := inp.length, unit := u, consumed := inp.length, out := outBytes o, frames := 1, done := 0, image := none }
    | .err e =>
      if e.code = gParam then { gNone gParam with frames := 1 }
      else { code := e.code, off := e.off, unit := u, consumed := e.off, out := outBytes o, frames := 1, done := 0, image := none }

/-- Decompression of Zstandard frames (R132). -/
def zstdCommand (g : GParam) (limit : Nat) (inp dict : List Byte) (cut : Option Nat) : GOut :=
  let have_ := match cut with | some o => inp.take o | none => inp
  let s0 : ZState := { out := { rev := [], n := 0, limit := limit }, p := 0, rest := have_, frames := 0, done := 0 }
  let (s, d) := zRun dict g.dictId (have_.length + 1) s0
  let fail := fun (c : W16) (o : Nat) (fr : Nat) =>
    { code := c, off := o, unit := fr - 1, consumed := o, out := outBytes s.out, frames := fr, done := s.done, image := none : GOut }
  match d with
  | .ok () =>
    (match cut with
     | some o => fail cPoisoned o (s.frames + 1)
     | none => { code := 0, off := 0, unit := 0, consumed := inp.length, out := outBytes s.out, frames := s.frames, done := s.done,
                 image := none })
  | .err e => fail e.code e.off s.frames
  | .need =>
    match gStarved g inp.length cut with
    | some (c, o) => fail c o s.frames
    | none => fail gTruncated inp.length s.frames

/-! ## Compression (05 R143-R146) -/

/-- The elements of a compressed output: input offset of each and output length at its end. -/
def deflateElems (inp : List Byte) : List (List (Nat × Nat)) → Nat → Nat → List (Nat × Nat)
  | [], _, _ => []
  | t :: r, at_, pos =>
    let n := t.foldl (fun a x => a + tokLen x) 0
    let e := pos + (deflateBlock false (pos % 8) ((inp.drop at_).take n) t).length
    (at_, (e + 7) / 8) :: deflateElems inp r (at_ + n) e

/-- Compressed bytes and their elements, of `inp` after `hist` (oldest first). -/
def compressAll (g : GParam) (hist inp : List Byte) (check total : Nat) (frame : Nat) : List Byte × List (Nat × Nat) :=
  let c := gSettings g
  if g.fmt = 4 then
    let out := zstdFrameOut c inp
    (out, [(0, out.length)])
  else if g.fmt = 5 then
    let h := if g.kind = 1 then hist else []
    let out := abfFrameOut c g.kind g.blockLog g.chain frame h inp
    let blocks := (abfBlockTokens c (g.kind = 1) (2 ^ g.blockLog) h inp).map (fun x => abfBlockOut x.1 x.2)
    (out, (blocks.zipIdx).map (fun b => (b.2 * 2 ^ g.blockLog, 32 + (blocks.take (b.2 + 1)).foldl (fun a x => a + x.length) 0)))
  else
    let hdr : List Byte :=
      if g.restore then []
      else if g.fmt = 2 then [0x78#8, 0x9C#8]
      else if g.fmt = 3 then [0x1F#8, 0x8B#8, 8, 0, 0, 0, 0, 0, 0, 255]
      else []
    let trl : List Byte :=
      if !g.fin then []
      else if g.fmt = 2 then (leBytes 4 check).reverse
      else if g.fmt = 3 then leBytes 4 check ++ leBytes 4 total
      else []
    let body := deflateBody c hist inp g.fin
    let cuts := cutTokens (tokensOf c hist inp 32768 258) 0 []
    (hdr ++ body ++ trl, (deflateElems inp cuts 0 0).map (fun p => (p.1, hdr.length + p.2)))

/-- A compression command. -/
def compressCommand (g : GParam) (limit : Nat) (inp : List Byte) (cut : Option Nat) (img : Option GImage) : GOut :=
  let old := (img.map (·.hist)).getD []
  let hist := if g.fmt = 5 then old.drop (old.length - (img.map (·.chainHist)).getD 0) else old
  let tin := (img.map (·.totalIn)).getD 0 + inp.length
  let chk0 := (img.map (·.check)).getD (if g.fmt = 2 then 1 else 0)
  let check := if g.fmt = 2 then adlerFrom chk0 inp
    else if g.fmt = 3 then 0xFFFFFFFF - (crcFrom 0xEDB88320#32 (BitVec.ofNat 32 (0xFFFFFFFF - chk0)) inp).toNat else 0
  let frame := if g.kind = 1 && g.restore then (img.map (·.next)).getD 0 else 0
  match cut with
  | some o =>
    let (out, es) := compressAll { g with fin := false } hist (inp.take o) 0 0 frame
    let keep := ((es.dropLast).getLast?.map (·.2)).getD 0
    { code := cPoisoned, off := o, unit := 0, consumed := o, out := (out.take keep).take limit, frames := 1, done := 0, image := none }
  | none =>
    let (out, es) := compressAll g hist inp check tin frame
    if limit < out.length then
      let off := ((es.find? (fun e => limit < e.2)).map (·.1)).getD inp.length
      { code := gOutFull, off := off, unit := 0, consumed := off, out := out.take limit, frames := 1, done := 0, image := none }
    else
      let hist' := old ++ inp
      let chained := decide (g.fmt = 5) && decide (g.kind = 1)
      { code := 0, off := 0, unit := 0, consumed := inp.length, out := out, frames := 1, done := 1,
        image := if g.save then
            some { fmt := g.fmt, compress := true, totalIn := tin, totalOut := (img.map (·.totalOut)).getD 0 + out.length,
                   check := check, chain := if chained then g.chain else 0, next := if chained then frame + 1 else 0, stage := 0,
                   bfinal := false, bitCnt := 0, bitBuf := 0, left := 0, hlit := 0, hdist := 0, lit := [], dist := [],
                   chainHist := if chained then min (hist.length + inp.length) 0x100000 else 0,
                   hist := hist'.drop (hist'.length - min tin 0x100000) }
          else none }

/-- One Graver command over its input, dictionary and restored image. -/
def gCommand (g : GParam) (limit : Nat) (inp dict : List Byte) (cut : Option Nat) (img : Option GImage) : GOut :=
  if g.compress then compressCommand g limit inp cut img
  else if g.fmt = 4 then zstdCommand g limit inp dict cut
  else if g.fmt = 5 then (if g.count ≠ 0 then abfPick g limit inp cut else abfCommand g limit inp cut img)
  else inflCommand g limit inp dict cut img

/-! ## The command in its descriptor -/

/-- The report of Table 5.3. -/
def gReport (g : GParam) (o : GOut) : List Byte :=
  leBytes 8 o.consumed ++ leBytes 8 o.out.length ++ leBytes 8 (if o.code = 0 then 0xFFFFFFFFFFFFFFFF else o.off)
    ++ leBytes 2 o.code.toNat ++ leBytes 1 g.fmt ++ zeros 1 ++ leBytes 4 o.unit

/-- Two ranges share a byte. -/
def overlap (a n b m : Nat) : Bool := decide (0 < n) && decide (0 < m) && decide (a < b + m) && decide (b < a + n)

/-- Some two of a list of ranges overlap. -/
def anyOverlap : List (Nat × Nat) → Bool
  | [] => false
  | (a, n) :: t => t.any (fun r => overlap a n r.1 r.2) || anyOverlap t

/-- Offset from `a` of the first poisoned codeword or line that the range touches (R578); 0 where it begins before `a`. -/
def firstPoison (s : State) (a n : Nat) : Option Nat :=
  (lineAddrs a n).findSome? (fun l =>
    match placeOf l with
    | .hbm k o => if nmem s.poison (hbmKey k (o / 64 * 64)) then some (l - o % 64 - a) else none
    | .lagoon i o => if nmem s.poison (lagKey i o) then some (l - a) else none
    | _ => none)

/-- The report line of a Graver stage inside a plate (R128), where its AUX area gives one. -/
def auxReport (x : Ctx) : Option Nat :=
  match engineRec x.rs with
  | none => none
  | some e =>
    let r := e.auxLen / 131072
    if r = 0 then none else (areaAddr x e.auxRegion e.auxOff).map (fun b => b + 32 * (x.chan * r + x.seq % r))

/-- The parameters of the stage and the local address of its report line: the descriptor's own block for a bare entry stage,
the GRAVER_PARAMS record otherwise (R125, R128). -/
def graverParams (s : State) (x : Ctx) : Option (GParam × Bool × Option Nat) :=
  match recKind x.rs 2 with
  | some r => some (gParamOf r.body, true, auxReport x)
  | none =>
    if x.j.d.paramLen = 64 then
      let g := gParamOf (readMem s (localOf x.j.d.paramAddr) 64)
      some (g, false, if g.report ≠ 0 && g.report.toNat % 32 = 0 && refOk s x.p x.c x.st g.report 32 2 then some (localOf g.report) else none)
    else none

/-- The address rules of R126: state image, dictionary and report. -/
def gRangesOk (s : State) (x : Ctx) (g : GParam) (inPlate : Bool) (report : Option Nat) : Bool :=
  (!g.restore || refOk s x.p x.c x.st g.state imageBytes 1) && (!g.save || refOk s x.p x.c x.st g.state imageBytes 2)
    && (decide (g.dictLen = 0) || refOk s x.p x.c x.st g.dict g.dictLen 1) && (inPlate || report.isSome)

/-- A finished command's effects: output placed or handed on, report placed, image deferred, counts and code. -/
def graverEnd (x : Ctx) (g : GParam) (report : Option Nat) (o : GOut) (s : State) : State :=
  let place := x.last || g.compress
  let s1 := if place && o.out ≠ [] then placeOut x o.out s else s
  let (s2, bad) := match report with
    | none => (s1, (0 : W16))
    | some a => match engWrite s1 x.p x.c x.st a 32 with
      | 0 => (writeMem a (gReport g o) s1, 0)
      | c => (s1, c)
  let corrupt := ((engineRec x.rs).map (·.corrupt)).getD false
  let code := if o.code ≠ 0 then o.code else bad
  let r0 := { x.run with recsIn := x.run.recsIn + o.frames, recsOut := x.run.recsOut + o.done,
                         lines := if place then ceilDiv o.out.length 32 else x.run.lines,
                         bytes := if place then x.run.bytes else some o.out,
                         eff := x.run.eff ++ (match o.image with
                           | some i => [Eff.bytes (localOf g.state) i.bytes]
                           | none => []) }
  let r1 := if code = 0 then r0 else if corrupt && !g.compress && o.code ≠ 0 then r0 else runFail code r0
  runPut x.num (stageDid x 2 r1) s2

/-- The Graver stage of a descriptor (R126-R129, R577, R578, 17 R424). -/
def graverStage (x : Ctx) (s : State) : State :=
  let d := x.j.d
  match graverParams s x with
  | none => runPut x.num (runFail gParam x.run) s
  | some (g, inPlate, report) =>
    let ia := localOf d.inAddr
    let il := d.inLen.toNat
    let lost (a : Nat) (n : Nat) : Bool := anyLost s a n
    if (g.restore && lost (localOf g.state) imageBytes) || (g.dictLen ≠ 0 && lost (localOf g.dict) g.dictLen) then
      runPut x.num (runLost cInputLost x.run) s
    else if (g.save && lost (localOf g.state) imageBytes) || (report.any (fun a => lost a 32)) then
      runPut x.num (runLost cOutputLost x.run) s
    else if !gParamOk g || !gRangesOk s x g inPlate report then graverEnd x g report (gNone gParam) s
    else
      let memIn := x.run.bytes.isNone
      let main := (if memIn then [(ia, il)] else []) ++ (if x.last || g.compress then [(localOf d.outAddr, d.outLen.toNat)] else [])
        ++ (if g.dictLen ≠ 0 then [(localOf g.dict, g.dictLen)] else [])
        ++ (if g.restore || g.save then [(localOf g.state, imageBytes)] else [])
      let rep := (report.map (fun a => [(a, 32)])).getD []
      if anyOverlap (main ++ rep) then
        let clash := rep.any (fun r => main.any (fun m => overlap r.1 r.2 m.1 m.2))
        graverEnd x g (if clash then none else report) (gNone gOverlap) s
      else
        let acc := inputCode s x
        if acc ≠ 0 && acc ≠ cPoisoned then runPut x.num (runAccess cInputLost acc x.run) s
        else if (g.restore && anyPoison s (localOf g.state) imageBytes) || (g.dictLen ≠ 0 && anyPoison s (localOf g.dict) g.dictLen) then
          graverEnd { x with run := { x.run with met := ((if g.restore then [(localOf g.state, imageBytes)] else [])
              ++ [(localOf g.dict, g.dictLen)]).find? (fun r => anyPoison s r.1 r.2) } } g report (gNone cPoisoned) s
        else
          let ib := if g.restore then readMem s (localOf g.state) imageBytes else []
          if g.restore && !imageOk g ib then graverEnd x g report (gNone gStateImage) s
          else
            let cut := if memIn then firstPoison s ia il else none
            let dict := if g.dictLen ≠ 0 then readMem s (localOf g.dict) g.dictLen else []
            let limit := if x.last || g.compress then d.outLen.toNat else 2 ^ 40
            let o := gCommand g limit (stageInput s x) dict cut (if g.restore then some (imageOf ib) else none)
            graverEnd x g report o s

/-- A save to STATE_ADDR by an earlier descriptor of the channel has not yet committed (R151). -/
def saveAhead (s : State) (x : Ctx) (a : Nat) : Bool :=
  x.ch.journal.any (fun e => decide (e.1 < x.seq) && decide (e.2.state = .accepted)
    && (runGet s (runNum x.chan e.1)).eff.any (fun f => match f with
        | .bytes b _ => decide (b = a)
        | _ => false))

/-- GRAVER_RUN: the Graver stage of a descriptor runs; a restore waits for earlier saves of its channel to commit (R151). -/
def execGraverRun (r : RunRef) (s : State) : Host.Outcome State Fault Refusal :=
  .next (unitRun 2 r.chan.toNat r.seq.toNat (fun x t =>
    match graverParams t x with
    | some (g, _, _) => if g.restore && saveAhead t x (localOf g.state) then t else graverStage x t
    | none => graverStage x t) s)

end Sys2Proof.Machine
end

