-- ==== Sys2Proof/Machine/Cbor.lean ====
section
/-! DEFINITION. CBOR records (06 Table 6.4, R161, R165). -/

namespace Sys2Proof.Machine

/-- A CBOR data item. Floats keep their width and bits; a text string keeps its chunks, each a text string of its own. -/
inductive CVal where
  | int (i : Int)
  | bytes (b : List Byte)
  | text (chunks : List (List Byte))
  | arr (l : List CVal)
  | map (l : List (CVal × CVal))
  | tag (n : Nat) (v : CVal)
  | simple (n : Nat)
  | flt (w : Nat) (bits : Nat)
  | brk
  deriving Repr

/-- The argument of an initial byte: value and rest; nothing for reserved codes. -/
def cArg (info : Nat) (bs : List Byte) : Option (Nat × List Byte) :=
  let big := fun (n : Nat) => if bs.length < n then none else some (leNat (bs.take n).reverse, bs.drop n)
  if info < 24 then some (info, bs)
  else if info = 24 then big 1
  else if info = 25 then big 2
  else if info = 26 then big 4
  else if info = 27 then big 8
  else none

mutual

/-- One data item; `brk` is the break code, which only an indefinite container accepts. -/
def cItem : Nat → List Byte → Option (CVal × List Byte)
  | 0, _ => none
  | _, [] => none
  | f + 1, h :: t =>
    let major := h.toNat / 32
    let info := h.toNat % 32
    if info = 31 then
      match major with
      | 2 => (cChunks f 2 t).map (fun p => (.bytes p.1.flatten, p.2))
      | 3 => (cChunks f 3 t).map (fun p => (.text p.1, p.2))
      | 4 => (cSeq f none t).map (fun p => (.arr p.1, p.2))
      | 5 => (cPairs f none t).map (fun p => (.map p.1, p.2))
      | 7 => some (.brk, t)
      | _ => none
    else
      match cArg info t with
      | none => none
      | some (n, t) =>
        match major with
        | 0 => some (.int n, t)
        | 1 => some (.int (-1 - (n : Int)), t)
        | 2 => if t.length < n then none else some (.bytes (t.take n), t.drop n)
        | 3 => if t.length < n then none else some (.text [t.take n], t.drop n)
        | 4 => (cSeq f (some n) t).map (fun p => (.arr p.1, p.2))
        | 5 => (cPairs f (some n) t).map (fun p => (.map p.1, p.2))
        | 6 =>
          match cItem f t with
          | some (.brk, _) => none
          | some (v, t) => some (.tag n v, t)
          | none => none
        | _ =>
          if info ≤ 23 then some (.simple n, t)
          else if info = 24 then (if n < 32 then none else some (.simple n, t))
          else some (.flt (8 * 2 ^ (info - 24)) n, t)

/-- The chunks of an indefinite string up to the break: definite strings of the same major type. -/
def cChunks : Nat → Nat → List Byte → Option (List (List Byte) × List Byte)
  | 0, _, _ => none
  | _, _, [] => none
  | f + 1, major, h :: t =>
    if h.toNat = 255 then some ([], t)
    else if h.toNat / 32 ≠ major then none
    else match cArg (h.toNat % 32) t with
      | none => none
      | some (n, t) =>
        if t.length < n then none else (cChunks f major (t.drop n)).map (fun p => (t.take n :: p.1, p.2))

/-- The items of an array: `n` of them, or up to the break. -/
def cSeq : Nat → Option Nat → List Byte → Option (List CVal × List Byte)
  | _, some 0, bs => some ([], bs)
  | 0, _, _ => none
  | f + 1, n, bs =>
    match cItem f bs with
    | none => none
    | some (.brk, t) => if n.isNone then some ([], t) else none
    | some (v, t) => (cSeq f (n.map (· - 1)) t).map (fun p => (v :: p.1, p.2))

/-- The pairs of a map. -/
def cPairs : Nat → Option Nat → List Byte → Option (List (CVal × CVal) × List Byte)
  | _, some 0, bs => some ([], bs)
  | 0, _, _ => none
  | f + 1, n, bs =>
    match cItem f bs with
    | none => none
    | some (.brk, t) => if n.isNone then some ([], t) else none
    | some (k, t) =>
      match cItem f t with
      | none => none
      | some (.brk, _) => none
      | some (v, t) => (cPairs f (n.map (· - 1)) t).map (fun p => ((k, v) :: p.1, p.2))

end

/-- A record at the front of `bs`, if it is one well-formed item. -/
def cRecord (bs : List Byte) : Option (CVal × List Byte) :=
  match cItem (2 * bs.length + 2) bs with
  | some (.brk, _) => none
  | r => r

mutual

/-- Levels of nesting, the item itself one; tags count (Table 6.4). -/
def CVal.depth : CVal → Nat
  | .arr l => 1 + depthList l
  | .map l => 1 + depthPairs l
  | .tag _ v => 1 + v.depth
  | _ => 1

def depthList : List CVal → Nat
  | [] => 0
  | v :: t => max v.depth (depthList t)

def depthPairs : List (CVal × CVal) → Nat
  | [] => 0
  | (k, v) :: t => max (max k.depth v.depth) (depthPairs t)

end

/-- The value of a float item. -/
def cFloat (w b : Nat) : Num := if w = 16 then floatVal 8 b else if w = 32 then floatVal 10 b else doubleVal b

/-- Equal numbers, zeros apart by sign, NaNs alike. -/
def cFloatEq (a b : Num) : Bool :=
  match a, b with
  | .nan, .nan => true
  | _, _ => a.eqv b && (a.sign == b.sign)

mutual

/-- Two items are the same data item, however serialised. -/
def CVal.same : CVal → CVal → Bool
  | .int a, .int b => a == b
  | .bytes a, .bytes b => a == b
  | .text a, .text b => a.flatten == b.flatten
  | .arr a, .arr b => sameList a b
  | .map a, .map b => samePairs a b
  | .tag n a, .tag m b => n == m && a.same b
  | .simple a, .simple b => a == b
  | .flt w a, .flt v b => cFloatEq (cFloat w a) (cFloat v b)
  | _, _ => false

def sameList : List CVal → List CVal → Bool
  | [], [] => true
  | a :: s, b :: t => a.same b && sameList s t
  | _, _ => false

def samePairs : List (CVal × CVal) → List (CVal × CVal) → Bool
  | [], [] => true
  | (a, x) :: s, (b, y) :: t => a.same b && x.same y && samePairs s t
  | _, _ => false

end

/-- The content under any tags. -/
def CVal.content : CVal → CVal
  | .tag _ v => v.content
  | v => v

/-- Null or undefined. -/
def CVal.isNull (v : CVal) : Bool :=
  match v.content with
  | .simple n => decide (n = 22) || decide (n = 23)
  | _ => false

/-- Two keys of a map are equal. -/
def dupKey : List (CVal × CVal) → Bool
  | [] => false
  | (k, _) :: t => t.any (fun p => k.same p.1) || dupKey t

/-- A scalar item as a source value; nothing for null and undefined. -/
def cScalar (v : CVal) : Option SVal :=
  match v.content with
  | .int i => some (.int i)
  | .bytes b => some (.bytes b false false)
  | .text cs => some (.bytes cs.flatten false (cs.any (fun c => !utf8Ok (c.length + 1) c)))
  | .flt w b => some (.flt (cFloat w b))
  | .simple 20 => some (.bool false)
  | .simple 21 => some (.bool true)
  | .simple 22 => none
  | .simple 23 => none
  | _ => some .other

/-- The value at the end of a path: an array for a list binding, a scalar otherwise. -/
def cValue (list : Bool) (v : CVal) : BVal :=
  if v.isNull then .null
  else match list, v.content with
    | true, .arr l => .list (l.map cScalar)
    | true, _ => .bad rType
    | false, _ => match cScalar v with
      | some (.other) => .bad rType
      | some x => .one x
      | none => .null

/-- Descent along a path through maps (R165). -/
def cPath (list : Bool) : List (List Byte) → CVal → BVal
  | [], v => cValue list v
  | c :: t, v =>
    match v.content with
    | .map l =>
      if dupKey l then .bad rDuplicate
      else match l.find? (fun p => match p.1.content with | .text b => b.flatten == c | _ => false) with
        | none => .null
        | some p => cPath list t p.2
    | w => if w.isNull then .null else .bad rType

/-- A record's values under a binding set, or the record's own fault (R161); `n` is the item's size. -/
def cborRecord (bs : List Bind) (v : CVal) (n : Nat) : Except W16 (List (Nat × SEnt)) :=
  if 0x1000000 < n then .error rTooLarge
  else if 16 < v.depth then .error rNesting
  else bindAll (bs.map (fun b => (b, cPath (b.shape = 1 || b.shape = 2) b.path v)))

end Sys2Proof.Machine
end

