-- ==== Sys2Proof/Machine/Thrift.lean ====
section
/-! DEFINITION. The Thrift compact protocol, as Parquet footers and page headers use it (06 Table 6.2). -/

namespace Sys2Proof.Machine

/-- A Thrift value; maps and sets of other kinds than lists are read as lists. -/
inductive TVal where
  | bool (b : Bool)
  | int (i : Int)
  | bytes (b : List Byte)
  | list (l : List TVal)
  | struct (fs : List (Nat × TVal))
  deriving Repr

/-- An unsigned LEB128 number of at most `f` bytes. -/
def varint : Nat → List Byte → Option (Nat × List Byte)
  | 0, _ => none
  | _, [] => none
  | f + 1, b :: t =>
    if b.toNat < 128 then some (b.toNat, t)
    else (varint f t).map (fun p => (b.toNat - 128 + 128 * p.1, p.2))

/-- A zigzag number's value. -/
def zigzag (n : Nat) : Int := if n % 2 = 0 then ((n / 2 : Nat) : Int) else -((n / 2 : Nat) : Int) - 1

mutual

/-- A value of a compact type. -/
def tValue : Nat → Nat → List Byte → Option (TVal × List Byte)
  | 0, _, _ => none
  | f + 1, ty, bs =>
    if ty = 1 then some (.bool true, bs)
    else if ty = 2 then some (.bool false, bs)
    else if ty = 3 then (match bs with | b :: t => some (.int (sintOf 8 b.toNat), t) | [] => none)
    else if ty = 4 ∨ ty = 5 ∨ ty = 6 then (varint 10 bs).map (fun p => (.int (zigzag p.1), p.2))
    else if ty = 7 then (if bs.length < 8 then none else some (.bytes (bs.take 8), bs.drop 8))
    else if ty = 8 then
      match varint 10 bs with
      | none => none
      | some (n, t) => if t.length < n then none else some (.bytes (t.take n), t.drop n)
    else if ty = 9 ∨ ty = 10 then
      match bs with
      | [] => none
      | h :: t =>
        let e := h.toNat % 16
        if h.toNat / 16 < 15 then (tList f e (h.toNat / 16) t).map (fun p => (.list p.1, p.2))
        else match varint 10 t with
          | none => none
          | some (n, t) => (tList f e n t).map (fun p => (.list p.1, p.2))
    else if ty = 11 then
      match varint 10 bs with
      | none => none
      | some (0, t) => some (.list [], t)
      | some (n, kv :: t) => (tPairs f (kv.toNat / 16) (kv.toNat % 16) n t).map (fun p => (.list p.1, p.2))
      | some (_, []) => none
    else if ty = 12 then (tFields f 0 bs).map (fun p => (.struct p.1, p.2))
    else none

/-- `n` list elements of a type; booleans take a byte each. -/
def tList : Nat → Nat → Nat → List Byte → Option (List TVal × List Byte)
  | _, _, 0, bs => some ([], bs)
  | 0, _, _, _ => none
  | f + 1, e, n + 1, bs =>
    let head := if e = 1 ∨ e = 2 then (match bs with | b :: t => some (TVal.bool (b = 1), t) | [] => none) else tValue f e bs
    match head with
    | none => none
    | some (v, t) => (tList f e n t).map (fun p => (v :: p.1, p.2))

/-- `n` pairs of a map, as a list of keys and values in turn. -/
def tPairs : Nat → Nat → Nat → Nat → List Byte → Option (List TVal × List Byte)
  | _, _, _, 0, bs => some ([], bs)
  | 0, _, _, _, _ => none
  | f + 1, k, e, n + 1, bs =>
    match tValue f k bs with
    | none => none
    | some (kv, t) =>
      match tValue f e t with
      | none => none
      | some (v, t') => (tPairs f k e n t').map (fun p => (kv :: v :: p.1, p.2))

/-- The fields of a struct up to its stop byte; `last` is the id of the field before. -/
def tFields : Nat → Int → List Byte → Option (List (Nat × TVal) × List Byte)
  | 0, _, _ => none
  | _, _, [] => none
  | f + 1, last, h :: t =>
    if h = 0 then some ([], t)
    else
      let ty := h.toNat % 16
      let idt : Option (Int × List Byte) :=
        if h.toNat / 16 = 0 then (varint 10 t).map (fun p => (zigzag p.1, p.2)) else some (last + (h.toNat / 16 : Nat), t)
      match idt with
      | none => none
      | some (id, t) =>
        match tValue f ty t with
        | none => none
        | some (v, t') => (tFields f id t').map (fun p => ((id.toNat, v) :: p.1, p.2))

end

/-- A struct at the front of `bs`, and what follows it. -/
def tStruct (bs : List Byte) : Option (TVal × List Byte) := tValue (3 * bs.length + 3) 12 bs

/-- Field `k` of a struct. -/
def TVal.field (v : TVal) (k : Nat) : Option TVal :=
  match v with
  | .struct fs => (fs.find? (fun p => p.1 = k)).map (·.2)
  | _ => none

/-- An integer field; `d` where it is absent. -/
def TVal.intField (v : TVal) (k : Nat) (d : Int) : Int :=
  match v.field k with
  | some (.int i) => i
  | _ => d

/-- A list field. -/
def TVal.listField (v : TVal) (k : Nat) : List TVal :=
  match v.field k with
  | some (.list l) => l
  | _ => []

/-- A binary field. -/
def TVal.bytesField (v : TVal) (k : Nat) : List Byte :=
  match v.field k with
  | some (.bytes b) => b
  | _ => []

/-- A value that is an integer. -/
def TVal.asInt (v : TVal) : Int := match v with | .int i => i | _ => -1

end Sys2Proof.Machine
end

