-- ==== Sys2Proof/Machine/Parquet.lean ====
section
/-! DEFINITION. Parquet files (06 Table 6.2, R158-R160, R165). What the Apache Parquet format itself fixes (field numbers of its
Thrift structs, encodings of values and levels) is PRESUMED from that format, which the spec names and does not restate
(notes/assumptions/20.md). -/

namespace Sys2Proof.Machine

/-! ## Schema (R158, R165) -/

/-- A leaf column. `list` is the path of the LIST group whose element it is; `dNull` the definition level of the parent of its
outermost repeated element, `dRep` that of its innermost repeated element. -/
structure PqCol where
  path : List (List Byte)
  list : Option (List (List Byte))
  type : Nat
  len : Nat
  unsigned : Bool
  maxDef : Nat
  maxRep : Nat
  dNull : Nat
  dRep : Nat
  deriving DecidableEq, Repr

/-- What a schema element inherits: path of the group, levels, and the LIST group it may be the element of. -/
structure PqUp where
  path : List (List Byte)
  defn : Nat
  rep : Nat
  dNull : Nat
  dRep : Nat
  list : Option (List (List Byte) × Nat)
  deriving DecidableEq, Repr

/-- The element is annotated LIST. -/
def pqIsList (e : TVal) : Bool :=
  decide (e.intField 6 (-1) = 3) || (match e.field 10 with | some l => (l.field 3).isSome | none => false)

/-- The element is an unsigned integer: INT(…, false), or the converted types it replaced. -/
def pqUnsigned (e : TVal) : Bool :=
  match (e.field 10).bind (·.field 10) with
  | some i => (match i.field 2 with | some (.bool b) => !b | _ => false)
  | none => decide (11 ≤ e.intField 6 (-1)) && decide (e.intField 6 (-1) ≤ 14)

/-- The leaves under the next `n` siblings, in order, and the elements after them. -/
def pqWalk : Nat → Nat → PqUp → List TVal → Option (List PqCol × List TVal)
  | _, 0, _, es => some ([], es)
  | 0, _, _, _ => none
  | _, _, _, [] => none
  | f + 1, n + 1, u, e :: es =>
    let r := e.intField 3 0
    let path := u.path ++ [e.bytesField 4]
    let defn := u.defn + (if r = 0 then 0 else 1)
    let rep := u.rep + (if r = 2 then 1 else 0)
    let dNull := if r = 2 ∧ u.rep = 0 then u.defn else u.dNull
    let dRep := if r = 2 then defn else u.dRep
    let kids := (e.intField 5 0).toNat
    let inList := match u.list with
      | some (p, 1) => if r = 2 then some (p, 2) else none
      | some (p, 2) => some (p, 3)
      | _ => none
    let head : Option (List PqCol × List TVal) :=
      if (e.field 1).isSome then
        some ([{ path := path, list := inList.map (·.1), type := (e.intField 1 0).toNat, len := (e.intField 2 0).toNat,
                 unsigned := pqUnsigned e, maxDef := defn, maxRep := rep, dNull := dNull, dRep := dRep }], es)
      else
        let lst := match inList with
          | some (p, 2) => if kids = 1 then some (p, 2) else none
          | _ => if pqIsList e && kids = 1 then some (path, 1) else none
        pqWalk f kids { path := path, defn := defn, rep := rep, dNull := dNull, dRep := dRep, list := lst } es
    match head with
    | none => none
    | some (cs, es) => (pqWalk f n u es).map (fun p => (cs ++ p.1, p.2))

/-- The leaf columns of a schema, whose first element is the root. -/
def pqColumns (es : List TVal) : Option (List PqCol) :=
  match es with
  | [] => none
  | root :: t =>
    match pqWalk (t.length + 1) (root.intField 5 0).toNat { path := [], defn := 0, rep := 0, dNull := 0, dRep := 0, list := none } t with
    | some (cs, []) => some cs
    | _ => none

/-- A row group: its rows and its column chunks' structs, in column order. -/
structure PqGroup where
  rows : Nat
  chunks : List TVal
  deriving Repr

/-- A footer. -/
structure PqFile where
  meta_ : TVal
  cols : List PqCol
  groups : List PqGroup
  deriving Repr

/-- Bytes of a page or footer limit: 16 MiB. -/
def mib16 : Nat := 0x1000000

/-- R158 step 1: the footer, or the code. -/
def pqFooter (file : List Byte) (count : Nat) : Except W16 PqFile :=
  let n := file.length
  let tail := file.drop (n - 4)
  let flen := u32At (file.drop (n - 8)) 0
  if 12 ≤ n ∧ tail = ascii "PARE" then .error 0x3002
  else if n < 12 ∨ file.take 4 ≠ ascii "PAR1" ∨ tail ≠ ascii "PAR1" ∨ n < flen + 12 ∨ mib16 < flen then .error 0x3001
  else
    match tStruct ((file.drop (n - 8 - flen)).take flen) with
    | none => .error 0x3001
    | some (v, _) =>
      let es := v.listField 2
      let gs := (v.listField 4).map (fun g => ({ rows := (g.intField 3 0).toNat, chunks := g.listField 1 } : PqGroup))
      match pqColumns es with
      | none => .error 0x3001
      | some cs =>
        if 4096 < es.length ∨ v.intField 3 (-1) ≠ (count : Int) ∨ gs.foldl (fun a g => a + g.rows) 0 ≠ count
            ∨ gs.any (fun g => decide (g.chunks.length ≠ cs.length)) then .error 0x3001
        else .ok { meta_ := v, cols := cs, groups := gs }

/-- Table 6.7 allows the column's type for the entry. -/
def pqTypeOk (b : Bind) (c : PqCol) : Bool :=
  let f := b.fmt
  if b.shape = 3 then decide (c.type = 6) || decide (c.type = 7) || decide (c.type = 3)
  else match c.type with
    | 0 => f = 12 || f = 1 || f = 0
    | 1 => [1, 2, 3, 4, 5, 11, 8, 9, 10].contains f
    | 2 => [1, 2, 3, 4, 5, 11, 8, 9, 10].contains f
    | 3 => true
    | 4 => [10, 9, 8, 6, 7].contains f
    | 5 => [10, 9, 8, 6, 7].contains f
    | 7 => f = 0 && c.len ≤ 8
    | _ => false

/-- The column an entry names, with its index; `none` inside is a path that names no column and takes FILL (R165). -/
def pqResolve (cols : List PqCol) (b : Bind) : Option (Option (Nat × PqCol)) :=
  let list := b.shape = 1 || b.shape = 2
  match (cols.zipIdx).find? (fun p => p.1.path = b.path || p.1.list = some b.path) with
  | none => if b.fill then some none else none
  | some (c, i) =>
    if (if list then decide (1 ≤ c.maxRep) else decide (c.maxRep = 0)) && pqTypeOk b c then some (some (i, c)) else none

/-- ColumnMetaData of a chunk. -/
def pqMeta (c : TVal) : TVal := (c.field 3).getD (.struct [])

/-- R158 step 3 for one bound chunk. -/
def pqChunkOk (col : PqCol) (c : TVal) : Bool :=
  let m := pqMeta c
  let codec := m.intField 4 (-1)
  (decide (codec = 0) || decide (codec = 2) || decide (codec = 6))
    && (m.listField 2).all (fun e => [0, 2, 3, 5, 6, 8, 9].contains e.asInt)
    && decide (col.type ≠ 3) && decide (col.type ≤ 7) && decide (col.maxRep ≤ 3) && decide (col.maxDef ≤ 7)

/-- Encryption metadata stands somewhere in the file. -/
def pqEncrypted (f : PqFile) : Bool :=
  (f.meta_.field 8).isSome || (f.meta_.field 9).isSome
    || f.groups.any (fun g => g.chunks.any (fun c => (c.field 8).isSome || (c.field 9).isSome))

/-- R158: the file with the column of each entry, or the code of the first check that fails. -/
def pqOpen (file : List Byte) (count : Nat) (bs : List Bind) : Except W16 (PqFile × List (Bind × Option (Nat × PqCol))) :=
  match pqFooter file count with
  | .error e => .error e
  | .ok f =>
    match bs.mapM (fun b => (pqResolve f.cols b).map (fun c => (b, c))) with
    | none => .error 0x3003
    | some l =>
      if pqEncrypted f || l.any (fun p => match p.2 with
          | none => false
          | some (i, c) => f.groups.any (fun g => !pqChunkOk c (g.chunks.getD i (.struct [])))) then .error 0x3002
      else .ok (f, l)

/-! ## Encodings -/

/-- `n` values of `w` bits, least significant first, from the bits of a byte string. -/
def unpackBits (w n : Nat) (bs : List Byte) : List Nat :=
  let v := leNat bs
  (List.range n).map (fun k => v / 2 ^ (w * k) % 2 ^ w)

/-- `n` values of the RLE and bit-packed hybrid at width `w`; nothing where the bytes run out. -/
def rleHybrid (w : Nat) : Nat → Nat → List Byte → Option (List Nat)
  | _, 0, _ => some []
  | 0, _, _ => none
  | f + 1, n, bs =>
    match varint 5 bs with
    | none => none
    | some (h, t) =>
      if h % 2 = 0 then
        let k := ceilDiv w 8
        let m := min n (h / 2)
        if t.length < k ∨ h = 0 then none
        else (rleHybrid w f (n - m) (t.drop k)).map (fun r => List.replicate m (leNat (t.take k)) ++ r)
      else
        let m := min n (h / 2 * 8)
        if t.length < ceilDiv (m * w) 8 ∨ h = 1 then none
        else (rleHybrid w f (n - m) (t.drop (h / 2 * w))).map (fun r => unpackBits w m t ++ r)

/-- The bit width of levels up to `m`. -/
def levelWidth (m : Nat) : Nat := if m = 0 then 0 else m.log2 + 1

/-- Fixed-width values of PLAIN, taken `k` bytes each. -/
def takeEach (k : Nat) : Nat → List Byte → Option (List (List Byte))
  | 0, _ => some []
  | n + 1, bs => if bs.length < k then none else (takeEach k n (bs.drop k)).map (fun r => bs.take k :: r)

/-- BYTE_ARRAY values of PLAIN. -/
def takeArrays : Nat → List Byte → Option (List (List Byte))
  | 0, _ => some []
  | n + 1, bs =>
    let k := u32At bs 0
    if bs.length < 4 + k then none else (takeArrays n (bs.drop (4 + k))).map (fun r => (bs.drop 4).take k :: r)

/-- Byte strings of given lengths. -/
def takeLens : List Nat → List Byte → Option (List (List Byte))
  | [], _ => some []
  | k :: t, bs => if bs.length < k then none else (takeLens t (bs.drop k)).map (fun r => bs.take k :: r)

/-- Bytes of a fixed-width physical type. -/
def pqWidth (c : PqCol) : Nat :=
  match c.type with
  | 1 => 4
  | 2 => 8
  | 4 => 4
  | 5 => 8
  | 7 => c.len
  | _ => 0

/-- The value of a fixed-width type's bytes. -/
def pqVal (c : PqCol) (b : List Byte) : SVal :=
  match c.type with
  | 1 => .int (if c.unsigned then (leNat b : Int) else sintOf 32 (leNat b))
  | 2 => .int (if c.unsigned then (leNat b : Int) else sintOf 64 (leNat b))
  | 4 => .flt (floatVal 10 (leNat b))
  | 5 => .flt (doubleVal (leNat b))
  | 6 => .bytes b false false
  | 7 => .bytes b true false
  | _ => .other

/-- `n` values of PLAIN. -/
def pqPlain (c : PqCol) (n : Nat) (bs : List Byte) : Option (List SVal) :=
  if c.type = 0 then (if bs.length < ceilDiv n 8 then none else some ((unpackBits 1 n (bs.take (ceilDiv n 8))).map (fun b => .bool (b = 1))))
  else if c.type = 6 then (takeArrays n bs).map (·.map (pqVal c))
  else (takeEach (pqWidth c) n bs).map (·.map (pqVal c))

/-- Miniblocks of one DELTA_BINARY_PACKED block: the values (mod 2^64) that follow `last`, and the rest. -/
def deltaMinis (per : Nat) (minD : Int) : List Nat → Nat → Int → List Byte → Option (List Int × Int × List Byte)
  | [], _, last, bs => some ([], last, bs)
  | w :: ws, n, last, bs =>
    if n = 0 then some ([], last, bs)
    else
      let need := ceilDiv (per * w) 8
      if bs.length < need then none
      else
        let m := min n per
        let ds := unpackBits w m (bs.take need)
        let (vs, lst) := ds.foldl (fun (a : List Int × Int) (d : Nat) => let v := a.2 + minD + (d : Int); (v :: a.1, v)) (([] : List Int), last)
        (deltaMinis per minD ws (n - m) lst (bs.drop need)).map (fun r => (vs.reverse ++ r.1, r.2))

/-- Blocks of DELTA_BINARY_PACKED: `n` further values. -/
def deltaBlocks (minis per : Nat) : Nat → Nat → Int → List Byte → Option (List Int × List Byte)
  | _, 0, _, bs => some ([], bs)
  | 0, _, _, _ => none
  | f + 1, n, last, bs =>
    match varint 10 bs with
    | none => none
    | some (z, t) =>
      if t.length < minis then none
      else
        match deltaMinis per (zigzag z) ((t.take minis).map (·.toNat)) n last (t.drop minis) with
        | none => none
        | some (vs, lst, t') => (deltaBlocks minis per f (n - vs.length) lst t').map (fun r => (vs ++ r.1, r.2))

/-- DELTA_BINARY_PACKED: the values and what follows them. -/
def deltaBinary (bs : List Byte) : Option (List Int × List Byte) :=
  match varint 10 bs with
  | none => none
  | some (block, t) =>
    match varint 10 t with
    | none => none
    | some (minis, t) =>
      match varint 10 t with
      | none => none
      | some (total, t) =>
        match varint 10 t with
        | none => none
        | some (z, t) =>
          if minis = 0 ∨ block % minis ≠ 0 ∨ block / minis % 32 ≠ 0 ∨ block = 0 then none
          else if total = 0 then some ([], t)
          else (deltaBlocks minis (block / minis) (total + 1) (total - 1) (zigzag z) t).map (fun r => (zigzag z :: r.1, r.2))

/-- An integer of the column from its value mod 2^w. -/
def pqInt (c : PqCol) (i : Int) : SVal :=
  let w := if c.type = 1 then 32 else 64
  .int (if c.unsigned then (uintOf w i : Int) else sintOf w (uintOf w i))

/-- BYTE_STREAM_SPLIT: `n` values of `k` bytes from `k` streams. -/
def unsplit (k n : Nat) (bs : List Byte) : Option (List (List Byte)) :=
  if bs.length < k * n then none
  else
    let ss := (List.range k).map (fun j => (bs.drop (j * n)).take n)
    some ((List.range n).map (fun i => ss.map (fun s => s.getD i 0)))

/-- `n` values of a page in a value encoding. -/
def pqValues (c : PqCol) (dict : Option (List SVal)) (v2 : Bool) (enc n : Nat) (bs : List Byte) : Option (List SVal) :=
  match enc with
  | 0 => pqPlain c n bs
  | 5 =>
    if c.type = 1 ∨ c.type = 2 then
      match deltaBinary bs with
      | some (vs, _) => if vs.length = n then some (vs.map (pqInt c)) else none
      | none => none
    else none
  | 6 =>
    if c.type = 6 then
      match deltaBinary bs with
      | some (ls, t) => if ls.length = n ∧ ls.all (fun l => decide (0 ≤ l)) then (takeLens (ls.map Int.toNat) t).map (·.map (pqVal c)) else none
      | none => none
    else none
  | 9 => if c.type = 0 ∨ c.type = 6 then none else (unsplit (pqWidth c) n bs).map (·.map (pqVal c))
  | e =>
    if (e = 2 ∧ !v2) ∨ e = 8 then
      match dict, bs with
      | some d, w :: t =>
        if 32 < w.toNat then none
        else match rleHybrid w.toNat (n + 1) n t with
          | none => none
          | some is => is.mapM (fun i => d[i]?)
      | some _, [] => if n = 0 then some [] else none
      | none, _ => none
    else none

/-! ## Pages (R159) -/

/-- A level entry of a page. -/
structure PqEntry where
  rep : Nat
  defn : Nat
  val : Option SVal
  deriving DecidableEq, Repr

/-- Values put at the entries whose definition level is the maximum. -/
def pqPlace (maxDef : Nat) : List Nat → List Nat → List SVal → List PqEntry
  | r :: rs, d :: ds, vs =>
    if d = maxDef then
      match vs with
      | v :: t => { rep := r, defn := d, val := some v } :: pqPlace maxDef rs ds t
      | [] => []
    else { rep := r, defn := d, val := none } :: pqPlace maxDef rs ds vs
  | _, _, _ => []

/-- A Graver command on a page's bytes: the codec's format, an output of `n` bytes at most. -/
def pqInflate (codec n : Nat) (bs : List Byte) : Except W16 (List Byte) :=
  if codec = 0 then .ok bs
  else if n = 0 ∧ bs = [] then .ok []
  else
    let g := { gParamOf (zeros 64) with fmt := if codec = 2 then 3 else 4, fin := true }
    let o := gCommand g n bs [] none none
    if o.code ≠ 0 then .error o.code else .ok o.out

/-- A page's entries from its level lists and value bytes. -/
def pqEntries (c : PqCol) (dict : Option (List SVal)) (v2 : Bool) (enc n : Nat) (reps defs : List Nat) (vals : List Byte) :
    Option (List PqEntry) :=
  if reps.length ≠ n ∨ defs.length ≠ n ∨ reps.any (fun r => decide (c.maxRep < r)) ∨ defs.any (fun d => decide (c.maxDef < d)) then none
  else (pqValues c dict v2 enc (defs.filter (fun d => decide (d = c.maxDef))).length vals).map (pqPlace c.maxDef reps defs)

/-- Levels of a v1 page: a u32 length before the hybrid, where the column has such levels. -/
def pqLevels1 (m n : Nat) (bs : List Byte) : Option (List Nat × List Byte) :=
  if m = 0 then some (List.replicate n 0, bs)
  else
    let k := u32At bs 0
    if bs.length < 4 + k then none
    else (rleHybrid (levelWidth m) (n + 1) n ((bs.drop 4).take k)).map (fun l => (l, bs.drop (4 + k)))

/-- Levels of a v2 page of a given byte length. -/
def pqLevels2 (m n : Nat) (bs : List Byte) : Option (List Nat) :=
  if m = 0 then some (List.replicate n 0) else rleHybrid (levelWidth m) (n + 1) n bs

/-- How a page failed: its reason, and the Graver's code where that failed. -/
structure PqFault where
  reason : W16
  code : W16
  deriving DecidableEq, Repr

/-- A faulty page. -/
def pqBad : PqFault := { reason := rParquet, code := 0 }

/-- What a page must have; PARQUET_MALFORMED where it has not. -/
def pqNeed {α : Type} (o : Option α) : Except PqFault α :=
  match o with
  | none => .error pqBad
  | some v => .ok v

/-- Stored bytes of a page after its CRC check. -/
def pqStored (h : TVal) (bs : List Byte) : Except PqFault (List Byte) :=
  let k := (h.intField 3 0).toNat
  if h.intField 3 (-1) < 0 ∨ h.intField 2 (-1) < 0 ∨ mib16 < k ∨ mib16 < (h.intField 2 0).toNat ∨ bs.length < k then .error pqBad
  else
    let b := bs.take k
    match h.field 4 with
    | some (.int i) => if uintOf 32 i = (crc32 b).toNat then .ok b else .error { reason := rPageCrc, code := 0 }
    | _ => .ok b

/-- The encoding is one that the chunk's metadata lists. -/
def pqListed (m : TVal) (enc : Int) : Bool := (m.listField 2).any (fun e => decide (e.asInt = enc))

/-- A data page's entries (R159). -/
def pqPage (c : PqCol) (m h : TVal) (dict : Option (List SVal)) (bs : List Byte) : Except PqFault (List PqEntry) :=
  match pqStored h bs with
  | .error e => .error e
  | .ok b =>
    let codec := (m.intField 4 0).toNat
    let size := (h.intField 2 0).toNat
    let inflate := fun (n : Nat) (x : List Byte) => match pqInflate codec n x with
      | .error e => (.error { reason := rDecompress, code := e } : Except PqFault (List Byte))
      | .ok o => if codec ≠ 0 ∧ o.length ≠ n then .error { reason := rDecompress, code := 0 } else .ok o
    if h.intField 1 (-1) = 0 then
      let d := (h.field 5).getD (.struct [])
      let n := (d.intField 1 0).toNat
      let enc := d.intField 2 (-1)
      if d.intField 1 (-1) < 0 ∨ !pqListed m enc ∨ (c.maxDef ≠ 0 ∧ d.intField 3 (-1) ≠ 3) ∨ (c.maxRep ≠ 0 ∧ d.intField 4 (-1) ≠ 3) then .error pqBad
      else do
        let x ← inflate size b
        let (reps, x) ← pqNeed (pqLevels1 c.maxRep n x)
        let (defs, x) ← pqNeed (pqLevels1 c.maxDef n x)
        pqNeed (pqEntries c dict false enc.toNat n reps defs x)
    else
      let d := (h.field 8).getD (.struct [])
      let n := (d.intField 1 0).toNat
      let enc := d.intField 4 (-1)
      let dl := (d.intField 5 0).toNat
      let rl := (d.intField 6 0).toNat
      let packed := match d.field 7 with | some (.bool z) => z | _ => true
      if d.intField 1 (-1) < 0 ∨ d.intField 5 (-1) < 0 ∨ d.intField 6 (-1) < 0 ∨ !pqListed m enc ∨ b.length < rl + dl then .error pqBad
      else do
        let x ← if packed then inflate (size - rl - dl) (b.drop (rl + dl)) else .ok (b.drop (rl + dl))
        let reps ← pqNeed (pqLevels2 c.maxRep n (b.take rl))
        let defs ← pqNeed (pqLevels2 c.maxDef n ((b.drop rl).take dl))
        let es ← pqNeed (pqEntries c dict true enc.toNat n reps defs x)
        let rows := (es.filter (fun e => decide (e.rep = 0))).length
        let nulls := (es.filter (fun e => decide (e.defn ≠ c.maxDef))).length
        if (rows : Int) ≠ d.intField 3 (-1) ∨ (nulls : Int) ≠ d.intField 2 (-1) then .error pqBad else .ok es

/-- The dictionary of a dictionary page. -/
def pqDict (c : PqCol) (m h : TVal) (bs : List Byte) : Except PqFault (List SVal) :=
  match pqStored h bs with
  | .error e => .error e
  | .ok b =>
    let d := (h.field 7).getD (.struct [])
    let enc := d.intField 2 (-1)
    let codec := (m.intField 4 0).toNat
    let size := (h.intField 2 0).toNat
    if d.intField 1 (-1) < 0 ∨ !pqListed m enc ∨ (enc ≠ 0 ∧ enc ≠ 2) then .error pqBad
    else match pqInflate codec size b with
      | .error e => .error { reason := rDecompress, code := e }
      | .ok x =>
        if codec ≠ 0 ∧ x.length ≠ size then .error { reason := rDecompress, code := 0 }
        else match pqPlain c (d.intField 1 0).toNat x with
          | none => .error pqBad
          | some l => .ok l

/-! ## Column chunks -/

/-- A row of a chunk: its entries, or the reason that covers it. -/
inductive PqRow where
  | good (es : List PqEntry)
  | bad (r : W16)
  deriving DecidableEq, Repr

/-- A chunk as it is decoded: its rows, last first, its dictionary, page CRC failures, the first Graver code. -/
structure PqChunk where
  rows : List PqRow
  n : Nat
  dict : Option (List SVal)
  crcs : Nat
  graver : W16
  deriving DecidableEq, Repr

/-- Entries joined to the rows: one of repetition level 0 begins a row, another continues the last. -/
def pqJoin : List PqEntry → PqChunk → PqChunk
  | [], k => k
  | e :: t, k =>
    if e.rep = 0 then pqJoin t { k with rows := .good [e] :: k.rows, n := k.n + 1 }
    else match k.rows with
      | .good es :: r => pqJoin t { k with rows := .good (es ++ [e]) :: r }
      | _ => pqJoin t k

/-- `m` rows of a reason. -/
def pqSpoil (m : Nat) (r : W16) (k : PqChunk) : PqChunk := { k with rows := List.replicate m (.bad r) ++ k.rows, n := k.n + m }

/-- A page's fault counted. -/
def pqNote (e : PqFault) (k : PqChunk) : PqChunk :=
  { k with crcs := k.crcs + (if e.reason = rPageCrc then 1 else 0),
           graver := if k.graver = 0 ∧ e.reason = rDecompress then (if e.code = 0 then gTruncated else e.code) else k.graver }

/-- The rows that every row of a group takes from a faulty dictionary page. -/
def pqAllBad (rows : Nat) (r : W16) (k : PqChunk) : PqChunk :=
  let old := k.rows.map (fun x => match x with | .bad q => PqRow.bad q | .good _ => .bad r)
  { k with rows := List.replicate (rows - k.n) (.bad r) ++ old, n := max rows k.n }

/-- The pages of a chunk in file order (R159, Table 6.3). -/
def pqPages (c : PqCol) (m : TVal) (rows : Nat) : Nat → List Byte → PqChunk → PqChunk
  | 0, _, k => k
  | _, [], k => k
  | f + 1, bs, k =>
    match tStruct bs with
    | none => k
    | some (h, body) =>
      let next := body.drop (h.intField 3 0).toNat
      if h.intField 3 (-1) < 0 then k
      else
        match h.intField 1 (-1) with
        | 1 => pqPages c m rows f next k
        | 2 =>
          match pqDict c m h body with
          | .error e => pqAllBad rows e.reason (pqNote e k)
          | .ok d => pqPages c m rows f next { k with dict := some d }
        | t =>
          if t ≠ 0 ∧ t ≠ 3 then k
          else
            match pqPage c m h k.dict body with
            | .ok es =>
              let first := match es with | e :: _ => decide (e.rep ≠ 0) && (decide (t = 3) || decide (k.n = 0)) | [] => false
              if first then
                (if t = 3 then pqPages c m rows f next (pqSpoil (((h.field 8).getD (.struct [])).intField 3 0).toNat rParquet k)
                 else pqSpoil (rows - k.n) rParquet k)
              else pqPages c m rows f next (pqJoin es k)
            | .error e =>
              let k := pqNote e k
              if t = 3 then pqPages c m rows f next (pqSpoil (((h.field 8).getD (.struct [])).intField 3 0).toNat e.reason k)
              else if c.maxRep = 0 then
                pqPages c m rows f next (pqSpoil (((h.field 5).getD (.struct [])).intField 1 0).toNat e.reason k)
              else pqSpoil (rows - k.n) e.reason k

/-- A bound column chunk: exactly the row group's rows, in order. -/
def pqChunkRows (file : List Byte) (c : PqCol) (rows : Nat) (chunk : TVal) : PqChunk :=
  let m := pqMeta chunk
  let data := (m.intField 9 0).toNat
  let start := if 0 < m.intField 11 0 ∧ (m.intField 11 0).toNat < data then (m.intField 11 0).toNat else data
  let bs := (file.drop start).take (m.intField 7 0).toNat
  let k := pqPages c m rows (bs.length + 1) bs { rows := [], n := 0, dict := none, crcs := 0, graver := 0 }
  if k.n < rows then { (pqSpoil (rows - k.n) rParquet k) with rows := (pqSpoil (rows - k.n) rParquet k).rows.reverse }
  else if rows < k.n then { pqAllBad rows rParquet k with rows := ((pqAllBad rows rParquet k).rows.reverse).take rows }
  else { k with rows := k.rows.reverse }

/-- What an entry's path reaches in a row (R166). -/
def pqBound (b : Bind) (c : PqCol) (r : PqRow) : BVal :=
  match r with
  | .bad q => .bad q
  | .good es =>
    if b.shape = 1 || b.shape = 2 then
      match es with
      | [e] => if e.defn < c.dNull then .null else if e.defn < c.dRep then .list [] else .list [e.val]
      | _ => .list ((es.filter (fun e => decide (c.dRep ≤ e.defn))).map (·.val))
    else match es with
      | e :: _ => (match e.val with | some v => .one v | none => .null)
      | [] => .null

/-- A file's values of one entry over all its rows, its page CRC failures and the first Graver code. -/
def pqColumn (file : List Byte) (f : PqFile) (b : Bind) (col : Option (Nat × PqCol)) : List BVal × Nat × W16 :=
  match col with
  | none => (List.replicate (f.groups.foldl (fun a g => a + g.rows) 0) .null, 0, 0)
  | some (i, c) =>
    f.groups.foldl (fun acc g =>
      let k := pqChunkRows file c g.rows (g.chunks.getD i (.struct []))
      (acc.1 ++ k.rows.map (pqBound b c), acc.2.1 + k.crcs, if acc.2.2 = 0 then k.graver else acc.2.2)) ([], 0, 0)

/-- Entry-major columns turned into rows of (entry, value). -/
def pqRecords : Nat → List (Bind × List BVal) → List (List (Bind × BVal))
  | 0, _ => []
  | n + 1, cs => cs.map (fun p => (p.1, p.2.headD .null)) :: pqRecords n (cs.map (fun p => (p.1, p.2.tail)))

end Sys2Proof.Machine
end

