-- ==== Sys2Proof/Machine/Records.lean ====
section
/-! DEFINITION. RECORD_DECODE and RECORD_DEADLINE: decoder sections, CBOR sequences, ARS files, Parquet files (06 R155-R163,
R171, R174, R177). -/

namespace Sys2Proof.Machine

/-- The outcome of one record: a reason, or its stream entries. -/
abbrev RecOut := Except W16 (List (Nat × SEnt))

/-- `n` records of one reason. -/
def lostRecs (n : Nat) (r : W16) : List RecOut := List.replicate n (.error r)

/-- What a decoder found: records in order, input bytes taken, ARS searches, page CRC failures. -/
structure DecOut where
  recs : List RecOut
  taken : Nat
  resync : Nat
  crcs : Nat

/-! ## CBOR sequences (R162) -/

/-- `n` records of a CBOR sequence; `p` bytes have been taken. -/
def cborSeq (bs : List Bind) : Nat → Nat → List Byte → List RecOut × Nat
  | 0, p, _ => ([], p)
  | n + 1, p, [] => (lostRecs (n + 1) rFrameLost, p)
  | n + 1, p, inp =>
    match cRecord inp with
    | none => (.error rCbor :: lostRecs n rFrameLost, p + inp.length)
    | some (v, rest) =>
      let size := inp.length - rest.length
      let (rs, q) := cborSeq bs n (p + size) rest
      (cborRecord bs v size :: rs, q)

/-! ## ARS files (R163) -/

/-- LEN and REC_LO of a frame header that passes step 1. -/
def arsHeader (inp : List Byte) : Option (Nat × Nat) :=
  if 16 ≤ inp.length ∧ u16At inp 0 = 0x5241 ∧ u8At inp 2 = 1 ∧ u8At inp 3 = 0 ∧ 1 ≤ u32At inp 4 ∧ u32At inp 4 ≤ mib16
      ∧ u16At inp 14 = (crc32c (inp.take 14)).toNat % 65536 then some (u32At inp 4, u16At inp 12)
  else none

/-- The first offset, in steps of 8 bytes, whose header passes step 1. -/
def arsSearch : Nat → Nat → List Byte → Option (Nat × Nat × List Byte)
  | 0, _, _ => none
  | f + 1, p, inp =>
    if inp.length < 16 then none
    else match arsHeader inp with
      | some (_, x) => some (p, x, inp)
      | none => arsSearch f (p + 8) (inp.drop 8)

/-- The record of a frame's payload (step 4). -/
def arsRecord (bs : List Bind) (pl : List Byte) : RecOut :=
  match cRecord pl with
  | some (v, []) => cborRecord bs v pl.length
  | _ => .error rCbor

/-- `n` records from the expected boundary at offset `p`; `idx` is the sample index expected there. -/
def arsFrames (bs : List Bind) : Nat → Nat → Nat → Nat → List Byte → DecOut
  | 0, n, _, p, _ => { recs := lostRecs n rFrameLost, taken := p, resync := 0, crcs := 0 }
  | _, 0, _, p, _ => { recs := [], taken := p, resync := 0, crcs := 0 }
  | f + 1, n + 1, idx, p, inp =>
    let end_ := p + inp.length
    let frame := match arsHeader inp with
      | some (len, x) => if x = idx % 65536 then some len else none
      | none => none
    match frame with
    | none =>
      (match arsSearch (inp.length / 8 + 1) p inp with
       | none => { recs := lostRecs (n + 1) rFrameLost, taken := end_, resync := 1, crcs := 0 }
       | some (q, x, rest) =>
         let d := (x + 65536 - idx % 65536) % 65536
         if n + 1 ≤ d then { recs := lostRecs (n + 1) rFrameLost, taken := q, resync := 1, crcs := 0 }
         else
           let o := arsFrames bs f (n + 1 - d) (idx + d) q rest
           { o with recs := lostRecs d rFrameLost ++ o.recs, resync := o.resync + 1 })
    | some len =>
      let size := 16 + roundUp len 8
      if inp.length < size then { recs := lostRecs (n + 1) rFrameLost, taken := end_, resync := 0, crcs := 0 }
      else
        let pl := (inp.drop 16).take len
        let r : RecOut := if (crc32c pl).toNat = u32At inp 8 then arsRecord bs pl else .error rFrameCrc
        let o := arsFrames bs f n (idx + 1) (p + size) (inp.drop size)
        { o with recs := r :: o.recs }

/-! ## The stage -/

/-- The decoder section (Table 6.1). -/
structure DecSec where
  fmt : Nat
  set : Nat
  count : Nat
  first : Nat
  deriving DecidableEq, Repr

/-- The section's fields. -/
def decSecOf (b : List Byte) : DecSec := { fmt := u8At b 0, set := u8At b 1, count := u32At b 4, first := u64At b 8 }

/-- FIRST_INDEX and RECORD_COUNT are in range (R157). -/
def DecSec.ranged (d : DecSec) : Bool := decide (1 ≤ d.count) && decide (d.first + d.count ≤ 2 ^ 64 - 1)

/-- The section keeps Table 6.1. -/
def decSecOk (b : List Byte) : Bool :=
  let d := decSecOf b
  d.ranged && decide (1 ≤ d.fmt) && decide (d.fmt ≤ 3) && decide (d.set ≤ 15) && zeroAt b 2 2 && zeroAt b 16 16

/-- The entries of a binding set, if it is defined and every entry keeps Table 6.6. -/
def bindingSet (rs : List PRec) (set : Nat) : Option (List Bind) :=
  let area := ((rs.find? (fun r => r.kind = 4 && r.index = set)).map (·.body)).getD []
  match (recKinds rs 3).filter (fun r => r.index / 256 = set) with
  | [] => none
  | es => es.mapM (fun r => bindOf r.body area)

/-- A record of the stage from its outcome. -/
def decRec (idx : Nat) (o : RecOut) : DRec :=
  match o with
  | .error r => { idx := idx, reason := r, streams := [] }
  | .ok es => es.foldl (fun d e => setStream e.1 e.2 d) { idx := idx, reason := 0, streams := [] }

/-- Records numbered from `idx`; those abandoned by the deadline leave with DEADLINE_PASSED (R174). -/
def decRecs (ab : NSet) : Nat → List RecOut → List DRec
  | _, [] => []
  | idx, o :: t => (if nmem ab idx then { idx := idx, reason := rDeadline, streams := [] } else decRec idx o) :: decRecs ab (idx + 1) t

/-- The stage ends with its records: counts (R171), counters (R177). -/
def decEnd (x : Ctx) (recs : List DRec) (r : Run) (s : State) : State :=
  let ok := (recs.filter sound).length
  let late := (recs.filter (fun d => decide (d.reason = rDeadline))).length
  let bad := recs.length - ok - late
  let r1 := { r with recs := recs, recsIn := recs.length, recsOut := ok, replaced := bad + late }
  bumpReef x 11 recs.length (bumpReef x 12 ok (bumpReef x 13 bad (bumpReef x 14 late (runPut x.num (stageDid x 3 r1) s))))

/-- The input fails as a whole: every sample FILE_FAILED, later stages still run (R157, R158). -/
def decFileFailed (x : Ctx) (d : DecSec) (code : W16) (s : State) : State :=
  let n := if d.ranged then d.count else 0
  bumpReef x 17 1 (decEnd x (decRecs x.run.abandoned d.first (lostRecs n rFileFailed)) (runCode code x.run) s)

/-- A Graver error on a page ends the descriptor: every Graver engine of the stage lacks PAGE_CORRUPT (05 R128). -/
def pageErrorEnds (x : Ctx) : Bool :=
  let gs := ((x.rs.filter (fun r => r.kind = 1)).map engineOf).filter (fun e => decide (e.unit ≤ 1))
  !gs.isEmpty && gs.all (fun e => !e.corrupt)

/-- A Parquet input: records, page CRC failures and the first Graver error, or the file's code. -/
def pqDecode (file : List Byte) (count : Nat) (bs : List Bind) : Except W16 (List RecOut × Nat × W16) :=
  match pqOpen file count bs with
  | .error e => .error e
  | .ok (f, l) =>
    let cols := l.map (fun p => (p.1, pqColumn file f p.1 p.2))
    .ok ((pqRecords count (cols.map (fun p => (p.1, p.2.1)))).map bindAll, cols.foldl (fun a p => a + p.2.2.1) 0,
      firstCode (cols.map (fun p => p.2.2.2)))

/-- The record decoder's stage of a descriptor. -/
def decodeStage (x : Ctx) (s : State) : State :=
  let b := paramSection s x 1 32
  let d := decSecOf b
  match (if decSecOk b then bindingSet x.rs d.set else none) with
  | none => decFileFailed x d 0x3004 s
  | some bs =>
    let acc := inputCode s x
    if acc ≠ 0 then runPut x.num (runAccess cInputLost acc x.run) s
    else
      let inp := stageInput s x
      let fin := fun (o : DecOut) =>
        bumpReef x 10 o.taken (bumpReef x 16 o.resync (bumpReef x 15 o.crcs
          (decEnd x (decRecs x.run.abandoned d.first o.recs) x.run s)))
      if d.fmt = 2 then
        let (rs, p) := cborSeq bs d.count 0 inp
        fin { recs := rs, taken := p, resync := 0, crcs := 0 }
      else if d.fmt = 3 then fin (arsFrames bs (inp.length + d.count + 1) d.count d.first 0 inp)
      else
        match pqDecode inp d.count bs with
        | .error e => bumpReef x 10 inp.length (decFileFailed x d e s)
        | .ok (rs, crcs, g) =>
          if g ≠ 0 && pageErrorEnds x then runPut x.num (runFail g x.run) s
          else fin { recs := rs, taken := inp.length, resync := 0, crcs := crcs }

/-- RECORD_DECODE. -/
def execRecordDecode (r : RunRef) (s : State) : Host.Outcome State Fault Refusal :=
  .next (unitRun 3 r.chan.toNat r.seq.toNat decodeStage s)

/-- RECORD_DEADLINE: a record of a descriptor in deadline-replace mode that its decoder has not yet emitted is abandoned
(R174). -/
def execRecordDeadline (r : RunRef) (sample : W64) (s : State) : Host.Outcome State Fault Refusal :=
  .next (match ctxOf s r.chan.toNat r.seq.toNat with
    | none => s
    | some x =>
      let d := decSecOf (paramSection s x 1 32)
      if (stageKinds x.rs).contains 3 && !nmem x.run.did 3 && decide (x.j.deadline ≠ 0) && decide (d.first ≤ sample.toNat)
          && decide (sample.toNat < d.first + d.count) then
        runPut x.num { x.run with abandoned := nadd x.run.abandoned sample.toNat } s
      else s)

end Sys2Proof.Machine
end

