-- ==== Sys2Proof/Machine/Select.lean ====
section
/-! DEFINITION. TOPK, SORT and MERGE (11). -/

namespace Sys2Proof.Machine

/-! ## Parameters (R266, R267) -/

/-- A select parameter block (Table 11.1). -/
structure SelOp where
  op : Nat
  fmt : Nat
  asc : Bool
  expl : Bool
  dedup : Bool
  k : Nat
  elem : Nat
  key : Nat
  rows : Nat
  rowLen : Nat
  stride : Nat
  aux : W64
  ok : Bool
  deriving DecidableEq, Repr

/-- Bytes of a value of a top-k format. -/
def selWidth (fmt : Nat) : Nat := if fmt = 8 ∨ fmt = 9 then 2 else 4

/-- KEY_BYTES of a format. -/
def keyBytesOk (fmt n : Nat) : Bool :=
  match fmt with
  | 1 => n = 4 || n = 8 || n = 16
  | 2 => n = 4 || n = 8
  | 5 => n = 4
  | 10 => n = 4
  | 8 => n = 2
  | 9 => n = 2
  | _ => false

/-- The block of 64 bytes; `ok` tells that its fields but K keep Table 11.1. -/
def selOf (b : List Byte) : SelOp :=
  let op := u8At b 0
  let fmt := u8At b 1
  let fl := u8At b 3
  let k := u8At b 4
  let el := u8At b 5
  let kb := u8At b 6
  let rows := u32At b 8
  let rl := u32At b 12
  let st := u64At b 16
  let aux := u64At b 24
  let top := decide (op = 1)
  { op := op, fmt := fmt, asc := decide (u8At b 2 = 1), expl := bit fl 0, dedup := bit fl 1, k := k, elem := el, key := kb,
    rows := rows, rowLen := rl, stride := st, aux := BitVec.ofNat 64 aux,
    ok := decide (1 ≤ op) && decide (op ≤ 3) && decide (u8At b 2 ≤ 1) && zeroAt b 7 1 && zeroAt b 32 32
      && (if top then [1, 5, 8, 9, 10].contains fmt && decide (fl < 4) && decide (fl ≠ 2) && decide (el = 0) && decide (kb = 0)
            && decide (1 ≤ rows) && decide (rows ≤ 2 ^ 20) && decide (1 ≤ rl) && decide (rl ≤ 2 ^ 32 - 2)
            && decide (st % selWidth fmt = 0) && decide (rl * selWidth fmt ≤ st) && (bit fl 0 || decide (aux = 0))
          else [1, 2, 5, 8, 9, 10].contains fmt && decide (fl = 0) && decide (k = 0) && (el = 8 || el = 16 || el = 32)
            && keyBytesOk fmt kb && decide (kb + 4 ≤ el) && decide (st = 0)
            && (if op = 2 then decide (1 ≤ rows) && decide (rows ≤ 2 ^ 20) && decide (1 ≤ rl) && decide (rl ≤ 4096) && decide (aux = 0)
                else decide (2 ≤ rows) && decide (rows ≤ 64) && decide (rl = 0))) }

/-- The block of a stage: its SELECT record, or the descriptor's parameter block of 64 bytes. -/
def selParams (s : State) (x : Ctx) : Option SelOp :=
  match recKind x.rs 14 with
  | some r => some (selOf r.body)
  | none => if x.j.d.paramLen = 64 then some (selOf (readMem s (localOf x.j.d.paramAddr) 64)) else none

/-- Bytes of a top-k result (R268). -/
def resultBytes (k : Nat) : Nat := 32 + 32 * ceilDiv (8 * k) 32

/-- Bytes of the AUX range. -/
def selAuxLen (e : SelOp) : Nat := if e.op = 3 then 4 * e.rows else if e.op = 1 ∧ e.expl then 4 * (e.rows * e.rowLen) else 0

/-- The run lengths of a MERGE. -/
def runTable (s : State) (e : SelOp) : List Nat := (List.range e.rows).map (fun i => leNat (readMem s (localOf e.aux + 4 * i) 4))

/-- Bytes that an operation reads: exactly, for SORT and MERGE. -/
def selInLen (s : State) (e : SelOp) : Nat :=
  if e.op = 1 then (e.rows - 1) * e.stride + e.rowLen * selWidth e.fmt
  else if e.op = 2 then e.rows * e.rowLen * e.elem
  else ((runTable s e).foldl (· + ·) 0) * e.elem

/-- Bytes that it writes. -/
def selOutLen (s : State) (e : SelOp) : Nat := if e.op = 1 then e.rows * resultBytes e.k else selInLen s e

/-- The code of R267; success where the operation may run. -/
def selCheck (s : State) (x : Ctx) (e : SelOp) (inLen : Nat) : W16 :=
  let d := x.j.d
  let need := selAuxLen e
  if e.op = 1 ∧ (e.k = 0 ∨ 64 < e.k) then 0x8002
  else if !e.ok then 0x8001
  else if need ≠ 0 && !refOk s x.p x.c x.st e.aux need 1 then 0x8001
  else if (if e.op = 1 then decide (inLen < selInLen s e) else decide (inLen ≠ selInLen s e)) then 0x8001
  else if d.outLen.toNat < selOutLen s e then 0x8001
  else
    let share := fun (a n b m : Nat) => decide (0 < n) && decide (0 < m) && decide (a < b + m) && decide (b < a + n)
    let oa := localOf d.outAddr
    let on := d.outLen.toNat
    if (x.run.bytes.isNone && share oa on (localOf d.inAddr) d.inLen.toNat) || share oa on (localOf e.aux) need then 0x8004
    else cOk

/-! ## Rank (R263-R265) -/

/-- The value of a key's bits. -/
def selVal (fmt bytes v : Nat) : Num :=
  if fmt = 1 then .fin false v 1
  else if fmt = 2 ∨ fmt = 5 then ofInt (sintOf (8 * bytes) v)
  else floatVal fmt v

/-- An element of a row: value bits, value, index, position. -/
structure Elt where
  bits : Nat
  val : Num
  idx : Nat
  pos : Nat
  deriving DecidableEq, Repr

/-- `a` ranks higher than `b` by value. -/
def valHigher (asc : Bool) (a b : Num) : Bool := if asc then a.lt b else b.lt a

/-- `a` ranks higher than `b` (R265); `class0` selects the tie rule. -/
def higher (asc class0 : Bool) (a b : Elt) : Bool :=
  if valHigher asc a.val b.val then true
  else if valHigher asc b.val a.val then false
  else if class0 then decide (a.idx < b.idx) else decide (a.pos < b.pos)

/-! ## Top-k (R264, R268-R273) -/

/-- A list of candidates in rank order with its counts (R272). -/
structure Partial where
  cands : List Elt
  ties : Nat
  nan : Nat
  dup : Nat
  invalid : Nat
  conflict : Bool
  deriving DecidableEq, Repr

/-- No candidates. -/
def Partial.init : Partial := { cands := [], ties := 0, nan := 0, dup := 0, invalid := 0, conflict := false }

/-- A candidate put in its rank. -/
def insCand (asc c0 : Bool) (e : Elt) : List Elt → List Elt
  | [] => [e]
  | c :: t => if higher asc c0 e c then e :: c :: t else c :: insCand asc c0 e t

/-- `k` candidates of a ranked list kept: the ties count the dropped ones equal in value to the last kept. -/
def keepK (k : Nat) (l : List Elt) (before : Option Num) (ties : Nat) : List Elt × Nat :=
  let kept := l.take k
  match kept.getLast? with
  | none => (kept, ties)
  | some z =>
    let old := if before = some z.val || (match before with | some v => v.eqv z.val | none => false) then ties else 0
    (kept, old + ((l.drop k).filter (fun e => e.val.eqv z.val)).length)

/-- The value of the last candidate of a full list. -/
def lastVal (k : Nat) (l : List Elt) : Option Num := if l.length < k then none else (l.getLast?).map (·.val)

/-- A valid element meets the candidates (R270, R271). -/
def offer (asc c0 dedup : Bool) (k : Nat) (p : Partial) (e : Elt) : Partial :=
  match (if dedup then p.cands.find? (fun c => c.idx = e.idx) else none) with
  | some c =>
    let p1 := { p with dup := p.dup + 1, conflict := p.conflict || !(c.val.eqv e.val) }
    if higher asc c0 e c then
      let (l, t) := keepK k (insCand asc c0 e (p.cands.filter (fun d => d.idx ≠ e.idx))) (lastVal k p.cands) p.ties
      { p1 with cands := l, ties := t }
    else p1
  | none =>
    let (l, t) := keepK k (insCand asc c0 e p.cands) (lastVal k p.cands) p.ties
    { p with cands := l, ties := t }

/-- An element of a row, excluded or offered (R264). -/
def topElem (asc c0 dedup expl : Bool) (k : Nat) (p : Partial) (e : Elt) : Partial :=
  if e.val = .nan then { p with nan := p.nan + 1 }
  else if expl && decide (e.idx = 0xFFFFFFFF) then { p with invalid := p.invalid + 1 }
  else offer asc c0 dedup k p e

/-- A node of the merge tree (R273). -/
def mergeNode (asc c0 dedup : Bool) (k : Nat) (ps : List Partial) : Partial :=
  let q := (ps.flatMap (·.cands)).foldl (offer asc c0 dedup k) Partial.init
  let last := lastVal k q.cands
  let more := ps.foldl (fun n p => n + (match last, lastVal k p.cands with
    | some v, some w => if v.eqv w then p.ties else 0
    | _, _ => 0)) 0
  { q with ties := q.ties + more, nan := ps.foldl (fun n p => n + p.nan) 0, invalid := ps.foldl (fun n p => n + p.invalid) 0,
           dup := q.dup + ps.foldl (fun n p => n + p.dup) 0, conflict := q.conflict || ps.any (·.conflict) }

/-- A list cut into groups of 16. -/
def groups16 {α : Type} : Nat → List α → List (List α)
  | 0, _ => []
  | _, [] => []
  | f + 1, l => l.take 16 :: groups16 f (l.drop 16)

/-- The tree over the pieces of a row, up to 16 lists a node in piece order (DESIGN CHOICE, notes/assumptions/18.md): the root,
lists taken, nodes completed. -/
def mergeTree (asc c0 dedup : Bool) (k : Nat) : Nat → List Partial → Partial × Nat × Nat
  | 0, ps => (ps.headD Partial.init, 0, 0)
  | f + 1, ps =>
    if ps.length ≤ 1 then (ps.headD Partial.init, 0, 0)
    else
      let gs := groups16 ps.length ps
      let (r, l, n) := mergeTree asc c0 dedup k f (gs.map (mergeNode asc c0 dedup k))
      (r, l + ps.length, n + gs.length)

/-- A row's elements. -/
def rowElems (e : SelOp) (inp aux : List Byte) (r : Nat) : List Elt :=
  let w := selWidth e.fmt
  (List.range e.rowLen).map (fun j =>
    let v := fieldAt w inp (r * e.stride + j * w)
    { bits := v, val := selVal e.fmt w v, idx := if e.expl then u32At aux (4 * (r * e.rowLen + j)) else j, pos := j })

/-- Pieces of 65,536 elements (R272). -/
def pieces {α : Type} : Nat → List α → List (List α)
  | 0, _ => []
  | _, [] => []
  | f + 1, l => l.take 65536 :: pieces f (l.drop 65536)

/-- The sentinel of a pad entry (Table 11.3). -/
def sentinel (e : SelOp) : Nat :=
  if e.fmt = 5 then (if e.asc then 0x7FFFFFFF else 0x80000000)
  else if e.fmt = 1 then (if e.asc then 0xFFFFFFFF else 0)
  else canonNan e.fmt

/-- A count saturated at 0xFFFF_FFFF. -/
def sat32 (n : Nat) : Nat := min n 0xFFFFFFFF

/-- A top-k result (Table 11.2). -/
def topResult (e : SelOp) (r : Nat) (p : Partial) : List Byte :=
  let full := decide (p.cands.length = e.k)
  let ties := if full then p.ties else 0
  let ents := p.cands.flatMap (fun c => leBytes 4 c.bits ++ leBytes 4 c.idx)
  let pads := (List.replicate (e.k - p.cands.length) (leBytes 4 (sentinel e) ++ leBytes 4 0xFFFFFFFF)).flatten
  slice (leBytes 4 p.cands.length ++ leBytes 2 ((decide (ties ≠ 0)).toNat + 2 * p.conflict.toNat) ++ leBytes 2 e.k
    ++ leBytes 4 (sat32 ties) ++ leBytes 4 (sat32 p.nan) ++ leBytes 4 (sat32 p.dup) ++ leBytes 4 (sat32 p.invalid)
    ++ leBytes 8 r ++ ents ++ pads) 0 (resultBytes e.k)

/-- A row's result, its partial list, its pieces, lists and nodes. -/
structure RowOut where
  bytes : List Byte
  p : Partial
  pieces : Nat
  lists : Nat
  nodes : Nat
  deriving DecidableEq, Repr

/-- One row. -/
def topRow (e : SelOp) (c0 : Bool) (inp aux : List Byte) (r : Nat) : RowOut :=
  let ps := (pieces (e.rowLen / 65536 + 1) (rowElems e inp aux r)).map (fun l => l.foldl (topElem e.asc c0 e.dedup e.expl e.k) Partial.init)
  let (p, l, n) := mergeTree e.asc c0 e.dedup e.k 5 ps
  { bytes := topResult e r p, p := p, pieces := if ps.length ≤ 1 then 0 else ps.length, lists := l, nodes := n }

/-- The strait die that counts the tree's nodes: the first of the stage's island, or the one that takes its nodes over (R273). -/
def mergeDie (s : State) (x : Ctx) : Nat :=
  let d := x.reef / 8 % 4
  if straitLost s d then (d + 2) % 4 else d

/-- A select stage ends: output placed, counts. -/
def selEnd (x : Ctx) (out : List Byte) (cin cout : Nat) (code : W16) (s : State) : State :=
  let r := { x.run with recsIn := cin, recsOut := cout, lines := ceilDiv out.length 32 }
  runPut x.num (if code = 0 then stageDid x 14 r else runFail code r) (if out = [] then s else placeOut x out s)

/-- TOPK over its input. -/
def topStage (x : Ctx) (e : SelOp) (inp aux : List Byte) (s : State) : State :=
  let rs := (List.range e.rows).map (topRow e (decide (x.j.tc = 0)) inp aux)
  let sum := fun (f : RowOut → Nat) => rs.foldl (fun n r => n + f r) 0
  let d := mergeDie s x
  let s1 := selEnd x (rs.flatMap (·.bytes)) (e.rows * e.rowLen) e.rows 0 s
  let s2 := bumpReef x 55 e.rows (bumpReef x 56 (e.rows * e.rowLen) (bumpReef x 57 (sum (·.p.nan)) (bumpReef x 58 (sum (·.p.invalid))
    (bumpReef x 59 (sum (·.p.dup)) (bumpReef x 60 (sum (·.p.conflict.toNat))
      (bumpReef x 61 (sum (fun r => (decide (r.p.cands.length = e.k) && decide (r.p.ties ≠ 0)).toNat)) (bumpReef x 62 (sum (·.pieces)) s1)))))))
  if sum (·.nodes) = 0 then s2 else bump (straitCnt d 91) (sum (·.lists)) (bump (straitCnt d 92) (sum (·.nodes)) s2)

/-! ## Sorting and merging (R275, R276) -/

/-- An element of a run: its bytes and its key. -/
structure RunElt where
  data : List Byte
  key : Num
  deriving DecidableEq, Repr

/-- The elements of a run's bytes. -/
def runElems (e : SelOp) (b : List Byte) : List RunElt :=
  (chunks e.elem b).map (fun d => { data := d, key := selVal e.fmt e.key (leNat (d.take e.key)) })

/-- `a` ranks before `b`: NaN keys after every other. -/
def before (asc : Bool) (a b : RunElt) : Bool :=
  if a.key = .nan then false else if b.key = .nan then true else valHigher asc a.key b.key

/-- An element put before those it does not rank after. -/
def insRun (asc : Bool) (a : RunElt) : List RunElt → List RunElt
  | [] => [a]
  | b :: t => if before asc b a then b :: insRun asc a t else a :: b :: t

/-- A run sorted; equal keys keep their order. -/
def sortRun (asc : Bool) (l : List RunElt) : List RunElt := l.foldr (insRun asc) []

/-- The number of NaN keys. -/
def nanKeys (l : List RunElt) : Nat := (l.filter (fun a => decide (a.key = .nan))).length

/-- SORT over its input. -/
def sortStage (x : Ctx) (e : SelOp) (inp : List Byte) (s : State) : State :=
  let rs := (chunks (e.rowLen * e.elem) inp).map (runElems e)
  let n := e.rows * e.rowLen
  bumpReef x 56 n (bumpReef x 57 (rs.foldl (fun m l => m + nanKeys l) 0)
    (selEnd x ((rs.flatMap (sortRun e.asc)).flatMap (·.data)) n n 0 s))

/-- The place of the run whose head ranks first, the lower-numbered among equals. -/
def firstRun (asc : Bool) : List (List RunElt) → Option (Nat × RunElt)
  | [] => none
  | l :: t =>
    match l, firstRun asc t with
    | [], r => r.map (fun p => (p.1 + 1, p.2))
    | a :: _, none => some (0, a)
    | a :: _, some (i, b) => if before asc b a then some (i + 1, b) else some (0, a)

/-- The run at a place less its head. -/
def dropHead : Nat → List (List RunElt) → List (List RunElt)
  | _, [] => []
  | 0, l :: t => l.drop 1 :: t
  | n + 1, l :: t => l :: dropHead n t

/-- The merge: elements written, elements read, whether a run was found out of order (R276). -/
def mergeRuns (asc : Bool) : Nat → List (List RunElt) → List RunElt × Bool
  | 0, _ => ([], false)
  | f + 1, ls =>
    match firstRun asc ls with
    | none => ([], false)
    | some (i, a) =>
      let ls' := dropHead i ls
      match (ls'.getD i []).head? with
      | some b => if before asc b a then ([a], true) else (let (o, bad) := mergeRuns asc f ls'; (a :: o, bad))
      | none => let (o, bad) := mergeRuns asc f ls'; (a :: o, bad)

/-- Runs of given lengths. -/
def cutRuns : List Nat → List RunElt → List (List RunElt)
  | [], _ => []
  | n :: t, l => l.take n :: cutRuns t (l.drop n)

/-- MERGE over its input. -/
def mergeStage (x : Ctx) (e : SelOp) (table : List Nat) (inp : List Byte) (s : State) : State :=
  let es := runElems e inp
  let (o, bad) := mergeRuns e.asc (es.length + 1) (cutRuns table es)
  let s1 := selEnd x (o.flatMap (·.data)) es.length o.length (if bad then 0x8003 else 0) s
  bumpReef x 56 es.length (bumpReef x 57 (nanKeys es) (bumpReef x 63 bad.toNat s1))

/-! ## The rows -/

/-- A select stage of an operation. A block of no known operation ends at whichever row runs it. -/
def selRun (op : Nat) (r : RunRef) (s : State) : State :=
  unitRun 14 r.chan.toNat r.seq.toNat (fun x t =>
    match selParams t x with
    | none => runPut x.num (runFail 0x8001 x.run) t
    | some e =>
      if e.op ≠ op ∧ 1 ≤ e.op ∧ e.op ≤ 3 then t
      else
        let inLen := match x.run.bytes with | some b => b.length | none => x.j.d.inLen.toNat
        match selCheck t x e inLen with
        | 0 =>
          (match firstCode [inputCode t x, if selAuxLen e = 0 then cOk else areaCode t (localOf e.aux) (selAuxLen e)] with
           | 0 =>
             (match engWrite t x.p x.c x.st (localOf x.j.d.outAddr) (selOutLen t e) with
              | 0 =>
                let inp := stageInput t x
                if op = 1 then topStage x e inp (if e.expl then readMem t (localOf e.aux) (selAuxLen e) else []) t
                else if op = 2 then sortStage x e (inp.take (selInLen t e)) t
                else mergeStage x e (runTable t e) inp t
              | c => runPut x.num (runAccess cOutputLost c x.run) t)
           | c => runPut x.num (runReads t ((if x.run.bytes.isNone then [(localOf x.j.d.inAddr, x.j.d.inLen.toNat)] else [])
               ++ [(localOf e.aux, selAuxLen e)]) cInputLost c x.run) t)
        | c => runPut x.num (runFail c x.run) t) s

/-- TOPK. -/
def execTopk (r : RunRef) (s : State) : Host.Outcome State Fault Refusal := .next (selRun 1 r s)
/-- SORT. -/
def execSort (r : RunRef) (s : State) : Host.Outcome State Fault Refusal := .next (selRun 2 r s)
/-- MERGE. -/
def execMerge (r : RunRef) (s : State) : Host.Outcome State Fault Refusal := .next (selRun 3 r s)

end Sys2Proof.Machine
end

