-- ==== Sys2Proof/Machine/Sequencer.lean ====
section
/-! DEFINITION. The sequencer's commands: TAKE to ENGINE, the WXA commands, attached signals (14 R336-R355, 03 R86-R91). -/

namespace Sys2Proof.Machine

/-! ## TAKE and DONE (R337) -/

/-- The first accepted descriptor, by channel and sequence number, whose stage uses the list's reef and sheet and which the list
has not taken. -/
def takeNext (s : State) (k : Nat) : Option RunRef :=
  let serves := fun (r : PRec) => decide (8 * r.island + r.reef = k / 64) && (decide (r.sheet = k / 16 % 4) || decide (r.sheet = 255))
  s.chans.findSome? (fun p => p.2.journal.findSome? (fun q =>
    match ctxOf s p.1 q.1 with
    | none => none
    | some x =>
      if x.rs.any serves && !nmem x.run.served k then
        some { chan := BitVec.ofNat 12 p.1, seq := BitVec.ofNat 48 q.1 }
      else none))

/-- The number of a run by its name. -/
def refNum (r : RunRef) : Nat := runNum r.chan.toNat r.seq.toNat

/-- TAKE: the next descriptor, or the list waits for one. -/
def seqTake (k : Nat) (s : State) : State :=
  match takeNext s k with
  | none => seqPut k { seqGet s k with wait := some .take } s
  | some r =>
    let x := runGet s (refNum r)
    seqPut k { pc := (seqGet s k).pc + 1, cur := some r, wait := none, slept := false } (runPut (refNum r) { x with served := nadd x.served k } s)

/-- A stage of cells alone has finished a descriptor when no list still holds it (notes/assumptions/13.md). -/
def cellsDone (r : RunRef) (s : State) : State :=
  match ctxOf s r.chan.toNat r.seq.toNat with
  | none => s
  | some x =>
    if stageKinds x.rs = [] ∧ !(s.lists.any (fun p => decide (p.2.cur = some r))) then
      runPut (refNum r) { x.run with pos := x.run.pos + 1, did := [], served := [] } s
    else s

/-- DONE. -/
def seqDone (k : Nat) (s : State) : State :=
  let x := seqGet s k
  let s1 := seqPut k { pc := x.pc + 1, cur := none, wait := none, slept := false } s
  match x.cur with
  | some r => cellsDone r s1
  | none => s1

/-- TAKE. -/
def execTake (l : ListId) (s : State) : Host.Outcome State Fault Refusal :=
  let k := listKey l
  let x := seqGet s k
  .next (if listRuns s k && (decide (x.wait = none) || decide (x.wait = some .take))
      && decide ((listProg s k)[x.pc]? = some { word := 1, arg := 0, addr := 0 }) then seqTake k s else s)

/-- DONE. -/
def execDone (l : ListId) (s : State) : Host.Outcome State Fault Refusal :=
  .next (if listIssues s (listKey l) { word := 2, arg := 0, addr := 0 } then seqDone (listKey l) s else s)

/-- NOP. -/
def execNop (l : ListId) (s : State) : Host.Outcome State Fault Refusal :=
  .next (if listIssues s (listKey l) { word := 0, arg := 0, addr := 0 } then seqNext (listKey l) s else s)

/-- JUMP. -/
def execJump (l : ListId) (target : W32) (s : State) : Host.Outcome State Fault Refusal :=
  .next (if listIssues s (listKey l) { word := 3, arg := target.toNat, addr := 0 } then seqGo (listKey l) target.toNat s else s)

/-! ## Objects and barriers -/

/-- SIGNAL. -/
def execSignal (l : ListId) (obj : BitVec 13) (n : W16) (s : State) : Host.Outcome State Fault Refusal :=
  .next (if listIssues s (listKey l) { word := 0x10 + 256 * obj.toNat, arg := n.toNat, addr := 0 } then seqSignal (listKey l) obj.toNat n.toNat s else s)

/-- WAIT. -/
def execWait (l : ListId) (obj : BitVec 13) (n : W16) (timeout : BitVec 24) (s : State) : Host.Outcome State Fault Refusal :=
  .next (if listIssues s (listKey l) { word := 0x11 + 256 * obj.toNat, arg := n.toNat, addr := timeout.toNat } then
    seqWait (listKey l) obj.toNat n.toNat timeout.toNat s else s)

/-- DECREMENT. -/
def execDecrement (l : ListId) (obj : BitVec 13) (n : W16) (s : State) : Host.Outcome State Fault Refusal :=
  .next (if listIssues s (listKey l) { word := 0x12 + 256 * obj.toNat, arg := n.toNat, addr := 0 } then
    seqDecrement (listKey l) obj.toNat n.toNat s else s)

/-- A list's command on a barrier that the plate defines and the list takes part in; another raises SYNC_TARGET_INVALID
(notes/assumptions/39.md). -/
def onBarrier (k b : Nat) (f : BarPlan → State → State) (s : State) : State :=
  match barNow s b with
  | some pl => if pl.lists.contains k then f pl s else seqError cSyncTargetInvalid (0x8000 + b) k s
  | none => seqError cSyncTargetInvalid (0x8000 + b) k s

/-- ARRIVE. -/
def execArrive (l : ListId) (bar : BitVec 6) (s : State) : Host.Outcome State Fault Refusal :=
  let k := listKey l
  let b := bar.toNat
  .next (if listIssues s k { word := 0x14 + 256 * b, arg := 0, addr := 0 } then
    onBarrier k b (fun pl s => if barLaps s b k then seqLap b k s else seqNext k (listArrives b pl k s)) s else s)

/-- BWAIT. -/
def execBwait (l : ListId) (bar : BitVec 6) (timeout : BitVec 24) (s : State) : Host.Outcome State Fault Refusal :=
  let k := listKey l
  let b := bar.toNat
  .next (if listIssues s k { word := 0x15 + 256 * b, arg := 0, addr := timeout.toNat } then
    onBarrier k b (fun pl s => seqBarWait b pl k timeout.toNat s) s else s)

/-- ARRIVE_WAIT. -/
def execArriveWait (l : ListId) (bar : BitVec 6) (timeout : BitVec 24) (s : State) : Host.Outcome State Fault Refusal :=
  let k := listKey l
  let b := bar.toNat
  .next (if listIssues s k { word := 0x16 + 256 * b, arg := 0, addr := timeout.toNat } then
    onBarrier k b (fun pl s =>
      if barLaps s b k then seqLap b k s else seqBarWait b pl k timeout.toNat (listArrives b pl k s)) s else s)

/-- WAIT_TIMEOUT: a list's timeout expires while its sheet runs (R344, R50); no count changes. -/
def execWaitTimeout (l : ListId) (s : State) : Host.Outcome State Fault Refusal :=
  let k := listKey l
  .next (if !listRuns s k then s
    else match (seqGet s k).wait with
      | some (.obj o _ _) =>
        let x := objGet s o
        let s1 := objPut o { x with queue := x.queue.filter (fun w => decide (w.list ≠ k)) } s
        objWake o (seqError cWaitTimeout o k (bump (reefCnt (k / 64) 3) 1 s1))
      | some (.bar b _) => seqError cWaitTimeout (0x8000 + b) k (bump (reefCnt (k / 64) 3) 1 s)
      | _ => s)

/-! ## Attached signals (R337, R345, R349-R351) -/

/-- An attached transfer of a unit in progress. -/
def engineKey (reef unit : Nat) : Nat := 256 * reef + unit

/-- A transfer with no command. -/
def EngineCmd.init : EngineCmd := { list := 0, index := 0, att := { obj := 0, n := 0 }, run := none, pos := 0, dest := none }

/-- The word of a command with ATTACH or not. -/
def attachBit (att : Option Attach) : Nat := if att.isSome then 2 ^ 31 else 0

/-- The command after one with ATTACH is its SIGNAL. -/
def attachNext (s : State) (k : Nat) (att : Option Attach) : Bool :=
  match att with
  | none => true
  | some a => decide ((listProg s k)[(seqGet s k).pc + 1]? = some { word := 0x10 + 256 * a.obj.toNat, arg := a.n.toNat, addr := 0 })

/-- The attachment that the program gives the list's command: that of the SIGNAL after it. -/
def attachOf (s : State) (k : Nat) : Option Attach :=
  ((listProg s k)[(seqGet s k).pc + 1]?).map (fun c => { obj := BitVec.ofNat 13 (c.word / 256 % 2 ^ 13), n := BitVec.ofNat 16 c.arg })

/-- A list goes on past a command and the SIGNAL attached to it. -/
def seqPast (k : Nat) (att : Option Attach) (s : State) : State := seqGo k ((seqGet s k).pc + (if att.isSome then 2 else 1)) s

/-- A transfer's signal is owed by unit `unit` of reef `reef`. -/
def owe (reef unit k : Nat) (att : Option Attach) (run : Option RunRef) (pos : Nat) (dest : Option Nat) (s : State) : State :=
  match att with
  | none => s
  | some a =>
    { s with engines := mset EngineCmd.init s.engines (engineKey reef unit)
               { list := k, index := (seqGet s k).pc, att := a, run := run, pos := pos, dest := dest } }

/-- A unit owes a signal already. -/
def owes (s : State) (reef unit : Nat) : Bool := (mlook s.engines (engineKey reef unit)).isSome

/-- How a descriptor's transfer stands: in progress, its tail passed, or failed. -/
inductive Tail where
  | open
  | passed
  | failed
  deriving DecidableEq, Repr

/-- The tail of an attached transfer. -/
def tailOf (s : State) (e : EngineCmd) : Tail :=
  match e.run with
  | none =>
    (match e.dest with
     | some a => if s.asuHeld.any (fun h => decide (h.dest = some a)) then .open else .passed
     | none => .passed)
  | some r =>
    let x := runGet s (refNum r)
    match journalOf s r.chan.toNat r.seq.toNat with
    | none => .passed
    | some j =>
      if j.state ≠ .accepted then .passed
      else if j.verdict ≠ 0 then .failed
      else if e.pos < x.pos then .passed
      else if x.halted then .failed
      else .open

/-- The stage that carried a transfer was the last of its chain and the descriptor has not committed: the transfer is staged
(R351). -/
def tailStaged (s : State) (e : EngineCmd) : Option RunRef :=
  match e.run with
  | none => none
  | some r =>
    let c := chanGet s r.chan.toNat
    match journalOf s r.chan.toNat r.seq.toNat with
    | none => none
    | some j => if j.state = .accepted && !(runGet s (refNum r)).halted && runFinished s c (runGet s (refNum r)) then some r else none

/-- The signal of a transfer whose tail has passed: staged with the descriptor's effects, or applied at once. -/
def tailSignal (e : EngineCmd) (s : State) : State :=
  let o := e.att.obj.toNat
  let n := e.att.n.toNat
  match tailStaged s e with
  | some r =>
    let x := runGet s (refNum r)
    runPut (refNum r) { x with eff := x.eff ++ [Eff.signal o n e.list e.index] } s
  | none =>
    let (c, t) := applySignal o n e.list e.index e.run s
    if c = cOk then t else runSyncFail c e.run t

/-- ATTACHED_SIGNAL: unit `unit` of reef `reef` performs the signal it owes. -/
def seqAttached (reef unit : Nat) (s : State) : State :=
  match mlook s.engines (engineKey reef unit) with
  | none => s
  | some e =>
    let s1 := { s with engines := mdel s.engines (engineKey reef unit) }
    match tailOf s e with
    | .open => s
    | .failed => s1
    | .passed => tailSignal e s1

/-- ATTACHED_SIGNAL. The units of the sequencer's own commands are named by their opcodes. -/
def execAttachedSignal (reef : BitVec 7) (unit : Byte) (s : State) : Host.Outcome State Fault Refusal :=
  .next (seqAttached reef.toNat unit.toNat s)

/-! ## ENGINE and ASU_ISSUE -/

/-- The stage work of a record kind. -/
def kindRun (kind : Nat) (r : RunRef) (s : State) : State :=
  let all := fun (fs : List (RunRef → State → Host.Outcome State Fault Refusal)) =>
    fs.foldl (fun t f => if runGet t (refNum r) = runGet s (refNum r) then stateOf (f r t) t else t) s
  match kind with
  | 2 => all [execGraverRun]
  | 3 => all [execRecordDecode]
  | 5 => all [execStippleAugment]
  | 6 => all [execHatchStage]
  | 7 => all [execNormalise]
  | 8 => all [execJoinProbe, execJoinBuild]
  | 9 => all [execNearDupProbe, execNearDupBuild]
  | 10 => all [execShuffleFeed, execCensus, execSeal, fun r s => execDeliver r false s]
  | 12 => all [execPack]
  | 13 => all [execLayoutTransform]
  | 14 => all [execTopk, execSort, execMerge]
  | 15 => all [execGather, execScatter, execFold, execWriteRows, execInitialise]
  | k => if k = kindStats then all [execStatsGather] else if k = kindAsu then all [execAsuUpdate] else s

/-- The kinds of work that a unit does (02 Table 2.14). -/
def unitKinds (unit : Nat) : List Nat :=
  match unit with
  | 0 => [2]
  | 1 => [2]
  | 2 => [3]
  | 3 => [6, 7, 8, 9, kindStats]
  | 4 => [kindAsu]
  | 5 => [14]
  | 6 => [15]
  | 7 => [12, 13]
  | 8 => [5]
  | 9 => [10]
  | _ => []

/-- Entry `n` of a unit: the n-th of its records in the ENGINE_BIND section of the list's sheet (notes/assumptions/25.md). -/
def entryRec (x : Ctx) (k unit n : Nat) : Option PRec :=
  ((((sectionIn x.p x.c 2 (k / 512) (k / 16 % 4)).map recsOf).getD []).filter (fun r =>
    decide (r.reef = k / 64 % 8) && decide (r.unit = unit)))[n]?

/-- A unit starts an entry for a descriptor: the work of the entry's record, or all of the unit's for an ENGINE record. -/
def engineStart (k unit n : Nat) (r : RunRef) (s : State) : State :=
  match ctxOf s r.chan.toNat r.seq.toNat with
  | none => s
  | some x =>
    match entryRec x k unit n with
    | none => s
    | some e =>
      if e.stage ≠ x.st then s
      else if e.kind = 1 then (unitKinds unit).foldl (fun s q => kindRun q r s) s
      else if (unitKinds unit).contains e.kind then kindRun e.kind r s else s

/-- ENGINE: the unit serves the list's current descriptor; with ATTACH the unit owes the signal. -/
def seqEngine (k unit n : Nat) (att : Option Attach) (s : State) : State :=
  match (seqGet s k).cur with
  | none => seqPast k att s
  | some r =>
    let at_ := (runGet s (refNum r)).pos
    let s1 := owe (k / 64) unit k att (some r) at_ none (engineStart k unit n r s)
    seqAttached (k / 64) unit (seqPast k att s1)

/-- ENGINE. -/
def execEngine (l : ListId) (unit : Byte) (entry : W32) (att : Option Attach) (s : State) : Host.Outcome State Fault Refusal :=
  let k := listKey l
  .next (if listIssues s k { word := 0x50 + 256 * unit.toNat + attachBit att, arg := entry.toNat, addr := 0 } && attachNext s k att
      && !(att.isSome && owes s (k / 64) unit.toNat) then seqEngine k unit.toNat entry.toNat att s else s)

/-- A list's current descriptor, not committed, fails with a code at its stage. -/
def listFail (k : Nat) (c : W16) (s : State) : State := runSyncFail c (seqGet s k).cur s

/-- The address of a lagoon offset of a list: in its island's window. -/
def listAddr (k off : Nat) : Nat := lagKey (k / 512) off

/-- A list's read of its lagoon meets poison: the read is counted, its descriptor fails, and the list goes on (19 R457). -/
def listPoison (k a n : Nat) (s : State) : State := listFail k cPoisoned (poisonedRead a n (runHandle s (seqGet s k).cur) s)

/-- ASU_ISSUE. -/
def seqAsu (k res cmd : Nat) (att : Option Attach) (s : State) : State :=
  let a := listAddr k cmd
  if anyPoison s a 64 then seqPast k att (listPoison k a 64 s)
  else
    let (op, c) := asuCmdOf (readMem s a 64)
    let dest := listAddr k res
    let s1 := owe (k / 64) 0x40 k att none 0 (some dest) s
    seqAttached (k / 64) 0x40 (seqPast k att (asuStart (k / 64) op c (some dest) s1))

/-- ASU_ISSUE. -/
def execAsuIssue (l : ListId) (resultOff : W32) (cmdOff : W64) (att : Option Attach) (s : State) : Host.Outcome State Fault Refusal :=
  let k := listKey l
  .next (if listIssues s k { word := 0x40 + attachBit att, arg := resultOff.toNat, addr := cmdOff.toNat } && attachNext s k att
      && !(att.isSome && owes s (k / 64) 0x40) then seqAsu k resultOff.toNat cmdOff.toNat att s else s)

/-! ## The WXA commands (03 R89, Table 3.7) -/

/-- The WXA of a row of a list's reef. -/
def listWxa (l : ListId) (row : BitVec 4) : Nat := wxaNum l.reef.toNat row.toNat

/-- The command of a WXA opcode without ATTACH. -/
def wxaCmd (op : Nat) (row : BitVec 4) (more addr : Nat) : SeqCmd := { word := op + 256 * row.toNat + more, arg := 0, addr := addr }

/-- WXA CLEAR. -/
def execWxaClear (l : ListId) (row : BitVec 4) (s : State) : Host.Outcome State Fault Refusal :=
  let w := listWxa l row
  .next (if listIssues s (listKey l) (wxaCmd 0x30 row 0 0) then seqNext (listKey l) (wxaPut w (wxaCleared (wxaGet s w)) s) else s)

/-- WXA SET_MODE. -/
def execWxaSetMode (l : ListId) (row : BitVec 4) (square : Bool) (s : State) : Host.Outcome State Fault Refusal :=
  let w := listWxa l row
  .next (if listIssues s (listKey l) (wxaCmd 0x31 row (4096 * square.toNat) 0) then
    seqNext (listKey l) (wxaPut w { wxaGet s w with square := square } s) else s)

/-- A WXA command that writes its lagoon: alone, or with a signal attached. -/
def wxaWrite (op : Nat) (l : ListId) (row : BitVec 4) (addr : W64) (image : Wxa → List Byte) (s : State) : State :=
  let k := listKey l
  let a := listAddr k addr.toNat
  let b := image (wxaGet s (listWxa l row))
  let put := fun (att : Option Attach) =>
    if partPoison s a b.length then seqPast k att (listPoison k a b.length s)
    else
      let s1 := writeMem a b s
      seqAttached (k / 64) op (seqPast k att (owe (k / 64) op k att none 0 none s1))
  if listIssues s k (wxaCmd op row 0 addr.toNat) then put none
  else if listIssues s k (wxaCmd op row (2 ^ 31) addr.toNat) && !owes s (k / 64) op then put (attachOf s k)
  else s

/-- WXA SAVE. -/
def execWxaSave (l : ListId) (row : BitVec 4) (addr : W64) (s : State) : Host.Outcome State Fault Refusal :=
  .next (wxaWrite 0x32 l row addr wxaImage s)

/-- WXA READ_FP32. -/
def execWxaReadFp32 (l : ListId) (row : BitVec 4) (addr : W64) (s : State) : Host.Outcome State Fault Refusal :=
  .next (wxaWrite 0x35 l row addr (fun w => leBytes 4 (wxaFp32 w).toNat) s)

/-- A WXA command that reads an image from the lagoon. -/
def wxaRead (op : Nat) (l : ListId) (row : BitVec 4) (addr : W64) (f : Wxa → Wxa → Wxa) (s : State) : State :=
  let k := listKey l
  let a := listAddr k addr.toNat
  let w := listWxa l row
  if !listIssues s k (wxaCmd op row 0 addr.toNat) then s
  else if anyPoison s a 64 then seqNext k (listPoison k a 64 s)
  else seqNext k (wxaPut w (f (wxaGet s w) (wxaOfImage (readMem s a 64))) s)

/-- WXA RESTORE. -/
def execWxaRestore (l : ListId) (row : BitVec 4) (addr : W64) (s : State) : Host.Outcome State Fault Refusal :=
  .next (wxaRead 0x33 l row addr (fun _ i => i) s)

/-- WXA MERGE (R90). -/
def execWxaMerge (l : ListId) (row : BitVec 4) (addr : W64) (s : State) : Host.Outcome State Fault Refusal :=
  .next (wxaRead 0x34 l row addr wxaMergeIn s)

end Sys2Proof.Machine
end

