-- ==== Sys2Proof/Machine/Domains.lean ====
section
/-! DEFINITION. Power domains: which are required, which switch (21 R500, 24 R538-R542). -/

namespace Sys2Proof.Machine

/-! ## What a plate names (R538, R542) -/

/-- Reef `r` of island `i` is named by a plate under case `c`: a record, a cell, a list, an object, lagoon bytes or an ASU position
of it (notes/assumptions/47.md). -/
def namesReef (p : Plate) (c i r : Nat) : Bool :=
  let secs := (List.range 11).flatMap (fun k => (sectionsIn p c k).filter (fun x => x.island = i))
  secs.any (fun x =>
    match x.kind with
    | 1 => !zeroAt x.data (16384 * r) 16384
    | 2 => (recsOf x).any (fun q => q.reef = r)
    | 3 => !zeroAt x.data (64 * r) 64
    | 4 => (List.range 48).any (fun k => decide (u16At x.data (8 * (48 * r + k)) ≠ 0))
    | 7 => (recsOf x).any (fun q => q.reef = r)
    | 10 => !zeroAt x.data (0x40 + 20 * r) 20
    | _ => false)
    || (asuTabs p c).any (fun t => (List.range t.sides).any (fun sd =>
        let a := t.pos sd 0 0
        decide (a < 65536 * (8 * i + r + 1)) && decide (65536 * (8 * i + r) < a + t.parts * t.size)))

/-- A plate names a reef of the domain 4i + h in some case. -/
def namesHalf (p : Plate) (i h : Nat) : Bool :=
  ((List.range 16).filter (fun n => p.mask.getLsbD n)).any (fun c => [0, 1, 2, 3].any (fun q => namesReef p c i (4 * h + q)))
    || [0, 1, 2, 3].any (fun q => namesReef p normalCase i (4 * h + q))

/-- The plates whose reefs must have power: the active one, the standby one, and one being loaded. -/
def powerPlates (s : State) (loading : Option Plate) : List Plate :=
  (activePlate s).toList ++ (standbyPlate s).toList ++ loading.toList

/-! ## REQUIRED (Table 24.1) -/

/-- YZ_LINK_CFG of link `l`. -/
def linkCfg (s : State) (l : Nat) : W32 := rget s (0x000D1014 + 0x100 * l)

/-- Link `l` has a configured mode: 0, 1 or 2, and for the second link of a port, BREAKOUT (21 Table 21.9). -/
def linkMode (s : State) (l : Nat) : Bool :=
  decide ((linkCfg s l).toNat % 4 ≠ 3) && (l = 0 || l % 2 = 1 || (linkCfg s (l - 1)).getLsbD 2)

/-- The links of harbour `h`. -/
def harbourLinks (h : Nat) : List Nat := [4 * h + 1, 4 * h + 2, 4 * h + 3, 4 * h + 4]

/-- A domain's die is lost. -/
def domainLost (s : State) (d : Nat) : Bool :=
  if d < 64 then islLost s (d / 4) else if d < 68 then straitLost s (d - 64) else if d < 72 then harbourLost s (d - 68)
  else if d < 76 then harbourLost s (d - 72) else s.rcv.cape

/-- REQUIRED of domain 72 + h. -/
def portRequired (s : State) (h : Nat) : Bool :=
  (harbourLinks h).any (linkMode s) || s.sessions.any (fun p => (harbourLinks h).contains p.2.link)

/-- REQUIRED of the reef halves: whether each of the 32 domains 4i and 4i + 1 is required. -/
def halfRequired (s : State) (loading : Option Plate) (i h : Nat) : Bool :=
  decide (s.boot.stage = 5) || (powerPlates s loading).any (fun p => namesHalf p i h)

/-- REQUIRED of domain `d` while a plate may be loading (Table 24.1). A lost die's domain stays off. -/
def required (s : State) (loading : Option Plate) (d : Nat) : Bool :=
  !domainLost s d &&
    (if d < 64 then
      (match d % 4 with
       | 0 => halfRequired s loading (d / 4) 0
       | 1 => halfRequired s loading (d / 4) 1
       | 2 => halfRequired s loading (d / 4) 0 || halfRequired s loading (d / 4) 1
       | _ => decide (3 ≤ s.boot.stage))
    else if d < 68 then decide (4 ≤ s.boot.stage)
    else if d < 72 then portRequired s (d - 68)
    else if d < 76 then portRequired s (d - 72)
    else true)

/-- The plate being copied or checked, as far as its section table can be read (R542). -/
def loadingPlate (s : State) (ofBytes : List Byte → Plate) : Option Plate :=
  match s.plt.load with
  | some l => l.bytes.map ofBytes
  | none => none

/-- SWITCH of domain `d`. -/
def switchBit (s : State) (d : Nat) : Bool := (rget s (0x00050000 + 4 * (d / 32))).getLsbD (d % 32)

/-- A domain is asked for. -/
def wanted (s : State) (loading : Option Plate) (d : Nat) : Bool := (switchBit s d && !domainLost s d) || required s loading d

/-- Domains whose request differs from their state begin to switch (R541). -/
def pwrTrackWith (loading : Option Plate) (s : State) : State :=
  { s with pwr := { s.pwr with switching := (List.range 80).foldl (fun w d =>
      if wanted s loading d ≠ s.pwr.state.getLsbD d then nadd w d else w) s.pwr.switching } }

end Sys2Proof.Machine
end

