-- ==== Sys2Proof/Machine/Flash.lean ====
section
/-! DEFINITION. The boot flash: its bytes, and the plate directory, boot control, role list and configuration areas (23 R521,
R522, Table 23.1; 22 Table 22.1). -/

namespace Sys2Proof.Machine

/-- The byte at a flash offset; erased flash reads 0xFF (notes/assumptions/5.md). -/
def fget (s : State) (a : Nat) : Byte := mget 0xFF s.flash a

/-- `n` bytes of flash. -/
def fread (s : State) (a n : Nat) : List Byte := (List.range n).map (fun i => fget s (a + i))

/-- Bytes written to flash. -/
def fput : List Byte → Nat → SMap Byte → SMap Byte
  | [], _, m => m
  | b :: t, a, m => fput t (a + 1) (mset 0xFF m a b)

/-- `s` with bytes written to flash. -/
def fwrite (a : Nat) (bs : List Byte) (s : State) : State := { s with flash := fput bs a s.flash }

/-- Bytes of flash the board attached: 512 MiB to 4 GiB (R521). -/
def flashBytes : Nat := max 0x20000000 (min 0x100000000 Config.flashBytes)

/-! ## Record areas of two copies (R522) -/

/-- A copy whose u64 SEQ lies at `at_` and whose last four bytes are the CRC32C of those before them (the places are the model's,
notes/assumptions/44.md). -/
def copyOk (b : List Byte) : Bool := decide (u32At b (b.length - 4) = (crc32c (b.take (b.length - 4))).toNat)

/-- The newest valid of two copies, with whether it is the second. -/
def newest (a b : List Byte) (at_ : Nat) : Option (List Byte × Bool) :=
  match copyOk a, copyOk b with
  | false, false => none
  | true, false => some (a, false)
  | false, true => some (b, true)
  | true, true => if u64At a at_ < u64At b at_ then some (b, true) else some (a, false)

/-- A copy closed with its SEQ and CRC32C. -/
def closeCopy (b : List Byte) (at_ seq : Nat) : List Byte :=
  let c := patch b at_ (leBytes 8 seq)
  patch c (c.length - 4) (leBytes 4 (crc32c (c.take (c.length - 4))).toNat)

/-- A record area of two copies of `n` bytes at `base`: its newest copy, zero bytes where none is valid. -/
def areaRead (s : State) (base n at_ : Nat) : List Byte :=
  match newest (fread s base n) (fread s (base + n) n) at_ with
  | some (b, _) => b
  | none => zeros n

/-- New contents written over the other copy, with the next SEQ. -/
def areaWrite (base n at_ : Nat) (new : List Byte) (s : State) : State :=
  match newest (fread s base n) (fread s (base + n) n) at_ with
  | some (b, second) => fwrite (if second then base else base + n) (closeCopy new at_ (u64At b at_ + 1)) s
  | none => fwrite base (closeCopy new at_ 1) s

/-! ## The plate directory -/

/-- The directory: sixteen entries of 48 bytes from its first byte, SEQ at 0x300. -/
def plateDir (s : State) : List Byte := areaRead s 0x02014000 0x2000 0x300

/-- Offset, length and digest of plate slot `k`; length 0 is an empty slot. -/
def dirEntry (s : State) (k : Nat) : Nat × Nat := let b := plateDir s; (u64At b (48 * k), u64At b (48 * k + 8))

/-- A slot's entry set. -/
def dirSet (k off len : Nat) (d : Digest) (s : State) : State :=
  areaWrite 0x02014000 0x2000 0x300 (patch (plateDir s) (48 * k) (leBytes 8 off ++ leBytes 8 len ++ digestBytes d)) s

/-- The bytes of the plate in a slot; none where it is empty. -/
def slotPlate (s : State) (k : Nat) : Option (List Byte) :=
  let (o, n) := dirEntry s k
  if n = 0 then none else some (fread s o n)

/-- Ranges of the plate area in use, slot `k` left out. -/
def slotRanges (s : State) (k : Nat) : List (Nat × Nat) :=
  ((List.range 16).filter (fun j => j ≠ k)).filterMap (fun j => let (o, n) := dirEntry s j; if n = 0 then none else some (o, n))

/-- The first place in the plate area, from its start, where `n` bytes fit (first fit). -/
def firstFit (s : State) (k n : Nat) : Option Nat :=
  let rs := slotRanges s k
  let starts := 0x08000000 :: rs.map (fun r => r.1 + r.2)
  let ok := fun (a : Nat) => decide (a + n ≤ flashBytes) && rs.all (fun r => decide (a + n ≤ r.1) || decide (r.1 + r.2 ≤ a))
  (starts.filter ok).foldl (fun m a => match m with | none => some a | some b => some (min a b)) none

/-! ## Boot control (R526) -/

/-- PREFERRED (slot B), TRIAL and TRIES. -/
structure BootCtl where
  slotB : Bool
  trial : Bool
  tries : Nat
  deriving DecidableEq, Repr

/-- The boot control in flash: slot A with no trial where no copy is valid (notes/assumptions/44.md). -/
def bootCtl (s : State) : BootCtl :=
  let b := areaRead s 0x02000000 0x1000 0
  { slotB := decide (u8At b 8 = 1), trial := decide (u8At b 9 = 1), tries := u8At b 10 }

/-- The boot control written. -/
def bootCtlSet (c : BootCtl) (s : State) : State :=
  areaWrite 0x02000000 0x1000 0 (zeros 8 ++ [BitVec.ofNat 8 c.slotB.toNat, BitVec.ofNat 8 c.trial.toNat, BitVec.ofNat 8 c.tries] ++ zeros 4085) s

/-! ## The role list (22 R509, Table 22.1) -/

/-- Offsets of the current and the pending list. -/
def roleArea : Nat := 0x02010000
def pendingArea : Nat := 0x02012000

/-- SEQ of a list. -/
def listSeq (b : List Byte) : Nat := u64At b 8

/-- The entries of a list. -/
def listRoles (b : List Byte) : List (Digest × Role) :=
  (List.range (min 64 (u16At b 6))).map (fun e =>
    (digestOf (b.drop (0x40 + 40 * e)), if u8At b (0x60 + 40 * e) = 1 then Role.operator else Role.installer))

/-- A digest is that of an unrevoked maker fuse slot. -/
def isMaker (s : State) (d : Digest) : Bool :=
  (List.range 4).any (fun k => decide (s.fuses.maker[k]? = some (some d)) && !(s.fuses.revoked.getD k false))

/-- A digest is that of any maker fuse slot. -/
def isFuse (s : State) (d : Digest) : Bool := s.fuses.maker.any (fun m => decide (m = some d))

/-- Step 1 of R509. -/
def listFieldsOk (s : State) (b : List Byte) : Bool :=
  let n := u16At b 6
  decide (b.length = 8192) && decide (u32At b 0 = 0x4C524B41) && decide (u16At b 4 = 1) && decide (n ≤ 64) && zeroAt b 0x10 48
    && (List.range 64).all (fun e =>
      let o := 0x40 + 40 * e
      zeroAt b (o + 33) 7 && (if e < n then decide (u8At b (o + 32) = 1) || decide (u8At b (o + 32) = 2) else zeroAt b o 33))
    && zeroAt b 0xA40 1472
    && (let ds := (listRoles b).map (·.1); ds.Nodup && ds.all (fun d => !isFuse s d))

end Sys2Proof.Machine
end

