-- ==== Sys2Proof/Machine/PlateCheck.lean ====
section
/-! DEFINITION. The load checks of 02 Table 2.9 that need no other chapter: header and lengths (R37, R38), target, digest
(R36), signature block (R41), section table and counts (R37, R39, R40), CRC, fit (R46-R48) and fallback maps (R52). -/

namespace Sys2Proof.Machine

/-- How a load ends: the code and what PLT_ERR_DETAIL and PLT_ERR_CELL name. -/
structure LoadErr where
  code : W16
  step : Nat
  island : Nat := 255
  case : Nat := 255
  sheet : Nat := 255
  resource : Nat := 0
  reef : Nat := 0
  row : Nat := 0
  col : Nat := 0
  deriving DecidableEq, Repr

/-- Bytes of an area given as (offset, size) are zero. -/
def areasZero (bs : List Byte) (as : List (Nat × Nat)) : Bool := as.all (fun a => zeroAt bs a.1 a.2)

/-- TOTAL_LENGTH as the header gives it. -/
def plateLen (bs : List Byte) : Nat := u64At bs 0x10

/-- A length that R37 allows. -/
def plateLenOk (n : Nat) : Bool := decide (n % 64 = 0) && decide (8192 ≤ n) && decide (n ≤ 0x10000000)

/-- Step 1: the header (R38) and the length rules (R37). -/
def headerOk (bs : List Byte) : Bool :=
  decide (u32At bs 0 = 0x4C504B41) && decide (u16At bs 4 = 1) && decide (u16At bs 6 = 0x100)
    && decide (1 ≤ u32At bs 0x0C) && decide (u32At bs 0x0C ≤ 4096) && decide (u64At bs 0x28 = 0x100)
    && plateLenOk (plateLen bs) && decide (bs.length = plateLen bs)
    && areasZero bs [(0x0B, 1), (0x4A, 6), (0x70, 144)]

/-- Step 2: PART and REVISION. -/
def targetOk (bs : List Byte) : Bool := decide (u16At bs 8 = 0x0A25) && decide (u8At bs 10 = 0xB0)

/-- The plate content digest (R36): bytes up to the signature block, with the CONTENT_DIGEST field taken as zero. -/
def contentDigest (bs : List Byte) : Digest :=
  let t := bs.take (bs.length - 4096)
  sha3 (t.take 0x50 ++ zeros 32 ++ t.drop 0x70)

/-- The signature block of a container (Table 2.4). -/
def sigBlock (bs : List Byte) : List Byte := bs.drop (bs.length - 4096)

/-- Block fields of step 4 (R41). -/
def sigFieldsOk (b : List Byte) : Bool :=
  decide (u32At b 0 = 0x47534B41) && decide (u16At b 4 = 0x44) && zeroAt b 6 2 && zeroAt b 0xEBC 324

/-- SIGNER_DIGEST of a signature block. -/
def signerDigest (b : List Byte) : Digest := digestOf (b.drop 8)

/-- SIGNER_DIGEST equals SHA3-256 of the public key. -/
def signerConsistent (b : List Byte) : Bool := decide (signerDigest b = sha3 ((b.drop 0x28).take 1312))

/-- SIGNER_k of the SEC block (21 Table 21.6). -/
def signerKey (s : State) (k : Nat) : Digest :=
  BitVec.ofNat 256 ((List.range 8).foldr (fun w acc => (rget s (0x00040100 + 0x20 * k + 4 * w)).toNat + 2 ^ 32 * acc) 0)

/-- The signer is on the signer list. -/
def signerListed (s : State) (d : Digest) : Bool :=
  (List.range 16).any (fun k => bit (rget s 0x00040300).toNat k && decide (signerKey s k = d))

/-- An entry of the section table (Table 2.2). -/
structure SecEntry where
  kind : Nat
  island : Nat
  sheet : Nat
  case : Nat
  off : Nat
  len : Nat
  crc : Nat
  rsvd : Bool
  deriving DecidableEq, Repr

/-- The section table. -/
def secTable (bs : List Byte) : List SecEntry :=
  (List.range (u32At bs 0x0C)).map (fun i =>
    let o := 0x100 + 32 * i
    { kind := u16At bs o, island := u8At bs (o + 2), sheet := u8At bs (o + 3), case := u8At bs (o + 4),
      off := u64At bs (o + 8), len := u64At bs (o + 16), crc := u32At bs (o + 24),
      rsvd := zeroAt bs (o + 5) 3 && zeroAt bs (o + 28) 4 })

/-- The scope that Table 2.3 gives a kind: island-wide or device-wide, per sheet or not. -/
def scopeOk (e : SecEntry) : Bool :=
  let isl := decide (e.island ≤ 15)
  let dev := decide (e.island = 255)
  let sh := decide (e.sheet ≤ 3)
  let all := decide (e.sheet = 255)
  match e.kind with
  | 1 => isl && sh
  | 2 => isl && sh
  | 3 => isl && sh
  | 4 => isl && all
  | 5 => dev && all
  | 6 => dev && all
  | 7 => isl && all
  | 8 => isl && all
  | 9 => dev && all
  | 10 => isl && all
  | _ => false

/-- The placement rules of R37, of one entry against the plate and the table. -/
def placedOk (bs : List Byte) (e : SecEntry) : Bool :=
  let tableEnd := 0x100 + 32 * u32At bs 0x0C
  decide (e.off % 64 = 0) && decide (tableEnd ≤ e.off) && decide (e.off + e.len ≤ bs.length - 4096)

/-- Two entries do not overlap. -/
def apart (a b : SecEntry) : Bool := decide (a.off + a.len ≤ b.off) || decide (b.off + b.len ≤ a.off)

/-- Every two elements of a list are related. -/
def allPairs {α : Type} (f : α → α → Bool) : List α → Bool
  | [] => true
  | a :: t => t.all (f a) && allPairs f t

/-- Entries of a case and kind for an island and sheet. -/
def countOf (es : List SecEntry) (c k i sh : Nat) : Nat :=
  (es.filter (fun e => e.case = c && e.kind = k && e.island = i && e.sheet = sh)).length

/-- Exactly one CELL_WIRING, ENGINE_BIND and SEQ_PROGRAM for each sheet below `n` of island `i`, none above. -/
def sheetSetOk (es : List SecEntry) (c i n : Nat) : Bool :=
  [1, 2, 3].all (fun k => (List.range 4).all (fun sh => decide (countOf es c k i sh = if sh < min n 4 then 1 else 0)))

/-- Counts of R40 for the normal configuration. -/
def normalCounts (bs : List Byte) (es : List SecEntry) : Bool :=
  (List.range 16).all (fun i =>
    let n := u8At bs (0x30 + i)
    sheetSetOk es 255 i n
      && decide (countOf es 255 10 i 255 = if n = 0 then 0 else 1)
      && decide (countOf es 255 8 i 255 = if 2 ≤ n then 1 else 0)
      && decide (countOf es 255 4 i 255 ≤ 1) && decide (countOf es 255 7 i 255 ≤ 1))
  && decide (countOf es 255 5 255 255 = 1) && decide (countOf es 255 6 255 255 = 1) && decide (countOf es 255 9 255 255 ≤ 1)

/-- The bytes of an entry's section. -/
def entryBytes (bs : List Byte) (e : SecEntry) : List Byte := (bs.drop e.off).take e.len

/-- Sheet count that the case-n DEMAND section of island `i` gives, if there is one. -/
def caseNeed (bs : List Byte) (es : List SecEntry) (n i : Nat) : Option Nat :=
  (es.find? (fun e => e.case = n && e.kind = 10 && e.island = i)).map (fun e => sheetsNeeded (entryBytes bs e))

/-- Counts of R40 for fallback case `n`. -/
def caseCounts (bs : List Byte) (es : List SecEntry) (n : Nat) : Bool :=
  let ce := es.filter (fun e => e.case = n)
  allPairs (fun a b => !(a.kind = b.kind && a.island = b.island && a.sheet = b.sheet)) ce
  && decide (countOf es n 5 255 255 = 1) && decide (countOf es n 6 255 255 = 1) && decide (countOf es n 9 255 255 = 0)
  && (List.range 16).all (fun i =>
    match caseNeed bs es n i with
    | some c => sheetSetOk es n i c && decide (countOf es n 8 i 255 = if 2 ≤ c then 1 else 0)
    | none =>
      decide (countOf es n 8 i 255 = 0)
        && (ce.filter (fun e => e.island = i && (e.kind = 1 || e.kind = 2 || e.kind = 3))).all
            (fun e => decide (e.sheet < u8At bs (0x30 + i))))

/-- The normal configuration is the case 0xFF, a map is a case whose mask bit is set (R52). -/
def casesOk (bs : List Byte) (es : List SecEntry) : Bool :=
  es.all (fun e => decide (e.case = 255) || (decide (e.case < 16) && bit (u16At bs 0x48) e.case))

/-- Bits set in FALLBACK_MASK. -/
def maskCases (mask : Nat) : List Nat := (List.range 16).filter (fun n => bit mask n)

/-- Lengths and values of the sections that chapter 02 lays out outside R567: CELL_WIRING, SHEET_SCHED, DEMAND. -/
def fixedSectionOk (bs : List Byte) (es : List SecEntry) (e : SecEntry) : Bool :=
  let d := entryBytes bs e
  match e.kind with
  | 1 => decide (131072 ≤ e.len) && decide ((e.len - 131072) % 512 = 0)
  | 8 =>
    let n := if e.case = 255 then u8At bs (0x30 + e.island) else (caseNeed bs es e.case e.island).getD 0
    decide (e.len = 16) && (List.range 4).all (fun k =>
      if k < n then decide (1 ≤ u32At d (4 * k)) && decide (u32At d (4 * k) ≤ 10000) else decide (u32At d (4 * k) = 0))
  | 10 => decide (e.len = 0xE0) && zeroAt d 0x30 16
  | _ => true

/-- Step 6, the part of the table: R37 placement, R39, R40. -/
def tableOk (bs : List Byte) : Bool :=
  let es := secTable bs
  decide (0x100 + 32 * u32At bs 0x0C ≤ bs.length - 4096)
    && es.all (fun e => e.rsvd && scopeOk e && placedOk bs e) && allPairs apart es
    && casesOk bs es && normalCounts bs es && (maskCases (u16At bs 0x48)).all (caseCounts bs es)
    && es.all (fixedSectionOk bs es)

/-- Step 7: every section's CRC32C; the first that differs. -/
def crcBad (bs : List Byte) : Option SecEntry :=
  (secTable bs).find? (fun e => decide ((crc32c (entryBytes bs e)).toNat ≠ e.crc))

/-- The plate as the device holds it. -/
def plateOf (bs : List Byte) : Plate :=
  { id := BitVec.ofNat 64 (u64At bs 0x18), version := BitVec.ofNat 32 (u32At bs 0x20),
    rateNominal := BitVec.ofNat 32 (u32At bs 0x40), rateFallback := BitVec.ofNat 32 (u32At bs 0x44),
    sheets := (List.range 16).map (fun i => u8At bs (0x30 + i)), mask := BitVec.ofNat 16 (u16At bs 0x48),
    digest := digestOf (bs.drop 0x50),
    sections := (secTable bs).map (fun e =>
      { kind := e.kind, island := e.island, sheet := e.sheet, case := e.case, data := entryBytes bs e }) }

/-! ## Fit (R46, R47) -/

/-- Shared (k = 0) and private P0-P3 (k = 1-4) lagoon bytes of reef `r` in a DEMAND section. -/
def lagoonDemand (d : List Byte) (r k : Nat) : Nat := u32At d (0x40 + 20 * r + 4 * k)

/-- Largest private demand of a reef. -/
def maxPrivate (d : List Byte) (r : Nat) : Nat := [1, 2, 3, 4].foldl (fun m k => max m (lagoonDemand d r k)) 0

/-- Sum of all private bytes of an island (R48). -/
def sumPrivate (d : List Byte) : Nat :=
  (List.range 8).foldl (fun m r => m + ([1, 2, 3, 4].foldl (fun a k => a + lagoonDemand d r k) 0)) 0

/-- The first resource code that does not fit an island of `n` sheets (R47), in the code order of Table 2.7. A header's count
above 4 comes before every resource; a case's own count (`own`) names the resource that needs it (R52). -/
def fitFails (own : Bool) (n : Nat) (d : List Byte) : Option Nat :=
  if !own && decide (4 < n) then some 0
  else
    match (sheetCaps.zipIdx).find? (fun p =>
        let need := ceilDiv (u32At d (4 * p.2)) p.1
        decide (4 < need) || decide (n < need)) with
    | some p => some (p.2 + 1)
    | none =>
      if 384 < u32At d 0x2C then some 0x0C
      else if (List.range 8).any (fun r =>
          if n = 1 then decide (0x01800000 < lagoonDemand d r 0 + lagoonDemand d r 1)
          else decide (2 ≤ n) && decide (0x01800000 < lagoonDemand d r 0 + 2 * maxPrivate d r)) then some 0x0D
      else if n < sheetsNeeded d then some 0
      else none

/-- The DEMAND bytes of island `i` under case `c`; none where it has no section. -/
def demandOf (p : Plate) (c i : Nat) : Option (List Byte) := (sectionIn p c 10 i 255).map (·.data)

/-- The island's DEMAND section is case `c`'s own, so that its sheet count is a case-n sheet count. -/
def ownDemand (p : Plate) (c i : Nat) : Bool :=
  decide (c ≠ normalCase) && p.sections.any (fun x => x.case = c && x.kind = 0x0A && x.island = i)

/-- Step 9 or step 10: the first island that does not fit under case `c`. -/
def fitBad (p : Plate) (c : Nat) : Option (Nat × Nat) :=
  (List.range 16).findSome? (fun i =>
    if i = c then none
    else
      let n := sheetCount p c i
      match demandOf p c i with
      | some d => (fitFails (ownDemand p c i) n d).map (fun r => (i, r))
      | none => if 4 < n then some (i, 0) else none)

/-- R48 under case `c`: an island of two or more sheets with private lagoon has its save region on its own stack. -/
def saveRegionsOk (p : Plate) (c : Nat) : Bool :=
  (List.range 16).all (fun i =>
    match demandOf p c i with
    | none => true
    | some d =>
      if 2 ≤ sheetCount p c i ∧ sumPrivate d ≠ 0 then
        (regionsIn p c).any (fun r => r.purpose = 1 && r.view = 1 && r.place = i && decide (sumPrivate d ≤ r.len))
      else true)

/-- An interleaved range has bytes on stack `n`: 4 KiB blocks go round the sixteen stacks (19 R450; notes/assumptions/47.md). -/
def spansStack (base len n : Nat) : Bool :=
  decide ((n + 16 - base / 4096 % 16) % 16 ≤ (base + len - 1) / 4096 - base / 4096)

/-- Steps 1 to 5 and 7 of Table 2.9, which service request WRITE_PLATE makes too (23 Table 23.7); step 6's table rules
stand between. `sigOk` is the verdict of the ML-DSA-44 verification. -/
def plateFront (s : State) (bs : List Byte) (sigOk : Bool) : Option LoadErr :=
  if !headerOk bs then some { code := cPlateHeader, step := 1 }
  else if !targetOk bs then some { code := cPlateTarget, step := 2 }
  else if contentDigest bs ≠ digestOf (bs.drop 0x50) then some { code := cDigest, step := 3 }
  else if !sigFieldsOk (sigBlock bs) then some { code := cSignature, step := 4 }
  else if !(signerConsistent (sigBlock bs) && signerListed s (signerDigest (sigBlock bs))) then some { code := cSigner, step := 4 }
  else if !sigOk then some { code := cSignature, step := 5 }
  else none

end Sys2Proof.Machine
end

