-- ==== Sys2Proof/Machine/RegMap.lean ====
section
/-! DEFINITION. Where every register lies and what access its bits have (20 R468-R479, 21, 22 Table 22.2). -/

namespace Sys2Proof.Machine

/-- Who may write a register (22 Table 22.2). -/
inductive Right where
  /-- A register of RO fields alone: its writes are discarded (20 R472). -/
  | all
  | operator
  | installer
  | operatorInstaller
  /-- RCV_CMD: by the level of the value (17 R431). -/
  | level
  /-- Fault injection: installer or maker (18 R437). -/
  | inject
  /-- MI_ERR_STATUS: each role changes its own field alone (notes/assumptions/40.md). -/
  | split
  deriving DecidableEq, Repr

/-- A register word: the bits of each access, by mask, and who may write it. -/
structure RegWord where
  rw : Nat := 0
  grd : Nat := 0
  w1c : Nat := 0
  w1s : Nat := 0
  wo : Nat := 0
  right : Right := .all
  deriving DecidableEq, Repr

/-- All 32 bits. -/
abbrev full32 : Nat := 0xFFFFFFFF

/-- A word of RO fields alone. -/
def roWord : Option RegWord := some {}
/-- RW words of the installer and of the operator. -/
def rwInst (mask : Nat) : Option RegWord := some { rw := mask, right := .installer }
/-- An RW word of the operator. -/
def rwOper (mask : Nat) : Option RegWord := some { rw := mask, right := .operator }
/-- A guarded word of the installer. -/
def grdInst (mask : Nat) : Option RegWord := some { grd := mask, right := .installer }
/-- A W1C word of the operator. -/
def clearWord (mask : Nat) : Option RegWord := some { w1c := mask, right := .operator }

/-- GLB (Table 21.2). -/
def glbWord (o : Nat) : Option RegWord :=
  match o with
  | 0x000 => roWord
  | 0x004 => roWord
  | 0x008 => clearWord 0x7F
  | 0x00C => rwOper 0x7F
  | 0x010 => rwOper full32
  | _ => none

/-- PLT (Table 21.3). -/
def pltWord (o : Nat) : Option RegWord :=
  if o = 0x000 then some { wo := 0xF0F, right := .installer }
  else if o = 0x004 then grdInst 0xF
  else if o = 0x014 then clearWord 0x10000
  else if o = 0x020 ∨ o = 0x024 then rwInst full32
  else if o ≤ 0x01C ∨ (0x040 ≤ o ∧ o ≤ 0x08C) then roWord
  else none

/-- SEC (Table 21.6). -/
def secWord (o : Nat) : Option RegWord :=
  if o ≤ 0x008 then roWord
  else if o = 0x010 then some { w1s := 3, right := .all }
  else if 0x018 ≤ o ∧ o ≤ 0x05C then roWord
  else if 0x100 ≤ o ∧ o < 0x300 then rwInst full32
  else if o = 0x300 then rwInst 0xFFFF
  else none

/-- PWR (Table 21.7). -/
def pwrWord (o : Nat) : Option RegWord :=
  if o = 0 ∨ o = 4 then grdInst full32
  else if o = 8 then grdInst 0xFFFF
  else if (0x10 ≤ o ∧ o ≤ 0x18) ∨ (0x20 ≤ o ∧ o ≤ 0x28) ∨ o = 0x30 then roWord
  else none

/-- A die code of R501. -/
def dieCode (t : Nat) : Bool := decide (t ≤ 24) || (decide (32 ≤ t) && decide (t ≤ 47))

/-- THM (Table 21.8). -/
def thmWord (o : Nat) : Option RegWord :=
  if o = 0 then grdInst 0xFFFFFF
  else if o = 4 ∨ (0x100 ≤ o ∧ dieCode ((o - 0x100) / 4) = true) then roWord
  else none

/-- RCV (17 Table 17.5). -/
def rcvWord (o : Nat) : Option RegWord :=
  match o with
  | 0x000 => some { rw := full32, right := .operatorInstaller }
  | 0x004 => some { grd := 7, right := .level }
  | 0x008 => clearWord 0x20
  | 0x00C => roWord
  | 0x010 => roWord
  | _ => none

/-- FI (18 Table 18.2). -/
def fiWord (o : Nat) : Option RegWord :=
  let put := fun (m : Nat) => some ({ rw := m, right := .inject } : RegWord)
  if o = 0x400 then some { grd := 0xFF, right := .inject }
  else if o = 0x404 then roWord
  else if o < 0x200 then
    (match o % 0x40 with
     | 0x00 => put 0xFF
     | 0x04 => put 0x1FFFFF
     | 0x08 => put full32
     | 0x0C => put full32
     | 0x10 => put full32
     | 0x14 => roWord
     | _ => none)
  else none

/-- MI (19 Table 19.5). -/
def miWord (o : Nat) : Option RegWord :=
  match o with
  | 0x000 => grdInst 7
  | 0x004 => rwInst 0xFF
  | 0x008 => rwInst 0xFFFF
  | 0x00C => rwInst 0xFFFF
  | _ => none

/-- SYN (Table 21.5). -/
def synWord (o : Nat) : Option RegWord :=
  if o = 0 then grdInst 1 else if 0x100 ≤ o ∧ o < 0x200 then roWord else none

/-- EMB (Table 21.10). -/
def embWord (o : Nat) : Option RegWord :=
  if o ≤ 0x00C then grdInst full32
  else if o ≤ 0x01C then rwOper full32
  else if 0x100 ≤ o ∧ o < 0x900 ∧ o % 0x20 ≠ 4 ∧ o % 0x20 ≤ 0x14 then roWord
  else none

/-- ASU (Table 21.10). -/
def asuWord (o : Nat) : Option RegWord := if 0x100 ≤ o ∧ o < 0x500 then roWord else none

/-- YZ (Table 21.9). -/
def yzWord (o : Nat) : Option RegWord :=
  match o with
  | 0x000 => rwInst 0xFFF
  | 0x004 => rwInst 0xFFFF
  | 0x008 => rwInst 0x7777
  | 0x00C => rwInst 0xFFFFF
  | 0x010 => rwInst 0xFFFF
  | 0x014 => rwInst 0xFFFFFF
  | o =>
    let l := (o - 0x1000) / 0x100
    let q := o % 0x100
    if o < 0x1000 ∨ 16 < l then none
    else if q ≤ 0x10 then rwInst full32
    else if q = 0x14 then rwInst (if l % 2 = 1 then 0x1F else 0x1B)
    else if 0x20 ≤ q ∧ q ≤ 0x9C then grdInst full32
    else none

/-- A channel's registers (Table 21.4). -/
def chWord (q : Nat) : Option RegWord := if q = 0x0C ∨ 0x48 < q then none else roWord

/-- A reef's status registers (Tables 21.5, 21.11). -/
def reefWord (o : Nat) : Option RegWord :=
  if o = 0 ∨ (0x100 ≤ o ∧ o < 0x1C0) ∨ (0x200 ≤ o ∧ o < 0x2C0) then roWord else none

/-- The integrity registers of a holder (Table 21.10). -/
def holderWord (o : Nat) : Option RegWord :=
  if o = 0x800 then some { rw := 2, w1c := 1, right := .split }
  else if o = 0x804 then rwInst full32
  else if o = 0x808 ∨ (0xC00 ≤ o ∧ o < 0x1000) then roWord
  else none

/-- An island's registers (Tables 21.5, 21.11). -/
def islWord (o : Nat) : Option RegWord :=
  if o = 0 ∨ o = 8 ∨ o = 12 ∨ o = 0x408 ∨ (0x500 ≤ o ∧ o < 0x600) then roWord
  else if o = 0x400 then clearWord 1
  else if o = 0x404 then rwOper full32
  else holderWord o

/-- A strait die's registers. -/
def straitWord (o : Nat) : Option RegWord := if o = 0 then roWord else holderWord o

/-- A peer entry and its windows (Table 21.9). -/
def peerWord (o : Nat) : Option RegWord :=
  if o < 0x40 then
    (if o = 0x20 then grdInst 0x7FFFF else rwInst (if o = 0x24 then 0x1FFFFFF else if 0x38 ≤ o then 0 else full32))
  else if 0x1000 ≤ o ∧ o < 0x1800 then
    (if o % 0x20 = 0x10 then grdInst 0xFFF else rwInst (if 0x10 < o % 0x20 then 0 else full32))
  else none

/-! ## Counters (R476, R505, Table 21.12) -/

/-- Counter numbers of an island. -/
def islCounter (c : Nat) : Bool := decide (c ≤ 6) || (decide (8 ≤ c) && decide (c < 22)) || (decide (24 ≤ c) && decide (c ≤ 27))
/-- Counter numbers of a strait die. -/
def straitCounter (c : Nat) : Bool :=
  decide (c ≤ 92) || (decide (96 ≤ c) && decide (c ≤ 108)) || (decide (112 ≤ c) && decide (c ≤ 124))
/-- Counter numbers of a harbour and of the cape. -/
def portCounter (c : Nat) : Bool := decide (c ≤ 6) || (decide (8 ≤ c) && decide (c ≤ 11))

/-- The counter pair at an 8-aligned offset: its snapshot index. -/
def counterPair (off : Nat) : Option Nat :=
  let w := off / 0x10000
  let o := off % 0x10000
  let c := (o - 0x1000) / 8
  let unit := fun (ok : Bool) (i : Nat) => if decide (0x1000 ≤ o) && ok then some i else none
  if off = 0x00020018 then some regErrCnt
  else if off = 0x00090100 then some mirrorCnt
  else if w = 7 then (if 0x100 ≤ o ∧ o < 0x148 then some (rcvCnt ((o - 0x100) / 8)) else none)
  else if w = 8 then
    (if o < 0x200 ∧ (o % 0x40 = 0x20 ∨ o % 0x40 = 0x28 ∨ o % 0x40 = 0x30) then some (fiCnt (o / 0x40) ((o % 0x40 - 0x20) / 8)) else none)
  else if w = 0xD then
    (if 0x1000 ≤ o ∧ o < 0x2100 ∧ 0xA0 ≤ o % 0x100 ∧ o % 0x100 < 0xE0 then some (linkCnt ((o - 0x1000) / 0x100) ((o % 0x100 - 0xA0) / 8))
     else none)
  else if 0x100 ≤ w ∧ w < 0x180 then unit (decide (c ≤ 93)) (reefCnt (w - 0x100) c)
  else if 0x180 ≤ w ∧ w < 0x190 then unit (islCounter c) (islCnt (w - 0x180) c)
  else if 0x190 ≤ w ∧ w < 0x194 then unit (straitCounter c) (straitCnt (w - 0x190) c)
  else if 0x194 ≤ w ∧ w < 0x198 then unit (portCounter c) (harbourCnt (w - 0x194) c)
  else if w = 0x198 then unit (portCounter c) (capeCnt c)
  else if 0x200 ≤ w ∧ w < 0x600 then
    (if 0x2000 ≤ o ∧ o < 0x2030 then some (peerCnt (w - 0x200) ((o - 0x2000) / 8)) else none)
  else none

/-- A snapshot index that Table 21.13 assigns. -/
def snapIndex (i : Nat) : Bool :=
  let c := i % 128
  let u := (i - 32768) / 128
  if i < 32768 then decide (i % 8192 < 4096) && decide (c ≤ 93)
  else if i < 35968 then
    (if u < 16 then islCounter c else if u < 20 then straitCounter c else portCounter c)
  else if i < 35979 then true
  else if i < 35984 then false
  else if i < 36008 then true
  else if i < 36096 then false
  else if i < 36232 then true
  else decide (40960 ≤ i) && decide (i < 57344) && decide (i % 8192 < 4096) && decide (i % 8 ≤ 5)

/-- A word of a snapshot bank: whether it is bank B, its index, and whether it is the high word. -/
def bankWord (off : Nat) : Option (Bool × Nat × Bool) :=
  let at_ := fun (b : Bool) (o : Nat) => if snapIndex (o / 8) then some (b, o / 8, decide (o % 8 = 4)) else none
  if 0x00400000 ≤ off ∧ off < 0x00480000 then at_ false (off - 0x00400000)
  else if 0x00800000 ≤ off ∧ off < 0x00880000 then at_ true (off - 0x00800000)
  else none

/-- A word of a counter pair: its index, and whether it is the high word. -/
def counterWord (off : Nat) : Option (Nat × Bool) :=
  (counterPair (off / 8 * 8)).map (fun i => (i, decide (off % 8 = 4)))

/-! ## The register at an offset (R468, R469) -/

/-- The register word at an offset; nothing where there is none. -/
def regAt (off : Nat) : Option RegWord :=
  let w := off / 0x10000
  let o := off % 0x10000
  if 0x400000000 ≤ off ∨ off % 4 ≠ 0 ∨ 0x8000 ≤ o then none
  else if (counterWord off).isSome then some { rw := full32, right := .operator }
  else if (bankWord off).isSome then roWord
  else if w < 0x10 then
    (match w with
     | 0x0 => glbWord o
     | 0x1 => if o = 0 then some { wo := 1, right := .all } else if o = 4 then roWord else none
     | 0x2 => if o = 0 then clearWord 1 else if o ≤ 0x10 then roWord else none
     | 0x3 => pltWord o
     | 0x4 => secWord o
     | 0x5 => pwrWord o
     | 0x6 => thmWord o
     | 0x7 => rcvWord o
     | 0x8 => fiWord o
     | 0x9 => miWord o
     | 0xA => synWord o
     | 0xB => embWord o
     | 0xC => asuWord o
     | 0xD => yzWord o
     | _ => none)
  else if 0x10 ≤ w ∧ w < 0x30 then chWord (o % 0x100)
  else if 0x100 ≤ w ∧ w < 0x180 then reefWord o
  else if 0x180 ≤ w ∧ w < 0x190 then islWord o
  else if 0x190 ≤ w ∧ w < 0x194 then straitWord o
  else if 0x194 ≤ w ∧ w < 0x199 then holderWord o
  else if 0x200 ≤ w ∧ w < 0x600 then peerWord o
  else none

/-- What an offset names: a register, the complement port of a guarded one, or nothing. -/
inductive RegName where
  | reg (w : RegWord)
  | port (off : Nat) (w : RegWord)
  | none
  deriving DecidableEq, Repr

/-- The name of an offset (R468). -/
def regName (off : Nat) : RegName :=
  match regAt off with
  | some w => .reg w
  | none =>
    if off / 0x8000 % 2 = 1 then
      (match regAt (off - 0x8000) with
       | some w => if w.grd ≠ 0 then .port (off - 0x8000) w else .none
       | none => .none)
    else .none

/-- A word has only RO fields. -/
def RegWord.readOnly (w : RegWord) : Bool := decide (w.rw = 0 ∧ w.grd = 0 ∧ w.w1c = 0 ∧ w.w1s = 0 ∧ w.wo = 0)

/-- A register that PARAM may name (02 R568): it has a field of access RW, RWS or GRD and is no complement port. -/
def paramReg (off : Nat) : Bool :=
  match regAt off with
  | some w => decide (w.rw ≠ 0) || decide (w.grd ≠ 0)
  | none => false

/-- The role may write the register (22 R511); `v` is the value for RCV_CMD. -/
def mayWrite (r : Role) (w : RegWord) (v : Nat) : Bool :=
  if r = .none then false
  else match w.right with
    | .all => true
    | .operator => decide (r = .operator)
    | .installer => decide (r = .installer)
    | .operatorInstaller => decide (r = .operator) || decide (r = .installer)
    | .level =>
      let l := v % 8
      if l = 1 then decide (r = .operator)
      else if 2 ≤ l ∧ l ≤ 4 then decide (r = .installer)
      else decide (r = .operator) || decide (r = .installer)
    | .inject => decide (r = .installer) || decide (r = .maker)
    | .split => decide (r = .operator) || decide (r = .installer)

/-- The write is one that Table 22.2 reserves to the installer or the maker (22 R513). -/
def auditedWrite (r : Role) (w : RegWord) : Bool :=
  match w.right with
  | .installer => true
  | .operatorInstaller => decide (r = .installer)
  | .level => true
  | .inject => true
  | .split => decide (r = .installer)
  | _ => false

end Sys2Proof.Machine
end

