-- ==== Sys2Proof/Machine/PlateEntries.lean ====
section
/-! DEFINITION. The rest of step 6 of 02 Table 2.9: the section layouts of R568-R571 and the entry rules that refuse at load
(R185, R198, R204, R209, R227, R236, R267, R281, R318, R337, R340, R352). -/

namespace Sys2Proof.Machine

/-- A value lies in a range. -/
def within (lo v hi : Nat) : Bool := decide (lo ≤ v) && decide (v ≤ hi)

/-! ## PARAM (R568) -/

/-- A PARAM section. -/
def paramSectionOk (d : List Byte) : Bool :=
  let n := d.length / 16
  decide (d.length % 16 = 0) && within 1 n 4096
    && (chunks 16 d).all (fun p => paramReg (u64At p 0) && zeroAt p 12 4)

/-! ## SYNC_ASSIGN (R570) -/

/-- An object record. -/
def objRecordOk (b : List Byte) : Bool :=
  let c := u16At b 0
  decide (u16At b 2 ≤ c) && (if c = 0 then decide (u32At b 4 = 0) else within 1 (u32At b 4) 0xFFFFFF)

/-- The barrier records: their values, and the bytes left after them. -/
def barriersOk : Nat → Int → List Byte → Bool
  | 0, _, b => b.isEmpty
  | n + 1, last, b =>
    let pc := u16At b 10
    let nc := u16At b 12
    let m := 32 + 2 * pc + 2 * nc
    decide (32 ≤ b.length) && decide (roundUp m 8 ≤ b.length) && decide (last < (u8At b 0 : Int)) && decide (u8At b 0 ≤ 63)
      && zeroAt b 1 1 && within 2 (u16At b 2) 2048 && within 1 (u32At b 4) 0xFFFFFF && decide (u16At b 8 ≤ 0xFFF)
      && decide (pc ≤ 512) && decide (nc ≤ 2047) && (decide (u16At b 8 = 0xFFF) || decide (nc = 0)) && zeroAt b 14 18
      && (List.range pc).all (fun i => decide (u16At b (32 + 2 * i) < 512))
      && (List.range nc).all (fun i => decide (u16At b (32 + 2 * pc + 2 * i) ≤ 4094)) && zeroAt b m (roundUp m 8 - m)
      && barriersOk n (u8At b 0 : Int) (b.drop (roundUp m 8))

/-- A SYNC_ASSIGN section. -/
def syncSectionOk (d : List Byte) : Bool :=
  decide (3104 ≤ d.length) && (List.range 384).all (fun k => objRecordOk ((d.drop (8 * k)).take 8))
    && decide (u32At d 3072 ≤ 64) && zeroAt d 3076 28 && barriersOk (u32At d 3072) (-1) (d.drop 3104)

/-- The records of one barrier agree over the islands, and its participants sum to P (R570, R352). -/
def barriersAgree (p : Plate) (c : Nat) : Bool :=
  (List.range 64).all (fun b =>
    match (sectionsIn p c 4).filterMap (fun x => (barRecs x.data).find? (fun r => r.num = b)) with
    | [] => true
    | r :: t =>
      t.all (fun q => decide (q.p = r.p ∧ q.timeout = r.timeout ∧ q.root = r.root ∧ q.nodes = r.nodes))
        && decide ((r :: t).foldl (fun n q => n + q.parts.length) 0 + r.nodes.length = r.p))

/-! ## SEQ_PROGRAM (R569, R337, R340, R352) -/

/-- CEILING of slot `k` (48 x reef + slot) in the SYNC_ASSIGN section of island `i`. -/
def ceilingIn (p : Plate) (c i k : Nat) : Nat := ((sectionIn p c 4 i 255).map (fun x => u16At x.data (8 * k))).getD 0

/-- Lists on which an opcode may carry ATTACH. -/
def attachOp (op : Nat) : Bool := op = 0x32 || op = 0x35 || op = 0x40 || op = 0x50

/-- The object of WAIT and DECREMENT: assigned and of the list's own reef. -/
def ownObject (p : Plate) (c k o : Nat) : Bool := decide (o / 48 = k / 64) && decide (ceilingIn p c (o / 384) (o % 384) ≠ 0)

/-- A barrier that the plate defines, with the list among its participants. -/
def namesBarrier (p : Plate) (c k b : Nat) : Bool :=
  match barPlan p c b with
  | none => false
  | some x => x.lists.contains k

/-- A command of list `k` keeps Table 14.2, R89, R340 and R352. -/
def seqCmdOk (p : Plate) (c k : Nat) (x : SeqCmd) : Bool :=
  let w := x.word / 256 % 2 ^ 23
  let plain := decide (w = 0) && decide (x.arg = 0) && decide (x.addr = 0)
  let timed := decide (x.addr < 2 ^ 24)
  let share := k / 64 % 8 * 0x01800000
  let line := decide (x.addr % 32 = 0) && decide (share ≤ x.addr) && decide (x.addr < share + 0x01800000)
  (!x.attach || attachOp x.op) &&
    (match x.op with
     | 0x00 => plain
     | 0x01 => plain
     | 0x02 => plain
     | 0x03 => decide (w = 0) && decide (x.arg ≤ 4095) && decide (x.addr = 0)
     | 0x10 => decide (w < 8192) && within 1 x.arg 65535 && decide (x.addr = 0)
     | 0x11 => decide (w < 8192) && ownObject p c k w && within 1 x.arg (ceilingIn p c (w / 384) (w % 384)) && timed
     | 0x12 => decide (w < 8192) && ownObject p c k w && within 1 x.arg 65535 && decide (x.addr = 0)
     | 0x14 => decide (w < 64) && namesBarrier p c k w && decide (x.arg = 0) && decide (x.addr = 0)
     | 0x15 => decide (w < 64) && namesBarrier p c k w && decide (x.arg = 0) && timed
     | 0x16 => decide (w < 64) && namesBarrier p c k w && decide (x.arg = 0) && timed
     | 0x30 => decide (w < 16) && decide (x.arg = 0) && decide (x.addr = 0)
     | 0x31 => decide (w < 32) && decide (x.arg = 0) && decide (x.addr = 0)
     | 0x32 => decide (w < 16) && decide (x.arg = 0) && line
     | 0x33 => decide (w < 16) && decide (x.arg = 0) && line
     | 0x34 => decide (w < 16) && decide (x.arg = 0) && line
     | 0x35 => decide (w < 16) && decide (x.arg = 0) && line
     | 0x40 => decide (w = 0)
     | 0x50 => decide (w ≤ 10) && decide (x.addr = 0)
     | _ => false)

/-- A command with ATTACH is followed by SIGNAL. -/
def attachFollowed : List SeqCmd → Bool
  | [] => true
  | x :: t => (!x.attach || (match t with | y :: _ => decide (y.op = 0x10) | [] => false)) && attachFollowed t

/-- A SEQ_PROGRAM section of an island and sheet. -/
def seqSectionOk (p : Plate) (c : Nat) (x : Section) : Bool :=
  let ls := progLens x.data
  decide (512 ≤ x.data.length) && ls.all (fun n => decide (n ≤ 4096)) && decide (x.data.length = 512 + 16 * ls.foldl (· + ·) 0)
    && (List.range 128).all (fun q =>
      let cs := progList x.data (q / 16) (q % 16)
      attachFollowed cs && cs.all (seqCmdOk p c (listNum (8 * x.island + q / 16) x.sheet (q % 16))))

/-! ## Records (R571) -/

/-- The header of a record keeps Table 2.14. -/
def recHeadOk (r : PRec) : Bool :=
  (decide (r.reef ≤ 7) || decide (r.reef = 255)) && (decide (r.unit ≤ 10) || decide (r.unit = 255))

/-- INDEX values of a kind (Table 2.15). -/
def recIndexMax (k : Nat) : Nat :=
  if k = 3 then 4095 else if k = 4 ∨ k = 5 ∨ k = 6 ∨ k = 7 then 15 else if k = 13 then 63
  else if k = 0x10 ∨ k = 0x200 ∨ k = 0x201 then 255 else if k = 0x100 ∨ k = 0x101 then 4095
  else if k = 0x301 then 63 else 0

/-- The section that may hold a kind. -/
def recSection (k : Nat) : Nat :=
  if 1 ≤ k ∧ k ≤ 16 then 2 else if 0x100 ≤ k ∧ k ≤ 0x103 then 5 else if k = 0x200 ∨ k = 0x201 then 6
  else if k = 0x300 ∨ k = 0x301 then 7 else 0

/-- A region number or none. -/
def regionRef (p : Plate) (c n : Nat) : Bool := decide (n = 0xFFFF) || (regionNum p c n).isSome

/-- A Hatch boundary list as TABLE_INIT gives it: the FP32 words at an offset of a reef's share; nothing where a word of it is
not given (notes/assumptions/41.md). -/
def initWord (p : Plate) (c i reef off : Nat) : Option Nat :=
  ((((sectionIn p c 7 i 255).map recsOf).getD []).filter (fun r =>
      r.kind = 0x300 && r.reef = reef && decide (u32At r.body 0 ≤ off) && decide (off + 4 ≤ u32At r.body 0 + (r.body.length - 8)))).getLast?.map
    (fun r => u32At r.body (8 + (off - u32At r.body 0)))

/-- Numbers ascend strictly, none NaN. -/
def ascending : List Num → Bool
  | [] => true
  | [a] => decide (a ≠ .nan)
  | a :: b :: t => a.lt b && ascending (b :: t)

/-- A finite FP32 word. -/
def fp32Finite (w : Nat) : Bool := match floatVal 10 w with | .fin .. => true | _ => false

/-- Key streams of Table 8.3. -/
def keyStreamsOk (b : List Byte) (off n : Nat) : Bool :=
  (List.range 8).all (fun i => if i < n then decide (u8At b (off + i) ≤ 62) else decide (u8At b (off + i) = 0))

/-- A Hatch entry (08 Table 8.3, R198). -/
def hatchRecOk (p : Plate) (c : Nat) (r : PRec) : Bool :=
  let b := r.body
  let fn := u8At b 0
  let n := u32At b 4
  within 1 fn 6 && within 1 (u8At b 1) 8 && (!(fn = 4 || fn = 5) || decide (u8At b 1 = 1)) && decide (u8At b 2 ≤ 62) && zeroAt b 3 1
    && keyStreamsOk b 8 (u8At b 1) && (fn = 3 || fn = 6 || zeroAt b 16 8) && zeroAt b 0x26 2 && zeroAt b 0x2C 4
    && (if fn = 4 then decide (1 ≤ n) && fp32Finite (u32At b 0x18) && fp32Finite (u32At b 0x1C)
          && Num.lt (.fin false 0 1) (floatVal 10 (u32At b 0x1C))
        else if fn = 6 then decide (1 ≤ n)
        else if fn = 5 then
          decide (n = u16At b 0x24 + 1) && decide (u32At b 0x20 % 32 = 0) && within 1 (u16At b 0x24) 4096
            && (match (List.range (u16At b 0x24)).mapM (fun i => initWord p c r.island r.reef (u32At b 0x20 + 4 * i)) with
                | some ws => ascending (ws.map (floatVal 10))
                | none => false)
        else decide (n = 0))

/-- A normalisation entry (08 Table 8.5, R204). -/
def normRecOk (b : List Byte) : Bool :=
  let k := u8At b 0
  decide (k ≤ 3) && decide (u8At b 1 < 4) && decide (u8At b 2 ≤ 62) && (u8At b 3 = 8 || u8At b 3 = 9 || u8At b 3 = 10)
    && (if k = 1 ∨ k = 2 then decide (u16At b 4 ≤ 255) else decide (u16At b 4 = 0)) && zeroAt b 6 2 && zeroAt b 0x18 8
    && fp32Finite (u32At b 8) && !(floatVal 10 (u32At b 8)).lt (.fin false 0 1) && fp32Finite (u32At b 12)
    && fp32Finite (u32At b 16) && !(floatVal 10 (u32At b 16)).lt (floatVal 10 (u32At b 12))

/-- The ASU table of a join or near-duplicate entry of method 1 or 2 (R209, R236). -/
def joinTableOk (p : Plate) (c method n : Nat) : Bool :=
  match (asuTabs p c).find? (fun t => t.num = n) with
  | none => false
  | some t => decide (t.sides = 2) && (t.ternary == decide (method = 1))

/-- TABLE_BASE of a join table. -/
def tableBaseOk (a : Nat) : Bool := decide (a % 64 = 0) && decide (a / 2 ^ 52 = 4095)

/-- A join entry (08 Table 8.7, R209). -/
def joinRecOk (p : Plate) (c : Nat) (b : List Byte) : Bool :=
  let k := u8At b 0
  let m := u8At b 1
  decide (k ≤ 3) && decide (m ≤ 3) && within 1 (u8At b 2) 8 && keyStreamsOk b 8 (u8At b 2)
    && (if k ≤ 1 then decide (1 ≤ u16At b 4) && decide (u8At b 6 ≤ 62) else decide (u16At b 4 = 0) && decide (u8At b 6 = 0))
    && (if k = 1 then decide (u8At b 7 ≤ 62) else decide (u8At b 7 = 255)) && tableBaseOk (u64At b 16)
    && (if m = 1 ∨ m = 2 then joinTableOk p c m (u8At b 24) else decide (u8At b 24 = 0)) && zeroAt b 25 7

/-- A near-duplicate entry (02 Table 2.15, 0x0009). -/
def nearRecOk (p : Plate) (c : Nat) (b : List Byte) : Bool :=
  decide (u8At b 0 ≤ 62) && within 1 (u8At b 1) 64 && within 1 (u8At b 2) 64 && within 1 (u8At b 3) 16
    && decide (u8At b 2 * u8At b 3 ≤ 256) && decide (u8At b 4 ≤ 1) && within 1 (u8At b 5) 2 && joinTableOk p c (u8At b 5) (u8At b 6)
    && zeroAt b 7 1 && tableBaseOk (u64At b 16) && zeroAt b 24 8

/-- A shuffle entry (02 Table 2.15, 0x000A; R227). -/
def shufRecOk (b : List Byte) : Bool :=
  let d := u16At b 6
  within 1 (u32At b 0) (2 ^ 20) && zeroAt b 5 1 && within 1 d 4096 && decide (u32At b 8 % 32 = 0) && within 64 (u32At b 8) (2 ^ 20)
    && zeroAt b 12 4 && zeroAt b 24 8 && decide (b.length = 32 + 24 * d)
    && (List.range d).all (fun i =>
      let o := 32 + 24 * i
      decide (u16At b o < 4096) && decide (u8At b (o + 2) ≤ 15) && zeroAt b (o + 3) 5 && decide (u64At b (o + 8) < 2 ^ 52)
        && decide (u64At b (o + 16) < 2 ^ 52))

/-- The ENGINE record (02 Table 2.15, 0x0001). -/
def engineRecOk (p : Plate) (c : Nat) (b : List Byte) : Bool :=
  [0, 2, 4].all (fun o => regionRef p c (u16At b o)) && decide (u16At b 6 ≤ 1)
    && [8, 16, 24].all (fun o => decide (u64At b o % 32 = 0)) && [32, 36, 40].all (fun o => decide (u32At b o % 32 = 0)) && zeroAt b 44 4

/-- A REGION record: its view holds it (02 Table 2.15, 0x0100). -/
def regionRecOk (b : List Byte) : Bool :=
  let a := u64At b 0
  let n := u64At b 8
  let view := u8At b 16
  let place := u8At b 17
  decide (a % 32 = 0) && decide (n % 32 = 0) && decide (32 ≤ n) && decide (a + n ≤ 2 ^ 52) && decide (u8At b 18 ≤ 2) && zeroAt b 19 13
    && (match view with
        | 0 => decide (place = 255) && decide (a + n ≤ 0x010000000000)
        | 1 => decide (place ≤ 15) && decide (hbmKey place 0 ≤ a) && decide (a + n ≤ hbmKey place 0 + 0x1000000000)
        | 2 => decide (place ≤ 15) && decide (lagKey place 0 ≤ a) && decide (a + n ≤ lagKey place 0 + 0x10000000)
        | _ => false)

/-- An ASU table record (10 Table 10.1). -/
def asuRecOk (b : List Byte) : Bool :=
  let mode := u8At b 1
  let pl := u8At b 2
  let sel := u8At b 3
  let h := u16At b 4
  decide (u8At b 0 ≤ 63) && decide (mode ≤ 1) && decide (pl ≤ 7)
    && (if pl = 0 then decide (sel = 0) else decide (sel ≤ 2) && !(sel = 0 && mode = 1))
    && (decide (h = 0) || within 2 h 256) && within 1 (u8At b 6) 2 && zeroAt b 7 1 && within 16 (u32At b 12) (2 ^ 23)
    && (u8At b 6 = 2 || decide (u32At b 16 = 0)) && zeroAt b 0x14 4 && (sel = 0 || zeroAt b 0x18 8) && zeroAt b 0x28 24
    && (if mode = 0 then decide (u64At b 0x20 % 32 = 0) else decide (u64At b 0x20 % 64 = 0) && decide (u64At b 0x20 / 2 ^ 52 = 4095))

/-- An embedding table record (12 Table 12.1, R281). -/
def embRecOk (b : List Byte) : Bool :=
  let c := u16At b 2
  let rows := u64At b 0x10
  let dr := u64At b 0x18
  let d := fun (o : Nat) => if dr = 0 then decide (u64At b o = 0) else decide (u64At b o % 4096 = 0)
  decide (u8At b 0 ≤ 63) && (u8At b 1 = 3 || u8At b 1 = 4) && within 4 c 4096 && decide (c % 4 = 0)
    && within (u32At b 4 + c) (u32At b 8) (2 ^ 20) && zeroAt b 12 4 && within 1 rows (2 ^ 36) && decide (dr ≤ rows)
    && decide (u64At b 0x28 % 4096 = 0) && d 0x30 && d 0x38 && decide (u64At b 0x40 % 4096 = 0) && decide (1 ≤ u32At b 0x48)
    && decide (rows + 16384 ≤ 16 * u32At b 0x48) && decide (u32At b 0x4C ≤ 65535) && decide (u32At b 0x50 ≤ 16384) && zeroAt b 0x54 44

/-- An INLET record (02 Table 2.15, 0x0200). -/
def inletRecOk (b : List Byte) : Bool :=
  let n := u8At b 3
  decide (u8At b 2 ≤ 3) && within 1 n 8 && zeroAt b 4 4 && zeroAt b 40 8
    && (List.range 8).all (fun i =>
      let f := u16At b (8 + 4 * i)
      let l := u16At b (10 + 4 * i)
      if i < n then decide (1 ≤ f) && decide (f ≤ l) && decide (l ≤ 0x7FFF) else decide (f = 0) && decide (l = 0))

/-- A stage that some ENGINE_BIND record carries. -/
def stageDefined (p : Plate) (c st : Nat) : Bool := (recordsIn p c 2).any (fun r => r.stage = st && decide (st ≠ 0xFFFF))

/-- A CHAIN record (02 Table 2.15, 0x0201). -/
def chainRecOk (p : Plate) (c : Nat) (r : PRec) : Bool :=
  let n := u16At r.body 0
  within 1 n 64 && decide (r.body.length = 2 + 2 * n) && (chainOf r).all (stageDefined p c)
    && (recordsIn p c 6).any (fun q => q.kind = 0x200 && q.index = r.index && decide (u16At q.body 0 = u16At r.body 2))

/-- An ASU_ENTRIES record (02 Table 2.15, 0x0301). -/
def entriesRecOk (p : Plate) (c : Nat) (r : PRec) : Bool :=
  match (asuTabs p c).find? (fun t => t.num = r.index) with
  | none => false
  | some t =>
    decide (8 ≤ r.body.length) && decide ((r.body.length - 8) % 64 = 0) && decide (u16At r.body 0 < t.parts)
      && decide (u8At r.body 2 < t.sides) && zeroAt r.body 3 1 && decide (u32At r.body 4 + (r.body.length - 8) / 64 ≤ t.size)

/-- Body bytes of the kinds of fixed length. -/
def recLength (k : Nat) : Option Nat :=
  match k with
  | 1 => some 48
  | 2 => some 64
  | 3 => some 32
  | 5 => some 32
  | 6 => some 48
  | 7 => some 32
  | 8 => some 96
  | 9 => some 32
  | 11 => some 16
  | 12 => some 64
  | 13 => some 384
  | 14 => some 64
  | 15 => some 16
  | 16 => some 8
  | 0x100 => some 32
  | 0x101 => some 8
  | 0x102 => some 64
  | 0x103 => some 128
  | 0x200 => some 48
  | _ => none

/-- The body of a record keeps Table 2.15 and the entry rules of its chapter. BINDING, STIPPLE_OP, GRAVER_PARAMS and the other
fields of SELECT are judged when the stage runs, as R157, R185, R126 and R267 say (notes/assumptions/41.md). -/
def recBodyOk (p : Plate) (c : Nat) (r : PRec) : Bool :=
  let b := r.body
  (match recLength r.kind with | some n => decide (b.length = n) | none => true) &&
    (match r.kind with
     | 1 => engineRecOk p c b
     | 2 => zeroAt b 0x20 8
     | 6 => hatchRecOk p c r
     | 7 => normRecOk b
     | 8 => joinRecOk p c b
     | 9 => nearRecOk p c b
     | 10 => shufRecOk b
     | 11 => zeroAt b 8 8
     | 12 => packBodyOk b
     | 13 => (transformOf b).ok && (transformOf b).aligned
     | 14 => decide (u8At b 0 ≠ 1) || within 1 (u8At b 4) 64
     | 15 => (embTabs p c).any (fun t => t.id = u8At b 0) && decide (u8At b 1 ≤ 4) && [2, 3, 4].all (fun o => decide (u8At b o ≤ 62)) && zeroAt b 5 11
     | 16 => within 1 (u8At b 0) 5 && zeroAt b 1 3 && decide (u32At b 4 % 8 = 0)
     | 0x100 => regionRecOk b
     | 0x101 => decide (u8At b 0 < 4) && zeroAt b 1 7 && (regionNum p c r.index).isSome && stageDefined p c r.stage
     | 0x102 => asuRecOk b
     | 0x103 => embRecOk b
     | 0x200 => inletRecOk b && stageDefined p c (u16At b 0)
     | 0x201 => chainRecOk p c r
     | 0x300 => decide (r.reef ≤ 7) && decide (8 ≤ b.length) && decide (u32At b 0 % 32 = 0) && zeroAt b 4 4
         && decide (u32At b 0 + (b.length - 8) ≤ 0x01800000)
     | 0x301 => entriesRecOk p c r
     | _ => true)

/-- No two records of a section share kind, STAGE, REEF, UNIT and INDEX. -/
def recsDistinct (rs : List PRec) : Bool :=
  allPairs (fun a b => !decide (a.kind = b.kind ∧ a.stage = b.stage ∧ a.reef = b.reef ∧ a.unit = b.unit ∧ a.index = b.index)) rs

/-- A section of records (R571). -/
def recSectionOk (p : Plate) (c : Nat) (x : Section) : Bool :=
  match parseRecs? x with
  | none => false
  | some rs =>
    recsDistinct rs && rs.all (fun r => recHeadOk r && decide (recSection r.kind = x.kind) && decide (r.index ≤ recIndexMax r.kind) && recBodyOk p c r)

/-! ## Rules over a whole configuration -/

/-- SECTION_OFFSET records of one inlet do not overlap; a record repeated for another unit is the same section (R571). -/
def offsetsOk (p : Plate) (c : Nat) : Bool :=
  allPairs (fun a b =>
    decide (a.index ≠ b.index) || decide (a.body = b.body)
      || (let oa := u32At a.body 4
          let ob := u32At b.body 4
          decide (oa + sectionBytes (u8At a.body 0) ≤ ob) || decide (ob + sectionBytes (u8At b.body 0) ≤ oa)))
    ((recordsIn p c 2).filter (fun r => r.kind = 0x10))

/-- Position ranges of a table, one for each side: first and length. -/
def asuRanges (t : AsuTab) : List (Nat × Nat) := (List.range t.sides).map (fun sd => (t.pos sd 0 0, t.parts * t.size))

/-- Two ranges are apart. -/
def apartRange (a b : Nat × Nat) : Bool := decide (a.1 + a.2 ≤ b.1) || decide (b.1 + b.2 ≤ a.1) || decide (a.2 = 0) || decide (b.2 = 0)

/-- The copy areas of a table (10 R238), in local addresses; those of a lost island are left out. -/
def copyAreas (t : AsuTab) (c : Nat) : List (Nat × Nat) :=
  if t.ternary then (asuRanges t).map (fun r => (t.copy % 2 ^ 52 + 64 * (r.1 - t.first), 64 * r.2))
  else
    (asuRanges t).flatMap (fun r => (List.range 128).filterMap (fun reef =>
      let lo := max r.1 (65536 * reef)
      let hi := min (r.1 + r.2) (65536 * (reef + 1))
      if lo < hi ∧ reef / 8 ≠ c then some (shareKey reef (t.copy + 32 * (lo % 65536)), 32 * (hi - lo)) else none))

/-- A declared region of a purpose (any for none) holds an area. -/
def declared (p : Plate) (c : Nat) (purpose : Option Nat) (a : Nat × Nat) : Bool :=
  decide (a.2 = 0) || (regionsIn p c).any (fun g => (match purpose with | some q => decide (g.purpose = q) | none => true)
    && decide (g.base ≤ a.1) && decide (a.1 + a.2 ≤ g.base + g.len))

/-- The ASU tables of a configuration (R236). -/
def asuTablesOk (p : Plate) (c : Nat) : Bool :=
  let ts := asuTabs p c
  decide (ts.length ≤ 64) && allPairs (fun a b => !decide (a.num = b.num)) ts
    && (ts.flatMap asuRanges).all (fun r => decide (r.1 + r.2 ≤ 2 ^ 23)) && allPairs apartRange (ts.flatMap asuRanges)
    && allPairs (fun a b => a.ternary || b.ternary || decide (a.copy = b.copy)) ts
    && ts.all (fun t => (copyAreas t c).all (declared p c (some 2)))

/-- A named area of an embedding table as HBM pages: the interleaved view's (R281), or a pool's of every stack. -/
inductive EmbArea where
  | wide (a n : Nat)
  | pool (o n : Nat)
  deriving DecidableEq, Repr

/-- The areas that a record names. -/
def embAreas (t : EmbTab) : List EmbArea :=
  [.wide t.ind (8 * t.rows), .wide t.d0 (t.deltaRows * t.drow), .wide t.d1 (t.deltaRows * t.drow), .pool t.pool (t.slots * t.rowBytes)]

/-- Two areas do not overlap: an interleaved page a lies at page a / 16 of stack a mod 16. -/
def embApart : EmbArea → EmbArea → Bool
  | .wide a n, .wide b m => apartRange (a, n) (b, m)
  | .pool a n, .pool b m => apartRange (a, n) (b, m)
  | .wide a n, .pool o m => decide (n = 0) || apartRange (a / 65536, (a + n - 1) / 65536 + 1 - a / 65536) (o / 4096, ceilDiv m 4096)
  | .pool o m, .wide a n => decide (n = 0) || apartRange (a / 65536, (a + n - 1) / 65536 + 1 - a / 65536) (o / 4096, ceilDiv m 4096)

/-- An area is declared; a pool on every stack that is not lost. -/
def embDeclared (p : Plate) (c : Nat) : EmbArea → Bool
  | .wide a n => declared p c none (a, n)
  | .pool o n => (List.range 16).all (fun k => decide (k = c) || declared p c none (hbmKey k o, n))

/-- The embedding tables of a configuration (R281). -/
def embTablesOk (p : Plate) (c : Nat) : Bool :=
  let ts := embTabs p c
  decide (ts.length ≤ 64) && allPairs (fun a b => !decide (a.id = b.id)) ts && allPairs embApart (ts.flatMap embAreas)
    && (ts.flatMap embAreas).all (embDeclared p c)

/-- The layout of a section under case `c`. -/
def sectionLayoutOk (p : Plate) (c : Nat) (x : Section) : Bool :=
  match x.kind with
  | 2 => recSectionOk p c x
  | 3 => seqSectionOk p c x
  | 4 => syncSectionOk x.data
  | 5 => recSectionOk p c x
  | 6 => recSectionOk p c x
  | 7 => recSectionOk p c x
  | 9 => paramSectionOk x.data
  | _ => true

/-- A configuration's part of step 6: the sections in force under case `c`, then its rules as a whole, and R48. -/
def configBad (p : Plate) (c : Nat) : Option LoadErr :=
  match ((List.range 11).flatMap (sectionsIn p c)).find? (fun x => sheetRuns c (sheetCount p c) x && !sectionLayoutOk p c x) with
  | some x => some { code := cSection, step := 6, island := x.island, case := x.case, sheet := x.sheet }
  | none =>
    if barriersAgree p c && offsetsOk p c && asuTablesOk p c && embTablesOk p c && saveRegionsOk p c then none
    else some { code := cSection, step := 6, case := c }

/-- The configurations that are checked: the normal one and every fallback case. -/
def planCases (p : Plate) : List Nat := normalCase :: maskCases p.mask.toNat

/-- Step 6 (Table 2.9), after the signature. -/
def step6 (bs : List Byte) : Option LoadErr :=
  if !tableOk bs then some { code := cSection, step := 6 }
  else (planCases (plateOf bs)).findSome? (configBad (plateOf bs))

/-! ## Fallback maps (R52) -/

/-- A record refers to island, stack or lagoon `n`: a region there, a table that begins there, an owner or a staging region of this device
(notes/assumptions/47.md). -/
def recRefers (s : State) (n : Nat) (r : PRec) : Bool :=
  let on := fun (a : Nat) => decide (homeIsland a = some n)
  match r.kind with
  | 0x100 => (let g := regionOf r; if g.view = 0 then spansStack g.base g.len n else decide (g.place = n))
  | 0x008 => nodeLocal s (BitVec.ofNat 64 (u64At r.body 16)) && on (u64At r.body 16 % 2 ^ 52)
  | 0x009 => nodeLocal s (BitVec.ofNat 64 (u64At r.body 16)) && on (u64At r.body 16 % 2 ^ 52)
  | 0x00A => (shufOf r.body).owners.any (fun o => ownerHere s o && (decide (o.island = n) || on o.region0 || on o.region1))
  | _ => false

/-- A section of case n refers to island `n`. -/
def sectionRefers (s : State) (n : Nat) (x : Section) : Bool :=
  decide (x.island = n)
    || ((x.kind = 2 || x.kind = 5) && (recsOf x).any (recRefers s n))
    || (x.kind = 3 && (List.range 128).any (fun q => (progList x.data (q / 16) (q % 16)).any (fun c =>
        (c.op = 0x10 || c.op = 0x11 || c.op = 0x12) && decide (c.word / 256 % 2 ^ 13 / 384 = n))))

/-- Step 10: the fallback maps of the mask, with their own case, island and resource. -/
def fallbackBad (s : State) (p : Plate) : Option LoadErr :=
  (maskCases p.mask.toNat).findSome? (fun n =>
    if (p.sections.filter (fun x => x.case = n)).any (sectionRefers s n) then some { code := cFallback, step := 10, case := n }
    else match fitBad p n with
      | some (i, r) => some { code := cFallback, step := 10, case := n, island := i, resource := r }
      | none => none)

/-- Step 8: R45 over every CELL_WIRING section. -/
def step8 (p : Plate) : Option LoadErr :=
  p.sections.findSome? (fun x =>
    if x.kind = 1 then
      (cellsBad x.data).map (fun q => { code := cCellConfig, step := 8, island := x.island, case := x.case, sheet := x.sheet,
                                        reef := q.1, row := q.2.1, col := q.2.2 })
    else none)

/-- Steps 1 to 10 on the bytes of a plate, in order (R59). -/
def loadChecks (s : State) (bs : List Byte) (sigOk : Bool) : Option LoadErr :=
  match plateFront s bs sigOk with
  | some e => some e
  | none =>
    match step6 bs with
    | some e => some e
    | none =>
      let p := plateOf bs
      match crcBad bs with
      | some e => some { code := cSectionCrc, step := 7, island := e.island, case := e.case, sheet := e.sheet }
      | none =>
        match step8 p with
        | some e => some e
        | none =>
          match fitBad p normalCase with
          | some (i, r) => some { code := cNoFit, step := 9, island := i, resource := r }
          | none => fallbackBad s p

end Sys2Proof.Machine
end

