-- ==== Sys2Proof/Machine/Plate.lean ====
section
/-! DEFINITION. Loading, proof, commit, abort and evict of plates, and sheets (02 R46-R68, 03 R93). -/

namespace Sys2Proof.Machine

/-- Domains tracked with the plate being loaded (R542). -/
def pwrTrack (s : State) : State := pwrTrackWith (loadingPlate s plateOf) s

/-! ## PLT_ERR and the records of plates -/

/-- PLT_ERR, PLT_ERR_DETAIL and PLT_ERR_CELL written (R59, 21 Table 21.3). -/
def pltErr (e : LoadErr) (s : State) : State :=
  alert 5 (rset 0x00030014 (BitVec.ofNat 32 (e.code.toNat + 0x10000))
    (rset 0x00030018 (BitVec.ofNat 32 (e.island + 2 ^ 8 * e.case + 2 ^ 16 * e.sheet + 2 ^ 24 * e.resource))
      (rset 0x0003001C (BitVec.ofNat 32 (e.reef + 2 ^ 4 * e.row + 2 ^ 8 * e.col + 2 ^ 12 * e.step)) s)))

/-- Command numbers of a PLATE record: those of PLT_CMD, COMMIT and EVICT, and the loss of an island
(notes/assumptions/43.md). -/
def evCommit : Nat := 0x11
def evEvict : Nat := 0x12
def evLoss : Nat := 0x20

/-- A PLATE record (22 Table 22.4). -/
def auditPlate (code : W16) (sid : W32) (ev island : Nat) (d : Digest) (s : State) : State :=
  audit 0x08 code sid (if sid = 0 then 1 else 0) (leBytes 1 ev ++ leBytes 1 island ++ zeros 6 ++ (digestBytes d).take 24) s

/-- Content digest of the standby plate: its CONTENT_DIGEST field while it loads (21 Table 21.3). -/
def standbyDigest (s : State) : Digest :=
  match s.plt.standby with
  | .empty => 0
  | .loading => match s.plt.load with
    | some l => (l.bytes.map (fun b => digestOf (b.drop 0x50))).getD 0
    | none => 0
  | _ => ((standbyPlate s).map (·.digest)).getD 0

/-- The standby store copy set. -/
def storePut (p : Option Plate) (s : State) : State :=
  { s with plt := if s.plt.copyY then { s.plt with storeX := p } else { s.plt with storeY := p } }

/-- The command, session and number of a load in progress. -/
def loadCmd (s : State) : Nat × W32 := (s.plt.load.map (fun l => (l.cmd, l.sid))).getD (8, 0)

/-- The standby bank goes to EMPTY. -/
def standbyEmpty (s : State) : State :=
  pwrTrack { s with plt := { s.plt with standby := .empty, load := none, proofed := [], rewritten := [], instant := false,
                                        bootLoad := false } }

/-- A load fails: its code and details, its record, the flush of R61. -/
def loadFail (e : LoadErr) (s : State) : State :=
  let (cmd, sid) := loadCmd s
  let d := standbyDigest s
  let boot := s.plt.bootLoad
  let s1 := auditFlush (auditPlate e.code sid cmd e.island d (pltErr e s))
  let s2 := standbyEmpty s1
  if boot then { s2 with boot := { s2.boot with stage := 7 } } else s2

/-! ## Commands (R57, R58, R62, R65, R68) -/

/-- Some channel is bound to an inlet that a plate's normal configuration does not define (R62). -/
def inletMissing (s : State) (p : Plate) : Bool :=
  s.chans.any (fun c => c.2.state ≠ .free && (inletNum p normalCase c.2.inlet.toNat).isNone)

/-- The answer to a code of PLT_CMD; in the degraded state every action of the burin is refused (17 R429). -/
def pltCheck (s : State) (cmd : Nat) : W16 :=
  let ok := fun (b : Bool) => if b then cOk else cPlateState
  if s.rcv.cape then cCapeLost
  else match cmd with
    | 1 => ok (s.plt.standby = .empty || s.plt.standby = .proofed)
    | 2 => ok (s.plt.standby = .empty || s.plt.standby = .proofed)
    | 3 => ok (s.plt.standby = .proofed)
    | 4 => ok (s.plt.standby = .committing)
    | 5 => ok (s.plt.active = .running || s.plt.active = .fallback)
    | _ => cPlateState

/-- The answer to a code of PLT_GCMD. -/
def pltGuardCheck (s : State) (cmd : Nat) : W16 :=
  if s.rcv.cape then cCapeLost
  else match cmd with
    | 1 =>
      if s.plt.standby ≠ .proofed then cPlateState
      else (match standbyPlate s with | none => cPlateState | some p => if inletMissing s p then cInletMissing else cOk)
    | 2 =>
      if s.plt.active ≠ .running then cPlateState
      else if s.chans.any (fun c => decide (c.2.state ≠ .free)) then cChannelsExist
      else cOk
    | _ => cPlateState

/-- Plate bytes that the burin copies from HBM at a local address: as many as the header's TOTAL_LENGTH says. -/
def stagedBytes (s : State) : Option (List Byte) :=
  let a := BitVec.ofNat 64 ((rget s 0x00030020).toNat + 2 ^ 32 * (rget s 0x00030024).toNat)
  let l := localOf a
  let can := fun (n : Nat) => decide (l + n ≤ 0x020000000000) && decide (protRead s l n = cOk) && !anyLost s l n && !anyPoison s l n
  let n := plateLen (readMem s l 64)
  if a.toNat % 4096 ≠ 0 || !nodeLocal s a || !can 64 then none
  else if plateLenOk n && can n then some (readMem s l n) else none

/-- Plate bytes that the burin copies from a flash slot. -/
def flashPlate (s : State) (slot : Nat) : Option (List Byte) :=
  (slotPlate s slot).map (fun b => b.take (plateLen b))

/-- A load begins: the standby copy is overwritten. The copy is taken whole at this moment (notes/assumptions/48.md). -/
def loadStart (cmd : Nat) (sid : W32) (b : Option (List Byte)) (s : State) : State :=
  pwrTrack (storePut none
    { s with plt := { s.plt with standby := .loading, load := some { cmd := cmd, sid := sid, bytes := b }, proofed := [],
                                 rewritten := [], instant := false } })

/-- The commit instant: the standby bank commits, and what is accepted from now on waits for the swap (R63, R64). -/
def commitStart (sid : W32) (s : State) : State :=
  let d := ((standbyPlate s).map (·.digest)).getD 0
  let s1 := auditPlate cOk sid evCommit 255 d s
  { s1 with plt := { s1.plt with standby := .committing, instant := true } }

/-- Held descriptors run under the old plate, or complete with NO_PLATE where there is none (R65). -/
def releaseHeld (s : State) : State :=
  let old := activePlate s
  let d := (old.map (·.digest)).getD 0
  { s with chans := s.chans.map (fun c =>
      (c.1, { c.2 with fresh := false,
                       journal := c.2.journal.map (fun j =>
                         if j.2.after then
                           (j.1, { j.2 with after := false, plate := d, verdict := if old.isNone && j.2.verdict = 0 then cNoPlate else j.2.verdict })
                         else j) })) }

/-- ABORT_COMMIT (R65). -/
def abortCommit (sid : W32) (s : State) : State :=
  let s1 := releaseHeld s
  let s2 := auditPlate cOk sid 4 255 (((standbyPlate s).map (·.digest)).getD 0) s1
  { s2 with plt := { s2.plt with standby := .proofed, instant := false } }

/-- PROOF_ACTIVE: each island whose active bank differs writes PLT_ERR and a record (R61). -/
def proofActive (sid : W32) (bad : Nat) (s : State) : State :=
  let d := ((activePlate s).map (·.digest)).getD 0
  ((List.range 16).filter (fun i => bit bad i && !islLost s i)).foldl (fun s i =>
    auditPlate cProof sid 5 i d (pltErr { code := cProof, step := 0, island := i, case := caseNow s } s)) s

/-- EVICT: the active bank and its store copy are empty; nothing is assigned any more (R68). -/
def evict (sid : W32) (s : State) : State :=
  let s1 := auditPlate cOk sid evEvict 255 (((activePlate s).map (·.digest)).getD 0) s
  let p := s1.plt
  let p1 := if p.copyY then { p with storeY := none } else { p with storeX := none }
  pwrTrack { s1 with plt := { p1 with active := .empty, case := 0, bootPlate := false }, objs := [], yzApplied := [], barriers := [], lists := [],
                     engines := [], boot := { s1.boot with stage := 7 } }

/-- What a code of PLT_CMD does once it has passed its check; `bad` is what PROOF_ACTIVE's proofs find. -/
def pltDo (cmd slot : Nat) (sid : W32) (bad : Nat) (s : State) : State :=
  match cmd with
  | 1 => loadStart 1 sid (stagedBytes s) s
  | 2 => loadStart 2 sid (flashPlate s slot) s
  | 3 => standbyEmpty s
  | 4 => abortCommit sid s
  | 5 => proofActive sid bad s
  | _ => s

/-- What a code of PLT_GCMD does. -/
def pltGuardDo (cmd : Nat) (sid : W32) (s : State) : State :=
  match cmd with
  | 1 => commitStart sid s
  | 2 => evict sid s
  | _ => s

/-! ## The end of a load (R59, R60) -/

/-- An island that must have been written and proofed: any that is not lost. -/
def proofIslands (s : State) : List Nat := (List.range 16).filter (fun i => !islLost s i)

/-- R427: a lost island that the plate uses. -/
def namesLost (s : State) (p : Plate) : Option Nat :=
  (List.range 16).find? (fun n => islLost s n && (decide (p.sheets.getD n 0 ≠ 0) || p.sections.any (fun x => x.island = n)))

/-- PLATE_LOAD_DONE: the checks of Table 2.9 on the copied bytes. -/
def execPlateLoadDone (sigOk : Bool) (s : State) : Host.Outcome State Fault Refusal :=
  .next (if s.rcv.cape then s else match s.plt.standby, s.plt.load with
    | .loading, some l =>
      (match l.bytes with
       | none => loadFail { code := cPlateHeader, step := 1 } s
       | some bs =>
         match loadChecks s bs sigOk with
         | some e => loadFail e s
         | none =>
           match namesLost s (plateOf bs) with
           | some n => loadFail { code := cProof, step := 11, island := n } s
           | none => pwrTrack (storePut (some (plateOf bs)) { s with plt := { s.plt with standby := .proofing } }))
    | _, _ => s)

/-- The proof of every island stands: PROOFED, its record, the flush; a boot plate commits with no session. -/
def loadPassed (s : State) : State :=
  let (cmd, sid) := loadCmd s
  let d := standbyDigest s
  let boot := s.plt.bootLoad
  let s1 := auditFlush (auditPlate cOk sid cmd 255 d { s with plt := { s.plt with standby := .proofed, load := none } })
  if boot then commitStart 0 { s1 with boot := { s1.boot with m4 := sha3 (digestBytes d) } } else s1

/-- PROOF_DONE (R60): an island's digest equals the expected one, or it is rewritten once, or the load fails. -/
def execProofDone (island : BitVec 4) (same : Bool) (s : State) : Host.Outcome State Fault Refusal :=
  let i := island.toNat
  .next (if s.plt.standby ≠ .proofing || islLost s i || s.rcv.cape then s
    else if same then
      let s1 := { s with plt := { s.plt with proofed := nadd s.plt.proofed i } }
      if (proofIslands s1).all (nmem s1.plt.proofed) then loadPassed s1 else s1
    else if nmem s.plt.rewritten i then loadFail { code := cProof, step := 11, island := i } s
    else { s with plt := { s.plt with rewritten := nadd s.plt.rewritten i } })

/-! ## Island loss and the standby bank (R57, R66) -/

/-- Island loss empties the standby bank, aborting a commit. -/
def discardByLoss (s : State) : State :=
  if s.plt.standby = .empty then s
  else
    let (cmd, sid) := if s.plt.load.isSome then loadCmd s else (evLoss, 0)
    let busy := decide (s.plt.standby = .loading) || decide (s.plt.standby = .proofing)
    let d := standbyDigest s
    let s0 := if s.plt.standby = .committing then releaseHeld s else s
    let s1 := auditPlate cStandbyDiscarded sid cmd 255 d (pltErr { code := cStandbyDiscarded, step := 0 } s0)
    standbyEmpty (if busy then auditFlush s1 else s1)

/-! ## The swap (R54, R64, 10 R238, 12, 14 R356) -/

/-- A channel whose accepted descriptors count toward D (17 R426). -/
def countsForD (c : Chan) : Bool := !(decide (c.state = .paused) || c.held)

/-- Every descriptor accepted before the commit instant has completed. -/
def drained (s : State) : Bool :=
  s.chans.all (fun c => !countsForD c.2 || c.2.journal.all (fun j => j.2.after || j.2.state = .completed || j.2.state = .pushed))

/-- A record of TABLE_INIT written: lagoon bytes, or ASU entries with their copies. -/
def initRecord (p : Plate) (s : State) (r : PRec) : State :=
  if islLost s r.island then s
  else if r.kind = 0x300 then writeMem (shareKey (8 * r.island + r.reef) (u32At r.body 0)) (r.body.drop 8) s
  else if r.kind = 0x301 then
    match (asuTabs p normalCase).find? (fun t => t.num = r.index) with
    | none => s
    | some t =>
      let at_ := t.pos (u8At r.body 2) (u16At r.body 0) (u32At r.body 4)
      ((chunks 64 (r.body.drop 8)).zipIdx).foldl (fun s e =>
        asuPut t (at_ + e.2) { key := BitVec.ofNat 128 (fieldAt 16 e.1 0), mask := BitVec.ofNat 128 (fieldAt 16 e.1 16),
                               data := BitVec.ofNat 32 (u32At e.1 32), valid := bit (u32At e.1 36) 0, lost := false } s) s
  else s

/-- The raw table record of an embedding table. -/
def embRecord (p : Plate) (c n : Nat) : Option (List Byte) :=
  ((recordsIn p c 5).find? (fun r => r.kind = 0x103 && u8At r.body 0 = n)).map (·.body)

/-- Embedding tables that the new plate does not hold identically need a new initialise (12, Table status). -/
def keepTables (old : Option Plate) (c : Nat) (new : Plate) (s : State) : State :=
  { s with emb := s.emb.filter (fun t =>
      match old with
      | none => false
      | some o => (embRecord o c t.1).isSome && decide (embRecord o c t.1 = embRecord new normalCase t.1)) }

/-- Accepted descriptors that have not committed run under the plate now active: those held across the instant, and those of
channels that resume (17 R426), whose runs begin anew. -/
def rejournal (d : Digest) (c : Chan) : Chan :=
  { c with fresh := false, held := false, state := if c.state = .paused then .opened else c.state,
           journal := c.journal.map (fun j => if j.2.state = .accepted then (j.1, { j.2 with after := false, plate := d }) else j) }

/-- Step 4 and step 6 of Table 2.10: the banks swap, the store copies exchange roles, sync state and tables start under the new
plate, and channels go on. -/
def swapBanks (p : Plate) (s : State) : State :=
  let old := activePlate s
  let c := caseNow s
  let boot := s.plt.bootLoad
  let s0 := s.chans.foldl (fun s q => if countsForD q.2 then s
    else q.2.journal.foldl (fun s j => if j.2.state = .accepted then dropRun (runNum q.1 j.1) s else s) s) s
  let s1 := ((sectionsIn p normalCase 7).flatMap recsOf).foldl (initRecord p) (keepTables old c p s0)
  let s2 := { s1 with plt := { s1.plt with copyY := !s1.plt.copyY, active := .running, case := 0, bootPlate := boot, standby := .empty,
                                           instant := false, load := none, bootLoad := false, proofed := [], rewritten := [] },
                      isl := [], lists := [], engines := [], rcells := [], cellLinks := [], dcells := [],
                      boot := { s1.boot with stage := 9 } }
  let s3 := syncAssign p normalCase s2
  pwrTrack { s3 with chans := s3.chans.map (fun q => (q.1, rejournal p.digest q.2)) }

/-! ## Sheets (R49-R51, 03 R93) -/

/-- Sheets that island `i` runs under the plate and case in force. -/
def sheetsOf (s : State) (i : Nat) : Nat := if islLost s i then 0 else ((activePlate s).map (fun p => sheetCount p (caseNow s) i)).getD 0

/-- `s` with an island set. -/
def islPut (i : Nat) (x : Isl) (s : State) : State := { s with isl := mset Isl.init s.isl i x }

/-- SHEET_SLICE_END: the outgoing sheet's slice is over. -/
def execSheetSliceEnd (island : BitVec 4) (s : State) : Host.Outcome State Fault Refusal :=
  let i := island.toNat
  .next (if 2 ≤ sheetsOf s i ∧ !(islGet s i).switching then islPut i { islGet s i with switching := true } s else s)

/-- Private lagoon bytes of sheet `k` of island `i`. -/
def privateBytes (s : State) (i k : Nat) : Nat :=
  match (activePlate s).bind (fun p => demandOf p (caseNow s) i) with
  | some d => (List.range 8).foldl (fun n r => n + lagoonDemand d r (k + 1)) 0
  | none => 0

end Sys2Proof.Machine
end

