-- ==== Sys2Proof/Machine/Sessions.lean ====
section
/-! DEFINITION. Sessions: roles, opening, attestation reports, suspension and ending, probes, retransmission, acknowledgement, and
the interval and link events of the transport (15 R364-R378, R386-R392; 22 R507-R510; 23 R533, R534). -/

namespace Sys2Proof.Machine

/-! ## Roles (22 R507, R510) -/

/-- The role that a session of peer entry `p` holds. -/
def entryRole (s : State) (p : Nat) : Role :=
  if peerNode s p ≠ 0xFFFF then .none
  else if isMaker s (peerDigest s p) then .maker
  else ((s.boot.roles.find? (fun r => decide (r.1 = peerDigest s p))).map (·.2)).getD .none

/-- Every session's role derived again (R510). -/
def rederiveRoles (s : State) : State := { s with sessions := s.sessions.map (fun p => (p.1, { p.2 with role := entryRole s p.2.entry })) }

/-! ## The attestation report (23 R533, R534) -/

/-- Offset of a slot of the service area in the per-stack views of stacks 1 and 3. -/
def slotOff (k : Nat) : Nat := 0xFD2000000 + 4096 * k

/-- Bytes written at an offset of the service area, on both copies. -/
def serviceWrite (off : Nat) (b : List Byte) (s : State) : State :=
  [1, 3].foldl (fun s k => if islLost s k then s else writeMem (hbmKey k off) b s) s

/-- M5: the maker slots, the revoke bits and the SVN counter (23 Table 23.4; the bytes are the model's, notes/assumptions/49.md). -/
def fuseDigest (s : State) : Digest :=
  sha3 ((List.range 4).flatMap (fun k => digestBytes ((s.fuses.maker.getD k none).getD 0))
    ++ [BitVec.ofNat 8 ((List.range 4).foldl (fun n k => n + (s.fuses.revoked.getD k false).toNat * 2 ^ k) 0), BitVec.ofNat 8 s.fuses.svn])

/-- A report's bytes before its signature (Table 23.6). -/
def reportHead (s : State) (sid : W32) (x : Session) : List Byte :=
  let fl := s.audit.unlocked.toNat + 2 * s.rcv.cape.toNat + 4 * s.boot.trial.toNat
  leBytes 4 0x54414B41 ++ leBytes 2 1 ++ leBytes 2 fl ++ leBytes 2 0x0A25 ++ leBytes 1 0xB0 ++ leBytes 1 s.boot.stage
    ++ leBytes 4 sid.toNat ++ digestBytes x.transcript ++ digestBytes s.boot.identity ++ leBytes 8 s.audit.bootIndex ++ leBytes 8 s.time
    ++ [s.boot.m0, s.boot.m1, s.boot.m2, s.boot.m3, s.boot.m4, fuseDigest s].flatMap digestBytes
    ++ digestBytes (((activePlate s).map (·.digest)).getD 0) ++ digestBytes s.audit.head ++ leBytes 8 s.audit.count
    ++ leBytes 1 s.boot.fwSvn ++ leBytes 1 s.fuses.svn ++ zeros 2 ++ leBytes 4 (rcvLostWord s).toNat ++ zeros 16

/-- The report of a session that opens, in its slot. -/
def writeReport (sid : W32) (x : Session) (s : State) : State :=
  let (f, s1) := takeFree s
  serviceWrite (slotOff (4 * x.entry + x.index) + 0x100) (reportHead s1 sid x ++ leBytes 2420 (Config.signature f).toNat) s1

/-! ## Suspension and ending (R374, R388) -/

/-- A session's waiting operations when it can send no more: what a run waits for goes to the next session, a fate query is asked
again, the rest complete with the code. -/
def dropQueue (code : W16) (x : Session) (s : State) : State :=
  x.queue.foldl (fun s o =>
    if o.run.isSome then { s with peerQueue := s.peerQueue ++ [(peerNode s x.entry, o)] }
    else if o.fate.isSome || !o.awaits then s
    else emit (.opDone x.peerSid 0 0 code 0) s) s

/-- Frames of a session that are in doubt: not acknowledged, or not answered where an answer is due. -/
def doubtful (x : Session) : SMap TxFrame := x.unacked.filter (fun f => f.2.op.fate.isNone && (!f.2.acked || !f.2.answered))

/-- Those frames are kept to be asked about. -/
def doubtPut (k : Nat) (x : Session) (s : State) : State :=
  if doubtful x = [] then s
  else { s with doubts := mput s.doubts k { entry := x.entry, peerSid := x.peerSid, frames := doubtful x } }

/-- A session is suspended: it takes no frames, its frames are in doubt, its fate records run out of their hold. -/
def suspendSession (code : W16) (k : Nat) (s : State) : State :=
  match mlook s.sessions k with
  | none => s
  | some x =>
    if !x.opened then s
    else
      let y := { x with opened := false, suspendedAt := s.time, queue := [], unacked := [], held := [] }
      let s1 := dropQueue code x (doubtPut k x (sessPut k y s))
      { s1 with fates := s1.fates.map (fun f => if f.1 = k then (f.1, { f.2 with since := some s.time }) else f) }

/-- A pending guarded value whose session or 64 accesses have ended: GUARD_FAIL without an operation (20 R481, R491). -/
def guardLapse (sid : W32) (s : State) : State :=
  match mlook s.guards sid.toNat with
  | none => s
  | some g => regRefuse cGuardFail sid (0x030000000000 + g.off) { s with guards := mdel s.guards sid.toNat }

/-- A session ends: its guarded value lapses, its end is recorded where it held a role, its fate records stay for the hold, its
unanswered frames are in doubt. -/
def endSession (k : Nat) (s : State) : State :=
  match mlook s.sessions k with
  | none => s
  | some x =>
    let sid := BitVec.ofNat 32 k
    let s1 := doubtPut k x (guardLapse sid s)
    let s2 := if x.role = .none then s1 else audit 0x03 cOk sid 0 (leBytes 2 x.entry) s1
    let since := fun (o : Option Nat) => if o.isSome then o else some s.time
    pwrTrack (dropQueue cPeerDown x
      { s2 with sessions := mdel s2.sessions k, hiCaps := mdel s2.hiCaps k,
                fates := s2.fates.map (fun f => if f.1 = k then (f.1, { f.2 with closed := true, since := since f.2.since }) else f) })

/-- The open sessions of a peer entry. -/
def openOf (s : State) (p : Nat) : List Nat := (s.sessions.filter (fun x => x.2.entry = p && x.2.opened)).map (·.1)

/-- A peer entry's sessions suspended, with the code its unsent operations take. -/
def suspendPeer (code : W16) (p : Nat) (s : State) : State := (openOf s p).foldl (fun s k => suspendSession code k s) s

/-- Sessions carried through a link suspended. -/
def suspendLink (l : Nat) (s : State) : State :=
  (s.sessions.filter (fun x => x.2.link = l && x.2.opened)).foldl (fun s x => suspendSession cPeerDown x.1 s) s

/-! ## Opening (R369-R372, 22 R508) -/

/-- A session opened a moment ago. -/
def freshSession (p idx link : Nat) (role : Role) (initiator : Bool) (peerSid : W32) (t : Digest) (now : Nat) : Session :=
  { entry := p, index := idx, link := link, role := role, opened := true, initiator := initiator, peerSid := peerSid, transcript := t,
    taken := 0, held := [], nonceTop := 0, nonces := [], nextSeq := 1, nextNonce := if initiator then 1 else 0, queue := [], arb := Arb.init,
    unacked := [], credit := 64, cwnd := 64, cwndAt := now, srtt := 0, rttvar := 0, rto := 100, ce := 0, peerCe := 0,
    suspendedAt := 0, lastHeard := now }

/-- The lowest session index of an entry that no session of it holds. -/
def sessIndex? (s : State) (p : Nat) : Option Nat :=
  [0, 1, 2, 3].find? (fun i => !s.sessions.any (fun x => x.2.entry = p && x.2.index = i))

/-- The limits of R371 admit another session of an entry. -/
def sessRoom (s : State) (p : Nat) : Bool := decide (s.sessions.length < 1024) && (sessIndex? s p).isSome

/-- A FATE operation about frame `n` of session `x` (R389); class 1 (notes/assumptions/53.md). -/
def fateOp (k : Nat) (x : Doubt) (n : Nat) : TxOp :=
  { tc := 1, body := opRecord 0x0A 0 (BitVec.ofNat 64 x.peerSid.toNat) (BitVec.ofNat 64 n) 0 [], awaits := true, run := none, fate := some (k, n) }

/-- A query about every frame in doubt of session `xk`, asked in session `k`. -/
def askDoubt (k xk : Nat) (x : Doubt) (s : State) : State :=
  x.frames.foldl (fun s f => sendOp k (fateOp xk x f.1) (bump (peerCnt x.entry 5) 1 s)) s

/-- A new session of an entry asks for the fate of every frame in doubt before any other operation (R389). -/
def askFates (k p : Nat) (s : State) : State :=
  (s.doubts.filter (fun x => x.2.entry = p)).foldl (fun s x => askDoubt k x.1 x.2 s) s

/-- Operations that waited for a session of the entry's node go out in it. -/
def takeQueue (k p : Nat) (s : State) : State :=
  let n := peerNode s p
  let mine := s.peerQueue.filter (fun q => decide (q.1 = n))
  mine.foldl (fun s q => sendOp k q.2 s) { s with peerQueue := s.peerQueue.filter (fun q => decide (q.1 ≠ n)) }

/-- Session `sid` opens: its role and record, its report, its queries, its waiting operations. -/
def openSess (sid : W32) (p link : Nat) (initiator : Bool) (peerSid : W32) (t : Digest) (s : State) : State :=
  let k := sid.toNat
  let x := freshSession p ((sessIndex? s p).getD 0) link (entryRole s p) initiator peerSid t s.time
  let s1 := sessPut k x { s with fates := mput s.fates k { entry := p, closed := false, since := none, taken := 0, recs := [] } }
  let s2 := if x.role = .none then s1 else audit 0x02 cOk sid 0 (leBytes 2 p ++ leBytes 2 link) s1
  pwrTrack (takeQueue k p (askFates k p (writeReport sid x s2)))

/-- A link takes frames: it is up, its port stands, and sessions may open (23 Table 23.2). -/
def linkTakes (s : State) (l : Nat) : Bool := nmem s.linksUp l && !portLost s l && decide (7 ≤ s.boot.stage)

/-- Counter `c` of a link raised. -/
def linkBump (l c : Nat) (s : State) : State := bump (linkCnt l c) 1 s

/-- The enabled and unquarantined entry with a key digest. -/
def entryOfKey (s : State) (d : Digest) : Option Nat := (List.range 1024).find? (fun p => peerUsable s p && decide (peerDigest s p = d))

/-- A digest as a 32-byte big-endian number (R372). -/
def bigEndian (d : Digest) : Nat := (digestBytes d).foldl (fun n b => 256 * n + b.toNat) 0

/-- NODE of the device's own frames: YZ_NODE, 0xFFFF unset. -/
def helloNode (s : State) : Nat := if ownNode s = 4095 then 0xFFFF else ownNode s

/-- The seed of the device identity (23 R532). -/
def identitySeed (s : State) : Digest := sha3 (ascii "AKID" ++ leBytes 32 s.fuses.secret.toNat)

/-- The identity public key's bytes. -/
def ownKey (s : State) : List Byte := leBytes 1312 (Config.publicKey (identitySeed s)).toNat

/-- A frame of an establishment sent. -/
def sendHand (link type : Nat) (sid : W32) (body : List Byte) (s : State) : State := emitOn link (.frame link type sid body) s

/-- The answer to a HELLO that passed: a REJECT at the session limits, a HELLO_REPLY, or nothing where the device's own HELLO
proceeds (R371, R372). -/
def answerHello (link p : Nat) (body : List Byte) (s : State) : State :=
  if (mlook s.helloOut p).isSome && decide (bigEndian s.boot.identity ≤ bigEndian (peerDigest s p)) then s
  else if !sessRoom s p then sendHand link 0x14 0 (leBytes 2 cSessionLimit.toNat ++ zeros 6) s
  else
    let f := s.free
    let sid := BitVec.ofNat 32 s.nextSid
    let head := leBytes 4 s.nextSid ++ leBytes 2 (helloNode s) ++ zeros 2 ++ digestBytes (Config.free256 f) ++ ownKey s
      ++ leBytes 1088 (Config.ciphertext (f + 1)).toNat
    let reply := head ++ leBytes 2420 (Config.signature (f + 2)).toNat
    let t := sha3 (body ++ reply)
    sendHand link 0x11 0 reply
      { s with free := f + 3, nextSid := s.nextSid + 1, helloOut := mdel s.helloOut p,
               helloIn := mput s.helloIn sid.toNat { entry := p, link := link, sid := sid, transcript := t } }

/-- HELLO (R370-R372). -/
def execHello (link : BitVec 5) (body : List Byte) (sigOk : Bool) (s : State) : Host.Outcome State Fault Refusal :=
  let l := link.toNat
  let no := linkBump l 3
  .next (if !linkTakes s l then s
    else if 4000 ≤ s.helloCount then no s
    else
      let s1 := { s with helloCount := s.helloCount + 1 }
      match entryOfKey s (sha3 ((body.drop 40).take 1312)) with
      | none => no s1
      | some p =>
        if body.length ≠ 4956 || !zeroAt body 2 6 || decide (u16At body 0 ≠ peerNode s p) || !sigOk || (l ≠ 0 && decide (ownNode s = 4095)) then no s1
        else answerHello l p body s1)

/-- HELLO_REPLY (R369, R370): the initiator opens the session and confirms. -/
def execHelloReply (link : BitVec 5) (body : List Byte) (sigOk : Bool) (s : State) : Host.Outcome State Fault Refusal :=
  let l := link.toNat
  let d := sha3 ((body.drop 40).take 1312)
  .next (if !linkTakes s l then s
    else match entryOfKey s d with
      | none => linkBump l 3 s
      | some p =>
        if body.length ≠ 4860 || !zeroAt body 6 2 || decide (u16At body 4 ≠ peerNode s p) || !sigOk then linkBump l 3 s
        else match mlook s.helloOut p with
          | none => linkBump l 2 s
          | some h =>
            if h.link ≠ l then linkBump l 2 s
            else if !sessRoom s p then { s with helloOut := mdel s.helloOut p }
            else
              let sid := BitVec.ofNat 32 s.nextSid
              let peer := BitVec.ofNat 32 (u32At body 0)
              let s1 := { s with nextSid := s.nextSid + 1, helloOut := mdel s.helloOut p }
              openSess sid p l true peer (sha3 (h.body ++ body)) (sendHand l 0x12 peer (leBytes 4 sid.toNat ++ zeros 28) s1))

/-- REJECT: the initiator only waits for its next attempt (R371). -/
def execReject (link : BitVec 5) (entry : BitVec 10) (_code : W16) (s : State) : Host.Outcome State Fault Refusal :=
  let l := link.toNat
  .next (if !linkTakes s l then s
    else match mlook s.helloOut entry.toNat with
      | some h => if h.link = l then { s with helloOut := mdel s.helloOut entry.toNat } else linkBump l 2 s
      | none => linkBump l 2 s)

/-- A link through which the entry's PORTS let a session open (Table 15.10): the lowest that is up. -/
def entryLink (s : State) (p : Nat) : Option Nat :=
  let ports := (rget s (peerBase p + 0x24)).toNat / 65536
  (List.range 17).find? (fun l => linkTakes s l && bit ports ((l + 1) / 2) && (l = 0 || decide (ownNode s ≠ 4095)))

/-- SESSION_RETRY: the device attempts a session with an entry that lets it (R388). -/
def execSessionRetry (entry : BitVec 10) (s : State) : Host.Outcome State Fault Refusal :=
  let p := entry.toNat
  .next (if !peerUsable s p || !bit (peerFlags s p) 2 || openOf s p ≠ [] then s
    else match entryLink s p with
      | none => s
      | some l =>
        let f := s.free
        let head := leBytes 2 (helloNode s) ++ zeros 6 ++ digestBytes (Config.free256 f) ++ ownKey s ++ leBytes 1184 (Config.encapsKey (f + 1)).toNat
        let body := head ++ leBytes 2420 (Config.signature (f + 2)).toNat
        sendHand l 0x10 0 body { s with free := f + 3, helloOut := mput s.helloOut p { link := l, body := body, at_ := s.time } })

/-! ## Received frames (R373, Table 15.11) -/

/-- The largest frame body: 8,192 bytes. -/
def bodyMax : Nat := 8192

/-- A quarantine (R392). -/
def quarantine (p : Nat) (s : State) : State :=
  let w := peerBase p + 0x20
  let s1 := rset w (rget s w ||| 0x00020000) s
  let s2 := suspendPeer cPeerQuarantined p s1
  let n := peerNode s2 p
  let gone := s2.peerQueue.filter (fun q => decide (q.1 = n) && q.2.run.isNone)
  let s3 := gone.foldl (fun s _ => emit (.opDone 0 0 0 cPeerQuarantined 0) s)
    { s2 with peerQueue := s2.peerQueue.filter (fun q => !(decide (q.1 = n) && q.2.run.isNone)), helloOut := mdel s2.helloOut p }
  alert 6 (audit 0x09 cPeerQuarantined 0 2 (leBytes 2 p) s3)

/-- A malformed frame of a peer entry: counted, and quarantined at the limit (R392). -/
def malformedFrame (p : Nat) (s : State) : State :=
  let n := mget 0 s.malformed p + 1
  let s1 := bump (peerCnt p 0) 1 { s with malformed := mset 0 s.malformed p n }
  if (rget s 0x000D0010).toNat ≤ n && !bit (peerFlags s p) 1 then quarantine p s1 else s1

/-- The nonce of a frame accepted (R373). -/
def takeNonce (n : Nat) (x : Session) : Session :=
  let top := max x.nonceTop (n + 1)
  { x with nonceTop := top, nonces := (nadd x.nonces n).filter (fun p => decide (top ≤ p.1 + 64)) }

/-- ACK of the header: the value, where ACK_VALID is set. -/
def ackOf (h : FrameHdr) : Option Nat := if h.ack.getLsbD 48 then some (h.ack.toNat % 2 ^ 48) else none

/-- Reserved bits of a header are zero, TC and OP_COUNT lie in Table 15.4. -/
def headerBits (h : FrameHdr) : Bool :=
  decide (h.tc.toNat < 4) && decide (h.seq.toNat < 2 ^ 48) && decide (h.ack.toNat < 2 ^ 49)
    && (if h.type = 1 then decide (1 ≤ h.opCount.toNat) && decide (h.opCount.toNat ≤ 64) else decide (h.opCount = 0) && decide (h.seq = 0))

/-- A tagged frame of an open session up to its header bits: the session it reaches, with the state its checks leave
(Table 15.11). -/
def frameIn (type : Byte) (f : Frame) (s : State) : Option (Nat × Session) × State :=
  let l := f.link.toNat
  if !linkTakes s l then (none, s)
  else if bodyMax < f.body.length || f.hdr.version ≠ 1 || f.hdr.type ≠ type then (none, linkBump l 2 s)
  else
    let s0 := if f.ce then linkBump l 7 s else s
    match mlook s.sessions f.hdr.sid.toNat with
    | none => (none, linkBump l 4 s0)
    | some x =>
      let n := f.hdr.nonce.toNat
      if !x.opened then (none, linkBump l 4 s0)
      else if !f.tagOk then (none, linkBump l 5 s0)
      else if n + 64 < x.nonceTop || nmem x.nonces n then (none, linkBump l 6 s0)
      else
        let y := { takeNonce n x with lastHeard := s.time, ce := x.ce + f.ce.toNat }
        let s1 := sessPut f.hdr.sid.toNat y s0
        if headerBits f.hdr then (some (f.hdr.sid.toNat, y), s1) else (none, malformedFrame x.entry s1)

/-! ## Acknowledgement (R376-R378) -/

/-- SRTT, RTTVAR and the timer after a sample, as RFC 6298 smooths them (notes/assumptions/50.md); between 8 us and 2 ms. -/
def rttSample (r : Nat) (x : Session) : Session :=
  let (sr, rv) := if x.srtt = 0 then (r, r / 2) else
    ((7 * x.srtt + r) / 8, (3 * x.rttvar + (if x.srtt ≤ r then r - x.srtt else x.srtt - r)) / 4)
  { x with srtt := sr, rttvar := rv, rto := min 2000 (max 8 (sr + 4 * rv)) }

/-- The window once a round trip: one frame more, never beyond CREDIT. -/
def growWindow (now : Nat) (x : Session) : Session :=
  if x.cwndAt + x.srtt ≤ now then { x with cwnd := min (x.cwnd + 1) (max x.credit 1), cwndAt := now } else x

/-- Frames up to `n` are acknowledged; those that are answered too, or need no answer, are done with. -/
def ackUpTo (now n : Nat) (x : Session) : Session :=
  let samples := x.unacked.filter (fun p => decide (p.1 ≤ n) && !p.2.acked && decide (p.2.resends = 0))
  let y := samples.foldl (fun x p => rttSample (now - p.2.sentAt) x) x
  let all := y.unacked.map (fun p => if p.1 ≤ n then (p.1, { p.2 with acked := true }) else p)
  growWindow now { y with unacked := all.filter (fun p => !(p.2.acked && p.2.answered)) }

/-- CREDIT and CE_COUNT of an ACK body: a rise of CE_COUNT halves the window, at most once a round trip. -/
def ackCredit (now credit ce : Nat) (x : Session) : Session :=
  let y := { x with credit := credit }
  if x.peerCe < ce then
    let z := { y with peerCe := ce }
    if x.cwndAt + x.srtt ≤ now then { z with cwnd := max 1 (x.cwnd / 2), cwndAt := now } else z
  else y

/-- A selective bit names a frame that was sent: bit i is frame ACK + 2 + i. -/
def sackOk (ack next : Nat) (b : List Byte) : Bool := (List.range 256).all (fun i => !bit (fieldAt 32 b 0) i || decide (ack + 2 + i < next))

/-- ACK frame. -/
def execAck (f : Frame) (s : State) : Host.Outcome State Fault Refusal :=
  .next (match frameIn 2 f s with
    | (none, t) => t
    | (some (k, x), t) =>
      let a := (ackOf f.hdr).getD 0
      if x.nextSeq ≤ a || f.body.length ≠ 48 || !zeroAt f.body 40 8 || !sackOk a x.nextSeq f.body then malformedFrame x.entry t
      else pumpSession k (sessPut k (ackCredit s.time (u32At f.body 32) (u32At f.body 36) (ackUpTo s.time a x)) t))

/-- A frame with an empty body: ACK_VALID names no unsent frame. -/
def plainFrame (type : Byte) (f : Frame) (then_ : Nat → Session → State → State) (s : State) : State :=
  match frameIn type f s with
  | (none, t) => t
  | (some (k, x), t) =>
    match ackOf f.hdr with
    | some a =>
      if x.nextSeq ≤ a || f.body ≠ [] then malformedFrame x.entry t
      else let y := ackUpTo s.time a x; then_ k y (sessPut k y t)
    | none => if f.body ≠ [] then malformedFrame x.entry t else then_ k x t

/-- PROBE: answered at once (R388). -/
def execProbe (f : Frame) (s : State) : Host.Outcome State Fault Refusal :=
  .next (plainFrame 3 f (fun _ x s => bump (portCnt x.link 0) 1 (sendHand x.link 0x04 x.peerSid [] s)) s)

/-- PROBE_REPLY. -/
def execProbeReply (f : Frame) (s : State) : Host.Outcome State Fault Refusal := .next (plainFrame 4 f (fun _ _ s => s) s)

/-- CLOSE: the session ends; frames of its own that the device still holds stay in doubt (R374). -/
def execClose (f : Frame) (s : State) : Host.Outcome State Fault Refusal :=
  .next (plainFrame 0x13 f (fun k _ s => endSession k s) s)

/-- CONFIRM: the session is open at the responder once it authenticates (R369). -/
def execConfirm (f : Frame) (s : State) : Host.Outcome State Fault Refusal :=
  let l := f.link.toNat
  .next (if !linkTakes s l then s
    else if bodyMax < f.body.length || f.hdr.version ≠ 1 || f.hdr.type ≠ 0x12 then linkBump l 2 s
    else match mlook s.helloIn f.hdr.sid.toNat with
      | none => linkBump l 2 s
      | some h =>
        if h.link ≠ l then linkBump l 2 s
        else if !f.tagOk then linkBump l 5 s
        else if f.body.length ≠ 32 || !zeroAt f.body 4 28 || !headerBits f.hdr || f.hdr.nonce ≠ 0 then malformedFrame h.entry s
        else
          let s1 := { s with helloIn := mdel s.helloIn f.hdr.sid.toNat }
          if !sessRoom s1 h.entry || !peerUsable s1 h.entry then s1
          else
            let t := openSess h.sid h.entry l false (BitVec.ofNat 32 (u32At f.body 0)) h.transcript s1
            sessMod h.sid.toNat (fun x => { takeNonce 0 x with ce := f.ce.toNat }) t)

/-! ## Timers (R377, R388, R386) -/

/-- RETRANSMIT_TIMEOUT: the frame goes again with a new nonce and the same body; its timer doubles up to 2 ms (R377). -/
def execRetransmitTimeout (sid : W32) (seq : BitVec 48) (s : State) : Host.Outcome State Fault Refusal :=
  .next (match sess? s sid with
    | none => s
    | some x =>
      match mlook x.unacked seq.toNat with
      | none => s
      | some f =>
        if !x.opened || f.acked then s
        else
          let y := { x with nextNonce := x.nextNonce + 1, rto := min 2000 (2 * x.rto),
                            unacked := mput x.unacked seq.toNat { f with resends := f.resends + 1, sentAt := s.time } }
          bump (peerCnt x.entry 2) 1 (bump (portCnt x.link f.op.tc.toNat) 1
            (emitOn x.link (.data x.peerSid f.op.tc seq.toNat f.op.body) (sessPut sid.toNat y s))))

/-- PROBE_TIMER: a PROBE to a peer not heard of (R388). -/
def execProbeTimer (entry : BitVec 10) (s : State) : Host.Outcome State Fault Refusal :=
  .next (match (openOf s entry.toNat).head? with
    | none => s
    | some k => match mlook s.sessions k with
      | none => s
      | some x => bump (portCnt x.link 0) 1 (sendHand x.link 0x03 x.peerSid [] s))

/-- Fault classes of a RECOVERY record: 0x10 and the row of 17 Table 17.1 (notes/assumptions/43.md). -/
def faultClass (row : Nat) : Nat := 0x10 + row

/-- A RECOVERY record (22 Table 22.4). -/
def auditRecovery (cls target : Nat) (code : W16) (sid : W32) (s : State) : State :=
  audit 0x0B code sid (if sid = 0 then 2 else 0) (leBytes 1 cls ++ leBytes 4 target ++ leBytes 4 (rcvLostWord s).toNat) s

/-- Operations that waited for a session and that no run waits for complete with PEER_DOWN. -/
def dropPeerQueue (n : Nat) (s : State) : State :=
  let gone := s.peerQueue.filter (fun q => decide (q.1 = n) && q.2.run.isNone)
  gone.foldl (fun s _ => emit (.opDone 0 0 0 cPeerDown 0) s)
    { s with peerQueue := s.peerQueue.filter (fun q => !(decide (q.1 = n) && q.2.run.isNone)) }

/-- PEER_DOWN: 5 ms without an authenticated frame, or without a session since the first HELLO (R388, R395). -/
def execPeerDown (entry : BitVec 10) (s : State) : Host.Outcome State Fault Refusal :=
  let p := entry.toNat
  .next (if openOf s p = [] then
      (if (mlook s.helloOut p).isSome then dropPeerQueue (peerNode s p) s else s)
    else auditRecovery (faultClass 6) p cPeerDown 0 (bump (peerCnt p 4) 1 (suspendPeer cPeerDown p s)))

/-- FATE_HOLD_EXPIRED: the fate records of an entry's suspended and closed sessions go, and what is still in doubt or was never
sent completes (R386, R389, 17 R417). -/
def execFateHoldExpired (entry : BitVec 10) (s : State) : Host.Outcome State Fault Refusal :=
  let p := entry.toNat
  let n := peerNode s p
  let doubt := s.doubts.filter (fun x => x.2.entry = p)
  let s1 := { s with fates := s.fates.map (fun (f : Nat × Fates) => if f.2.entry = p && f.2.since.isSome then (f.1, { f.2 with recs := [] }) else f) }
  let s2 := doubt.foldl (fun (s : State) (x : Nat × Doubt) =>
    x.2.frames.foldl (fun (s : State) (f : Nat × TxFrame) => runOpDone f.2.op.run cFateUnknown (emit (.opDone x.2.peerSid f.1 0 cFateUnknown 0) s)) s)
    { s1 with doubts := s1.doubts.filter (fun x => x.2.entry ≠ p) }
  let late := if openOf s p = [] then s2.peerQueue.filter (fun q => decide (q.1 = n)) else []
  let keep := if openOf s p = [] then s2.peerQueue.filter (fun q => decide (q.1 ≠ n)) else s2.peerQueue
  .next (late.foldl (fun s q => runOpDone q.2.run cPeerDown (emit (.opDone 0 0 0 cPeerDown 0) s)) { s2 with peerQueue := keep })

/-- HELLO_INTERVAL_END (R370). -/
def execHelloIntervalEnd (s : State) : Host.Outcome State Fault Refusal := .next { s with helloCount := 0 }

/-- QUAR_INTERVAL_END (R392). -/
def execQuarIntervalEnd (s : State) : Host.Outcome State Fault Refusal := .next { s with malformed := [] }

/-! ## Links and neighbours (R364-R367) -/

/-- LINK_UP: a link with a configured mode trains (23 Table 23.2). -/
def execLinkUp (link : BitVec 5) (s : State) : Host.Outcome State Fault Refusal :=
  let l := link.toNat
  .next (if l < 17 ∧ linkMode s l ∧ !portLost s l ∧ !nmem s.pwr.ethLost (if l = 0 then 4 else (l - 1) / 4) ∧ 6 ≤ s.boot.stage then { s with linksUp := nadd s.linksUp l } else s)

/-- FABRIC_LINK_DOWN (17 Table 17.1): sessions carried through the link are suspended. -/
def execFabricLinkDown (link : BitVec 5) (s : State) : Host.Outcome State Fault Refusal :=
  let l := link.toNat
  .next (if !nmem s.linksUp l then s
    else auditRecovery (faultClass 5) l cOk 0 (suspendLink l { s with linksUp := ndel s.linksUp l, paused := ndel s.paused l }))

/-- PAUSE_FRAME: the priority of class 0 pauses or goes on; others are counted (R365, 16 R403). -/
def execPauseFrame (link : BitVec 5) (priority : BitVec 3) (pause : Bool) (s : State) : Host.Outcome State Fault Refusal :=
  let l := link.toNat
  .next (if !nmem s.linksUp l then s
    else if priority.toNat ≠ (rget s 0x000D0008).toNat % 8 then linkBump l 1 s
    else if pause then { s with paused := nadd s.paused l }
    else s.sessions.foldl (fun s x => if x.2.link = l then pumpSession x.1 s else s) { s with paused := ndel s.paused l })

/-- The words of a link's IPv6 address, word 0 lowest. -/
def linkIp6 (s : State) (l : Nat) : BitVec 128 :=
  BitVec.ofNat 128 ((List.range 4).foldr (fun k n => (rget s (0x000D1000 + 0x100 * l + 4 * k)).toNat + 2 ^ 32 * n) 0)

/-- NEIGHBOUR_SOLICITATION: answered for the link's address; another is no Yazer frame (R367). -/
def execNeighbourSolicitation (link : BitVec 5) (target : BitVec 128) (s : State) : Host.Outcome State Fault Refusal :=
  let l := link.toNat
  .next (if !nmem s.linksUp l || portLost s l then s
    else if target = linkIp6 s l then emit (.neighbour l target) s else linkBump l 0 s)

/-- ARP_REQUEST (R367). -/
def execArpRequest (link : BitVec 5) (target : W32) (s : State) : Host.Outcome State Fault Refusal :=
  let l := link.toNat
  let own := rget s (0x000D1010 + 0x100 * l)
  .next (if !nmem s.linksUp l || portLost s l then s
    else if own ≠ 0 && target = own then emit (.arp l target) s else linkBump l 0 s)

end Sys2Proof.Machine
end

