-- ==== Sys2Proof/Machine/Recovery.lean ====
section
/-! DEFINITION. Recovery: restart groups, losses, fallback, mirror copies, warm resets (17 R406-R432, 02 R53, 25 R561). -/

namespace Sys2Proof.Machine

/-! ## A recovery begins and ends (R407, R431, R432) -/

/-- A fault is detected: a recovery begins, or one in progress makes it a double fault. -/
def beginRecovery (s : State) : State :=
  if s.rcv.recovering then alert 3 { s with rcv := { s.rcv with double := true } }
  else fiSuspend (alert 3 { s with rcv := { s.rcv with recovering := true, since := s.time } })

/-- RECOVERING clears, DONE sets, RCV_LAST_US takes the duration. -/
def endRecovery (s : State) : State :=
  let us := min (s.time - s.rcv.since) 0xFFFFFFFF
  let s1 := rset 0x00070010 (BitVec.ofNat 32 us) (rset 0x00070008 (rget s 0x00070008 ||| 0x20) s)
  waitersTest (fiResume (alert 3 { s1 with rcv := { s1.rcv with recovering := false } }))

/-! ## Restart groups (R419) -/

/-- The inlets of the plate and case in force. -/
def inletsNow (s : State) : List Nat :=
  match activePlate s with
  | none => []
  | some p => ((recordsIn p (caseNow s) 6).filter (fun r => r.kind = 0x0200)).map (·.index)

/-- The reefs of an inlet's chain. -/
def inletReefs (s : State) (n : Nat) : List Nat :=
  match activePlate s with
  | none => []
  | some p => match inletNum p (caseNow s) n with
    | none => []
    | some inl => (inl.chain.flatMap (stageRecs p (caseNow s))).filterMap (fun r =>
        if r.island < 16 ∧ r.reef ≤ 7 then some (8 * r.island + r.reef) else none)

/-- The commands of every list of a reef. -/
def reefCmds (s : State) (r : Nat) : List SeqCmd := (List.range 64).flatMap (fun q => listProg s (64 * r + q))

/-- The objects that the lists of some reefs name. -/
def reefObjs (s : State) (rs : List Nat) : List Nat :=
  (rs.flatMap (reefCmds s)).filterMap (fun c => if 0x10 ≤ c.op ∧ c.op ≤ 0x12 then some (c.word / 256 % 2 ^ 13) else none)

/-- The barriers that lists of some reefs take part in. -/
def reefBars (s : State) (rs : List Nat) : List Nat :=
  (List.range 64).filter (fun b => match barNow s b with
    | some pl => pl.lists.any (fun k => rs.contains (k / 64))
    | none => false)

/-- What an inlet uses: reefs, objects from 1000, barriers from 10000. -/
def inletUses (s : State) (n : Nat) : List Nat :=
  let rs := inletReefs s n
  rs ++ (reefObjs s rs).map (1000 + ·) ++ (reefBars s rs).map (10000 + ·)

/-- Inlets that share something with a set of inlets, taken in until none is left. -/
def groupGrow (uses : List (Nat × List Nat)) : Nat → List Nat → List Nat
  | 0, g => g
  | f + 1, g =>
    let held := (uses.filter (fun u => g.contains u.1)).flatMap (·.2)
    groupGrow uses f (uses.filter (fun u => g.contains u.1 || u.2.any held.contains)).unzip.1

/-- The restart group of an inlet. -/
def groupOf (s : State) (n : Nat) : List Nat :=
  let uses := (inletsNow s).map (fun m => (m, inletUses s m))
  groupGrow uses uses.length [n]

/-- The groups of some inlets, each once. -/
def restartGroups (s : State) (ns : List Nat) : List (List Nat) :=
  ns.foldl (fun gs n => if gs.any (·.contains n) then gs else gs ++ [groupOf s n]) []

/-- The channels of a group. -/
def groupChans (s : State) (g : List Nat) : List Nat :=
  (s.chans.filter (fun p => p.2.state ≠ .free && g.contains p.2.inlet.toNat)).map (·.1)

/-- A group holds a barrier that spans devices (R422). -/
def groupSpans (s : State) (g : List Nat) : Bool :=
  (reefBars s (g.flatMap (inletReefs s))).any (fun b => match barNow s b with
    | some pl => decide (pl.root ≠ 0xFFF) || decide (pl.nodes ≠ [])
    | none => false)

/-! ## Restart (R420) and pause (R426) -/

/-- The descriptors of a channel that execute again: accepted, not committed, with no verdict. -/
def replays (c : Chan) : Nat := (c.journal.filter (fun j => j.2.state = .accepted && decide (j.2.verdict = 0) && !j.2.after)).length

/-- Step 4 for some channels: they execute again, and are counted. -/
def replayChans (is : List Nat) (s : State) : State :=
  let n := is.foldl (fun n i => n + replays (chanGet s i)) 0
  bump (rcvCnt 1) n { s with rcv := { s.rcv with frozen := is.foldl ndel s.rcv.frozen } }

/-- An object takes its SYNC_ASSIGN state under a plate and case; Yazer SIGNALs applied to it are discarded and counted. -/
def reassign (p : Plate) (c o : Nat) (s : State) : State :=
  let d := ((sectionIn p c 4 (o / 384) 255).map (·.data)).getD []
  let k := o % 384
  let n := mget 0 s.yzApplied o
  bump (rcvCnt 5) n
    (objPut o { count := u16At d (8 * k + 2), ceiling := u16At d (8 * k), timeout := u32At d (8 * k + 4) % 2 ^ 24, queue := [] }
      { s with yzApplied := mset 0 s.yzApplied o 0 })

/-- The cells, lists and engines of some reefs start anew. -/
def clearReefs (rs : List Nat) (s : State) : State :=
  let mine := fun (r : Nat) => rs.contains r
  { s with lists := s.lists.filter (fun p => !mine (p.1 / 64)), engines := s.engines.filter (fun p => !mine (p.1 / 256)),
           rcells := s.rcells.filter (fun p => !mine (p.1 / 256)), dcells := s.dcells.filter (fun p => !mine (p.1 / 256)),
           cellLinks := s.cellLinks.filter (fun p => !mine (p.1 / 1024)), asuHeld := s.asuHeld.filter (fun h => !mine h.reef) }

/-- Sync objects and barriers of some reefs as SYNC_ASSIGN gives them. -/
def resync (p : Plate) (c : Nat) (rs : List Nat) (s : State) : State :=
  let os := (s.objs.filter (fun q => rs.contains (q.1 / 48))).map (·.1) ++ reefObjs s rs
  let s1 := os.foldl (fun s o => reassign p c o s) s
  { s1 with barriers := (reefBars s rs).foldl mdel s1.barriers }

/-- Runs of accepted descriptors of a channel dropped. -/
def dropChan (s : State) (i : Nat) : State :=
  (chanGet s i).journal.foldl (fun s j => if j.2.state = .accepted then dropRun (runNum i j.1) s else s) s

/-- Step 2 for a group: uncommitted work dropped, sync state as assigned. -/
def dropGroup (g : List Nat) (s : State) : State :=
  let rs := g.flatMap (inletReefs s)
  let s1 := clearReefs rs ((groupChans s g).foldl dropChan s)
  bump (rcvCnt 0) 1 (match activePlate s with | some p => resync p (caseNow s) rs s1 | none => s1)

/-- A channel pauses for want of a fallback map: OPEN pauses, DRAINING is held, CANCELLING goes on. -/
def pauseChan (s : State) (i : Nat) : State :=
  let c := chanGet s i
  let s1 := { s with rcv := { s.rcv with frozen := ndel s.rcv.frozen i } }
  if c.state = .opened then chanPut i { c with state := .paused } s1
  else if c.state = .draining then chanPut i { c with held := true } s1
  else s1

/-- A group that needs a restart: restarted, or paused where it spans devices. -/
def restartGroup (s : State) (g : List Nat) : State :=
  if groupSpans s g then (groupChans s g).foldl pauseChan s else replayChans (groupChans s g) (dropGroup g s)

/-- A group restarted whose descriptors wait, or paused where it spans devices. -/
def freezeGroup (s : State) (g : List Nat) : State :=
  if groupSpans s g then (groupChans s g).foldl pauseChan s
  else
    let t := dropGroup g s
    { t with rcv := { t.rcv with frozen := (groupChans s g).foldl nadd t.rcv.frozen } }

/-! ## Copies of journals and rings (R412) -/

/-- A channel goes on with one copy when the other's stack is lost. -/
def copyLost (n : Nat) (c : Chan) : Chan :=
  if c.state = .free ∨ c.single then c
  else if c.primary = n then { c with primary := c.mirror, mirror := c.primary, single := true }
  else if c.mirror = n then { c with single := true }
  else c

/-- The stack where a channel's new copy goes, where one has room. -/
def rebuildAt (s : State) (c : Chan) : Option Nat :=
  if c.state = .free || !c.single || islLost s c.primary then none
  else [2, 14, 6, 10].findSome? (fun d =>
    let k := (c.primary + d) % 16
    if !islLost s k && ringFits s k c.ringOff (32 * c.slots) then some k else none)

/-- MIRROR_REBUILT: the new copy is complete. -/
def mirrorRebuilt (i : Nat) (s : State) : State :=
  let c := chanGet s i
  match rebuildAt s c with
  | none => s
  | some k =>
    let b := readMem s (hbmKey c.primary (0xFEC000000 + c.ringOff)) (32 * c.slots)
    chanPut i { c with mirror := k, single := false } (writeMem (hbmKey k (0xFEC000000 + c.ringOff)) b s)

/-! ## Loss of an island and its stack (R408, R423-R427) -/

/-- Power domains of a lost die are off. -/
def domainsOff (ds : List Nat) (s : State) : State :=
  { s with pwr := { s.pwr with state := ds.foldl (fun w d => w &&& ~~~(1#80 <<< d)) s.pwr.state, switching := ds.foldl ndel s.pwr.switching } }

/-- A table loses a byte when a stack is lost: its pools lie on every stack, its wide areas on the stack of each granule. -/
def embLoses (s : State) (t : EmbTab) : Bool :=
  (embAreas t).any (fun a => match a with
    | .wide b n => anyLost s b n
    | .pool _ n => decide (n ≠ 0) && (List.range 16).any (islLost s))

/-- R425: tables with lost bytes are not ready, and LOST_STEP takes FOLDED_STEP. -/
def loseTables (s : State) : State :=
  match activePlate s with
  | none => s
  | some p => (embTabs p (caseNow s)).foldl (fun s t =>
      let e := embGet s t.id
      if embLoses s t && e.ready then embPut t.id { Emb.init with lostStep := e.folded, epoch := e.epoch } s else s) s

/-- Inlets that island `n`'s loss takes something from: a reef, or memory of a live descriptor. Judged with the island lost. -/
def lostInlets (s : State) (n : Nat) : List Nat :=
  let lostMem := fun (m : Nat) => s.chans.any (fun c => decide (c.2.inlet.toNat = m) && c.2.state ≠ .free &&
    c.2.journal.any (fun j => (j.2.state = .accepted || j.2.state = .committed) &&
      (anyLost s (localOf j.2.d.inAddr) j.2.d.inLen.toNat || anyLost s (localOf j.2.d.outAddr) j.2.d.outLen.toNat
        || (decide (j.2.d.paramLen ≠ 0) && anyLost s (localOf j.2.d.paramAddr) j.2.d.paramLen.toNat))))
  (inletsNow s).filter (fun m => (inletReefs s m).any (fun r => decide (r / 8 = n)) || lostMem m)

/-- The groups of some inlets pause; a running plate is PAUSED(n). -/
def pauseGroups (n : Nat) (gs : List (List Nat)) (s : State) : State :=
  let s1 := gs.foldl (fun s g => (groupChans s g).foldl pauseChan s) s
  if s1.plt.active = .running then { s1 with plt := { s1.plt with active := .paused, case := n } } else s1

/-- What follows for the channels: fallback case `n` is applied, or the affected groups pause. -/
def islandGroups (n : Nat) (s : State) : State :=
  let gs := restartGroups s (lostInlets s n)
  let mapped := ((activePlate s).map (fun p => p.mask.getLsbD n)).getD false
  if s.plt.active = .empty then s
  else if s.plt.active ≠ .running || s.plt.fallbackFor.isSome || s.rcv.cape || !mapped then pauseGroups n gs s
  else
    let t := gs.foldl freezeGroup s
    { t with plt := { t.plt with fallbackFor := some n } }

/-- Island `n`, and with it stack `n`, is lost. -/
def islandLost (n : Nat) (s : State) : State :=
  if islLost s n then s
  else
    let s1 := beginRecovery { s with rcv := { s.rcv with islands := s.rcv.islands ||| (1#16 <<< n) } }
    let s2 := auditRecovery (faultClass 2) n cOk 0 s1
    let s3 := domainsOff [4 * n, 4 * n + 1, 4 * n + 2, 4 * n + 3] { s2 with chans := s2.chans.map (fun p => (p.1, copyLost n p.2)) }
    let s4 := clearReefs ((List.range 8).map (8 * n + ·)) (loseTables s3)
    let s5 := { s4 with asu := s4.asu.filter (fun p => p.1 / 524288 ≠ n), isl := mdel s4.isl n }
    pwrTrack (islandGroups n (discardByLoss (fiLostCheck s5)))

/-- Stack `n` is declared lost (19 R463): its record, and the loss of island `n`. -/
def stackLost (n : Nat) (s : State) : State :=
  if islLost s n then s
  else
    islandLost n (intRecord n { kind := 5, place := 0, unit := n, symbols := 255, pos0 := 255, pos1 := 255, source := 0,
                                addr := BitVec.ofNat 64 (hbmKey n 0), handle := 0 } s)

/-- FALLBACK_SWITCH (02 R53, R573): the affected islands switch to case `n`, or a bad proof leaves the channels paused. -/
def fallbackSwitch (bad : Nat) (s : State) : State :=
  match s.plt.fallbackFor, activePlate s with
  | some n, some p =>
    let cold := s.rcv.frozen.map (·.1)
    if s.rcv.cape || (List.range 16).any (fun i => bit bad i && !islLost s i) then
      let s1 := cold.foldl pauseChan s
      { s1 with plt := { s1.plt with active := .paused, case := n, fallbackFor := none } }
    else
      let s1 := { s with plt := { s.plt with active := .fallback, case := n, fallbackFor := none },
                         isl := s.isl.filter (fun q => !p.sections.any (fun x => x.case = n && x.island = q.1)) }
      let rs := cold.flatMap (fun i => inletReefs s1 (chanGet s1 i).inlet.toNat)
      let s2 := resync p n rs (clearReefs rs s1)
      let gone := (s2.chans.filter (fun c => c.2.state ≠ .free && (inletNum p n c.2.inlet.toNat).isNone)).map (·.1)
      replayChans (cold.filter (fun i => !gone.contains i)) (gone.foldl pauseChan s2)
  | _, _ => s

/-! ## Straits, harbours, the cape (R428, R429) -/

/-- The strait die that holds the barrier root (01 Table 1.4). -/
def rootDie (s : State) : Nat := if straitLost s 0 then 2 else 0

/-- The strait die of an island's barrier counter: the lower-numbered of its two. -/
def barrierDie (i : Nat) : Nat := min (i % 4) ((i + 1) % 4)

/-- Inlets whose barrier counters or merge lists lie on strait die `d` as the device stands. -/
def dieInlets (s : State) (d : Nat) : List Nat :=
  (inletsNow s).filter (fun m =>
    (reefBars s (inletReefs s m)).any (fun b => match barNow s b with
      | some pl => decide (rootDie s = d) || pl.lists.any (fun k => decide (barrierDie (k / 512) = d))
      | none => false)
    || (match activePlate s with
      | some p => (match inletNum p (caseNow s) m with
        | some inl => inl.chain.any (fun st =>
            let rs := stageRecs p (caseNow s) st
            (stageKinds rs).contains 14 && decide ((let q := reefOf rs / 8 % 4; if straitLost s q then (q + 2) % 4 else q) = d))
        | none => false)
      | none => false))

/-- Unacknowledged flits of a lost strait link or die go again over the alternate route (01 R24). -/
def reroute (ls : List Nat) (s : State) : State :=
  ls.foldl (fun s l => [0, 1].foldl (fun s d =>
    let k := 2 * l + d
    match mlook s.straits k with
    | none => s
    | some x => x.pending.foldl (fun s q => emit (.flitSent l (d = 1) (BitVec.ofNat 32 q.1) true) s)
        { s with straits := mput s.straits k { x with pending := [] } }) s) s

/-- STRAIT_LINK_LOST: routes change, and nothing restarts. -/
def straitLinkLost (l : Nat) (s : State) : State :=
  if 46 ≤ l || straitLinkDown s l then s
  else
    let s1 := beginRecovery { s with rcv := { s.rcv with links := nadd s.rcv.links l } }
    fiLostCheck (reroute [l] (auditRecovery (faultClass 0) l cOk 0 s1))

/-- STRAIT_DIE_LOST: the groups whose barrier counters or merge lists lay on it restart. -/
def straitDieLost (d : Nat) (s : State) : State :=
  if straitLost s d then s
  else
    let gs := restartGroups s (dieInlets s d)
    let s1 := beginRecovery { s with rcv := { s.rcv with straits := s.rcv.straits ||| (1#4 <<< d) } }
    let s2 := domainsOff [64 + d] (auditRecovery (faultClass 1) d cOk 0 s1)
    let s3 := fiLostCheck (reroute ((List.range 46).filter (fun l => linkDie l = d ∨ linkNear l = 16 + d)) s2)
    gs.foldl restartGroup s3

/-- Links go down: their sessions are suspended. -/
def linksDown (ls : List Nat) (s : State) : State :=
  ls.foldl (fun s l => suspendLink l { s with linksUp := ndel s.linksUp l, paused := ndel s.paused l }) s

/-- HARBOUR_LOST. -/
def harbourGone (h : Nat) (s : State) : State :=
  if harbourLost s h then s
  else
    let s1 := beginRecovery { s with rcv := { s.rcv with harbours := s.rcv.harbours ||| (1#4 <<< h) } }
    let s2 := domainsOff [68 + h, 72 + h] (auditRecovery (faultClass 4) h cOk 0 s1)
    pwrTrack (fiLostCheck (linksDown (harbourLinks h) s2))

/-- CAPE_LOST: the degraded state, whose entry completes the recovery; a fallback that the burin was applying pauses. -/
def capeGone (s : State) : State :=
  if s.rcv.cape then s
  else
    let alone := !s.rcv.recovering
    let s1 := beginRecovery { s with rcv := { s.rcv with cape := true } }
    let s2 := domainsOff [76, 77, 78, 79] (auditRecovery (faultClass 7) 0 cOk 0 s1)
    let s3 := fallbackSwitch 0 (fiLostCheck (linksDown [0] s2))
    if alone then endRecovery s3 else s3

/-! ## Reference clocks (25 R561) -/

/-- HBM_CLOCK_LOST: four stacks and islands at once, a double fault. -/
def hbmClockLost (k : Nat) (s : State) : State :=
  let s1 := alert 3 { s with rcv := { s.rcv with double := true } }
  [0, 1, 2, 3].foldl (fun s j => stackLost (4 * k + j) s) s1

/-- ETH_CLOCK_LOST: the links of a harbour (0-3) or of the cape (4) go down; the timers go on. -/
def ethClockLost (k : Nat) (s : State) : State :=
  if 4 < k || nmem s.pwr.ethLost k then s
  else
    let ls := (if k = 4 then [0] else harbourLinks k).filter (nmem s.linksUp)
    let s1 := ls.foldl (fun s l => auditRecovery (faultClass 5) l cOk 0 s) { s with pwr := { s.pwr with ethLost := nadd s.pwr.ethLost k } }
    linksDown ls s1

/-- ETH_CLOCK_RETURN: links may train again. -/
def ethClockReturn (k : Nat) (s : State) : State := { s with pwr := { s.pwr with ethLost := ndel s.pwr.ethLost k } }

/-! ## Warm resets (R430, R431, 23 R531) -/

/-- The links of a level 3 target. -/
def portLinks (s : State) (t : Nat) : Option (List Nat) :=
  if t < 8 then (if harbourLost s (t / 2) then none else some (if brokenOut s t then [1 + 2 * t, 2 + 2 * t] else [1 + 2 * t]))
  else if t < 24 then
    (let n := (t - 8) / 2
     if harbourLost s (n / 2) || !brokenOut s n then none else some [t - 7])
  else none

/-- RCV_TARGET. -/
def rcvTarget (s : State) : Nat := (rget s 0x00070000).toNat

/-- Step 6 of a write to RCV_CMD. -/
def rcvCheck (s : State) (level : Nat) : W16 :=
  let t := rcvTarget s
  let h := rget s 0x00070000
  let valid := match level with
    | 1 => decide (handleCode s h = cOk) && !groupSpans s (groupOf s (chanGet s (handleIdx h)).inlet.toNat)
    | 2 => decide (t < 16) && !islLost s t
    | 3 => (portLinks s t).isSome
    | 4 => decide (t = 0)
    | _ => false
  if !valid then cResetInvalid else if s.rcv.recovering then cRecoveryBusy else cOk

/-- ASU entries of some islands read again from their copies; a position whose copy is poisoned is lost (10 R257). -/
def asuReload (is : List Nat) (s : State) : State :=
  match activePlate s with
  | none => s
  | some p =>
    let c := caseNow s
    (asuTabs p c).foldl (fun s t => ((asuRanges t).flatMap (fun r => (List.range r.2).map (r.1 + ·))).foldl (fun s g =>
      if !is.contains (g / 524288) then s
      else if asuCopyBad s t g then asuLose g s
      else { s with asu := mset AsuEntry.free s.asu g (asuFromCopy t (readMem s (asuCopyAddr t g) (asuCopyBytes t))) }) s) s

/-- The cells, engines, sequencers and WXAs of an island reset, its ASU banks reloaded. -/
def resetIsland (n : Nat) (s : State) : State :=
  let s1 := clearReefs ((List.range 8).map (8 * n + ·)) s
  asuReload [n] { s1 with wxas := s1.wxas.filter (fun p => 2048 ≤ p.1 || p.1 / 128 ≠ n) }

/-- A device warm reset: every session ends, every group restarts, every slot stops, and stages 3 to 6 run again. -/
def deviceWarm (sid : W32) (s : State) : State :=
  let s0 := auditRecovery 4 0 cOk sid (beginRecovery { s with rcv := { s.rcv with warmPending := false } })
  let s1 := (s0.sessions.map (·.1)).foldl (fun s k => endSession k s) (fiReset s0)
  let s2 := (restartGroups s1 (inletsNow s1)).foldl freezeGroup s1
  let s3 := clearReefs (List.range 128) s2
  let s4 := asuReload (List.range 16) { s3 with wxas := s3.wxas.filter (fun p => 2048 ≤ p.1), isl := [],
                                                emb := s3.emb.map (fun t => (t.1, { t.2 with prefetch := [] })) }
  { linksDown (List.range 17) s4 with
    straits := [], helloOut := [], helloIn := [], boot := { s4.boot with stage := 3 } }

/-- A channel's, island's or port's warm reset. -/
def rcvReset (level : Nat) (sid : W32) (s : State) : State :=
  let t := rcvTarget s
  let s0 := auditRecovery level t cOk sid (beginRecovery s)
  match level with
  | 1 => restartGroup s0 (groupOf s0 (chanGet s0 (handleIdx (rget s 0x00070000))).inlet.toNat)
  | 2 => (restartGroups s0 ((inletsNow s0).filter (fun m => (inletReefs s0 m).any (fun r => decide (r / 8 = t))))).foldl restartGroup (resetIsland t s0)
  | _ => linksDown ((portLinks s t).getD []) s0

/-- What a checked RCV_CMD does. -/
def rcvDo (level : Nat) (sid : W32) (s : State) : State := if level = 4 then deviceWarm sid s else rcvReset level sid s

/-- WARM_N falls (25 R558): a device warm reset, pending while a recovery or reset runs and before the first entry to stage 7. -/
def warmPin (s : State) : State :=
  if !s.pins.porN || s.pwr.tripped then s
  else if !s.rcv.served || s.rcv.recovering || decide (s.boot.stage < 7) then { s with rcv := { s.rcv with warmPending := true } }
  else deviceWarm 0 s

/-- RECOVERY_COMPLETE: every affected channel is OPEN or paused, and every copy is mirrored or has no room; a pending warm reset
starts. -/
def recoveryComplete (s : State) : State :=
  if !s.rcv.recovering || s.plt.fallbackFor.isSome || s.rcv.frozen ≠ [] || decide (s.boot.stage < 7)
      || s.chans.any (fun c => (rebuildAt s c.2).isSome) then s
  else
    let t := endRecovery s
    if t.rcv.warmPending then deviceWarm 0 t else t

end Sys2Proof.Machine
end

