-- ==== Sys2Proof/Machine/RegRead.lean ====
section
/-! DEFINITION. What each register word reads (21 Tables 21.2-21.11, 17 Table 17.5, 18 Table 18.2, 20 R472-R478). -/

namespace Sys2Proof.Machine

/-- Word `k` of a wider value, low word first. -/
def wordOf (n k : Nat) : Nat := n / 2 ^ (32 * k) % 2 ^ 32

/-! ## Blocks -/

/-- GLB. -/
def readGlb (s : State) (o : Nat) : Nat :=
  if o = 0 then 0x00B00A25 else if o = 4 then s.boot.stage else (rget s o).toNat

/-- STATE codes of Table 21.3. -/
def Standby.code : Standby → Nat
  | .empty => 0
  | .loading => 1
  | .proofing => 2
  | .proofed => 3
  | .committing => 4
/-- ACTIVE codes. -/
def Active.code : Active → Nat
  | .empty => 0
  | .running => 1
  | .fallback => 2
  | .paused => 3

/-- PLT. -/
def readPlt (s : State) (o : Nat) : Nat :=
  let p := s.plt
  let a := activePlate s
  if o < 8 then 0
  else if o = 8 then
    p.standby.code + 16 * p.active.code + 256 * (if p.active = .fallback ∨ p.active = .paused then p.case else 0)
      + 4096 * p.bootPlate.toNat + 8192 * p.copyY.toNat
  else if o = 0xC then (a.map (·.rateNominal.toNat)).getD 0
  else if o = 0x10 then (a.map (·.rateFallback.toNat)).getD 0
  else if o < 0x40 then (rget s (0x00030000 + o)).toNat
  else if o < 0x60 then wordOf ((a.map (·.digest.toNat)).getD 0) ((o - 0x40) / 4)
  else if o < 0x80 then wordOf (standbyDigest s).toNat ((o - 0x60) / 4)
  else if o < 0x88 then wordOf ((a.map (·.id.toNat)).getD 0) ((o - 0x80) / 4)
  else if o = 0x88 then (a.map (·.version.toNat)).getD 0
  else (a.map (·.mask.toNat)).getD 0

/-- SEC, as session `sid` reads it. -/
def readSec (s : State) (sid : W32) (o : Nat) : Nat :=
  if o = 0 then (roleOf s sid).toNat
  else if o = 4 then sid.toNat
  else if o = 8 then s.audit.unlocked.toNat + 2 * s.audit.busy.toNat
  else if o = 0x18 ∨ o = 0x1C then wordOf s.audit.count ((o - 0x18) / 4)
  else if 0x20 ≤ o ∧ o < 0x40 then wordOf s.audit.head.toNat ((o - 0x20) / 4)
  else if 0x40 ≤ o ∧ o < 0x60 then wordOf s.boot.identity.toNat ((o - 0x40) / 4)
  else (rget s (0x00040000 + o)).toNat

/-- The PWR_REQUIRED word `k`. -/
def requiredWord (s : State) (k : Nat) : Nat :=
  (List.range 32).foldl (fun n b =>
    if 32 * k + b < 80 ∧ required s (loadingPlate s plateOf) (32 * k + b) then n + 2 ^ b else n) 0

/-- PWR. -/
def readPwr (s : State) (o : Nat) : Nat :=
  if o < 0x10 then (rget s (0x00050000 + o)).toNat
  else if o < 0x20 then requiredWord s ((o - 0x10) / 4)
  else if o < 0x30 then wordOf s.pwr.state.toNat ((o - 0x20) / 4)
  else (decide (s.pwr.switching ≠ [])).toNat

/-- The holder of a die code, for its loss; stacks go with their islands. -/
def codeLost (s : State) (t : Nat) : Bool := if 32 ≤ t then islLost s (t - 32) else dieLost s t

/-- THM_TEMP of die code `t`: a lost die reads 0x80, one not yet sampled its reset value. -/
def tempOf (s : State) (t : Nat) : Byte := if codeLost s t then 0x80#8 else mget 0 s.pwr.temps t

/-- The die codes of R501. -/
def dieCodes : List Nat := (List.range 48).filter (fun t => t ≤ 24 || 32 ≤ t)

/-- The hottestDie sensor: its temperature and die code, the lowest code first; the reset value before any sample. -/
def hottestDie (s : State) : Byte × Nat :=
  if s.pwr.temps = [] then (0, 0)
  else (dieCodes.filter (fun t => !codeLost s t)).foldl (fun (m : Byte × Nat) t =>
    if m.1.toInt < (tempOf s t).toInt then (tempOf s t, t) else m) (0x80#8, 0)

/-- A rail at 0.75 V that has never stepped. -/
def Rail.init : Rail := { mv := 750, stepped := none, coolSince := none, byPower := false }

/-- THM_STATUS. -/
def thmStatus (s : State) : Nat :=
  let h := hottestDie s
  let slow := s.pwr.rails.any (fun r => decide (r.2.mv < 750))
  h.1.toNat + 256 * h.2 + 2 ^ 16 * s.pwr.warn.toNat + 2 ^ 17 * slow.toNat + 2 ^ 18 * s.pwr.tripped.toNat

/-- THM. -/
def readThm (s : State) (o : Nat) : Nat :=
  if o = 0 then (rget s 0x00060000).toNat else if o = 4 then thmStatus s else (tempOf s ((o - 0x100) / 4)).toNat

/-- Some channel is paused or held for want of a fallback map (17 R426, 02 R573). -/
def pausedNow (s : State) : Bool := s.chans.any (fun c => decide (c.2.state = .paused) || c.2.held)

/-- RCV_STATUS (17 Table 17.5). -/
def rcvStatus (s : State) : Nat :=
  s.rcv.recovering.toNat + 2 * (s.chans.any (fun c => c.2.state ≠ .free && c.2.single)).toNat + 4 * s.rcv.cape.toNat + 8 * s.rcv.double.toNat
    + 16 * (pausedNow s).toNat + (rget s 0x00070008 &&& 0x20).toNat

/-- RCV. -/
def readRcv (s : State) (o : Nat) : Nat :=
  if o = 4 then 0 else if o = 8 then rcvStatus s else if o = 0xC then (rcvLostWord s).toNat else (rget s (0x00070000 + o)).toNat

/-- STATE codes of an injection slot. -/
def FiState.code : FiState → Nat
  | .off => 0
  | .active => 1
  | .suspended => 2
  | .stopped => 3

/-- FI. -/
def readFi (s : State) (o : Nat) : Nat :=
  if o < 0x200 ∧ o % 0x40 = 0x14 then (fiGet s (o / 0x40)).state.code + 4 * (fiGet s (o / 0x40)).cause
  else (rget s (0x00080000 + o)).toNat

/-- SYN. -/
def readSyn (s : State) (o : Nat) : Nat :=
  if o = 0 then (rget s 0x000A0000).toNat
  else if (barNow s ((o - 0x100) / 4)).isSome then (barGet s ((o - 0x100) / 4)).g % 2 ^ 32 else 0

/-- A step number that may be none. -/
def stepWord (o : Option Nat) : Nat := o.getD 0xFFFFFFFFFFFFFFFF

/-- EMB. -/
def readEmb (s : State) (o : Nat) : Nat :=
  if o < 0x100 then (rget s (0x000B0000 + o)).toNat
  else
    let e := embGet s ((o - 0x100) / 0x20)
    match (o - 0x100) % 0x20 with
    | 0x00 => e.ready.toNat + 2 * e.lostStep.isSome.toNat
    | 0x08 => wordOf (stepWord e.folded) 0
    | 0x0C => wordOf (stepWord e.folded) 1
    | 0x10 => wordOf (stepWord e.lostStep) 0
    | 0x14 => wordOf (stepWord e.lostStep) 1
    | _ => 0

/-- ASU: the active sides of table `t`, a bit for each partition. -/
def readAsu (s : State) (o : Nat) : Nat :=
  let t := (o - 0x100) / 0x10
  let k := (o - 0x100) % 0x10 / 4
  (List.range 32).foldl (fun n b => if nmem s.asuSide (128 * t + 32 * k + b) then n + 2 ^ b else n) 0

/-- STATE codes of a channel. -/
def ChState.code : ChState → Nat
  | .free => 0
  | .opened => 1
  | .paused => 2
  | .draining => 3
  | .cancelling => 4
  | .closed => 5

/-- A channel's registers (Table 21.4). -/
def readCh (s : State) (x q : Nat) : Nat :=
  let c := chanGet s x
  let k := q % 8 / 4
  if q = 0 then x + 65536 * c.gen.toNat
  else if c.state = .free then 0
  else match q / 8 * 8 with
    | 0x00 => c.state.code + 8 * c.tc.toNat + 256 * c.ringLog2 + 65536 * c.inlet.toNat + 2 ^ 24 * c.single.toNat + 2 ^ 25 * c.held.toNat
    | 0x08 => c.deadline.toNat
    | 0x10 => wordOf c.accepted k
    | 0x18 => wordOf c.committed k
    | 0x20 => wordOf c.completed k
    | 0x28 => wordOf c.retired k
    | 0x30 => wordOf c.last k
    | 0x38 => wordOf (causeway (ringAddr c c.primary 0)) k
    | 0x40 => if c.single then 0 else wordOf (causeway (ringAddr c c.mirror 0)) k
    | _ => c.primary + 16 * c.mirror

/-- A reef's registers. -/
def readReef (s : State) (r o : Nat) : Nat :=
  if o = 0 then r
  else if o < 0x200 then let x := objGet s (48 * r + (o - 0x100) / 4); x.count + 65536 * x.ceiling
  else (objGet s (48 * r + (o - 0x200) / 4)).timeout

/-- A word of a ring of records; a slot never written reads 0. -/
def ringWord (b : Option (List Byte)) (o : Nat) : Nat := (b.map (fun b => u32At b o)).getD 0

/-- Integrity registers of holder `h` at block offset `o`. -/
def readHolder (s : State) (h o : Nat) : Nat :=
  let g := mget IntRing.init s.intRings h
  if o = 0x808 then g.head
  else if 0xC00 ≤ o then ringWord ((mlook g.recs ((o - 0xC00) / 32)).map IntRec.bytes) (o % 32)
  else (rget s (holderBase h + o)).toNat

/-- An island's registers. -/
def readIsl (s : State) (i o : Nat) : Nat :=
  if o = 0 then (islLost s i).toNat + 2 * mget 0 s.asuLevel i + 8 * (islGet s i).sheet + 32 * sheetsOf s i
  else if o = 8 ∨ o = 0xC then wordOf s.time ((o - 8) / 4)
  else if o = 0x408 then (mget SynRing.init s.synRings i).head
  else if 0x500 ≤ o ∧ o < 0x600 then ringWord ((mlook (mget SynRing.init s.synRings i).recs ((o - 0x500) / 16)).map SynErr.bytes) (o % 16)
  else if o < 0x500 then (rget s (0x01800000 + 0x10000 * i + o)).toNat
  else readHolder s i o

/-- A strait die's registers. -/
def readStrait (s : State) (d o : Nat) : Nat :=
  if o = 0 then (straitLost s d).toNat + 2 * (decide (rootDie s = d) && !straitLost s d).toNat else readHolder s (16 + d) o

/-! ## Domains and counters -/

/-- The power domain of a register window (24 R540). -/
def windowDomain (off : Nat) : Option Nat :=
  let w := off / 0x10000
  if 0x100 ≤ w ∧ w < 0x180 then some (4 * ((w - 0x100) / 8) + (w - 0x100) % 8 / 4)
  else if 0x180 ≤ w ∧ w < 0x190 then some (4 * (w - 0x180) + 3)
  else if 0x190 ≤ w ∧ w < 0x194 then some (64 + (w - 0x190))
  else if 0x194 ≤ w ∧ w < 0x198 then some (68 + (w - 0x194))
  else none

/-- The window is off: its registers read 0 and writes to them are discarded; the status word of an island or strait die stands,
since it names a lost die. -/
def windowOff (s : State) (off : Nat) : Bool :=
  match windowDomain off with
  | none => false
  | some d => !s.pwr.state.getLsbD d && !(decide (0x180 ≤ off / 0x10000) && decide (off % 0x10000 = 0))

/-- A counter. -/
def cnt (s : State) (i : Nat) : Nat := (mget 0 s.counters i).toNat

/-- A pair of a snapshot bank. -/
def bankPair (s : State) (b : Bool) (i : Nat) : Nat := (mget 0 (if b then s.snap.bankB else s.snap.bankA) i).toNat

/-- A word of one of the blocks of the map. -/
def blockRead (s : State) (sid : W32) (off : Nat) : Nat :=
  let w := off / 0x10000
  let o := off % 0x10000
  if w < 0x10 then
    (match w with
     | 0x0 => readGlb s o
     | 0x1 => if o = 4 then s.snap.seq % 2 ^ 31 + 2 ^ 31 * s.snap.busy.toNat else 0
     | 0x3 => readPlt s o
     | 0x4 => readSec s sid o
     | 0x5 => readPwr s o
     | 0x6 => readThm s o
     | 0x7 => readRcv s o
     | 0x8 => readFi s o
     | 0xA => readSyn s o
     | 0xB => readEmb s o
     | 0xC => readAsu s o
     | _ => (rget s off).toNat)
  else if w < 0x30 then readCh s (128 * (w - 0x10) + o / 0x100) (o % 0x100)
  else if 0x100 ≤ w ∧ w < 0x180 then readReef s (w - 0x100) o
  else if 0x180 ≤ w ∧ w < 0x190 then readIsl s (w - 0x180) o
  else if 0x190 ≤ w ∧ w < 0x194 then readStrait s (w - 0x190) o
  else if 0x194 ≤ w ∧ w < 0x199 then readHolder s (20 + (w - 0x194)) o
  else (rget s off).toNat

/-- The value of the register word at `off`, as session `sid` reads it. -/
def regRead (s : State) (sid : W32) (off : Nat) : W32 :=
  if windowOff s off then 0
  else match counterWord off with
    | some (i, hi) => BitVec.ofNat 32 (wordOf (cnt s i) hi.toNat)
    | none => match bankWord off with
      | some (b, i, hi) => BitVec.ofNat 32 (wordOf (bankPair s b i) hi.toNat)
      | none => BitVec.ofNat 32 (blockRead s sid off)

/-- The low word's pair, for counters and bank words (20 R476). -/
def pairRead (s : State) (off : Nat) : Option Nat :=
  match counterWord off, bankWord off with
  | some (i, false), _ => some (if windowOff s off then 0 else cnt s i)
  | none, some (b, i, false) => some (bankPair s b i)
  | _, _ => none

/-! ## Shape of an access (Table 20.1) -/

/-- Lengths of Table 20.1. -/
def regLen (n : Nat) : Bool := n = 1 || n = 2 || n = 4 || n = 8 || (decide (12 ≤ n) && decide (n ≤ 64) && decide (n % 4 = 0))

/-- Aligned (R474). -/
def regAligned (a n : Nat) : Bool := if n ≤ 8 then decide (a % n = 0) else decide (a % 4 = 0) && decide (a / 64 = (a + n - 1) / 64)

/-- Step 1 of R475: length, then alignment. -/
def regShape (a n : Nat) : W16 := if !regLen n then cRegOpInvalid else if !regAligned a n then cRegUnaligned else cOk

/-- Local addresses of the register and alias regions. -/
def regRegion : Nat := 0x030000000000
def aliasRegion : Nat := 0x038000000000

/-- Register words that an access of `n` bytes at offset `off` covers. -/
def regWords (off n : Nat) : List Nat := (List.range ((n + 3) / 4)).map (fun k => off / 4 * 4 + 4 * k)

/-- The register and bit of the alias word at an offset of the alias region (R477). -/
def aliasOf (rel : Nat) : Nat × Nat := (rel / 128 * 4, rel / 4 % 32)

/-- An alias word names a register that exists; complement ports have none. -/
def aliasOk (rel : Nat) : Bool := (regAt (aliasOf rel).1).isSome

end Sys2Proof.Machine
end

