-- ==== Sys2Proof/Machine/RegWrite.lean ====
section
/-! DEFINITION. Register writes: the checks of each block, effects, guarded pairs, aliases, counters, shadows (20 R470-R492, 21,
22 R511-R516). -/

namespace Sys2Proof.Machine

/-! ## Ranges (21 R494, 12 Table 12.5) -/

/-- The range of a field that fills a word: lowest and highest value. -/
def wordRange (off : Nat) : Option (Nat × Nat) :=
  match off with
  | 0x000B0010 => some (100, 100000)
  | 0x000B0014 => some (16, 65535)
  | 0x000B0018 => some (1000, 1000000)
  | 0x000B001C => some (129, 1024)
  | 0x000D000C => some (1000, 600000)
  | 0x000D0010 => some (1, 65535)
  | 0x000D0014 => some (100, 10000000)
  | _ => none

/-- A value taken to the nearest end of a range. -/
def clampTo (lo hi v : Nat) : Nat := max lo (min hi v)

/-- What a register holds of a written value: ranges of 21 R494. -/
def clampWord (off v : Nat) : Nat :=
  if off = 0x00060000 then
    clampTo 60 105 (v % 256) + 256 * clampTo 70 110 (v / 256 % 256) + 65536 * clampTo 105 125 (v / 65536 % 256)
  else match wordRange off with
    | some (lo, hi) => clampTo lo hi v
    | none => v

/-- The ranges of the integrity settings, which refuse (19 R466). -/
def miRange (off : Nat) : Option (Nat × Nat) :=
  match off with
  | 0x00090004 => some (1, 168)
  | 0x00090008 => some (10, 10000)
  | 0x0009000C => some (16, 65535)
  | _ => none

/-! ## Fault injection (18 R437, R442-R444) -/

/-- Check 1 of R442: every field in its range. -/
def fiConfigOk (s : State) (k : Nat) : Bool :=
  let t := fiTarget s k
  let m := fiMode s k
  let i := fiIndex t
  let st := fiStrait t
  let seed := (rget s (fiBase k + 8)).toNat + (rget s (fiBase k + 12)).toNat
  (if st then decide (i < 46) else decide (i < 8) || (decide (i < 24) && brokenOut s ((i - 8) / 2)))
    && decide (fiKind m ≠ 3) && (!fiBefore m || (fiKind m = 1 && !st))
    && (if fiKind m = 1 && st then decide (1 ≤ fiSymbols m) else decide (fiSymbols m = 0))
    && decide (1 ≤ fiN m) && decide (fiN m ≤ 32)
    && (if fiKind m = 2 then decide (1 ≤ fiM m) else decide (fiM m = 0)) && decide (fiMask m ≠ 0) && decide (seed ≠ 0)

/-- The checks of R442 for a bit that goes from 0 to 1. -/
def fiEnableCode (s : State) (r : Role) (k : Nat) : W16 :=
  if !fiConfigOk s k then cFiConfig
  else if r ≠ .maker && (r ≠ .installer || fiStrait (fiTarget s k)) then cFiTarget
  else if fiLost s (fiTarget s k) then cFiLost
  else if s.rcv.cape then cFiAudit
  else cOk

/-- Slot `k` is enabled: its seed is loaded; during a recovery it is at once SUSPENDED. -/
def fiOn (k : Nat) (sid : W32) (s : State) : State :=
  let seed := BitVec.ofNat 64 ((rget s (fiBase k + 8)).toNat + 2 ^ 32 * (rget s (fiBase k + 12)).toNat)
  let s1 := fiMark k true (fiAudit k 1 sid s)
  let x : FiSlot := { state := .active, cause := 0, s := seed, held := none, passed := 0 }
  if s1.rcv.recovering then bump (fiCnt k 2) 1 (fiPut k { x with state := .suspended } s1) else fiPut k x s1

/-- Slot `k` is disabled. -/
def fiOff (k : Nat) (sid : W32) (s : State) : State :=
  let s1 := fiRelease k (fiMark k false (fiAudit k 2 sid s))
  fiPut k { fiGet s1 k with state := .off, cause := 1 } s1

/-- FI_ERR. -/
def fiErr (c : W16) (s : State) : State := rset 0x00080404 (c.setWidth 32) s

/-- A write of FI_ENABLE, bit by bit: the code of the first bit refused, and the other bits' effect. -/
def fiEnable (v : Nat) (sid : W32) (s : State) : W16 × State :=
  (List.range 8).foldl (fun (a : W16 × State) k =>
    let was := (rget a.2 0x00080400).getLsbD k
    if bit v k && !was then
      (match fiEnableCode a.2 (roleOf s sid) k with
       | 0 => (a.1, fiOn k sid a.2)
       | c => if a.1 = 0 then (c, fiErr c a.2) else a)
    else if !bit v k && was then (a.1, fiOff k sid a.2)
    else a) (cOk, s)

/-! ## Shadows (21 R503) -/

/-- The entry or window of a word of a peer block: its first word, its words, and its commit word. -/
def shadowOf (off : Nat) : Nat × Nat × Nat :=
  let o := off % 0x10000
  if o < 0x40 then (off - o, 16, off - o + 0x20) else (off - o % 0x20, 8, off - o % 0x20 + 0x10)

/-- Words of the peer blocks. -/
def isPeerWord (off : Nat) : Bool := decide (0x02000000 ≤ off) && decide (off < 0x06000000) && decide (off % 0x10000 < 0x2000)

/-- An entry's shadow: started as a copy of the entry in use. -/
def shadowStart (off : Nat) (s : State) : State :=
  let (b, n, _) := shadowOf off
  if mget 0 s.shadow b ≠ 0 then s
  else { s with shadow := (List.range n).foldl (fun m k => mset 0 m (b + 4 * k) ((rget s (b + 4 * k)).toNat + 1)) s.shadow }

/-- A plain write of a shadow word. -/
def shadowWrite (off v : Nat) (s : State) : State :=
  let t := shadowStart off s
  { t with shadow := mset 0 t.shadow off (v + 1) }

/-- A commit word: the entry or window takes its shadow and the new word in one step. -/
def shadowCommit (off v : Nat) (s : State) : State :=
  let (b, n, c) := shadowOf off
  let s1 := (List.range n).foldl (fun s k =>
    let q := mget 0 s.shadow (b + 4 * k)
    let s1 := if q = 0 then s else rset (b + 4 * k) (BitVec.ofNat 32 (q - 1)) s
    { s1 with shadow := mset 0 s1.shadow (b + 4 * k) 0 }) s
  rset c (BitVec.ofNat 32 v) s1

/-! ## The counter snapshot (20 R487-R489) -/

/-- The die that holds a counter: a code of 0-24 (notes/assumptions/62.md). -/
def counterDie (i : Nat) : Nat :=
  if i < 32768 then (32 * (i / 8192) + i % 8192 / 128) / 8
  else if i < 35968 then (i - 32768) / 128
  else if 36096 ≤ i ∧ i < 36232 then (let l := (i - 36096) / 8; if l = 0 then 24 else 20 + (l - 1) / 4)
  else 24

/-- The value that a cut takes of a counter: 0 in a domain that is off (24 R540). -/
def cutValue (s : State) (i : Nat) : W64 :=
  let off := if i < 32768 then (let r := 32 * (i / 8192) + i % 8192 / 128; !s.pwr.state.getLsbD (4 * (r / 8) + r % 8 / 4))
    else if 32768 + 128 * 20 ≤ i ∧ i < 32768 + 128 * 24 then !s.pwr.state.getLsbD (68 + ((i - 32768) / 128 - 20)) else false
  if off then 0 else mget 0 s.counters i

/-- The bank of capture `n` changed. -/
def bankMod (n : Nat) (f : SMap W64 → SMap W64) (s : State) : State :=
  { s with snap := if n % 2 = 1 then { s.snap with bankA := f s.snap.bankA } else { s.snap with bankB := f s.snap.bankB } }

/-- Die `d` takes its cut: its counters go to the bank, and markers to its outputs. -/
def snapCut (d : Nat) (s : State) : State :=
  let n := s.snap.seq + 1
  let copy := fun (m : SMap W64) =>
    s.counters.foldl (fun m c => if counterDie c.1 = d then mset 0 m c.1 (cutValue s c.1) else m) (m.filter (fun p => counterDie p.1 ≠ d))
  emit (.marker d n) (bankMod n copy { s with snap := { s.snap with cut := nadd s.snap.cut d } })

/-- A die that is lost at the capture: its counters read all ones. -/
def snapLost (d : Nat) (s : State) : State :=
  let ones := fun (m : SMap W64) =>
    ((List.range 57344).filter (fun i => snapIndex i && decide (counterDie i = d))).foldl (fun m i => mset 0 m i (BitVec.allOnes 64)) m
  bankMod (s.snap.seq + 1) ones s

/-- CAPTURE: the cape takes its cut first. -/
def snapStart (s : State) : State :=
  let t := { s with snap := { s.snap with busy := true, cut := [] } }
  if t.rcv.cape then emit (.marker 24 (t.snap.seq + 1)) t else snapCut 24 t

/-- SNAPSHOT_MARKER. -/
def snapMarker (d : Nat) (s : State) : State :=
  if !s.snap.busy || 25 ≤ d || nmem s.snap.cut d || dieLost s d then s else snapCut d s

/-- SNAPSHOT_COMPLETE: every live die has taken its cut. -/
def snapDone (s : State) : State :=
  if !s.snap.busy || !(List.range 25).all (fun d => dieLost s d || nmem s.snap.cut d) then s
  else
    let t := ((List.range 25).filter (fun d => !nmem s.snap.cut d)).foldl (fun s d => snapLost d s) s
    { t with snap := { t.snap with seq := (t.snap.seq + 1) % 2 ^ 31, busy := false, cut := [] } }

/-! ## The audit commands (22 R516-R518) -/

/-- SEC_AUDIT_CMD bits set: CHECKPOINT is written now, FLUSH starts or is owed. In the degraded state no record is written. -/
def auditCmd (v : Nat) (s : State) : State :=
  if s.rcv.cape then (if v % 4 = 0 then s else bump (rcvCnt 8) 1 s)
  else
    let s1 := rset 0x00040010 (rget s 0x00040010 ||| BitVec.ofNat 32 (v % 4)) s
    let s2 := if bit v 0 then auditPeriodic (auditCheckpoint s1) else s1
    if bit v 1 then auditFlush s2 else s2

/-! ## Words (R475 step 6, R472, R479) -/

/-- Step 6 for a plain write of `v` to the word at `off`. -/
def wordCheck (s : State) (off v : Nat) : W16 :=
  if off = 0x00010000 then (if bit v 0 && s.snap.busy then cSnapBusy else cOk)
  else if off = 0x00030000 then pltCheck s (v % 16)
  else if 0x00080000 ≤ off ∧ off < 0x00080200 then (if fiBusy s ((off - 0x00080000) / 0x40) then cFiBusy else cOk)
  else match miRange off with
    | some (lo, hi) => if lo ≤ v ∧ v ≤ hi then cOk else cMiConfig
    | none => cOk

/-- A code of the fault injection block is held in FI_ERR. -/
def noteFi (off : Nat) (c : W16) (s : State) : State := if c ≠ 0 ∧ 0x00080000 ≤ off ∧ off < 0x00090000 then fiErr c s else s

/-- The fields of a role that a write of a split register changes (notes/assumptions/40.md). -/
def roleBits (w : RegWord) (r : Role) : Nat × Nat :=
  if w.right = .split then (if r = .operator then (0, w.w1c) else (w.rw, 0)) else (w.rw, w.w1c)

/-- The word that RW bits and W1C bits leave: `rw` bits take `v`, `clear` bits go where `v` has a one. -/
def mergeWord (old : W32) (rw clear v : Nat) : W32 :=
  let m := BitVec.ofNat 32 rw
  let c := BitVec.ofNat 32 clear
  let x := BitVec.ofNat 32 v
  ((old &&& ~~~m) ||| (x &&& m)) &&& ~~~(x &&& c)

/-- A plain register takes its word: ALERT_N may fall, and a link's mode may change what power is required. -/
def regSet (off : Nat) (v : W32) (s : State) : State :=
  let t := alertEdge s (rset off v s)
  if 0x000D1000 ≤ off ∧ off < 0x000D2100 then pwrTrack t else t

/-- What PROOF_ACTIVE finds when the command's row does not say: a free value. -/
def proofMask (s : State) : Nat := (Config.free64 s.free).toNat % 65536

/-- A plain write of `v` to a word that has passed its checks; `bad` is what a PROOF_ACTIVE finds. -/
def wordDo (off : Nat) (w : RegWord) (v bad : Nat) (sid : W32) (s : State) : State :=
  if off = 0x00010000 then (if bit v 0 then snapStart s else s)
  else if off = 0x00030000 then pltDo (v % 16) (v / 256 % 16) sid bad s
  else if off = 0x00040010 then auditCmd v s
  else if isPeerWord off then (if w.rw = 0 then s else shadowWrite off (v % 2 ^ 32 &&& w.rw) s)
  else
    let (rw, c) := roleBits w (roleOf s sid)
    if w.readOnly then s else regSet off (mergeWord (rget s off) rw c (clampWord off v)) s

/-- Step 6 for a guarded value; FI_ENABLE answers bit by bit in its effect. -/
def guardCheck (s : State) (off v : Nat) : W16 :=
  if off = 0x00030004 then pltGuardCheck s (v % 16)
  else if off = 0x00070004 then rcvCheck s (v % 8)
  else cOk

/-- A guarded register takes `v` (its reserved bits dropped); the code is FI_ENABLE's. -/
def guardDo (off : Nat) (w : RegWord) (v : Nat) (sid : W32) (s : State) : W16 × State :=
  let x := v &&& w.grd
  if off = 0x00030004 then (cOk, pltGuardDo (v % 16) sid s)
  else if off = 0x00070004 then (cOk, rcvDo (v % 8) sid s)
  else if off = 0x00080400 then fiEnable x sid s
  else if isPeerWord off then (cOk, shadowCommit off x s)
  else if off = 0x000A0000 then (cOk, waitersTest (rset off (BitVec.ofNat 32 x) s))
  else if 0x00050000 ≤ off ∧ off ≤ 0x00050008 then (cOk, pwrTrack (rset off (BitVec.ofNat 32 x) s))
  else (cOk, rset off (BitVec.ofNat 32 (clampWord off x)) s)

/-! ## Counters (R476) -/

/-- A counter set. -/
def setCounter (i v : Nat) (s : State) : State := { s with counters := mset 0 s.counters i (BitVec.ofNat 64 v) }

/-- A 4-byte write of a counter's word: the low word sets it, the high word's is discarded. -/
def counterWord4 (off v : Nat) (s : State) : State :=
  match counterWord off with
  | some (i, false) => if windowOff s off then s else setCounter i v s
  | _ => s

/-! ## Writes (R475) -/

/-- A REGISTER_WRITE record for a write that Table 22.2 reserves (22 R513; notes/assumptions/61.md). -/
def auditWrite (a first words : Nat) (code : W16) (sid : W32) (s : State) : State :=
  audit 0x04 code sid 0 (leBytes 8 a ++ leBytes 4 first ++ leBytes 2 words) s

/-- The words of an offset range with the register of each; nothing where one is undefined. -/
def namesOf : List Nat → Option (List (Nat × RegName))
  | [] => some []
  | o :: t =>
    match regName o with
    | .none => none
    | n => (namesOf t).map ((o, n) :: ·)

/-- A guarded register or its port stands at this name. -/
def RegName.guarded : RegName → Bool
  | .reg w => decide (w.grd ≠ 0)
  | .port _ _ => true
  | .none => false

/-- The register of a name. -/
def RegName.word : RegName → RegWord
  | .reg w => w
  | .port _ w => w
  | .none => {}

/-- A plain word written: a counter, a register, or nothing in a window that is off. -/
def plainDo (off : Nat) (w : RegWord) (v bad : Nat) (sid : W32) (s : State) : State :=
  if (counterWord off).isSome then counterWord4 off v s
  else if windowOff s off then s
  else wordDo off w v bad sid s

/-- Words written in ascending order, after every check has passed. -/
def plainAll (bad : Nat) (sid : W32) : List (Nat × RegName) → List Nat → State → State
  | (o, n) :: t, v :: vs, s => plainAll bad sid t vs (plainDo o n.word v bad sid s)
  | _, _, s => s

/-- A guarded pair completes: the role for V, the block's check, its record, its effect (R480, R481). -/
def pairDone (off : Nat) (w : RegWord) (v : Nat) (sid : W32) (s : State) : W16 × State :=
  if !mayWrite (roleOf s sid) w v then (cRoleRefused, auditRefused sid (regRegion + off) 0 s)
  else
    let c := guardCheck s off v
    if c ≠ cOk then (c, s)
    else guardDo off w v sid (if auditedWrite (roleOf s sid) w then auditWrite (regRegion + off) v 1 cOk sid s else s)

/-- A 4-byte write at a guarded register or its port (R480, R481). -/
def guardHalf (off : Nat) (n : RegName) (v : Nat) (sid : W32) (s : State) : W16 × State :=
  let g := mlook s.guards sid.toNat
  let t := { s with guards := mdel s.guards sid.toNat }
  match n with
  | .reg _ =>
    if g.isSome then (cGuardFail, t)
    else (cOk, { s with guards := mput s.guards sid.toNat { off := off, v := BitVec.ofNat 32 v, left := 64 } })
  | .port a w =>
    (match g with
     | some x => if x.off = a && x.v ^^^ 0xFFFFFFFF#32 = BitVec.ofNat 32 v then pairDone a w x.v.toNat sid t else (cGuardFail, t)
     | none => (cGuardFail, t))
  | .none => (cRegUndefined, s)

/-- A plain write that has passed the role check. -/
def plainWrite (a : Nat) (ns : List (Nat × RegName)) (vs : List Nat) (bad : Nat) (sid : W32) (s : State) : W16 × State :=
  let codes := (ns.zip vs).map (fun p => if (counterWord p.1.1).isSome || windowOff s p.1.1 then cOk else wordCheck s p.1.1 p.2)
  let c := firstCode codes
  let tell := fun (s : State) => if ns.any (fun n => auditedWrite (roleOf s sid) n.2.word) then auditWrite a (vs.headD 0) ns.length c sid s else s
  if c ≠ cOk then (c, noteFi (ns.headD (0, .none)).1 c (tell s))
  else
    let s1 := tell s
    match ns, vs with
    | [(o, _), _], [lo, hi] =>
      (match counterWord o with
       | some (i, false) => (cOk, if windowOff s1 o then s1 else setCounter i (lo + 2 ^ 32 * hi) s1)
       | _ => (cOk, plainAll bad sid ns vs s1))
    | _, _ => (cOk, plainAll bad sid ns vs s1)

/-- A WRITE in the register region, from step 1 on. A session with no role is refused whatever it names (22 R511), and its pending
guarded value fails (22 R510). -/
def regWrite (a : Nat) (data : List Byte) (bad : Nat) (sid : W32) (s : State) : W16 × State :=
  let n := data.length
  let off := a - regRegion
  let c := regShape a n
  if c ≠ cOk then (c, s)
  else if n < 4 then (cNarrowWrite, s)
  else
    let vs := (chunks 4 data).map leNat
    match namesOf (regWords off n) with
    | none => (cRegUndefined, s)
    | some ns =>
      if roleOf s sid = .none then
        (cRoleRefused, auditRefused sid a 0 (if ns.any (fun x => x.2.guarded) then { s with guards := mdel s.guards sid.toNat } else s))
      else if ns.any (fun x => x.2.guarded) then
        (match ns, vs with
         | [(o, x)], [v] => guardHalf o x v sid s
         | _, _ => (cGuardFail, { s with guards := mdel s.guards sid.toNat }))
      else if ns.any (fun x => !mayWrite (roleOf s sid) x.2.word 0) then (cRoleRefused, auditRefused sid a 0 s)
      else plainWrite a ns vs bad sid s

/-! ## Aliases (R477-R479) -/

/-- The bit of an alias write falls in a mask. -/
def inMask (m b : Nat) : Bool := bit m b

/-- A write of `d` to the bit of an alias word. -/
def aliasBit (rel d : Nat) (sid : W32) (s : State) : W16 × State :=
  let (off, b) := aliasOf rel
  match regAt off with
  | none => (cRegUndefined, s)
  | some w =>
    if !mayWrite (roleOf s sid) w 0 && !(w.grd ≠ 0 && roleOf s sid ≠ .none) then (cRoleRefused, auditRefused sid (aliasRegion + rel) 0 s)
    else if inMask w.grd b then (cGuardFail, s)
    else if windowOff s off then (cOk, s)
    else match counterWord off with
      | some (i, false) => (cOk, setCounter i (cnt s i - bits (cnt s i) b b * 2 ^ b + d * 2 ^ b) s)
      | some (_, true) => (cOk, s)
      | none =>
        if inMask w.w1c b || inMask w.w1s b || inMask w.wo b then
          (if d = 0 && !inMask w.wo b then (cOk, s)
           else
             let v := d * 2 ^ b
             plainWrite (aliasRegion + rel) [(off, .reg w)] [v] (proofMask s) sid s)
        else if inMask w.rw b then
          let old := (if isPeerWord off then (let q := mget 0 s.shadow off; if q = 0 then (rget s off).toNat else q - 1) else (rget s off).toNat)
          plainWrite (aliasRegion + rel) [(off, .reg { w with w1c := 0 })] [old - bits old b b * 2 ^ b + d * 2 ^ b] (proofMask s) sid s
        else (cOk, s)

/-- Alias words written one after another, stopping at a failure. -/
def aliasRun (rel : Nat) (sid : W32) : List (List Byte) → State → W16 × State
  | [], s => (cOk, s)
  | b :: t, s =>
    match aliasBit rel ((b.headD 0).toNat % 2) sid s with
    | (0, s1) => aliasRun (rel + 4) sid t s1
    | r => r

/-- A WRITE in the alias region. A write of 1 or 2 bytes that leaves byte 0 out changes nothing and succeeds. -/
def aliasWrite (a : Nat) (data : List Byte) (sid : W32) (s : State) : W16 × State :=
  let rel := a - aliasRegion
  let c := regShape a data.length
  if c ≠ cOk then (c, s)
  else if !(List.range ((data.length + 3) / 4)).all (fun k => aliasOk (rel / 4 * 4 + 4 * k)) then (cRegUndefined, s)
  else if roleOf s sid = .none then (cRoleRefused, auditRefused sid a 0 s)
  else if data.length < 4 && rel % 4 ≠ 0 then (cOk, s)
  else aliasRun rel sid (chunks 4 data) s

/-! ## Accesses of a session (R470, R476, R480, R491) -/

/-- The session's next register access begins: a captured high word is gone, and a pending value has one access less. -/
def accessTick (sid : W32) (s : State) : State :=
  match mlook s.guards sid.toNat with
  | none => { s with hiCaps := mdel s.hiCaps sid.toNat }
  | some g => { s with hiCaps := mdel s.hiCaps sid.toNat, guards := mput s.guards sid.toNat { g with left := g.left - 1 } }

/-- The access is over: a pending value whose 64 accesses have passed lapses (R481). -/
def accessEnd (sid : W32) (s : State) : State :=
  match mlook s.guards sid.toNat with
  | some g => if g.left = 0 then guardLapse sid s else s
  | none => s

/-- A refusal of an access recorded (R491). -/
def accessCode (sid : W32) (a : Nat) (r : W16 × State) : W16 × State := (r.1, accessEnd sid (regRefuse r.1 sid a r.2))

/-- A WRITE of a session at a register or alias address. -/
def sessWrite (a : Nat) (data : List Byte) (bad : Nat) (sid : W32) (s : State) : W16 × State :=
  let t := accessTick sid s
  accessCode sid a (if aliasRegion ≤ a then aliasWrite a data sid t else regWrite a data bad sid t)

/-- An operation of another kind (R475 step 2). -/
def sessOther (a n : Nat) (sid : W32) (s : State) : W16 × State :=
  let c := regShape a n
  accessCode sid a (if c ≠ cOk then c else cRegOpInvalid, accessTick sid s)

/-- Words read in ascending order; the last low word of a pair leaves its high word captured. -/
def readWords (sid : W32) (cap : Option HiCapture) (s : State) : List Nat → List Byte × Option HiCapture
  | [] => ([], cap)
  | o :: t =>
    let v := match cap with
      | some c => if c.off = o then c.v else regRead s sid o
      | none => regRead s sid o
    let c2 := (pairRead s o).map (fun p => ({ off := o + 4, v := BitVec.ofNat 32 (wordOf p 1) } : HiCapture))
    let (r, c3) := readWords sid c2 s t
    (leBytes 4 v.toNat ++ r, c3)

/-- A READ in the register region: its bytes and the capture it leaves. -/
def regReadOp (a n : Nat) (cap : Option HiCapture) (sid : W32) (s : State) : W16 × List Byte × Option HiCapture :=
  let off := a - regRegion
  let ws := regWords off n
  let c := regShape a n
  if c ≠ cOk then (c, [], none)
  else match namesOf ws with
    | none => (cRegUndefined, [], none)
    | some ns =>
      if roleOf s sid = .none then (cRoleRefused, [], none)
      else
        let val := fun (o : Nat) => (match regName o with | .reg _ => regRead s sid o | _ => 0)
        if n < 4 then (cOk, ((leBytes 4 (val (off / 4 * 4)).toNat).drop (off % 4)).take n, none)
        else match ns, pairRead s off with
          | [_, _], some p => (cOk, leBytes 8 p, none)
          | _, _ => let (b, c3) := readWords sid (if n = 4 then cap else none) s ws; (cOk, b, if n = 4 then c3 else none)

/-- A READ in the alias region. -/
def aliasReadOp (a n : Nat) (sid : W32) (s : State) : W16 × List Byte :=
  let rel := a - aliasRegion
  let c := regShape a n
  let ws := (List.range ((n + 3) / 4)).map (fun k => rel / 4 * 4 + 4 * k)
  if c ≠ cOk then (c, [])
  else if !ws.all aliasOk then (cRegUndefined, [])
  else if roleOf s sid = .none then (cRoleRefused, [])
  else
    let b := ws.flatMap (fun w => let (o, k) := aliasOf w; leBytes 4 (((regRead s sid o).toNat / 2 ^ k) % 2))
    (cOk, if n < 4 then (b.drop (rel % 4)).take n else b)

/-- A READ of a session at a register or alias address: its code, its bytes. -/
def sessRead (a n : Nat) (sid : W32) (s : State) : W16 × List Byte × State :=
  let cap := mlook s.hiCaps sid.toNat
  let t := accessTick sid s
  let (c, b, left) := if aliasRegion ≤ a then (let (c, b) := aliasReadOp a n sid t; (c, b, none)) else regReadOp a n cap sid t
  let t1 := match left with
    | some h => { t with hiCaps := mput t.hiCaps sid.toNat h }
    | none => t
  let t2 := if c = cRoleRefused then auditRefused sid a 0 t1 else t1
  (c, b, (accessCode sid a (c, t2)).2)

/-! ## The burin's writes (02 R67, R568; 22 R512) -/

/-- A PARAM pair written: no role and no guard, the block's checks alone; a refusal leaves a record with its code. -/
def burinWrite (off v : Nat) (s : State) : State :=
  match regAt off with
  | none => s
  | some w =>
    if (counterWord off).isSome then counterWord4 off v s
    else if windowOff s off then s
    else if w.grd ≠ 0 then
      let c := guardCheck s off v
      (if c ≠ cOk then auditWrite (regRegion + off) v 1 c 0 s else (guardDo off w v 0 s).2)
    else
      let c := wordCheck s off v
      (if c ≠ cOk then auditWrite (regRegion + off) v 1 c 0 s else wordDo off w v (proofMask s) 0 s)

end Sys2Proof.Machine
end

