-- ==== Sys2Proof/Machine/Swap.lean ====
section
/-! DEFINITION. The bank swap with its PARAM writes (02 R54, R64, R67, R568). -/

namespace Sys2Proof.Machine

/-- The pairs of the PARAM sections, in order: register offset and value. -/
def paramPairs (p : Plate) : List (Nat × Nat) :=
  (sectionsIn p normalCase 9).flatMap (fun x => (chunks 16 x.data).map (fun b => (u64At b 0, u32At b 8)))

/-- Steps 4 to 6 of Table 2.10 for a committed plate: the banks swap, then the burin writes each PARAM pair. -/
def commitPlate (p : Plate) (s : State) : State :=
  (paramPairs p).foldl (fun s q => burinWrite q.1 q.2 s) (swapBanks p s)

/-- The swap may happen: the commit instant has passed, the old plate's work is done, the burin works. -/
def swapReady (s : State) : Bool := awaitsSwap s && drained s && !s.rcv.cape

/-- BANK_SWAP. -/
def execBankSwap (s : State) : Host.Outcome State Fault Refusal :=
  .next (match standbyPlate s with
    | some p => if swapReady s then commitPlate p s else s
    | none => s)

end Sys2Proof.Machine
end

