-- ==== Sys2Proof/Machine/Code.lean ====
section
/-! DEFINITION. The Reed-Solomon code of memory and flits over GF(2^16): what decoding makes of symbols in error (19 R452, R453,
Tables 19.1, 19.2). -/

namespace Sys2Proof.Machine

/-! ## The field (R452) -/

/-- An element times x, modulo x^16 + x^12 + x^3 + x + 1. -/
def gfDouble (a : Nat) : Nat := let x := 2 * a; if x < 65536 then x else x ^^^ 0x1100B

/-- The product of two elements. -/
def gfMul (a b : Nat) : Nat := (List.range 16).foldl (fun r i => gfDouble r ^^^ (if bit b (15 - i) then a else 0)) 0

/-- The inverse of an element: its power 2^16 - 2. -/
def gfInv (a : Nat) : Nat := ((List.range 15).foldl (fun (p : Nat × Nat) _ => let q := gfMul p.1 p.1; (q, gfMul p.2 q)) (a, 1)).2

/-- The locator of symbol `p` of a codeword: symbol 0 has the highest power of x, the last check symbol the power 0
(notes/assumptions/59.md). -/
def gfLoc (p : Nat) : Nat := Nat.repeat gfDouble (38 - p) 1

/-! ## Decoding (Table 19.2) -/

/-- What the code finds in a codeword: the symbols it corrects, in order of position, or that it cannot. -/
inductive Decoded where
  | corrected (ps : List Nat)
  | failed
  deriving DecidableEq, Repr

/-- The errors of a codeword, each symbol once: errors at one place added up. -/
def errorSum (errs : List SymErr) : List SymErr :=
  (errs.filter (fun e => decide (e.pos.toNat ≤ 38) && decide (e.bits ≠ 0))).foldl (fun a e => symXor e a) []

/-- Positions of the symbols in error of a codeword, in order. -/
def errorPlaces (errs : List SymErr) : List Nat :=
  let es := errorSum errs
  (List.range 39).filter (fun p => es.any (fun e => e.pos.toNat = p))

/-- The five syndromes of the errors of a codeword, at the roots of the generator. -/
def syndromes (es : List SymErr) : List Nat :=
  (es.foldl (fun (a : List (Nat × Nat)) e => a.map (fun p => (p.1, p.2 ^^^ gfMul e.bits.toNat (Nat.repeat (gfMul (gfLoc e.pos.toNat)) p.1 1))))
    ((List.range 5).map (fun j => (j, 0)))).map (·.2)

/-- The errors of at most two symbols that have these syndromes, where there are any: positions and bits. -/
def fixOf (ss : List Nat) : Option (List (Nat × Nat)) :=
  let s := fun (k : Nat) => ss.getD k 0
  if (List.range 5).all (fun k => s k = 0) then some []
  else match (List.range 39).find? (fun p => (List.range 4).all (fun k => s (k + 1) = gfMul (gfLoc p) (s k))) with
    | some p => some [(p, s 0)]
    | none =>
      (List.range 39).findSome? (fun p => (List.range p).findSome? (fun q =>
        let x := gfLoc q
        let y := gfLoc p
        if (List.range 3).all (fun k => s (k + 2) = gfMul (x ^^^ y) (s (k + 1)) ^^^ gfMul (gfMul x y) (s k)) then
          let e := gfMul (s 1 ^^^ gfMul (s 0) x) (gfInv (x ^^^ y))
          some [(q, s 0 ^^^ e), (p, e)]
        else none))

/-- Table 19.2: up to two stored symbols are corrected; an address symbol among them and three symbols in error fail; of four and more, the
code takes the nearest codeword where one lies within two stored symbols. -/
def decodeErrs (errs : List SymErr) : Decoded :=
  let ps := errorPlaces errs
  if ps.length ≤ 2 then (if ps.contains 32 || ps.contains 33 then .failed else .corrected ps)
  else if ps.length = 3 then .failed
  else match fixOf (syndromes (errorSum errs)) with
    | none => .failed
    | some f => if f.any (fun e => e.1 = 32 || e.1 = 33) then .failed else .corrected (f.map (·.1))

/-- The error that a codeword keeps after it was corrected to a wrong one: symbols and bits; none where three symbols or fewer were in
error. -/
def wrongBits (errs : List SymErr) : List SymErr :=
  if (errorPlaces errs).length ≤ 3 then []
  else match fixOf (syndromes (errorSum errs)) with
    | none => []
    | some f => (f.map (fun p => { pos := BitVec.ofNat 6 p.1, bits := BitVec.ofNat 16 p.2 : SymErr })).foldl (fun a e => symXor e a) (errorSum errs)

/-- Memory after a codeword was taken for another: symbol `k` of its data lies at `at_ k`. -/
def keepWrong (at_ : Nat → Nat) (errs : List SymErr) (s : State) : State :=
  ((wrongBits errs).filter (fun e => decide (e.pos.toNat < 32))).foldl (fun s e =>
    let a := at_ e.pos.toNat
    { s with mem := putMem (leBytes 2 (leNat (readMem s a 2) ^^^ e.bits.toNat)) a s.mem }) s

end Sys2Proof.Machine
end

