-- ==== Sys2Proof/Machine/Sheets.lean ====
section
/-! DEFINITION. The switch from sheet to sheet: saved WXA images, private lagoon and its buffers, and the rows of switches and fills
(02 R46, R49, 03 R93, 19 R457). -/

namespace Sys2Proof.Machine

/-- Saved WXA images lie beside the WXAs: that of sheet `k` of WXA `n` at 2048 (k + 1) + n. -/
def savedWxa (k n : Nat) : Nat := 2048 * (k + 1) + n

/-- The WXAs of island `i` saved with sheet `a`, and those of sheet `b` restored (03 R93). -/
def swapWxas (i a b : Nat) (s : State) : State :=
  (List.range 128).foldl (fun s k =>
    let n := 128 * i + k
    let s1 := wxaPut (savedWxa a n) (wxaGet s n) s
    wxaPut n (wxaGet s1 (savedWxa b n)) s1) s

/-! ## Private lagoon (R46, R48; notes/assumptions/121.md) -/

/-- Offset, in a reef's share, of private buffer `b` (0 or 1): after the shared bytes, each as large as the largest private demand. -/
def bufferOff (d : List Byte) (r b : Nat) : Nat := lagoonDemand d r 0 + b * maxPrivate d r

/-- Offset, in the sheet save region, of the image of reef `r` of sheet `k`. -/
def saveOff (d : List Byte) (k r : Nat) : Nat :=
  (List.range k).foldl (fun n j => n + (List.range 8).foldl (fun m q => m + lagoonDemand d q (j + 1)) 0) 0
    + (List.range r).foldl (fun m q => m + lagoonDemand d q (k + 1)) 0

/-- The sheet save region of island `i` under the plate and case in force, with the island's DEMAND section. -/
def saveRegion (s : State) (i : Nat) : Option (Region × List Byte) :=
  match activePlate s with
  | none => none
  | some p =>
    match demandOf p (caseNow s) i with
    | none => none
    | some d => ((regionsIn p (caseNow s)).find? (fun r => r.purpose = 1 && r.view = 1 && r.place = i && decide (sumPrivate d ≤ r.len))).map (·, d)

/-- Poison carried with the lines of `n` bytes from `src` to `dst`. -/
def carryPoison (src dst n : Nat) (from_ s : State) : State :=
  (List.range ((n + 31) / 32)).foldl (fun s j =>
    let m := min 32 (n - 32 * j)
    if anyPoison from_ (src + 32 * j) m then { s with poison := (touchedUnits (dst + 32 * j) m).foldl nadd s.poison } else s) s

/-- `n` bytes moved from `src` to `dst`, poison as poison. -/
def moveImage (src dst n : Nat) (s : State) : State := carryPoison src dst n s (writeMem dst (readMem s src n) s)

/-- Inlets with a stage on sheet `k` of island `i`. -/
def sheetInlets (s : State) (i k : Nat) : List Nat :=
  match activePlate s with
  | none => []
  | some p => (inletsNow s).filter (fun m =>
      match inletNum p (caseNow s) m with
      | none => false
      | some inl => inl.chain.any (fun st => (stageRecs p (caseNow s) st).any (fun r => decide (r.island = i) && decide (r.sheet = k))))

/-- Local address, in reef `r` of island `i`, of the private buffer that the running sheet does not use. -/
def idleBuffer (i : Nat) (d : List Byte) (s : State) (r : Nat) : Nat := shareKey (8 * i + r) (bufferOff d r (((islGet s i).turns + 1) % 2))

/-- The private lagoon of sheet `k`, the one that ran before, saved from the idle buffer; nothing before the first switch. -/
def sheetSave (i k : Nat) (g : Region) (d : List Byte) (s : State) : State :=
  if (islGet s i).turns = 0 then s
  else (List.range 8).foldl (fun t r => moveImage (idleBuffer i d s r) (g.base + saveOff d k r) (lagoonDemand d r (k + 1)) t) s

/-- The image of sheet `k` put into the idle buffer; a poisoned image restarts the groups that use the sheet (19 R457). -/
def sheetLoad (i k : Nat) (g : Region) (d : List Byte) (s : State) : State :=
  let t := (List.range 8).foldl (fun t r => moveImage (g.base + saveOff d k r) (idleBuffer i d s r) (lagoonDemand d r (k + 1)) t) s
  if (List.range 8).any (fun r => anyPoison s (g.base + saveOff d k r) (lagoonDemand d r (k + 1))) then
    (restartGroups t (sheetInlets t i k)).foldl restartGroup t
  else t

/-- While a sheet runs from one buffer, the private lagoon of the sheet before it is saved from the other to the island's own stack, and
that buffer takes the next sheet's image, where that sheet has run. -/
def sheetFill (i : Nat) (s : State) : State :=
  match saveRegion s i with
  | none => s
  | some (g, d) =>
    let x := islGet s i
    let n := sheetsOf s i
    let t := sheetSave i ((x.sheet + n - 1) % n) g d s
    if x.turns + 1 < n then t else sheetLoad i ((x.sheet + 1) % n) g d t

/-! ## Switches and fills (R49) -/

/-- The next sheet of an island issues its first handshake. -/
def sheetRun (i : Nat) (s : State) : State :=
  let x := islGet s i
  let n := sheetsOf s i
  let k := (x.sheet + 1) % n
  let s1 := islPut i { sheet := k, switching := false, filled := false, stalled := false, turns := x.turns + 1 } (swapWxas i x.sheet k s)
  (List.range 128).foldl (fun s q => let l := listNum (8 * i + q / 16) k (q % 16); seqResume l s) s1

/-- SHEET_SWITCH: pipelines and engines of the outgoing sheet are done; the switch waits for a fill that is not there. -/
def execSheetSwitch (island : BitVec 4) (s : State) : Host.Outcome State Fault Refusal :=
  let i := island.toNat
  let x := islGet s i
  .next (if !x.switching || x.stalled || decide (sheetsOf s i < 2) then s
    else if x.filled then sheetRun i s
    else if privateBytes s i ((x.sheet + 1) % sheetsOf s i) = 0 then sheetRun i (sheetFill i s)
    else bump (islCnt i 6) 1 (islPut i { x with stalled := true } s))

/-- SHEET_FILL_DONE: the next sheet's private lagoon is filled; a switch that waits for it goes on. -/
def execSheetFillDone (island : BitVec 4) (s : State) : Host.Outcome State Fault Refusal :=
  let i := island.toNat
  let x := islGet s i
  .next (if decide (sheetsOf s i < 2) || x.filled then s
    else if x.stalled then sheetRun i (sheetFill i s)
    else islPut i { x with filled := true } (sheetFill i s))

end Sys2Proof.Machine
end

