-- ==== Sys2Proof/Machine/Straits.lean ====
section
/-! DEFINITION. Strait flits and scrub: acknowledgement and resending of flits, the scrub of HBM and lagoon (01 R24;
19 R452-R465). -/

namespace Sys2Proof.Machine

/-- An integrity record of corrected symbols. -/
def ceRecord (place unit source addr : Nat) (ps : List Nat) : IntRec :=
  { kind := 1, place := place, unit := unit, symbols := ps.length, pos0 := ps.getD 0 255, pos1 := ps.getD 1 255, source := source,
    addr := BitVec.ofNat 64 addr, handle := 0 }

/-- An integrity record of an uncorrectable codeword. -/
def ueRecord (kind place unit source addr : Nat) : IntRec :=
  { kind := kind, place := place, unit := unit, symbols := 255, pos0 := 255, pos1 := 255, source := source,
    addr := BitVec.ofNat 64 addr, handle := 0 }

/-! ## The ports of a strait link (21 Table 21.12) -/

/-- The output of strait die `d` that drives link `l`. -/
def straitOut (d l : Nat) : Nat :=
  let rank := fun (h : Nat → Bool) (n : Nat) => ((List.range n).filter h).length
  if l < 32 then rank (fun k => decide (k % 4 = d) || decide ((k + 1) % 4 = d)) (l / 2)
  else if l < 36 then (if l - 32 = d then 8 else 9)
  else if l < 44 then 10 + rank (fun k => decide (k % 4 = d) || decide ((k + 1) % 4 = d)) ((l - 36) / 2)
  else 12

/-- The holder that sends over link `l` in a direction, and the one that receives; `dir` is clear toward the strait die and, on the
ring, from the lower-numbered die. -/
def flitEnds (l : Nat) (dir : Bool) : Nat × Nat := if dir then (16 + linkDie l, linkNear l) else (linkNear l, 16 + linkDie l)

/-- A grant of class `t` counted at the sender's output, where the manual has an arbitration point (16 R397). -/
def flitGrant (h l t : Nat) (s : State) : State :=
  if h < 16 then bump (islCnt h (8 + 7 * (l % 2) + t)) 1 s
  else if h < 20 then bump (straitCnt (h - 16) (7 * straitOut (h - 16) l + t)) 1 s
  else s

/-- Index of a strait link at a harbour or at the cape: 0 leads to the lower-numbered strait die. -/
def linkRank (l : Nat) : Nat :=
  if l < 44 then (if linkDie l < (if (l - 36) % 2 = 0 then linkDie (l + 1) else linkDie (l - 1)) then 0 else 1) else l - 44

/-- Snapshot index of MI_CE (`j` = 0) or MI_FLIT_DISCARDS (1) of a receiver's link. -/
def flitCnt (h l j : Nat) : Nat :=
  if h < 16 then islCnt h (24 + 2 * j + l % 2)
  else if h < 20 then straitCnt (h - 16) (96 + 16 * j + straitOut (h - 16) l)
  else if h < 24 then harbourCnt (h - 20) (8 + 2 * j + linkRank l)
  else capeCnt (8 + 2 * j + linkRank l)

/-! ## Flits (R24, R455) -/

/-- A direction of a link over which nothing has passed. -/
def StraitDir.init : StraitDir := { next := 0, pending := [] }

/-- The direction's record. -/
def dirGet (s : State) (l : Nat) (dir : Bool) : StraitDir := mget StraitDir.init s.straits (2 * l + dir.toNat)

/-- The direction's record set. -/
def dirPut (l : Nat) (dir : Bool) (x : StraitDir) (s : State) : State :=
  { s with straits := mset StraitDir.init s.straits (2 * l + dir.toNat) x }

/-- Flits pass link `l`: it is trained, and neither it nor an end is lost. -/
def straitWorks (s : State) (l : Nat) : Bool := decide (l < 46) && !straitLinkDown s l && decide (5 ≤ s.boot.stage)

/-- Link sequence numbers count modulo 2^32. -/
def lsnAhead (x : StraitDir) (q : Nat) : Nat := (q + 2 ^ 32 - x.next % 2 ^ 32) % 2 ^ 32

/-- A flit that decoded: an acknowledgement frees what it acknowledges; the next flit in order is delivered and acknowledged, a
repeat is acknowledged and dropped, one ahead of a gap is not taken (notes/assumptions/59.md). -/
def flitTaken (l : Nat) (dir : Bool) (q : Nat) (ackF : Bool) (s : State) : State :=
  if ackF then
    let x := dirGet s l (!dir)
    dirPut l (!dir) { x with pending := mdel x.pending q } s
  else
    let x := dirGet s l dir
    let n := lsnAhead x q
    if n = 0 then emit (.flitAck l dir (BitVec.ofNat 32 q)) (dirPut l dir { x with next := (q + 1) % 2 ^ 32 } s)
    else if 2 ^ 31 ≤ n then emit (.flitAck l dir (BitVec.ofNat 32 q)) s
    else s

/-- A flit reaches its receiver. -/
def flitIn (l : Nat) (dir : Bool) (q : Nat) (ackF : Bool) (errs : List SymErr) (s : State) : State :=
  if !straitWorks s l then s
  else
    let h := (flitEnds l dir).2
    match decodeErrs errs with
    | .failed => intRecord h (ueRecord 4 2 l 3 q) (bump (flitCnt h l 1) 1 s)
    | .corrected [] => flitTaken l dir q ackF s
    | .corrected ps => flitTaken l dir q ackF (intRecord h (ceRecord 2 l 3 q ps) (bump (flitCnt h l 0) 1 s))

/-- A flit leaves its sender: a new one waits in the replay buffer and takes a grant of its class. -/
def flitOut (l : Nat) (dir : Bool) (q tc : Nat) (ackF : Bool) (s : State) : State :=
  let s1 := fun (s : State) => flitGrant (flitEnds l dir).1 l (if ackF then 0 else tc) s
  if ackF then s1 s
  else
    let x := dirGet s l dir
    if lsnAhead x q < 2 ^ 31 && (mlook x.pending q).isNone then s1 (dirPut l dir { x with pending := mput x.pending q 0 } s) else s

/-- FLIT_RESEND: a flit that waits goes again; after eight resends the link is lost (Table 17.1). -/
def flitResend (l : Nat) (dir : Bool) (q : Nat) (s : State) : State :=
  if !straitWorks s l then s
  else
    let x := dirGet s l dir
    match mlook x.pending q with
    | none => s
    | some n =>
      if 8 ≤ n then straitLinkLost l s
      else emit (.flitSent l dir (BitVec.ofNat 32 q) false) (dirPut l dir { x with pending := mput x.pending q (n + 1) } s)

/-! ## Scrub (R459-R462) -/

/-- The other copy of a byte of the device's own mirrored data: its stack, at the same offset (R459; notes/assumptions/60.md). -/
def otherCopy (s : State) (k o : Nat) : Option Nat :=
  if 0xFF0000000 ≤ o ∧ k < 4 then some ((k + 2) % 4)
  else if 0xFEC000000 ≤ o ∧ o < 0xFF0000000 then
    (s.chans.find? (fun c => c.2.state ≠ .free && !c.2.single && (c.2.primary = k || c.2.mirror = k)
      && decide (0xFEC000000 + c.2.ringOff ≤ o) && decide (o < 0xFEC000000 + c.2.ringOff + 32 * c.2.slots))).map
        (fun c => if c.2.primary = k then c.2.mirror else c.2.primary)
  else if 0xFD4000000 ≤ o ∧ o < 0xFEC000000 then some ((k + 2) % 16)
  else if 0xFD3000000 ≤ o ∧ o < 0xFD4000000 ∧ (k = 0 ∨ k = 2) then some (2 - k)
  else if 0xFA0000000 ≤ o ∧ o < 0xFD0000000 then some ((k + 2) % 16)
  else none

/-- Offset `o` of stack `k` holds a saved sheet image, which the device keeps twice (R459; notes/assumptions/121.md). -/
def sheetImage (s : State) (k o : Nat) : Bool :=
  match saveRegion s k with
  | some (g, d) => decide (g.base ≤ hbmKey k o) && decide (hbmKey k o < g.base + sumPrivate d)
  | none => false

/-- An uncorrectable codeword of HBM: repaired from its other copy, or poisoned. -/
def hbmPoison (k o : Nat) (s : State) : State :=
  if sheetImage s k o then bump mirrorCnt 1 s else
  match otherCopy s k o with
  | some j => if !islLost s j && !nmem s.poison (hbmKey j o) then bump mirrorCnt 1 s
              else { s with poison := nadd s.poison (hbmKey k o) }
  | none => { s with poison := nadd s.poison (hbmKey k o) }

/-- A correctable error is recorded once in a pass. -/
def ceOnce (key h : Nat) (r : IntRec) (s : State) : State :=
  if nmem s.ceSeen key then s else intRecord h r { s with ceSeen := nadd s.ceSeen key }

/-- A pass ends: it is counted, and what it has recorded is forgotten. -/
def scrubPass (i cnt : Nat) (mine : Nat → Bool) (s : State) : State :=
  bump (islCnt i cnt) 1 { s with ceSeen := s.ceSeen.filter (fun p => !mine p.1) }

/-- The next codeword that a scrubber reads (`k` a stack, or 16 + an island), of `n`; a pass ends with its last. -/
def scrubStep (k cw n cnt : Nat) (mine : Nat → Bool) (s : State) : State :=
  let t := { s with scrub := mset 0 s.scrub k ((cw + 1) % n) }
  if cw + 1 = n then scrubPass (k % 16) cnt mine t else t

/-- HBM_SCRUB of codeword `cw` of stack `k`. -/
def hbmScrub (k cw : Nat) (errs : List SymErr) (s : State) : State :=
  let o := 64 * cw
  let key := hbmKey k o
  if islLost s k || (rget s 0x00090000).getLsbD 0 || s.boot.stage < 4 then s
  else
    let s1 :=
      if nmem s.poison key then s
      else match decodeErrs errs with
        | .corrected [] => keepWrong (fun j => key + 2 * j) errs s
        | .corrected ps => ceOnce key k (ceRecord 0 k 1 key ps) (bump (islCnt k 3) 1 (bump (islCnt k 0) 1 (keepWrong (fun j => key + 2 * j) errs s)))
        | .failed =>
          hbmPoison k o (intRecord k (ueRecord 2 0 k 1 key) (bump (islCnt k 1) 1
            { s with ueCount := mset 0 s.ueCount k (mget 0 s.ueCount k + 1) }))
    scrubStep k cw (2 ^ 30) 4 (fun q => decide (hbmKey k 0 ≤ q) && decide (q < hbmKey k 0 + 0x1000000000)) s1

/-- Codewords of an island's lagoon: eight shares of 24 MiB. -/
def lagoonWords : Nat := 3145728

/-- Address of data symbol `j` of a lagoon codeword: line 2m, then line 2m + 1, which lies 1,024 bytes further (01 R16). -/
def lagSymbol (key j : Nat) : Nat := key + (if j < 16 then 2 * j else 1024 + 2 * (j - 16))

/-- LAGOON_SCRUB of codeword `cw` of island `i`: codeword m of bank b of a share holds lines 2m and 2m + 1 of the bank (R452). -/
def lagoonScrub (i cw : Nat) (errs : List SymErr) (s : State) : State :=
  let r := cw / 393216
  let p := cw % 393216 / 32 * 2048 + cw % 32 * 32
  let key := lagKey i (r * 0x01800000 + p)
  let c := fun (j : Nat) => reefCnt (8 * i + r) (90 + j)
  if lagoonWords ≤ cw || islLost s i || !lagoonOn s i || (rget s 0x00090000).getLsbD 1 then s
  else
    let s1 :=
      if nmem s.poison key && nmem s.poison (key + 1024) then s
      else match decodeErrs errs with
        | .corrected [] => keepWrong (lagSymbol key) errs s
        | .corrected ps => ceOnce key i (ceRecord 1 (8 * i + r) 1 key ps) (bump (c 3) 1 (bump (c 0) 1 (keepWrong (lagSymbol key) errs s)))
        | .failed =>
          let t := intRecord i (ueRecord 2 1 (8 * i + r) 1 key) (bump (c 1) 1 s)
          { t with poison := nadd (nadd t.poison key) (key + 1024) }
    scrubStep (16 + i) cw lagoonWords 5 (fun q => decide (lagKey i 0 ≤ q) && decide (q < lagKey i 0 + 0x10000000)) s1

/-- STACK_UE_INTERVAL_END: a 10 ms interval of a stack's count ends (R463). -/
def ueInterval (k : Nat) (s : State) : State :=
  { s with ueCount := mset 0 s.ueCount k 0, ueLimit := mset 256 s.ueLimit k (rget s 0x0009000C).toNat }

/-- A stack whose uncorrectable codewords of this interval reach the limit in force is declared lost (R463, R408). -/
def ueDeclare (k : Nat) (s : State) : State := if mget 256 s.ueLimit k ≤ mget 0 s.ueCount k then stackLost k s else s

/-- LAGOON_SCRUB. -/
def execLagoonScrub (island : BitVec 4) (line : BitVec 22) (errs : List SymErr) (s : State) : Host.Outcome State Fault Refusal :=
  .next (lagoonScrub island.toNat line.toNat errs s)

/-- STACK_UE_INTERVAL_END. -/
def execStackUeIntervalEnd (stack : BitVec 4) (s : State) : Host.Outcome State Fault Refusal := .next (ueInterval stack.toNat s)

end Sys2Proof.Machine
end

