-- ==== Sys2Proof/Machine/Yazer.lean ====
section
/-! DEFINITION. Yazer operations and DATA frames: the checks of R381, the effect of each operation, fate records and queries, RESULT,
and the taking of frames in order (15 R360-R363, R375-R393). -/

namespace Sys2Proof.Machine

/-- What answers an operation: STATUS, VALUE, data. -/
structure Ans where
  code : W16
  value : W64
  data : List Byte
  deriving DecidableEq, Repr

/-- An answer of a status alone. -/
def Ans.status (c : W16) : Ans := { code := c, value := 0, data := [] }

/-! ## Fields and ranges (Tables 15.6, 15.7) -/

/-- The i64 values of an ADD_DELTA. -/
def deltaVals (data : List Byte) : List Int := (chunks 8 data).map (fun b => sintOf 64 (leNat b))

/-- A value lies in the FX40 range (12 R300). -/
def inFx40 (v : Int) : Bool := decide (-(2 ^ 39 : Int) ≤ v) && decide (v < 2 ^ 39)

/-- Step 1 of R381: the fields of operation `op` lie in Table 15.7, and `data` is what LEN says. -/
def fieldsOk (op : Nat) (h : OpHdr) (data : List Byte) : Bool :=
  let n := h.len.toNat
  let a := h.addr.toNat
  let p := h.op0.toNat
  let q := h.op1.toNat
  let bulk := decide (1 ≤ n) && decide (n ≤ 4096)
  decide (h.rsvd = 0) &&
    match op with
    | 0x01 => bulk && decide (p = 0) && decide (q = 0)
    | 0x02 => bulk && decide (data.length = n) && decide (p = 0) && decide (q = 0)
    | 0x03 => decide (n = 0) && decide (a % 4 = 0) && decide (p < 2 ^ 32) && decide (q = 0)
    | 0x04 => decide (n = 0) && decide (a % 8 = 0) && decide (q = 0)
    | 0x05 => bulk && decide (data.length = n) && decide (n % 8 = 0) && decide (a % 8 = 0) && decide (p = 0) && decide (q = 0) && (deltaVals data).all inFx40
    | 0x06 => decide (n = 0) && decide (a % 8 = 0)
    | 0x07 =>
      let k := p % 4
      decide (n = 0) && decide (a = 0) && decide (k ≤ 2) && decide (bits p 15 2 = 0)
        && (if k = 0 then decide (bits p 31 16 < 6144) && decide (p < 2 ^ 32) && decide (1 ≤ q) && decide (q < 65536)
            else decide (bits p 31 16 < 64) && decide (q = 0))
    | 0x08 => bulk && decide (data.length = n) && decide (a = 0) && decide (p < 256) && decide (q = 0)
    | 0x09 => decide (n = 0) && decide (a = 0) && decide (p = 0) && decide (q = 0)
    | 0x0A => decide (n = 0) && decide (a = 0) && decide (p < 2 ^ 32) && decide (q < 2 ^ 48)
    | _ => false

/-- Bytes that a memory operation covers. -/
def opSpan (op : Nat) (h : OpHdr) : Nat := if op = 0x03 then 4 else if op = 0x04 ∨ op = 0x06 then 8 else h.len.toNat

/-- The right of Table 15.7: bit of RIGHTS. -/
def opRight (op : Nat) : Nat := if op = 0x01 then 0 else if op = 0x02 then 1 else 2

/-! ## Windows (R391) -/

/-- A u64 of two register words. -/
def pairAt (s : State) (off : Nat) : Nat := (rget s off).toNat + 2 ^ 32 * (rget s (off + 4)).toNat

/-- A window of entry `p` of a kind, with a right, holds `[lo, lo + n)`. -/
def windowAdmits (s : State) (p kind right lo n : Nat) : Bool :=
  (List.range 64).any (fun w =>
    let b := peerBase p + 0x1000 + 0x20 * w
    let k := (rget s (b + 0x10)).toNat
    decide (k % 256 = kind) && bit (k / 256) right && decide (pairAt s b ≤ lo) && decide (lo + n ≤ pairAt s (b + 8)))

/-- An address of the register or alias region. -/
def isRegAddr (a : Nat) : Bool := decide (regRegion ≤ a) && decide (a < 0x040000000000)

/-- WINDOW_REFUSED, counted. -/
def refuseWindow (p : Nat) (s : State) : Ans × State := (.status cWindowRefused, bump (peerCnt p 1) 1 s)

/-! ## Device-owned areas (R362, R363, 23 R535) -/

/-- The delta row that holds a lane at a canonical HBM byte: table, delta area, row. -/
def laneRow (s : State) (k o : Nat) : Option (EmbTab × Nat × Nat) :=
  match activePlate s with
  | none => none
  | some p =>
    let v := interleaved k o
    (embTabs p (caseNow s)).findSome? (fun t => [t.d0, t.d1].findSome? (fun b =>
      if b ≤ v ∧ v < b + t.deltaRows * t.drow ∧ 32 ≤ (v - b) % t.drow then some (t, b, (v - b) / t.drow) else none))

/-- R363: the lanes lie in one delta row, whose row is present. -/
def deltaCheck (s : State) (a n : Nat) : W16 :=
  let rows := (List.range (n / 8)).map (fun j => match placeOf (a + 8 * j) with | .hbm k o => laneRow s k o | _ => none)
  match rows with
  | some (t, b, r) :: rest =>
    if rest.any (fun x => x ≠ some (t, b, r)) || (lineAddrs a n).any (fun l => protAt s l = .closed) then cAccessProtected
    else if (rowSlot s t r).isNone then cDeltaRowAbsent
    else cOk
  | _ => cAccessProtected

/-- A session's slot of the service area. -/
def sessSlot (x : Session) : Nat := 4 * x.entry + x.index

/-- The stack of the service area that is read: 1, or 3 where 1 is lost. -/
def serviceStack (s : State) : Nat := if islLost s 1 then 3 else 1

/-- STATE of a slot's response. -/
def slotState (s : State) (k : Nat) : Nat := (readByte s (hbmKey (serviceStack s) (slotOff k + 0x44))).toNat

/-- A 64-byte write to the request bytes of the session's own slot, in either copy. -/
def isRequest (x : Session) (a n : Nat) : Bool :=
  decide (n = 64) && [1, 3].any (fun k => decide (memKey a = some (hbmKey k (slotOff (sessSlot x)))))

/-- A service request of 64 bytes. -/
def svcReqOf (sid : W32) (slot : Nat) (b : List Byte) : SvcReq :=
  { sid := sid, slot := slot, op := u8At b 0, arg := u8At b 1, tag := BitVec.ofNat 32 (u32At b 4), flashOff := BitVec.ofNat 64 (u64At b 8),
    addr := BitVec.ofNat 64 (u64At b 16), len := u32At b 24, wellFormed := zeroAt b 2 2 && zeroAt b 28 36 }

/-- A request taken: it stands in both copies, STATE is 1, and it waits for the burin. -/
def serviceTake (sid : W32) (x : Session) (b : List Byte) (s : State) : State :=
  let k := sessSlot x
  let t := serviceWrite (slotOff k + 0x44) [1] (serviceWrite (slotOff k) b s)
  { t with svc := t.svc ++ [svcReqOf sid k b] }

/-- Step 5 of R381 for a memory operation; with the burin lost no request is taken (17 R429). -/
def ownedCheck (s : State) (x : Session) (op a n : Nat) : W16 :=
  if op = 0x01 then protRead s a n
  else if op = 0x05 then deltaCheck s a n
  else if op = 0x02 && isRequest x a n then (if slotState s (sessSlot x) = 1 then cAccessProtected else if s.rcv.cape then cCapeLost else cOk)
  else protWrite s a n

/-! ## Memory operations (R382, 17 R423, 19 R457, R458) -/

/-- Lost memory, then poison. -/
def memRules (s : State) (op a n : Nat) : W16 :=
  if anyLost s a n then cDataLost
  else if (if op = 0x01 then anyPoison s a n else partPoison s a n) then cPoisoned
  else cOk

/-- The lanes of an ADD_DELTA added. -/
def addLanes (a : Nat) (vs : List Int) (s : State) : State :=
  (vs.zipIdx).foldl (fun s p =>
    let b := a + 8 * p.2
    writeMem b (leBytes 8 (uintOf 64 ((leNat (readMem s b 8) : Int) + p.1))) s) s

/-- A memory operation that has passed its checks. -/
def memDo (op : Nat) (sid : W32) (x : Session) (h : OpHdr) (data : List Byte) (s : State) : Ans × State :=
  let a := localOf h.addr
  let n := opSpan op h
  let old := leNat (readMem s a n)
  match op with
  | 0x01 => ({ code := cOk, value := 0, data := readMem s a n }, s)
  | 0x02 => (.status cOk, if isRequest x a n then serviceTake sid x data s else writeMem a data s)
  | 0x03 => ({ code := cOk, value := BitVec.ofNat 64 old, data := [] }, writeMem a (leBytes 4 (old + h.op0.toNat)) s)
  | 0x04 => ({ code := cOk, value := BitVec.ofNat 64 old, data := [] }, writeMem a (leBytes 8 (old + h.op0.toNat)) s)
  | 0x05 => (.status cOk, addLanes a (deltaVals data) s)
  | _ => ({ code := cOk, value := BitVec.ofNat 64 old, data := [] }, if old = h.op0.toNat then writeMem a (leBytes 8 h.op1.toNat) s else s)

/-- Steps 3 to 6 of R381 for memory. -/
def memOp (op : Nat) (sid : W32) (x : Session) (h : OpHdr) (data : List Byte) (s : State) : Ans × State :=
  let a := localOf h.addr
  let n := opSpan op h
  let m := firstCode ((lineAddrs a n).map (if op = 0x01 then mapRead else mapWrite s))
  if m ≠ cOk then (.status m, s)
  else if !windowAdmits s x.entry 0 (opRight op) a n then refuseWindow x.entry s
  else
    let c := ownedCheck s x op a n
    if c ≠ cOk then (.status c, s)
    else
      let r := memRules s op a n
      if r = cOk then memDo op sid x h data s
      else if r = cPoisoned && op = 0x01 then ({ code := r, value := 0, data := zeros n }, poisonedRead a n 0 s)
      else (.status r, s)

/-! ## Register operations (20 R470-R475) -/

/-- A session's write at a register address, with a fresh free value for what a PROOF_ACTIVE finds. -/
def freshWrite (a : Nat) (data : List Byte) (sid : W32) (s : State) : W16 × State :=
  sessWrite a data (proofMask s) sid { s with free := s.free + 1 }

/-- An operation at a register or alias address. -/
def regOp (op : Nat) (sid : W32) (h : OpHdr) (data : List Byte) (s : State) : Ans × State :=
  let a := localOf h.addr
  let n := opSpan op h
  if (lineAddrs a n).any (fun l => mapRead l ≠ cOk) then (.status cAddrUnmapped, s)
  else if op = 0x01 then (let (c, b, t) := sessRead a n sid s; ({ code := c, value := 0, data := b }, t))
  else if op = 0x02 then (let (c, t) := freshWrite a data sid s; (.status c, t))
  else (let (c, t) := sessOther a n sid s; (.status c, t))

/-! ## SIGNAL and MESSAGE (R384, R385) -/

/-- SIGNAL. -/
def signalOp (x : Session) (h : OpHdr) (s : State) : Ans × State :=
  let p := h.op0.toNat
  let o := bits p 31 16
  let node := peerNode s x.entry
  if p % 4 = 0 then
    if !windowAdmits s x.entry 1 3 o 1 then refuseWindow x.entry s
    else (let (c, t) := yzSignalObj o h.op1.toNat node s; (.status c, t))
  else (let (c, t) := yzSignalBar (p % 4) o (bits p 63 32) node s; (.status c, t))

/-- MESSAGE: the device takes WORK alone. -/
def messageOp (sid : W32) (h : OpHdr) (data : List Byte) (s : State) : Ans × State :=
  if h.op0.toNat % 256 ≠ 1 then (.status cMessageRefused, s) else (.status cOk, workMessage sid data s)

/-! ## Fate (R386-R389) -/

/-- Fate data of Table 15.8. -/
def fateData (f : Nat) (ops : List FateOp) : List Byte :=
  leBytes 1 f ++ leBytes 1 ops.length ++ zeros 6 ++ ops.flatMap (fun o => leBytes 2 o.status.toNat ++ zeros 6 ++ leBytes 8 o.value.toNat)

/-- A session closed by a fate query that session `k` carries: no frame of it is taken any more; frames of the device's own in it
are in doubt, and are asked about in session `k`. -/
def closeByFate (k xk : Nat) (s : State) : State :=
  match mlook s.sessions xk with
  | none => s
  | some x =>
    let t := endSession xk s
    if x.opened then (match mlook t.doubts xk with | some d => askDoubt k xk d t | none => t) else t

/-- FATE. -/
def fateQuery (k : Nat) (x : Session) (h : OpHdr) (s : State) : Ans × State :=
  let xk := h.op0.toNat
  let n := h.op1.toNat
  let s1 := bump (peerCnt x.entry 5) 1 s
  match mlook s1.fates xk with
  | none => ({ code := cOk, value := 0, data := fateData 2 [] }, s1)
  | some f =>
    if f.entry ≠ x.entry then ({ code := cOk, value := 0, data := fateData 2 [] }, s1)
    else
      let b := match mlook f.recs n with
        | some ops => fateData 1 ops
        | none => if n = 0 ∨ f.taken < n then fateData 0 [] else fateData 2 []
      ({ code := cOk, value := 0, data := b }, closeByFate k xk s1)

/-! ## One operation (R381) -/

/-- The operations at an address. -/
def isMemOp (op : Nat) : Bool := decide (1 ≤ op) && decide (op ≤ 6)

/-- Operation `op` of session `sid` (`x`): its checks in order, its effect, its answer. -/
def opDo (op : Nat) (sid : W32) (x : Session) (h : OpHdr) (data : List Byte) (s : State) : Ans × State :=
  if !fieldsOk op h data then (.status cOpInvalid, s)
  else if isMemOp op then
    if !nodeLocal s h.addr then (.status cAddrNodeMismatch, s)
    else if isRegAddr (localOf h.addr) then regOp op sid h data s
    else memOp op sid x h data s
  else match op with
    | 0x07 => signalOp x h s
    | 0x08 => messageOp sid h data s
    | 0x0A => fateQuery sid.toNat x h s
    | _ => (.status cOk, s)

/-- An operation taken by itself: its answer is emitted. A session that is not open takes none. -/
def opRow (op : Nat) (o : OpRef) (h : OpHdr) (data : List Byte) (s : State) : State :=
  match sess? s o.sid with
  | none => s
  | some x =>
    if !x.opened then s
    else
      let (a, t) := opDo op o.sid x h data s
      emit (.opResult o a.code a.value a.data) t

/-! ## RESULT (R380, R388, R389) -/

/-- OP of an operation's record, and KIND of a MESSAGE. -/
def bodyOp (b : List Byte) : Nat := u8At b 0
def bodyKind (b : List Byte) : Nat := u8At b 16

/-- A pushed completion record, which is never pushed again (04 R113, 17 R418). -/
def isPush (b : List Byte) : Bool := decide (bodyOp b = 0x08) && decide (bodyKind b = 3)

/-- What a fate query found for the frame of session `xk` it asked about, acted on through session `k` (R389). RESULTs, which
answer a closed session, and pushes do not go again. -/
def fateAnswer (k xk n : Nat) (code : W16) (data : List Byte) (s : State) : State :=
  match mlook s.doubts xk with
  | none => s
  | some x =>
    match mlook x.frames n with
    | none => s
    | some f =>
      let left := mdel x.frames n
      let s1 := { s with doubts := if left = [] then mdel s.doubts xk else mput s.doubts xk { x with frames := left } }
      let again := sendOp k { f.op with fate := none }
      let fin := fun (c : W16) (v : W64) (s : State) => runOpDone f.op.run c (emit (.opDone x.peerSid n 0 c v) s)
      let s2 :=
        if f.answered then s1
        else if code = cOk ∧ u8At data 0 = 1 then
          (if bodyOp f.op.body = 0x01 then again s1 else fin (BitVec.ofNat 16 (u16At data 8)) (BitVec.ofNat 64 (u64At data 16)) s1)
        else if code = cOk ∧ u8At data 0 = 0 then (if isPush f.op.body then s1 else again s1)
        else fin cFateUnknown 0 s1
      match mlook s2.sessions xk with
      | some y => if !y.opened && left = [] then endSession xk s2 else s2
      | none => s2

/-- The frame that a RESULT answers, where one is outstanding at its SEQ and index. -/
def awaited (x : Session) (h : OpHdr) : Option TxFrame :=
  if h.rsvd ≠ 0 || 2 ^ 48 ≤ h.addr.toNat || bits h.op0.toNat 15 0 ≠ 0 || 2 ^ 32 ≤ h.op0.toNat then none
  else match mlook x.unacked h.addr.toNat with
    | some f => if f.answered then none else some f
    | none => none

/-- A RESULT taken in session `k`: the operation it answers completes. -/
def resultIn (k : Nat) (h : OpHdr) (data : List Byte) (s : State) : State :=
  match mlook s.sessions k with
  | none => s
  | some x =>
    match awaited x h with
    | none => s
    | some f =>
      let n := h.addr.toNat
      let c := BitVec.ofNat 16 (bits h.op0.toNat 31 16)
      let y := { x with unacked := if f.acked then mdel x.unacked n else mput x.unacked n { f with answered := true } }
      let s1 := pumpSession k (sessPut k y s)
      match f.op.fate with
      | some (xk, m) => fateAnswer k xk m c data s1
      | none => runOpDone f.op.run c (emit (.opDone x.peerSid n 0 c h.op1) s1)

/-- RESULT by itself: one that answers nothing outstanding is malformed (Table 15.11). -/
def resultRow (o : OpRef) (h : OpHdr) (data : List Byte) (s : State) : State :=
  match sess? s o.sid with
  | none => s
  | some x =>
    if !x.opened then s
    else if (awaited x h).isNone then malformedFrame x.entry s
    else resultIn o.sid.toNat h data s

/-! ## DATA frames (R375, R376, R386, R393) -/

/-- One operation record of a body. -/
structure OpRec where
  op : Nat
  h : OpHdr
  data : List Byte
  deriving DecidableEq, Repr

/-- The 32 bytes of an operation header. -/
def opHdrOf (b : List Byte) : OpHdr :=
  { rsvd := BitVec.ofNat 24 (fieldAt 3 b 1), len := BitVec.ofNat 32 (u32At b 4), addr := BitVec.ofNat 64 (u64At b 8),
    op0 := BitVec.ofNat 64 (u64At b 16), op1 := BitVec.ofNat 64 (u64At b 24) }

/-- OP is in Table 15.7. -/
def opKnown (op : Nat) : Bool := (decide (1 ≤ op) && decide (op ≤ 0x0A)) || decide (op = 0x0F)

/-- Operations with data after the header. -/
def opCarries (op : Nat) : Bool := decide (op = 0x02) || decide (op = 0x05) || decide (op = 0x08) || decide (op = 0x0F)

/-- `n` operation records that fill a body exactly. -/
def opRecs : Nat → List Byte → Option (List OpRec)
  | 0, [] => some []
  | 0, _ => none
  | n + 1, b =>
    let op := u8At b 0
    let h := opHdrOf b
    let d := if opCarries op then h.len.toNat else 0
    let m := 32 + roundUp d 8
    if b.length < 32 || !opKnown op || b.length < m then none
    else (opRecs n (b.drop m)).map ({ op := op, h := h, data := (b.drop 32).take d } :: ·)

/-- The RESULTs of a frame each answer an outstanding operation, and none twice. -/
def resultsOk (x : Session) (rs : List OpRec) : Bool :=
  let res := rs.filter (fun r => r.op = 0x0F)
  res.all (fun r => (awaited x r.h).isSome) && decide ((res.map (fun r => r.h.addr)).eraseDups.length = res.length)

/-- CREDIT of every ACK body; before the first one a sender holds 64 (R378). -/
def granted (x : Session) : Nat := if x.taken = 0 then 64 else 1024

/-- An ACK frame of session `k`: what has been taken, what is held beyond the gap. -/
def sendAck (k : Nat) (s : State) : State :=
  match mlook s.sessions k with
  | none => s
  | some x =>
    let sack := (List.range 256).foldl (fun w i => if (mlook x.held (x.taken + 2 + i)).isSome then w ||| (1#256 <<< i) else w) 0#256
    bump (portCnt x.link 0) 1 (emitOn x.link (.ack x.peerSid x.taken sack 1024 x.ce) s)

/-- The operations of a frame in record order: the fate of each, and the RESULTs that answer them. -/
def frameOps (sid : W32) (seq : Nat) : List (OpRec × Nat) → State → List FateOp × List TxOp × State
  | [], s => ([], [], s)
  | (r, i) :: t, s =>
    if r.op = 0x0F then
      let (fs, rs, s1) := frameOps sid seq t (resultIn sid.toNat r.h r.data s)
      ({ status := cOk, value := 0 } :: fs, rs, s1)
    else match mlook s.sessions sid.toNat with
      | none => ([], [], s)
      | some x =>
        let (a, s1) := opDo r.op sid x r.h r.data s
        let s2 := emit (.opResult { sid := sid, seq := BitVec.ofNat 48 seq, idx := BitVec.ofNat 8 i } a.code a.value a.data) s1
        let body := opRecord 0x0F (BitVec.ofNat 64 seq) (BitVec.ofNat 64 (i + 2 ^ 16 * a.code.toNat)) a.value a.data.length a.data
        let (fs, rs, s3) := frameOps sid seq t s2
        ({ status := a.code, value := a.value } :: fs, { tc := 0, body := body, awaits := false, run := none, fate := none } :: rs, s3)

/-- A frame taken: its operations, its fate, its RESULTs in its own class. -/
def takeFrame (k seq : Nat) (f : Frame) (s : State) : State :=
  let sid := BitVec.ofNat 32 k
  let rs := (opRecs f.hdr.opCount.toNat f.body).getD []
  let (fs, out, s1) := frameOps sid seq rs.zipIdx (sessMod k (fun x => { x with taken := seq, held := mdel x.held seq }) s)
  let s2 := match mlook s1.fates k with
    | some g => { s1 with fates := mput s1.fates k { g with taken := seq, recs := (mput g.recs seq fs).filter (fun r => decide (seq < r.1 + 4096)) } }
    | none => s1
  out.foldl (fun s o => sendOp k { o with tc := f.hdr.tc.setWidth 2 } s) s2

/-- Frames taken while the next one is held; `fuel` is their number. -/
def takeHeld (k : Nat) : Nat → State → State
  | 0, s => s
  | n + 1, s =>
    match mlook s.sessions k with
    | none => s
    | some x =>
      match mlook x.held (x.taken + 1) with
      | none => s
      | some f => if x.opened then takeHeld k n (takeFrame k (x.taken + 1) f s) else s

/-- A DATA frame that has passed its header checks, for session `k`. -/
def dataIn (k : Nat) (x : Session) (f : Frame) (s : State) : State :=
  let n := f.hdr.seq.toNat
  if n = 0 || x.taken + granted x + 16 < n then malformedFrame x.entry s
  else if n ≤ x.taken || (mlook x.held n).isSome then sendAck k (bump (peerCnt x.entry 3) 1 s)
  else if (match ackOf f.hdr with | some a => decide (x.nextSeq ≤ a) | none => false) then malformedFrame x.entry s
  else match opRecs f.hdr.opCount.toNat f.body with
    | none => malformedFrame x.entry s
    | some rs =>
      if !resultsOk x rs then malformedFrame x.entry s
      else
        let y := match ackOf f.hdr with
          | some a => ackUpTo s.time a x
          | none => x
        let s1 := sessPut k { y with held := mput y.held n f } s
        if n = x.taken + 1 then sendAck k (pumpSession k (takeHeld k (x.held.length + 1) s1)) else pumpSession k s1

/-- DATA. -/
def dataFrame (f : Frame) (s : State) : State :=
  match frameIn 1 f s with
  | (none, t) => t
  | (some (k, x), t) => dataIn k x f t

/-! ## What arrives (18 R439, R440) -/

/-- A frame or flit that has passed its link, at its receiver. -/
def arrived (c : Instr) (s : State) : State :=
  match c with
  | .hello l b g => stateOf (execHello l b g s) s
  | .helloReply l b g => stateOf (execHelloReply l b g s) s
  | .reject l e c => stateOf (execReject l e c s) s
  | .confirm f => stateOf (execConfirm f s) s
  | .close f => stateOf (execClose f s) s
  | .dataFrame f => dataFrame f s
  | .ack f => stateOf (execAck f s) s
  | .probe f => stateOf (execProbe f s) s
  | .probeReply f => stateOf (execProbeReply f s) s
  | .straitFlit l d q _ a es => flitIn l.toNat d q.toNat a es s
  | _ => s

/-- What slots have released goes on to the later slots and arrives or leaves; a released item meets each slot once. -/
def settleWire : Nat → State → State
  | 0, s => s
  | n + 1, s =>
    match s.wire with
    | [] => s
    | (k, it) :: t =>
      match fiFrom k it { s with wire := t } with
      | (some (.inn c), t2) => settleWire n (arrived c t2)
      | (some (.out _ o), t2) => settleWire n (emit o t2)
      | (none, t2) => settleWire n t2

/-- Every released item gone on: at most eight slots hold an item, and each holds it at most once more in each later slot. -/
def settle (s : State) : State := settleWire 256 s

/-- A frame or flit that arrives meets the ingress slots of its link. -/
def arrive (c : Instr) (s : State) : State :=
  match fiFrom 0 (.inn c) s with
  | (some (.inn c2), t) => settle (arrived c2 t)
  | (_, t) => settle t

/-- A frame that arrives on a fabric link or the host port. -/
def frameRow (link : Nat) (c : Instr) (s : State) : State := if linkTakes s link then arrive c s else s

end Sys2Proof.Machine
end

