-- ==== Sys2Proof/Machine/Commands.lean ====
section
/-! DEFINITION. The rows of Yazer operations, frames, register accesses and register commands (15, 20, 21, 22). -/

namespace Sys2Proof.Machine

/-! ## Operations by themselves (15 Table 15.7) -/

/-- READ. -/
def execYzRead (o : OpRef) (h : OpHdr) (s : State) : Host.Outcome State Fault Refusal := .next (opRow 0x01 o h [] s)
/-- WRITE. -/
def execYzWrite (o : OpRef) (h : OpHdr) (data : List Byte) (s : State) : Host.Outcome State Fault Refusal := .next (settle (opRow 0x02 o h data s))
/-- ADD32. -/
def execAdd32 (o : OpRef) (h : OpHdr) (s : State) : Host.Outcome State Fault Refusal := .next (opRow 0x03 o h [] s)
/-- ADD64. -/
def execAdd64 (o : OpRef) (h : OpHdr) (s : State) : Host.Outcome State Fault Refusal := .next (opRow 0x04 o h [] s)
/-- ADD_DELTA. -/
def execAddDelta (o : OpRef) (h : OpHdr) (data : List Byte) (s : State) : Host.Outcome State Fault Refusal := .next (opRow 0x05 o h data s)
/-- CAS64. -/
def execCas64 (o : OpRef) (h : OpHdr) (s : State) : Host.Outcome State Fault Refusal := .next (opRow 0x06 o h [] s)
/-- SIGNAL of a session. -/
def execYzSignal (o : OpRef) (h : OpHdr) (s : State) : Host.Outcome State Fault Refusal := .next (opRow 0x07 o h [] s)
/-- MESSAGE. -/
def execMessage (o : OpRef) (h : OpHdr) (data : List Byte) (s : State) : Host.Outcome State Fault Refusal := .next (opRow 0x08 o h data s)
/-- FENCE: operations of a session take effect one after another, so nothing is left to wait for (R383). -/
def execFence (o : OpRef) (h : OpHdr) (s : State) : Host.Outcome State Fault Refusal := .next (opRow 0x09 o h [] s)
/-- FATE. -/
def execFate (o : OpRef) (h : OpHdr) (s : State) : Host.Outcome State Fault Refusal := .next (opRow 0x0A o h [] s)
/-- RESULT. -/
def execResult (o : OpRef) (h : OpHdr) (data : List Byte) (s : State) : Host.Outcome State Fault Refusal := .next (resultRow o h data s)

/-! ## Frames -/

/-- HELLO. -/
def execHelloFrame (link : BitVec 5) (body : List Byte) (sigOk : Bool) (s : State) : Host.Outcome State Fault Refusal :=
  .next (frameRow link.toNat (.hello link body sigOk) s)
/-- HELLO_REPLY. -/
def execHelloReplyFrame (link : BitVec 5) (body : List Byte) (sigOk : Bool) (s : State) : Host.Outcome State Fault Refusal :=
  .next (frameRow link.toNat (.helloReply link body sigOk) s)
/-- CONFIRM. -/
def execConfirmFrame (f : Frame) (s : State) : Host.Outcome State Fault Refusal := .next (frameRow f.link.toNat (.confirm f) s)
/-- REJECT. -/
def execRejectFrame (link : BitVec 5) (entry : BitVec 10) (code : W16) (s : State) : Host.Outcome State Fault Refusal :=
  .next (frameRow link.toNat (.reject link entry code) s)
/-- CLOSE. -/
def execCloseFrame (f : Frame) (s : State) : Host.Outcome State Fault Refusal := .next (frameRow f.link.toNat (.close f) s)
/-- DATA. -/
def execDataFrame (f : Frame) (s : State) : Host.Outcome State Fault Refusal := .next (frameRow f.link.toNat (.dataFrame f) s)
/-- ACK. -/
def execAckFrame (f : Frame) (s : State) : Host.Outcome State Fault Refusal := .next (frameRow f.link.toNat (.ack f) s)
/-- PROBE. -/
def execProbeFrame (f : Frame) (s : State) : Host.Outcome State Fault Refusal := .next (frameRow f.link.toNat (.probe f) s)
/-- PROBE_REPLY. -/
def execProbeReplyFrame (f : Frame) (s : State) : Host.Outcome State Fault Refusal := .next (frameRow f.link.toNat (.probeReply f) s)

/-! ## Register accesses (20 R470-R482) -/

/-- A command of an open session; another session's is no command (15 Table 15.11). -/
def inSession (sid : W32) (f : Session → State → State) (s : State) : State :=
  match sess? s sid with
  | none => s
  | some x => if x.opened then f x s else s

/-- A WRITE header. -/
def writeHdr (addr : W64) (n : Nat) : OpHdr := { rsvd := 0, len := BitVec.ofNat 32 n, addr := addr, op0 := 0, op1 := 0 }

/-- A write of a session, answered by its status. -/
def writeRow (sid : W32) (addr : W64) (data : List Byte) (s : State) : State :=
  inSession sid (fun x s =>
    let (a, t) := opDo 0x02 sid x (writeHdr addr data.length) data s
    settle (emit (.writeStatus sid a.code) t)) s

/-- REGISTER_WRITE. -/
def execRegisterWrite (sid : W32) (addr : W64) (data : List Byte) (s : State) : Host.Outcome State Fault Refusal := .next (writeRow sid addr data s)
/-- ALIAS_WRITE. -/
def execAliasWrite (sid : W32) (addr : W64) (data : List Byte) (s : State) : Host.Outcome State Fault Refusal := .next (writeRow sid addr data s)
/-- COUNTER_WRITE. -/
def execCounterWrite (sid : W32) (addr : W64) (data : List Byte) (s : State) : Host.Outcome State Fault Refusal := .next (writeRow sid addr data s)
/-- GUARD_VALUE_HALF: the first write of a guarded pair, at the register. -/
def execGuardValueHalf (sid : W32) (addr : W64) (v : W32) (s : State) : Host.Outcome State Fault Refusal := .next (writeRow sid addr (leBytes 4 v.toNat) s)
/-- GUARD_COMPLEMENT_HALF: the second, at the complement port. -/
def execGuardComplementHalf (sid : W32) (addr : W64) (v : W32) (s : State) : Host.Outcome State Fault Refusal :=
  .next (writeRow sid addr (leBytes 4 v.toNat) s)
/-- GUARD_PAIR_EXPIRED: a pending value whose 64 accesses have passed fails (R481). -/
def execGuardPairExpired (sid : W32) (s : State) : Host.Outcome State Fault Refusal := .next (guardLapse sid s)

/-- COUNTER_LOW_READ: the low word of a counter read, its high word captured (R476). -/
def execCounterLowRead (sid : W32) (addr : W64) (s : State) : Host.Outcome State Fault Refusal :=
  .next (inSession sid (fun x s =>
    let (a, t) := opDo 0x01 sid x (writeHdr addr 4) [] s
    emit (.readData sid a.code a.data) t) s)

/-! ## Register commands -/

/-- The Causeway address of a register of this device. -/
def regAddr (off : Nat) : W64 := BitVec.ofNat 64 (0xFFF * 2 ^ 52 + regRegion + off)

/-- A code written to a command register. -/
def cmdWrite (off v bad : Nat) (sid : W32) (s : State) : State :=
  inSession sid (fun _ s =>
    let (c, t) := sessWrite (regRegion + off) (leBytes 4 v) bad sid s
    emit (.writeStatus sid c) t) s

/-- LOAD_STAGED. -/
def execLoadStaged (sid : W32) (s : State) : Host.Outcome State Fault Refusal := .next (cmdWrite 0x00030000 1 0 sid s)
/-- LOAD_FLASH of a slot. -/
def execLoadFlash (sid : W32) (slot : BitVec 4) (s : State) : Host.Outcome State Fault Refusal := .next (cmdWrite 0x00030000 (2 + 256 * slot.toNat) 0 sid s)
/-- DISCARD. -/
def execDiscard (sid : W32) (s : State) : Host.Outcome State Fault Refusal := .next (cmdWrite 0x00030000 3 0 sid s)
/-- ABORT_COMMIT. -/
def execAbortCommit (sid : W32) (s : State) : Host.Outcome State Fault Refusal := .next (cmdWrite 0x00030000 4 0 sid s)
/-- PROOF_ACTIVE; `bad` names the islands whose active bank differs from the store. -/
def execProofActive (sid : W32) (bad : W16) (s : State) : Host.Outcome State Fault Refusal := .next (cmdWrite 0x00030000 5 bad.toNat sid s)
/-- CAPTURE of the counter snapshot. -/
def execCapture (sid : W32) (s : State) : Host.Outcome State Fault Refusal := .next (cmdWrite 0x00010000 1 0 sid s)
/-- CHECKPOINT of the audit log. -/
def execCheckpoint (sid : W32) (s : State) : Host.Outcome State Fault Refusal := .next (cmdWrite 0x00040010 1 0 sid s)
/-- FLUSH of the audit log. -/
def execFlush (sid : W32) (s : State) : Host.Outcome State Fault Refusal := .next (cmdWrite 0x00040010 2 0 sid s)

/-- A guarded pair that both halves have passed: the session's pending value is used up, and the register takes `v` (R480). -/
def pairRow (off v : Nat) (sid : W32) (s : State) : State :=
  inSession sid (fun _ s =>
    match regAt off with
    | none => emit (.writeStatus sid cRegUndefined) (regRefuse cRegUndefined sid (regRegion + off) s)
    | some w =>
      let (c, t) := pairDone off w v sid { s with guards := mdel s.guards sid.toNat }
      settle (emit (.writeStatus sid c) (regRefuse c sid (regRegion + off) t))) s

/-- COMMIT. -/
def execCommit (sid : W32) (s : State) : Host.Outcome State Fault Refusal := .next (pairRow 0x00030004 1 sid s)
/-- EVICT. -/
def execEvict (sid : W32) (s : State) : Host.Outcome State Fault Refusal := .next (pairRow 0x00030004 2 sid s)
/-- CHANNEL_RESET: level 1 of RCV_CMD on RCV_TARGET. -/
def execChannelReset (sid : W32) (s : State) : Host.Outcome State Fault Refusal := .next (pairRow 0x00070004 1 sid s)
/-- ISLAND_RESET: level 2. -/
def execIslandReset (sid : W32) (s : State) : Host.Outcome State Fault Refusal := .next (pairRow 0x00070004 2 sid s)
/-- PORT_RESET: level 3. -/
def execPortReset (sid : W32) (s : State) : Host.Outcome State Fault Refusal := .next (pairRow 0x00070004 3 sid s)
/-- DEVICE_RESET: level 4. -/
def execDeviceReset (sid : W32) (s : State) : Host.Outcome State Fault Refusal := .next (pairRow 0x00070004 4 sid s)
/-- PWR_SWITCH of a word. -/
def execPwrSwitch (sid : W32) (word : BitVec 2) (v : W32) (s : State) : Host.Outcome State Fault Refusal :=
  .next (pairRow (0x00050000 + 4 * word.toNat) v.toNat sid s)
/-- FI_ENABLE of a slot: its bit set, the others as they stand. -/
def execFiEnable (sid : W32) (slot : BitVec 3) (s : State) : Host.Outcome State Fault Refusal :=
  .next (pairRow 0x00080400 (rget s 0x00080400 ||| (1#32 <<< slot.toNat)).toNat sid s)
/-- FI_DISABLE of a slot. -/
def execFiDisable (sid : W32) (slot : BitVec 3) (s : State) : Host.Outcome State Fault Refusal :=
  .next (pairRow 0x00080400 (rget s 0x00080400 &&& ~~~(1#32 <<< slot.toNat)).toNat sid s)
/-- YZ_PEER_COMMIT: the commit word of a peer entry. -/
def execYzPeerCommit (sid : W32) (entry : BitVec 10) (v : W32) (s : State) : Host.Outcome State Fault Refusal :=
  .next (pairRow (peerBase entry.toNat + 0x20) v.toNat sid s)
/-- YZ_WIN_COMMIT: the commit word of a window. -/
def execYzWinCommit (sid : W32) (entry : BitVec 10) (win : BitVec 6) (v : W32) (s : State) : Host.Outcome State Fault Refusal :=
  .next (pairRow (peerBase entry.toNat + 0x1000 + 0x20 * win.toNat + 0x10) v.toNat sid s)

/-! ## Snapshot and audit (20 R487-R489, 22 R516-R518) -/

/-- SNAPSHOT_MARKER reaches a die. -/
def execSnapshotMarker (die : BitVec 5) (s : State) : Host.Outcome State Fault Refusal := .next (snapMarker die.toNat s)
/-- SNAPSHOT_COMPLETE: the last die has taken its cut. -/
def execSnapshotComplete (s : State) : Host.Outcome State Fault Refusal := .next (snapDone s)

/-- A checkpoint slot's 4 KiB: what it covers, that record's CHAIN, the signature (R516; the order is the model's). -/
def checkpointBytes (c : Checkpoint) : List Byte :=
  let b := leBytes 8 c.covered ++ digestBytes c.chain ++ leBytes 2420 c.sig.toNat
  b ++ zeros (4096 - b.length)

/-- Records in INDEX order, each CHECKPOINT followed by its slot. -/
def flushBytes : List AuditRec → List Checkpoint → List Byte
  | [], _ => []
  | r :: t, cs =>
    if r.kind = 0x0D then
      match cs with
      | c :: u => r.bytes ++ checkpointBytes c ++ flushBytes t u
      | [] => r.bytes ++ flushBytes t []
    else r.bytes ++ flushBytes t cs

/-- Bytes written around the circular audit area of 64 MiB. -/
def fputRound : List Byte → Nat → SMap Byte → SMap Byte
  | [], _, m => m
  | b :: t, p, m => fputRound t (p + 1) (mset 0xFF m (0x03000000 + p % 0x04000000) b)

/-- FLUSH_DONE: the flush in progress is in flash; one that is owed begins. -/
def flushDone (s : State) : State :=
  let a := s.audit
  if !a.busy || s.rcv.cape then s
  else
    let b := flushBytes (a.ring.take a.flushing) (a.checkpoints.take a.flushingCp)
    let last := ((a.ring.take a.flushing).getLast?).map (fun r => (r.index, r.chain))
    let t := { s with
      flash := fputRound b a.flashPos s.flash,
      audit := { a with ring := a.ring.drop a.flushing, checkpoints := a.checkpoints.drop a.flushingCp, busy := false, flushing := 0,
                        flushingCp := 0, again := false, flashPos := (a.flashPos + b.length) % 0x04000000,
                        lastIndex := (last.map (·.1)).getD a.lastIndex, lastChain := (last.map (·.2)).getD a.lastChain } }
    if a.again then auditFlush t else rset 0x00040010 (rget t 0x00040010 &&& 0xFFFFFFFD#32) t

/-- FLUSH_DONE. -/
def execFlushDone (s : State) : Host.Outcome State Fault Refusal := .next (flushDone s)

/-- A ROLE_CHANGE record: what changed (1 role list, 2 fuse, 3 firmware, 4 debug unlock; notes/assumptions/43.md), the list's SEQ; a
flush follows (R518). -/
def auditRoleChange (what seq : Nat) (code : W16) (sid : W32) (s : State) : State :=
  auditFlush (audit 0x0C code sid (if sid = 0 then 1 else 0) (leBytes 1 what ++ leBytes 8 seq) s)

/-- DEBUG_UNLOCK: a maker session alone (R512, Table 22.2). -/
def debugUnlock (sid : W32) (s : State) : State :=
  inSession sid (fun x s =>
    if s.rcv.cape then emit (.writeStatus sid cCapeLost) s
    else if x.role ≠ .maker then emit (.writeStatus sid cRoleRefused) (auditRefused sid 0 0 s)
    else
      let t := auditRoleChange 4 s.boot.roleSeq cOk sid s
      emit (.writeStatus sid cOk) { t with audit := { t.audit with unlocked := true } }) s

/-- DEBUG_UNLOCK. -/
def execDebugUnlock (sid : W32) (s : State) : Host.Outcome State Fault Refusal := .next (debugUnlock sid s)

end Sys2Proof.Machine
end

