-- ==== Sys2Proof/Machine/Routes.lean ====
section
/-! DEFINITION. The routes between the islands, the harbours and the cape (01 R18-R23). -/

namespace Sys2Proof.Machine

/-- The endpoints of routes, as holders: islands 0-15, harbours 20-23, the cape 24. -/
def endpoints : List Nat := List.range 16 ++ [20, 21, 22, 23, 24]

/-- The two strait dies that an endpoint attaches to, the lower-numbered first (01 R14, R18). -/
def endDies (e : Nat) : Nat × Nat :=
  let k := (if e < 16 then e else e - 20) % 4
  if e = 24 then (0, 2) else if k = 3 then (0, 3) else (k, k + 1)

/-- An endpoint attaches to strait die `d`. -/
def attaches (e d : Nat) : Bool := decide ((endDies e).1 = d) || decide ((endDies e).2 = d)

/-- The strait dies crossed from die `a` to die `b` over the ring without crossing `c`. -/
def ringPath (a b c : Nat) : List Nat :=
  if a = b then [a] else if (a + 1) % 4 = b ∨ (b + 1) % 4 = a then [a, b] else [a, if (a + 1) % 4 = c then (a + 3) % 4 else (a + 1) % 4, b]

/-- The route to `dst` that leaves the source through die `p`, where the other route leaves it through `q`. -/
def routeVia (dst p q : Nat) : List Nat :=
  if attaches dst p then [p]
  else if attaches dst q then ringPath p (if (endDies dst).1 = q then (endDies dst).2 else (endDies dst).1) q
  else [p, if attaches dst ((p + 1) % 4) then (p + 1) % 4 else (p + 3) % 4]

/-- The routes of an endpoint pair (R20, R21). -/
def routesOf (src dst : Nat) : Route :=
  let l := routeVia dst (endDies src).1 (endDies src).2
  let h := routeVia dst (endDies src).2 (endDies src).1
  { low := l, high := h, split := decide (l.length = h.length) }

/-- The route table that the burin writes during boot (R21). -/
def routeTable : SMap Route :=
  endpoints.flatMap (fun a => (endpoints.filter (fun b => decide (b ≠ a))).map (fun b => (32 * a + b, routesOf a b)))

/-- The strait link of an endpoint to die `d`, and the ring link between two dies (18 Table 18.1). -/
def endLink (e d : Nat) : Nat :=
  if e = 24 then 44 + d / 2
  else if e < 16 then 2 * e + (if d = e % 4 then 0 else 1) else 36 + 2 * (e - 20) + (if d = e - 20 then 0 else 1)
def ringLink (a b : Nat) : Nat := if b = (a + 1) % 4 then 32 + a else 32 + b

/-- The links of a route that crosses the dies `ds`. -/
def routeLinks (src dst : Nat) (ds : List Nat) : List Nat :=
  endLink src (ds.getD 0 0) :: (ds.zip ds.tail).map (fun p => ringLink p.1 p.2) ++ [endLink dst (ds.getLastD 0)]

/-- A route works: none of its links, and so of its dies, is lost. -/
def routeUp (s : State) (src dst : Nat) (ds : List Nat) : Bool := (routeLinks src dst ds).all (fun l => !straitLinkDown s l)

/-- The primary route of traffic to address `a`, or of traffic without one, and the alternate route (R21). -/
def Route.order (r : Route) (a : Option Nat) : List Nat × List Nat :=
  match a with
  | none => (r.low, r.high)
  | some a =>
    if r.split then (if a / 4096 % 2 = 0 then (r.low, r.high) else (r.high, r.low))
    else if r.low.length < r.high.length then (r.low, r.high) else (r.high, r.low)

/-- The route that traffic takes now: its primary route, and once a link or die of that is lost the alternate (R23, R24). -/
def routeNow (s : State) (src dst : Nat) (a : Option Nat) : Option (List Nat) :=
  match mlook s.boot.routes (32 * src + dst) with
  | none => none
  | some r =>
    let (p, o) := r.order a
    if routeUp s src dst p then some p else if routeUp s src dst o then some o else none

end Sys2Proof.Machine
end

