-- ==== Sys2Proof/Machine/Boot.lean ====
section
/-! DEFINITION. Boot: firmware, role list, training, the installer configuration, readiness, the boot plate (23 R521-R532; 22 R509). -/

namespace Sys2Proof.Machine

/-- The burin and the boot stages work: POR_N released, supplies in range, the cape not lost. -/
def bootWorks (s : State) (stage : Nat) : Bool := s.pins.porN && s.pins.supplies && !s.rcv.cape && decide (s.boot.stage = stage)

/-- GLB_STAGE moves on; what is required of the domains follows. -/
def toStage (n : Nat) (s : State) : State := pwrTrack { s with boot := { s.boot with stage := n } }

/-- Domains brought up by a boot stage. -/
def domainsOn (ds : List Nat) (s : State) : State :=
  { s with pwr := { s.pwr with state := ds.foldl (fun w d => if domainLost s d then w else w ||| (1#80 <<< d)) s.pwr.state,
                               switching := ds.foldl ndel s.pwr.switching } }

/-- SHA3-256 of 32 zero bytes, the measurement of what is not there (R527). -/
def noMeasure : Digest := sha3 (zeros 32)

/-! ## Stage 1 (R532) -/

/-- BOOT_ROM: the identity and M0; the cape's domains are on. -/
def bootRom (s : State) : State :=
  if !bootWorks s 1 then s
  else toStage 2 (domainsOn [76, 77, 78, 79] { s with boot := { s.boot with m0 := Config.romDigest, identity := sha3 (ownKey s) } })

/-! ## Stage 2: firmware (R525, R526) -/

/-- LENGTH of an image. -/
def fwLen (b : List Byte) : Nat := u32At b 8

/-- The checks of R525 on the bytes of an image, the signature's verdict given. -/
def fwOk (s : State) (b : List Byte) (sigOk : Bool) : Bool :=
  let n := fwLen b
  let sig := (b.take n).drop (n - 4096)
  decide (u32At b 0 = 0x57464B41) && decide (u16At b 4 = 1) && decide (n ≤ 0x1000000) && decide (n % 4096 = 0) && decide (8192 ≤ n) && decide (n ≤ b.length)
    && signerConsistent sig && isMaker s (signerDigest sig) && sigOk
    && decide (digestOf (b.drop 0x10) = sha3 ((b.take (n - 4096)).drop 0x1000)) && decide (s.fuses.svn ≤ u8At b 6)

/-- Flash offset of a firmware slot (`true` is B). -/
def fwSlot (b : Bool) : Nat := if b then 0x01000000 else 0

/-- The image in a slot. -/
def fwImage (s : State) (b : Bool) : List Byte := fread s (fwSlot b) (min 0x1000000 (fwLen (fread s (fwSlot b) 16)))

/-- Boot control as the ROM leaves it, and the slot it tries first (R526). -/
def fwChoice (c : BootCtl) : BootCtl :=
  if !c.trial then c
  else if 3 ≤ c.tries + 1 then { slotB := !c.slotB, trial := false, tries := c.tries + 1 } else { c with tries := c.tries + 1 }

/-- A fuse request of a running image (R526): the fuses, the code of its record, whether there is one. -/
def fuseRequest (s : State) (b : List Byte) : Option (Fuses × W16) :=
  let k := u8At b 0x31
  let signer := signerDigest ((b.take (fwLen b)).drop (fwLen b - 4096))
  if !bit (u8At b 7) 1 || 4 ≤ k then none
  else match u8At b 0x30 with
    | 1 => some ((if (s.fuses.maker.getD k none).isSome then s.fuses else { s.fuses with maker := s.fuses.maker.set k (some (digestOf (b.drop 0x50))) }), cOk)
    | 2 => if s.fuses.maker.getD k none = some signer then some (s.fuses, cRoleRefused)
           else some ({ s.fuses with revoked := s.fuses.revoked.set k true }, cOk)
    | _ => none

/-- The request applied and logged. -/
def fuseApply (b : List Byte) (s : State) : State :=
  match fuseRequest s b with
  | none => s
  | some (f, c) => audit 0x0C c 0 1 (leBytes 1 2 ++ leBytes 8 s.boot.roleSeq) { s with fuses := f }

/-! ## The role list (R528, 22 R509) -/

/-- The signature of a list comes from a maker key, or from an installer key on `roles` where the installers are the same. -/
def listSigner (s : State) (b : List Byte) (roles : List (Digest × Role)) : Bool :=
  let sig := b.drop 0x1000
  let d := signerDigest sig
  let inst := fun (l : List (Digest × Role)) => (l.filter (fun r => r.2 = .installer)).map (·.1)
  sigFieldsOk sig && signerConsistent sig
    && (isMaker s d || ((inst roles).contains d && (inst (listRoles b)).all (inst roles).contains && (inst roles).all (inst (listRoles b)).contains))

/-- R509 on a new list. -/
def newListOk (s : State) (b : List Byte) (sigOk : Bool) (seq : Nat) (roles : List (Digest × Role)) : Bool :=
  listFieldsOk s b && decide (seq < listSeq b) && sigOk && listSigner s b roles

/-- The list in the current area as the burin takes it at boot: steps 1, 3 and 4 of R509. -/
def currentOk (s : State) (sigOk : Bool) : Bool :=
  let b := fread s roleArea 8192
  listFieldsOk s b && sigOk && listSigner s b (listRoles b)

/-- SEQ and entries of the current area, empty where it does not pass. -/
def currentList (s : State) (sigOk : Bool) : Nat × List (Digest × Role) :=
  if currentOk s sigOk then (let b := fread s roleArea 8192; (listSeq b, listRoles b)) else (0, [])

/-- The pending list of R528: written to the current area or logged as refused, and erased. The answer says whether it passed. -/
def pendingStep (listSig pendingSig : Bool) (s : State) : Bool × State :=
  let b := fread s pendingArea 8192
  if b.all (fun x => decide (x = 0xFF)) then (false, s)
  else
    let (q, rs) := currentList s listSig
    let ok := newListOk s b pendingSig q rs
    let s1 := fwrite pendingArea (List.replicate 8192 0xFF) (if ok then fwrite roleArea b s else s)
    (ok, audit 0x0C (if ok then cOk else cRoleList) 0 1 (leBytes 1 1 ++ leBytes 8 (listSeq b)) s1)

/-- The rest of stage 2 once an image runs: fuses, role list, M1 and M2, the burin. -/
def firmwareRuns (slot trial : Bool) (listSig pendingSig : Bool) (s : State) : State :=
  let b := fwImage s slot
  let s1 := fuseApply b s
  let (fresh, s2) := pendingStep listSig pendingSig s1
  let sig := if fresh then pendingSig else listSig
  let (q, rs) := currentList s2 sig
  let m2 := if currentOk s2 sig then sha3 (fread s2 roleArea 4096) else noMeasure
  toStage 3 { s2 with boot := { s2.boot with slot := some slot.toNat, trial := trial, fwSvn := u8At b 6, m1 := sha3 (b.take (fwLen b - 4096)), m2 := m2,
                                             m3 := noMeasure, m4 := noMeasure, roleSeq := q, roles := rs } }

/-- BOOT_FIRMWARE: the slot that R526 chooses, or the other, or neither (R524). -/
def bootFirmware (sigA sigB listSig pendingSig : Bool) (s : State) : State :=
  if !bootWorks s 2 || s.boot.stuck then s
  else
    let c0 := bootCtl s
    let c := fwChoice c0
    let s1 := if c0.trial then bootCtlSet c s else s
    let ok := fun (b : Bool) => fwOk s (fwImage s b) (if b then sigB else sigA)
    if ok c.slotB then firmwareRuns c.slotB c.trial listSig pendingSig s1
    else if ok (!c.slotB) then firmwareRuns (!c.slotB) false listSig pendingSig s1
    else alertEdge s1 { s1 with boot := { s1.boot with stuck := true } }

/-! ## Stages 3 and 4 (R523, R524, R531) -/

/-- The device's own areas of every stack: fate, service, recovery, rings, plate store. -/
def ownArea (k : Nat) : Bool := match placeOf k with | .hbm _ o => decide (0xFA0000000 ≤ o) | _ => false

/-- HBM_TRAINING: stacks that fail are lost; a cold boot clears the device's areas, a warm reset clears nothing. -/
def hbmTraining (failed : Nat) (s : State) : State :=
  let bad := (List.range 16).filter (bit failed)
  if !bootWorks s 3 then s
  else if s.rcv.served then toStage 4 (bad.foldl (fun s i => stackLost i s) s)
  else
    let s1 := bad.foldl (fun s i => { s with rcv := { s.rcv with islands := s.rcv.islands ||| (1#16 <<< i) } }) s
    toStage 4 (domainsOn ((List.range 16).map (4 * · + 3))
      { s1 with mem := s1.mem.filter (fun p => !ownArea p.1), poison := s1.poison.filter (fun p => !ownArea p.1) })

/-- STRAIT_TRAINING: strait dies and harbours that fail are lost; every link starts its numbers anew; the route table is written. -/
def straitTraining (dies harbours : Nat) (s : State) : State :=
  let d := (List.range 4).filter (bit dies)
  let h := (List.range 4).filter (bit harbours)
  let s0 := { s with straits := [], boot := { s.boot with routes := routeTable } }
  if !bootWorks s 4 then s
  else if s.rcv.served then toStage 5 (h.foldl (fun s i => harbourGone i s) (d.foldl (fun s i => straitDieLost i s) s0))
  else
    let s1 := { s0 with rcv := { s.rcv with straits := d.foldl (fun w i => w ||| (1#4 <<< i)) s.rcv.straits,
                                            harbours := h.foldl (fun w i => w ||| (1#4 <<< i)) s.rcv.harbours } }
    toStage 5 (domainsOn ((List.range 4).map (64 + ·)) s1)

/-! ## Stage 5: the installer configuration (R529, R530) -/

/-- Peer records that fill bytes exactly: entry index, the entry's 64 bytes, its windows. -/
def cfgPeers : Nat → List Byte → Option (List (Nat × List Byte × List (List Byte)))
  | 0, [] => some []
  | 0, _ => none
  | n + 1, b =>
    let w := u8At b 2
    let m := 96 + 32 * w
    if b.length < m || 64 < w || 1024 ≤ u16At b 0 || !zeroAt b 3 29 then none
    else (cfgPeers n (b.drop m)).map ((u16At b 0, (b.drop 32).take 64, chunks 32 ((b.drop 96).take (32 * w))) :: ·)

/-- Total bytes of a configuration. -/
def cfgLen (b : List Byte) : Nat := u32At b 0x1C

/-- The checks of R529 on a copy, the signature's verdict given. -/
def cfgOk (s : State) (b : List Byte) (sigOk : Bool) : Bool :=
  let n := cfgLen b
  let sig := (b.take n).drop (n - 4096)
  decide (u32At b 0 = 0x43494B41) && decide (u16At b 4 = 1) && decide (u16At b 6 ≤ 1024) && (decide (u8At b 0x12 < 16) || decide (u8At b 0x12 = 255))
    && zeroAt b 0x13 1 && decide (n ≤ 0x400000) && decide (0x1440 ≤ n) && decide (n ≤ b.length)
    && (List.range 17).all (fun l => zeroAt b (0x220 + 32 * l + 24) 8)
    && (cfgPeers (u16At b 6) ((b.take (n - 4096)).drop 0x440)).isSome
    && sigFieldsOk sig && signerConsistent sig && s.boot.roles.any (fun r => r.1 = signerDigest sig && r.2 = .installer) && sigOk

/-- The two copies. -/
def cfgArea (b : Bool) : Nat := if b then 0x02500000 else 0x02100000

/-- A copy's bytes as its LENGTH gives them. -/
def cfgRead (s : State) (b : Bool) : List Byte := fread s (cfgArea b) (min 0x400000 (cfgLen (fread s (cfgArea b) 32)))

/-- The newest valid copy: whether it is B. -/
def cfgNewest (s : State) (sigA sigB : Bool) : Option Bool :=
  let seq := fun (b : Bool) => u64At (cfgRead s b) 8
  match cfgOk s (cfgRead s false) sigA, cfgOk s (cfgRead s true) sigB with
  | false, false => none
  | true, false => some false
  | false, true => some true
  | true, true => some (decide (seq false < seq true))

/-- Words of bytes written from a register offset up by the burin. -/
def burinWords (off : Nat) (b : List Byte) (s : State) : State :=
  ((chunks 4 b).zipIdx).foldl (fun s p => burinWrite (off + 4 * p.2) (leNat p.1) s) s

/-- A peer entry or window loaded: its words, its commit word last (R390, 21 R503). -/
def burinEntry (off commit : Nat) (b : List Byte) (s : State) : State :=
  let ws := (chunks 4 b).zipIdx
  let s1 := (ws.filter (fun p => 4 * p.2 ≠ commit)).foldl (fun s p => burinWrite (off + 4 * p.2) (leNat p.1) s) s
  burinWrite (off + commit) (u32At b commit) s1

/-- The registers that a configuration names. -/
def cfgLoad (b : List Byte) (s : State) : State :=
  let s1 := burinWrite 0x000D0000 (u16At b 0x10) (burinWrite 0x000D0004 (u16At b 0x16) (burinWrite 0x000D0008 (u32At b 0x18) s))
  let s2 := (List.range 17).foldl (fun s l => burinWords (0x000D1000 + 0x100 * l) ((b.drop (0x220 + 32 * l)).take 24) s) s1
  let s3 := burinWrite 0x00040300 (u16At b 0x14) (burinWords 0x00040100 ((b.drop 0x20).take 512) s2)
  let peers := (cfgPeers (u16At b 6) ((b.take (cfgLen b - 4096)).drop 0x440)).getD []
  peers.foldl (fun s p =>
    let at_ := peerBase p.1
    (p.2.2.zipIdx).foldl (fun s w => burinEntry (at_ + 0x1000 + 0x20 * w.2) 0x10 w.1 s) (burinEntry at_ 0x20 p.2.1 s)) s3

/-- The IPv6 link-local address of a MAC address (R530; the interface identifier of RFC 4291), in network order. -/
def linkLocal (mac : Nat) : List Byte :=
  let o := fun (k : Nat) => BitVec.ofNat 8 (mac / 2 ^ (40 - 8 * k))
  [0xFE#8, 0x80#8] ++ zeros 6 ++ [o 0 ^^^ 2#8, o 1, o 2, 0xFF#8, 0xFE#8, o 3, o 4, o 5]

/-- The bootstrap settings of R530. -/
def bootstrap (s : State) : State :=
  let s1 := burinWords 0x000D1000 (linkLocal s.fuses.mac.toNat) s
  (s.boot.roles.zipIdx).foldl (fun s r =>
    burinEntry (peerBase r.2) 0x20 (digestBytes r.1.1 ++ leBytes 4 0x0001FFFF ++ leBytes 2 0 ++ leBytes 2 1 ++ zeros 24) s) s1

/-- ISLAND_BRINGUP: islands that fail are lost; a cold boot reads the configuration, a warm reset does not. -/
def islandBringup (failed : Nat) (sigA sigB : Bool) (s : State) : State :=
  let bad := (List.range 16).filter (bit failed)
  if !bootWorks s 5 then s
  else if s.rcv.served then toStage 6 (bad.foldl (fun s i => islandLost i s) s)
  else
    let s1 := bad.foldl (fun s i => { s with rcv := { s.rcv with islands := s.rcv.islands ||| (1#16 <<< i) } }) s
    let s2 := domainsOff (bad.flatMap (fun i => [4 * i, 4 * i + 1, 4 * i + 2, 4 * i + 3])) s1
    toStage 6 (match cfgNewest s2 sigA sigB with
      | none => bootstrap s2
      | some c =>
        let b := cfgRead s2 c
        cfgLoad b { s2 with boot := { s2.boot with m3 := sha3 (b.take (cfgLen b - 4096)), bootSlot := u8At b 0x12 } })

/-! ## Stages 6 to 8 -/

/-- ETHERNET_LINKUP: the links that are up when the stage ends. -/
def ethernetLinkup (up : Nat) (s : State) : State :=
  if !bootWorks s 6 then s
  else
    ((List.range 17).filter (bit up)).foldl (fun s l => stateOf (execLinkUp (BitVec.ofNat 5 l) s) s) s

/-- The records of stages 2 to 6 follow the BOOT record; a role change among them is flushed. -/
def bootRecords (s : State) : State :=
  let held := s.boot.heldRecs
  let s1 := { s with boot := { s.boot with heldRecs := [] }, audit := { s.audit with bootIndex := s.audit.count } }
  let s2 := audit 0x01 cOk 0 1 (leBytes 8 s1.audit.lastIndex ++ (digestBytes s1.audit.lastChain).take 24) s1
  let s3 := held.foldl (fun s r => audit r.1 r.2.1 0 1 r.2.2 s) s2
  if held.any (fun r => r.1 = 0x0C) then auditFlush s3 else s3

/-- Firmware of a trial slot that reaches stage 7 clears TRIAL and raises the SVN counter where its image asks (R526). -/
def trialConfirm (s : State) : State :=
  if !s.boot.trial then s
  else
    let b := fread s (fwSlot (decide (s.boot.slot = some 1))) 16
    let s1 := bootCtlSet { bootCtl s with trial := false } s
    if bit (u8At b 7) 0 then { s1 with fuses := { s1.fuses with svn := max s1.fuses.svn s1.boot.fwSvn } } else s1

/-- READY_NO_PLATE: the first entry to stage 7 starts service; a warm reset ends at stage 9, or 7 with no plate, and the descriptors
of restarted groups run again (R531, 17 R430). -/
def readyNoPlate (s : State) : State :=
  if !bootWorks s 6 then s
  else if s.rcv.served then
    replayChans (s.rcv.frozen.map (·.1)) (toStage (if s.plt.active = .empty then 7 else 9) s)
  else
    let s1 := toStage 7 (rset 0x000A0000 0 { s with rcv := { s.rcv with served := true } })
    let s2 := trialConfirm (bootRecords s1)
    if s2.rcv.warmPending then deviceWarm 0 s2 else s2

/-- BOOT_PLATE_LOAD: the slot that the configuration marks is loaded, and commits with no session. -/
def bootPlateLoad (s : State) : State :=
  if !bootWorks s 7 || s.boot.bootSlot = 255 || s.plt.standby ≠ .empty || s.plt.active ≠ .empty then s
  else
    let s1 := loadStart 8 0 (flashPlate s s.boot.bootSlot) { s with boot := { s.boot with bootSlot := 255 }, plt := { s.plt with bootLoad := true } }
    toStage 8 s1

/-! ## The rows -/

/-- BOOT_ROM. -/
def execBootRom (s : State) : Host.Outcome State Fault Refusal := .next (bootRom s)
/-- BOOT_FIRMWARE; the operands are the verdicts of the signatures of both images and both lists. -/
def execBootFirmware (sigA sigB listSig pendingSig : Bool) (s : State) : Host.Outcome State Fault Refusal :=
  .next (bootFirmware sigA sigB listSig pendingSig s)
/-- HBM_TRAINING. -/
def execHbmTraining (failed : W16) (s : State) : Host.Outcome State Fault Refusal := .next (settle (hbmTraining failed.toNat s))
/-- STRAIT_TRAINING. -/
def execStraitTraining (failed harbours : BitVec 4) (s : State) : Host.Outcome State Fault Refusal :=
  .next (settle (straitTraining failed.toNat harbours.toNat s))
/-- ISLAND_BRINGUP. -/
def execIslandBringup (failed : W16) (sigA sigB : Bool) (s : State) : Host.Outcome State Fault Refusal :=
  .next (settle (islandBringup failed.toNat sigA sigB s))
/-- ETHERNET_LINKUP. -/
def execEthernetLinkup (up : BitVec 17) (s : State) : Host.Outcome State Fault Refusal := .next (ethernetLinkup up.toNat s)
/-- READY_NO_PLATE. -/
def execReadyNoPlate (s : State) : Host.Outcome State Fault Refusal := .next (settle (readyNoPlate s))
/-- BOOT_PLATE_LOAD. -/
def execBootPlateLoad (s : State) : Host.Outcome State Fault Refusal := .next (bootPlateLoad s)

end Sys2Proof.Machine
end

