-- ==== Sys2Proof/Machine/Faults.lean ====
section
/-! DEFINITION. The rows of losses, recoveries, strait flits, clocks and injection timeouts (01, 17, 18, 19, 25). -/

namespace Sys2Proof.Machine

/-- STRAIT_FLIT: a flit leaves its sender, passes its link's slots and reaches its receiver. -/
def straitFlit (link : BitVec 6) (dir : Bool) (lsn : W32) (tc : BitVec 2) (ackFlit : Bool) (errs : List SymErr) (s : State) : State :=
  if straitWorks s link.toNat then
    arrive (.straitFlit link dir lsn tc ackFlit errs) (flitOut link.toNat dir lsn.toNat tc.toNat ackFlit s)
  else s

/-- STRAIT_FLIT. -/
def execStraitFlit (link : BitVec 6) (dir : Bool) (lsn : W32) (tc : BitVec 2) (ackFlit : Bool) (errs : List SymErr) (s : State) :
    Host.Outcome State Fault Refusal := .next (straitFlit link dir lsn tc ackFlit errs s)

/-- FLIT_RESEND. -/
def execFlitResend (link : BitVec 6) (dir : Bool) (lsn : W32) (s : State) : Host.Outcome State Fault Refusal :=
  .next (settle (flitResend link.toNat dir lsn.toNat s))

/-- STRAIT_LINK_LOST. -/
def execStraitLinkLost (link : BitVec 6) (s : State) : Host.Outcome State Fault Refusal := .next (settle (straitLinkLost link.toNat s))

/-- STRAIT_DIE_LOST. -/
def execStraitDieLost (die : BitVec 2) (s : State) : Host.Outcome State Fault Refusal := .next (settle (straitDieLost die.toNat s))

/-- ISLAND_LOST. -/
def execIslandLost (island : BitVec 4) (s : State) : Host.Outcome State Fault Refusal := .next (settle (islandLost island.toNat s))

/-- STACK_LOST. -/
def execStackLost (stack : BitVec 4) (s : State) : Host.Outcome State Fault Refusal := .next (settle (stackLost stack.toNat s))

/-- HBM_SCRUB; the codeword that brings a stack to its limit loses it. -/
def execHbmScrub (stack : BitVec 4) (codeword : BitVec 30) (errs : List SymErr) (s : State) : Host.Outcome State Fault Refusal :=
  .next (settle (ueDeclare stack.toNat (hbmScrub stack.toNat codeword.toNat errs s)))

/-- HARBOUR_LOST. -/
def execHarbourLost (harbour : BitVec 2) (s : State) : Host.Outcome State Fault Refusal := .next (settle (harbourGone harbour.toNat s))

/-- CAPE_LOST. -/
def execCapeLost (s : State) : Host.Outcome State Fault Refusal := .next (settle (capeGone s))

/-- FALLBACK_SWITCH; `bad` names the islands whose proof fails. -/
def execFallbackSwitch (bad : W16) (s : State) : Host.Outcome State Fault Refusal := .next (fallbackSwitch bad.toNat s)

/-- MIRROR_REBUILT. -/
def execMirrorRebuilt (chan : BitVec 12) (s : State) : Host.Outcome State Fault Refusal := .next (mirrorRebuilt chan.toNat s)

/-- RECOVERY_COMPLETE. -/
def execRecoveryComplete (s : State) : Host.Outcome State Fault Refusal := .next (settle (recoveryComplete s))

/-- HBM_CLOCK_LOST. -/
def execHbmClockLost (clock : BitVec 2) (s : State) : Host.Outcome State Fault Refusal := .next (settle (hbmClockLost clock.toNat s))

/-- ETH_CLOCK_LOST. -/
def execEthClockLost (clock : BitVec 3) (s : State) : Host.Outcome State Fault Refusal := .next (settle (ethClockLost clock.toNat s))

/-- ETH_CLOCK_RETURN. -/
def execEthClockReturn (clock : BitVec 3) (s : State) : Host.Outcome State Fault Refusal := .next (ethClockReturn clock.toNat s)

/-- WARM_N falls. -/
def execWarmN (s : State) : Host.Outcome State Fault Refusal := .next (settle (warmPin s))

/-- FI_HOLD_TIMEOUT: the item that a slot holds goes on, its time being over (18 R439). -/
def execFiHoldTimeout (slot : BitVec 3) (s : State) : Host.Outcome State Fault Refusal := .next (settle (fiRelease slot.toNat s))

end Sys2Proof.Machine
end

