-- ==== Sys2Proof/Machine/Power.lean ====
section
/-! DEFINITION. Power domains, thermal control, supplies and resets, the management map and the TAP (24, 25). -/

namespace Sys2Proof.Machine

/-! ## Domains (R538-R543) -/

/-- Counters with some indices at 0. -/
def zeroCounters (mine : Nat → Bool) (s : State) : State := { s with counters := s.counters.filter (fun c => !mine c.1) }

/-- The reef counters of domain 4i + h. -/
def halfCounter (i h c : Nat) : Bool :=
  decide (c < 32768) && (let r := 32 * (c / 8192) + c % 8192 / 128; decide (r / 8 = i) && decide (r % 8 / 4 = h))

/-- The state after a wake (Table 24.2), and the links of a port domain that goes off. -/
def domainEffect (d : Nat) (on : Bool) (s : State) : State :=
  if d < 64 then
    match d % 4, on with
    | 0, true => zeroCounters (halfCounter (d / 4) 0) s
    | 1, true => zeroCounters (halfCounter (d / 4) 1) s
    | 2, true =>
      let lo := lagKey (d / 4) 0
      let mine := fun (k : Nat) => decide (lo ≤ k) && decide (k < lo + 0x10000000)
      { s with mem := s.mem.filter (fun p => !mine p.1), poison := s.poison.filter (fun p => !mine p.1) }
    | _, _ => s
  else if 68 ≤ d && d < 72 then
    (if on then zeroCounters (fun c => decide (harbourCnt (d - 68) 0 ≤ c) && decide (c < harbourCnt (d - 68) 128)) s else s)
  else if 72 ≤ d && d < 76 then linksDown (harbourLinks (d - 72)) s
  else s

/-- DOMAIN_SWITCH_DONE: a domain that switches has gone the other way; a request that changed meanwhile starts the next switch (R541). -/
def domainSwitchDone (d : Nat) (s : State) : State :=
  if !nmem s.pwr.switching d then s
  else
    let on := !s.pwr.state.getLsbD d
    let w := if on then s.pwr.state ||| (1#80 <<< d) else s.pwr.state &&& ~~~(1#80 <<< d)
    pwrTrack (domainEffect d on { s with pwr := { s.pwr with state := w, switching := ndel s.pwr.switching d } })

/-! ## Thermal control (R544, R551-R553) -/

/-- Rail of die code `t` (0-24). -/
def railGet (s : State) (t : Nat) : Rail := mget Rail.init s.pwr.rails t

/-- The rail set. -/
def railPut (t : Nat) (r : Rail) (s : State) : State := { s with pwr := { s.pwr with rails := mset Rail.init s.pwr.rails t r } }

/-- The next setpoint down and up (R544). -/
def stepDown (mv : Nat) : Nat := if 680 < mv then 680 else 620
def stepUp (mv : Nat) : Nat := if mv < 680 then 680 else 750

/-- THM_LIMITS: WARN_C, THROTTLE_C, TRIP_C. -/
def limitC (s : State) (k : Nat) : Int := ((rget s 0x00060000).toNat / 256 ^ k % 256 : Nat)

/-- A cool rail's step up: after 10 ms of its condition, which then start again. -/
def railCool (now : Nat) (cool : Bool) (r : Rail) : Rail :=
  if !cool then { r with coolSince := none }
  else match r.coolSince with
    | none => { r with coolSince := some now }
    | some t =>
      if t + 10000 ≤ now then
        let mv := stepUp r.mv
        { mv := mv, stepped := some now, coolSince := if mv = 750 then none else some now, byPower := r.byPower && decide (mv ≠ 750) }
      else r

/-- One die's rails at a sample (Table 24.4): a die above THROTTLE_C steps down at once, then each ms. -/
def railSample (was : Int) (t : Nat) (s : State) : State :=
  let r := railGet s t
  let c := (tempOf s t).toInt
  let lim := limitC s 1
  let due := decide (was ≤ lim) || (match r.stepped with | none => true | some k => decide (k + 1000 ≤ s.time))
  if codeLost s t then s
  else if lim < c then
    if due && decide (620 < r.mv) then railPut t { mv := stepDown r.mv, stepped := some s.time, coolSince := none, byPower := false } s
    else railPut t { r with coolSince := if r.byPower then r.coolSince else none } s
  else if r.mv < 750 && !r.byPower then railPut t (railCool s.time (decide (c ≤ lim - 3)) r) s
  else s

/-- Every rail at 0.62 V, as a trip leaves it (R553). -/
def tripAll (s : State) : State :=
  (List.range 25).foldl (fun s t => railPut t { mv := 620, stepped := some s.time, coolSince := none, byPower := false } s)
    { s with pwr := { s.pwr with tripped := true } }

/-- THERMAL_SAMPLE: temperatures by die code, and the stacks at their catastrophic temperature. -/
def thermalSample (temps : List Byte) (cat : Nat) (s : State) : State :=
  if !s.pins.porN || !s.pins.supplies || s.rcv.cape then s
  else
    let old := s
    let s1 := { s with pwr := { s.pwr with temps := dieCodes.foldl (fun m t =>
      match temps[t]? with | some b => mset 0 m t b | none => m) s.pwr.temps } }
    let live := dieCodes.filter (fun t => !codeLost s1 t)
    let hotAt := fun (l : Int) => live.any (fun t => decide (l < (tempOf s1 t).toInt))
    let warn := hotAt (limitC s1 0)
    let s2 := { s1 with pwr := { s1.pwr with warn := warn } }
    let s3 := if warn && !s.pwr.warn then alert 4 s2 else s2
    let s4 := if s3.pwr.tripped then s3
      else if hotAt (limitC s1 2 - 1) then tripAll s3
      else (List.range 25).foldl (fun s t => railSample (tempOf old t).toInt t s) s3
    ((List.range 16).filter (bit cat)).foldl (fun s k => stackLost k s) s4

/-- POWER_SAMPLE (R552): after each ms above 3.6 kW every island rail steps down; at or below 3.4 kW they recover as cool ones do. -/
def powerSample (w : Nat) (s : State) : State :=
  if !s.pins.porN || !s.pins.supplies || s.rcv.cape then s
  else
    let s1 := { s with pwr := { s.pwr with watts := w } }
    let isl := (List.range 16).filter (fun i => !islLost s1 i)
    let s2 :=
      if w ≤ 3600 then { s1 with pwr := { s1.pwr with overSince := none } }
      else match s1.pwr.overSince with
        | none => { s1 with pwr := { s1.pwr with overSince := some s1.time } }
        | some t =>
          if s1.time < t + 1000 then s1
          else isl.foldl (fun s i =>
              let r := railGet s i
              if 620 < r.mv then railPut i { mv := stepDown r.mv, stepped := some s.time, coolSince := none, byPower := true } s else s)
            { s1 with pwr := { s1.pwr with overSince := some s1.time } }
    if s2.pwr.tripped then s2
    else isl.foldl (fun s i =>
      let r := railGet s i
      if r.mv < 750 && r.byPower then railPut i (railCool s.time (decide (w ≤ 3400)) r) s else s) s2

/-! ## Supplies and POR_N (R557, R558, R565, R566, 17 R433) -/

/-- The state after a cold restart: what flash and fuses keep, and the pins as they stand. -/
def coldState (s : State) : State :=
  let r := State.reset
  { r with
    pending := s.pending, out := s.out, free := s.free, flash := s.flash, fuses := s.fuses,
    audit := { r.audit with head := s.audit.lastChain, flashPos := s.audit.flashPos, lastIndex := s.audit.lastIndex, lastChain := s.audit.lastChain },
    pwr := { r.pwr with state := if s.pins.supplies then 3#80 <<< 78 else 0 },
    pins := { s.pins with porN := false } }

/-- POR_N low for a number of microseconds: a cold restart; a pulse shorter than 100 us may be ignored, which a free value decides. -/
def porNAssert (us : Nat) (s : State) : State :=
  if 100 ≤ us then coldState s
  else
    let (k, t) := takeFree s
    if (Config.free64 k).getLsbD 0 then coldState t else t

/-- POR_N released, with every supply in range: t0. -/
def porNRelease (s : State) : State :=
  if s.pins.porN || !s.pins.supplies then s else { s with pins := { s.pins with porN := true } }

/-- A supply leaves its limits: what the device holds but for flash and fuses is gone. Nothing is promised of its outputs until
POR_N is asserted (R566). -/
def powerLoss (s : State) : State :=
  if !s.pins.supplies then s
  else
    let t := coldState { s with pins := { s.pins with supplies := false } }
    { t with pins := { t.pins with porN := s.pins.porN, pointer := 0, ir := 1 } }

/-- POWER_UP: the supplies come within their limits while POR_N is low; domains 78 and 79 and the I3C target start. -/
def powerUp (s : State) : State :=
  if s.pins.supplies || s.pins.porN then s
  else { s with pins := { s.pins with supplies := true }, pwr := { s.pwr with state := s.pwr.state ||| (3#80 <<< 78) } }

/-! ## Management over I3C (R562, R563) -/

/-- The always-on domain works, and with it the I3C target and the TAP. -/
def aonWorks (s : State) : Bool := s.pins.supplies && s.pwr.state.getLsbD 78

/-- A word of PWR_STATE. -/
def pwrWord32 (s : State) (k : Nat) : Nat := s.pwr.state.toNat / 2 ^ (32 * k) % 2 ^ 32

/-- Words 0x000 to 0x009 of Table 25.7; their reset values while POR_N is low. -/
def mgmtLive (s : State) (w : Nat) : Nat :=
  if !s.pins.porN then (if w = 0 then 0x00B00A25 else if w = 1 then 1 else if w = 9 then 0x0073695F else 0)
  else match w with
    | 0 => 0x00B00A25
    | 1 => s.boot.stage
    | 2 => (rget s 8).toNat
    | 3 => thmStatus s
    | 4 => rcvStatus s
    | 5 => (rcvLostWord s).toNat
    | 6 => pwrWord32 s 0
    | 7 => pwrWord32 s 1
    | 8 => pwrWord32 s 2
    | _ => (rget s 0x00060000).toNat

/-- A word of the management map; the measured voltages, currents and rails are free values, drawn from `f`. -/
def mgmtWord (s : State) (f w : Nat) : Nat :=
  let free := (Config.free64 f).toNat
  if w < 0x00A then mgmtLive s w
  else if 0x010 ≤ w ∧ w < 0x040 then
    (let t := w - 0x010
     if t ≤ 24 ∨ 32 ≤ t then (if !s.pins.porN then 0x80 else (tempOf s t).toNat) else 0)
  else if w = 0x042 then s.pwr.watts
  else if w = 0x040 ∨ w = 0x041 ∨ w = 0x043 ∨ w = 0x044 then free % 2 ^ 16
  else if 0x050 ≤ w ∧ w ≤ 0x068 then (if !s.pins.porN then 0 else free % 2 ^ 16 + 2 ^ 16 * (railGet s (w - 0x050)).mv)
  else 0

/-- I3C_POINTER_WRITE: a private write of exactly two bytes. -/
def i3cPointer (data : List Byte) (s : State) : State :=
  if !aonWorks s || data.length ≠ 2 then s else { s with pins := { s.pins with pointer := BitVec.ofNat 16 (leNat data) } }

/-- I3C_READ of some words from the pointer on, which advances past them. -/
def i3cRead (n : Nat) (s : State) : State :=
  if !aonWorks s then s
  else
    let p := s.pins.pointer.toNat
    let b := (List.range n).flatMap (fun i => leBytes 4 (mgmtWord s (s.free + i) ((p + i) % 65536)))
    emit (.i3c b) { s with free := s.free + n, pins := { s.pins with pointer := BitVec.ofNat 16 (p + n) } }

/-! ## The TAP (R564) -/

/-- A TAP instruction, where the TAP is not held in reset: the instruction register takes it. -/
def tap (ir : Byte) (f : State → State) (s : State) : State :=
  if !aonWorks s || !s.pins.trstN then s else f { s with pins := { s.pins with ir := ir } }

/-- The bypass register captures 0. -/
def tapBypass (s : State) : State := emit (.jtag 1 0) s

/-- The boundary register captures the low-speed pins, whose cells the manual does not number (a free value). -/
def tapBoundary (s : State) : State :=
  let (k, t) := takeFree s
  emit (.jtag 64 (Config.free64 k).toNat) t

/-- SAMPLE/PRELOAD: the pins are captured, and a pattern shifted in is held for EXTEST and CLAMP. -/
def samplePreload (shifted : Option (BitVec 64)) (s : State) : State :=
  tap 0x02 (fun s =>
    let t := tapBoundary s
    match shifted with
    | some v => { t with pins := { t.pins with boundary := v } }
    | none => t) s

/-- TRST_N. -/
def trst (low : Bool) (s : State) : State :=
  if low then { s with pins := { s.pins with trstN := false, ir := 0x01 } } else { s with pins := { s.pins with trstN := true } }

/-- The boundary register drives the low-speed pins (EXTEST, CLAMP), which acts only while POR_N is low. -/
def boundaryDrives (s : State) : Bool := !s.pins.porN && (decide (s.pins.ir = 0x03) || decide (s.pins.ir = 0x04))

/-- THERM_N is asserted (R553). -/
def thermN (s : State) : Bool := s.pins.porN && s.pwr.tripped

/-! ## The rows -/

/-- DOMAIN_SWITCH_DONE. -/
def execDomainSwitchDone (domain : BitVec 7) (s : State) : Host.Outcome State Fault Refusal := .next (domainSwitchDone domain.toNat s)
/-- THERMAL_SAMPLE. -/
def execThermalSample (temps : List Byte) (catastrophic : W16) (s : State) : Host.Outcome State Fault Refusal :=
  .next (settle (thermalSample temps catastrophic.toNat s))
/-- POWER_SAMPLE. -/
def execPowerSample (watts : W16) (s : State) : Host.Outcome State Fault Refusal := .next (powerSample watts.toNat s)
/-- POR_N_ASSERT. -/
def execPorNAssert (us : Nat) (s : State) : Host.Outcome State Fault Refusal := .next (porNAssert us s)
/-- POR_N_RELEASE. -/
def execPorNRelease (s : State) : Host.Outcome State Fault Refusal := .next (porNRelease s)
/-- POWER_LOSS. -/
def execPowerLoss (s : State) : Host.Outcome State Fault Refusal := .next (powerLoss s)
/-- POWER_UP. -/
def execPowerUp (s : State) : Host.Outcome State Fault Refusal := .next (powerUp s)
/-- I3C_POINTER_WRITE. -/
def execI3cPointerWrite (data : List Byte) (s : State) : Host.Outcome State Fault Refusal := .next (i3cPointer data s)
/-- I3C_READ. -/
def execI3cRead (words : Nat) (s : State) : Host.Outcome State Fault Refusal := .next (i3cRead words s)
/-- JTAG_BYPASS. -/
def execJtagBypass (s : State) : Host.Outcome State Fault Refusal := .next (tap 0xFF tapBypass s)
/-- JTAG_IDCODE. -/
def execJtagIdcode (s : State) : Host.Outcome State Fault Refusal := .next (tap 0x01 (emit (.jtag 32 0xB0A25F3B)) s)
/-- SAMPLE_PRELOAD. -/
def execSamplePreload (shifted : Option (BitVec 64)) (s : State) : Host.Outcome State Fault Refusal := .next (samplePreload shifted s)
/-- EXTEST: the pins are driven from the boundary register and captured; with POR_N high, BYPASS. -/
def execExtest (s : State) : Host.Outcome State Fault Refusal := .next (tap 0x03 (fun s => if s.pins.porN then tapBypass s else tapBoundary s) s)
/-- CLAMP: the pins are driven from the boundary register, the bypass register is selected. -/
def execClamp (s : State) : Host.Outcome State Fault Refusal := .next (tap 0x04 tapBypass s)
/-- HIGHZ: the pins float, the bypass register is selected. -/
def execHighz (s : State) : Host.Outcome State Fault Refusal := .next (tap 0x05 tapBypass s)
/-- TRST_N. -/
def execTrstN (low : Bool) (s : State) : Host.Outcome State Fault Refusal := .next (trst low s)

end Sys2Proof.Machine
end

