-- ==== Sys2Proof/Machine/Service.lean ====
section
/-! DEFINITION. Service requests: the request at the head of the burin's queue, its checks and effect, its response (23 R535-R537). -/

namespace Sys2Proof.Machine

/-- How a request ends: OUTCOME, CODE, BYTES. -/
structure SvcEnd where
  outcome : Nat
  code : W16
  bytes : Nat
  deriving DecidableEq, Repr

/-- An end with no code and no bytes. -/
def SvcEnd.of (n : Nat) : SvcEnd := { outcome := n, code := 0, bytes := 0 }

/-- The local address of a request. -/
def svcAddr (r : SvcReq) : Nat := hbmKey 1 (slotOff r.slot)

/-- A record of a request that changes no role: a REGISTER_WRITE of its sixteen words (notes/assumptions/63.md). -/
def auditService (r : SvcReq) (s : State) : State :=
  audit 0x04 cOk r.sid 0 (leBytes 8 (svcAddr r) ++ leBytes 4 (r.op + 256 * r.arg) ++ leBytes 2 16) s

/-- The record of OUTCOME 1. -/
def auditSvcRefused (r : SvcReq) (s : State) : State := audit 0x06 cRoleRefused r.sid 0 (leBytes 8 (svcAddr r) ++ leBytes 2 r.op) s

/-- The head request is done: its response is written, STATE last, and the next one is served (R535). -/
def svcFinish (r : SvcReq) (e : SvcEnd) (s : State) : State :=
  let o := slotOff r.slot + 0x40
  let b := leBytes 1 e.outcome ++ leBytes 2 e.code.toNat ++ leBytes 4 e.bytes ++ zeros 20
  serviceWrite (o + 4) [2] (serviceWrite (o + 5) b (serviceWrite o (leBytes 4 r.tag.toNat) { s with svc := s.svc.drop 1 }))

/-- The peer entry whose windows a request uses. -/
def svcEntry (s : State) (r : SvcReq) : Nat := ((sess? s r.sid).map (·.entry)).getD 1024

/-- A buffer access under R381: the node, the map, the session's windows, the owned areas, the target's rules. -/
def bufCheck (s : State) (r : SvcReq) (op : Nat) : W16 :=
  let a := localOf r.addr
  let n := r.len
  if !nodeLocal s r.addr then cAddrNodeMismatch
  else firstCode [
    firstCode ((lineAddrs a n).map (if op = 0x01 then mapRead else mapWrite s)),
    (if (lineAddrs a n).any isRegAddr then cRegOpInvalid else cOk),
    (if windowAdmits s (svcEntry s r) 0 (opRight op) a n then cOk else cWindowRefused),
    (if op = 0x01 then protRead s a n else protWrite s a n),
    memRules s op a n]

/-- Fields of Table 23.7 (`maxLen` bounds LEN; 0 where a request has no buffer). -/
def svcFields (r : SvcReq) (minLen maxLen maxArg : Nat) : Bool :=
  r.wellFormed && decide (r.arg ≤ maxArg) && (decide (maxLen = 0) || (decide (r.addr.toNat % 32 = 0) && decide (minLen ≤ r.len) && decide (r.len ≤ maxLen)))

/-- The bytes of a request's buffer. -/
def bufBytes (s : State) (r : SvcReq) : List Byte := readMem s (localOf r.addr) r.len

/-- The head request is served by `f` where it is of operation `op`; one that Table 23.7 does not have ends malformed. -/
def serve (op : Nat) (may : Role → Bool) (fields : SvcReq → Bool) (buf : Nat) (f : SvcReq → State → SvcEnd × State) (s : State) : State :=
  match s.svc with
  | [] => s
  | r :: _ =>
    if s.rcv.cape || s.boot.stage < 7 then s
    else if r.op = 0 || 6 < r.op then svcFinish r (.of 2) s
    else if r.op ≠ op then s
    else if !may (roleOf s r.sid) then svcFinish r { outcome := 1, code := cRoleRefused, bytes := 0 } (auditSvcRefused r s)
    else if !fields r then svcFinish r (.of 2) s
    else
      let c := if buf = 0 then cOk else bufCheck s r buf
      if c ≠ cOk then svcFinish r { outcome := 3, code := c, bytes := 0 } s
      else (let (e, t) := f r s; svcFinish r e t)

/-- A role that is `r`. -/
def isRole (r : Role) (x : Role) : Bool := decide (x = r)

/-- READ_FLASH. -/
def svcReadFlash (flashOk : Bool) (r : SvcReq) (s : State) : SvcEnd × State :=
  if !flashOk then (.of 6, s)
  else
    let b := fread s r.flashOff.toNat r.len
    ({ outcome := 0, code := 0, bytes := r.len }, writeMem (localOf r.addr) b (auditService r s))

/-- Steps 1 to 7 of Table 2.9 on the bytes of a buffer. -/
def plateChecks (s : State) (b : List Byte) (sigOk : Bool) : W16 :=
  match plateFront s b sigOk with
  | some e => e.code
  | none => match step6 b with
    | some e => e.code
    | none => if (crcBad b).isSome then cSectionCrc else cOk

/-- WRITE_PLATE: checked, slot ARG emptied, written first fit, the directory entry set. -/
def svcWritePlate (sigOk flashOk : Bool) (r : SvcReq) (s : State) : SvcEnd × State :=
  let all := bufBytes s r
  let b := all.take (plateLen all)
  let c := plateChecks s b sigOk
  if c ≠ cOk then ({ outcome := 4, code := c, bytes := 0 }, s)
  else match firstFit s r.arg b.length with
    | none => (.of 5, s)
    | some a =>
      if !flashOk then (.of 6, s)
      else ({ outcome := 0, code := 0, bytes := b.length },
            dirSet r.arg a b.length (contentDigest b) (fwrite a b (dirSet r.arg 0 0 0 (auditService r s))))

/-- ERASE_PLATE. -/
def svcErasePlate (flashOk : Bool) (r : SvcReq) (s : State) : SvcEnd × State :=
  if !flashOk then (.of 6, s) else (.of 0, dirSet r.arg 0 0 0 (auditService r s))

/-- The copy of the configuration that a new one overwrites: the invalid or the older. -/
def cfgOlder (s : State) : Bool :=
  match cfgNewest s true true with
  | some c => !c
  | none => false

/-- WRITE_CONFIG. -/
def svcWriteConfig (sigOk flashOk : Bool) (r : SvcReq) (s : State) : SvcEnd × State :=
  let b := bufBytes s r
  if !cfgOk s b sigOk then (.of 4, s)
  else if !flashOk then (.of 6, s)
  else ({ outcome := 0, code := 0, bytes := cfgLen b }, fwrite (cfgArea (cfgOlder s)) (b.take (cfgLen b)) (auditService r s))

/-- WRITE_ROLE_LIST: the current area takes the list, the pending area ends erased, and every role is derived again (22 R509, R510). -/
def svcWriteRoles (sigOk flashOk : Bool) (r : SvcReq) (s : State) : SvcEnd × State :=
  let b := bufBytes s r
  if !newListOk s b sigOk s.boot.roleSeq s.boot.roles then
    ({ outcome := 4, code := cRoleList, bytes := 0 }, audit 0x0C cRoleList r.sid 0 (leBytes 1 1 ++ leBytes 8 (listSeq b)) s)
  else if !flashOk then (.of 6, s)
  else
    let t := auditRoleChange 1 (listSeq b) cOk r.sid s
    let u := fwrite pendingArea (List.replicate 8192 0xFF) (fwrite roleArea b t)
    ({ outcome := 0, code := 0, bytes := 8192 }, rederiveRoles { u with boot := { u.boot with roleSeq := listSeq b, roles := listRoles b } })

/-- WRITE_FIRMWARE: the slot that does not run takes the image and is preferred as a trial. -/
def svcWriteFirmware (sigOk flashOk : Bool) (r : SvcReq) (s : State) : SvcEnd × State :=
  let b := bufBytes s r
  let slotB := decide (s.boot.slot ≠ some 1)
  if !fwOk s b sigOk then (.of 4, s)
  else if !flashOk then (.of 6, s)
  else ({ outcome := 0, code := 0, bytes := fwLen b },
        bootCtlSet { slotB := slotB, trial := true, tries := 0 } (fwrite (fwSlot slotB) (b.take (fwLen b)) (auditRoleChange 3 s.boot.roleSeq cOk r.sid s)))

/-! ## The rows -/

/-- SERVICE_REQUEST: a session's 64-byte write of its request, with every check of a WRITE (R381, R535). -/
def execServiceRequest (sid : W32) (addr : W64) (req : List Byte) (s : State) : Host.Outcome State Fault Refusal := .next (writeRow sid addr req s)

/-- READ_FLASH. -/
def execReadFlash (flashOk : Bool) (s : State) : Host.Outcome State Fault Refusal :=
  .next (serve 1 (fun r => r ≠ .none) (fun r => svcFields r 32 0x1000000 255 && decide (r.flashOff.toNat + r.len ≤ flashBytes)) 0x02 (svcReadFlash flashOk) s)
/-- WRITE_PLATE. -/
def execWritePlate (sigOk flashOk : Bool) (s : State) : Host.Outcome State Fault Refusal :=
  .next (serve 2 (isRole .installer) (fun r => svcFields r 1 0x10000000 15) 0x01 (svcWritePlate sigOk flashOk) s)
/-- ERASE_PLATE. -/
def execErasePlate (flashOk : Bool) (s : State) : Host.Outcome State Fault Refusal :=
  .next (serve 3 (isRole .installer) (fun r => svcFields r 0 0 15) 0 (svcErasePlate flashOk) s)
/-- WRITE_CONFIG. -/
def execWriteConfig (sigOk flashOk : Bool) (s : State) : Host.Outcome State Fault Refusal :=
  .next (serve 4 (isRole .installer) (fun r => svcFields r 1 0x400000 255) 0x01 (svcWriteConfig sigOk flashOk) s)
/-- WRITE_ROLE_LIST. -/
def execWriteRoleList (sigOk flashOk : Bool) (s : State) : Host.Outcome State Fault Refusal :=
  .next (serve 5 (fun r => isRole .installer r || isRole .maker r) (fun r => svcFields r 8192 8192 255) 0x01 (svcWriteRoles sigOk flashOk) s)
/-- WRITE_FIRMWARE. -/
def execWriteFirmware (sigOk flashOk : Bool) (s : State) : Host.Outcome State Fault Refusal :=
  .next (serve 6 (isRole .maker) (fun r => svcFields r 1 0x1000000 255) 0x01 (svcWriteFirmware sigOk flashOk) s)

end Sys2Proof.Machine
end

