-- ==== Sys2Proof/Machine/Dispatch.lean ====
section
/-! DEFINITION. The one table from commands to meanings. -/

namespace Sys2Proof.Machine

def exec (i : Instr) (s : State) : Host.Outcome State Fault Refusal :=
  match i with
  | .loadStaged sid => Sys2Proof.Machine.execLoadStaged sid s
  | .loadFlash sid slot => Sys2Proof.Machine.execLoadFlash sid slot s
  | .discard sid => Sys2Proof.Machine.execDiscard sid s
  | .abortCommit sid => Sys2Proof.Machine.execAbortCommit sid s
  | .proofActive sid bad => Sys2Proof.Machine.execProofActive sid bad s
  | .commit sid => Sys2Proof.Machine.execCommit sid s
  | .evict sid => Sys2Proof.Machine.execEvict sid s
  | .plateLoadDone sigOk => Sys2Proof.Machine.execPlateLoadDone sigOk s
  | .proofDone island same => Sys2Proof.Machine.execProofDone island same s
  | .bankSwap => Sys2Proof.Machine.execBankSwap s
  | .fallbackSwitch bad => Sys2Proof.Machine.execFallbackSwitch bad s
  | .sheetSliceEnd island => Sys2Proof.Machine.execSheetSliceEnd island s
  | .sheetSwitch island => Sys2Proof.Machine.execSheetSwitch island s
  | .descriptorSubmit sid d => Sys2Proof.Machine.execDescriptorSubmit sid d s
  | .create sid c => Sys2Proof.Machine.execCreate sid c s
  | .destroy sid c => Sys2Proof.Machine.execDestroy sid c s
  | .retire sid c => Sys2Proof.Machine.execRetire sid c s
  | .setTc sid c => Sys2Proof.Machine.execSetTc sid c s
  | .setDeadline sid c => Sys2Proof.Machine.execSetDeadline sid c s
  | .descriptorCommit chan => Sys2Proof.Machine.execDescriptorCommit chan s
  | .batchApply island r => Sys2Proof.Machine.execBatchApply island r s
  | .completionReady chan => Sys2Proof.Machine.execCompletionReady chan s
  | .take l => Sys2Proof.Machine.execTake l s
  | .done l => Sys2Proof.Machine.execDone l s
  | .nop l => Sys2Proof.Machine.execNop l s
  | .jump l target => Sys2Proof.Machine.execJump l target s
  | .signal l obj n => Sys2Proof.Machine.execSignal l obj n s
  | .wait l obj n timeout => Sys2Proof.Machine.execWait l obj n timeout s
  | .decrement l obj n => Sys2Proof.Machine.execDecrement l obj n s
  | .arrive l bar => Sys2Proof.Machine.execArrive l bar s
  | .bwait l bar timeout => Sys2Proof.Machine.execBwait l bar timeout s
  | .arriveWait l bar timeout => Sys2Proof.Machine.execArriveWait l bar timeout s
  | .waitTimeout l => Sys2Proof.Machine.execWaitTimeout l s
  | .attachedSignal reef unit => Sys2Proof.Machine.execAttachedSignal reef unit s
  | .engine l unit entry att => Sys2Proof.Machine.execEngine l unit entry att s
  | .asuIssue l resultOff cmdOff att => Sys2Proof.Machine.execAsuIssue l resultOff cmdOff att s
  | .wxaClear l row => Sys2Proof.Machine.execWxaClear l row s
  | .wxaSetMode l row square => Sys2Proof.Machine.execWxaSetMode l row square s
  | .wxaSave l row addr => Sys2Proof.Machine.execWxaSave l row addr s
  | .wxaRestore l row addr => Sys2Proof.Machine.execWxaRestore l row addr s
  | .wxaMerge l row addr => Sys2Proof.Machine.execWxaMerge l row addr s
  | .wxaReadFp32 l row addr => Sys2Proof.Machine.execWxaReadFp32 l row addr s
  | .wxaTerm reef row t => Sys2Proof.Machine.execWxaTerm reef row t s
  | .recordCellStep r sample reef row col lag0 lag1 port => Sys2Proof.Machine.execRecordCellStep r sample reef row col lag0 lag1 port s
  | .dotStep r reef row acts => Sys2Proof.Machine.execDotStep r reef row acts s
  | .graverRun r => Sys2Proof.Machine.execGraverRun r s
  | .recordDecode r => Sys2Proof.Machine.execRecordDecode r s
  | .recordDeadline r sample => Sys2Proof.Machine.execRecordDeadline r sample s
  | .stippleAugment r => Sys2Proof.Machine.execStippleAugment r s
  | .hatchStage r => Sys2Proof.Machine.execHatchStage r s
  | .statsGather r => Sys2Proof.Machine.execStatsGather r s
  | .normalise r => Sys2Proof.Machine.execNormalise r s
  | .joinProbe r => Sys2Proof.Machine.execJoinProbe r s
  | .joinBuild r => Sys2Proof.Machine.execJoinBuild r s
  | .nearDupProbe r => Sys2Proof.Machine.execNearDupProbe r s
  | .nearDupBuild r => Sys2Proof.Machine.execNearDupBuild r s
  | .shuffleFeed r => Sys2Proof.Machine.execShuffleFeed r s
  | .census r => Sys2Proof.Machine.execCensus r s
  | .sealBatch r => Sys2Proof.Machine.execSeal r s
  | .deliver r expired => Sys2Proof.Machine.execDeliver r expired s
  | .stagingSlotWrite slot batch data => Sys2Proof.Machine.execStagingSlotWrite slot batch data s
  | .asuUpdate r => Sys2Proof.Machine.execAsuUpdate r s
  | .asuSearch reef c => Sys2Proof.Machine.execAsuSearch reef c s
  | .asuNext reef c => Sys2Proof.Machine.execAsuNext reef c s
  | .asuRead reef c => Sys2Proof.Machine.execAsuRead reef c s
  | .asuWrite reef c => Sys2Proof.Machine.execAsuWrite reef c s
  | .asuDelete reef c => Sys2Proof.Machine.execAsuDelete reef c s
  | .asuInsert reef c => Sys2Proof.Machine.execAsuInsert reef c s
  | .asuRebuild reef c => Sys2Proof.Machine.execAsuRebuild reef c s
  | .asuRefreshScrub pos => Sys2Proof.Machine.execAsuRefreshScrub pos s
  | .asuThrottleEval island temp => Sys2Proof.Machine.execAsuThrottleEval island temp s
  | .topk r => Sys2Proof.Machine.execTopk r s
  | .sort r => Sys2Proof.Machine.execSort r s
  | .merge r => Sys2Proof.Machine.execMerge r s
  | .gather r => Sys2Proof.Machine.execGather r s
  | .scatter r => Sys2Proof.Machine.execScatter r s
  | .fold r => Sys2Proof.Machine.execFold r s
  | .writeRows r => Sys2Proof.Machine.execWriteRows r s
  | .initialise r => Sys2Proof.Machine.execInitialise r s
  | .fetchEpochAdvance table => Sys2Proof.Machine.execFetchEpochAdvance table s
  | .shoalIntervalEnd island => Sys2Proof.Machine.execShoalIntervalEnd island s
  | .migrateIntervalEnd island => Sys2Proof.Machine.execMigrateIntervalEnd island s
  | .migrationFlip table row => Sys2Proof.Machine.execMigrationFlip table row s
  | .layoutTransform r => Sys2Proof.Machine.execLayoutTransform r s
  | .pack r => Sys2Proof.Machine.execPack r s
  | .hello link body sigOk => Sys2Proof.Machine.execHelloFrame link body sigOk s
  | .helloReply link body sigOk => Sys2Proof.Machine.execHelloReplyFrame link body sigOk s
  | .confirm f => Sys2Proof.Machine.execConfirmFrame f s
  | .reject link entry code => Sys2Proof.Machine.execRejectFrame link entry code s
  | .close f => Sys2Proof.Machine.execCloseFrame f s
  | .dataFrame f => Sys2Proof.Machine.execDataFrame f s
  | .ack f => Sys2Proof.Machine.execAckFrame f s
  | .probe f => Sys2Proof.Machine.execProbeFrame f s
  | .probeReply f => Sys2Proof.Machine.execProbeReplyFrame f s
  | .yzRead o h => Sys2Proof.Machine.execYzRead o h s
  | .yzWrite o h data => Sys2Proof.Machine.execYzWrite o h data s
  | .add32 o h => Sys2Proof.Machine.execAdd32 o h s
  | .add64 o h => Sys2Proof.Machine.execAdd64 o h s
  | .addDelta o h data => Sys2Proof.Machine.execAddDelta o h data s
  | .cas64 o h => Sys2Proof.Machine.execCas64 o h s
  | .yzSignal o h => Sys2Proof.Machine.execYzSignal o h s
  | .message o h data => Sys2Proof.Machine.execMessage o h data s
  | .fence o h => Sys2Proof.Machine.execFence o h s
  | .fate o h => Sys2Proof.Machine.execFate o h s
  | .result o h data => Sys2Proof.Machine.execResult o h data s
  | .retransmitTimeout sid seq => Sys2Proof.Machine.execRetransmitTimeout sid seq s
  | .probeTimer entry => Sys2Proof.Machine.execProbeTimer entry s
  | .peerDown entry => Sys2Proof.Machine.execPeerDown entry s
  | .sessionRetry entry => Sys2Proof.Machine.execSessionRetry entry s
  | .fateHoldExpired entry => Sys2Proof.Machine.execFateHoldExpired entry s
  | .helloIntervalEnd => Sys2Proof.Machine.execHelloIntervalEnd s
  | .quarIntervalEnd => Sys2Proof.Machine.execQuarIntervalEnd s
  | .linkUp link => Sys2Proof.Machine.execLinkUp link s
  | .fabricLinkDown link => Sys2Proof.Machine.execFabricLinkDown link s
  | .straitFlit link dir lsn tc ackFlit errs => Sys2Proof.Machine.execStraitFlit link dir lsn tc ackFlit errs s
  | .straitLinkLost link => Sys2Proof.Machine.execStraitLinkLost link s
  | .straitDieLost die => Sys2Proof.Machine.execStraitDieLost die s
  | .islandLost island => Sys2Proof.Machine.execIslandLost island s
  | .stackLost stack => Sys2Proof.Machine.execStackLost stack s
  | .stackUeIntervalEnd stack => Sys2Proof.Machine.execStackUeIntervalEnd stack s
  | .harbourLost harbour => Sys2Proof.Machine.execHarbourLost harbour s
  | .capeLost => Sys2Proof.Machine.execCapeLost s
  | .mirrorRebuilt chan => Sys2Proof.Machine.execMirrorRebuilt chan s
  | .recoveryComplete => Sys2Proof.Machine.execRecoveryComplete s
  | .hbmClockLost clock => Sys2Proof.Machine.execHbmClockLost clock s
  | .ethClockLost clock => Sys2Proof.Machine.execEthClockLost clock s
  | .channelReset sid => Sys2Proof.Machine.execChannelReset sid s
  | .islandReset sid => Sys2Proof.Machine.execIslandReset sid s
  | .portReset sid => Sys2Proof.Machine.execPortReset sid s
  | .deviceReset sid => Sys2Proof.Machine.execDeviceReset sid s
  | .warmN => Sys2Proof.Machine.execWarmN s
  | .porNAssert us => Sys2Proof.Machine.execPorNAssert us s
  | .porNRelease => Sys2Proof.Machine.execPorNRelease s
  | .powerLoss => Sys2Proof.Machine.execPowerLoss s
  | .bootRom => Sys2Proof.Machine.execBootRom s
  | .bootFirmware sigA sigB listSig pendingSig => Sys2Proof.Machine.execBootFirmware sigA sigB listSig pendingSig s
  | .hbmTraining failed => Sys2Proof.Machine.execHbmTraining failed s
  | .straitTraining failed harbours => Sys2Proof.Machine.execStraitTraining failed harbours s
  | .islandBringup failed sigA sigB => Sys2Proof.Machine.execIslandBringup failed sigA sigB s
  | .ethernetLinkup up => Sys2Proof.Machine.execEthernetLinkup up s
  | .readyNoPlate => Sys2Proof.Machine.execReadyNoPlate s
  | .bootPlateLoad => Sys2Proof.Machine.execBootPlateLoad s
  | .serviceRequest sid addr req => Sys2Proof.Machine.execServiceRequest sid addr req s
  | .readFlash flashOk => Sys2Proof.Machine.execReadFlash flashOk s
  | .writePlate sigOk flashOk => Sys2Proof.Machine.execWritePlate sigOk flashOk s
  | .erasePlate flashOk => Sys2Proof.Machine.execErasePlate flashOk s
  | .writeConfig sigOk flashOk => Sys2Proof.Machine.execWriteConfig sigOk flashOk s
  | .writeRoleList sigOk flashOk => Sys2Proof.Machine.execWriteRoleList sigOk flashOk s
  | .writeFirmware sigOk flashOk => Sys2Proof.Machine.execWriteFirmware sigOk flashOk s
  | .registerWrite sid addr data => Sys2Proof.Machine.execRegisterWrite sid addr data s
  | .guardValueHalf sid addr v => Sys2Proof.Machine.execGuardValueHalf sid addr v s
  | .guardComplementHalf sid addr v => Sys2Proof.Machine.execGuardComplementHalf sid addr v s
  | .guardPairExpired sid => Sys2Proof.Machine.execGuardPairExpired sid s
  | .aliasWrite sid addr data => Sys2Proof.Machine.execAliasWrite sid addr data s
  | .counterWrite sid addr data => Sys2Proof.Machine.execCounterWrite sid addr data s
  | .counterLowRead sid addr => Sys2Proof.Machine.execCounterLowRead sid addr s
  | .capture sid => Sys2Proof.Machine.execCapture sid s
  | .snapshotMarker die => Sys2Proof.Machine.execSnapshotMarker die s
  | .snapshotComplete => Sys2Proof.Machine.execSnapshotComplete s
  | .checkpoint sid => Sys2Proof.Machine.execCheckpoint sid s
  | .flush sid => Sys2Proof.Machine.execFlush sid s
  | .flushDone => Sys2Proof.Machine.execFlushDone s
  | .pwrSwitch sid word v => Sys2Proof.Machine.execPwrSwitch sid word v s
  | .domainSwitchDone domain => Sys2Proof.Machine.execDomainSwitchDone domain s
  | .fiEnable sid slot => Sys2Proof.Machine.execFiEnable sid slot s
  | .fiDisable sid slot => Sys2Proof.Machine.execFiDisable sid slot s
  | .fiHoldTimeout slot => Sys2Proof.Machine.execFiHoldTimeout slot s
  | .yzPeerCommit sid entry v => Sys2Proof.Machine.execYzPeerCommit sid entry v s
  | .yzWinCommit sid entry win v => Sys2Proof.Machine.execYzWinCommit sid entry win v s
  | .thermalSample temps catastrophic => Sys2Proof.Machine.execThermalSample temps catastrophic s
  | .powerSample watts => Sys2Proof.Machine.execPowerSample watts s
  | .hbmScrub stack codeword errs => Sys2Proof.Machine.execHbmScrub stack codeword errs s
  | .lagoonScrub island line errs => Sys2Proof.Machine.execLagoonScrub island line errs s
  | .i3cPointerWrite data => Sys2Proof.Machine.execI3cPointerWrite data s
  | .i3cRead words => Sys2Proof.Machine.execI3cRead words s
  | .jtagBypass => Sys2Proof.Machine.execJtagBypass s
  | .jtagIdcode => Sys2Proof.Machine.execJtagIdcode s
  | .samplePreload shifted => Sys2Proof.Machine.execSamplePreload shifted s
  | .extest => Sys2Proof.Machine.execExtest s
  | .clamp => Sys2Proof.Machine.execClamp s
  | .highz => Sys2Proof.Machine.execHighz s
  | .sheetFillDone island => Sys2Proof.Machine.execSheetFillDone island s
  | .flitResend link dir lsn => Sys2Proof.Machine.execFlitResend link dir lsn s
  | .ethClockReturn clock => Sys2Proof.Machine.execEthClockReturn clock s
  | .pauseFrame link priority pause => Sys2Proof.Machine.execPauseFrame link priority pause s
  | .neighbourSolicitation link target => Sys2Proof.Machine.execNeighbourSolicitation link target s
  | .arpRequest link target => Sys2Proof.Machine.execArpRequest link target s
  | .powerUp => Sys2Proof.Machine.execPowerUp s
  | .debugUnlock sid => Sys2Proof.Machine.execDebugUnlock sid s
  | .trstN low => Sys2Proof.Machine.execTrstN low s

end Sys2Proof.Machine
end

