-- ==== Sys2Proof/Safety.lean ====
section
/-! DEFINITION. What a sound state of the block is, in the terms that claims use: sparse stores in their one canonical form, an
audit log whose records follow each other, and what the fuses and a restart may change. -/

namespace Sys2Proof.Machine

/-! ## The stores -/

/-- Memory, its poison, flash, register words and counters are each in canonical form: keys strictly rising, no entry that holds
what an unlisted key reads as (the byte 0 of memory, notes/assumptions/4.md; the byte 0xFF of erased flash,
notes/assumptions/5.md). -/
def Stores (s : State) : Prop :=
  mwf 0 s.mem = true ∧ mwf false s.poison = true ∧ mwf 0xFF s.flash = true ∧ mwf 0 s.regs = true ∧ mwf 0 s.counters = true

/-! ## The audit log (22 R514) -/

/-- Records that follow each other up to a count and a chain value: each INDEX one above the one before, each CHAIN the SHA3-256
of the CHAIN before it and the record's first 96 bytes; the last has INDEX count - 1 and its CHAIN is the head. -/
def linked (count : Nat) (head : Digest) : List AuditRec → Prop
  | [] => True
  | [r] => r.index + 1 = count ∧ r.chain = head
  | a :: b :: t =>
    (b.index = a.index + 1 ∧ b.chain = sha3 (digestBytes a.chain ++ b.body)) ∧ linked count head (b :: t)

/-- The unflushed records of the log are linked up to SEC_AUDIT_COUNT and SEC_AUDIT_HEAD. -/
def AuditLinked (s : State) : Prop := linked s.audit.count s.audit.head s.audit.ring

/-- The invariant of every step: canonical stores and a linked log. -/
def Sound (s : State) : Prop := Stores s ∧ AuditLinked s

/-! ## What never goes back -/

/-- Fuses are burnt and never cleared (22 R507, 23 R525): a maker slot that holds a digest keeps it, a revoke bit stays set, the SVN
counter does not fall, and the device secret and the MAC base do not change. -/
structure FusesKept (f g : Fuses) : Prop where
  maker : ∀ (k : Nat) (d : Digest), f.maker[k]? = some (some d) → g.maker[k]? = some (some d)
  revoked : ∀ (k : Nat), f.revoked[k]? = some true → g.revoked[k]? = some true
  svn : f.svn ≤ g.svn
  secret : g.secret = f.secret
  mac : g.mac = f.mac

/-- What no command but a cold restart turns back: the interval timers stand still during a command, the audit count and the next
session id do not fall, and DEBUG_UNLOCKED stays set. -/
structure Warm (s t : State) : Prop where
  time : t.time = s.time
  count : s.audit.count ≤ t.audit.count
  unlocked : s.audit.unlocked = true → t.audit.unlocked = true
  nextSid : s.nextSid ≤ t.nextSid

/-! ## What commands leave alone -/

/-- Commands that write no byte of HBM or lagoon and neither poison nor clean one, whatever their operands and the state. -/
def sparesMemory : Instr → Bool
  | .loadStaged .. | .loadFlash .. | .discard .. | .abortCommit .. | .proofActive .. | .plateLoadDone .. | .proofDone .. | .fallbackSwitch ..
  | .sheetSliceEnd .. | .descriptorSubmit .. | .descriptorCommit .. | .take .. | .done .. | .nop .. | .jump .. | .signal ..
  | .wait .. | .decrement .. | .arrive .. | .bwait .. | .arriveWait .. | .waitTimeout .. | .attachedSignal .. | .wxaClear .. | .wxaSetMode ..
  | .wxaRestore .. | .wxaMerge .. | .wxaTerm .. | .recordCellStep .. | .dotStep .. | .recordDecode .. | .recordDeadline .. | .stippleAugment ..
  | .hatchStage .. | .statsGather .. | .normalise .. | .joinProbe .. | .joinBuild .. | .nearDupProbe .. | .nearDupBuild .. | .census ..
  | .sealBatch .. | .deliver .. | .asuRefreshScrub .. | .scatter .. | .fold .. | .initialise .. | .fetchEpochAdvance .. | .shoalIntervalEnd ..
  | .migrateIntervalEnd .. | .result .. | .retransmitTimeout .. | .probeTimer .. | .peerDown .. | .sessionRetry .. | .fateHoldExpired ..
  | .helloIntervalEnd | .quarIntervalEnd | .linkUp .. | .fabricLinkDown .. | .stackUeIntervalEnd .. | .porNRelease | .bootRom | .bootFirmware ..
  | .ethernetLinkup .. | .bootPlateLoad | .guardPairExpired .. | .capture .. | .snapshotMarker .. | .snapshotComplete | .checkpoint .. | .flush ..
  | .flushDone | .powerSample .. | .i3cPointerWrite .. | .i3cRead .. | .jtagBypass | .jtagIdcode | .samplePreload .. | .extest | .clamp | .highz
  | .ethClockReturn .. | .pauseFrame .. | .neighbourSolicitation .. | .arpRequest .. | .powerUp | .debugUnlock .. | .trstN .. => true
  | _ => false

/-- Commands that may write the boot flash (23 R526, R536; 22 R518): the boot's own records, the service operations that write, and
the end of an audit flush. -/
def writesFlash : Instr → Bool
  | .bootFirmware .. | .readyNoPlate | .writePlate .. | .erasePlate .. | .writeConfig .. | .writeRoleList .. | .writeFirmware .. | .flushDone => true
  | _ => false

/-- Commands that drive or sample a pin: power, POR_N, management and the TAP (25). -/
def movesPins : Instr → Bool
  | .porNAssert .. | .porNRelease | .powerLoss | .i3cPointerWrite .. | .i3cRead .. | .jtagBypass | .jtagIdcode | .samplePreload .. | .extest | .clamp
  | .highz | .powerUp | .trstN .. => true
  | _ => false

/-! ## Sessions -/

/-- An open session of a role (22 R507). -/
def OpenAs (s : State) (sid : W32) (r : Role) : Prop := ∃ x, sess? s sid = some x ∧ x.opened = true ∧ x.role = r

/-- What the rows of command registers have done before their effect (20 R470, 22 R513): the access is counted, and the write of a
reserved register is recorded. -/
def cmdBefore (off v : Nat) (sid : W32) (s : State) : State := auditWrite (regRegion + off) v 1 cOk sid (accessTick sid s)

/-- What they do after it: the access ends and the write's status is answered. -/
def cmdAfter (sid : W32) (t : State) : State := emit (.writeStatus sid cOk) (accessEnd sid t)

/-- The same for guarded pairs (20 R480): the pending value is used up, and the write is recorded. -/
def pairBefore (off v : Nat) (sid : W32) (s : State) : State :=
  auditWrite (regRegion + off) v 1 cOk sid { s with guards := mdel s.guards sid.toNat }

/-- What they do after it. -/
def pairAfter (sid : W32) (t : State) : State := settle (emit (.writeStatus sid cOk) t)

/-! ## Stages -/

/-- Work of a kind is due at a descriptor's current stage: the descriptor may execute, its stage has that kind of work left, and no lost
memory is found before its first stage (04 R108, 17 R424). -/
def StageDue (kind : Nat) (r : RunRef) (s : State) (x : Ctx) : Prop :=
  ctxOf s r.chan.toNat r.seq.toNat = some x ∧ (stageKinds x.rs).contains kind = true ∧ nmem x.run.did kind = false ∧
    ((x.entry && decide (x.run.did = [])) = true → startLost s x.j.d = cOk)

/-- A list of records after a stage: as many, in their order, each with its index and reason; corrupt records and empty positions as
they were (06 R167). -/
def SameRecords (a b : List DRec) : Prop :=
  b.length = a.length ∧ ∀ (n : Nat) (p : DRec), a[n]? = some p →
    ∃ q, b[n]? = some q ∧ q.idx = p.idx ∧ q.reason = p.reason ∧ (sound p = false → q = p)

/-- Nothing ends a Graver command before it runs (05 R126, R577, 17 R424): its state image, dictionary and report are in memory that
stands, its parameters and ranges keep the rules, no ranges overlap, its reads are allowed, its image verifies. -/
def graverReady (s : State) (x : Ctx) (g : GParam) (inPlate : Bool) (report : Option Nat) : Bool :=
  let d := x.j.d
  let main := (if x.run.bytes.isNone then [(localOf d.inAddr, d.inLen.toNat)] else [])
    ++ (if x.last || g.compress then [(localOf d.outAddr, d.outLen.toNat)] else [])
    ++ (if g.dictLen ≠ 0 then [(localOf g.dict, g.dictLen)] else [])
    ++ (if g.restore || g.save then [(localOf g.state, imageBytes)] else [])
  (!(g.restore || g.save) || !anyLost s (localOf g.state) imageBytes)
    && (decide (g.dictLen = 0) || (!anyLost s (localOf g.dict) g.dictLen && !anyPoison s (localOf g.dict) g.dictLen))
    && !report.any (fun a => anyLost s a 32) && gParamOk g && gRangesOk s x g inPlate report
    && !anyOverlap (main ++ (report.map (fun a => [(a, 32)])).getD [])
    && (decide (inputCode s x = cOk) || decide (inputCode s x = cPoisoned))
    && (!g.restore || (!anyPoison s (localOf g.state) imageBytes && imageOk g (readMem s (localOf g.state) imageBytes)
      && !saveAhead s x (localOf g.state)))

/-- A shuffle or batch stage is due in a role, and its section, directory and limits pass R228. -/
def ShufDue (role : Nat) (r : RunRef) (s : State) (x : Ctx) (e : ShufOp) (c : ShufSec) : Prop :=
  StageDue 10 r s x ∧ (recKind x.rs 10).map (fun q => shufOf q.body) = some e ∧ c = shufSecOf (paramSection s x 4 64) ∧ c.role = role ∧
    shufSecOk c = true ∧ (c.dir ≠ 0 → dirOk s x c = true) ∧ shufLimits s e c = true

/-- A select stage is due for an operation, its block passes R267, and its reads and writes are allowed. -/
def SelDue (op : Nat) (r : RunRef) (s : State) (x : Ctx) (e : SelOp) : Prop :=
  StageDue 14 r s x ∧ selParams s x = some e ∧ e.op = op ∧
    selCheck s x e (match x.run.bytes with | some b => b.length | none => x.j.d.inLen.toNat) = cOk ∧ inputCode s x = cOk ∧
    (selAuxLen e ≠ 0 → areaCode s (localOf e.aux) (selAuxLen e) = cOk) ∧
    engWrite s x.p x.c x.st (localOf x.j.d.outAddr) (selOutLen s e) = cOk

/-- An embedding stage is due in a role for a table that R287 and R288 let it use. -/
def EmbDue (role : Nat) (r : RunRef) (s : State) (x : Ctx) (rec : PRec) (t : EmbTab) (e : EmbSec) : Prop :=
  StageDue 15 r s x ∧ recKind x.rs 15 = some rec ∧ u8At rec.body 1 = role ∧ e = embSecOf (paramSection s x 5 48) ∧
    embTab? s e.table = some t ∧ embSecOk e = true ∧ e.role = role ∧ ((role = 1 ∨ role = 2) → t.deltaRows ≠ 0) ∧
    (x.entry = true → embRangesOk x t e = true) ∧ (role ≠ 4 → (embGet s e.table).ready = true)

/-- An ASU command of a table passes R243 and is not held at the bank (10 R259). -/
def AsuDue (op : Nat) (c : AsuCmd) (s : State) (t : AsuTab) (q sd : Nat) : Prop :=
  asuTab? s c.table.toNat = some t ∧ asuCmdOk t op c = true ∧ asuMismatch t op c = false ∧ asuPartOk t c = true ∧ q = asuPart t c ∧
    sd = asuSideOf s t c q ∧ asuHeldAt s op c = none

/-! ## Frames and operations -/

/-- No slot of fault injection is active or holds an item, and nothing that a slot released is on its way: what passes a link
passes as it is (18 R440). -/
def Quiet (s : State) : Prop := s.wire = [] ∧ ∀ k < 8, (fiGet s k).state ≠ .active ∧ (fiGet s k).held = none

/-- A tagged frame passes the header checks of Table 15.11 for open session `k`. -/
def FrameOk (type : Byte) (f : Frame) (s : State) (k : Nat) (x : Session) : Prop :=
  linkTakes s f.link.toNat = true ∧ f.body.length ≤ 8192 ∧ f.hdr.version = 1 ∧ f.hdr.type = type ∧ k = f.hdr.sid.toNat ∧
    mlook s.sessions k = some x ∧ x.opened = true ∧ f.tagOk = true ∧ x.nonceTop ≤ f.hdr.nonce.toNat + 64 ∧
    nmem x.nonces f.hdr.nonce.toNat = false ∧ headerBits f.hdr = true

/-- The session after the checks: its nonce is taken, the peer has been heard, a CE mark is counted (15 R373, R376, R388). -/
def heardBy (f : Frame) (s : State) (x : Session) : Session :=
  { takeNonce f.hdr.nonce.toNat x with lastHeard := s.time, ce := x.ce + f.ce.toNat }

/-- The state after the checks. -/
def heard (f : Frame) (s : State) (x : Session) : State :=
  sessPut f.hdr.sid.toNat (heardBy f s x) (if f.ce then bump (linkCnt f.link.toNat 7) 1 s else s)

/-- The state after the checks of a frame with an empty body: an ACK that its header carries is taken too. -/
def tookAck (f : Frame) (s : State) (x : Session) : State :=
  match ackOf f.hdr with
  | some a => sessPut f.hdr.sid.toNat (ackUpTo s.time a (heardBy f s x)) (heard f s x)
  | none => heard f s x

/-- A memory operation of an open session passes every check of 15 R381. -/
def MemReady (op : Nat) (o : OpRef) (h : OpHdr) (data : List Byte) (s : State) (x : Session) : Prop :=
  sess? s o.sid = some x ∧ x.opened = true ∧ fieldsOk op h data = true ∧ nodeLocal s h.addr = true ∧
    isRegAddr (localOf h.addr) = false ∧
    (∀ l ∈ lineAddrs (localOf h.addr) (opSpan op h), (if op = 0x01 then mapRead l else mapWrite s l) = cOk) ∧
    windowAdmits s x.entry 0 (opRight op) (localOf h.addr) (opSpan op h) = true ∧
    ownedCheck s x op (localOf h.addr) (opSpan op h) = cOk ∧ memRules s op (localOf h.addr) (opSpan op h) = cOk

/-! ## Registers -/

/-- A session with a role reaches register-region address `a`, with no guarded value pending and no high word captured. -/
def RegAccess (s : State) (sid : W32) (x : Session) (addr : W64) (a : Nat) : Prop :=
  sess? s sid = some x ∧ x.opened = true ∧ x.role ≠ .none ∧ nodeLocal s addr = true ∧ localOf addr = a ∧
    mlook s.guards sid.toNat = none ∧ mlook s.hiCaps sid.toNat = none ∧ s.wire = []

/-- What every write of a register does besides: a free value is drawn for what a proof would find (notes/assumptions/3.md), a captured
high word is gone. -/
def written (sid : W32) (s : State) : State := { s with free := s.free + 1, hiCaps := mdel s.hiCaps sid.toNat }

/-- A plain register of one word, no command, counter or peer word, which a role may write and whose block takes value `v`. -/
def PlainReg (s : State) (r : Role) (off : Nat) (w : RegWord) (v : Nat) : Prop :=
  regAt off = some w ∧ w.grd = 0 ∧ w.readOnly = false ∧ mayWrite r w 0 = true ∧ off ≠ 0x00010000 ∧ off ≠ 0x00030000 ∧ off ≠ 0x00040010 ∧
    isPeerWord off = false ∧ counterWord off = none ∧ windowOff s off = false ∧ wordCheck s off v = cOk

end Sys2Proof.Machine
end

