-- ==== Sys2Proof/Certificates/Slice0/Obligations.lean ====
section
/-! DEFINITION. The statements about the block: its steps, its stores and log, and for each family of commands what a command
does, as the next state that exec answers. -/

open Sys2Proof Sys2Proof.Machine

/-! ## Steps -/

/-- A step takes the command at the front of the queue and is exec of it on the queue's rest (the block's form of running a command). On an empty queue one microsecond passes and nothing else changes (the model's choice, notes/assumptions/2.md). -/
def Obligations.StepRunsTheFrontCommand : Prop :=
  (∀ (c : Instr) (rest : List Instr) (s : State),
      step { s with pending := c :: rest } = exec c { s with pending := rest }) ∧
  (∀ s : State, s.pending = [] → step s = .next { s with time := s.time + 1 })

/-- The state at reset is sound. -/
def Obligations.ResetIsSound : Prop := Sound State.reset

/-- Every step keeps the stores canonical and the audit records linked (22 R514: the records form one chain). -/
def Obligations.StepKeepsSound : Prop := ∀ s t : State, Sound s → step s = .next t → Sound t

/-- No command stops the block: each answers a next state, whose queue is the queue's rest. -/
def Obligations.EveryCommandCompletes : Prop :=
  ∀ (c : Instr) (s : State), ∃ t, exec c s = .next t ∧ t.pending = s.pending

/-- No step clears a fuse: maker slots, revoke bits, the SVN counter, the device secret and the MAC base only gain. No command but POR_N and the loss of power turns back the audit count, the next session id or DEBUG_UNLOCKED, or moves the
interval timers; and what the device has emitted stands. -/
def Obligations.NothingTurnsBack : Prop :=
  (∀ s t : State, step s = .next t → FusesKept s.fuses t.fuses) ∧
  (∀ (c : Instr) (s t : State), (∀ us, c ≠ .porNAssert us) → c ≠ .powerLoss → exec c s = .next t → Warm s t ∧ s.out <+: t.out)

/-- The commands of cells, records, embedding intervals, sequencer flow, boot stages, power, pins and the log (those that `sparesMemory`
names) leave every byte of memory and its poison as they were, for all operands and states. The boot flash changes by eight commands alone, and the pins by thirteen. -/
def Obligations.CommandsKeepToTheirStores : Prop :=
  (∀ (c : Instr) (s t : State), sparesMemory c = true → exec c s = .next t → t.poison = s.poison ∧ ∀ k, kget t k = kget s k) ∧
  (∀ (c : Instr) (s t : State), exec c s = .next t →
      (writesFlash c = false → ∀ a, fget t a = fget s a) ∧ (movesPins c = false → t.pins = s.pins))

/-! ## Plates -/

/-- LOAD_STAGED and LOAD_FLASH of an installer while the standby bank is EMPTY or PROOFED: the bank is LOADING with the plate of the
source, the active bank stands, and nothing else changes but power domains that begin to switch (02 R57, R58). -/
def Obligations.PlateLoadsBegin : Prop :=
  ∀ (s : State) (sid : W32), OpenAs s sid .installer → s.rcv.cape = false → (s.plt.standby = .empty ∨ s.plt.standby = .proofed) →
    (∃ t, exec (.loadStaged sid) s = .next (cmdAfter sid t) ∧
      let u := cmdBefore 0x00030000 1 sid s
      t.plt.standby = .loading ∧ t.plt.load = some { cmd := 1, sid := sid, bytes := stagedBytes u } ∧ activePlate t = activePlate u ∧
      t = { u with plt := t.plt, pwr := { u.pwr with switching := t.pwr.switching } }) ∧
    (∀ slot : BitVec 4, ∃ t, exec (.loadFlash sid slot) s = .next (cmdAfter sid t) ∧
      let u := cmdBefore 0x00030000 (2 + 256 * slot.toNat) sid s
      t.plt.standby = .loading ∧ t.plt.load = some { cmd := 2, sid := sid, bytes := flashPlate u slot.toNat } ∧
      activePlate t = activePlate u ∧ t = { u with plt := t.plt, pwr := { u.pwr with switching := t.pwr.switching } })

/-- DISCARD empties a PROOFED bank; ABORT_COMMIT takes a COMMITTING bank back to PROOFED, releases what was held and records it; each
with the active bank as it was (02 R57, R65). PROOF_ACTIVE while the active bank is RUNNING or in a fallback case: each island that differs writes PLT_ERR and its record, in
ascending order, and none does where no bank differs (02 R61). -/
def Obligations.PlateBankCommandsAct : Prop :=
  (∀ (s : State) (sid : W32), OpenAs s sid .installer → s.rcv.cape = false →
      (s.plt.standby = .proofed → ∃ t, exec (.discard sid) s = .next (cmdAfter sid t) ∧
        let u := cmdBefore 0x00030000 3 sid s
        t.plt.standby = .empty ∧ t.plt.active = u.plt.active ∧ t.plt.instant = false ∧ t.plt.load = none ∧
        t = { u with plt := t.plt, pwr := { u.pwr with switching := t.pwr.switching } }) ∧
      (s.plt.standby = .committing → ∃ t, exec (.abortCommit sid) s = .next (cmdAfter sid t) ∧
        let u := cmdBefore 0x00030000 4 sid s
        t = { auditPlate cOk sid 4 255 (((standbyPlate u).map (·.digest)).getD 0) (releaseHeld u) with plt := t.plt } ∧
        t.plt = { u.plt with standby := .proofed, instant := false } ∧
        ∀ i j, (i, j) ∈ (releaseHeld u).chans → j.fresh = false ∧ ∀ q ∈ j.journal, q.2.after = false)) ∧
  (∀ (s : State) (sid : W32) (bad : W16), OpenAs s sid .installer → s.rcv.cape = false →
      (s.plt.active = .running ∨ s.plt.active = .fallback) →
      let u := cmdBefore 0x00030000 5 sid s
      exec (.proofActive sid bad) s = .next (cmdAfter sid
        (((List.range 16).filter (fun i => bit bad.toNat i && !islLost u i)).foldl
          (fun t i => auditPlate cProof sid 5 i (((activePlate u).map (·.digest)).getD 0)
            (pltErr { code := cProof, step := 0, island := i, case := caseNow t } t)) u)) ∧
      (bad = 0 → exec (.proofActive sid bad) s = .next (cmdAfter sid u)))

/-- COMMIT of a PROOFED bank whose plate defines every bound inlet makes it COMMITTING with the commit instant passed; EVICT of a
RUNNING bank with every channel FREE empties it, with the sync objects, lists, barriers and engine commands of its plate, and the
device is at stage 7 (02 R62, R68). -/
def Obligations.CommitAndEvict : Prop :=
  ∀ (s : State) (sid : W32), OpenAs s sid .installer → s.rcv.cape = false →
    (∀ p, s.plt.standby = .proofed → standbyPlate s = some p → inletMissing s p = false →
      ∃ t, exec (.commit sid) s = .next (pairAfter sid t) ∧
        let u := auditPlate cOk sid evCommit 255 p.digest (pairBefore 0x00030004 1 sid s)
        t = { u with plt := { u.plt with standby := .committing, instant := true } }) ∧
    (s.plt.active = .running → (∀ c ∈ s.chans, c.2.state = .free) →
      ∃ t, exec (.evict sid) s = .next (pairAfter sid t) ∧
        t.plt.active = .empty ∧ activePlate t = none ∧ t.objs = [] ∧ t.lists = [] ∧ t.barriers = [] ∧ t.engines = [] ∧ t.boot.stage = 7 ∧
        t.mem = s.mem ∧ t.chans = s.chans ∧ t.flash = s.flash)

/-- PLATE_LOAD_DONE on a LOADING bank whose plate passes every check of Table 2.9 and names no lost island: the bank is PROOFING and
holds that plate. PROOF_DONE of a live island: the last island's proof that stands, in a load that a session began, makes the bank
PROOFED; a first proof that fails has the island rewritten once (02 R59, R60). -/
def Obligations.LoadAndProofEnd : Prop :=
  (∀ (s : State) (l : Load) (bs : List Byte), s.rcv.cape = false → s.plt.standby = .loading → s.plt.load = some l →
    l.bytes = some bs → loadChecks s bs true = none → namesLost s (plateOf bs) = none →
    ∃ t, exec (.plateLoadDone true) s = .next t ∧ t.plt.standby = .proofing ∧ standbyPlate t = some (plateOf bs) ∧
      activePlate t = activePlate s ∧ t = { s with plt := t.plt, pwr := { s.pwr with switching := t.pwr.switching } }) ∧
  (∀ (s : State) (island : BitVec 4), s.rcv.cape = false → s.plt.standby = .proofing → islLost s island.toNat = false →
    (nmem s.plt.rewritten island.toNat = false → exec (.proofDone island false) s =
      .next { s with plt := { s.plt with rewritten := nadd s.plt.rewritten island.toNat } }) ∧
    (s.plt.bootLoad = false → (∀ i < 16, islLost s i = false → i ≠ island.toNat → nmem s.plt.proofed i = true) →
      mwf false s.plt.proofed = true →
      ∃ t, exec (.proofDone island true) s = .next t ∧ t.plt.standby = .proofed ∧ t.plt.load = none ∧ t.mem = s.mem) ∧
    ((∃ i < 16, islLost s i = false ∧ i ≠ island.toNat ∧ nmem s.plt.proofed i = false) → mwf false s.plt.proofed = true →
      exec (.proofDone island true) s = .next { s with plt := { s.plt with proofed := nadd s.plt.proofed island.toNat } }))

/-- BANK_SWAP of a COMMITTING bank whose old plate's work is done: the banks swap and the PARAM pairs are written in order, and after
the swap the bank runs in its normal case, the standby bank is EMPTY, the store copies have exchanged roles and the device is at stage
9 (02 R64). FALLBACK_SWITCH to case n whose proofs stand, with no channel frozen and no inlet undefined in the case: the bank is in
FALLBACK(n) and every sync resource starts anew (02 R53); where a proof fails it is PAUSED(n). -/
def Obligations.SwapAndFallback : Prop :=
  (∀ (s : State) (p : Plate), standbyPlate s = some p → s.plt.standby = .committing → s.plt.instant = true → drained s = true →
    s.rcv.cape = false →
    exec .bankSwap s = .next ((paramPairs p).foldl (fun t q => burinWrite q.1 q.2 t) (swapBanks p s)) ∧
    (swapBanks p s).plt.active = .running ∧ (swapBanks p s).plt.standby = .empty ∧ (swapBanks p s).plt.copyY = !s.plt.copyY ∧
    (swapBanks p s).plt.instant = false ∧ activePlate (swapBanks p s) = some p ∧ (swapBanks p s).boot.stage = 9) ∧
  (∀ (s : State) (n : Nat) (p : Plate) (bad : W16), s.plt.fallbackFor = some n → activePlate s = some p → s.rcv.cape = false →
    ((∃ i < 16, bad.getLsbD i = true ∧ islLost s i = false) → ∃ t, exec (.fallbackSwitch bad) s = .next t ∧ t.plt.active = .paused ∧
      t.plt.case = n ∧ t.plt.fallbackFor = none) ∧
    ((∀ i < 16, bad.getLsbD i = true → islLost s i = true) → ∃ t, exec (.fallbackSwitch bad) s = .next t ∧ t.plt.active = .fallback ∧
      t.plt.case = n ∧ t.plt.fallbackFor = none))

/-- Sheets of an island that has two or more (02 R49, R51, 21 R505): the end of a slice asks for the switch; the switch goes to the next
sheet where its private lagoon is filled or empty, else it is counted and waits; a fill that ends lets a waiting switch go on. Where nothing is
poisoned, a save and a fill (02 R46) change memory alone. -/
def Obligations.SheetsTakeTurns : Prop :=
  ∀ (s : State) (island : BitVec 4), 2 ≤ sheetsOf s island.toNat →
    let i := island.toNat
    let x := islGet s i
    let next := (x.sheet + 1) % sheetsOf s i
    (x.switching = false → exec (.sheetSliceEnd island) s = .next (islPut i { x with switching := true } s)) ∧
    (x.switching = true → x.stalled = false → x.filled = true → exec (.sheetSwitch island) s = .next (sheetRun i s)) ∧
    (x.switching = true → x.stalled = false → x.filled = false →
      (privateBytes s i next = 0 → exec (.sheetSwitch island) s = .next (sheetRun i (sheetFill i s))) ∧
      (privateBytes s i next ≠ 0 →
        exec (.sheetSwitch island) s = .next (bump (islCnt i 6) 1 (islPut i { x with stalled := true } s)))) ∧
    (x.filled = false →
      (x.stalled = true → exec (.sheetFillDone island) s = .next (sheetRun i (sheetFill i s))) ∧
      (x.stalled = false → exec (.sheetFillDone island) s = .next (islPut i { x with filled := true } (sheetFill i s)))) ∧
    (s.poison = [] → ∃ m, sheetFill i s = { s with mem := m })

/-! ## Channels and work -/

/-- A descriptor that passes every check of Table 4.4 is accepted (04 R104, R107): its journal entry stands at its SEQ, ACCEPTED_THROUGH
is that SEQ, its receipt is SUCCESS with the accepted flag, and no other channel, no memory and nothing else changes but the count of
single-copy acceptances. A descriptor with wrong fields changes nothing but its answer. -/
def Obligations.SubmitAcceptsADescriptor : Prop :=
  ∀ (s : State) (sid : W32) (d : Descriptor),
    let i := handleIdx d.handle
    let c := chanGet s i
    (descFields d = true → handleCode s d.handle = cOk → roleOf s sid = .operator → s.rcv.double = false →
      d.seq.toNat = c.accepted + 1 → (c.state = .opened ∨ c.state = .paused) → descTail s i c d = cOk →
      ∃ t, exec (.descriptorSubmit sid d) s = .next (sendAnswer sid (receipt d cOk 1) t) ∧
        (chanGet t i).accepted = d.seq.toNat ∧
        mlook (chanGet t i).journal d.seq.toNat = some
          { d := d, deadline := c.deadline, tc := c.tc, state := .accepted, session := sid, plate := acceptDigest s,
            after := awaitsSwap s, verdict := 0 } ∧
        (∀ k, k ≠ i → chanGet t k = chanGet s k) ∧ t = { s with chans := t.chans, counters := t.counters } ∧
        (2 ≤ (chanCopies s c).length → t.counters = s.counters)) ∧
    (descFields d = false → exec (.descriptorSubmit sid d) s = .next (sendAnswer sid (receipt d cDescriptorInvalid 0) s))

/-- CREATE (04 R119) on an inlet of the plate in force, with a class it allows, a free index and a ring place: the lowest free index
opens at one of the places that fit, its record is written, and the reply gives its handle and ring addresses. -/
def Obligations.CreateOpensTheLowestIndex : Prop :=
  ∀ (s : State) (sid : W32) (c : CtlItem) (i m : Nat), ctlFields 0x8001 c = true → roleOf s sid = .operator →
    createInlet s (c.arg0.toNat % 256) = (cOk, m) → c.arg0.toNat / 256 % 4 ≤ m → freeIndex? s = some i →
    ringPlaces s (c.arg0.toNat / 2 ^ 16) ≠ [] →
    ∃ at_ ∈ ringPlaces s (c.arg0.toNat / 2 ^ 16),
      let t := openChan i c at_ s
      let x := chanGet t i
      exec (.create sid c) s = .next (sendAnswer sid
        (ctlReply 0x8001 cOk (handleOf i x) c.tag (causeway (ringAddr x x.primary 0)) (causeway (ringAddr x x.mirror 0)))
        (auditChannel sid cOk 0x8001 (handleOf i x) (c.arg0.toNat % 256) 0 t)) ∧
      x.state = .opened ∧ x.gen = (chanGet s i).gen ∧ x.accepted = 0 ∧ x.journal = [] ∧ x.slots = 2 ^ (c.arg0.toNat / 2 ^ 16) ∧
      x.mirror = (x.primary + 2) % 16 ∧ ∀ k, k ≠ i → chanGet t k = chanGet s k

/-- DESTROY of an OPEN channel in drain mode with descriptors outstanding: DRAINING with LAST_SEQ at ACCEPTED_THROUGH, its reply owed at
CLOSED (04 R120); with none outstanding it is CLOSED, and FREE with the next generation where its last completion is retired (R97). -/
def Obligations.DestroyDrains : Prop :=
  ∀ (s : State) (sid : W32) (c : CtlItem), ctlFields 0x8002 c = true → handleCode s c.handle = cOk → roleOf s sid = .operator →
    c.arg0 = 0 →
    let i := handleIdx c.handle
    let x := chanGet s i
    x.state = .opened →
    (x.completed < x.accepted → ∃ t, exec (.destroy sid c) s = .next (sendAnswer sid (ctlReply 0x8002 cOk c.handle c.tag x.accepted 0)
        (auditChannel sid cOk 0x8002 c.handle x.inlet.toNat 0 t)) ∧
      chanGet t i = { x with state := .draining, last := x.accepted, held := false,
                             waiting := x.waiting ++ [{ sid := sid, tag := c.tag }] } ∧
      (∀ k, k ≠ i → chanGet t k = chanGet s k) ∧ t = { s with chans := t.chans }) ∧
    (x.accepted = x.completed → x.waiting = [] → x.accepted ≤ x.retired →
      ∃ t u, exec (.destroy sid c) s = .next (sendAnswer sid (ctlReply 0x8002 cOk c.handle c.tag x.accepted 0)
        (auditChannel sid cOk 0x8002 c.handle x.inlet.toNat 0 t)) ∧
      (∀ k, k ≠ i → mget Chan.init u k = chanGet s k) ∧
      t = { chanPut i { Chan.init with gen := if x.gen = 0xFFFF#16 then 1 else x.gen + 1 } { s with chans := u } with
            runs := s.runs.filter (fun p => p.1 / 2 ^ 48 ≠ i), applied := s.applied.filter (fun p => p.1 % 4096 ≠ i) })

/-- RETIRE advances RETIRED_THROUGH to the smaller of its argument and COMPLETED_THROUGH, never back (04 R117); SET_TC and SET_DEADLINE
of an OPEN or PAUSED channel set that field alone (R118, R119). -/
def Obligations.RetireAndSettings : Prop :=
  ∀ (s : State) (sid : W32) (c : CtlItem), handleCode s c.handle = cOk → roleOf s sid = .operator →
    let i := handleIdx c.handle
    let x := chanGet s i
    (ctlFields 0x8003 c = true → x.state ≠ .closed →
      let new := max x.retired (min c.arg0.toNat x.completed)
      ∃ t, exec (.retire sid c) s = .next (sendAnswer sid (ctlReply 0x8003 cOk c.handle c.tag new x.completed) t) ∧
        chanGet t i = { x with retired := new, journal := x.journal.filter (fun p => new < p.1) } ∧
        (∀ k, k ≠ i → chanGet t k = chanGet s k) ∧ t = { s with chans := t.chans, mem := t.mem, poison := t.poison } ∧
        (new = x.retired → t.mem = s.mem)) ∧
    ((x.state = .opened ∨ x.state = .paused) →
      (ctlFields 0x8004 c = true →
        (∀ p k inl, acceptPlate s x.inlet.toNat = some (p, k) → inletNum p k x.inlet.toNat = some inl → c.arg0.toNat ≤ inl.maxTc) →
        exec (.setTc sid c) s = .next (sendAnswer sid (ctlReply 0x8004 cOk c.handle c.tag 0 0)
          (chanPut i { x with tc := BitVec.ofNat 2 c.arg0.toNat } s))) ∧
      (ctlFields 0x8005 c = true → exec (.setDeadline sid c) s = .next (sendAnswer sid (ctlReply 0x8005 cOk c.handle c.tag 0 0)
        (chanPut i { x with deadline := BitVec.ofNat 32 c.arg0.toNat } s))))

/-- DESCRIPTOR_COMMIT (17 R414): the descriptor after COMMITTED_THROUGH, its stages finished, nothing owed or lost, its effects within 16
MiB and the log's room, is committed: STATE 1 and COMMITTED_THROUGH, then its peer operations go out in order. -/
def Obligations.CommitAdvancesTheChannel : Prop :=
  ∀ (s : State) (chan : BitVec 12) (j : Journal),
    let i := chan.toNat
    let c := chanGet s i
    let n := c.committed + 1
    let k := runNum i n
    let x := runGet s k
    mlook c.journal n = some j → j.state = .accepted → j.after = false → j.verdict = 0 → chanRuns c = true →
    nmem s.rcv.frozen i = false → chanCopies s c ≠ [] → runFinished s c x = true → s.engines = [] → effBytes x.eff ≤ 0x1000000 →
    lostTarget s x.eff = false → logFits s c (effBytes x.eff) = true →
    let t := chanPut i { c with committed := n, journal := mput c.journal n { j with state := .committed } } s
    exec (.descriptorCommit chan) s = .next (x.eff.foldl (dispatchPeer k j.tc) t) ∧
    ((∀ e ∈ x.eff, ∀ a b d e1 e2 f, e ≠ .peer a b d e1 e2 f) → exec (.descriptorCommit chan) s = .next t)

/-- BATCH_APPLY (17 R415): an island that is not lost takes the batch of a committed descriptor whole, after the batches of every earlier
one, and raises APPLIED_THROUGH; a batch at or below it is counted and discarded with memory as it was. -/
def Obligations.BatchesApplyOnce : Prop :=
  ∀ (s : State) (island : BitVec 4) (r : RunRef) (j : Journal),
    let i := island.toNat
    let c := r.chan.toNat
    let n := r.seq.toNat
    let k := runNum c n
    let x := runGet s k
    journalOf s c n = some j → j.state = .committed → j.verdict = 0 → islLost s i = false →
    (appliedThrough s i c < n → (effIslands s x.eff).contains i = true → earlierApplied s i c n = true →
      let u := applyBatch r i x.eff { s with applied := mset 0 s.applied (4096 * i + c) n }
      exec (.batchApply island r) s = .next (runPut k { runGet u k with applied := nadd (runGet u k).applied i } u)) ∧
    (n ≤ appliedThrough s i c → ∃ t, exec (.batchApply island r) s = .next t ∧
      t = { s with counters := mset 0 s.counters (rcvCnt 2) (mget 0 s.counters (rcvCnt 2) + 1#64), runs := t.runs })

/-- COMPLETION_READY (17 R414, 04 R110): a committed descriptor whose islands have applied or are lost and whose peer operations have
ended completes: its READY record stands in its ring slot on every copy, COMPLETED_THROUGH is its SEQ, its run is gone. A descriptor
with a verdict completes with it, and CANCELLED without a commit. -/
def Obligations.CompletionAdvancesTheChannel : Prop :=
  ∀ (s : State) (chan : BitVec 12) (j : Journal),
    let i := chan.toNat
    let c := chanGet s i
    let n := c.completed + 1
    let k := runNum i n
    let x := runGet s k
    mlook c.journal n = some j → chanCopies s c ≠ [] →
    (j.state = .committed → allConfirmed s k x = true → exec (.completionReady chan) s = .next (completeRun i n j x (endCode s x) s)) ∧
    (j.state = .accepted → j.verdict = cCancelled →
      exec (.completionReady chan) s = .next (completeRun i n j Run.init cCancelled s)) ∧
    (c.state = .opened → ∀ code, (chanGet (completeRun i n j x code s) i).completed = n ∧
      (completeRun i n j x code s).runs = mdel s.runs k)

/-! ## Sequencers -/

/-- NOP and JUMP of a list whose program has the command (14 R336): the list stands at the next command or at the target, and nothing
else changes; DONE gives up the descriptor; TAKE takes the next descriptor that the list serves, or waits for one (R337). -/
def Obligations.ListsFlow : Prop :=
  ∀ (s : State) (l : ListId),
    let k := listKey l
    let x := seqGet s k
    (listIssues s k { word := 0, arg := 0, addr := 0 } = true →
      exec (.nop l) s = .next (seqPut k { x with pc := x.pc + 1, wait := none, slept := false } s)) ∧
    (∀ target : W32, listIssues s k { word := 3, arg := target.toNat, addr := 0 } = true →
      exec (.jump l target) s = .next (seqPut k { x with pc := target.toNat, wait := none, slept := false } s)) ∧
    (listIssues s k { word := 2, arg := 0, addr := 0 } = true → ∃ t, exec (.done l) s = .next t ∧
      seqGet t k = { pc := x.pc + 1, cur := none, wait := none, slept := false } ∧ t = { s with lists := t.lists, runs := t.runs }) ∧
    (listIssues s k { word := 1, arg := 0, addr := 0 } = true →
      (∀ r, takeNext s k = some r → ∃ t, exec (.take l) s = .next t ∧
        seqGet t k = { pc := x.pc + 1, cur := some r, wait := none, slept := false } ∧
        nmem (runGet t (refNum r)).served k = true ∧ t = { s with lists := t.lists, runs := t.runs }) ∧
      (takeNext s k = none → exec (.take l) s = .next (seqPut k { x with wait := some .take } s)))

/-- SIGNAL adds n to an object's count below its ceiling and wakes its waiters; DECREMENT takes n from it; WAIT with the condition true and
nobody queued takes n and goes on, and with the condition false joins the queue (14 R339-R341). -/
def Obligations.ObjectsCount : Prop :=
  ∀ (s : State) (l : ListId) (obj : BitVec 13) (n : W16),
    let k := listKey l
    let o := obj.toNat
    let x := objGet s o
    objOk s o = true →
    (listIssues s k { word := 0x10 + 256 * o, arg := n.toNat, addr := 0 } = true → x.count + n.toNat ≤ x.ceiling →
      exec (.signal l obj n) s = .next (seqNext k (objWake o (bump (reefCnt (o / 48) 0) 1 (objPut o { x with count := x.count + n.toNat } s)))) ∧
      (x.queue = [] → exec (.signal l obj n) s =
        .next (seqNext k (bump (reefCnt (o / 48) 0) 1 (objPut o { x with count := x.count + n.toNat } s))))) ∧
    (listIssues s k { word := 0x12 + 256 * o, arg := n.toNat, addr := 0 } = true → o / 48 = k / 64 → n.toNat ≤ x.count →
      exec (.decrement l obj n) s = .next (seqNext k (objPut o { x with count := x.count - n.toNat } s))) ∧
    (∀ timeout : BitVec 24, listIssues s k { word := 0x11 + 256 * o, arg := n.toNat, addr := timeout.toNat } = true → o / 48 = k / 64 →
      x.queue = [] →
      (n.toNat ≤ x.count → ∃ t, exec (.wait l obj n timeout) s = .next t ∧ (objGet t o).count = x.count - n.toNat ∧
        (objGet t o).queue = [] ∧ seqGet t k = { seqGet s k with pc := (seqGet s k).pc + 1, wait := none, slept := false } ∧
        t = { s with objs := t.objs, lists := t.lists, counters := t.counters }) ∧
      (x.count < n.toNat → ∃ t, exec (.wait l obj n timeout) s = .next t ∧
        objGet t o = { x with queue := [{ list := k, n := n.toNat }] } ∧
        (seqGet t k).wait = some (.obj o n.toNat (if timeout.toNat = 0 then x.timeout else timeout.toNat)) ∧
        t = { s with objs := t.objs, lists := t.lists, counters := t.counters }))

/-- ARRIVE of a participant that laps nobody counts its arrival and goes on; BWAIT and ARRIVE_WAIT then wait for the generation (14
R353, R354); BWAIT of a participant that has never arrived goes on at once. -/
def Obligations.BarriersCountArrivals : Prop :=
  ∀ (s : State) (l : ListId) (bar : BitVec 6) (pl : BarPlan),
    let k := listKey l
    let b := bar.toNat
    barNow s b = some pl → pl.lists.contains k = true →
    (listIssues s k { word := 0x14 + 256 * b, arg := 0, addr := 0 } = true → barLaps s b k = false →
      exec (.arrive l bar) s = .next (seqNext k (barCount b pl k (bump (reefCnt (k / 64) 7) 1 s)))) ∧
    (∀ timeout : BitVec 24,
      (listIssues s k { word := 0x15 + 256 * b, arg := 0, addr := timeout.toNat } = true → (partGet (barGet s b) k).a = 0 →
        exec (.bwait l bar timeout) s = .next (seqNext k s)) ∧
      (listIssues s k { word := 0x15 + 256 * b, arg := 0, addr := timeout.toNat } = true → 0 < (partGet (barGet s b) k).a →
        exec (.bwait l bar timeout) s = .next (seqBarWait b pl k timeout.toNat s) ∧
        ((partGet (barGet s b) k).a ≤ (barGet s b).g → (seqGet s k).wait = none → ∃ t,
          seqBarWait b pl k timeout.toNat s = t ∧ (seqGet t k).pc = (seqGet s k).pc + 1 ∧ (seqGet t k).wait = none ∧
          (partGet (barGet t b) k).w1 = (partGet (barGet s b) k).a ∧
          t = { s with barriers := t.barriers, lists := t.lists, counters := t.counters })) ∧
      (listIssues s k { word := 0x16 + 256 * b, arg := 0, addr := timeout.toNat } = true → barLaps s b k = false →
        exec (.arriveWait l bar timeout) s =
          .next (seqBarWait b pl k timeout.toNat (barCount b pl k (bump (reefCnt (k / 64) 7) 1 s)))))

/-- WAIT_TIMEOUT of a list that waits (14 R344, R345): the wait is counted and ends with WAIT_TIMEOUT, the list leaves the object's queue and
no count changes. ATTACHED_SIGNAL whose transfer's tail has passed, with nothing staged, signals the object (R349). ENGINE of a list that holds a descriptor has the unit serve it and goes on, owing the signal where one is attached; of a list that
holds none it only goes on (14 R337, R349). ASU_ISSUE reads the command from the lagoon and runs it for its result's address. -/
def Obligations.WaitsAndTransfersSignal : Prop :=
  ((∀ (s : State) (l : ListId) (o n left : Nat),
      let k := listKey l
      listRuns s k = true → (seqGet s k).wait = some (.obj o n left) →
      exec (.waitTimeout l) s = .next (objWake o (seqError cWaitTimeout o k (bump (reefCnt (k / 64) 3) 1
        (objPut o { objGet s o with queue := (objGet s o).queue.filter (fun w => decide (w.list ≠ k)) } s))))) ∧
    (∀ (s : State) (l : ListId) (b left : Nat),
      let k := listKey l
      listRuns s k = true → (seqGet s k).wait = some (.bar b left) →
      exec (.waitTimeout l) s = .next (seqError cWaitTimeout (0x8000 + b) k (bump (reefCnt (k / 64) 3) 1 s))) ∧
    (∀ (s : State) (reef : BitVec 7) (unit : Byte) (e : EngineCmd),
      mlook s.engines (engineKey reef.toNat unit.toNat) = some e → e.run = none → e.dest = none → objOk s e.att.obj.toNat = true →
      (objGet s e.att.obj.toNat).count + e.att.n.toNat ≤ (objGet s e.att.obj.toNat).ceiling →
      let o := e.att.obj.toNat
      let u := { s with engines := mdel s.engines (engineKey reef.toNat unit.toNat) }
      exec (.attachedSignal reef unit) s = .next (bump (reefCnt (o / 48) 6) 1 (objWake o (bump (reefCnt (o / 48) 0) 1
        (objPut o { objGet s o with count := (objGet s o).count + e.att.n.toNat } u)))))) ∧
  (∀ (s : State) (l : ListId),
      let k := listKey l
      (∀ (unit : Byte) (entry : W32), listIssues s k { word := 0x50 + 256 * unit.toNat, arg := entry.toNat, addr := 0 } = true →
        ((seqGet s k).cur = none → exec (.engine l unit entry none) s = .next (seqNext k s)) ∧
        (∀ r, (seqGet s k).cur = some r → exec (.engine l unit entry none) s =
          .next (seqAttached (k / 64) unit.toNat (seqNext k (engineStart k unit.toNat entry.toNat r s))))) ∧
      (∀ (res : W32) (cmd : W64), listIssues s k { word := 0x40, arg := res.toNat, addr := cmd.toNat } = true →
        anyPoison s (lagKey (k / 512) cmd.toNat) 64 = false →
        let oc := asuCmdOf (readMem s (lagKey (k / 512) cmd.toNat) 64)
        exec (.asuIssue l res cmd none) s = .next (seqAttached (k / 64) 0x40 (seqNext k
          (asuStart (k / 64) oc.1 oc.2 (some (lagKey (k / 512) res.toNat)) s)))))

/-! ## Stages of a descriptor -/

/-- GRAVER_RUN of a command that nothing ends before it runs: the command over the stage's input, its dictionary and the image it
restores, cut at the first poisoned codeword, and then its output, report, image and counts (05 R126-R129, R578). -/
def Obligations.GraverRunsItsCommand : Prop :=
  ∀ (s : State) (r : RunRef) (x : Ctx) (g : GParam) (inPlate : Bool) (report : Option Nat),
    StageDue 2 r s x → graverParams s x = some (g, inPlate, report) → graverReady s x g inPlate report = true →
    let cut := if x.run.bytes.isNone then firstPoison s (localOf x.j.d.inAddr) x.j.d.inLen.toNat else none
    let dict := if g.dictLen ≠ 0 then readMem s (localOf g.dict) g.dictLen else []
    let img := if g.restore then some (imageOf (readMem s (localOf g.state) imageBytes)) else none
    let limit := if x.last || g.compress then x.j.d.outLen.toNat else 2 ^ 40
    let o := gCommand g limit (stageInput s x) dict cut img
    exec (.graverRun r) s = .next (notePoison x (graverEnd x g report o s)) ∧
    (o.code = cOk → report = none → ∃ t, graverEnd x g report o s = t ∧
      (x.last = true → g.compress = false → o.out ≠ [] → t.mem = (placeOut x o.out s).mem) ∧
      (x.last = false → g.compress = false → t.mem = s.mem) ∧ t = { s with mem := t.mem, poison := t.poison, runs := t.runs })

/-- RECORD_DECODE of a section and binding set that keep their tables, with readable input: the records of the input's format, numbered
from FIRST_INDEX, those that a deadline abandoned with DEADLINE_PASSED; RECORD_DEADLINE abandons one sample of the descriptor (06
R157-R177). -/
def Obligations.RecordDecodeNumbersItsRecords : Prop :=
  (∀ (s : State) (r : RunRef) (x : Ctx) (bs : List Bind) (os : List RecOut),
    let d := decSecOf (paramSection s x 1 32)
    let inp := stageInput s x
    StageDue 3 r s x → decSecOk (paramSection s x 1 32) = true → bindingSet x.rs d.set = some bs → inputCode s x = cOk →
    (d.fmt = 1 ∧ (∃ crcs, pqDecode inp d.count bs = .ok (os, crcs, 0)) ∨ d.fmt = 2 ∧ os = (cborSeq bs d.count 0 inp).1 ∨
      d.fmt = 3 ∧ os = (arsFrames bs (inp.length + d.count + 1) d.count d.first 0 inp).recs) →
    let rs := decRecs x.run.abandoned d.first os
    let run := { x.run with recs := rs, recsIn := rs.length, recsOut := (rs.filter sound).length }
    ∃ t, exec (.recordDecode r) s = .next (notePoison x t) ∧
      t = { runPut x.num (stageDid x 3 { run with replaced := (rs.filter (fun q => !sound q)).length }) s with counters := t.counters } ∧
      rs.length = os.length ∧ (∀ n q, rs[n]? = some q → q.idx = d.first + n ∧ (nmem x.run.abandoned q.idx = true → q.reason = rDeadline))) ∧
  (∀ (s : State) (r : RunRef) (x : Ctx) (sample : W64),
    let d := decSecOf (paramSection s x 1 32)
    ctxOf s r.chan.toNat r.seq.toNat = some x → (stageKinds x.rs).contains 3 = true → nmem x.run.did 3 = false → x.j.deadline ≠ 0 →
    d.first ≤ sample.toNat → sample.toNat < d.first + d.count →
    exec (.recordDeadline r sample) s = .next (runPut x.num { x.run with abandoned := nadd x.run.abandoned sample.toNat } s))

/-- STIPPLE_AUGMENT, HATCH_STAGE and NORMALISE whose side data can be read: every record keeps its place, index and reason, corrupt ones
pass untouched, and only the run and counters change (06 R167, 07 R184, 08 R198, R202). STATS_GATHER whose AUX area holds its image:
the image is a deferred effect and the records pass (08 R201). -/
def Obligations.RecordStagesKeepTheirRecords : Prop :=
  ∀ (s : State) (r : RunRef) (x : Ctx),
    (StageDue 5 r s x → ∃ t rs, exec (.stippleAugment r) s = .next (notePoison x t) ∧ SameRecords x.run.recs rs ∧
      t = { runPut x.num (stageDid x 5 { x.run with recs := rs }) s with counters := t.counters } ∧
      rs = (stipRecords (jobSeed s x) (u16At (paramSection s x 2 16) 8) ((recKinds x.rs 5).map (fun q => (q.index, stipOpOf q.body)))
        x.run.recs { blocks := 0, idle := 0, wraps := 0 }).1) ∧
    (StageDue 6 r s x → (∀ q ∈ recKinds x.rs 6, (hatchOf q).fn = 5 → areaCode s (hatchOf q).list (4 * (hatchOf q).len) = cOk) →
      ∃ t rs, exec (.hatchStage r) s = .next (notePoison x t) ∧ SameRecords x.run.recs rs ∧
        t = { runPut x.num (stageDid x 6 { x.run with recs := rs }) s with counters := t.counters } ∧
        rs = (eachSound (hatchRecord ((operatorSection s x).take 16) ((recKinds x.rs 6).map (fun q => (hatchOf q, boundaries s (hatchOf q)))))
          x.run.recs (0, 0, 0)).1) ∧
    (∀ img, StageDue 7 r s x →
      readStats s x (BitVec.ofNat 64 (u64At (operatorSection s x) 16)) ((((recKinds x.rs 7).map (fun q => normOf q.body)).filter
        (fun e => decide (e.kind = 1) || decide (e.kind = 2))).map (·.feature)) = .ok img →
      ∃ rs, exec (.normalise r) s = .next (notePoison x (runPut x.num (stageDid x 7 { x.run with recs := rs }) s)) ∧
        SameRecords x.run.recs rs ∧ rs = x.run.recs.map (fun q => if sound q then
          normRecord ((recKinds x.rs 7).map (fun e => (normOf e.body, normParams (normOf e.body) img))) q else q)) ∧
    (∀ e a, StageDue kindStats r s x → engineRec x.rs = some e → areaAddr x e.auxRegion e.auxOff = some a →
      let ns := featureStreams x.run.recs
      let img := statsImage ((if ns = [] then [0] else ns).map (gatherFeature x.run.recs))
      let i := roundUp img.length 32
      let n := e.auxLen / (4096 * i)
      n ≠ 0 → exec (.statsGather r) s = .next (notePoison x (runPut x.num (stageDid x kindStats
        { x.run with eff := x.run.eff ++ [Eff.bytes (a + i * (x.chan * n + x.seq % n)) (padTo 32 img)] }) s)))

/-- JOIN_PROBE of a table with a current index whose probes all pass: the records of the probes in order; JOIN_BUILD of a table that keeps
its limits: the index is deferred to the commit, and no table byte changes before it; NEAR_DUP_PROBE drops the near-duplicates and
keeps the rest in order; NEAR_DUP_BUILD defers its band rows (08 R205-R216). -/
def Obligations.JoinsProbeAndBuild : Prop :=
  ∀ (s : State) (r : RunRef) (x : Ctx) (rec : PRec),
    (StageDue 8 r s x → recKind x.rs 8 = some rec →
      let e := joinOf rec.body
      let h := joinHdrOf (readMem s e.base 64)
      engRead s x.p x.c x.st e.base 64 = cOk → h.ok = true →
      (x.entry = false → h.index ≠ 0 → (∀ n, keyLength e x.run.recs = some n → n = h.keyBytes) →
        let a := (probeOrder e x.run.recs).foldl (joinProbe1 s x e h)
          { out := [], dropped := 0, probes := 0, found := 0, nulls := 0, code := 0, met := [] }
        a.code = cOk → ∃ t, exec (.joinProbe r) s = .next (notePoison x t) ∧
          t = { runPut x.num (stageDid x 8 { x.run with recs := a.out, dropped := x.run.dropped + a.dropped }) s with
                counters := t.counters }) ∧
      (x.entry = true → h.rows ≤ h.cap → engRead s x.p x.c x.st e.base (64 + h.rows * h.rowBytes) = cOk →
        let rows := indexRows s e.base h
        joinFits s e.method e.asu h.rows rows = true →
        exec (.joinBuild r) s = .next (notePoison x (runPut x.num (stageDid x 8 { x.run with
          eff := x.run.eff ++ Eff.joinSwitch e.base e.asu { method := e.method, rows := rows } ::
            joinHeaderEff e.base h.bytes (freeIndex s.free), recsIn := h.rows, recsOut := rows.length }) { s with free := s.free + 1 })))) ∧
    (StageDue 9 r s x → recKind x.rs 9 = some rec →
      let e := nearOf rec.body
      let h := joinHdrOf (readMem s e.base 64)
      engRead s x.p x.c x.st e.base 64 = cOk → nearHdrOk h = true →
      (e.build = false → h.index ≠ 0 → engRead s x.p x.c x.st e.base (64 + h.rows * h.rowBytes) = cOk →
        let keep := x.run.recs.filter (fun q => !(sound q && isNearDup s e h q))
        ∃ t, exec (.nearDupProbe r) s = .next (notePoison x t) ∧
          t = { runPut x.num (stageDid x 9 { x.run with recs := keep, dropped := x.run.dropped + (x.run.recs.length - keep.length) }) s with
                counters := t.counters }) ∧
      (e.build = true → h.rows + ((bandReps e x.run.recs).filter (fun p => decide (joinMatches s e.base h p.1 = []))).length ≤ h.cap →
        ∃ t, exec (.nearDupBuild r) s = .next (notePoison x t) ∧
          t = { runPut x.num (stageDid x 9 { x.run with eff := x.run.eff ++ [Eff.bandRows e.base e.asu e.method (bandReps e x.run.recs)] }) s
                with counters := t.counters }))

/-- SHUFFLE_FEED with no slot of its batch waiting writes the record data of its own slots and defers their headers and the writes to
other owners (09 R229-R231); CENSUS defers the bit of every record in range and the plate digest, SEAL the directory's prefixes, M and
checksum (R222); DELIVER of a complete batch hands its records on and defers manifest and delivery (R232). STAGING_SLOT_WRITE drops
an older epoch, waits for the delivery before last, or writes (R231). -/
def Obligations.ShuffleRolesRun : Prop :=
  (∀ (s : State) (r : RunRef) (x : Ctx) (e : ShufOp) (c : ShufSec),
    (ShufDue 0 r s x e c →
      let ws := x.run.recs.filterMap (fun q => match shufPlace s e c (shufKeys (jobSeed s x) c.epoch) q.idx with
        | .at_ k j _ => some (slotWrite s e c.epoch k j q)
        | _ => none)
      let live := ws.filter (fun w => !w.here || decide (leNat (readMem s w.slot 4) ≤ c.epoch))
      (∀ w ∈ ws, w.here = true → slotBlocked s w.slot w.slot0 c.epoch = false) →
      (∀ w ∈ live, w.here = true → engWrite s x.p x.c x.st w.slot (32 + w.body.length) = cOk) →
      ∃ t, exec (.shuffleFeed r) s = .next (notePoison x t) ∧
        t = { runPut x.num (stageDid x 10 { x.run with recs := [], eff := x.run.eff ++ live.flatMap (slotEffs c.epoch x.reef) })
                ((live.filter (·.here)).foldl (fun s w => if w.body = [] then s else writeMem (w.slot + 32) w.body s) s) with
              counters := t.counters }) ∧
    (ShufDue 1 r s x e c →
      let a := localOf c.dir
      let base := u64At (readMem s a 32) 8
      let span := u64At (readMem s a 32) 16
      ∃ bits, exec (.census r) s = .next (notePoison x (runPut x.num (stageDid x 10
          { x.run with eff := x.run.eff ++ Eff.bytes (a + 0x20) (digestBytes x.p.digest) :: bits }) s)) ∧
        ∀ b, b ∈ bits ↔ ∃ q ∈ x.run.recs, base ≤ q.idx ∧ q.idx < base + span ∧
          b = Eff.orByte (a + 128 + 544 * ((q.idx - base) / 4096) + 32 + (q.idx - base) % 4096 / 8) (BitVec.ofNat 8 (2 ^ ((q.idx - base) % 8)))) ∧
    (ShufDue 2 r s x e c →
      let a := localOf c.dir
      let h := readMem s a 128
      areaCode s a (dirBytes (u64At h 16)) = cOk →
      let b := sealBlocks s a (u64At h 16 / 4096) 0 0
      let h1 := patch (patch h 6 (leBytes 2 1)) 24 (leBytes 8 b.2)
      exec (.sealBatch r) s = .next (notePoison x (runPut x.num (stageDid x 10
        { x.run with eff := x.run.eff ++ Eff.bytes a (patch h1 0x7C (leBytes 4 (crc32c (h1.take 0x7C)).toNat)) :: b.1 }) s))) ∧
    (∀ (expired : Bool) (f : Fill), ShufDue 3 r s x e c →
      let addrs := (List.range (e.b + e.q)).map (slotAddr e c.epoch c.batch)
      let ins := addrs.map (slotRead s c.epoch)
      (∀ a ∈ addrs, engRead s x.p x.c x.st a e.slotBytes = cOk) → (ins.take e.b).all (·.ready) = true →
      fillBatch (ins.drop e.b) ((ins.take e.b).zip (List.range e.b)) { out := [], man := [], used := 0, filled := 0, unfilled := 0 } = some f →
      let eff := manifestEff x c.epoch c.batch f ++ [Eff.delivered (addrs.headD 0) c.epoch x.reef]
      let run := { x.run with recs := f.out, recsIn := e.b + f.used, recsOut := e.b - f.unfilled, replaced := f.filled + f.unfilled }
      ∃ t, exec (.deliver r expired) s = .next (notePoison x t) ∧
        t = { runPut x.num (stageDid x 10 (if f.unfilled = 0 then { run with eff := x.run.eff ++ eff }
                else runCode 0x3005 { run with eff := x.run.eff ++ eff })) s with counters := t.counters })) ∧
  (∀ (s : State) (slot batch : W64) (data : List Byte),
    let a := localOf slot
    let reef := 8 * (homeIsland a).getD 0
    (u32At data 0 < leNat (readMem s a 4) → exec (.stagingSlotWrite slot batch data) s = .next (bump (reefCnt reef 39) 1 s)) ∧
    (leNat (readMem s a 4) ≤ u32At data 0 →
      (slotBlocked s a (localOf batch) (u32At data 0) = true → exec (.stagingSlotWrite slot batch data) s =
        .next (bump (reefCnt reef 40) 1 { s with slotWaits := s.slotWaits ++ [(a, localOf batch, data)] })) ∧
      (slotBlocked s a (localOf batch) (u32At data 0) = false → exec (.stagingSlotWrite slot batch data) s = .next (writeMem a data s))))

/-- TOPK, SORT and MERGE of a block that passes R267, with readable input and writable output: the output range takes the results of the
rows, the sorted runs or the merged runs, the run its counts (11 R264-R276). SORT puts out each run's own elements, none before one it
ranks after. -/
def Obligations.SelectPlacesItsResults : Prop :=
  (∀ (s : State) (r : RunRef) (x : Ctx) (e : SelOp),
    (SelDue 1 r s x e → ∃ t, exec (.topk r) s = .next (notePoison x t) ∧
      t = { selEnd x ((List.range e.rows).flatMap (fun n => (topRow e (decide (x.j.tc = 0)) (stageInput s x)
              (if e.expl then readMem s (localOf e.aux) (selAuxLen e) else []) n).bytes)) (e.rows * e.rowLen) e.rows cOk s with
            counters := t.counters }) ∧
    (SelDue 2 r s x e → ∃ t, exec (.sort r) s = .next (notePoison x t) ∧
      t = { selEnd x ((((chunks (e.rowLen * e.elem) ((stageInput s x).take (selInLen s e))).map (runElems e)).flatMap (sortRun e.asc)).flatMap
              (·.data)) (e.rows * e.rowLen) (e.rows * e.rowLen) cOk s with counters := t.counters }) ∧
    (SelDue 3 r s x e →
      let es := runElems e (stageInput s x)
      let o := mergeRuns e.asc (es.length + 1) (cutRuns (runTable s e) es)
      o.2 = false → ∃ t, exec (.merge r) s = .next (notePoison x t) ∧
        t = { selEnd x (o.1.flatMap (·.data)) es.length o.1.length cOk s with counters := t.counters })) ∧
  (∀ (asc : Bool) (l : List RunElt), (sortRun asc l).Perm l ∧
    ∀ n a b, (sortRun asc l)[n]? = some a → (sortRun asc l)[n + 1]? = some b → before asc b a = false)

/-- LAYOUT_TRANSFORM of transforms that keep the rules, inside the descriptor's ranges and with nothing to wait for: every window is
computed from memory as it stood and then written, group by group (13 R314-R326). PACK whose output fits writes the packed batch and
commits it even where samples were left out (R327-R331). -/
def Obligations.LayoutMovesAndPacks : Prop :=
  ∀ (s : State) (r : RunRef) (x : Ctx),
    (∀ ts, StageDue 13 r s x → layTransforms s x = some ts → ts.all (fun t => t.ok && t.aligned) = true →
      ts.all (fun t => inRange t.src x.j.d.inAddr x.j.d.inLen.toNat && inRange t.dst x.j.d.outAddr x.j.d.outLen.toNat) = true →
      layWaits x ts = false → firstCode (ts.map (layRead s x)) = cOk →
      firstCode ((ts.map (fun t => (t, moveAll s t))).map (fun p => layWrite s x p.1 p.2)) = cOk →
      let ms := ts.map (fun t => (t, moveAll s t))
      let m := ms.foldl (fun u p => putWindow (localOf p.1.dst.base) p.2.win u) s
      ∃ t, exec (.layoutTransform r) s = .next (notePoison x t) ∧
        t = { runPut x.num (stageDid x 13 { x.run with lines := (ms.map (fun p => groupsOf p.2.win [])).foldl (fun n g => n + g.length) 0 }) m with
              counters := t.counters }) ∧
    (∀ rec, StageDue 12 r s x → recKind x.rs 12 = some rec →
      (recKind x.rs 10 = none ∨ nmem x.run.did 10 = true ∧ (shufSecOf (paramSection s x 4 64)).role = 3) →
      let e := packOf rec.body
      let pm := packAll e x.run.recs { sq := 0, place := 0, parts := 0, toks := [[]], segs := [[]], full := false } []
      let out := packBytes e x.run.recs pm.1 pm.2
      let dups := (pm.2.filter (fun m => decide (m.flags / 8 % 2 = 1))).length
      let run := { x.run with recsOut := pm.2.length - dups, lines := out.length / 32 }
      out.length ≤ x.j.d.outLen.toNat → engWrite s x.p x.c x.st (localOf x.j.d.outAddr) out.length = cOk →
      ∃ t, exec (.pack r) s = .next (notePoison x t) ∧
        t = { runPut x.num (stageDid x 12 (if dups = 0 then run else runCode 0x5004 run)) (placeOut x out s) with counters := t.counters })

/-- GATHER alone or in a pipeline writes or hands on the rows of its indices, zeros for invalid ones, and counts those (12 R287-R294);
SCATTER, FOLD of the next step, and INITIALISE defer their work; WRITE_ROWS places images in shadow slots and defers the flips
(R288, R289, R299-R306). -/
def Obligations.EmbeddingRolesRun : Prop :=
  ∀ (s : State) (r : RunRef) (x : Ctx) (rec : PRec) (t : EmbTab) (e : EmbSec),
    (EmbDue 0 r s x rec t e → x.entry = true → inputCode s x = cOk →
      let vs := (chunks 8 (stageInput s x)).map (fun b => validRow s t (ofInt (sintOf 64 (leNat b))))
      (∀ n, some n ∈ vs → rowCodeOf s t n = cOk) →
      engWrite s x.p x.c x.st (localOf x.j.d.outAddr) (vs.length * roundUp (gatherRow t e.outMode) 32 + vs.length) = cOk →
      let g := gatherRows x t e.outMode vs s
      let bytes := g.1.flatMap (fun p => padTo 32 p.1) ++ g.1.map (fun p => if p.2 then 1 else 0)
      let bad := (g.1.filter (fun p => !p.2)).length
      exec (.gather r) s = .next (notePoison x (prefetchRows x t e (runPut x.num (stageDid x 15
        { x.run with recsIn := vs.length, recsOut := vs.length - bad, dropped := bad, lines := ceilDiv bytes.length 32 })
        (if bytes = [] then g.2 else placeOut x bytes g.2))))) ∧
    (EmbDue 0 r s x rec t e → x.entry = false →
      let ps := x.run.recs.map (fun q => (q, if sound q then recRows s t (u8At rec.body 2) q else none))
      let vs := ps.flatMap (fun p => match p.2 with | some q => q.2 | none => [])
      (∀ n, some n ∈ vs → rowCodeOf s t n = cOk) →
      let g := gatherRows x t e.outMode vs s
      exec (.gather r) s = .next (notePoison x (prefetchRows x t e (runPut x.num (stageDid x 15
        { x.run with recs := gatherRecs t e.outMode (u8At rec.body 3) (u8At rec.body 4) ps g.1,
                     dropped := x.run.dropped + (g.1.filter (fun p => !p.2)).length }) g.2)))) ∧
    (EmbDue 1 r s x rec t e → (x.entry = true → inputCode s x = cOk) → ∃ u ok, exec (.scatter r) s = .next (notePoison x u) ∧
      ok = (scatterIn s x rec t e).filterMap (fun p => p.bind (fun q => (scatterRow s t q.1).map (fun n => Eff.scatter t.id e.step n e.grad q.2))) ∧
      let run := { x.run with eff := x.run.eff ++ ok, dropped := x.run.dropped + ((scatterIn s x rec t e).length - ok.length) }
      u = { runPut x.num (stageDid x 15 (if x.entry then { run with recsIn := (scatterIn s x rec t e).length, recsOut := ok.length } else run)) s
            with counters := u.counters }) ∧
    (EmbDue 2 r s x rec t e → atHead x = true → e.step = (match (embGet s t.id).folded with | some f => f + 1 | none => 0) →
      let rows := touchedRows s t e.step
      (∀ n ∈ rows, areaCode s (deltaAddr t e.step n) t.drow = cOk ∧ rowCodeOf s t n = cOk) →
      ((rows.map (foldCase s t e.step)).filter (fun c => match c with | .requant _ => true | _ => false)).length ≤ freeSlots s t →
      let run := { x.run with eff := x.run.eff ++ [Eff.fold t.id e.step x.reef e.seed (decide (e.requant = 1))] }
      exec (.fold r) s = .next (notePoison x (runPut x.num (stageDid x 15
        (if (rows.map (foldCase s t e.step)).contains .saturated then runCode 0x6003 run else run)) s))) ∧
    (EmbDue 3 r s x rec t e → inputCode s x = cOk → ∀ es u,
      let rs := writeRecs t (chunks (32 + t.rowBytes) (stageInput s x))
      rs.2 = false → placeRows t (lastPerRow rs.1) s = some (es, u) →
      exec (.writeRows r) s = .next (notePoison x (bumpReef x 76 (lastPerRow rs.1).length (runPut x.num (stageDid x 15
        { x.run with eff := x.run.eff ++ es, recsIn := rs.1.length, recsOut := (lastPerRow rs.1).length }) u)))) ∧
    (EmbDue 4 r s x rec t e → exec (.initialise r) s =
      .next (notePoison x (runPut x.num (stageDid x 15 { x.run with eff := x.run.eff ++ [Eff.initTable t.id] }) s)))

/-- The ASU commands of a bank (10 R245-R250): SEARCH and NEXT answer the lowest match (above the cursor), the lowest-offset valid entry of
a ternary table being reported as it stands; READ answers an entry and changes none; WRITE, DELETE and INSERT change their entries;
REBUILD fills the other side and makes it active. The next state holds the result among the outputs. -/
def Obligations.AsuCommandsAnswer : Prop :=
  ∀ (s : State) (reef : BitVec 7) (c : AsuCmd) (t : AsuTab) (q sd : Nat),
    let o := c.offset.toNat
    let g := t.pos sd q o
    let bank := t.pos sd q 0 / 65536
    let answer := fun (r : AsuRes) (u : State) => emit (.asu r.bytes) u
    (AsuDue 1 c s t q sd → exec (.asuSearch reef c) s = .next (answer (asuFind t q sd c.key none s).1 (asuFind t q sd c.key none s).2) ∧
      (∀ m ms, asuMatches s t q sd c.key none = m :: ms → t.ternary = true → (asuGet s (t.pos sd q m)).lost = false →
        (asuFind t q sd c.key none s).1.off = m ∧ (asuFind t q sd c.key none s).1.flags = 1 + 2 * (decide (ms ≠ [])).toNat ∧
        (asuFind t q sd c.key none s).1.data = (asuGet s (t.pos sd q m)).data.toNat ∧
        (asuFind t q sd c.key none s).2 = { s with counters := (asuFind t q sd c.key none s).2.counters })) ∧
    (AsuDue 2 c s t q sd → c.cursor.toNat = asuCursor t q sd (asuGenOf s t q sd) (c.cursor.toNat % 2 ^ 23) → sd < 2 → t.num < 64 → q < 128 →
      asuGenOf s t q sd < 65536 →
      exec (.asuNext reef c) s = .next (answer (asuFind t q sd c.key (some (c.cursor.toNat % 2 ^ 23)) s).1
        (asuFind t q sd c.key (some (c.cursor.toNat % 2 ^ 23)) s).2)) ∧
    (AsuDue 3 c s t q sd → ∃ r u, exec (.asuRead reef c) s = .next (answer r u) ∧ u = { s with counters := u.counters } ∧ r.status = cOk ∧
      r.flags = (asuGet s g).valid.toNat ∧ r.data = (if (asuGet s g).valid then (asuGet s g).data.toNat else 0) ∧
      r.key = (asuGet s g).key.toNat ∧ r.mask = (asuGet s g).mask.toNat ∧ r.off = o) ∧
    (AsuDue 4 c s t q sd → exec (.asuWrite reef c) s =
      .next (answer { status := cOk, off := o, part := q } (bump (reefCnt bank 45) 1 (asuPut t g (asuNew t c) s)))) ∧
    (AsuDue 5 c s t q sd → exec (.asuDelete reef c) s = .next (answer { status := cOk, off := o, part := q } (bump (reefCnt bank 45) 1
      (if (asuGet s g).valid || (asuGet s g).lost then asuPut t g { asuGet s g with valid := false, lost := false } s else s)))) ∧
    (AsuDue 6 c s t q sd →
      (∀ h, (asuHoles s t q sd o).1 = some h → h - o ≤ max 64 (4 * t.hole) → (∀ k, (asuHoles s t q sd o).2 = some k → h - o ≤ o - 1 - k) →
        let u := asuPut t g (asuNew t c) (asuMoveUp t q sd o (h - o) s)
        exec (.asuInsert reef c) s = .next (answer { status := cOk, off := o, part := q } (bump (reefCnt bank 45) 1
          (if h - o = 0 then u else bump (reefCnt bank 46) (h - o) (asuBumpGen t q sd u))))) ∧
      (∀ k, (asuHoles s t q sd o).2 = some k → o - 1 - k ≤ max 64 (4 * t.hole) → (∀ h, (asuHoles s t q sd o).1 = some h → o - 1 - k < h - o) →
        let u := asuPut t (t.pos sd q (o - 1)) (asuNew t c) (asuMoveDown t q sd k (o - 1 - k) s)
        exec (.asuInsert reef c) s = .next (answer { status := cOk, off := o - 1, part := q } (bump (reefCnt bank 45) 1
          (if o - 1 - k = 0 then u else bump (reefCnt bank 46) (o - 1 - k) (asuBumpGen t q sd u)))))) ∧
    (AsuDue 7 c s t q sd →
      let a := asuActive s t q
      let b := t.pos a q 0
      let es := (s.asu.filter (fun p => b ≤ p.1 && p.1 < b + t.size && p.2.valid)).map (fun p => { p.2 with lost := false })
      es.length ≤ (asuSlots t).length → exec (.asuRebuild reef c) s = .next (answer { status := cOk, part := q }
        (asuBumpGen t q 0 (asuBumpGen t q 1 (asuSetSide t q (1 - a) (asuFill t q (1 - a) es s))))))

/-- ASU_UPDATE at the commit point runs its commands in order and commits its descriptor where it is the last stage (10 R252);
ASU_REFRESH_SCRUB rewrites an entry that differs from its copy and marks one whose copy is bad lost (R256, R257); ASU_THROTTLE_EVAL
sets the level, which rises at once above 95, 105 and 110 and falls 2 below, and starts no search that is still held (R258, R259). FETCH_EPOCH_ADVANCE raises a table's epoch and frees the slots displaced two epochs before (12 R286); SHOAL_INTERVAL_END drops an
island's counts and, with shoaling off, its replicas (R296); MIGRATE_INTERVAL_END changes tables alone; MIGRATION_FLIP moves a row to the
slot of its move (R297). -/
def Obligations.UpkeepOfTablesRuns : Prop :=
  ((∀ (s : State) (r : RunRef) (x : Ctx) (ok : Nat) (u : State),
      let d := x.j.d
      let n := d.paramLen.toNat / 64
      let cmds := chunks 64 (readMem s (localOf d.paramAddr) d.paramLen.toNat)
      StageDue kindAsu r s x → x.ch.committed + 1 = x.seq → d.paramLen.toNat = 64 * n → 1 ≤ n → n ≤ 1024 → 64 * n ≤ d.outLen.toNat →
      engRead s x.p x.c x.st (localOf d.paramAddr) d.paramLen.toNat = cOk → engWrite s x.p x.c x.st (localOf d.outAddr) (64 * n) = cOk →
      (∀ b ∈ cmds, asuIsHeld s (asuCmdOf b).1 (asuCmdOf b).2 = false) → updateAll (localOf d.outAddr) cmds 0 0 0 s = (0, ok, u) →
      let v := runPut x.num (stageDid x kindAsu { x.run with recsIn := n, recsOut := ok, lines := 2 * n }) u
      exec (.asuUpdate r) s = .next (notePoison x (if x.last then commitRun x.chan x.seq x.j v else v))) ∧
    (∀ (s : State) (pos : BitVec 23) (p : Plate) (t : AsuTab),
      let g := pos.toNat
      (rget s 0x00090000).getLsbD 2 = false → mget 0 s.asuLevel (g / 524288) ≠ 3 → islLost s (g / 524288) = false → activePlate s = some p →
      (asuTabs p (caseNow s)).find? (fun t => t.holds g) = some t →
      (asuCopyBad s t g = true → exec (.asuRefreshScrub pos) s = .next (asuLose g s)) ∧
      (asuCopyBad s t g = false → (asuFromCopy t (readMem s (asuCopyAddr t g) (asuCopyBytes t))).valid = true →
        let e := { asuFromCopy t (readMem s (asuCopyAddr t g) (asuCopyBytes t)) with lost := (asuGet s g).lost }
        exec (.asuRefreshScrub pos) s = .next (if e = asuGet s g then s
          else bump (reefCnt (g / 65536) (if t.ternary then 51 else 50)) 1 { s with asu := mset AsuEntry.free s.asu g e }))) ∧
    (∀ (s : State) (island : BitVec 4) (temp : Byte),
      let l := asuLevelNext (mget 0 s.asuLevel island.toNat) temp.toInt
      (s.asuHeld = [] → exec (.asuThrottleEval island temp) s = .next { s with asuLevel := mset 0 s.asuLevel island.toNat l, asuHeld := [] }) ∧
      (let u := { s with asuLevel := mset 0 s.asuLevel island.toNat l }
       (∀ h ∈ s.asuHeld, asuIsHeld u h.op h.cmd = true) → exec (.asuThrottleEval island temp) s = .next u) ∧
      (110 < temp.toInt → l = 3) ∧ (105 < temp.toInt → temp.toInt ≤ 108 → l = 2) ∧ (temp.toInt ≤ 93 → l = 0))) ∧
  ((∀ (s : State) (table : BitVec 6),
      let e := embGet s table.toNat
      let old := e.displaced.filter (fun p => decide (p.2 + 2 ≤ e.epoch + 1))
      let kept := e.displaced.filter (fun p => !decide (p.2 + 2 ≤ e.epoch + 1))
      exec (.fetchEpochAdvance table) s = .next (embPut table.toNat
        { e with epoch := e.epoch + 1, used := (old.map (·.1)).foldl ndel e.used, displaced := kept } s)) ∧
    (∀ (s : State) (island : BitVec 4),
      (∃ t, exec (.shoalIntervalEnd island) s = .next t ∧ t = { s with emb := t.emb } ∧
        t = (tablesNow s).foldl (fun s t => embPut t.id (shoalTable s island.toNat t (embGet s t.id)) s) s) ∧
      (∀ t e, (∀ p ∈ (shoalTable s island.toNat t e).heat, p.1 / 2 ^ 36 ≠ island.toNat) ∧
        (skewMode s t.id % 2 = 0 → (shoalTable s island.toNat t e).replicas =
          ((e.replicas.filter (fun p => decide (p.1 / 2 ^ 36 = island.toNat))).map (·.1)).foldl ndel e.replicas)) ∧
      (∃ t, exec (.migrateIntervalEnd island) s = .next t ∧ t = { s with emb := t.emb, free := t.free } ∧
        t = (tablesNow s).foldl (migrateTable island.toNat) s)) ∧
    (∀ (s : State) (table : BitVec 6) (row : W64) (t : EmbTab) (k o : Nat), embTab? s table.toNat = some t →
      mlook (embGet s t.id).moves row.toNat = some k → rowSlot s t row.toNat = some o → exec (.migrationFlip table row) s =
        .next (bump (reefCnt (8 * (k / 2 ^ 32)) 77) 1 (embFlip t row.toNat k (writeMem (slotAt t k) (rowImage s t o) s)))))

/-! ## Cells and accumulators -/

/-- The WXA commands of a list that issues them (03 R89, R90): CLEAR keeps only SQUARE, SET_MODE sets it, SAVE and READ_FP32 write the
accumulator's image or its value rounded once to memory that is not poisoned, RESTORE takes an image, MERGE adds one; a term that
enters is added exactly (R87). No other accumulator changes. -/
def Obligations.WxaCommandsAct : Prop :=
  ∀ (s : State) (l : ListId) (row : BitVec 4),
    let k := listKey l
    let w := wxaNum l.reef.toNat row.toNat
    let x := wxaGet s w
    (listIssues s k { word := 0x30 + 256 * row.toNat, arg := 0, addr := 0 } = true →
      exec (.wxaClear l row) s = .next (seqNext k (wxaPut w { Wxa.init with square := x.square } s))) ∧
    (∀ sq : Bool, listIssues s k { word := 0x31 + 256 * row.toNat + 4096 * sq.toNat, arg := 0, addr := 0 } = true →
      exec (.wxaSetMode l row sq) s = .next (seqNext k (wxaPut w { x with square := sq } s))) ∧
    (∀ addr : W64,
      let a := lagKey (k / 512) addr.toNat
      (listIssues s k { word := 0x32 + 256 * row.toNat, arg := 0, addr := addr.toNat } = true → partPoison s a (wxaImage x).length = false →
        exec (.wxaSave l row addr) s = .next (seqAttached (k / 64) 0x32 (seqNext k (writeMem a (wxaImage x) s)))) ∧
      (listIssues s k { word := 0x35 + 256 * row.toNat, arg := 0, addr := addr.toNat } = true → partPoison s a 4 = false →
        exec (.wxaReadFp32 l row addr) s = .next (seqAttached (k / 64) 0x35 (seqNext k (writeMem a (leBytes 4 (wxaFp32 x).toNat) s)))) ∧
      (anyPoison s a 64 = false →
        (listIssues s k { word := 0x33 + 256 * row.toNat, arg := 0, addr := addr.toNat } = true →
          exec (.wxaRestore l row addr) s = .next (seqNext k (wxaPut w (wxaOfImage (readMem s a 64)) s))) ∧
        (listIssues s k { word := 0x34 + 256 * row.toNat, arg := 0, addr := addr.toNat } = true →
          exec (.wxaMerge l row addr) s = .next (seqNext k (wxaPut w (wxaMergeIn x (wxaOfImage (readMem s a 64))) s))))) ∧
    (∀ (reef : BitVec 7) (v : Term), termOk v = true → islLost s (reef.toNat / 8) = false →
      exec (.wxaTerm reef row v) s = .next (wxaPut (wxaNum reef.toNat row.toNat) (wxaEnter (termDot v) (termVal v)
        (wxaGet s (wxaNum reef.toNat row.toNat))) s)) ∧
    (∀ (y : Wxa) (dot neg : Bool) (n d : Nat), d ≠ 0 → n < d * 2 ^ 128 → y.terms < 2 ^ 40 → (dot = true ∨ y.square = false) → n * 2 ^ 149 % d = 0 →
      wxaEnter dot (.fin neg n d) y =
        { y with acc := wrap320 (y.acc + (if neg then -((n * 2 ^ 149 / d : Nat) : Int) else ((n * 2 ^ 149 / d : Nat) : Int))), terms := y.terms + 1 })

/-- A record cell's step (03 R80-R82) stores its result as the cell's previous one and sends it to the neighbours of OUT_MASK, to its
stream and, from column 15 eastward, to its row's WXA; a dot row's step (R83-R85, R87) changes dot cells, links, outputs and its row's
WXA alone where no weight line is poisoned. -/
def Obligations.CellsStep : Prop :=
  (∀ (s : State) (r : RunRef) (x : Ctx) (sample : W64) (reef : BitVec 7) (row col : BitVec 4) (lag0 lag1 port : W64),
    let cfg := cellCfg s reef.toNat row.toNat col.toNat
    let n := cellNum reef.toNat row.toNat col.toNat
    let op := operand s reef.toNat row.toNat col.toNat (BitVec.ofNat 64 (cfgBits cfg 127 64)) lag0 lag1 port
    let c0 := mget RCell.init s.rcells n
    let c := if c0.run = x.num ∧ c0.sample = sample then c0 else { c0 with srCount := 0, run := x.num, sample := sample }
    let srcP := cfgBits cfg 43 40
    let res := recordCell cfg (op (cfgBits cfg 35 32)) (op (cfgBits cfg 39 36))
      (decide (srcP = 0) || ((op srcP).getLsbD 0 != decide (cfgBits cfg 49 49 = 1)))
      (drawWord (jobSeed s x) sample (0xF000 + cfgBits cfg 127 64 % 4096) (c.srCount % 2 ^ 18))
      ((wiringOf s reef.toNat).drop (131072 + 512 * cfgBits cfg 159 144))
    let u := { s with rcells := mset RCell.init s.rcells n { c with prev := res.res, srCount := c.srCount + res.drew.toNat } }
    ctxOf s r.chan.toNat r.seq.toNat = some x → row.toNat ≤ 11 → cfgBits cfg 7 0 ≠ 0 → cellsRun s reef.toNat = true →
    exec (.recordCellStep r sample reef row col lag0 lag1 port) s =
      .next (cellResult reef.toNat row.toNat col.toNat cfg res.res (if res.drop then dropRecord x sample.toNat u else u))) ∧
  (∀ (s : State) (r : RunRef) (x : Ctx) (reef : BitVec 7) (row : BitVec 4) (acts : List (List Byte)),
    ctxOf s r.chan.toNat r.seq.toNat = some x → 12 ≤ row.toNat → cellsRun s reef.toNat = true →
    (∀ col < 16, dotPoison s reef.toNat (cellCfg s reef.toNat row.toNat col)
      (mget DCell.init s.dcells (cellNum reef.toNat row.toNat col)).line = none) →
    ∃ t, exec (.dotStep r reef row acts) s = .next t ∧
      t = { dotRow x reef.toNat row.toNat acts s with free := s.free + 32 } ∧
      t = { s with dcells := t.dcells, cellLinks := t.cellLinks, wxas := t.wxas, out := t.out, free := t.free } ∧
      s.out <+: t.out ∧ ∀ k, k ≠ wxaNum reef.toNat row.toNat → wxaGet t k = wxaGet s k)

/-! ## Sessions and frames -/

/-- HELLO that passes Table 15.11 (15 R369-R372): the responder answers a HELLO_REPLY and remembers the session it will open.
HELLO_REPLY to a HELLO of the device opens the session and confirms it; CONFIRM opens it at the responder; REJECT ends the attempt; CLOSE
ends the session. -/
def Obligations.HandshakesOpenAndClose : Prop :=
  ∀ (s : State), Quiet s →
    (∀ (link : BitVec 5) (body : List Byte) (p : Nat), linkTakes s link.toNat = true → s.helloCount < 4000 →
      entryOfKey s (sha3 ((body.drop 40).take 1312)) = some p → body.length = 4956 → zeroAt body 2 6 = true → u16At body 0 = peerNode s p →
      (link.toNat = 0 ∨ ownNode s ≠ 4095) → mlook s.helloOut p = none → sessRoom s p = true →
      ∃ reply, exec (.hello link body true) s = .next (emit (.frame link.toNat 0x11 0 reply)
        { s with helloCount := s.helloCount + 1, free := s.free + 3, nextSid := s.nextSid + 1, helloOut := mdel s.helloOut p,
                 helloIn := mput s.helloIn (s.nextSid % 2 ^ 32) { entry := p, link := link.toNat, sid := BitVec.ofNat 32 s.nextSid,
                                                                  transcript := sha3 (body ++ reply) } })) ∧
    (∀ (link : BitVec 5) (body : List Byte) (p : Nat) (h : HelloOut), linkTakes s link.toNat = true →
      entryOfKey s (sha3 ((body.drop 40).take 1312)) = some p → body.length = 4860 → zeroAt body 6 2 = true → u16At body 4 = peerNode s p →
      mlook s.helloOut p = some h → h.link = link.toNat → sessRoom s p = true →
      let sid := BitVec.ofNat 32 s.nextSid
      let peer := BitVec.ofNat 32 (u32At body 0)
      exec (.helloReply link body true) s = .next (settle (openSess sid p link.toNat true peer (sha3 (h.body ++ body))
        (emit (.frame link.toNat 0x12 peer (leBytes 4 sid.toNat ++ zeros 28))
          { s with nextSid := s.nextSid + 1, helloOut := mdel s.helloOut p })))) ∧
    (∀ (f : Frame) (h : HelloIn), linkTakes s f.link.toNat = true → f.body.length = 32 → zeroAt f.body 4 28 = true → f.hdr.version = 1 →
      f.hdr.type = 0x12 → mlook s.helloIn f.hdr.sid.toNat = some h → h.link = f.link.toNat → f.tagOk = true → headerBits f.hdr = true →
      f.hdr.nonce = 0 → sessRoom s h.entry = true → peerUsable s h.entry = true →
      exec (.confirm f) s = .next (settle (sessMod h.sid.toNat (fun x => { takeNonce 0 x with ce := f.ce.toNat })
        (openSess h.sid h.entry f.link.toNat false (BitVec.ofNat 32 (u32At f.body 0)) h.transcript
          { s with helloIn := mdel s.helloIn f.hdr.sid.toNat })))) ∧
    (∀ (link : BitVec 5) (entry : BitVec 10) (code : W16) (h : HelloOut), linkTakes s link.toNat = true →
      mlook s.helloOut entry.toNat = some h → h.link = link.toNat →
      exec (.reject link entry code) s = .next { s with helloOut := mdel s.helloOut entry.toNat }) ∧
    (∀ (f : Frame) (k : Nat) (x : Session), FrameOk 0x13 f s k x → f.body = [] → (∀ a, ackOf f.hdr = some a → a < x.nextSeq) →
      exec (.close f) s = .next (settle (endSession k (tookAck f s x))))

/-- A DATA frame that passes its checks (15 R375, R376, R386): the next one in order is taken with those held behind it and acknowledged;
one beyond a gap is held; a repeated one is acknowledged again and changes nothing else. An ACK takes its acknowledgement, CREDIT and
CE_COUNT, and no frame it acknowledges stays that needs no answer; a PROBE is answered at once (R388). -/
def Obligations.FramesAreTaken : Prop :=
  ∀ (s : State) (f : Frame) (k : Nat) (x : Session), Quiet s →
    let n := f.hdr.seq.toNat
    let y := heardBy f s x
    (FrameOk 1 f s k x → 1 ≤ n → n ≤ x.taken + granted x + 16 →
      (n ≤ x.taken → exec (.dataFrame f) s = .next (settle (sendAck k (bump (peerCnt x.entry 3) 1 (heard f s x))))) ∧
      (x.taken < n → mlook x.held n = none → (∀ a, ackOf f.hdr = some a → a < x.nextSeq) →
        (∃ rs, opRecs f.hdr.opCount.toNat f.body = some rs ∧ resultsOk y rs = true) →
        let z := match ackOf f.hdr with
          | some a => ackUpTo s.time a y
          | none => y
        let u := sessPut k { z with held := mput z.held n f } (heard f s x)
        exec (.dataFrame f) s = .next (settle
          (if n = x.taken + 1 then sendAck k (pumpSession k (takeHeld k (x.held.length + 1) u)) else pumpSession k u)))) ∧
    (FrameOk 2 f s k x → f.body.length = 48 → zeroAt f.body 40 8 = true → (ackOf f.hdr).getD 0 < x.nextSeq →
      sackOk ((ackOf f.hdr).getD 0) x.nextSeq f.body = true →
      let z := ackUpTo s.time ((ackOf f.hdr).getD 0) y
      exec (.ack f) s = .next (settle (pumpSession k
        (sessPut k (ackCredit s.time (u32At f.body 32) (u32At f.body 36) z) (heard f s x)))) ∧
      z.nextSeq = x.nextSeq ∧ z.taken = x.taken ∧
      ∀ p ∈ z.unacked, p.1 ≤ (ackOf f.hdr).getD 0 → p.2.acked = true ∧ p.2.answered = false) ∧
    (FrameOk 3 f s k x → f.body = [] → (∀ a, ackOf f.hdr = some a → a < x.nextSeq) →
      exec (.probe f) s = .next (bump (portCnt x.link 0) 1 (emit (.frame x.link 0x04 x.peerSid []) (tookAck f s x)))) ∧
    (FrameOk 4 f s k x → f.body = [] → (∀ a, ackOf f.hdr = some a → a < x.nextSeq) →
      exec (.probeReply f) s = .next (tookAck f s x))

/-- A memory operation that passes every check of 15 R381 (R382): READ answers the bytes; WRITE puts its data there, or a request in
the session's service slot; ADD32, ADD64 and CAS64 answer the old value and store the sum, or the new value where the old equals OP0;
ADD_DELTA adds its lanes. A store is of the operation's span at its address: every byte whose canonical address is outside it reads as before. -/
def Obligations.MemoryOperationsAct : Prop :=
  ∀ (s : State) (o : OpRef) (h : OpHdr) (data : List Byte) (x : Session), s.wire = [] →
    let a := localOf h.addr
    let old := fun n => leNat (readMem s a n)
    let ans := fun n => Out.opResult o cOk (BitVec.ofNat 64 (old n)) []
    (MemReady 0x01 o h [] s x → exec (.yzRead o h) s = .next (emit (.opResult o cOk 0 (readMem s a h.len.toNat)) s)) ∧
    (MemReady 0x02 o h data s x →
      (isRequest x a h.len.toNat = false → exec (.yzWrite o h data) s = .next (emit (.opResult o cOk 0 []) (writeMem a data s))) ∧
      (isRequest x a h.len.toNat = true → ∃ t, exec (.yzWrite o h data) s = .next (emit (.opResult o cOk 0 []) t) ∧
        t.svc = s.svc ++ [svcReqOf o.sid (sessSlot x) data] ∧ t = { s with mem := t.mem, poison := t.poison, svc := t.svc })) ∧
    (MemReady 0x03 o h [] s x → exec (.add32 o h) s = .next (emit (ans 4) (writeMem a (leBytes 4 (old 4 + h.op0.toNat)) s))) ∧
    (MemReady 0x04 o h [] s x → exec (.add64 o h) s = .next (emit (ans 8) (writeMem a (leBytes 8 (old 8 + h.op0.toNat)) s))) ∧
    (MemReady 0x05 o h data s x → exec (.addDelta o h data) s = .next (emit (.opResult o cOk 0 []) (addLanes a (deltaVals data) s))) ∧
    (MemReady 0x06 o h [] s x →
      exec (.cas64 o h) s = .next (emit (ans 8) (if old 8 = h.op0.toNat then writeMem a (leBytes 8 h.op1.toNat) s else s))) ∧
    (∀ (b : List Byte) (k : Nat), (∀ i < b.length, memKey (a + i) ≠ some k) → kget (writeMem a b s) k = kget s k) ∧
    (∀ b : List Byte, mwf 0 s.mem = true → (∀ i < b.length, (memKey (a + i)).isSome) →
      (∀ i < b.length, ∀ j < b.length, memKey (a + i) = memKey (a + j) → i = j) → readMem (writeMem a b s) a b.length = b)

/-- SIGNAL of a session adds n to a sync object through a window that admits it (15 R384); MESSAGE takes WORK alone; FENCE answers
success with nothing left to wait for (R383); FATE of a session that the device has no record of answers UNKNOWN (R386); RESULT
completes the operation it answers. -/
def Obligations.OtherOperationsAct : Prop :=
  ∀ (s : State) (o : OpRef) (h : OpHdr) (data : List Byte) (x : Session), sess? s o.sid = some x → x.opened = true →
    (fieldsOk 0x07 h [] = true → h.op0.toNat % 4 = 0 → windowAdmits s x.entry 1 3 (bits h.op0.toNat 31 16) 1 = true →
      exec (.yzSignal o h) s = .next (emit (.opResult o (yzSignalObj (bits h.op0.toNat 31 16) h.op1.toNat (peerNode s x.entry) s).1 0 [])
        (yzSignalObj (bits h.op0.toNat 31 16) h.op1.toNat (peerNode s x.entry) s).2)) ∧
    (fieldsOk 0x07 h [] = true → h.op0.toNat % 4 ≠ 0 →
      exec (.yzSignal o h) s =
        .next (emit (.opResult o (yzSignalBar (h.op0.toNat % 4) (bits h.op0.toNat 31 16) (bits h.op0.toNat 63 32) (peerNode s x.entry) s).1 0 [])
          (yzSignalBar (h.op0.toNat % 4) (bits h.op0.toNat 31 16) (bits h.op0.toNat 63 32) (peerNode s x.entry) s).2)) ∧
    (∀ (k n : Nat), objOk s k = true → (objGet s k).count + n ≤ (objGet s k).ceiling → (objGet s k).queue = [] →
      yzSignalObj k n (peerNode s x.entry) s = (cOk, { bump (reefCnt (k / 48) 0) 1 (objPut k { objGet s k with count := (objGet s k).count + n } s) with
        yzApplied := mmod 0 s.yzApplied k (· + 1) })) ∧
    (fieldsOk 0x08 h data = true → h.op0.toNat = 1 →
      exec (.message o h data) s = .next (emit (.opResult o cOk 0 []) (workMessage o.sid data s))) ∧
    (fieldsOk 0x08 h data = true → h.op0.toNat ≠ 1 →
      exec (.message o h data) s = .next (emit (.opResult o cMessageRefused 0 []) s)) ∧
    (fieldsOk 0x09 h [] = true → exec (.fence o h) s = .next (emit (.opResult o cOk 0 []) s)) ∧
    (fieldsOk 0x0A h [] = true → mlook s.fates h.op0.toNat = none →
      exec (.fate o h) s = .next (emit (.opResult o cOk 0 (fateData 2 [])) (bump (peerCnt x.entry 5) 1 s))) ∧
    (∀ g : Fates, fieldsOk 0x0A h [] = true → mlook s.fates h.op0.toNat = some g → g.entry = x.entry →
      (∀ ops, mlook g.recs h.op1.toNat = some ops → exec (.fate o h) s =
        .next (emit (.opResult o cOk 0 (fateData 1 ops)) (closeByFate o.sid.toNat h.op0.toNat (bump (peerCnt x.entry 5) 1 s)))) ∧
      (mlook g.recs h.op1.toNat = none → g.taken < h.op1.toNat → exec (.fate o h) s =
        .next (emit (.opResult o cOk 0 (fateData 0 [])) (closeByFate o.sid.toNat h.op0.toNat (bump (peerCnt x.entry 5) 1 s))))) ∧
    (∀ f : TxFrame, awaited x h = some f → f.op.fate = none → x.queue = [] →
      let y := { x with unacked := if f.acked then mdel x.unacked h.addr.toNat else mput x.unacked h.addr.toNat { f with answered := true } }
      let c := BitVec.ofNat 16 (bits h.op0.toNat 31 16)
      ∃ t, exec (.result o h data) s = .next (runOpDone f.op.run c (emit (.opDone x.peerSid h.addr.toNat 0 c h.op1) t)) ∧
        mlook t.sessions o.sid.toNat = some { y with queue := [] } ∧ t = { s with sessions := t.sessions })

/-- The timers of sessions (15 R370, R377, R386, R388, R389, R392): an unacknowledged frame goes again with a new nonce and its timer
doubled up to 2 ms; a silent peer is probed; a peer that stays silent has its sessions suspended and its loss recorded; a session is
retried; held fate records go; the two intervals start anew. Links (15 R364-R367, 17 Table 17.1): a configured link of a live port trains and is up; one that goes down has its sessions suspended
and is recorded; a pause frame of class 0's priority pauses the link or lets it go on, and another is counted; solicitations for the link's
own addresses are answered, others counted. A session's send queues (16 R398, R399) grant class 0 before classes 1-3, but for one grant of a
lower class that waits after seven grants of class 0 in a row. -/
def Obligations.SessionTimersAndLinksAct : Prop :=
  (∀ (s : State) (entry : BitVec 10), Quiet s →
      let p := entry.toNat
      (∀ (sid : W32) (seq : BitVec 48) (x : Session) (f : TxFrame), sess? s sid = some x → x.opened = true →
        mlook x.unacked seq.toNat = some f → f.acked = false →
        exec (.retransmitTimeout sid seq) s = .next (bump (peerCnt x.entry 2) 1 (bump (portCnt x.link f.op.tc.toNat) 1
          (emit (.data x.peerSid f.op.tc seq.toNat f.op.body) (sessPut sid.toNat
            { x with nextNonce := x.nextNonce + 1, rto := min 2000 (2 * x.rto),
                     unacked := mput x.unacked seq.toNat { f with resends := f.resends + 1, sentAt := s.time } } s))))) ∧
      (∀ (k : Nat) (x : Session), (openOf s p).head? = some k → mlook s.sessions k = some x →
        exec (.probeTimer entry) s = .next (bump (portCnt x.link 0) 1 (emit (.frame x.link 0x03 x.peerSid []) s))) ∧
      (openOf s p ≠ [] → exec (.peerDown entry) s =
        .next (auditRecovery (faultClass 6) p cPeerDown 0 (bump (peerCnt p 4) 1 (suspendPeer cPeerDown p s)))) ∧
      (∀ (k : Nat) (x : Session) (code : W16), mlook s.sessions k = some x → x.opened = true →
        (suspendSession code k s).sessions =
          mput s.sessions k { x with opened := false, suspendedAt := s.time, queue := [], unacked := [], held := [] }) ∧
      (∀ l : Nat, peerUsable s p = true → bit (peerFlags s p) 2 = true → openOf s p = [] → entryLink s p = some l →
        ∃ body, exec (.sessionRetry entry) s = .next (emit (.frame l 0x10 0 body)
          { s with free := s.free + 3, helloOut := mput s.helloOut p { link := l, body := body, at_ := s.time } })) ∧
      (∃ t, exec (.fateHoldExpired entry) s = .next t ∧
        (∀ f ∈ t.fates, f.2.entry = p → f.2.since.isSome → f.2.recs = []) ∧ (∀ f ∈ t.doubts, f.2.entry ≠ p) ∧
        (openOf s p = [] → ∀ q ∈ t.peerQueue, q.1 ≠ peerNode s p) ∧
        t = { s with fates := t.fates, doubts := t.doubts, peerQueue := t.peerQueue, out := t.out, runs := t.runs }) ∧
      exec .helloIntervalEnd s = .next { s with helloCount := 0 } ∧ exec .quarIntervalEnd s = .next { s with malformed := [] }) ∧
  (∀ (s : State) (link : BitVec 5),
      let l := link.toNat
      (l < 17 → linkMode s l = true → portLost s l = false → nmem s.pwr.ethLost (if l = 0 then 4 else (l - 1) / 4) = false →
        6 ≤ s.boot.stage → exec (.linkUp link) s = .next { s with linksUp := nadd s.linksUp l } ∧ nmem (nadd s.linksUp l) l = true) ∧
      (nmem s.linksUp l = true →
        exec (.fabricLinkDown link) s =
          .next (auditRecovery (faultClass 5) l cOk 0 (suspendLink l { s with linksUp := ndel s.linksUp l, paused := ndel s.paused l })) ∧
        (∀ (priority : BitVec 3) (pause : Bool), priority.toNat ≠ (rget s 0x000D0008).toNat % 8 →
          exec (.pauseFrame link priority pause) s = .next (bump (linkCnt l 1) 1 s)) ∧
        (∀ priority : BitVec 3, priority.toNat = (rget s 0x000D0008).toNat % 8 →
          exec (.pauseFrame link priority true) s = .next { s with paused := nadd s.paused l } ∧
          ((∀ q ∈ s.sessions, q.2.link ≠ l) →
            exec (.pauseFrame link priority false) s = .next { s with paused := ndel s.paused l })) ∧
        (portLost s l = false →
          (∀ target : BitVec 128,
            (target = linkIp6 s l → exec (.neighbourSolicitation link target) s = .next (emit (.neighbour l target) s)) ∧
            (target ≠ linkIp6 s l → exec (.neighbourSolicitation link target) s = .next (bump (linkCnt l 0) 1 s))) ∧
          (∀ target : W32,
            (target = rget s (0x000D1010 + 0x100 * l) → target ≠ 0 → exec (.arpRequest link target) s = .next (emit (.arp l target) s)) ∧
            (target ≠ rget s (0x000D1010 + 0x100 * l) → exec (.arpRequest link target) s = .next (bump (linkCnt l 0) 1 s)))))) ∧
  (∀ (s : State) (x : Session) (o : TxOp), canSend s x 0 = true → headOf 0 x.queue [] = some o →
      (x.arb.row < 7 → ∃ a, arbPick s x = some (0, false, a)) ∧
      (∀ (c : BitVec 2) (e : TxOp), c ≠ 0 → canSend s x c = true → headOf c x.queue [] = some e → 7 ≤ x.arb.row →
        ∃ k a, arbPick s x = some (k, true, a) ∧ 1 ≤ k ∧ k ≤ 3 ∧ a.row = 0))

/-! ## Strait links, losses and resets -/

/-- A flit that reaches its receiver over a working strait link (01 R24, 19 R452, R453, R455): decoded, the next in order is taken and
acknowledged, a repeat is acknowledged alone, an acknowledgement frees what it names; corrected symbols leave a record; a flit that fails
its check is discarded and recorded. One symbol in error of the stored ones is corrected, and one of the address is not. A flit that waits
goes again up to eight times, then its link is lost. -/
def Obligations.StraitFlitsPass : Prop :=
  ∀ (s : State) (link : BitVec 6) (dir : Bool) (lsn : W32) (tc : BitVec 2), Quiet s → straitWorks s link.toNat = true →
    let l := link.toNat
    let q := lsn.toNat
    let h := (flitEnds l dir).2
    (∀ errs : List SymErr,
      let u := flitOut l dir q tc.toNat false s
      (decodeErrs errs = .corrected [] →
        (lsnAhead (dirGet u l dir) q = 0 → exec (.straitFlit link dir lsn tc false errs) s =
          .next (emit (.flitAck l dir lsn) (dirPut l dir { dirGet u l dir with next := (q + 1) % 2 ^ 32 } u))) ∧
        (2 ^ 31 ≤ lsnAhead (dirGet u l dir) q → exec (.straitFlit link dir lsn tc false errs) s = .next (emit (.flitAck l dir lsn) u))) ∧
      (∀ ps, decodeErrs errs = .corrected ps → ps ≠ [] → exec (.straitFlit link dir lsn tc false errs) s =
        .next (flitTaken l dir q false (intRecord h (ceRecord 2 l 3 q ps) (bump (flitCnt h l 0) 1 u)))) ∧
      (decodeErrs errs = .failed → exec (.straitFlit link dir lsn tc false errs) s =
        .next (intRecord h (ueRecord 4 2 l 3 q) (bump (flitCnt h l 1) 1 u)))) ∧
    (∃ t, exec (.straitFlit link dir lsn tc true []) s = .next t ∧ t.straits = (dirPut l (!dir)
      { dirGet s l (!dir) with pending := mdel (dirGet s l (!dir)).pending q } s).straits ∧
      t = { s with straits := t.straits, counters := t.counters }) ∧
    (∀ e : SymErr, e.bits ≠ 0 → e.pos.toNat ≤ 38 →
      decodeErrs [e] = if e.pos.toNat = 32 ∨ e.pos.toNat = 33 then .failed else .corrected [e.pos.toNat]) ∧
    (∀ n, mlook (dirGet s l dir).pending q = some n →
      (n < 8 → exec (.flitResend link dir lsn) s = .next (emit (.flitSent l dir lsn false)
        (dirPut l dir { dirGet s l dir with pending := mput (dirGet s l dir).pending q (n + 1) } s))) ∧
      (8 ≤ n → exec (.flitResend link dir lsn) s = exec (.straitLinkLost link) s)) ∧
    (∃ t, exec (.straitLinkLost link) s = .next t ∧ nmem t.rcv.links l = true ∧ t.rcv.recovering = true ∧
      t.rcv.double = (s.rcv.double || s.rcv.recovering) ∧ (dirGet t l dir).pending = [] ∧
      t = { s with audit := t.audit, boot := t.boot, counters := t.counters, fi := t.fi, free := t.free, out := t.out, rcv := t.rcv,
                   regs := t.regs, straits := t.straits })

/-- The loss of a die (17 R407, R408, R412, R428, R429): its bit of RCV_LOST is set, a recovery runs, a second one at once is a double
fault, and memory and flash stand. A channel with a copy on a lost stack goes on with the other; a harbour's or the cape's links go down;
a lost strait die's links send again what waited. With the table of boot and at most one strait link down, traffic between any two endpoints has
a route whose links all work (01 R20, R21, R23). -/
def Obligations.LossesStartARecovery : Prop :=
  ∀ (s : State), Quiet s →
    let doubled := s.rcv.double || s.rcv.recovering
    (∀ n : BitVec 4, islLost s n.toNat = false → ∀ c, (c = .islandLost n ∨ c = .stackLost n) → ∃ t, exec c s = .next t ∧
      t.rcv.islands = s.rcv.islands ||| (1#16 <<< n.toNat) ∧ t.rcv.recovering = true ∧ t.rcv.double = doubled ∧ t.mem = s.mem ∧
      t.poison = s.poison ∧ t.flash = s.flash ∧ t.sessions = s.sessions ∧ t.wxas = s.wxas ∧
      (∀ i, (chanGet t i).single = (copyLost n.toNat (chanGet s i)).single ∧ (chanGet t i).primary = (copyLost n.toNat (chanGet s i)).primary) ∧
      (∀ p ∈ t.asu, p.1 / 524288 ≠ n.toNat)) ∧
    (∀ d : BitVec 2, straitLost s d.toNat = false → ∃ t, exec (.straitDieLost d) s = .next t ∧
      t.rcv.straits = s.rcv.straits ||| (1#4 <<< d.toNat) ∧ t.rcv.recovering = true ∧ t.rcv.double = doubled ∧ t.mem = s.mem ∧
      t.plt = s.plt ∧ t.sessions = s.sessions ∧ (∀ l < 46, linkDie l = d.toNat → (dirGet t l true).pending = [])) ∧
    (∀ h : BitVec 2, harbourLost s h.toNat = false → ∃ t, exec (.harbourLost h) s = .next t ∧
      t.rcv.harbours = s.rcv.harbours ||| (1#4 <<< h.toNat) ∧ t.rcv.recovering = true ∧ t.rcv.double = doubled ∧ t.mem = s.mem ∧
      t.chans = s.chans ∧ t.plt = s.plt ∧ t.linksUp = (harbourLinks h.toNat).foldl ndel s.linksUp) ∧
    (s.rcv.cape = false → ∃ t, exec .capeLost s = .next t ∧ t.rcv.cape = true ∧ t.rcv.recovering = s.rcv.recovering ∧
      t.rcv.double = doubled ∧ t.mem = s.mem ∧ t.linksUp = ndel s.linksUp 0 ∧ (t.plt.fallbackFor = none ∨ activePlate s = none)) ∧
    (∀ a ∈ endpoints, ∀ b ∈ endpoints, a ≠ b → s.boot.routes = routeTable →
      ∀ (lost : Nat) (addr : Option Nat), (∀ l, straitLinkDown s l = true → l = lost) →
        ∃ ds, routeNow s a b addr = some ds ∧ ∀ l ∈ routeLinks a b ds, straitLinkDown s l = false)

/-- The end of a recovery (17 R412, R431, R432): a channel's new copy is written from the copy that stands; with nothing left to wait for,
RECOVERING clears, DONE sets and RCV_LAST_US holds the duration. STACK_UE_INTERVAL_END starts a stack's count anew with the limit as it
stands (19 R463). Reference clocks (25 R561): an HBM clock takes its four stacks with their islands, a double fault; an Ethernet clock takes the links of its
harbour or the cape down, and its return lets them train. -/
def Obligations.RecoveriesEndAndClocksFail : Prop :=
  (∀ (s : State), s.wire = [] →
      (∀ (chan : BitVec 12) (k : Nat), rebuildAt s (chanGet s chan.toNat) = some k →
        let c := chanGet s chan.toNat
        exec (.mirrorRebuilt chan) s = .next (chanPut chan.toNat { c with mirror := k, single := false }
          (writeMem (hbmKey k (0xFEC000000 + c.ringOff)) (readMem s (hbmKey c.primary (0xFEC000000 + c.ringOff)) (32 * c.slots)) s))) ∧
      (s.rcv.recovering = true → s.plt.fallbackFor = none → s.rcv.frozen = [] → 7 ≤ s.boot.stage → s.rcv.warmPending = false →
        (∀ c ∈ s.chans, rebuildAt s c.2 = none) → mwf 0 s.regs = true →
        ∃ t, exec .recoveryComplete s = .next t ∧ t.rcv = { s.rcv with recovering := false } ∧
          rget t 0x00070010 = BitVec.ofNat 32 (min (s.time - s.rcv.since) 0xFFFFFFFF) ∧ (rget t 0x00070008).getLsbD 5 = true ∧
          t = { s with counters := t.counters, fi := t.fi, lists := t.lists, out := t.out, rcv := t.rcv, regs := t.regs }) ∧
      (∀ stack : BitVec 4, exec (.stackUeIntervalEnd stack) s = .next { s with
        ueCount := mset 0 s.ueCount stack.toNat 0, ueLimit := mset 256 s.ueLimit stack.toNat (rget s 0x0009000C).toNat })) ∧
  (∀ (s : State), Quiet s →
      (∀ k : BitVec 2, ∃ t, exec (.hbmClockLost k) s = .next t ∧ (∀ j < 4, islLost t (4 * k.toNat + j) = true) ∧ t.rcv.double = true ∧
        t.mem = s.mem ∧ t.sessions = s.sessions) ∧
      (∀ k : BitVec 3, k.toNat ≤ 4 → nmem s.pwr.ethLost k.toNat = false → ∃ t, exec (.ethClockLost k) s = .next t ∧
        nmem t.pwr.ethLost k.toNat = true ∧
        t.linksUp = ((if k.toNat = 4 then [0] else harbourLinks k.toNat).filter (nmem s.linksUp)).foldl ndel s.linksUp ∧
        t.rcv = s.rcv ∧ t.mem = s.mem ∧ t.chans = s.chans) ∧
      (∀ k : BitVec 3, exec (.ethClockReturn k) s = .next { s with pwr := { s.pwr with ethLost := ndel s.pwr.ethLost k.toNat } }))

/-- The four levels of RCV_CMD (17 R430, R431) on a valid target, by the role of each, and the WARM_N pin (25 R558), which starts the fourth
or waits. Each starts a recovery; an island's WXAs, a port's links and, at the fourth level, the sessions and the boot stage start anew; memory, flash and
plates stand. -/
def Obligations.WarmResetsRestart : Prop :=
  (∀ (s : State) (sid : W32),
    (OpenAs s sid .operator → rcvCheck s 1 = cOk →
      exec (.channelReset sid) s = .next (pairAfter sid (rcvReset 1 sid (pairBefore 0x00070004 1 sid s)))) ∧
    (OpenAs s sid .installer →
      (rcvCheck s 2 = cOk → exec (.islandReset sid) s = .next (pairAfter sid (rcvReset 2 sid (pairBefore 0x00070004 2 sid s)))) ∧
      (rcvCheck s 3 = cOk → exec (.portReset sid) s = .next (pairAfter sid (rcvReset 3 sid (pairBefore 0x00070004 3 sid s)))) ∧
      (rcvCheck s 4 = cOk → exec (.deviceReset sid) s = .next (pairAfter sid (deviceWarm sid (pairBefore 0x00070004 4 sid s))))) ∧
    (s.pins.porN = true → s.pwr.tripped = false →
      (s.rcv.served = true → s.rcv.recovering = false → 7 ≤ s.boot.stage → exec .warmN s = .next (settle (deviceWarm 0 s))) ∧
      (s.wire = [] → (s.rcv.served = false ∨ s.rcv.recovering = true ∨ s.boot.stage < 7) →
        exec .warmN s = .next { s with rcv := { s.rcv with warmPending := true } }))) ∧
  (∀ (u : State) (sid : W32) (level : Nat), let t := rcvReset level sid u
    t.rcv.recovering = true ∧ t.rcv.double = (u.rcv.double || u.rcv.recovering) ∧ t.rcv.islands = u.rcv.islands ∧ t.mem = u.mem ∧
      t.plt = u.plt ∧ t.flash = u.flash ∧ t.boot.stage = u.boot.stage ∧
      (level = 2 → ∀ p ∈ t.wxas, p.1 / 128 ≠ rcvTarget u ∨ 2048 ≤ p.1) ∧
      (level = 3 → t.linksUp = ((portLinks u (rcvTarget u)).getD []).foldl ndel u.linksUp)) ∧
  (∀ (u : State) (sid : W32), let t := deviceWarm sid u
    t.rcv.recovering = true ∧ t.rcv.warmPending = false ∧ t.boot.stage = 3 ∧ t.sessions = [] ∧ t.isl = [] ∧ t.straits = [] ∧
      t.linksUp = (List.range 17).foldl ndel u.linksUp ∧ (∀ p ∈ t.wxas, 2048 ≤ p.1) ∧ t.mem = u.mem ∧ t.poison = u.poison ∧
      t.plt = u.plt ∧ t.flash = u.flash)

/-- Cold restarts (25 R557, R558, R565, R566; 17 R433): POR_N low for 100 us or more leaves flash and fuses, and all else as after power-up; a
shorter pulse does so or nothing; its release starts the boot; a supply that fails does the same with the supplies out; POWER_UP brings domains 78 and
79. The audit chain goes on from the last record in flash. -/
def Obligations.ColdRestartsKeepFlashAndFuses : Prop :=
  ∀ (s : State),
    (∀ us : Nat, (100 ≤ us → exec (.porNAssert us) s = .next (coldState s)) ∧
      (us < 100 → exec (.porNAssert us) s = .next { s with free := s.free + 1 } ∨
        exec (.porNAssert us) s = .next (coldState { s with free := s.free + 1 }))) ∧
    (let t := coldState s
     t.flash = s.flash ∧ t.fuses = s.fuses ∧ t.out = s.out ∧ t.pins.porN = false ∧ t.boot.stage = 1 ∧ t.mem = [] ∧ t.sessions = [] ∧ t.chans = [] ∧
       t.regs = State.reset.regs ∧ t.counters = [] ∧ t.plt = State.reset.plt ∧ t.rcv = State.reset.rcv ∧ t.audit.count = 0 ∧
       t.audit.head = s.audit.lastChain ∧ t.audit.ring = [] ∧ t.audit.unlocked = false ∧ t.time = 0) ∧
    (s.pins.porN = false → s.pins.supplies = true → exec .porNRelease s = .next { s with pins := { s.pins with porN := true } }) ∧
    (s.pins.supplies = true → ∃ t, exec .powerLoss s = .next t ∧ t.flash = s.flash ∧ t.fuses = s.fuses ∧ t.pins.supplies = false ∧ t.mem = [] ∧
      t.sessions = [] ∧ t.pwr.state = 0 ∧ t.boot.stage = 1) ∧
    (s.pins.porN = false → s.pins.supplies = false → ∃ t, exec .powerUp s = .next t ∧ t.pins = { s.pins with supplies := true } ∧
      t.pwr = { s.pwr with state := s.pwr.state ||| (3#80 <<< 78) } ∧ t = { s with pins := t.pins, pwr := t.pwr })

/-! ## Boot and service -/

/-- The boot's stages 1 to 4 (23 R523-R528, R531, R532): the ROM derives the identity; a firmware image that passes runs from the slot that boot
control chooses, else from the other, and with neither the device is stuck at stage 2; training of a cold boot loses what fails and clears the
device's own areas; that of a warm reset clears nothing; strait training writes the route table (01 R21). -/
def Obligations.BootReachesStageFive : Prop :=
  ∀ (s : State), s.wire = [] →
    (bootWorks s 1 = true → ∃ t, exec .bootRom s = .next t ∧ t.boot = { s.boot with stage := 2, m0 := Config.romDigest, identity := sha3 (ownKey s) } ∧
      t = { s with boot := t.boot, pwr := t.pwr }) ∧
    (bootWorks s 2 = true → s.boot.stuck = false → ∀ sigA sigB listSig pendingSig : Bool,
      let c := fwChoice (bootCtl s)
      let u := if (bootCtl s).trial then bootCtlSet c s else s
      let ok := fun (b : Bool) => fwOk s (fwImage s b) (if b then sigB else sigA)
      (ok c.slotB = true → exec (.bootFirmware sigA sigB listSig pendingSig) s = .next (firmwareRuns c.slotB c.trial listSig pendingSig u)) ∧
      (ok c.slotB = false → ok (!c.slotB) = true →
        exec (.bootFirmware sigA sigB listSig pendingSig) s = .next (firmwareRuns (!c.slotB) false listSig pendingSig u)) ∧
      (ok c.slotB = false → ok (!c.slotB) = false → ∃ t, exec (.bootFirmware sigA sigB listSig pendingSig) s = .next t ∧ t.boot.stuck = true ∧
        t.boot.stage = 2 ∧ (s.pins.porN = true → alertN t = true)) ∧
      (∀ slot trial v, (firmwareRuns slot trial listSig pendingSig v).boot.stage = 3 ∧
        (firmwareRuns slot trial listSig pendingSig v).boot.slot = some slot.toNat)) ∧
    (bootWorks s 3 = true → ∀ failed : W16,
      (s.rcv.served = false → ∃ t, exec (.hbmTraining failed) s = .next t ∧ t.boot.stage = 4 ∧ t.rcv.islands = s.rcv.islands ||| failed ∧
        t.mem = s.mem.filter (fun p => !ownArea p.1) ∧ t.chans = s.chans ∧ t.plt = s.plt) ∧
      (s.rcv.served = true → exec (.hbmTraining 0) s = .next (toStage 4 s))) ∧
    (bootWorks s 4 = true → ∀ failed harbours : BitVec 4,
      (s.rcv.served = false → ∃ t, exec (.straitTraining failed harbours) s = .next t ∧ t.boot.stage = 5 ∧ t.straits = [] ∧
        t.boot.routes = routeTable ∧ t.rcv.straits = s.rcv.straits ||| failed ∧ t.rcv.harbours = s.rcv.harbours ||| harbours ∧
        t.mem = s.mem) ∧
      (s.rcv.served = true → exec (.straitTraining 0 0) s =
        .next (toStage 5 { s with straits := [], boot := { s.boot with routes := routeTable } }))) ∧
    (∀ n v, (toStage n v).boot.stage = n ∧ (toStage n v).mem = v.mem ∧ (toStage n v).rcv = v.rcv)

/-- The boot's stages 5 to 8 (23 R529-R531): the newest valid configuration is loaded, else the bootstrap settings; configured links of live
ports come up; the first entry to stage 7 starts service with the audit records of the boot, a warm reset ends at stage 9 or 7; the marked boot
plate begins to load. -/
def Obligations.BootReachesService : Prop :=
  ∀ (s : State), s.wire = [] →
    (bootWorks s 5 = true → ∀ (failed : W16) (sigA sigB : Bool),
      let bad := (List.range 16).filter (bit failed.toNat)
      let u := domainsOff (bad.flatMap (fun i => [4 * i, 4 * i + 1, 4 * i + 2, 4 * i + 3]))
        { s with rcv := { s.rcv with islands := s.rcv.islands ||| failed } }
      (s.rcv.served = false →
        (cfgNewest u sigA sigB = none → exec (.islandBringup failed sigA sigB) s = .next (settle (toStage 6 (bootstrap u)))) ∧
        (∀ c, cfgNewest u sigA sigB = some c → exec (.islandBringup failed sigA sigB) s = .next (settle (toStage 6 (cfgLoad (cfgRead u c)
          { u with boot := { u.boot with m3 := sha3 ((cfgRead u c).take (cfgLen (cfgRead u c) - 4096)), bootSlot := u8At (cfgRead u c) 0x12 } }))))) ∧
      (s.rcv.served = true → exec (.islandBringup 0 sigA sigB) s = .next (toStage 6 s))) ∧
    (bootWorks s 6 = true → ∀ up : BitVec 17, exec (.ethernetLinkup up) s = .next { s with
      linksUp := ((List.range 17).filter (fun l => bit up.toNat l && linkMode s l && !portLost s l &&
        !nmem s.pwr.ethLost (if l = 0 then 4 else (l - 1) / 4))).foldl nadd s.linksUp }) ∧
    (bootWorks s 6 = true →
      (s.rcv.served = false → s.rcv.warmPending = false → ∃ t, exec .readyNoPlate s = .next t ∧ t.boot.stage = 7 ∧
        t.rcv = { s.rcv with served := true } ∧ t.boot.heldRecs = [] ∧ t.audit.bootIndex = s.audit.count ∧ s.audit.count < t.audit.count ∧
        t.mem = s.mem ∧ t.chans = s.chans ∧ t.sessions = s.sessions) ∧
      (s.rcv.served = true → exec .readyNoPlate s =
        .next (replayChans (s.rcv.frozen.map (·.1)) (toStage (if s.plt.active = .empty then 7 else 9) s)))) ∧
    (bootWorks s 7 = true → s.boot.bootSlot ≠ 255 → s.plt.standby = .empty → s.plt.active = .empty → ∃ t, exec .bootPlateLoad s = .next t ∧
      t.boot.stage = 8 ∧ t.boot.bootSlot = 255 ∧ t.plt.standby = .loading ∧ t.plt.bootLoad = true ∧
      t.plt.load = some { cmd := 8, sid := 0, bytes := flashPlate s s.boot.bootSlot } ∧ t = { s with boot := t.boot, plt := t.plt, pwr := t.pwr })

/-- Service requests (23 R535, R536): the write of a request puts it in the queue; the one at the head that passes its checks has its effect, and
its response ends with OUTCOME 0; one whose role may not ask ends with OUTCOME 1, and a failed flash with 6. -/
def Obligations.ServiceRequestsAreServed : Prop :=
  (∀ (s : State) (sid : W32) (x : Session) (addr : W64) (req : List Byte), s.wire = [] →
    MemReady 0x02 { sid := sid, seq := 0, idx := 0 } (writeHdr addr req.length) req s x → isRequest x (localOf addr) req.length = true →
    ∃ t, exec (.serviceRequest sid addr req) s = .next (emit (.writeStatus sid cOk) t) ∧ t.svc = s.svc ++ [svcReqOf sid (sessSlot x) req] ∧
      t = { s with mem := t.mem, poison := t.poison, svc := t.svc }) ∧
  (∀ (s : State) (r : SvcReq), s.svc.head? = some r → s.rcv.cape = false → 7 ≤ s.boot.stage →
    let b := bufBytes s r
    let good := fun (n : Nat) => ({ outcome := 0, code := 0, bytes := n } : SvcEnd)
    (r.op = 1 → roleOf s r.sid ≠ .none → svcFields r 32 0x1000000 255 = true → r.flashOff.toNat + r.len ≤ flashBytes → bufCheck s r 0x02 = cOk →
      exec (.readFlash true) s =
        .next (svcFinish r (good r.len) (writeMem (localOf r.addr) (fread s r.flashOff.toNat r.len) (auditService r s))) ∧
      exec (.readFlash false) s = .next (svcFinish r (.of 6) s)) ∧
    (r.op = 2 → roleOf s r.sid = .installer → svcFields r 1 0x10000000 15 = true → bufCheck s r 0x01 = cOk →
      plateChecks s (b.take (plateLen b)) true = cOk → ∀ a, firstFit s r.arg (b.take (plateLen b)).length = some a →
      exec (.writePlate true true) s = .next (svcFinish r (good (b.take (plateLen b)).length)
        (dirSet r.arg a (b.take (plateLen b)).length (contentDigest (b.take (plateLen b)))
          (fwrite a (b.take (plateLen b)) (dirSet r.arg 0 0 0 (auditService r s)))))) ∧
    (r.op = 3 → roleOf s r.sid = .installer → svcFields r 0 0 15 = true →
      exec (.erasePlate true) s = .next (svcFinish r (good 0) (dirSet r.arg 0 0 0 (auditService r s)))) ∧
    (r.op = 4 → roleOf s r.sid = .installer → svcFields r 1 0x400000 255 = true → bufCheck s r 0x01 = cOk → cfgOk s b true = true →
      exec (.writeConfig true true) s =
        .next (svcFinish r (good (cfgLen b)) (fwrite (cfgArea (cfgOlder s)) (b.take (cfgLen b)) (auditService r s)))) ∧
    (r.op = 5 → (roleOf s r.sid = .installer ∨ roleOf s r.sid = .maker) → svcFields r 8192 8192 255 = true → bufCheck s r 0x01 = cOk →
      newListOk s b true s.boot.roleSeq s.boot.roles = true →
      let u := fwrite pendingArea (List.replicate 8192 0xFF) (fwrite roleArea b (auditRoleChange 1 (listSeq b) cOk r.sid s))
      exec (.writeRoleList true true) s = .next (svcFinish r (good 8192)
        (rederiveRoles { u with boot := { u.boot with roleSeq := listSeq b, roles := listRoles b } }))) ∧
    (r.op = 6 → roleOf s r.sid = .maker → svcFields r 1 0x1000000 255 = true → bufCheck s r 0x01 = cOk → fwOk s b true = true →
      let slotB := decide (s.boot.slot ≠ some 1)
      exec (.writeFirmware true true) s = .next (svcFinish r (good (fwLen b)) (bootCtlSet { slotB := slotB, trial := true, tries := 0 }
        (fwrite (fwSlot slotB) (b.take (fwLen b)) (auditRoleChange 3 s.boot.roleSeq cOk r.sid s))))) ∧
    (r.op = 3 → roleOf s r.sid ≠ .installer → exec (.erasePlate true) s =
      .next (svcFinish r { outcome := 1, code := cRoleRefused, bytes := 0 } (auditSvcRefused r s))) ∧
    (∀ e u, (svcFinish r e u).svc = u.svc.drop 1 ∧ (svcFinish r e u).flash = u.flash))

/-! ## Registers -/

/-- Register accesses (20 R470-R479): a plain register takes its RW bits and loses its W1C bits where the value has ones, and no other register but
the audit command changes; a register of read-only fields discards a write; a read answers the register's value; an alias write changes one RW bit; a
write of a counter sets it, its low half alone or whole; a read of its low half captures the high half. -/
def Obligations.RegistersReadAndWrite : Prop :=
  ∀ (s : State) (sid : W32) (x : Session) (addr : W64) (off : Nat), mwf 0 s.regs = true →
    (RegAccess s sid x addr (regRegion + off) →
      (∀ (w : RegWord) (v : W32), PlainReg s x.role off w v.toNat → ∃ t,
        exec (.registerWrite sid addr (leBytes 4 v.toNat)) s = .next (emit (.writeStatus sid cOk) t) ∧
        rget t off = mergeWord (rget s off) (roleBits w x.role).1 (roleBits w x.role).2 (clampWord off v.toNat) ∧
        (∀ k, k ≠ off → k ≠ 0x00040010 → rget t k = rget s k) ∧ t.mem = s.mem ∧ t.chans = s.chans ∧ t.plt = s.plt) ∧
      (∀ v : W32, regAt off = some {} → wordCheck s off v.toNat = cOk → exec (.registerWrite sid addr (leBytes 4 v.toNat)) s =
        .next (emit (.writeStatus sid cOk) (written sid s))) ∧
      (∀ (w : RegWord) (o : OpRef) (h : OpHdr), o.sid = sid → h = writeHdr addr 4 → regAt off = some w → pairRead s off = none →
        exec (.yzRead o h) s = .next (emit (.opResult o cOk 0 (leBytes 4 (regRead (accessTick sid s) sid off).toNat)) (accessTick sid s))) ∧
      (∀ i, regAt off ≠ none → counterWord off = some (i, false) → windowOff s off = false →
        exec (.counterLowRead sid addr) s = .next (emit (.readData sid cOk (leBytes 4 (BitVec.ofNat 32 (wordOf (cnt s i) 0)).toNat))
          { s with hiCaps := mput (mdel s.hiCaps sid.toNat) sid.toNat { off := off + 4, v := BitVec.ofNat 32 (wordOf (cnt s i) 1) } }) ∧
        (x.role = .operator →
          (∀ v : W32, exec (.counterWrite sid addr (leBytes 4 v.toNat)) s = .next (emit (.writeStatus sid cOk)
            { written sid s with counters := mset 0 s.counters i (BitVec.ofNat 64 v.toNat) })) ∧
          (∀ v : W64, exec (.counterWrite sid addr (leBytes 8 v.toNat)) s = .next (emit (.writeStatus sid cOk)
            { written sid s with counters := mset 0 s.counters i v }))))) ∧
    (∀ (rel b : Nat) (d : Bool) (w : RegWord), RegAccess s sid x addr (aliasRegion + rel) → aliasOf rel = (off, b) → rel % 4 = 0 →
      let old := (rget s off).toNat
      let new := old - bits old b b * 2 ^ b + d.toNat * 2 ^ b
      PlainReg s x.role off w new → bit w.rw b = true → bit w.w1c b = false → bit w.w1s b = false → bit w.wo b = false → ∃ t,
        exec (.aliasWrite sid addr (leBytes 4 d.toNat)) s = .next (emit (.writeStatus sid cOk) t) ∧
        rget t off = mergeWord (rget s off) (roleBits { w with w1c := 0 } x.role).1 (roleBits { w with w1c := 0 } x.role).2 (clampWord off new) ∧
        ∀ k, k ≠ off → k ≠ 0x00040010 → rget t k = rget s k)

/-- Guarded pairs (20 R480-R482): the value half is kept for 64 accesses with no effect; a second value half, or a complement that does not match,
fails and uses the value up; the matching complement is the pair, which takes the role and block checks and has its effect; a value whose accesses have
passed fails. A plain guarded register takes the value, whose write is recorded. -/
def Obligations.GuardedPairsTakeBothHalves : Prop :=
  ∀ (s : State) (sid : W32) (x : Session) (addr : W64) (off : Nat) (w : RegWord), regAt off = some w → w.grd ≠ 0 →
    sess? s sid = some x → x.opened = true → x.role ≠ .none → nodeLocal s addr = true → s.wire = [] → mlook s.hiCaps sid.toNat = none →
    (localOf addr = regRegion + off → mlook s.guards sid.toNat = none → ∀ v : W32,
      exec (.guardValueHalf sid addr v) s = .next (emit (.writeStatus sid cOk)
        { written sid s with guards := mput s.guards sid.toNat { off := off, v := v, left := 64 } })) ∧
    (∀ (g : Guard) (v : W32), mlook s.guards sid.toNat = some g →
      let u := { accessTick sid { s with free := s.free + 1 } with guards := mdel (accessTick sid s).guards sid.toNat }
      (localOf addr = regRegion + off → mlook u.guards sid.toNat = none → exec (.guardValueHalf sid addr v) s =
        .next (settle (emit (.writeStatus sid cGuardFail) (regRefuse cGuardFail sid (regRegion + off) u)))) ∧
      (localOf addr = regRegion + off + 0x8000 → mlook u.guards sid.toNat = none →
        (g.off = off → v = ~~~g.v →
          let r := pairDone off w g.v.toNat sid u
          exec (.guardComplementHalf sid addr v) s = .next (settle (emit (.writeStatus sid r.1)
            (accessEnd sid (regRefuse r.1 sid (regRegion + off + 0x8000) r.2))))) ∧
        ((g.off ≠ off ∨ v ≠ ~~~g.v) → exec (.guardComplementHalf sid addr v) s =
          .next (settle (emit (.writeStatus sid cGuardFail) (regRefuse cGuardFail sid (regRegion + off + 0x8000) u))))) ∧
      exec (.guardPairExpired sid) s = .next (regRefuse cGuardFail sid (regRegion + g.off) { s with guards := mdel s.guards sid.toNat })) ∧
    (∀ (v : Nat) (u : State), mayWrite (roleOf u sid) w v = true → (∀ o ∈ [0x00030004, 0x00070004, 0x00080400, 0x000A0000], off ≠ o) →
      isPeerWord off = false → ¬ (0x00050000 ≤ off ∧ off ≤ 0x00050008) → w.right = .installer →
      pairDone off w v sid u = (cOk, rset off (BitVec.ofNat 32 (clampWord off (v &&& w.grd))) (auditWrite (regRegion + off) v 1 cOk sid u)))

/-! ## The snapshot and the audit log -/

/-- CAPTURE, its markers and its end (20 R487-R489): the cape takes its cut first; a die that a marker reaches copies each of its counters to
the bank of the capture; when every live die has, SNAP_SEQ advances and the banks stand. CHECKPOINT and FLUSH write the records they ask for,
and FLUSH_DONE moves the flushed records to flash (22 R516-R518). DEBUG_UNLOCK is a maker's (22 R512). -/
def Obligations.SnapshotAndAuditCommandsAct : Prop :=
  ∀ (s : State),
    (∀ (sid : W32) (x : Session), sess? s sid = some x → x.opened = true → x.role ≠ .none →
      (s.snap.busy = false → exec (.capture sid) s = .next (cmdAfter sid (snapStart (accessTick sid s))) ∧
        (snapStart (accessTick sid s)).snap.busy = true ∧ (snapStart (accessTick sid s)).snap.seq = s.snap.seq) ∧
      (s.rcv.cape = false →
        (∃ t, exec (.checkpoint sid) s = .next (cmdAfter sid t) ∧ t = auditCmd 1 (accessTick sid s) ∧ s.audit.count < t.audit.count ∧
          s.audit.ring <+: t.audit.ring ∧ s.audit.checkpoints.length < t.audit.checkpoints.length) ∧
        (s.audit.busy = false → ∃ t, exec (.flush sid) s = .next (cmdAfter sid t) ∧ t = auditCmd 2 (accessTick sid s) ∧ t.audit.busy = true ∧
          s.audit.ring.length < t.audit.flushing) ∧
        (s.audit.busy = true → ∃ t, exec (.flush sid) s = .next (cmdAfter sid t) ∧ t.audit = { s.audit with again := true }) ∧
        (x.role = .maker → ∃ t, exec (.debugUnlock sid) s = .next (emit (.writeStatus sid cOk) t) ∧ t.audit.unlocked = true) ∧
        (x.role ≠ .maker → exec (.debugUnlock sid) s = .next (emit (.writeStatus sid cRoleRefused) (auditRefused sid 0 0 s))))) ∧
    (∀ die : BitVec 5, s.snap.busy = true → die.toNat < 25 → nmem s.snap.cut die.toNat = false → dieLost s die.toNat = false →
      ∃ t, exec (.snapshotMarker die) s = .next (emit (.marker die.toNat (s.snap.seq + 1)) t) ∧ nmem t.snap.cut die.toNat = true ∧
        (mwf 0 s.counters = true → ∀ i, counterDie i = die.toNat → bankPair t (decide (s.snap.seq % 2 = 1)) i = (cutValue s i).toNat) ∧
        (∀ i, counterDie i ≠ die.toNat → bankPair t (decide (s.snap.seq % 2 = 1)) i = bankPair s (decide (s.snap.seq % 2 = 1)) i) ∧
        t = { s with snap := t.snap }) ∧
    (s.snap.busy = true → (∀ d < 25, dieLost s d = true ∨ nmem s.snap.cut d = true) → ∃ t, exec .snapshotComplete s = .next t ∧
      t.snap.seq = (s.snap.seq + 1) % 2 ^ 31 ∧ t.snap.busy = false ∧ t.snap.cut = [] ∧ t = { s with snap := t.snap }) ∧
    (s.audit.busy = true → s.rcv.cape = false → s.audit.again = false → ∃ t, exec .flushDone s = .next t ∧
      t.audit.ring = s.audit.ring.drop s.audit.flushing ∧ t.audit.busy = false ∧ t.audit.count = s.audit.count ∧ t.audit.head = s.audit.head ∧
      (∀ a, (a < 0x03000000 ∨ 0x07000000 ≤ a) → fget t a = fget s a) ∧ t = { s with flash := t.flash, audit := t.audit, regs := t.regs })

/-! ## Power, fault injection, peers, scrub, pins -/

/-- PWR_SWITCH of an installer sets a word of requests and domains begin to switch (24 R538-R541); a domain that has switched goes the other way, and a
lagoon that wakes reads zero with no poison; samples set temperatures and power; a die at TRIP_C trips every rail to its lowest step (R553); an ms
above 3.6 kW steps every island's rail down (R552). -/
def Obligations.PowerFollowsItsRequests : Prop :=
  ∀ (s : State), s.wire = [] →
    (∀ (sid : W32) (word : BitVec 2) (v : W32), OpenAs s sid .installer → word.toNat < 3 →
      exec (.pwrSwitch sid word v) s = .next (pairAfter sid (pwrTrack (rset (0x00050000 + 4 * word.toNat)
        (if word.toNat = 2 then v &&& 0xFFFF#32 else v) (pairBefore (0x00050000 + 4 * word.toNat) v.toNat sid s))))) ∧
    (∀ d : BitVec 7, nmem s.pwr.switching d.toNat = true → d.toNat < 80 → ∃ t, exec (.domainSwitchDone d) s = .next t ∧
      t.pwr.state = s.pwr.state ^^^ (1#80 <<< d.toNat) ∧ t.regs = s.regs ∧ t.chans = s.chans ∧
      (d.toNat < 64 → d.toNat % 4 = 2 → s.pwr.state.getLsbD d.toNat = false → ∀ o < 0x10000000,
        kget t (lagKey (d.toNat / 4) o) = 0 ∧ nmem t.poison (lagKey (d.toNat / 4) o) = false) ∧
      (¬ (d.toNat < 64 ∧ d.toNat % 4 = 2) → t.mem = s.mem ∧ t.poison = s.poison)) ∧
    (s.pins.porN = true → s.pins.supplies = true → s.rcv.cape = false →
      (∀ temps : List Byte, ∃ t, exec (.thermalSample temps 0) s = .next t ∧
        (∀ k ∈ dieCodes, ∀ b, temps[k]? = some b → b ≠ 0 → codeLost s k = false → tempOf t k = b) ∧
        ((∃ k ∈ dieCodes, codeLost s k = false ∧ limitC s 2 ≤ (tempOf t k).toInt) → t.pwr.tripped = true) ∧
        (s.pwr.tripped = false → t.pwr.tripped = true → ∀ k < 25, (railGet t k).mv = 620) ∧
        (s.pwr.tripped = true → t.pwr.tripped = true) ∧ t.mem = s.mem ∧ t.rcv = s.rcv) ∧
      (∀ watts : W16, ∃ t, exec (.powerSample watts) s = .next t ∧ t.pwr.watts = watts.toNat ∧ t = { s with pwr := t.pwr } ∧
        (watts.toNat ≤ 3600 → t.pwr.overSince = none) ∧
        (∀ t0, 3600 < watts.toNat → s.pwr.overSince = some t0 → t0 + 1000 ≤ s.time → ∀ i < 16, islLost s i = false → 620 < (railGet s i).mv →
          (railGet t i).mv = stepDown (railGet s i).mv))) ∧
    stepDown 750 = 680 ∧ stepDown 680 = 620 ∧ stepUp 620 = 680 ∧ stepUp 680 = 750

/-- FI_ENABLE and FI_DISABLE of a slot (18 R442-R444): its checks pass and it is ACTIVE with its seed, or OFF with what it held released; a held
item whose time is over goes on. YZ_PEER_COMMIT and YZ_WIN_COMMIT put an entry or window into force with its commit word in one step (15 R390, 21
R503). -/
def Obligations.SlotsAndPeersTakeTheirWords : Prop :=
  ∀ (s : State) (sid : W32) (x : Session), sess? s sid = some x → x.opened = true →
    (∀ slot : BitVec 3, (x.role = .installer ∨ x.role = .maker) →
      let k := slot.toNat
      ((rget s 0x00080400).getLsbD k = false → fiEnableCode s x.role k = cOk →
        let v := (rget s 0x00080400 ||| (1#32 <<< k)).toNat
        exec (.fiEnable sid slot) s = .next (pairAfter sid (fiOn k sid (pairBefore 0x00080400 v sid s))) ∧
        (s.rcv.recovering = false → (fiGet (fiOn k sid (pairBefore 0x00080400 v sid s)) k).state = .active) ∧
        (s.rcv.recovering = true → (fiGet (fiOn k sid (pairBefore 0x00080400 v sid s)) k).state = .suspended)) ∧
      ((rget s 0x00080400).getLsbD k = true →
        let v := (rget s 0x00080400 &&& ~~~(1#32 <<< k)).toNat
        exec (.fiDisable sid slot) s = .next (pairAfter sid (fiOff k sid (pairBefore 0x00080400 v sid s))) ∧
        (fiGet (fiOff k sid (pairBefore 0x00080400 v sid s)) k).state = .off)) ∧
    (∀ (slot : BitVec 3) (l : Nat) (o : Out), s.wire = [] → (fiGet s slot.toNat).held = some (.out l o) →
      (∀ j < 8, slot.toNat < j → (fiGet s j).state ≠ .active ∧ (fiGet s j).held = none) →
      exec (.fiHoldTimeout slot) s = .next (emit o (fiPut slot.toNat { fiGet s slot.toNat with held := none, passed := 0 } s))) ∧
    (x.role = .installer →
      (∀ (entry : BitVec 10) (v : W32), exec (.yzPeerCommit sid entry v) s = .next (pairAfter sid
        (shadowCommit (peerBase entry.toNat + 0x20) (v &&& 0x7FFFF#32).toNat (pairBefore (peerBase entry.toNat + 0x20) v.toNat sid s)))) ∧
      (∀ (entry : BitVec 10) (win : BitVec 6) (v : W32),
        let off := peerBase entry.toNat + 0x1000 + 0x20 * win.toNat + 0x10
        exec (.yzWinCommit sid entry win v) s = .next (pairAfter sid
          (shadowCommit off (v &&& 0xFFF#32).toNat (pairBefore off v.toNat sid s))))) ∧
    (∀ (off v : Nat) (u : State), mwf 0 u.regs = true → isPeerWord off = true →
      let b := (shadowOf off).1
      let t := shadowCommit off v u
      rget t (shadowOf off).2.2 = BitVec.ofNat 32 v ∧
      ∀ k < (shadowOf off).2.1, b + 4 * k ≠ (shadowOf off).2.2 →
        rget t (b + 4 * k) = if mget 0 u.shadow (b + 4 * k) = 0 then rget u (b + 4 * k) else BitVec.ofNat 32 (mget 0 u.shadow (b + 4 * k) - 1))

/-- A scrubbed codeword (19 R459-R463): one that is clean only moves the scrubber on; one with correctable symbols is counted and recorded once in a
pass; one that cannot be corrected is counted and recorded, and poisoned where no good copy stands. One that decoding takes for another
codeword keeps its wrong symbols (Table 19.2). -/
def Obligations.ScrubRecordsAndPoisons : Prop :=
  ∀ (s : State), s.wire = [] →
    (∀ (stack : BitVec 4) (codeword : BitVec 30) (errs : List SymErr),
      let k := stack.toNat
      let key := hbmKey k (64 * codeword.toNat)
      islLost s k = false → (rget s 0x00090000).getLsbD 0 = false → 4 ≤ s.boot.stage → nmem s.poison key = false →
      mget 0 s.ueCount k + 1 < mget 256 s.ueLimit k → codeword.toNat + 1 < 2 ^ 30 →
      let on := fun (t : State) => { t with scrub := mset 0 t.scrub k (codeword.toNat + 1) }
      let wrong := keepWrong (fun j => key + 2 * j) errs s
      ((errorPlaces errs).length ≤ 3 → wrong = s) ∧
      (decodeErrs errs = .corrected [] → exec (.hbmScrub stack codeword errs) s = .next (on wrong)) ∧
      (∀ ps, decodeErrs errs = .corrected ps → ps ≠ [] → exec (.hbmScrub stack codeword errs) s =
        .next (on (ceOnce key k (ceRecord 0 k 1 key ps) (bump (islCnt k 3) 1 (bump (islCnt k 0) 1 wrong))))) ∧
      (decodeErrs errs = .failed → ∃ t, exec (.hbmScrub stack codeword errs) s = .next t ∧
        mget 0 t.ueCount k = mget 0 s.ueCount k + 1 ∧ t.mem = s.mem ∧
        (otherCopy s k (64 * codeword.toNat) = none → sheetImage s k (64 * codeword.toNat) = false → nmem t.poison key = true) ∧
        (sheetImage s k (64 * codeword.toNat) = true → t.poison = s.poison) ∧
        (∀ j, otherCopy s k (64 * codeword.toNat) = some j → islLost s j = false → nmem s.poison (hbmKey j (64 * codeword.toNat)) = false →
          t.poison = s.poison))) ∧
    (∀ (island : BitVec 4) (line : BitVec 22) (errs : List SymErr),
      let i := island.toNat
      let r := line.toNat / 393216
      let key := lagKey i (r * 0x01800000 + line.toNat % 393216 / 32 * 2048 + line.toNat % 32 * 32)
      islLost s i = false → lagoonOn s i = true → (rget s 0x00090000).getLsbD 1 = false → line.toNat + 1 < lagoonWords →
      (nmem s.poison key = false ∨ nmem s.poison (key + 1024) = false) →
      let on := fun (t : State) => { t with scrub := mset 0 t.scrub (16 + i) (line.toNat + 1) }
      let wrong := keepWrong (lagSymbol key) errs s
      (decodeErrs errs = .corrected [] → exec (.lagoonScrub island line errs) s = .next (on wrong)) ∧
      (∀ ps, decodeErrs errs = .corrected ps → ps ≠ [] → exec (.lagoonScrub island line errs) s =
        .next (on (ceOnce key i (ceRecord 1 (8 * i + r) 1 key ps)
          (bump (reefCnt (8 * i + r) 93) 1 (bump (reefCnt (8 * i + r) 90) 1 wrong))))) ∧
      (decodeErrs errs = .failed → ∃ t, exec (.lagoonScrub island line errs) s = .next t ∧ nmem t.poison key = true ∧
        nmem t.poison (key + 1024) = true ∧ t.mem = s.mem))

/-- Management and the TAP while the always-on domain works (25 R562-R564): a two-byte write sets the pointer; a read answers words from it on and
moves it past them; each TAP instruction is taken while TRST_N is high, IDCODE answers the device's code and BYPASS a zero; TRST_N low selects
IDCODE (the model's choice for the register's selections). -/
def Obligations.ManagementAndTapAnswer : Prop :=
  ∀ (s : State), aonWorks s = true →
    (∀ a b : Byte, exec (.i3cPointerWrite [a, b]) s =
      .next { s with pins := { s.pins with pointer := BitVec.ofNat 16 (a.toNat + 256 * b.toNat) } }) ∧
    (∀ n : Nat, ∃ b, exec (.i3cRead n) s = .next (emit (.i3c b)
        { s with free := s.free + n, pins := { s.pins with pointer := s.pins.pointer + BitVec.ofNat 16 n } }) ∧ b.length = 4 * n ∧
      (0 < n → s.pins.pointer = 0 → b.take 4 = [0x25, 0x0A, 0xB0, 0x00]) ∧
      (0 < n → s.pins.pointer = 1 → s.pins.porN = true → b.take 4 = leBytes 4 s.boot.stage)) ∧
    (s.pins.trstN = true →
      let ir := fun (v : Byte) => { s with pins := { s.pins with ir := v } }
      exec .jtagIdcode s = .next (emit (.jtag 32 0xB0A25F3B) (ir 0x01)) ∧ exec .jtagBypass s = .next (emit (.jtag 1 0) (ir 0xFF)) ∧
      exec .clamp s = .next (emit (.jtag 1 0) (ir 0x04)) ∧ exec .highz s = .next (emit (.jtag 1 0) (ir 0x05)) ∧
      (s.pins.porN = true → exec .extest s = .next (emit (.jtag 1 0) (ir 0x03))) ∧
      (s.pins.porN = false → ∃ v, exec .extest s = .next (emit (.jtag 64 v) { ir 0x03 with free := s.free + 1 })) ∧
      (∃ v, exec (.samplePreload none) s = .next (emit (.jtag 64 v) { ir 0x02 with free := s.free + 1 })) ∧
      (∀ p : BitVec 64, ∃ v, exec (.samplePreload (some p)) s = .next (emit (.jtag 64 v)
        { s with pins := { s.pins with ir := 0x02, boundary := p }, free := s.free + 1 }))) ∧
    exec (.trstN true) s = .next { s with pins := { s.pins with trstN := false, ir := 0x01 } } ∧
    exec (.trstN false) s = .next { s with pins := { s.pins with trstN := true } }

/-- An audit record of service (22 R514): the next INDEX, the time, the session's role and key, and a CHAIN over the one before; the count and the head
follow it; with the cape lost it is missed and counted (R519). -/
def Obligations.AuditRecordsAreAppended : Prop :=
  ∀ (s : State) (kind : Byte) (code : W16) (sid : W32) (source : Byte) (detail : List Byte),
    (s.rcv.cape = true → audit kind code sid source detail s = bump (rcvCnt 8) 1 s) ∧
    (s.rcv.cape = false → s.rcv.served = true → ∃ r more, (audit kind code sid source detail s).audit.ring = s.audit.ring ++ r :: more ∧
      r.index = s.audit.count ∧ r.time = s.time ∧ r.kind = kind ∧ r.code = code ∧ r.role = roleOf s sid ∧ r.sid = sid ∧ r.subject = subjectOf s sid ∧
      r.source = source ∧ r.detail = detail ∧ r.chain = sha3 (digestBytes s.audit.head ++ r.body) ∧
      (audit kind code sid source detail s).audit.count = s.audit.count + 1 + more.length ∧ (∀ q ∈ more, q.kind = 0x0D)) ∧
    (s.rcv.cape = false → s.rcv.served = false → (audit kind code sid source detail s).audit = s.audit)

/-! ## Rules stated whole, and what is left at reset -/

/-- 02 R62: at the commit instant, COMMIT is refused with INLET_MISSING where an existing channel is bound to an inlet number that the new plate's
normal INLET_BIND does not define; the standby bank stays PROOFED. -/
def Obligations.CommitNeedsEveryInlet : Prop :=
  ∀ (s : State) (sid : W32) (p : Plate), OpenAs s sid .installer → s.rcv.cape = false → s.plt.standby = .proofed → standbyPlate s = some p →
    (∃ c ∈ s.chans, c.2.state ≠ .free ∧ inletNum p normalCase c.2.inlet.toNat = none) → s.wire = [] →
    exec (.commit sid) s = .next (emit (.writeStatus sid 0xA00D) { s with guards := mdel s.guards sid.toNat }) ∧
      ∀ t, exec (.commit sid) s = .next t → t.plt = s.plt ∧ t.plt.standby = .proofed

/-- 03 R90: MERGE adds the image's ACC and TERMS and its exclusion counters, saturating, and ORs the flags other than MODE_SQUARE; where the TERMS
would exceed 2^40 it sets FULL and changes nothing else. -/
def Obligations.MergeAddsAnImage : Prop :=
  ∀ (s : State) (l : ListId) (row : BitVec 4) (addr : W64),
    let k := listKey l
    let w := wxaNum l.reef.toNat row.toNat
    let a := lagKey (k / 512) addr.toNat
    let x := wxaGet s w
    let i := wxaOfImage (readMem s a 64)
    let sum := fun (m n : Nat) => min (m + n) 0xFFFFFFFF
    listIssues s k { word := 0x34 + 256 * row.toNat, arg := 0, addr := addr.toNat } = true → anyPoison s a 64 = false →
    ∃ y, exec (.wxaMerge l row addr) s = .next (seqNext k (wxaPut w y s)) ∧
      (x.terms + i.terms ≤ 2 ^ 40 → y =
        { acc := wrap320 (x.acc + i.acc), terms := x.terms + i.terms, exclNan := sum x.exclNan i.exclNan, exclInf := sum x.exclInf i.exclInf,
          exclRange := sum x.exclRange i.exclRange, lowBits := x.lowBits || i.lowBits, full := x.full || i.full, square := x.square }) ∧
      (2 ^ 40 < x.terms + i.terms → y = { x with full := true })

/-- 03 R92, of the terms: where FULL is not set, what a WXA holds does not depend on the order in which its terms arrived, nor on how they were
divided among WXAs before merging. -/
def Obligations.SumsDoNotDependOnOrder : Prop :=
  let enter := fun (w : Wxa) (t : Bool × Machine.Num) => wxaEnter t.1 t.2 w
  (∀ (w : Wxa) (ts us : List (Bool × Machine.Num)), ts.Perm us → (ts.foldl enter w).full = false → us.foldl enter w = ts.foldl enter w) ∧
  (∀ (sq : Bool) (ts us : List (Bool × Machine.Num)), ((ts ++ us).foldl enter { Wxa.init with square := sq }).full = false →
    wxaMergeIn (ts.foldl enter { Wxa.init with square := sq }) (us.foldl enter { Wxa.init with square := sq }) =
      (ts ++ us).foldl enter { Wxa.init with square := sq })

/-- What the register tables give at reset (20 R473; 17, 18, 19, 21): each word with a reset value holds it and every other word 0; GLB reads the
device's code and stage 1; every channel is FREE with generation 1 and reads zero elsewhere (21 R497); counters are 0, slots OFF, both banks EMPTY,
nothing is lost and no session stands. -/
def Obligations.ResetHoldsItsValues : Prop :=
  (∀ off : Nat, rget State.reset off =
    if off = 0x0000000C then 0x19 else if off = 0x00030018 then 0x00FFFFFF else if off = 0x00060000 then 0x0073695F
    else if off = 0x00090004 then 8 else if off = 0x00090008 then 100 else if off = 0x0009000C then 256
    else if off = 0x000A0000 then 1 else if off = 0x000B0010 then 1000 else if off = 0x000B0014 then 1024
    else if off = 0x000B0018 then 10000 else if off = 0x000B001C then 160 else if off = 0x000D0000 then 0xFFF
    else if off = 0x000D0004 then 0x9BED else if off = 0x000D0008 then 0x135 else if off = 0x000D000C then 60000
    else if off = 0x000D0010 then 1024 else if off = 0x000D0014 then 10000 else 0) ∧
  readGlb State.reset 0 = 0x00B00A25 ∧ readGlb State.reset 4 = 1 ∧
  (∀ x q : Nat, readCh State.reset x q = if q = 0 then x + 65536 else 0) ∧
  (∀ i : Nat, mget 0 State.reset.counters i = 0) ∧ (∀ k : Nat, readFi State.reset (0x40 * (k % 8) + 0x14) = 0) ∧
  readPlt State.reset 8 = 0 ∧ readRcv State.reset 8 = 0 ∧ readRcv State.reset 0xC = 0 ∧ State.reset.sessions = [] ∧
  (∀ o : Nat, objGet State.reset o = { count := 0, ceiling := 0, timeout := 0, queue := [] })
end

