-- ==== Sys2Proof/Laws/Sparse.lean ====
section
/-! SUPPORT. Sparse data: reading after writing, and that every operation keeps the canonical form. -/

namespace Sys2Proof.Machine

variable {α : Type}

/-! ## Reading after writing -/

@[simp] theorem mget_nil (d : α) (k : Nat) : mget d [] k = d := rfl

theorem mget_mput (d : α) (m : SMap α) (k j : Nat) (v : α) :
    mget d (mput m k v) j = if j = k then v else mget d m j := by
  induction m with
  | nil =>
    simp only [mput, mget]
    by_cases h : j = k
    · rw [if_pos h, if_pos h.symm]
    · rw [if_neg h, if_neg (Ne.symm h)]
  | cons p t ih =>
    obtain ⟨i, w⟩ := p
    simp only [mput]
    by_cases h : j = k
    · subst h
      rw [if_pos rfl] at ih ⊢
      split
      · simp only [mget, if_true]
      · split
        · simp only [mget, if_true]
        · rename_i h; simp only [mget, if_neg h]; exact ih
    · rw [if_neg h] at ih ⊢
      split
      · simp only [mget, if_neg (Ne.symm h)]
      · split
        · rename_i hi; subst hi; simp only [mget, if_neg (Ne.symm h)]
        · simp only [mget, ih]

/-- The keys of a map that rises above `lo` are above `lo`. -/
theorem mrising_above {lo : Nat} {m : SMap α} (h : mrising (some lo) m = true) : ∀ p ∈ m, lo < p.1 := by
  induction m generalizing lo with
  | nil => intro p hp; cases hp
  | cons q t ih =>
    obtain ⟨k, v⟩ := q
    simp only [mrising, Bool.and_eq_true, decide_eq_true_eq] at h
    intro p hp
    cases hp with
    | head => exact h.1
    | tail _ hp => exact Nat.lt_trans h.1 (ih h.2 p hp)

theorem mrising_lower {a b : Nat} {m : SMap α} (h : mrising (some b) m = true) (hab : a ≤ b) : mrising (some a) m = true := by
  cases m with
  | nil => rfl
  | cons p t =>
    obtain ⟨k, v⟩ := p
    simp only [mrising, Bool.and_eq_true, decide_eq_true_eq] at h ⊢
    exact ⟨Nat.lt_of_le_of_lt hab h.1, h.2⟩

theorem mrising_none {lo : Option Nat} {m : SMap α} (h : mrising lo m = true) : mrising none m = true := by
  cases m with
  | nil => rfl
  | cons p t =>
    obtain ⟨k, v⟩ := p
    simp only [mrising, Bool.and_eq_true] at h ⊢
    exact ⟨trivial, h.2⟩

theorem mget_above {d : α} {k : Nat} {m : SMap α} (h : ∀ p ∈ m, k < p.1) : mget d m k = d := by
  induction m with
  | nil => rfl
  | cons q t ih =>
    obtain ⟨j, v⟩ := q
    have hj : k < j := h _ (List.mem_cons_self ..)
    simp only [mget, if_neg (show ¬ j = k by omega)]
    exact ih (fun p hp => h p (List.mem_cons_of_mem _ hp))

theorem mget_mdel {d : α} {m : SMap α} {lo : Option Nat} (h : mrising lo m = true) (k j : Nat) :
    mget d (mdel m k) j = if j = k then d else mget d m j := by
  induction m generalizing lo with
  | nil => simp [mdel]
  | cons q t ih =>
    obtain ⟨i, w⟩ := q
    simp only [mrising, Bool.and_eq_true] at h
    simp only [mdel]
    split
    · rename_i hik
      subst hik
      simp only [mget]
      by_cases hj : j = i
      · subst hj; simp only [if_true]; exact mget_above (mrising_above h.2)
      · simp only [if_neg hj, if_neg (Ne.symm hj)]
    · rename_i hik
      simp only [mget]
      split
      · rename_i hij; subst hij; simp [hik]
      · exact ih h.2

/-! ## The canonical form -/

theorem mput_rising {lo : Option Nat} {m : SMap α} {k : Nat} {v : α} (h : mrising lo m = true)
    (hk : ∀ l, lo = some l → l < k) : mrising lo (mput m k v) = true := by
  induction m generalizing lo with
  | nil =>
    simp only [mput, mrising, Bool.and_true]
    cases lo with
    | none => rfl
    | some l => exact decide_eq_true (hk l rfl)
  | cons p t ih =>
    obtain ⟨j, w⟩ := p
    simp only [mrising, Bool.and_eq_true] at h
    have hlo : (match (generalizing := false) lo with | none => true | some l => decide (l < k)) = true := by
      cases lo with
      | none => rfl
      | some l => exact decide_eq_true (hk l rfl)
    simp only [mput]
    split
    · rename_i hkj
      simp only [mrising, Bool.and_eq_true, decide_eq_true_eq]
      exact ⟨hlo, hkj, h.2⟩
    · split
      · rename_i hjk
        subst hjk
        simp only [mrising, Bool.and_eq_true]
        exact ⟨hlo, h.2⟩
      · simp only [mrising, Bool.and_eq_true]
        refine ⟨h.1, ih h.2 ?_⟩
        intro l hl
        cases hl
        omega

theorem mdel_rising {lo : Option Nat} {m : SMap α} {k : Nat} (h : mrising lo m = true) : mrising lo (mdel m k) = true := by
  induction m generalizing lo with
  | nil => rfl
  | cons p t ih =>
    obtain ⟨j, w⟩ := p
    simp only [mrising, Bool.and_eq_true] at h
    simp only [mdel]
    split
    · cases lo with
      | none => exact mrising_none h.2
      | some l => exact mrising_lower h.2 (Nat.le_of_lt (by simpa using h.1))
    · simp only [mrising, Bool.and_eq_true]
      exact ⟨h.1, ih h.2⟩

theorem mem_mput {m : SMap α} {k : Nat} {v : α} {p : Nat × α} (h : p ∈ mput m k v) : p = (k, v) ∨ p ∈ m := by
  induction m with
  | nil => simpa [mput] using h
  | cons q t ih =>
    simp only [mput] at h
    split at h
    · simpa using h
    · split at h
      · rcases List.mem_cons.1 h with h | h
        · exact .inl h
        · exact .inr (List.mem_cons_of_mem _ h)
      · rcases List.mem_cons.1 h with h | h
        · exact .inr (h ▸ List.mem_cons_self ..)
        · exact (ih h).imp id (List.mem_cons_of_mem _)

theorem mem_mdel {m : SMap α} {k : Nat} {p : Nat × α} (h : p ∈ mdel m k) : p ∈ m := by
  induction m with
  | nil => exact h
  | cons q t ih =>
    simp only [mdel] at h
    split at h
    · exact List.mem_cons_of_mem _ h
    · rcases List.mem_cons.1 h with h | h
      · exact h ▸ List.mem_cons_self ..
      · exact List.mem_cons_of_mem _ (ih h)

variable [DecidableEq α]

theorem mwf_iff {d : α} {m : SMap α} : mwf d m = true ↔ mrising none m = true ∧ ∀ p ∈ m, p.2 ≠ d := by
  simp only [mwf, Bool.and_eq_true, List.all_eq_true, decide_eq_true_eq]

/-- Writing keeps the canonical form. -/
theorem mset_wf {d : α} {m : SMap α} (k : Nat) (v : α) (h : mwf d m = true) : mwf d (mset d m k v) = true := by
  rw [mwf_iff] at h ⊢
  simp only [mset]
  split
  · exact ⟨mdel_rising h.1, fun p hp => h.2 p (mem_mdel hp)⟩
  · rename_i hv
    refine ⟨mput_rising h.1 (fun l hl => by cases hl), fun p hp => ?_⟩
    rcases mem_mput hp with rfl | hp
    · exact hv
    · exact h.2 p hp

/-- Reading what was written; every other key reads as before. -/
theorem mget_mset {d : α} {m : SMap α} (h : mwf d m = true) (k j : Nat) (v : α) :
    mget d (mset d m k v) j = if j = k then v else mget d m j := by
  simp only [mset]
  split
  · rename_i hv; subst hv; exact mget_mdel (mwf_iff.1 h).1 k j
  · exact mget_mput d m k j v

/-- Dropping entries keeps the canonical form. -/
theorem mfilter_wf {d : α} {m : SMap α} (q : Nat × α → Bool) (h : mwf d m = true) : mwf d (m.filter q) = true := by
  rw [mwf_iff] at h ⊢
  refine ⟨?_, fun p hp => h.2 p (List.mem_filter.1 hp).1⟩
  have key : ∀ (m : SMap α) (lo : Option Nat), mrising lo m = true → mrising lo (m.filter q) = true := by
    intro m
    induction m with
    | nil => intro lo _; rfl
    | cons p t ih =>
      obtain ⟨k, v⟩ := p
      intro lo hm
      simp only [mrising, Bool.and_eq_true] at hm
      simp only [List.filter_cons]
      split
      · simp only [mrising, Bool.and_eq_true]; exact ⟨hm.1, ih _ hm.2⟩
      · have := ih _ hm.2
        cases lo with
        | none => exact mrising_none this
        | some l => exact mrising_lower this (Nat.le_of_lt (by simpa using hm.1))
  exact key m none h.1

theorem nadd_wf {s : NSet} (k : Nat) (h : mwf false s = true) : mwf false (nadd s k) = true := mset_wf k true h
theorem ndel_wf {s : NSet} (k : Nat) (h : mwf false s = true) : mwf false (ndel s k) = true := mset_wf k false h

theorem foldl_ndel_wf {s : NSet} (l : List Nat) (h : mwf false s = true) : mwf false (l.foldl ndel s) = true := by
  induction l generalizing s with
  | nil => exact h
  | cons k t ih => exact ih (ndel_wf k h)

/-- Writing bytes of memory keeps the canonical form. -/
theorem putMem_wf {m : SMap Byte} (bs : List Byte) (a : Nat) (h : mwf 0 m = true) : mwf 0 (putMem bs a m) = true := by
  induction bs generalizing a m with
  | nil => exact h
  | cons b t ih =>
    simp only [putMem]
    split
    · exact ih _ (mset_wf _ _ h)
    · exact ih _ h

/-- Writing bytes of flash keeps the canonical form. -/
theorem fput_wf {m : SMap Byte} (bs : List Byte) (a : Nat) (h : mwf 0xFF m = true) : mwf 0xFF (fput bs a m) = true := by
  induction bs generalizing a m with
  | nil => exact h
  | cons b t ih => exact ih _ (mset_wf _ _ h)

end Sys2Proof.Machine
end

