-- ==== Sys2Proof/Laws/State.lean ====
section
/-! SUPPORT. What each named update of the state gives in each field: one lemma a field, so that no proof unfolds a record
update. -/

namespace Sys2Proof.Machine

/-! ## emit -/

@[simp] theorem emit_pending (o : Out) (s : State) : (emit o s).pending = s.pending := rfl
@[simp] theorem emit_out (o : Out) (s : State) : (emit o s).out = s.out ++ [o] := rfl
@[simp] theorem emit_free (o : Out) (s : State) : (emit o s).free = s.free := rfl
@[simp] theorem emit_time (o : Out) (s : State) : (emit o s).time = s.time := rfl
@[simp] theorem emit_mem (o : Out) (s : State) : (emit o s).mem = s.mem := rfl
@[simp] theorem emit_poison (o : Out) (s : State) : (emit o s).poison = s.poison := rfl
@[simp] theorem emit_flash (o : Out) (s : State) : (emit o s).flash = s.flash := rfl
@[simp] theorem emit_regs (o : Out) (s : State) : (emit o s).regs = s.regs := rfl
@[simp] theorem emit_shadow (o : Out) (s : State) : (emit o s).shadow = s.shadow := rfl
@[simp] theorem emit_counters (o : Out) (s : State) : (emit o s).counters = s.counters := rfl
@[simp] theorem emit_snap (o : Out) (s : State) : (emit o s).snap = s.snap := rfl
@[simp] theorem emit_guards (o : Out) (s : State) : (emit o s).guards = s.guards := rfl
@[simp] theorem emit_hiCaps (o : Out) (s : State) : (emit o s).hiCaps = s.hiCaps := rfl
@[simp] theorem emit_plt (o : Out) (s : State) : (emit o s).plt = s.plt := rfl
@[simp] theorem emit_isl (o : Out) (s : State) : (emit o s).isl = s.isl := rfl
@[simp] theorem emit_chans (o : Out) (s : State) : (emit o s).chans = s.chans := rfl
@[simp] theorem emit_applied (o : Out) (s : State) : (emit o s).applied = s.applied := rfl
@[simp] theorem emit_objs (o : Out) (s : State) : (emit o s).objs = s.objs := rfl
@[simp] theorem emit_yzApplied (o : Out) (s : State) : (emit o s).yzApplied = s.yzApplied := rfl
@[simp] theorem emit_lists (o : Out) (s : State) : (emit o s).lists = s.lists := rfl
@[simp] theorem emit_barriers (o : Out) (s : State) : (emit o s).barriers = s.barriers := rfl
@[simp] theorem emit_engines (o : Out) (s : State) : (emit o s).engines = s.engines := rfl
@[simp] theorem emit_synRings (o : Out) (s : State) : (emit o s).synRings = s.synRings := rfl
@[simp] theorem emit_wxas (o : Out) (s : State) : (emit o s).wxas = s.wxas := rfl
@[simp] theorem emit_rcells (o : Out) (s : State) : (emit o s).rcells = s.rcells := rfl
@[simp] theorem emit_cellLinks (o : Out) (s : State) : (emit o s).cellLinks = s.cellLinks := rfl
@[simp] theorem emit_dcells (o : Out) (s : State) : (emit o s).dcells = s.dcells := rfl
@[simp] theorem emit_runs (o : Out) (s : State) : (emit o s).runs = s.runs := rfl
@[simp] theorem emit_asu (o : Out) (s : State) : (emit o s).asu = s.asu := rfl
@[simp] theorem emit_asuSide (o : Out) (s : State) : (emit o s).asuSide = s.asuSide := rfl
@[simp] theorem emit_asuGen (o : Out) (s : State) : (emit o s).asuGen = s.asuGen := rfl
@[simp] theorem emit_asuLevel (o : Out) (s : State) : (emit o s).asuLevel = s.asuLevel := rfl
@[simp] theorem emit_asuHeld (o : Out) (s : State) : (emit o s).asuHeld = s.asuHeld := rfl
@[simp] theorem emit_joins (o : Out) (s : State) : (emit o s).joins = s.joins := rfl
@[simp] theorem emit_emb (o : Out) (s : State) : (emit o s).emb = s.emb := rfl
@[simp] theorem emit_delivered (o : Out) (s : State) : (emit o s).delivered = s.delivered := rfl
@[simp] theorem emit_slotWaits (o : Out) (s : State) : (emit o s).slotWaits = s.slotWaits := rfl
@[simp] theorem emit_sessions (o : Out) (s : State) : (emit o s).sessions = s.sessions := rfl
@[simp] theorem emit_nextSid (o : Out) (s : State) : (emit o s).nextSid = s.nextSid := rfl
@[simp] theorem emit_fates (o : Out) (s : State) : (emit o s).fates = s.fates := rfl
@[simp] theorem emit_doubts (o : Out) (s : State) : (emit o s).doubts = s.doubts := rfl
@[simp] theorem emit_peerQueue (o : Out) (s : State) : (emit o s).peerQueue = s.peerQueue := rfl
@[simp] theorem emit_helloOut (o : Out) (s : State) : (emit o s).helloOut = s.helloOut := rfl
@[simp] theorem emit_helloIn (o : Out) (s : State) : (emit o s).helloIn = s.helloIn := rfl
@[simp] theorem emit_helloCount (o : Out) (s : State) : (emit o s).helloCount = s.helloCount := rfl
@[simp] theorem emit_malformed (o : Out) (s : State) : (emit o s).malformed = s.malformed := rfl
@[simp] theorem emit_linksUp (o : Out) (s : State) : (emit o s).linksUp = s.linksUp := rfl
@[simp] theorem emit_paused (o : Out) (s : State) : (emit o s).paused = s.paused := rfl
@[simp] theorem emit_rcv (o : Out) (s : State) : (emit o s).rcv = s.rcv := rfl
@[simp] theorem emit_ueCount (o : Out) (s : State) : (emit o s).ueCount = s.ueCount := rfl
@[simp] theorem emit_ueLimit (o : Out) (s : State) : (emit o s).ueLimit = s.ueLimit := rfl
@[simp] theorem emit_intRings (o : Out) (s : State) : (emit o s).intRings = s.intRings := rfl
@[simp] theorem emit_scrub (o : Out) (s : State) : (emit o s).scrub = s.scrub := rfl
@[simp] theorem emit_ceSeen (o : Out) (s : State) : (emit o s).ceSeen = s.ceSeen := rfl
@[simp] theorem emit_straits (o : Out) (s : State) : (emit o s).straits = s.straits := rfl
@[simp] theorem emit_fi (o : Out) (s : State) : (emit o s).fi = s.fi := rfl
@[simp] theorem emit_wire (o : Out) (s : State) : (emit o s).wire = s.wire := rfl
@[simp] theorem emit_audit (o : Out) (s : State) : (emit o s).audit = s.audit := rfl
@[simp] theorem emit_boot (o : Out) (s : State) : (emit o s).boot = s.boot := rfl
@[simp] theorem emit_fuses (o : Out) (s : State) : (emit o s).fuses = s.fuses := rfl
@[simp] theorem emit_svc (o : Out) (s : State) : (emit o s).svc = s.svc := rfl
@[simp] theorem emit_pwr (o : Out) (s : State) : (emit o s).pwr = s.pwr := rfl
@[simp] theorem emit_pins (o : Out) (s : State) : (emit o s).pins = s.pins := rfl

/-! ## rset -/

@[simp] theorem rset_pending (off : Nat) (v : W32) (s : State) : (rset off v s).pending = s.pending := rfl
@[simp] theorem rset_out (off : Nat) (v : W32) (s : State) : (rset off v s).out = s.out := rfl
@[simp] theorem rset_free (off : Nat) (v : W32) (s : State) : (rset off v s).free = s.free := rfl
@[simp] theorem rset_time (off : Nat) (v : W32) (s : State) : (rset off v s).time = s.time := rfl
@[simp] theorem rset_mem (off : Nat) (v : W32) (s : State) : (rset off v s).mem = s.mem := rfl
@[simp] theorem rset_poison (off : Nat) (v : W32) (s : State) : (rset off v s).poison = s.poison := rfl
@[simp] theorem rset_flash (off : Nat) (v : W32) (s : State) : (rset off v s).flash = s.flash := rfl
@[simp] theorem rset_regs (off : Nat) (v : W32) (s : State) : (rset off v s).regs = mset 0 s.regs off v := rfl
@[simp] theorem rset_shadow (off : Nat) (v : W32) (s : State) : (rset off v s).shadow = s.shadow := rfl
@[simp] theorem rset_counters (off : Nat) (v : W32) (s : State) : (rset off v s).counters = s.counters := rfl
@[simp] theorem rset_snap (off : Nat) (v : W32) (s : State) : (rset off v s).snap = s.snap := rfl
@[simp] theorem rset_guards (off : Nat) (v : W32) (s : State) : (rset off v s).guards = s.guards := rfl
@[simp] theorem rset_hiCaps (off : Nat) (v : W32) (s : State) : (rset off v s).hiCaps = s.hiCaps := rfl
@[simp] theorem rset_plt (off : Nat) (v : W32) (s : State) : (rset off v s).plt = s.plt := rfl
@[simp] theorem rset_isl (off : Nat) (v : W32) (s : State) : (rset off v s).isl = s.isl := rfl
@[simp] theorem rset_chans (off : Nat) (v : W32) (s : State) : (rset off v s).chans = s.chans := rfl
@[simp] theorem rset_applied (off : Nat) (v : W32) (s : State) : (rset off v s).applied = s.applied := rfl
@[simp] theorem rset_objs (off : Nat) (v : W32) (s : State) : (rset off v s).objs = s.objs := rfl
@[simp] theorem rset_yzApplied (off : Nat) (v : W32) (s : State) : (rset off v s).yzApplied = s.yzApplied := rfl
@[simp] theorem rset_lists (off : Nat) (v : W32) (s : State) : (rset off v s).lists = s.lists := rfl
@[simp] theorem rset_barriers (off : Nat) (v : W32) (s : State) : (rset off v s).barriers = s.barriers := rfl
@[simp] theorem rset_engines (off : Nat) (v : W32) (s : State) : (rset off v s).engines = s.engines := rfl
@[simp] theorem rset_synRings (off : Nat) (v : W32) (s : State) : (rset off v s).synRings = s.synRings := rfl
@[simp] theorem rset_wxas (off : Nat) (v : W32) (s : State) : (rset off v s).wxas = s.wxas := rfl
@[simp] theorem rset_rcells (off : Nat) (v : W32) (s : State) : (rset off v s).rcells = s.rcells := rfl
@[simp] theorem rset_cellLinks (off : Nat) (v : W32) (s : State) : (rset off v s).cellLinks = s.cellLinks := rfl
@[simp] theorem rset_dcells (off : Nat) (v : W32) (s : State) : (rset off v s).dcells = s.dcells := rfl
@[simp] theorem rset_runs (off : Nat) (v : W32) (s : State) : (rset off v s).runs = s.runs := rfl
@[simp] theorem rset_asu (off : Nat) (v : W32) (s : State) : (rset off v s).asu = s.asu := rfl
@[simp] theorem rset_asuSide (off : Nat) (v : W32) (s : State) : (rset off v s).asuSide = s.asuSide := rfl
@[simp] theorem rset_asuGen (off : Nat) (v : W32) (s : State) : (rset off v s).asuGen = s.asuGen := rfl
@[simp] theorem rset_asuLevel (off : Nat) (v : W32) (s : State) : (rset off v s).asuLevel = s.asuLevel := rfl
@[simp] theorem rset_asuHeld (off : Nat) (v : W32) (s : State) : (rset off v s).asuHeld = s.asuHeld := rfl
@[simp] theorem rset_joins (off : Nat) (v : W32) (s : State) : (rset off v s).joins = s.joins := rfl
@[simp] theorem rset_emb (off : Nat) (v : W32) (s : State) : (rset off v s).emb = s.emb := rfl
@[simp] theorem rset_delivered (off : Nat) (v : W32) (s : State) : (rset off v s).delivered = s.delivered := rfl
@[simp] theorem rset_slotWaits (off : Nat) (v : W32) (s : State) : (rset off v s).slotWaits = s.slotWaits := rfl
@[simp] theorem rset_sessions (off : Nat) (v : W32) (s : State) : (rset off v s).sessions = s.sessions := rfl
@[simp] theorem rset_nextSid (off : Nat) (v : W32) (s : State) : (rset off v s).nextSid = s.nextSid := rfl
@[simp] theorem rset_fates (off : Nat) (v : W32) (s : State) : (rset off v s).fates = s.fates := rfl
@[simp] theorem rset_doubts (off : Nat) (v : W32) (s : State) : (rset off v s).doubts = s.doubts := rfl
@[simp] theorem rset_peerQueue (off : Nat) (v : W32) (s : State) : (rset off v s).peerQueue = s.peerQueue := rfl
@[simp] theorem rset_helloOut (off : Nat) (v : W32) (s : State) : (rset off v s).helloOut = s.helloOut := rfl
@[simp] theorem rset_helloIn (off : Nat) (v : W32) (s : State) : (rset off v s).helloIn = s.helloIn := rfl
@[simp] theorem rset_helloCount (off : Nat) (v : W32) (s : State) : (rset off v s).helloCount = s.helloCount := rfl
@[simp] theorem rset_malformed (off : Nat) (v : W32) (s : State) : (rset off v s).malformed = s.malformed := rfl
@[simp] theorem rset_linksUp (off : Nat) (v : W32) (s : State) : (rset off v s).linksUp = s.linksUp := rfl
@[simp] theorem rset_paused (off : Nat) (v : W32) (s : State) : (rset off v s).paused = s.paused := rfl
@[simp] theorem rset_rcv (off : Nat) (v : W32) (s : State) : (rset off v s).rcv = s.rcv := rfl
@[simp] theorem rset_ueCount (off : Nat) (v : W32) (s : State) : (rset off v s).ueCount = s.ueCount := rfl
@[simp] theorem rset_ueLimit (off : Nat) (v : W32) (s : State) : (rset off v s).ueLimit = s.ueLimit := rfl
@[simp] theorem rset_intRings (off : Nat) (v : W32) (s : State) : (rset off v s).intRings = s.intRings := rfl
@[simp] theorem rset_scrub (off : Nat) (v : W32) (s : State) : (rset off v s).scrub = s.scrub := rfl
@[simp] theorem rset_ceSeen (off : Nat) (v : W32) (s : State) : (rset off v s).ceSeen = s.ceSeen := rfl
@[simp] theorem rset_straits (off : Nat) (v : W32) (s : State) : (rset off v s).straits = s.straits := rfl
@[simp] theorem rset_fi (off : Nat) (v : W32) (s : State) : (rset off v s).fi = s.fi := rfl
@[simp] theorem rset_wire (off : Nat) (v : W32) (s : State) : (rset off v s).wire = s.wire := rfl
@[simp] theorem rset_audit (off : Nat) (v : W32) (s : State) : (rset off v s).audit = s.audit := rfl
@[simp] theorem rset_boot (off : Nat) (v : W32) (s : State) : (rset off v s).boot = s.boot := rfl
@[simp] theorem rset_fuses (off : Nat) (v : W32) (s : State) : (rset off v s).fuses = s.fuses := rfl
@[simp] theorem rset_svc (off : Nat) (v : W32) (s : State) : (rset off v s).svc = s.svc := rfl
@[simp] theorem rset_pwr (off : Nat) (v : W32) (s : State) : (rset off v s).pwr = s.pwr := rfl
@[simp] theorem rset_pins (off : Nat) (v : W32) (s : State) : (rset off v s).pins = s.pins := rfl

/-! ## bump -/

@[simp] theorem bump_pending (i n : Nat) (s : State) : (bump i n s).pending = s.pending := rfl
@[simp] theorem bump_out (i n : Nat) (s : State) : (bump i n s).out = s.out := rfl
@[simp] theorem bump_free (i n : Nat) (s : State) : (bump i n s).free = s.free := rfl
@[simp] theorem bump_time (i n : Nat) (s : State) : (bump i n s).time = s.time := rfl
@[simp] theorem bump_mem (i n : Nat) (s : State) : (bump i n s).mem = s.mem := rfl
@[simp] theorem bump_poison (i n : Nat) (s : State) : (bump i n s).poison = s.poison := rfl
@[simp] theorem bump_flash (i n : Nat) (s : State) : (bump i n s).flash = s.flash := rfl
@[simp] theorem bump_regs (i n : Nat) (s : State) : (bump i n s).regs = s.regs := rfl
@[simp] theorem bump_shadow (i n : Nat) (s : State) : (bump i n s).shadow = s.shadow := rfl
@[simp] theorem bump_counters (i n : Nat) (s : State) : (bump i n s).counters = mset 0 s.counters i (mget 0 s.counters i + BitVec.ofNat 64 n) := rfl
@[simp] theorem bump_snap (i n : Nat) (s : State) : (bump i n s).snap = s.snap := rfl
@[simp] theorem bump_guards (i n : Nat) (s : State) : (bump i n s).guards = s.guards := rfl
@[simp] theorem bump_hiCaps (i n : Nat) (s : State) : (bump i n s).hiCaps = s.hiCaps := rfl
@[simp] theorem bump_plt (i n : Nat) (s : State) : (bump i n s).plt = s.plt := rfl
@[simp] theorem bump_isl (i n : Nat) (s : State) : (bump i n s).isl = s.isl := rfl
@[simp] theorem bump_chans (i n : Nat) (s : State) : (bump i n s).chans = s.chans := rfl
@[simp] theorem bump_applied (i n : Nat) (s : State) : (bump i n s).applied = s.applied := rfl
@[simp] theorem bump_objs (i n : Nat) (s : State) : (bump i n s).objs = s.objs := rfl
@[simp] theorem bump_yzApplied (i n : Nat) (s : State) : (bump i n s).yzApplied = s.yzApplied := rfl
@[simp] theorem bump_lists (i n : Nat) (s : State) : (bump i n s).lists = s.lists := rfl
@[simp] theorem bump_barriers (i n : Nat) (s : State) : (bump i n s).barriers = s.barriers := rfl
@[simp] theorem bump_engines (i n : Nat) (s : State) : (bump i n s).engines = s.engines := rfl
@[simp] theorem bump_synRings (i n : Nat) (s : State) : (bump i n s).synRings = s.synRings := rfl
@[simp] theorem bump_wxas (i n : Nat) (s : State) : (bump i n s).wxas = s.wxas := rfl
@[simp] theorem bump_rcells (i n : Nat) (s : State) : (bump i n s).rcells = s.rcells := rfl
@[simp] theorem bump_cellLinks (i n : Nat) (s : State) : (bump i n s).cellLinks = s.cellLinks := rfl
@[simp] theorem bump_dcells (i n : Nat) (s : State) : (bump i n s).dcells = s.dcells := rfl
@[simp] theorem bump_runs (i n : Nat) (s : State) : (bump i n s).runs = s.runs := rfl
@[simp] theorem bump_asu (i n : Nat) (s : State) : (bump i n s).asu = s.asu := rfl
@[simp] theorem bump_asuSide (i n : Nat) (s : State) : (bump i n s).asuSide = s.asuSide := rfl
@[simp] theorem bump_asuGen (i n : Nat) (s : State) : (bump i n s).asuGen = s.asuGen := rfl
@[simp] theorem bump_asuLevel (i n : Nat) (s : State) : (bump i n s).asuLevel = s.asuLevel := rfl
@[simp] theorem bump_asuHeld (i n : Nat) (s : State) : (bump i n s).asuHeld = s.asuHeld := rfl
@[simp] theorem bump_joins (i n : Nat) (s : State) : (bump i n s).joins = s.joins := rfl
@[simp] theorem bump_emb (i n : Nat) (s : State) : (bump i n s).emb = s.emb := rfl
@[simp] theorem bump_delivered (i n : Nat) (s : State) : (bump i n s).delivered = s.delivered := rfl
@[simp] theorem bump_slotWaits (i n : Nat) (s : State) : (bump i n s).slotWaits = s.slotWaits := rfl
@[simp] theorem bump_sessions (i n : Nat) (s : State) : (bump i n s).sessions = s.sessions := rfl
@[simp] theorem bump_nextSid (i n : Nat) (s : State) : (bump i n s).nextSid = s.nextSid := rfl
@[simp] theorem bump_fates (i n : Nat) (s : State) : (bump i n s).fates = s.fates := rfl
@[simp] theorem bump_doubts (i n : Nat) (s : State) : (bump i n s).doubts = s.doubts := rfl
@[simp] theorem bump_peerQueue (i n : Nat) (s : State) : (bump i n s).peerQueue = s.peerQueue := rfl
@[simp] theorem bump_helloOut (i n : Nat) (s : State) : (bump i n s).helloOut = s.helloOut := rfl
@[simp] theorem bump_helloIn (i n : Nat) (s : State) : (bump i n s).helloIn = s.helloIn := rfl
@[simp] theorem bump_helloCount (i n : Nat) (s : State) : (bump i n s).helloCount = s.helloCount := rfl
@[simp] theorem bump_malformed (i n : Nat) (s : State) : (bump i n s).malformed = s.malformed := rfl
@[simp] theorem bump_linksUp (i n : Nat) (s : State) : (bump i n s).linksUp = s.linksUp := rfl
@[simp] theorem bump_paused (i n : Nat) (s : State) : (bump i n s).paused = s.paused := rfl
@[simp] theorem bump_rcv (i n : Nat) (s : State) : (bump i n s).rcv = s.rcv := rfl
@[simp] theorem bump_ueCount (i n : Nat) (s : State) : (bump i n s).ueCount = s.ueCount := rfl
@[simp] theorem bump_ueLimit (i n : Nat) (s : State) : (bump i n s).ueLimit = s.ueLimit := rfl
@[simp] theorem bump_intRings (i n : Nat) (s : State) : (bump i n s).intRings = s.intRings := rfl
@[simp] theorem bump_scrub (i n : Nat) (s : State) : (bump i n s).scrub = s.scrub := rfl
@[simp] theorem bump_ceSeen (i n : Nat) (s : State) : (bump i n s).ceSeen = s.ceSeen := rfl
@[simp] theorem bump_straits (i n : Nat) (s : State) : (bump i n s).straits = s.straits := rfl
@[simp] theorem bump_fi (i n : Nat) (s : State) : (bump i n s).fi = s.fi := rfl
@[simp] theorem bump_wire (i n : Nat) (s : State) : (bump i n s).wire = s.wire := rfl
@[simp] theorem bump_audit (i n : Nat) (s : State) : (bump i n s).audit = s.audit := rfl
@[simp] theorem bump_boot (i n : Nat) (s : State) : (bump i n s).boot = s.boot := rfl
@[simp] theorem bump_fuses (i n : Nat) (s : State) : (bump i n s).fuses = s.fuses := rfl
@[simp] theorem bump_svc (i n : Nat) (s : State) : (bump i n s).svc = s.svc := rfl
@[simp] theorem bump_pwr (i n : Nat) (s : State) : (bump i n s).pwr = s.pwr := rfl
@[simp] theorem bump_pins (i n : Nat) (s : State) : (bump i n s).pins = s.pins := rfl

/-! ## runPut -/

@[simp] theorem runPut_pending (k : Nat) (x : Run) (s : State) : (runPut k x s).pending = s.pending := rfl
@[simp] theorem runPut_out (k : Nat) (x : Run) (s : State) : (runPut k x s).out = s.out := rfl
@[simp] theorem runPut_free (k : Nat) (x : Run) (s : State) : (runPut k x s).free = s.free := rfl
@[simp] theorem runPut_time (k : Nat) (x : Run) (s : State) : (runPut k x s).time = s.time := rfl
@[simp] theorem runPut_mem (k : Nat) (x : Run) (s : State) : (runPut k x s).mem = s.mem := rfl
@[simp] theorem runPut_poison (k : Nat) (x : Run) (s : State) : (runPut k x s).poison = s.poison := rfl
@[simp] theorem runPut_flash (k : Nat) (x : Run) (s : State) : (runPut k x s).flash = s.flash := rfl
@[simp] theorem runPut_regs (k : Nat) (x : Run) (s : State) : (runPut k x s).regs = s.regs := rfl
@[simp] theorem runPut_shadow (k : Nat) (x : Run) (s : State) : (runPut k x s).shadow = s.shadow := rfl
@[simp] theorem runPut_counters (k : Nat) (x : Run) (s : State) : (runPut k x s).counters = s.counters := rfl
@[simp] theorem runPut_snap (k : Nat) (x : Run) (s : State) : (runPut k x s).snap = s.snap := rfl
@[simp] theorem runPut_guards (k : Nat) (x : Run) (s : State) : (runPut k x s).guards = s.guards := rfl
@[simp] theorem runPut_hiCaps (k : Nat) (x : Run) (s : State) : (runPut k x s).hiCaps = s.hiCaps := rfl
@[simp] theorem runPut_plt (k : Nat) (x : Run) (s : State) : (runPut k x s).plt = s.plt := rfl
@[simp] theorem runPut_isl (k : Nat) (x : Run) (s : State) : (runPut k x s).isl = s.isl := rfl
@[simp] theorem runPut_chans (k : Nat) (x : Run) (s : State) : (runPut k x s).chans = s.chans := rfl
@[simp] theorem runPut_applied (k : Nat) (x : Run) (s : State) : (runPut k x s).applied = s.applied := rfl
@[simp] theorem runPut_objs (k : Nat) (x : Run) (s : State) : (runPut k x s).objs = s.objs := rfl
@[simp] theorem runPut_yzApplied (k : Nat) (x : Run) (s : State) : (runPut k x s).yzApplied = s.yzApplied := rfl
@[simp] theorem runPut_lists (k : Nat) (x : Run) (s : State) : (runPut k x s).lists = s.lists := rfl
@[simp] theorem runPut_barriers (k : Nat) (x : Run) (s : State) : (runPut k x s).barriers = s.barriers := rfl
@[simp] theorem runPut_engines (k : Nat) (x : Run) (s : State) : (runPut k x s).engines = s.engines := rfl
@[simp] theorem runPut_synRings (k : Nat) (x : Run) (s : State) : (runPut k x s).synRings = s.synRings := rfl
@[simp] theorem runPut_wxas (k : Nat) (x : Run) (s : State) : (runPut k x s).wxas = s.wxas := rfl
@[simp] theorem runPut_rcells (k : Nat) (x : Run) (s : State) : (runPut k x s).rcells = s.rcells := rfl
@[simp] theorem runPut_cellLinks (k : Nat) (x : Run) (s : State) : (runPut k x s).cellLinks = s.cellLinks := rfl
@[simp] theorem runPut_dcells (k : Nat) (x : Run) (s : State) : (runPut k x s).dcells = s.dcells := rfl
@[simp] theorem runPut_runs (k : Nat) (x : Run) (s : State) : (runPut k x s).runs = mset Run.init s.runs k x := rfl
@[simp] theorem runPut_asu (k : Nat) (x : Run) (s : State) : (runPut k x s).asu = s.asu := rfl
@[simp] theorem runPut_asuSide (k : Nat) (x : Run) (s : State) : (runPut k x s).asuSide = s.asuSide := rfl
@[simp] theorem runPut_asuGen (k : Nat) (x : Run) (s : State) : (runPut k x s).asuGen = s.asuGen := rfl
@[simp] theorem runPut_asuLevel (k : Nat) (x : Run) (s : State) : (runPut k x s).asuLevel = s.asuLevel := rfl
@[simp] theorem runPut_asuHeld (k : Nat) (x : Run) (s : State) : (runPut k x s).asuHeld = s.asuHeld := rfl
@[simp] theorem runPut_joins (k : Nat) (x : Run) (s : State) : (runPut k x s).joins = s.joins := rfl
@[simp] theorem runPut_emb (k : Nat) (x : Run) (s : State) : (runPut k x s).emb = s.emb := rfl
@[simp] theorem runPut_delivered (k : Nat) (x : Run) (s : State) : (runPut k x s).delivered = s.delivered := rfl
@[simp] theorem runPut_slotWaits (k : Nat) (x : Run) (s : State) : (runPut k x s).slotWaits = s.slotWaits := rfl
@[simp] theorem runPut_sessions (k : Nat) (x : Run) (s : State) : (runPut k x s).sessions = s.sessions := rfl
@[simp] theorem runPut_nextSid (k : Nat) (x : Run) (s : State) : (runPut k x s).nextSid = s.nextSid := rfl
@[simp] theorem runPut_fates (k : Nat) (x : Run) (s : State) : (runPut k x s).fates = s.fates := rfl
@[simp] theorem runPut_doubts (k : Nat) (x : Run) (s : State) : (runPut k x s).doubts = s.doubts := rfl
@[simp] theorem runPut_peerQueue (k : Nat) (x : Run) (s : State) : (runPut k x s).peerQueue = s.peerQueue := rfl
@[simp] theorem runPut_helloOut (k : Nat) (x : Run) (s : State) : (runPut k x s).helloOut = s.helloOut := rfl
@[simp] theorem runPut_helloIn (k : Nat) (x : Run) (s : State) : (runPut k x s).helloIn = s.helloIn := rfl
@[simp] theorem runPut_helloCount (k : Nat) (x : Run) (s : State) : (runPut k x s).helloCount = s.helloCount := rfl
@[simp] theorem runPut_malformed (k : Nat) (x : Run) (s : State) : (runPut k x s).malformed = s.malformed := rfl
@[simp] theorem runPut_linksUp (k : Nat) (x : Run) (s : State) : (runPut k x s).linksUp = s.linksUp := rfl
@[simp] theorem runPut_paused (k : Nat) (x : Run) (s : State) : (runPut k x s).paused = s.paused := rfl
@[simp] theorem runPut_rcv (k : Nat) (x : Run) (s : State) : (runPut k x s).rcv = s.rcv := rfl
@[simp] theorem runPut_ueCount (k : Nat) (x : Run) (s : State) : (runPut k x s).ueCount = s.ueCount := rfl
@[simp] theorem runPut_ueLimit (k : Nat) (x : Run) (s : State) : (runPut k x s).ueLimit = s.ueLimit := rfl
@[simp] theorem runPut_intRings (k : Nat) (x : Run) (s : State) : (runPut k x s).intRings = s.intRings := rfl
@[simp] theorem runPut_scrub (k : Nat) (x : Run) (s : State) : (runPut k x s).scrub = s.scrub := rfl
@[simp] theorem runPut_ceSeen (k : Nat) (x : Run) (s : State) : (runPut k x s).ceSeen = s.ceSeen := rfl
@[simp] theorem runPut_straits (k : Nat) (x : Run) (s : State) : (runPut k x s).straits = s.straits := rfl
@[simp] theorem runPut_fi (k : Nat) (x : Run) (s : State) : (runPut k x s).fi = s.fi := rfl
@[simp] theorem runPut_wire (k : Nat) (x : Run) (s : State) : (runPut k x s).wire = s.wire := rfl
@[simp] theorem runPut_audit (k : Nat) (x : Run) (s : State) : (runPut k x s).audit = s.audit := rfl
@[simp] theorem runPut_boot (k : Nat) (x : Run) (s : State) : (runPut k x s).boot = s.boot := rfl
@[simp] theorem runPut_fuses (k : Nat) (x : Run) (s : State) : (runPut k x s).fuses = s.fuses := rfl
@[simp] theorem runPut_svc (k : Nat) (x : Run) (s : State) : (runPut k x s).svc = s.svc := rfl
@[simp] theorem runPut_pwr (k : Nat) (x : Run) (s : State) : (runPut k x s).pwr = s.pwr := rfl
@[simp] theorem runPut_pins (k : Nat) (x : Run) (s : State) : (runPut k x s).pins = s.pins := rfl

/-! ## chanPut -/

@[simp] theorem chanPut_pending (i : Nat) (c : Chan) (s : State) : (chanPut i c s).pending = s.pending := rfl
@[simp] theorem chanPut_out (i : Nat) (c : Chan) (s : State) : (chanPut i c s).out = s.out := rfl
@[simp] theorem chanPut_free (i : Nat) (c : Chan) (s : State) : (chanPut i c s).free = s.free := rfl
@[simp] theorem chanPut_time (i : Nat) (c : Chan) (s : State) : (chanPut i c s).time = s.time := rfl
@[simp] theorem chanPut_mem (i : Nat) (c : Chan) (s : State) : (chanPut i c s).mem = s.mem := rfl
@[simp] theorem chanPut_poison (i : Nat) (c : Chan) (s : State) : (chanPut i c s).poison = s.poison := rfl
@[simp] theorem chanPut_flash (i : Nat) (c : Chan) (s : State) : (chanPut i c s).flash = s.flash := rfl
@[simp] theorem chanPut_regs (i : Nat) (c : Chan) (s : State) : (chanPut i c s).regs = s.regs := rfl
@[simp] theorem chanPut_shadow (i : Nat) (c : Chan) (s : State) : (chanPut i c s).shadow = s.shadow := rfl
@[simp] theorem chanPut_counters (i : Nat) (c : Chan) (s : State) : (chanPut i c s).counters = s.counters := rfl
@[simp] theorem chanPut_snap (i : Nat) (c : Chan) (s : State) : (chanPut i c s).snap = s.snap := rfl
@[simp] theorem chanPut_guards (i : Nat) (c : Chan) (s : State) : (chanPut i c s).guards = s.guards := rfl
@[simp] theorem chanPut_hiCaps (i : Nat) (c : Chan) (s : State) : (chanPut i c s).hiCaps = s.hiCaps := rfl
@[simp] theorem chanPut_plt (i : Nat) (c : Chan) (s : State) : (chanPut i c s).plt = s.plt := rfl
@[simp] theorem chanPut_isl (i : Nat) (c : Chan) (s : State) : (chanPut i c s).isl = s.isl := rfl
@[simp] theorem chanPut_chans (i : Nat) (c : Chan) (s : State) : (chanPut i c s).chans = mset Chan.init s.chans i c := rfl
@[simp] theorem chanPut_applied (i : Nat) (c : Chan) (s : State) : (chanPut i c s).applied = s.applied := rfl
@[simp] theorem chanPut_objs (i : Nat) (c : Chan) (s : State) : (chanPut i c s).objs = s.objs := rfl
@[simp] theorem chanPut_yzApplied (i : Nat) (c : Chan) (s : State) : (chanPut i c s).yzApplied = s.yzApplied := rfl
@[simp] theorem chanPut_lists (i : Nat) (c : Chan) (s : State) : (chanPut i c s).lists = s.lists := rfl
@[simp] theorem chanPut_barriers (i : Nat) (c : Chan) (s : State) : (chanPut i c s).barriers = s.barriers := rfl
@[simp] theorem chanPut_engines (i : Nat) (c : Chan) (s : State) : (chanPut i c s).engines = s.engines := rfl
@[simp] theorem chanPut_synRings (i : Nat) (c : Chan) (s : State) : (chanPut i c s).synRings = s.synRings := rfl
@[simp] theorem chanPut_wxas (i : Nat) (c : Chan) (s : State) : (chanPut i c s).wxas = s.wxas := rfl
@[simp] theorem chanPut_rcells (i : Nat) (c : Chan) (s : State) : (chanPut i c s).rcells = s.rcells := rfl
@[simp] theorem chanPut_cellLinks (i : Nat) (c : Chan) (s : State) : (chanPut i c s).cellLinks = s.cellLinks := rfl
@[simp] theorem chanPut_dcells (i : Nat) (c : Chan) (s : State) : (chanPut i c s).dcells = s.dcells := rfl
@[simp] theorem chanPut_runs (i : Nat) (c : Chan) (s : State) : (chanPut i c s).runs = s.runs := rfl
@[simp] theorem chanPut_asu (i : Nat) (c : Chan) (s : State) : (chanPut i c s).asu = s.asu := rfl
@[simp] theorem chanPut_asuSide (i : Nat) (c : Chan) (s : State) : (chanPut i c s).asuSide = s.asuSide := rfl
@[simp] theorem chanPut_asuGen (i : Nat) (c : Chan) (s : State) : (chanPut i c s).asuGen = s.asuGen := rfl
@[simp] theorem chanPut_asuLevel (i : Nat) (c : Chan) (s : State) : (chanPut i c s).asuLevel = s.asuLevel := rfl
@[simp] theorem chanPut_asuHeld (i : Nat) (c : Chan) (s : State) : (chanPut i c s).asuHeld = s.asuHeld := rfl
@[simp] theorem chanPut_joins (i : Nat) (c : Chan) (s : State) : (chanPut i c s).joins = s.joins := rfl
@[simp] theorem chanPut_emb (i : Nat) (c : Chan) (s : State) : (chanPut i c s).emb = s.emb := rfl
@[simp] theorem chanPut_delivered (i : Nat) (c : Chan) (s : State) : (chanPut i c s).delivered = s.delivered := rfl
@[simp] theorem chanPut_slotWaits (i : Nat) (c : Chan) (s : State) : (chanPut i c s).slotWaits = s.slotWaits := rfl
@[simp] theorem chanPut_sessions (i : Nat) (c : Chan) (s : State) : (chanPut i c s).sessions = s.sessions := rfl
@[simp] theorem chanPut_nextSid (i : Nat) (c : Chan) (s : State) : (chanPut i c s).nextSid = s.nextSid := rfl
@[simp] theorem chanPut_fates (i : Nat) (c : Chan) (s : State) : (chanPut i c s).fates = s.fates := rfl
@[simp] theorem chanPut_doubts (i : Nat) (c : Chan) (s : State) : (chanPut i c s).doubts = s.doubts := rfl
@[simp] theorem chanPut_peerQueue (i : Nat) (c : Chan) (s : State) : (chanPut i c s).peerQueue = s.peerQueue := rfl
@[simp] theorem chanPut_helloOut (i : Nat) (c : Chan) (s : State) : (chanPut i c s).helloOut = s.helloOut := rfl
@[simp] theorem chanPut_helloIn (i : Nat) (c : Chan) (s : State) : (chanPut i c s).helloIn = s.helloIn := rfl
@[simp] theorem chanPut_helloCount (i : Nat) (c : Chan) (s : State) : (chanPut i c s).helloCount = s.helloCount := rfl
@[simp] theorem chanPut_malformed (i : Nat) (c : Chan) (s : State) : (chanPut i c s).malformed = s.malformed := rfl
@[simp] theorem chanPut_linksUp (i : Nat) (c : Chan) (s : State) : (chanPut i c s).linksUp = s.linksUp := rfl
@[simp] theorem chanPut_paused (i : Nat) (c : Chan) (s : State) : (chanPut i c s).paused = s.paused := rfl
@[simp] theorem chanPut_rcv (i : Nat) (c : Chan) (s : State) : (chanPut i c s).rcv = s.rcv := rfl
@[simp] theorem chanPut_ueCount (i : Nat) (c : Chan) (s : State) : (chanPut i c s).ueCount = s.ueCount := rfl
@[simp] theorem chanPut_ueLimit (i : Nat) (c : Chan) (s : State) : (chanPut i c s).ueLimit = s.ueLimit := rfl
@[simp] theorem chanPut_intRings (i : Nat) (c : Chan) (s : State) : (chanPut i c s).intRings = s.intRings := rfl
@[simp] theorem chanPut_scrub (i : Nat) (c : Chan) (s : State) : (chanPut i c s).scrub = s.scrub := rfl
@[simp] theorem chanPut_ceSeen (i : Nat) (c : Chan) (s : State) : (chanPut i c s).ceSeen = s.ceSeen := rfl
@[simp] theorem chanPut_straits (i : Nat) (c : Chan) (s : State) : (chanPut i c s).straits = s.straits := rfl
@[simp] theorem chanPut_fi (i : Nat) (c : Chan) (s : State) : (chanPut i c s).fi = s.fi := rfl
@[simp] theorem chanPut_wire (i : Nat) (c : Chan) (s : State) : (chanPut i c s).wire = s.wire := rfl
@[simp] theorem chanPut_audit (i : Nat) (c : Chan) (s : State) : (chanPut i c s).audit = s.audit := rfl
@[simp] theorem chanPut_boot (i : Nat) (c : Chan) (s : State) : (chanPut i c s).boot = s.boot := rfl
@[simp] theorem chanPut_fuses (i : Nat) (c : Chan) (s : State) : (chanPut i c s).fuses = s.fuses := rfl
@[simp] theorem chanPut_svc (i : Nat) (c : Chan) (s : State) : (chanPut i c s).svc = s.svc := rfl
@[simp] theorem chanPut_pwr (i : Nat) (c : Chan) (s : State) : (chanPut i c s).pwr = s.pwr := rfl
@[simp] theorem chanPut_pins (i : Nat) (c : Chan) (s : State) : (chanPut i c s).pins = s.pins := rfl

/-! ## objPut -/

@[simp] theorem objPut_pending (o : Nat) (x : SyncObj) (s : State) : (objPut o x s).pending = s.pending := rfl
@[simp] theorem objPut_out (o : Nat) (x : SyncObj) (s : State) : (objPut o x s).out = s.out := rfl
@[simp] theorem objPut_free (o : Nat) (x : SyncObj) (s : State) : (objPut o x s).free = s.free := rfl
@[simp] theorem objPut_time (o : Nat) (x : SyncObj) (s : State) : (objPut o x s).time = s.time := rfl
@[simp] theorem objPut_mem (o : Nat) (x : SyncObj) (s : State) : (objPut o x s).mem = s.mem := rfl
@[simp] theorem objPut_poison (o : Nat) (x : SyncObj) (s : State) : (objPut o x s).poison = s.poison := rfl
@[simp] theorem objPut_flash (o : Nat) (x : SyncObj) (s : State) : (objPut o x s).flash = s.flash := rfl
@[simp] theorem objPut_regs (o : Nat) (x : SyncObj) (s : State) : (objPut o x s).regs = s.regs := rfl
@[simp] theorem objPut_shadow (o : Nat) (x : SyncObj) (s : State) : (objPut o x s).shadow = s.shadow := rfl
@[simp] theorem objPut_counters (o : Nat) (x : SyncObj) (s : State) : (objPut o x s).counters = s.counters := rfl
@[simp] theorem objPut_snap (o : Nat) (x : SyncObj) (s : State) : (objPut o x s).snap = s.snap := rfl
@[simp] theorem objPut_guards (o : Nat) (x : SyncObj) (s : State) : (objPut o x s).guards = s.guards := rfl
@[simp] theorem objPut_hiCaps (o : Nat) (x : SyncObj) (s : State) : (objPut o x s).hiCaps = s.hiCaps := rfl
@[simp] theorem objPut_plt (o : Nat) (x : SyncObj) (s : State) : (objPut o x s).plt = s.plt := rfl
@[simp] theorem objPut_isl (o : Nat) (x : SyncObj) (s : State) : (objPut o x s).isl = s.isl := rfl
@[simp] theorem objPut_chans (o : Nat) (x : SyncObj) (s : State) : (objPut o x s).chans = s.chans := rfl
@[simp] theorem objPut_applied (o : Nat) (x : SyncObj) (s : State) : (objPut o x s).applied = s.applied := rfl
@[simp] theorem objPut_objs (o : Nat) (x : SyncObj) (s : State) : (objPut o x s).objs = mset SyncObj.init s.objs o x := rfl
@[simp] theorem objPut_yzApplied (o : Nat) (x : SyncObj) (s : State) : (objPut o x s).yzApplied = s.yzApplied := rfl
@[simp] theorem objPut_lists (o : Nat) (x : SyncObj) (s : State) : (objPut o x s).lists = s.lists := rfl
@[simp] theorem objPut_barriers (o : Nat) (x : SyncObj) (s : State) : (objPut o x s).barriers = s.barriers := rfl
@[simp] theorem objPut_engines (o : Nat) (x : SyncObj) (s : State) : (objPut o x s).engines = s.engines := rfl
@[simp] theorem objPut_synRings (o : Nat) (x : SyncObj) (s : State) : (objPut o x s).synRings = s.synRings := rfl
@[simp] theorem objPut_wxas (o : Nat) (x : SyncObj) (s : State) : (objPut o x s).wxas = s.wxas := rfl
@[simp] theorem objPut_rcells (o : Nat) (x : SyncObj) (s : State) : (objPut o x s).rcells = s.rcells := rfl
@[simp] theorem objPut_cellLinks (o : Nat) (x : SyncObj) (s : State) : (objPut o x s).cellLinks = s.cellLinks := rfl
@[simp] theorem objPut_dcells (o : Nat) (x : SyncObj) (s : State) : (objPut o x s).dcells = s.dcells := rfl
@[simp] theorem objPut_runs (o : Nat) (x : SyncObj) (s : State) : (objPut o x s).runs = s.runs := rfl
@[simp] theorem objPut_asu (o : Nat) (x : SyncObj) (s : State) : (objPut o x s).asu = s.asu := rfl
@[simp] theorem objPut_asuSide (o : Nat) (x : SyncObj) (s : State) : (objPut o x s).asuSide = s.asuSide := rfl
@[simp] theorem objPut_asuGen (o : Nat) (x : SyncObj) (s : State) : (objPut o x s).asuGen = s.asuGen := rfl
@[simp] theorem objPut_asuLevel (o : Nat) (x : SyncObj) (s : State) : (objPut o x s).asuLevel = s.asuLevel := rfl
@[simp] theorem objPut_asuHeld (o : Nat) (x : SyncObj) (s : State) : (objPut o x s).asuHeld = s.asuHeld := rfl
@[simp] theorem objPut_joins (o : Nat) (x : SyncObj) (s : State) : (objPut o x s).joins = s.joins := rfl
@[simp] theorem objPut_emb (o : Nat) (x : SyncObj) (s : State) : (objPut o x s).emb = s.emb := rfl
@[simp] theorem objPut_delivered (o : Nat) (x : SyncObj) (s : State) : (objPut o x s).delivered = s.delivered := rfl
@[simp] theorem objPut_slotWaits (o : Nat) (x : SyncObj) (s : State) : (objPut o x s).slotWaits = s.slotWaits := rfl
@[simp] theorem objPut_sessions (o : Nat) (x : SyncObj) (s : State) : (objPut o x s).sessions = s.sessions := rfl
@[simp] theorem objPut_nextSid (o : Nat) (x : SyncObj) (s : State) : (objPut o x s).nextSid = s.nextSid := rfl
@[simp] theorem objPut_fates (o : Nat) (x : SyncObj) (s : State) : (objPut o x s).fates = s.fates := rfl
@[simp] theorem objPut_doubts (o : Nat) (x : SyncObj) (s : State) : (objPut o x s).doubts = s.doubts := rfl
@[simp] theorem objPut_peerQueue (o : Nat) (x : SyncObj) (s : State) : (objPut o x s).peerQueue = s.peerQueue := rfl
@[simp] theorem objPut_helloOut (o : Nat) (x : SyncObj) (s : State) : (objPut o x s).helloOut = s.helloOut := rfl
@[simp] theorem objPut_helloIn (o : Nat) (x : SyncObj) (s : State) : (objPut o x s).helloIn = s.helloIn := rfl
@[simp] theorem objPut_helloCount (o : Nat) (x : SyncObj) (s : State) : (objPut o x s).helloCount = s.helloCount := rfl
@[simp] theorem objPut_malformed (o : Nat) (x : SyncObj) (s : State) : (objPut o x s).malformed = s.malformed := rfl
@[simp] theorem objPut_linksUp (o : Nat) (x : SyncObj) (s : State) : (objPut o x s).linksUp = s.linksUp := rfl
@[simp] theorem objPut_paused (o : Nat) (x : SyncObj) (s : State) : (objPut o x s).paused = s.paused := rfl
@[simp] theorem objPut_rcv (o : Nat) (x : SyncObj) (s : State) : (objPut o x s).rcv = s.rcv := rfl
@[simp] theorem objPut_ueCount (o : Nat) (x : SyncObj) (s : State) : (objPut o x s).ueCount = s.ueCount := rfl
@[simp] theorem objPut_ueLimit (o : Nat) (x : SyncObj) (s : State) : (objPut o x s).ueLimit = s.ueLimit := rfl
@[simp] theorem objPut_intRings (o : Nat) (x : SyncObj) (s : State) : (objPut o x s).intRings = s.intRings := rfl
@[simp] theorem objPut_scrub (o : Nat) (x : SyncObj) (s : State) : (objPut o x s).scrub = s.scrub := rfl
@[simp] theorem objPut_ceSeen (o : Nat) (x : SyncObj) (s : State) : (objPut o x s).ceSeen = s.ceSeen := rfl
@[simp] theorem objPut_straits (o : Nat) (x : SyncObj) (s : State) : (objPut o x s).straits = s.straits := rfl
@[simp] theorem objPut_fi (o : Nat) (x : SyncObj) (s : State) : (objPut o x s).fi = s.fi := rfl
@[simp] theorem objPut_wire (o : Nat) (x : SyncObj) (s : State) : (objPut o x s).wire = s.wire := rfl
@[simp] theorem objPut_audit (o : Nat) (x : SyncObj) (s : State) : (objPut o x s).audit = s.audit := rfl
@[simp] theorem objPut_boot (o : Nat) (x : SyncObj) (s : State) : (objPut o x s).boot = s.boot := rfl
@[simp] theorem objPut_fuses (o : Nat) (x : SyncObj) (s : State) : (objPut o x s).fuses = s.fuses := rfl
@[simp] theorem objPut_svc (o : Nat) (x : SyncObj) (s : State) : (objPut o x s).svc = s.svc := rfl
@[simp] theorem objPut_pwr (o : Nat) (x : SyncObj) (s : State) : (objPut o x s).pwr = s.pwr := rfl
@[simp] theorem objPut_pins (o : Nat) (x : SyncObj) (s : State) : (objPut o x s).pins = s.pins := rfl

/-! ## seqPut -/

@[simp] theorem seqPut_pending (k : Nat) (x : SeqList) (s : State) : (seqPut k x s).pending = s.pending := rfl
@[simp] theorem seqPut_out (k : Nat) (x : SeqList) (s : State) : (seqPut k x s).out = s.out := rfl
@[simp] theorem seqPut_free (k : Nat) (x : SeqList) (s : State) : (seqPut k x s).free = s.free := rfl
@[simp] theorem seqPut_time (k : Nat) (x : SeqList) (s : State) : (seqPut k x s).time = s.time := rfl
@[simp] theorem seqPut_mem (k : Nat) (x : SeqList) (s : State) : (seqPut k x s).mem = s.mem := rfl
@[simp] theorem seqPut_poison (k : Nat) (x : SeqList) (s : State) : (seqPut k x s).poison = s.poison := rfl
@[simp] theorem seqPut_flash (k : Nat) (x : SeqList) (s : State) : (seqPut k x s).flash = s.flash := rfl
@[simp] theorem seqPut_regs (k : Nat) (x : SeqList) (s : State) : (seqPut k x s).regs = s.regs := rfl
@[simp] theorem seqPut_shadow (k : Nat) (x : SeqList) (s : State) : (seqPut k x s).shadow = s.shadow := rfl
@[simp] theorem seqPut_counters (k : Nat) (x : SeqList) (s : State) : (seqPut k x s).counters = s.counters := rfl
@[simp] theorem seqPut_snap (k : Nat) (x : SeqList) (s : State) : (seqPut k x s).snap = s.snap := rfl
@[simp] theorem seqPut_guards (k : Nat) (x : SeqList) (s : State) : (seqPut k x s).guards = s.guards := rfl
@[simp] theorem seqPut_hiCaps (k : Nat) (x : SeqList) (s : State) : (seqPut k x s).hiCaps = s.hiCaps := rfl
@[simp] theorem seqPut_plt (k : Nat) (x : SeqList) (s : State) : (seqPut k x s).plt = s.plt := rfl
@[simp] theorem seqPut_isl (k : Nat) (x : SeqList) (s : State) : (seqPut k x s).isl = s.isl := rfl
@[simp] theorem seqPut_chans (k : Nat) (x : SeqList) (s : State) : (seqPut k x s).chans = s.chans := rfl
@[simp] theorem seqPut_applied (k : Nat) (x : SeqList) (s : State) : (seqPut k x s).applied = s.applied := rfl
@[simp] theorem seqPut_objs (k : Nat) (x : SeqList) (s : State) : (seqPut k x s).objs = s.objs := rfl
@[simp] theorem seqPut_yzApplied (k : Nat) (x : SeqList) (s : State) : (seqPut k x s).yzApplied = s.yzApplied := rfl
@[simp] theorem seqPut_lists (k : Nat) (x : SeqList) (s : State) : (seqPut k x s).lists = mset SeqList.init s.lists k x := rfl
@[simp] theorem seqPut_barriers (k : Nat) (x : SeqList) (s : State) : (seqPut k x s).barriers = s.barriers := rfl
@[simp] theorem seqPut_engines (k : Nat) (x : SeqList) (s : State) : (seqPut k x s).engines = s.engines := rfl
@[simp] theorem seqPut_synRings (k : Nat) (x : SeqList) (s : State) : (seqPut k x s).synRings = s.synRings := rfl
@[simp] theorem seqPut_wxas (k : Nat) (x : SeqList) (s : State) : (seqPut k x s).wxas = s.wxas := rfl
@[simp] theorem seqPut_rcells (k : Nat) (x : SeqList) (s : State) : (seqPut k x s).rcells = s.rcells := rfl
@[simp] theorem seqPut_cellLinks (k : Nat) (x : SeqList) (s : State) : (seqPut k x s).cellLinks = s.cellLinks := rfl
@[simp] theorem seqPut_dcells (k : Nat) (x : SeqList) (s : State) : (seqPut k x s).dcells = s.dcells := rfl
@[simp] theorem seqPut_runs (k : Nat) (x : SeqList) (s : State) : (seqPut k x s).runs = s.runs := rfl
@[simp] theorem seqPut_asu (k : Nat) (x : SeqList) (s : State) : (seqPut k x s).asu = s.asu := rfl
@[simp] theorem seqPut_asuSide (k : Nat) (x : SeqList) (s : State) : (seqPut k x s).asuSide = s.asuSide := rfl
@[simp] theorem seqPut_asuGen (k : Nat) (x : SeqList) (s : State) : (seqPut k x s).asuGen = s.asuGen := rfl
@[simp] theorem seqPut_asuLevel (k : Nat) (x : SeqList) (s : State) : (seqPut k x s).asuLevel = s.asuLevel := rfl
@[simp] theorem seqPut_asuHeld (k : Nat) (x : SeqList) (s : State) : (seqPut k x s).asuHeld = s.asuHeld := rfl
@[simp] theorem seqPut_joins (k : Nat) (x : SeqList) (s : State) : (seqPut k x s).joins = s.joins := rfl
@[simp] theorem seqPut_emb (k : Nat) (x : SeqList) (s : State) : (seqPut k x s).emb = s.emb := rfl
@[simp] theorem seqPut_delivered (k : Nat) (x : SeqList) (s : State) : (seqPut k x s).delivered = s.delivered := rfl
@[simp] theorem seqPut_slotWaits (k : Nat) (x : SeqList) (s : State) : (seqPut k x s).slotWaits = s.slotWaits := rfl
@[simp] theorem seqPut_sessions (k : Nat) (x : SeqList) (s : State) : (seqPut k x s).sessions = s.sessions := rfl
@[simp] theorem seqPut_nextSid (k : Nat) (x : SeqList) (s : State) : (seqPut k x s).nextSid = s.nextSid := rfl
@[simp] theorem seqPut_fates (k : Nat) (x : SeqList) (s : State) : (seqPut k x s).fates = s.fates := rfl
@[simp] theorem seqPut_doubts (k : Nat) (x : SeqList) (s : State) : (seqPut k x s).doubts = s.doubts := rfl
@[simp] theorem seqPut_peerQueue (k : Nat) (x : SeqList) (s : State) : (seqPut k x s).peerQueue = s.peerQueue := rfl
@[simp] theorem seqPut_helloOut (k : Nat) (x : SeqList) (s : State) : (seqPut k x s).helloOut = s.helloOut := rfl
@[simp] theorem seqPut_helloIn (k : Nat) (x : SeqList) (s : State) : (seqPut k x s).helloIn = s.helloIn := rfl
@[simp] theorem seqPut_helloCount (k : Nat) (x : SeqList) (s : State) : (seqPut k x s).helloCount = s.helloCount := rfl
@[simp] theorem seqPut_malformed (k : Nat) (x : SeqList) (s : State) : (seqPut k x s).malformed = s.malformed := rfl
@[simp] theorem seqPut_linksUp (k : Nat) (x : SeqList) (s : State) : (seqPut k x s).linksUp = s.linksUp := rfl
@[simp] theorem seqPut_paused (k : Nat) (x : SeqList) (s : State) : (seqPut k x s).paused = s.paused := rfl
@[simp] theorem seqPut_rcv (k : Nat) (x : SeqList) (s : State) : (seqPut k x s).rcv = s.rcv := rfl
@[simp] theorem seqPut_ueCount (k : Nat) (x : SeqList) (s : State) : (seqPut k x s).ueCount = s.ueCount := rfl
@[simp] theorem seqPut_ueLimit (k : Nat) (x : SeqList) (s : State) : (seqPut k x s).ueLimit = s.ueLimit := rfl
@[simp] theorem seqPut_intRings (k : Nat) (x : SeqList) (s : State) : (seqPut k x s).intRings = s.intRings := rfl
@[simp] theorem seqPut_scrub (k : Nat) (x : SeqList) (s : State) : (seqPut k x s).scrub = s.scrub := rfl
@[simp] theorem seqPut_ceSeen (k : Nat) (x : SeqList) (s : State) : (seqPut k x s).ceSeen = s.ceSeen := rfl
@[simp] theorem seqPut_straits (k : Nat) (x : SeqList) (s : State) : (seqPut k x s).straits = s.straits := rfl
@[simp] theorem seqPut_fi (k : Nat) (x : SeqList) (s : State) : (seqPut k x s).fi = s.fi := rfl
@[simp] theorem seqPut_wire (k : Nat) (x : SeqList) (s : State) : (seqPut k x s).wire = s.wire := rfl
@[simp] theorem seqPut_audit (k : Nat) (x : SeqList) (s : State) : (seqPut k x s).audit = s.audit := rfl
@[simp] theorem seqPut_boot (k : Nat) (x : SeqList) (s : State) : (seqPut k x s).boot = s.boot := rfl
@[simp] theorem seqPut_fuses (k : Nat) (x : SeqList) (s : State) : (seqPut k x s).fuses = s.fuses := rfl
@[simp] theorem seqPut_svc (k : Nat) (x : SeqList) (s : State) : (seqPut k x s).svc = s.svc := rfl
@[simp] theorem seqPut_pwr (k : Nat) (x : SeqList) (s : State) : (seqPut k x s).pwr = s.pwr := rfl
@[simp] theorem seqPut_pins (k : Nat) (x : SeqList) (s : State) : (seqPut k x s).pins = s.pins := rfl

/-! ## barPut -/

@[simp] theorem barPut_pending (b : Nat) (x : Barrier) (s : State) : (barPut b x s).pending = s.pending := rfl
@[simp] theorem barPut_out (b : Nat) (x : Barrier) (s : State) : (barPut b x s).out = s.out := rfl
@[simp] theorem barPut_free (b : Nat) (x : Barrier) (s : State) : (barPut b x s).free = s.free := rfl
@[simp] theorem barPut_time (b : Nat) (x : Barrier) (s : State) : (barPut b x s).time = s.time := rfl
@[simp] theorem barPut_mem (b : Nat) (x : Barrier) (s : State) : (barPut b x s).mem = s.mem := rfl
@[simp] theorem barPut_poison (b : Nat) (x : Barrier) (s : State) : (barPut b x s).poison = s.poison := rfl
@[simp] theorem barPut_flash (b : Nat) (x : Barrier) (s : State) : (barPut b x s).flash = s.flash := rfl
@[simp] theorem barPut_regs (b : Nat) (x : Barrier) (s : State) : (barPut b x s).regs = s.regs := rfl
@[simp] theorem barPut_shadow (b : Nat) (x : Barrier) (s : State) : (barPut b x s).shadow = s.shadow := rfl
@[simp] theorem barPut_counters (b : Nat) (x : Barrier) (s : State) : (barPut b x s).counters = s.counters := rfl
@[simp] theorem barPut_snap (b : Nat) (x : Barrier) (s : State) : (barPut b x s).snap = s.snap := rfl
@[simp] theorem barPut_guards (b : Nat) (x : Barrier) (s : State) : (barPut b x s).guards = s.guards := rfl
@[simp] theorem barPut_hiCaps (b : Nat) (x : Barrier) (s : State) : (barPut b x s).hiCaps = s.hiCaps := rfl
@[simp] theorem barPut_plt (b : Nat) (x : Barrier) (s : State) : (barPut b x s).plt = s.plt := rfl
@[simp] theorem barPut_isl (b : Nat) (x : Barrier) (s : State) : (barPut b x s).isl = s.isl := rfl
@[simp] theorem barPut_chans (b : Nat) (x : Barrier) (s : State) : (barPut b x s).chans = s.chans := rfl
@[simp] theorem barPut_applied (b : Nat) (x : Barrier) (s : State) : (barPut b x s).applied = s.applied := rfl
@[simp] theorem barPut_objs (b : Nat) (x : Barrier) (s : State) : (barPut b x s).objs = s.objs := rfl
@[simp] theorem barPut_yzApplied (b : Nat) (x : Barrier) (s : State) : (barPut b x s).yzApplied = s.yzApplied := rfl
@[simp] theorem barPut_lists (b : Nat) (x : Barrier) (s : State) : (barPut b x s).lists = s.lists := rfl
@[simp] theorem barPut_barriers (b : Nat) (x : Barrier) (s : State) : (barPut b x s).barriers = mset Barrier.init s.barriers b x := rfl
@[simp] theorem barPut_engines (b : Nat) (x : Barrier) (s : State) : (barPut b x s).engines = s.engines := rfl
@[simp] theorem barPut_synRings (b : Nat) (x : Barrier) (s : State) : (barPut b x s).synRings = s.synRings := rfl
@[simp] theorem barPut_wxas (b : Nat) (x : Barrier) (s : State) : (barPut b x s).wxas = s.wxas := rfl
@[simp] theorem barPut_rcells (b : Nat) (x : Barrier) (s : State) : (barPut b x s).rcells = s.rcells := rfl
@[simp] theorem barPut_cellLinks (b : Nat) (x : Barrier) (s : State) : (barPut b x s).cellLinks = s.cellLinks := rfl
@[simp] theorem barPut_dcells (b : Nat) (x : Barrier) (s : State) : (barPut b x s).dcells = s.dcells := rfl
@[simp] theorem barPut_runs (b : Nat) (x : Barrier) (s : State) : (barPut b x s).runs = s.runs := rfl
@[simp] theorem barPut_asu (b : Nat) (x : Barrier) (s : State) : (barPut b x s).asu = s.asu := rfl
@[simp] theorem barPut_asuSide (b : Nat) (x : Barrier) (s : State) : (barPut b x s).asuSide = s.asuSide := rfl
@[simp] theorem barPut_asuGen (b : Nat) (x : Barrier) (s : State) : (barPut b x s).asuGen = s.asuGen := rfl
@[simp] theorem barPut_asuLevel (b : Nat) (x : Barrier) (s : State) : (barPut b x s).asuLevel = s.asuLevel := rfl
@[simp] theorem barPut_asuHeld (b : Nat) (x : Barrier) (s : State) : (barPut b x s).asuHeld = s.asuHeld := rfl
@[simp] theorem barPut_joins (b : Nat) (x : Barrier) (s : State) : (barPut b x s).joins = s.joins := rfl
@[simp] theorem barPut_emb (b : Nat) (x : Barrier) (s : State) : (barPut b x s).emb = s.emb := rfl
@[simp] theorem barPut_delivered (b : Nat) (x : Barrier) (s : State) : (barPut b x s).delivered = s.delivered := rfl
@[simp] theorem barPut_slotWaits (b : Nat) (x : Barrier) (s : State) : (barPut b x s).slotWaits = s.slotWaits := rfl
@[simp] theorem barPut_sessions (b : Nat) (x : Barrier) (s : State) : (barPut b x s).sessions = s.sessions := rfl
@[simp] theorem barPut_nextSid (b : Nat) (x : Barrier) (s : State) : (barPut b x s).nextSid = s.nextSid := rfl
@[simp] theorem barPut_fates (b : Nat) (x : Barrier) (s : State) : (barPut b x s).fates = s.fates := rfl
@[simp] theorem barPut_doubts (b : Nat) (x : Barrier) (s : State) : (barPut b x s).doubts = s.doubts := rfl
@[simp] theorem barPut_peerQueue (b : Nat) (x : Barrier) (s : State) : (barPut b x s).peerQueue = s.peerQueue := rfl
@[simp] theorem barPut_helloOut (b : Nat) (x : Barrier) (s : State) : (barPut b x s).helloOut = s.helloOut := rfl
@[simp] theorem barPut_helloIn (b : Nat) (x : Barrier) (s : State) : (barPut b x s).helloIn = s.helloIn := rfl
@[simp] theorem barPut_helloCount (b : Nat) (x : Barrier) (s : State) : (barPut b x s).helloCount = s.helloCount := rfl
@[simp] theorem barPut_malformed (b : Nat) (x : Barrier) (s : State) : (barPut b x s).malformed = s.malformed := rfl
@[simp] theorem barPut_linksUp (b : Nat) (x : Barrier) (s : State) : (barPut b x s).linksUp = s.linksUp := rfl
@[simp] theorem barPut_paused (b : Nat) (x : Barrier) (s : State) : (barPut b x s).paused = s.paused := rfl
@[simp] theorem barPut_rcv (b : Nat) (x : Barrier) (s : State) : (barPut b x s).rcv = s.rcv := rfl
@[simp] theorem barPut_ueCount (b : Nat) (x : Barrier) (s : State) : (barPut b x s).ueCount = s.ueCount := rfl
@[simp] theorem barPut_ueLimit (b : Nat) (x : Barrier) (s : State) : (barPut b x s).ueLimit = s.ueLimit := rfl
@[simp] theorem barPut_intRings (b : Nat) (x : Barrier) (s : State) : (barPut b x s).intRings = s.intRings := rfl
@[simp] theorem barPut_scrub (b : Nat) (x : Barrier) (s : State) : (barPut b x s).scrub = s.scrub := rfl
@[simp] theorem barPut_ceSeen (b : Nat) (x : Barrier) (s : State) : (barPut b x s).ceSeen = s.ceSeen := rfl
@[simp] theorem barPut_straits (b : Nat) (x : Barrier) (s : State) : (barPut b x s).straits = s.straits := rfl
@[simp] theorem barPut_fi (b : Nat) (x : Barrier) (s : State) : (barPut b x s).fi = s.fi := rfl
@[simp] theorem barPut_wire (b : Nat) (x : Barrier) (s : State) : (barPut b x s).wire = s.wire := rfl
@[simp] theorem barPut_audit (b : Nat) (x : Barrier) (s : State) : (barPut b x s).audit = s.audit := rfl
@[simp] theorem barPut_boot (b : Nat) (x : Barrier) (s : State) : (barPut b x s).boot = s.boot := rfl
@[simp] theorem barPut_fuses (b : Nat) (x : Barrier) (s : State) : (barPut b x s).fuses = s.fuses := rfl
@[simp] theorem barPut_svc (b : Nat) (x : Barrier) (s : State) : (barPut b x s).svc = s.svc := rfl
@[simp] theorem barPut_pwr (b : Nat) (x : Barrier) (s : State) : (barPut b x s).pwr = s.pwr := rfl
@[simp] theorem barPut_pins (b : Nat) (x : Barrier) (s : State) : (barPut b x s).pins = s.pins := rfl

/-! ## wxaPut -/

@[simp] theorem wxaPut_pending (k : Nat) (w : Wxa) (s : State) : (wxaPut k w s).pending = s.pending := rfl
@[simp] theorem wxaPut_out (k : Nat) (w : Wxa) (s : State) : (wxaPut k w s).out = s.out := rfl
@[simp] theorem wxaPut_free (k : Nat) (w : Wxa) (s : State) : (wxaPut k w s).free = s.free := rfl
@[simp] theorem wxaPut_time (k : Nat) (w : Wxa) (s : State) : (wxaPut k w s).time = s.time := rfl
@[simp] theorem wxaPut_mem (k : Nat) (w : Wxa) (s : State) : (wxaPut k w s).mem = s.mem := rfl
@[simp] theorem wxaPut_poison (k : Nat) (w : Wxa) (s : State) : (wxaPut k w s).poison = s.poison := rfl
@[simp] theorem wxaPut_flash (k : Nat) (w : Wxa) (s : State) : (wxaPut k w s).flash = s.flash := rfl
@[simp] theorem wxaPut_regs (k : Nat) (w : Wxa) (s : State) : (wxaPut k w s).regs = s.regs := rfl
@[simp] theorem wxaPut_shadow (k : Nat) (w : Wxa) (s : State) : (wxaPut k w s).shadow = s.shadow := rfl
@[simp] theorem wxaPut_counters (k : Nat) (w : Wxa) (s : State) : (wxaPut k w s).counters = s.counters := rfl
@[simp] theorem wxaPut_snap (k : Nat) (w : Wxa) (s : State) : (wxaPut k w s).snap = s.snap := rfl
@[simp] theorem wxaPut_guards (k : Nat) (w : Wxa) (s : State) : (wxaPut k w s).guards = s.guards := rfl
@[simp] theorem wxaPut_hiCaps (k : Nat) (w : Wxa) (s : State) : (wxaPut k w s).hiCaps = s.hiCaps := rfl
@[simp] theorem wxaPut_plt (k : Nat) (w : Wxa) (s : State) : (wxaPut k w s).plt = s.plt := rfl
@[simp] theorem wxaPut_isl (k : Nat) (w : Wxa) (s : State) : (wxaPut k w s).isl = s.isl := rfl
@[simp] theorem wxaPut_chans (k : Nat) (w : Wxa) (s : State) : (wxaPut k w s).chans = s.chans := rfl
@[simp] theorem wxaPut_applied (k : Nat) (w : Wxa) (s : State) : (wxaPut k w s).applied = s.applied := rfl
@[simp] theorem wxaPut_objs (k : Nat) (w : Wxa) (s : State) : (wxaPut k w s).objs = s.objs := rfl
@[simp] theorem wxaPut_yzApplied (k : Nat) (w : Wxa) (s : State) : (wxaPut k w s).yzApplied = s.yzApplied := rfl
@[simp] theorem wxaPut_lists (k : Nat) (w : Wxa) (s : State) : (wxaPut k w s).lists = s.lists := rfl
@[simp] theorem wxaPut_barriers (k : Nat) (w : Wxa) (s : State) : (wxaPut k w s).barriers = s.barriers := rfl
@[simp] theorem wxaPut_engines (k : Nat) (w : Wxa) (s : State) : (wxaPut k w s).engines = s.engines := rfl
@[simp] theorem wxaPut_synRings (k : Nat) (w : Wxa) (s : State) : (wxaPut k w s).synRings = s.synRings := rfl
@[simp] theorem wxaPut_wxas (k : Nat) (w : Wxa) (s : State) : (wxaPut k w s).wxas = mset Wxa.init s.wxas k w := rfl
@[simp] theorem wxaPut_rcells (k : Nat) (w : Wxa) (s : State) : (wxaPut k w s).rcells = s.rcells := rfl
@[simp] theorem wxaPut_cellLinks (k : Nat) (w : Wxa) (s : State) : (wxaPut k w s).cellLinks = s.cellLinks := rfl
@[simp] theorem wxaPut_dcells (k : Nat) (w : Wxa) (s : State) : (wxaPut k w s).dcells = s.dcells := rfl
@[simp] theorem wxaPut_runs (k : Nat) (w : Wxa) (s : State) : (wxaPut k w s).runs = s.runs := rfl
@[simp] theorem wxaPut_asu (k : Nat) (w : Wxa) (s : State) : (wxaPut k w s).asu = s.asu := rfl
@[simp] theorem wxaPut_asuSide (k : Nat) (w : Wxa) (s : State) : (wxaPut k w s).asuSide = s.asuSide := rfl
@[simp] theorem wxaPut_asuGen (k : Nat) (w : Wxa) (s : State) : (wxaPut k w s).asuGen = s.asuGen := rfl
@[simp] theorem wxaPut_asuLevel (k : Nat) (w : Wxa) (s : State) : (wxaPut k w s).asuLevel = s.asuLevel := rfl
@[simp] theorem wxaPut_asuHeld (k : Nat) (w : Wxa) (s : State) : (wxaPut k w s).asuHeld = s.asuHeld := rfl
@[simp] theorem wxaPut_joins (k : Nat) (w : Wxa) (s : State) : (wxaPut k w s).joins = s.joins := rfl
@[simp] theorem wxaPut_emb (k : Nat) (w : Wxa) (s : State) : (wxaPut k w s).emb = s.emb := rfl
@[simp] theorem wxaPut_delivered (k : Nat) (w : Wxa) (s : State) : (wxaPut k w s).delivered = s.delivered := rfl
@[simp] theorem wxaPut_slotWaits (k : Nat) (w : Wxa) (s : State) : (wxaPut k w s).slotWaits = s.slotWaits := rfl
@[simp] theorem wxaPut_sessions (k : Nat) (w : Wxa) (s : State) : (wxaPut k w s).sessions = s.sessions := rfl
@[simp] theorem wxaPut_nextSid (k : Nat) (w : Wxa) (s : State) : (wxaPut k w s).nextSid = s.nextSid := rfl
@[simp] theorem wxaPut_fates (k : Nat) (w : Wxa) (s : State) : (wxaPut k w s).fates = s.fates := rfl
@[simp] theorem wxaPut_doubts (k : Nat) (w : Wxa) (s : State) : (wxaPut k w s).doubts = s.doubts := rfl
@[simp] theorem wxaPut_peerQueue (k : Nat) (w : Wxa) (s : State) : (wxaPut k w s).peerQueue = s.peerQueue := rfl
@[simp] theorem wxaPut_helloOut (k : Nat) (w : Wxa) (s : State) : (wxaPut k w s).helloOut = s.helloOut := rfl
@[simp] theorem wxaPut_helloIn (k : Nat) (w : Wxa) (s : State) : (wxaPut k w s).helloIn = s.helloIn := rfl
@[simp] theorem wxaPut_helloCount (k : Nat) (w : Wxa) (s : State) : (wxaPut k w s).helloCount = s.helloCount := rfl
@[simp] theorem wxaPut_malformed (k : Nat) (w : Wxa) (s : State) : (wxaPut k w s).malformed = s.malformed := rfl
@[simp] theorem wxaPut_linksUp (k : Nat) (w : Wxa) (s : State) : (wxaPut k w s).linksUp = s.linksUp := rfl
@[simp] theorem wxaPut_paused (k : Nat) (w : Wxa) (s : State) : (wxaPut k w s).paused = s.paused := rfl
@[simp] theorem wxaPut_rcv (k : Nat) (w : Wxa) (s : State) : (wxaPut k w s).rcv = s.rcv := rfl
@[simp] theorem wxaPut_ueCount (k : Nat) (w : Wxa) (s : State) : (wxaPut k w s).ueCount = s.ueCount := rfl
@[simp] theorem wxaPut_ueLimit (k : Nat) (w : Wxa) (s : State) : (wxaPut k w s).ueLimit = s.ueLimit := rfl
@[simp] theorem wxaPut_intRings (k : Nat) (w : Wxa) (s : State) : (wxaPut k w s).intRings = s.intRings := rfl
@[simp] theorem wxaPut_scrub (k : Nat) (w : Wxa) (s : State) : (wxaPut k w s).scrub = s.scrub := rfl
@[simp] theorem wxaPut_ceSeen (k : Nat) (w : Wxa) (s : State) : (wxaPut k w s).ceSeen = s.ceSeen := rfl
@[simp] theorem wxaPut_straits (k : Nat) (w : Wxa) (s : State) : (wxaPut k w s).straits = s.straits := rfl
@[simp] theorem wxaPut_fi (k : Nat) (w : Wxa) (s : State) : (wxaPut k w s).fi = s.fi := rfl
@[simp] theorem wxaPut_wire (k : Nat) (w : Wxa) (s : State) : (wxaPut k w s).wire = s.wire := rfl
@[simp] theorem wxaPut_audit (k : Nat) (w : Wxa) (s : State) : (wxaPut k w s).audit = s.audit := rfl
@[simp] theorem wxaPut_boot (k : Nat) (w : Wxa) (s : State) : (wxaPut k w s).boot = s.boot := rfl
@[simp] theorem wxaPut_fuses (k : Nat) (w : Wxa) (s : State) : (wxaPut k w s).fuses = s.fuses := rfl
@[simp] theorem wxaPut_svc (k : Nat) (w : Wxa) (s : State) : (wxaPut k w s).svc = s.svc := rfl
@[simp] theorem wxaPut_pwr (k : Nat) (w : Wxa) (s : State) : (wxaPut k w s).pwr = s.pwr := rfl
@[simp] theorem wxaPut_pins (k : Nat) (w : Wxa) (s : State) : (wxaPut k w s).pins = s.pins := rfl

/-! ## embPut -/

@[simp] theorem embPut_pending (t : Nat) (e : Emb) (s : State) : (embPut t e s).pending = s.pending := rfl
@[simp] theorem embPut_out (t : Nat) (e : Emb) (s : State) : (embPut t e s).out = s.out := rfl
@[simp] theorem embPut_free (t : Nat) (e : Emb) (s : State) : (embPut t e s).free = s.free := rfl
@[simp] theorem embPut_time (t : Nat) (e : Emb) (s : State) : (embPut t e s).time = s.time := rfl
@[simp] theorem embPut_mem (t : Nat) (e : Emb) (s : State) : (embPut t e s).mem = s.mem := rfl
@[simp] theorem embPut_poison (t : Nat) (e : Emb) (s : State) : (embPut t e s).poison = s.poison := rfl
@[simp] theorem embPut_flash (t : Nat) (e : Emb) (s : State) : (embPut t e s).flash = s.flash := rfl
@[simp] theorem embPut_regs (t : Nat) (e : Emb) (s : State) : (embPut t e s).regs = s.regs := rfl
@[simp] theorem embPut_shadow (t : Nat) (e : Emb) (s : State) : (embPut t e s).shadow = s.shadow := rfl
@[simp] theorem embPut_counters (t : Nat) (e : Emb) (s : State) : (embPut t e s).counters = s.counters := rfl
@[simp] theorem embPut_snap (t : Nat) (e : Emb) (s : State) : (embPut t e s).snap = s.snap := rfl
@[simp] theorem embPut_guards (t : Nat) (e : Emb) (s : State) : (embPut t e s).guards = s.guards := rfl
@[simp] theorem embPut_hiCaps (t : Nat) (e : Emb) (s : State) : (embPut t e s).hiCaps = s.hiCaps := rfl
@[simp] theorem embPut_plt (t : Nat) (e : Emb) (s : State) : (embPut t e s).plt = s.plt := rfl
@[simp] theorem embPut_isl (t : Nat) (e : Emb) (s : State) : (embPut t e s).isl = s.isl := rfl
@[simp] theorem embPut_chans (t : Nat) (e : Emb) (s : State) : (embPut t e s).chans = s.chans := rfl
@[simp] theorem embPut_applied (t : Nat) (e : Emb) (s : State) : (embPut t e s).applied = s.applied := rfl
@[simp] theorem embPut_objs (t : Nat) (e : Emb) (s : State) : (embPut t e s).objs = s.objs := rfl
@[simp] theorem embPut_yzApplied (t : Nat) (e : Emb) (s : State) : (embPut t e s).yzApplied = s.yzApplied := rfl
@[simp] theorem embPut_lists (t : Nat) (e : Emb) (s : State) : (embPut t e s).lists = s.lists := rfl
@[simp] theorem embPut_barriers (t : Nat) (e : Emb) (s : State) : (embPut t e s).barriers = s.barriers := rfl
@[simp] theorem embPut_engines (t : Nat) (e : Emb) (s : State) : (embPut t e s).engines = s.engines := rfl
@[simp] theorem embPut_synRings (t : Nat) (e : Emb) (s : State) : (embPut t e s).synRings = s.synRings := rfl
@[simp] theorem embPut_wxas (t : Nat) (e : Emb) (s : State) : (embPut t e s).wxas = s.wxas := rfl
@[simp] theorem embPut_rcells (t : Nat) (e : Emb) (s : State) : (embPut t e s).rcells = s.rcells := rfl
@[simp] theorem embPut_cellLinks (t : Nat) (e : Emb) (s : State) : (embPut t e s).cellLinks = s.cellLinks := rfl
@[simp] theorem embPut_dcells (t : Nat) (e : Emb) (s : State) : (embPut t e s).dcells = s.dcells := rfl
@[simp] theorem embPut_runs (t : Nat) (e : Emb) (s : State) : (embPut t e s).runs = s.runs := rfl
@[simp] theorem embPut_asu (t : Nat) (e : Emb) (s : State) : (embPut t e s).asu = s.asu := rfl
@[simp] theorem embPut_asuSide (t : Nat) (e : Emb) (s : State) : (embPut t e s).asuSide = s.asuSide := rfl
@[simp] theorem embPut_asuGen (t : Nat) (e : Emb) (s : State) : (embPut t e s).asuGen = s.asuGen := rfl
@[simp] theorem embPut_asuLevel (t : Nat) (e : Emb) (s : State) : (embPut t e s).asuLevel = s.asuLevel := rfl
@[simp] theorem embPut_asuHeld (t : Nat) (e : Emb) (s : State) : (embPut t e s).asuHeld = s.asuHeld := rfl
@[simp] theorem embPut_joins (t : Nat) (e : Emb) (s : State) : (embPut t e s).joins = s.joins := rfl
@[simp] theorem embPut_emb (t : Nat) (e : Emb) (s : State) : (embPut t e s).emb = mset Emb.init s.emb t e := rfl
@[simp] theorem embPut_delivered (t : Nat) (e : Emb) (s : State) : (embPut t e s).delivered = s.delivered := rfl
@[simp] theorem embPut_slotWaits (t : Nat) (e : Emb) (s : State) : (embPut t e s).slotWaits = s.slotWaits := rfl
@[simp] theorem embPut_sessions (t : Nat) (e : Emb) (s : State) : (embPut t e s).sessions = s.sessions := rfl
@[simp] theorem embPut_nextSid (t : Nat) (e : Emb) (s : State) : (embPut t e s).nextSid = s.nextSid := rfl
@[simp] theorem embPut_fates (t : Nat) (e : Emb) (s : State) : (embPut t e s).fates = s.fates := rfl
@[simp] theorem embPut_doubts (t : Nat) (e : Emb) (s : State) : (embPut t e s).doubts = s.doubts := rfl
@[simp] theorem embPut_peerQueue (t : Nat) (e : Emb) (s : State) : (embPut t e s).peerQueue = s.peerQueue := rfl
@[simp] theorem embPut_helloOut (t : Nat) (e : Emb) (s : State) : (embPut t e s).helloOut = s.helloOut := rfl
@[simp] theorem embPut_helloIn (t : Nat) (e : Emb) (s : State) : (embPut t e s).helloIn = s.helloIn := rfl
@[simp] theorem embPut_helloCount (t : Nat) (e : Emb) (s : State) : (embPut t e s).helloCount = s.helloCount := rfl
@[simp] theorem embPut_malformed (t : Nat) (e : Emb) (s : State) : (embPut t e s).malformed = s.malformed := rfl
@[simp] theorem embPut_linksUp (t : Nat) (e : Emb) (s : State) : (embPut t e s).linksUp = s.linksUp := rfl
@[simp] theorem embPut_paused (t : Nat) (e : Emb) (s : State) : (embPut t e s).paused = s.paused := rfl
@[simp] theorem embPut_rcv (t : Nat) (e : Emb) (s : State) : (embPut t e s).rcv = s.rcv := rfl
@[simp] theorem embPut_ueCount (t : Nat) (e : Emb) (s : State) : (embPut t e s).ueCount = s.ueCount := rfl
@[simp] theorem embPut_ueLimit (t : Nat) (e : Emb) (s : State) : (embPut t e s).ueLimit = s.ueLimit := rfl
@[simp] theorem embPut_intRings (t : Nat) (e : Emb) (s : State) : (embPut t e s).intRings = s.intRings := rfl
@[simp] theorem embPut_scrub (t : Nat) (e : Emb) (s : State) : (embPut t e s).scrub = s.scrub := rfl
@[simp] theorem embPut_ceSeen (t : Nat) (e : Emb) (s : State) : (embPut t e s).ceSeen = s.ceSeen := rfl
@[simp] theorem embPut_straits (t : Nat) (e : Emb) (s : State) : (embPut t e s).straits = s.straits := rfl
@[simp] theorem embPut_fi (t : Nat) (e : Emb) (s : State) : (embPut t e s).fi = s.fi := rfl
@[simp] theorem embPut_wire (t : Nat) (e : Emb) (s : State) : (embPut t e s).wire = s.wire := rfl
@[simp] theorem embPut_audit (t : Nat) (e : Emb) (s : State) : (embPut t e s).audit = s.audit := rfl
@[simp] theorem embPut_boot (t : Nat) (e : Emb) (s : State) : (embPut t e s).boot = s.boot := rfl
@[simp] theorem embPut_fuses (t : Nat) (e : Emb) (s : State) : (embPut t e s).fuses = s.fuses := rfl
@[simp] theorem embPut_svc (t : Nat) (e : Emb) (s : State) : (embPut t e s).svc = s.svc := rfl
@[simp] theorem embPut_pwr (t : Nat) (e : Emb) (s : State) : (embPut t e s).pwr = s.pwr := rfl
@[simp] theorem embPut_pins (t : Nat) (e : Emb) (s : State) : (embPut t e s).pins = s.pins := rfl

/-! ## sessPut -/

@[simp] theorem sessPut_pending (k : Nat) (x : Session) (s : State) : (sessPut k x s).pending = s.pending := rfl
@[simp] theorem sessPut_out (k : Nat) (x : Session) (s : State) : (sessPut k x s).out = s.out := rfl
@[simp] theorem sessPut_free (k : Nat) (x : Session) (s : State) : (sessPut k x s).free = s.free := rfl
@[simp] theorem sessPut_time (k : Nat) (x : Session) (s : State) : (sessPut k x s).time = s.time := rfl
@[simp] theorem sessPut_mem (k : Nat) (x : Session) (s : State) : (sessPut k x s).mem = s.mem := rfl
@[simp] theorem sessPut_poison (k : Nat) (x : Session) (s : State) : (sessPut k x s).poison = s.poison := rfl
@[simp] theorem sessPut_flash (k : Nat) (x : Session) (s : State) : (sessPut k x s).flash = s.flash := rfl
@[simp] theorem sessPut_regs (k : Nat) (x : Session) (s : State) : (sessPut k x s).regs = s.regs := rfl
@[simp] theorem sessPut_shadow (k : Nat) (x : Session) (s : State) : (sessPut k x s).shadow = s.shadow := rfl
@[simp] theorem sessPut_counters (k : Nat) (x : Session) (s : State) : (sessPut k x s).counters = s.counters := rfl
@[simp] theorem sessPut_snap (k : Nat) (x : Session) (s : State) : (sessPut k x s).snap = s.snap := rfl
@[simp] theorem sessPut_guards (k : Nat) (x : Session) (s : State) : (sessPut k x s).guards = s.guards := rfl
@[simp] theorem sessPut_hiCaps (k : Nat) (x : Session) (s : State) : (sessPut k x s).hiCaps = s.hiCaps := rfl
@[simp] theorem sessPut_plt (k : Nat) (x : Session) (s : State) : (sessPut k x s).plt = s.plt := rfl
@[simp] theorem sessPut_isl (k : Nat) (x : Session) (s : State) : (sessPut k x s).isl = s.isl := rfl
@[simp] theorem sessPut_chans (k : Nat) (x : Session) (s : State) : (sessPut k x s).chans = s.chans := rfl
@[simp] theorem sessPut_applied (k : Nat) (x : Session) (s : State) : (sessPut k x s).applied = s.applied := rfl
@[simp] theorem sessPut_objs (k : Nat) (x : Session) (s : State) : (sessPut k x s).objs = s.objs := rfl
@[simp] theorem sessPut_yzApplied (k : Nat) (x : Session) (s : State) : (sessPut k x s).yzApplied = s.yzApplied := rfl
@[simp] theorem sessPut_lists (k : Nat) (x : Session) (s : State) : (sessPut k x s).lists = s.lists := rfl
@[simp] theorem sessPut_barriers (k : Nat) (x : Session) (s : State) : (sessPut k x s).barriers = s.barriers := rfl
@[simp] theorem sessPut_engines (k : Nat) (x : Session) (s : State) : (sessPut k x s).engines = s.engines := rfl
@[simp] theorem sessPut_synRings (k : Nat) (x : Session) (s : State) : (sessPut k x s).synRings = s.synRings := rfl
@[simp] theorem sessPut_wxas (k : Nat) (x : Session) (s : State) : (sessPut k x s).wxas = s.wxas := rfl
@[simp] theorem sessPut_rcells (k : Nat) (x : Session) (s : State) : (sessPut k x s).rcells = s.rcells := rfl
@[simp] theorem sessPut_cellLinks (k : Nat) (x : Session) (s : State) : (sessPut k x s).cellLinks = s.cellLinks := rfl
@[simp] theorem sessPut_dcells (k : Nat) (x : Session) (s : State) : (sessPut k x s).dcells = s.dcells := rfl
@[simp] theorem sessPut_runs (k : Nat) (x : Session) (s : State) : (sessPut k x s).runs = s.runs := rfl
@[simp] theorem sessPut_asu (k : Nat) (x : Session) (s : State) : (sessPut k x s).asu = s.asu := rfl
@[simp] theorem sessPut_asuSide (k : Nat) (x : Session) (s : State) : (sessPut k x s).asuSide = s.asuSide := rfl
@[simp] theorem sessPut_asuGen (k : Nat) (x : Session) (s : State) : (sessPut k x s).asuGen = s.asuGen := rfl
@[simp] theorem sessPut_asuLevel (k : Nat) (x : Session) (s : State) : (sessPut k x s).asuLevel = s.asuLevel := rfl
@[simp] theorem sessPut_asuHeld (k : Nat) (x : Session) (s : State) : (sessPut k x s).asuHeld = s.asuHeld := rfl
@[simp] theorem sessPut_joins (k : Nat) (x : Session) (s : State) : (sessPut k x s).joins = s.joins := rfl
@[simp] theorem sessPut_emb (k : Nat) (x : Session) (s : State) : (sessPut k x s).emb = s.emb := rfl
@[simp] theorem sessPut_delivered (k : Nat) (x : Session) (s : State) : (sessPut k x s).delivered = s.delivered := rfl
@[simp] theorem sessPut_slotWaits (k : Nat) (x : Session) (s : State) : (sessPut k x s).slotWaits = s.slotWaits := rfl
@[simp] theorem sessPut_sessions (k : Nat) (x : Session) (s : State) : (sessPut k x s).sessions = mput s.sessions k x := rfl
@[simp] theorem sessPut_nextSid (k : Nat) (x : Session) (s : State) : (sessPut k x s).nextSid = s.nextSid := rfl
@[simp] theorem sessPut_fates (k : Nat) (x : Session) (s : State) : (sessPut k x s).fates = s.fates := rfl
@[simp] theorem sessPut_doubts (k : Nat) (x : Session) (s : State) : (sessPut k x s).doubts = s.doubts := rfl
@[simp] theorem sessPut_peerQueue (k : Nat) (x : Session) (s : State) : (sessPut k x s).peerQueue = s.peerQueue := rfl
@[simp] theorem sessPut_helloOut (k : Nat) (x : Session) (s : State) : (sessPut k x s).helloOut = s.helloOut := rfl
@[simp] theorem sessPut_helloIn (k : Nat) (x : Session) (s : State) : (sessPut k x s).helloIn = s.helloIn := rfl
@[simp] theorem sessPut_helloCount (k : Nat) (x : Session) (s : State) : (sessPut k x s).helloCount = s.helloCount := rfl
@[simp] theorem sessPut_malformed (k : Nat) (x : Session) (s : State) : (sessPut k x s).malformed = s.malformed := rfl
@[simp] theorem sessPut_linksUp (k : Nat) (x : Session) (s : State) : (sessPut k x s).linksUp = s.linksUp := rfl
@[simp] theorem sessPut_paused (k : Nat) (x : Session) (s : State) : (sessPut k x s).paused = s.paused := rfl
@[simp] theorem sessPut_rcv (k : Nat) (x : Session) (s : State) : (sessPut k x s).rcv = s.rcv := rfl
@[simp] theorem sessPut_ueCount (k : Nat) (x : Session) (s : State) : (sessPut k x s).ueCount = s.ueCount := rfl
@[simp] theorem sessPut_ueLimit (k : Nat) (x : Session) (s : State) : (sessPut k x s).ueLimit = s.ueLimit := rfl
@[simp] theorem sessPut_intRings (k : Nat) (x : Session) (s : State) : (sessPut k x s).intRings = s.intRings := rfl
@[simp] theorem sessPut_scrub (k : Nat) (x : Session) (s : State) : (sessPut k x s).scrub = s.scrub := rfl
@[simp] theorem sessPut_ceSeen (k : Nat) (x : Session) (s : State) : (sessPut k x s).ceSeen = s.ceSeen := rfl
@[simp] theorem sessPut_straits (k : Nat) (x : Session) (s : State) : (sessPut k x s).straits = s.straits := rfl
@[simp] theorem sessPut_fi (k : Nat) (x : Session) (s : State) : (sessPut k x s).fi = s.fi := rfl
@[simp] theorem sessPut_wire (k : Nat) (x : Session) (s : State) : (sessPut k x s).wire = s.wire := rfl
@[simp] theorem sessPut_audit (k : Nat) (x : Session) (s : State) : (sessPut k x s).audit = s.audit := rfl
@[simp] theorem sessPut_boot (k : Nat) (x : Session) (s : State) : (sessPut k x s).boot = s.boot := rfl
@[simp] theorem sessPut_fuses (k : Nat) (x : Session) (s : State) : (sessPut k x s).fuses = s.fuses := rfl
@[simp] theorem sessPut_svc (k : Nat) (x : Session) (s : State) : (sessPut k x s).svc = s.svc := rfl
@[simp] theorem sessPut_pwr (k : Nat) (x : Session) (s : State) : (sessPut k x s).pwr = s.pwr := rfl
@[simp] theorem sessPut_pins (k : Nat) (x : Session) (s : State) : (sessPut k x s).pins = s.pins := rfl

/-! ## islPut -/

@[simp] theorem islPut_pending (i : Nat) (x : Isl) (s : State) : (islPut i x s).pending = s.pending := rfl
@[simp] theorem islPut_out (i : Nat) (x : Isl) (s : State) : (islPut i x s).out = s.out := rfl
@[simp] theorem islPut_free (i : Nat) (x : Isl) (s : State) : (islPut i x s).free = s.free := rfl
@[simp] theorem islPut_time (i : Nat) (x : Isl) (s : State) : (islPut i x s).time = s.time := rfl
@[simp] theorem islPut_mem (i : Nat) (x : Isl) (s : State) : (islPut i x s).mem = s.mem := rfl
@[simp] theorem islPut_poison (i : Nat) (x : Isl) (s : State) : (islPut i x s).poison = s.poison := rfl
@[simp] theorem islPut_flash (i : Nat) (x : Isl) (s : State) : (islPut i x s).flash = s.flash := rfl
@[simp] theorem islPut_regs (i : Nat) (x : Isl) (s : State) : (islPut i x s).regs = s.regs := rfl
@[simp] theorem islPut_shadow (i : Nat) (x : Isl) (s : State) : (islPut i x s).shadow = s.shadow := rfl
@[simp] theorem islPut_counters (i : Nat) (x : Isl) (s : State) : (islPut i x s).counters = s.counters := rfl
@[simp] theorem islPut_snap (i : Nat) (x : Isl) (s : State) : (islPut i x s).snap = s.snap := rfl
@[simp] theorem islPut_guards (i : Nat) (x : Isl) (s : State) : (islPut i x s).guards = s.guards := rfl
@[simp] theorem islPut_hiCaps (i : Nat) (x : Isl) (s : State) : (islPut i x s).hiCaps = s.hiCaps := rfl
@[simp] theorem islPut_plt (i : Nat) (x : Isl) (s : State) : (islPut i x s).plt = s.plt := rfl
@[simp] theorem islPut_isl (i : Nat) (x : Isl) (s : State) : (islPut i x s).isl = mset Isl.init s.isl i x := rfl
@[simp] theorem islPut_chans (i : Nat) (x : Isl) (s : State) : (islPut i x s).chans = s.chans := rfl
@[simp] theorem islPut_applied (i : Nat) (x : Isl) (s : State) : (islPut i x s).applied = s.applied := rfl
@[simp] theorem islPut_objs (i : Nat) (x : Isl) (s : State) : (islPut i x s).objs = s.objs := rfl
@[simp] theorem islPut_yzApplied (i : Nat) (x : Isl) (s : State) : (islPut i x s).yzApplied = s.yzApplied := rfl
@[simp] theorem islPut_lists (i : Nat) (x : Isl) (s : State) : (islPut i x s).lists = s.lists := rfl
@[simp] theorem islPut_barriers (i : Nat) (x : Isl) (s : State) : (islPut i x s).barriers = s.barriers := rfl
@[simp] theorem islPut_engines (i : Nat) (x : Isl) (s : State) : (islPut i x s).engines = s.engines := rfl
@[simp] theorem islPut_synRings (i : Nat) (x : Isl) (s : State) : (islPut i x s).synRings = s.synRings := rfl
@[simp] theorem islPut_wxas (i : Nat) (x : Isl) (s : State) : (islPut i x s).wxas = s.wxas := rfl
@[simp] theorem islPut_rcells (i : Nat) (x : Isl) (s : State) : (islPut i x s).rcells = s.rcells := rfl
@[simp] theorem islPut_cellLinks (i : Nat) (x : Isl) (s : State) : (islPut i x s).cellLinks = s.cellLinks := rfl
@[simp] theorem islPut_dcells (i : Nat) (x : Isl) (s : State) : (islPut i x s).dcells = s.dcells := rfl
@[simp] theorem islPut_runs (i : Nat) (x : Isl) (s : State) : (islPut i x s).runs = s.runs := rfl
@[simp] theorem islPut_asu (i : Nat) (x : Isl) (s : State) : (islPut i x s).asu = s.asu := rfl
@[simp] theorem islPut_asuSide (i : Nat) (x : Isl) (s : State) : (islPut i x s).asuSide = s.asuSide := rfl
@[simp] theorem islPut_asuGen (i : Nat) (x : Isl) (s : State) : (islPut i x s).asuGen = s.asuGen := rfl
@[simp] theorem islPut_asuLevel (i : Nat) (x : Isl) (s : State) : (islPut i x s).asuLevel = s.asuLevel := rfl
@[simp] theorem islPut_asuHeld (i : Nat) (x : Isl) (s : State) : (islPut i x s).asuHeld = s.asuHeld := rfl
@[simp] theorem islPut_joins (i : Nat) (x : Isl) (s : State) : (islPut i x s).joins = s.joins := rfl
@[simp] theorem islPut_emb (i : Nat) (x : Isl) (s : State) : (islPut i x s).emb = s.emb := rfl
@[simp] theorem islPut_delivered (i : Nat) (x : Isl) (s : State) : (islPut i x s).delivered = s.delivered := rfl
@[simp] theorem islPut_slotWaits (i : Nat) (x : Isl) (s : State) : (islPut i x s).slotWaits = s.slotWaits := rfl
@[simp] theorem islPut_sessions (i : Nat) (x : Isl) (s : State) : (islPut i x s).sessions = s.sessions := rfl
@[simp] theorem islPut_nextSid (i : Nat) (x : Isl) (s : State) : (islPut i x s).nextSid = s.nextSid := rfl
@[simp] theorem islPut_fates (i : Nat) (x : Isl) (s : State) : (islPut i x s).fates = s.fates := rfl
@[simp] theorem islPut_doubts (i : Nat) (x : Isl) (s : State) : (islPut i x s).doubts = s.doubts := rfl
@[simp] theorem islPut_peerQueue (i : Nat) (x : Isl) (s : State) : (islPut i x s).peerQueue = s.peerQueue := rfl
@[simp] theorem islPut_helloOut (i : Nat) (x : Isl) (s : State) : (islPut i x s).helloOut = s.helloOut := rfl
@[simp] theorem islPut_helloIn (i : Nat) (x : Isl) (s : State) : (islPut i x s).helloIn = s.helloIn := rfl
@[simp] theorem islPut_helloCount (i : Nat) (x : Isl) (s : State) : (islPut i x s).helloCount = s.helloCount := rfl
@[simp] theorem islPut_malformed (i : Nat) (x : Isl) (s : State) : (islPut i x s).malformed = s.malformed := rfl
@[simp] theorem islPut_linksUp (i : Nat) (x : Isl) (s : State) : (islPut i x s).linksUp = s.linksUp := rfl
@[simp] theorem islPut_paused (i : Nat) (x : Isl) (s : State) : (islPut i x s).paused = s.paused := rfl
@[simp] theorem islPut_rcv (i : Nat) (x : Isl) (s : State) : (islPut i x s).rcv = s.rcv := rfl
@[simp] theorem islPut_ueCount (i : Nat) (x : Isl) (s : State) : (islPut i x s).ueCount = s.ueCount := rfl
@[simp] theorem islPut_ueLimit (i : Nat) (x : Isl) (s : State) : (islPut i x s).ueLimit = s.ueLimit := rfl
@[simp] theorem islPut_intRings (i : Nat) (x : Isl) (s : State) : (islPut i x s).intRings = s.intRings := rfl
@[simp] theorem islPut_scrub (i : Nat) (x : Isl) (s : State) : (islPut i x s).scrub = s.scrub := rfl
@[simp] theorem islPut_ceSeen (i : Nat) (x : Isl) (s : State) : (islPut i x s).ceSeen = s.ceSeen := rfl
@[simp] theorem islPut_straits (i : Nat) (x : Isl) (s : State) : (islPut i x s).straits = s.straits := rfl
@[simp] theorem islPut_fi (i : Nat) (x : Isl) (s : State) : (islPut i x s).fi = s.fi := rfl
@[simp] theorem islPut_wire (i : Nat) (x : Isl) (s : State) : (islPut i x s).wire = s.wire := rfl
@[simp] theorem islPut_audit (i : Nat) (x : Isl) (s : State) : (islPut i x s).audit = s.audit := rfl
@[simp] theorem islPut_boot (i : Nat) (x : Isl) (s : State) : (islPut i x s).boot = s.boot := rfl
@[simp] theorem islPut_fuses (i : Nat) (x : Isl) (s : State) : (islPut i x s).fuses = s.fuses := rfl
@[simp] theorem islPut_svc (i : Nat) (x : Isl) (s : State) : (islPut i x s).svc = s.svc := rfl
@[simp] theorem islPut_pwr (i : Nat) (x : Isl) (s : State) : (islPut i x s).pwr = s.pwr := rfl
@[simp] theorem islPut_pins (i : Nat) (x : Isl) (s : State) : (islPut i x s).pins = s.pins := rfl

/-! ## fiPut -/

@[simp] theorem fiPut_pending (k : Nat) (x : FiSlot) (s : State) : (fiPut k x s).pending = s.pending := rfl
@[simp] theorem fiPut_out (k : Nat) (x : FiSlot) (s : State) : (fiPut k x s).out = s.out := rfl
@[simp] theorem fiPut_free (k : Nat) (x : FiSlot) (s : State) : (fiPut k x s).free = s.free := rfl
@[simp] theorem fiPut_time (k : Nat) (x : FiSlot) (s : State) : (fiPut k x s).time = s.time := rfl
@[simp] theorem fiPut_mem (k : Nat) (x : FiSlot) (s : State) : (fiPut k x s).mem = s.mem := rfl
@[simp] theorem fiPut_poison (k : Nat) (x : FiSlot) (s : State) : (fiPut k x s).poison = s.poison := rfl
@[simp] theorem fiPut_flash (k : Nat) (x : FiSlot) (s : State) : (fiPut k x s).flash = s.flash := rfl
@[simp] theorem fiPut_regs (k : Nat) (x : FiSlot) (s : State) : (fiPut k x s).regs = s.regs := rfl
@[simp] theorem fiPut_shadow (k : Nat) (x : FiSlot) (s : State) : (fiPut k x s).shadow = s.shadow := rfl
@[simp] theorem fiPut_counters (k : Nat) (x : FiSlot) (s : State) : (fiPut k x s).counters = s.counters := rfl
@[simp] theorem fiPut_snap (k : Nat) (x : FiSlot) (s : State) : (fiPut k x s).snap = s.snap := rfl
@[simp] theorem fiPut_guards (k : Nat) (x : FiSlot) (s : State) : (fiPut k x s).guards = s.guards := rfl
@[simp] theorem fiPut_hiCaps (k : Nat) (x : FiSlot) (s : State) : (fiPut k x s).hiCaps = s.hiCaps := rfl
@[simp] theorem fiPut_plt (k : Nat) (x : FiSlot) (s : State) : (fiPut k x s).plt = s.plt := rfl
@[simp] theorem fiPut_isl (k : Nat) (x : FiSlot) (s : State) : (fiPut k x s).isl = s.isl := rfl
@[simp] theorem fiPut_chans (k : Nat) (x : FiSlot) (s : State) : (fiPut k x s).chans = s.chans := rfl
@[simp] theorem fiPut_applied (k : Nat) (x : FiSlot) (s : State) : (fiPut k x s).applied = s.applied := rfl
@[simp] theorem fiPut_objs (k : Nat) (x : FiSlot) (s : State) : (fiPut k x s).objs = s.objs := rfl
@[simp] theorem fiPut_yzApplied (k : Nat) (x : FiSlot) (s : State) : (fiPut k x s).yzApplied = s.yzApplied := rfl
@[simp] theorem fiPut_lists (k : Nat) (x : FiSlot) (s : State) : (fiPut k x s).lists = s.lists := rfl
@[simp] theorem fiPut_barriers (k : Nat) (x : FiSlot) (s : State) : (fiPut k x s).barriers = s.barriers := rfl
@[simp] theorem fiPut_engines (k : Nat) (x : FiSlot) (s : State) : (fiPut k x s).engines = s.engines := rfl
@[simp] theorem fiPut_synRings (k : Nat) (x : FiSlot) (s : State) : (fiPut k x s).synRings = s.synRings := rfl
@[simp] theorem fiPut_wxas (k : Nat) (x : FiSlot) (s : State) : (fiPut k x s).wxas = s.wxas := rfl
@[simp] theorem fiPut_rcells (k : Nat) (x : FiSlot) (s : State) : (fiPut k x s).rcells = s.rcells := rfl
@[simp] theorem fiPut_cellLinks (k : Nat) (x : FiSlot) (s : State) : (fiPut k x s).cellLinks = s.cellLinks := rfl
@[simp] theorem fiPut_dcells (k : Nat) (x : FiSlot) (s : State) : (fiPut k x s).dcells = s.dcells := rfl
@[simp] theorem fiPut_runs (k : Nat) (x : FiSlot) (s : State) : (fiPut k x s).runs = s.runs := rfl
@[simp] theorem fiPut_asu (k : Nat) (x : FiSlot) (s : State) : (fiPut k x s).asu = s.asu := rfl
@[simp] theorem fiPut_asuSide (k : Nat) (x : FiSlot) (s : State) : (fiPut k x s).asuSide = s.asuSide := rfl
@[simp] theorem fiPut_asuGen (k : Nat) (x : FiSlot) (s : State) : (fiPut k x s).asuGen = s.asuGen := rfl
@[simp] theorem fiPut_asuLevel (k : Nat) (x : FiSlot) (s : State) : (fiPut k x s).asuLevel = s.asuLevel := rfl
@[simp] theorem fiPut_asuHeld (k : Nat) (x : FiSlot) (s : State) : (fiPut k x s).asuHeld = s.asuHeld := rfl
@[simp] theorem fiPut_joins (k : Nat) (x : FiSlot) (s : State) : (fiPut k x s).joins = s.joins := rfl
@[simp] theorem fiPut_emb (k : Nat) (x : FiSlot) (s : State) : (fiPut k x s).emb = s.emb := rfl
@[simp] theorem fiPut_delivered (k : Nat) (x : FiSlot) (s : State) : (fiPut k x s).delivered = s.delivered := rfl
@[simp] theorem fiPut_slotWaits (k : Nat) (x : FiSlot) (s : State) : (fiPut k x s).slotWaits = s.slotWaits := rfl
@[simp] theorem fiPut_sessions (k : Nat) (x : FiSlot) (s : State) : (fiPut k x s).sessions = s.sessions := rfl
@[simp] theorem fiPut_nextSid (k : Nat) (x : FiSlot) (s : State) : (fiPut k x s).nextSid = s.nextSid := rfl
@[simp] theorem fiPut_fates (k : Nat) (x : FiSlot) (s : State) : (fiPut k x s).fates = s.fates := rfl
@[simp] theorem fiPut_doubts (k : Nat) (x : FiSlot) (s : State) : (fiPut k x s).doubts = s.doubts := rfl
@[simp] theorem fiPut_peerQueue (k : Nat) (x : FiSlot) (s : State) : (fiPut k x s).peerQueue = s.peerQueue := rfl
@[simp] theorem fiPut_helloOut (k : Nat) (x : FiSlot) (s : State) : (fiPut k x s).helloOut = s.helloOut := rfl
@[simp] theorem fiPut_helloIn (k : Nat) (x : FiSlot) (s : State) : (fiPut k x s).helloIn = s.helloIn := rfl
@[simp] theorem fiPut_helloCount (k : Nat) (x : FiSlot) (s : State) : (fiPut k x s).helloCount = s.helloCount := rfl
@[simp] theorem fiPut_malformed (k : Nat) (x : FiSlot) (s : State) : (fiPut k x s).malformed = s.malformed := rfl
@[simp] theorem fiPut_linksUp (k : Nat) (x : FiSlot) (s : State) : (fiPut k x s).linksUp = s.linksUp := rfl
@[simp] theorem fiPut_paused (k : Nat) (x : FiSlot) (s : State) : (fiPut k x s).paused = s.paused := rfl
@[simp] theorem fiPut_rcv (k : Nat) (x : FiSlot) (s : State) : (fiPut k x s).rcv = s.rcv := rfl
@[simp] theorem fiPut_ueCount (k : Nat) (x : FiSlot) (s : State) : (fiPut k x s).ueCount = s.ueCount := rfl
@[simp] theorem fiPut_ueLimit (k : Nat) (x : FiSlot) (s : State) : (fiPut k x s).ueLimit = s.ueLimit := rfl
@[simp] theorem fiPut_intRings (k : Nat) (x : FiSlot) (s : State) : (fiPut k x s).intRings = s.intRings := rfl
@[simp] theorem fiPut_scrub (k : Nat) (x : FiSlot) (s : State) : (fiPut k x s).scrub = s.scrub := rfl
@[simp] theorem fiPut_ceSeen (k : Nat) (x : FiSlot) (s : State) : (fiPut k x s).ceSeen = s.ceSeen := rfl
@[simp] theorem fiPut_straits (k : Nat) (x : FiSlot) (s : State) : (fiPut k x s).straits = s.straits := rfl
@[simp] theorem fiPut_fi (k : Nat) (x : FiSlot) (s : State) : (fiPut k x s).fi = mset FiSlot.init s.fi k x := rfl
@[simp] theorem fiPut_wire (k : Nat) (x : FiSlot) (s : State) : (fiPut k x s).wire = s.wire := rfl
@[simp] theorem fiPut_audit (k : Nat) (x : FiSlot) (s : State) : (fiPut k x s).audit = s.audit := rfl
@[simp] theorem fiPut_boot (k : Nat) (x : FiSlot) (s : State) : (fiPut k x s).boot = s.boot := rfl
@[simp] theorem fiPut_fuses (k : Nat) (x : FiSlot) (s : State) : (fiPut k x s).fuses = s.fuses := rfl
@[simp] theorem fiPut_svc (k : Nat) (x : FiSlot) (s : State) : (fiPut k x s).svc = s.svc := rfl
@[simp] theorem fiPut_pwr (k : Nat) (x : FiSlot) (s : State) : (fiPut k x s).pwr = s.pwr := rfl
@[simp] theorem fiPut_pins (k : Nat) (x : FiSlot) (s : State) : (fiPut k x s).pins = s.pins := rfl

/-! ## writeMem -/

@[simp] theorem writeMem_pending (a : Nat) (bs : List Byte) (s : State) : (writeMem a bs s).pending = s.pending := rfl
@[simp] theorem writeMem_out (a : Nat) (bs : List Byte) (s : State) : (writeMem a bs s).out = s.out := rfl
@[simp] theorem writeMem_free (a : Nat) (bs : List Byte) (s : State) : (writeMem a bs s).free = s.free := rfl
@[simp] theorem writeMem_time (a : Nat) (bs : List Byte) (s : State) : (writeMem a bs s).time = s.time := rfl
@[simp] theorem writeMem_mem (a : Nat) (bs : List Byte) (s : State) : (writeMem a bs s).mem = putMem bs a s.mem := rfl
@[simp] theorem writeMem_poison (a : Nat) (bs : List Byte) (s : State) : (writeMem a bs s).poison = (wholeUnits a bs.length).foldl ndel s.poison := rfl
@[simp] theorem writeMem_flash (a : Nat) (bs : List Byte) (s : State) : (writeMem a bs s).flash = s.flash := rfl
@[simp] theorem writeMem_regs (a : Nat) (bs : List Byte) (s : State) : (writeMem a bs s).regs = s.regs := rfl
@[simp] theorem writeMem_shadow (a : Nat) (bs : List Byte) (s : State) : (writeMem a bs s).shadow = s.shadow := rfl
@[simp] theorem writeMem_counters (a : Nat) (bs : List Byte) (s : State) : (writeMem a bs s).counters = s.counters := rfl
@[simp] theorem writeMem_snap (a : Nat) (bs : List Byte) (s : State) : (writeMem a bs s).snap = s.snap := rfl
@[simp] theorem writeMem_guards (a : Nat) (bs : List Byte) (s : State) : (writeMem a bs s).guards = s.guards := rfl
@[simp] theorem writeMem_hiCaps (a : Nat) (bs : List Byte) (s : State) : (writeMem a bs s).hiCaps = s.hiCaps := rfl
@[simp] theorem writeMem_plt (a : Nat) (bs : List Byte) (s : State) : (writeMem a bs s).plt = s.plt := rfl
@[simp] theorem writeMem_isl (a : Nat) (bs : List Byte) (s : State) : (writeMem a bs s).isl = s.isl := rfl
@[simp] theorem writeMem_chans (a : Nat) (bs : List Byte) (s : State) : (writeMem a bs s).chans = s.chans := rfl
@[simp] theorem writeMem_applied (a : Nat) (bs : List Byte) (s : State) : (writeMem a bs s).applied = s.applied := rfl
@[simp] theorem writeMem_objs (a : Nat) (bs : List Byte) (s : State) : (writeMem a bs s).objs = s.objs := rfl
@[simp] theorem writeMem_yzApplied (a : Nat) (bs : List Byte) (s : State) : (writeMem a bs s).yzApplied = s.yzApplied := rfl
@[simp] theorem writeMem_lists (a : Nat) (bs : List Byte) (s : State) : (writeMem a bs s).lists = s.lists := rfl
@[simp] theorem writeMem_barriers (a : Nat) (bs : List Byte) (s : State) : (writeMem a bs s).barriers = s.barriers := rfl
@[simp] theorem writeMem_engines (a : Nat) (bs : List Byte) (s : State) : (writeMem a bs s).engines = s.engines := rfl
@[simp] theorem writeMem_synRings (a : Nat) (bs : List Byte) (s : State) : (writeMem a bs s).synRings = s.synRings := rfl
@[simp] theorem writeMem_wxas (a : Nat) (bs : List Byte) (s : State) : (writeMem a bs s).wxas = s.wxas := rfl
@[simp] theorem writeMem_rcells (a : Nat) (bs : List Byte) (s : State) : (writeMem a bs s).rcells = s.rcells := rfl
@[simp] theorem writeMem_cellLinks (a : Nat) (bs : List Byte) (s : State) : (writeMem a bs s).cellLinks = s.cellLinks := rfl
@[simp] theorem writeMem_dcells (a : Nat) (bs : List Byte) (s : State) : (writeMem a bs s).dcells = s.dcells := rfl
@[simp] theorem writeMem_runs (a : Nat) (bs : List Byte) (s : State) : (writeMem a bs s).runs = s.runs := rfl
@[simp] theorem writeMem_asu (a : Nat) (bs : List Byte) (s : State) : (writeMem a bs s).asu = s.asu := rfl
@[simp] theorem writeMem_asuSide (a : Nat) (bs : List Byte) (s : State) : (writeMem a bs s).asuSide = s.asuSide := rfl
@[simp] theorem writeMem_asuGen (a : Nat) (bs : List Byte) (s : State) : (writeMem a bs s).asuGen = s.asuGen := rfl
@[simp] theorem writeMem_asuLevel (a : Nat) (bs : List Byte) (s : State) : (writeMem a bs s).asuLevel = s.asuLevel := rfl
@[simp] theorem writeMem_asuHeld (a : Nat) (bs : List Byte) (s : State) : (writeMem a bs s).asuHeld = s.asuHeld := rfl
@[simp] theorem writeMem_joins (a : Nat) (bs : List Byte) (s : State) : (writeMem a bs s).joins = s.joins := rfl
@[simp] theorem writeMem_emb (a : Nat) (bs : List Byte) (s : State) : (writeMem a bs s).emb = s.emb := rfl
@[simp] theorem writeMem_delivered (a : Nat) (bs : List Byte) (s : State) : (writeMem a bs s).delivered = s.delivered := rfl
@[simp] theorem writeMem_slotWaits (a : Nat) (bs : List Byte) (s : State) : (writeMem a bs s).slotWaits = s.slotWaits := rfl
@[simp] theorem writeMem_sessions (a : Nat) (bs : List Byte) (s : State) : (writeMem a bs s).sessions = s.sessions := rfl
@[simp] theorem writeMem_nextSid (a : Nat) (bs : List Byte) (s : State) : (writeMem a bs s).nextSid = s.nextSid := rfl
@[simp] theorem writeMem_fates (a : Nat) (bs : List Byte) (s : State) : (writeMem a bs s).fates = s.fates := rfl
@[simp] theorem writeMem_doubts (a : Nat) (bs : List Byte) (s : State) : (writeMem a bs s).doubts = s.doubts := rfl
@[simp] theorem writeMem_peerQueue (a : Nat) (bs : List Byte) (s : State) : (writeMem a bs s).peerQueue = s.peerQueue := rfl
@[simp] theorem writeMem_helloOut (a : Nat) (bs : List Byte) (s : State) : (writeMem a bs s).helloOut = s.helloOut := rfl
@[simp] theorem writeMem_helloIn (a : Nat) (bs : List Byte) (s : State) : (writeMem a bs s).helloIn = s.helloIn := rfl
@[simp] theorem writeMem_helloCount (a : Nat) (bs : List Byte) (s : State) : (writeMem a bs s).helloCount = s.helloCount := rfl
@[simp] theorem writeMem_malformed (a : Nat) (bs : List Byte) (s : State) : (writeMem a bs s).malformed = s.malformed := rfl
@[simp] theorem writeMem_linksUp (a : Nat) (bs : List Byte) (s : State) : (writeMem a bs s).linksUp = s.linksUp := rfl
@[simp] theorem writeMem_paused (a : Nat) (bs : List Byte) (s : State) : (writeMem a bs s).paused = s.paused := rfl
@[simp] theorem writeMem_rcv (a : Nat) (bs : List Byte) (s : State) : (writeMem a bs s).rcv = s.rcv := rfl
@[simp] theorem writeMem_ueCount (a : Nat) (bs : List Byte) (s : State) : (writeMem a bs s).ueCount = s.ueCount := rfl
@[simp] theorem writeMem_ueLimit (a : Nat) (bs : List Byte) (s : State) : (writeMem a bs s).ueLimit = s.ueLimit := rfl
@[simp] theorem writeMem_intRings (a : Nat) (bs : List Byte) (s : State) : (writeMem a bs s).intRings = s.intRings := rfl
@[simp] theorem writeMem_scrub (a : Nat) (bs : List Byte) (s : State) : (writeMem a bs s).scrub = s.scrub := rfl
@[simp] theorem writeMem_ceSeen (a : Nat) (bs : List Byte) (s : State) : (writeMem a bs s).ceSeen = s.ceSeen := rfl
@[simp] theorem writeMem_straits (a : Nat) (bs : List Byte) (s : State) : (writeMem a bs s).straits = s.straits := rfl
@[simp] theorem writeMem_fi (a : Nat) (bs : List Byte) (s : State) : (writeMem a bs s).fi = s.fi := rfl
@[simp] theorem writeMem_wire (a : Nat) (bs : List Byte) (s : State) : (writeMem a bs s).wire = s.wire := rfl
@[simp] theorem writeMem_audit (a : Nat) (bs : List Byte) (s : State) : (writeMem a bs s).audit = s.audit := rfl
@[simp] theorem writeMem_boot (a : Nat) (bs : List Byte) (s : State) : (writeMem a bs s).boot = s.boot := rfl
@[simp] theorem writeMem_fuses (a : Nat) (bs : List Byte) (s : State) : (writeMem a bs s).fuses = s.fuses := rfl
@[simp] theorem writeMem_svc (a : Nat) (bs : List Byte) (s : State) : (writeMem a bs s).svc = s.svc := rfl
@[simp] theorem writeMem_pwr (a : Nat) (bs : List Byte) (s : State) : (writeMem a bs s).pwr = s.pwr := rfl
@[simp] theorem writeMem_pins (a : Nat) (bs : List Byte) (s : State) : (writeMem a bs s).pins = s.pins := rfl

/-! ## fwrite -/

@[simp] theorem fwrite_pending (a : Nat) (bs : List Byte) (s : State) : (fwrite a bs s).pending = s.pending := rfl
@[simp] theorem fwrite_out (a : Nat) (bs : List Byte) (s : State) : (fwrite a bs s).out = s.out := rfl
@[simp] theorem fwrite_free (a : Nat) (bs : List Byte) (s : State) : (fwrite a bs s).free = s.free := rfl
@[simp] theorem fwrite_time (a : Nat) (bs : List Byte) (s : State) : (fwrite a bs s).time = s.time := rfl
@[simp] theorem fwrite_mem (a : Nat) (bs : List Byte) (s : State) : (fwrite a bs s).mem = s.mem := rfl
@[simp] theorem fwrite_poison (a : Nat) (bs : List Byte) (s : State) : (fwrite a bs s).poison = s.poison := rfl
@[simp] theorem fwrite_flash (a : Nat) (bs : List Byte) (s : State) : (fwrite a bs s).flash = fput bs a s.flash := rfl
@[simp] theorem fwrite_regs (a : Nat) (bs : List Byte) (s : State) : (fwrite a bs s).regs = s.regs := rfl
@[simp] theorem fwrite_shadow (a : Nat) (bs : List Byte) (s : State) : (fwrite a bs s).shadow = s.shadow := rfl
@[simp] theorem fwrite_counters (a : Nat) (bs : List Byte) (s : State) : (fwrite a bs s).counters = s.counters := rfl
@[simp] theorem fwrite_snap (a : Nat) (bs : List Byte) (s : State) : (fwrite a bs s).snap = s.snap := rfl
@[simp] theorem fwrite_guards (a : Nat) (bs : List Byte) (s : State) : (fwrite a bs s).guards = s.guards := rfl
@[simp] theorem fwrite_hiCaps (a : Nat) (bs : List Byte) (s : State) : (fwrite a bs s).hiCaps = s.hiCaps := rfl
@[simp] theorem fwrite_plt (a : Nat) (bs : List Byte) (s : State) : (fwrite a bs s).plt = s.plt := rfl
@[simp] theorem fwrite_isl (a : Nat) (bs : List Byte) (s : State) : (fwrite a bs s).isl = s.isl := rfl
@[simp] theorem fwrite_chans (a : Nat) (bs : List Byte) (s : State) : (fwrite a bs s).chans = s.chans := rfl
@[simp] theorem fwrite_applied (a : Nat) (bs : List Byte) (s : State) : (fwrite a bs s).applied = s.applied := rfl
@[simp] theorem fwrite_objs (a : Nat) (bs : List Byte) (s : State) : (fwrite a bs s).objs = s.objs := rfl
@[simp] theorem fwrite_yzApplied (a : Nat) (bs : List Byte) (s : State) : (fwrite a bs s).yzApplied = s.yzApplied := rfl
@[simp] theorem fwrite_lists (a : Nat) (bs : List Byte) (s : State) : (fwrite a bs s).lists = s.lists := rfl
@[simp] theorem fwrite_barriers (a : Nat) (bs : List Byte) (s : State) : (fwrite a bs s).barriers = s.barriers := rfl
@[simp] theorem fwrite_engines (a : Nat) (bs : List Byte) (s : State) : (fwrite a bs s).engines = s.engines := rfl
@[simp] theorem fwrite_synRings (a : Nat) (bs : List Byte) (s : State) : (fwrite a bs s).synRings = s.synRings := rfl
@[simp] theorem fwrite_wxas (a : Nat) (bs : List Byte) (s : State) : (fwrite a bs s).wxas = s.wxas := rfl
@[simp] theorem fwrite_rcells (a : Nat) (bs : List Byte) (s : State) : (fwrite a bs s).rcells = s.rcells := rfl
@[simp] theorem fwrite_cellLinks (a : Nat) (bs : List Byte) (s : State) : (fwrite a bs s).cellLinks = s.cellLinks := rfl
@[simp] theorem fwrite_dcells (a : Nat) (bs : List Byte) (s : State) : (fwrite a bs s).dcells = s.dcells := rfl
@[simp] theorem fwrite_runs (a : Nat) (bs : List Byte) (s : State) : (fwrite a bs s).runs = s.runs := rfl
@[simp] theorem fwrite_asu (a : Nat) (bs : List Byte) (s : State) : (fwrite a bs s).asu = s.asu := rfl
@[simp] theorem fwrite_asuSide (a : Nat) (bs : List Byte) (s : State) : (fwrite a bs s).asuSide = s.asuSide := rfl
@[simp] theorem fwrite_asuGen (a : Nat) (bs : List Byte) (s : State) : (fwrite a bs s).asuGen = s.asuGen := rfl
@[simp] theorem fwrite_asuLevel (a : Nat) (bs : List Byte) (s : State) : (fwrite a bs s).asuLevel = s.asuLevel := rfl
@[simp] theorem fwrite_asuHeld (a : Nat) (bs : List Byte) (s : State) : (fwrite a bs s).asuHeld = s.asuHeld := rfl
@[simp] theorem fwrite_joins (a : Nat) (bs : List Byte) (s : State) : (fwrite a bs s).joins = s.joins := rfl
@[simp] theorem fwrite_emb (a : Nat) (bs : List Byte) (s : State) : (fwrite a bs s).emb = s.emb := rfl
@[simp] theorem fwrite_delivered (a : Nat) (bs : List Byte) (s : State) : (fwrite a bs s).delivered = s.delivered := rfl
@[simp] theorem fwrite_slotWaits (a : Nat) (bs : List Byte) (s : State) : (fwrite a bs s).slotWaits = s.slotWaits := rfl
@[simp] theorem fwrite_sessions (a : Nat) (bs : List Byte) (s : State) : (fwrite a bs s).sessions = s.sessions := rfl
@[simp] theorem fwrite_nextSid (a : Nat) (bs : List Byte) (s : State) : (fwrite a bs s).nextSid = s.nextSid := rfl
@[simp] theorem fwrite_fates (a : Nat) (bs : List Byte) (s : State) : (fwrite a bs s).fates = s.fates := rfl
@[simp] theorem fwrite_doubts (a : Nat) (bs : List Byte) (s : State) : (fwrite a bs s).doubts = s.doubts := rfl
@[simp] theorem fwrite_peerQueue (a : Nat) (bs : List Byte) (s : State) : (fwrite a bs s).peerQueue = s.peerQueue := rfl
@[simp] theorem fwrite_helloOut (a : Nat) (bs : List Byte) (s : State) : (fwrite a bs s).helloOut = s.helloOut := rfl
@[simp] theorem fwrite_helloIn (a : Nat) (bs : List Byte) (s : State) : (fwrite a bs s).helloIn = s.helloIn := rfl
@[simp] theorem fwrite_helloCount (a : Nat) (bs : List Byte) (s : State) : (fwrite a bs s).helloCount = s.helloCount := rfl
@[simp] theorem fwrite_malformed (a : Nat) (bs : List Byte) (s : State) : (fwrite a bs s).malformed = s.malformed := rfl
@[simp] theorem fwrite_linksUp (a : Nat) (bs : List Byte) (s : State) : (fwrite a bs s).linksUp = s.linksUp := rfl
@[simp] theorem fwrite_paused (a : Nat) (bs : List Byte) (s : State) : (fwrite a bs s).paused = s.paused := rfl
@[simp] theorem fwrite_rcv (a : Nat) (bs : List Byte) (s : State) : (fwrite a bs s).rcv = s.rcv := rfl
@[simp] theorem fwrite_ueCount (a : Nat) (bs : List Byte) (s : State) : (fwrite a bs s).ueCount = s.ueCount := rfl
@[simp] theorem fwrite_ueLimit (a : Nat) (bs : List Byte) (s : State) : (fwrite a bs s).ueLimit = s.ueLimit := rfl
@[simp] theorem fwrite_intRings (a : Nat) (bs : List Byte) (s : State) : (fwrite a bs s).intRings = s.intRings := rfl
@[simp] theorem fwrite_scrub (a : Nat) (bs : List Byte) (s : State) : (fwrite a bs s).scrub = s.scrub := rfl
@[simp] theorem fwrite_ceSeen (a : Nat) (bs : List Byte) (s : State) : (fwrite a bs s).ceSeen = s.ceSeen := rfl
@[simp] theorem fwrite_straits (a : Nat) (bs : List Byte) (s : State) : (fwrite a bs s).straits = s.straits := rfl
@[simp] theorem fwrite_fi (a : Nat) (bs : List Byte) (s : State) : (fwrite a bs s).fi = s.fi := rfl
@[simp] theorem fwrite_wire (a : Nat) (bs : List Byte) (s : State) : (fwrite a bs s).wire = s.wire := rfl
@[simp] theorem fwrite_audit (a : Nat) (bs : List Byte) (s : State) : (fwrite a bs s).audit = s.audit := rfl
@[simp] theorem fwrite_boot (a : Nat) (bs : List Byte) (s : State) : (fwrite a bs s).boot = s.boot := rfl
@[simp] theorem fwrite_fuses (a : Nat) (bs : List Byte) (s : State) : (fwrite a bs s).fuses = s.fuses := rfl
@[simp] theorem fwrite_svc (a : Nat) (bs : List Byte) (s : State) : (fwrite a bs s).svc = s.svc := rfl
@[simp] theorem fwrite_pwr (a : Nat) (bs : List Byte) (s : State) : (fwrite a bs s).pwr = s.pwr := rfl
@[simp] theorem fwrite_pins (a : Nat) (bs : List Byte) (s : State) : (fwrite a bs s).pins = s.pins := rfl

end Sys2Proof.Machine
end

