-- ==== Sys2Proof/Laws/Accessors.lean ====
section
/-! SUPPORT. Reading a store after a write of it: every other key reads as before; the key written reads the value written, where the
store is canonical or the value is not what an unlisted key reads as. -/

namespace Sys2Proof.Machine

/-- Another key, in any store. -/
theorem mget_mset_ne {α : Type} [DecidableEq α] (d : α) (m : SMap α) (k j : Nat) (v : α) (h : j ≠ k) :
    mget d (mset d m k v) j = mget d m j := by
  unfold mset
  split
  · induction m with
    | nil => rfl
    | cons p t ih =>
      obtain ⟨a, w⟩ := p
      unfold mdel
      split
      · rename_i e
        subst e
        simp [mget, Ne.symm h]
      · simp only [mget]
        split
        · rfl
        · exact ih
  · rw [mget_mput, if_neg h]

/-- The key written, with a value that is listed. -/
theorem mget_mset_nd {α : Type} [DecidableEq α] {d v : α} (m : SMap α) (k : Nat) (h : v ≠ d) : mget d (mset d m k v) k = v := by
  unfold mset
  rw [if_neg h, mget_mput, if_pos rfl]

/-- A member added is a member. -/
@[simp] theorem nmem_nadd (m : NSet) (k : Nat) : nmem (nadd m k) k = true := mget_mset_nd m k (by decide)

/-- The other members are as they were. -/
theorem nmem_nadd_ne (m : NSet) {k j : Nat} (h : j ≠ k) : nmem (nadd m k) j = nmem m j := mget_mset_ne _ m k j _ h

/-- A lookup after a put of the key. -/
@[simp] theorem mlook_mput_self {α : Type} (m : SMap α) (k : Nat) (v : α) : mlook (mput m k v) k = some v := by
  induction m with
  | nil => simp [mput, mlook]
  | cons p t ih =>
    obtain ⟨a, w⟩ := p
    unfold mput
    split
    · simp [mlook]
    · split
      · simp [mlook]
      · rename_i h
        simp [mlook, h, ih]

/-- A lookup of another key. -/
theorem mlook_mput_ne {α : Type} (m : SMap α) {k j : Nat} (v : α) (h : j ≠ k) : mlook (mput m k v) j = mlook m j := by
  induction m with
  | nil => simp [mput, mlook, Ne.symm h]
  | cons p t ih =>
    obtain ⟨a, w⟩ := p
    unfold mput
    split
    · simp [mlook, Ne.symm h]
    · split
      · rename_i e
        subst e
        simp [mlook, Ne.symm h]
      · simp [mlook, ih]

theorem runGet_runPut (s : State) {k : Nat} {x : Run} (h : x ≠ Run.init) : runGet (runPut k x s) k = x := mget_mset_nd s.runs k h
theorem runGet_runPut_ne (s : State) {k j : Nat} (x : Run) (h : j ≠ k) : runGet (runPut k x s) j = runGet s j := mget_mset_ne _ s.runs k j x h
theorem runGet_runPut_wf (s : State) (k : Nat) (x : Run) (h : mwf Run.init s.runs = true) : runGet (runPut k x s) k = x :=
  (mget_mset h k k x).trans (if_pos rfl)

theorem chanGet_chanPut (s : State) {k : Nat} {x : Chan} (h : x ≠ Chan.init) : chanGet (chanPut k x s) k = x := mget_mset_nd s.chans k h
theorem chanGet_chanPut_ne (s : State) {k j : Nat} (x : Chan) (h : j ≠ k) : chanGet (chanPut k x s) j = chanGet s j := mget_mset_ne _ s.chans k j x h
theorem chanGet_chanPut_wf (s : State) (k : Nat) (x : Chan) (h : mwf Chan.init s.chans = true) : chanGet (chanPut k x s) k = x :=
  (mget_mset h k k x).trans (if_pos rfl)

theorem objGet_objPut (s : State) {k : Nat} {x : SyncObj} (h : x ≠ SyncObj.init) : objGet (objPut k x s) k = x := mget_mset_nd s.objs k h
theorem objGet_objPut_ne (s : State) {k j : Nat} (x : SyncObj) (h : j ≠ k) : objGet (objPut k x s) j = objGet s j := mget_mset_ne _ s.objs k j x h
theorem objGet_objPut_wf (s : State) (k : Nat) (x : SyncObj) (h : mwf SyncObj.init s.objs = true) : objGet (objPut k x s) k = x :=
  (mget_mset h k k x).trans (if_pos rfl)

theorem seqGet_seqPut (s : State) {k : Nat} {x : SeqList} (h : x ≠ SeqList.init) : seqGet (seqPut k x s) k = x := mget_mset_nd s.lists k h
theorem seqGet_seqPut_ne (s : State) {k j : Nat} (x : SeqList) (h : j ≠ k) : seqGet (seqPut k x s) j = seqGet s j := mget_mset_ne _ s.lists k j x h
theorem seqGet_seqPut_wf (s : State) (k : Nat) (x : SeqList) (h : mwf SeqList.init s.lists = true) : seqGet (seqPut k x s) k = x :=
  (mget_mset h k k x).trans (if_pos rfl)

theorem barGet_barPut (s : State) {k : Nat} {x : Barrier} (h : x ≠ Barrier.init) : barGet (barPut k x s) k = x := mget_mset_nd s.barriers k h
theorem barGet_barPut_ne (s : State) {k j : Nat} (x : Barrier) (h : j ≠ k) : barGet (barPut k x s) j = barGet s j := mget_mset_ne _ s.barriers k j x h
theorem barGet_barPut_wf (s : State) (k : Nat) (x : Barrier) (h : mwf Barrier.init s.barriers = true) : barGet (barPut k x s) k = x :=
  (mget_mset h k k x).trans (if_pos rfl)

theorem wxaGet_wxaPut (s : State) {k : Nat} {x : Wxa} (h : x ≠ Wxa.init) : wxaGet (wxaPut k x s) k = x := mget_mset_nd s.wxas k h
theorem wxaGet_wxaPut_ne (s : State) {k j : Nat} (x : Wxa) (h : j ≠ k) : wxaGet (wxaPut k x s) j = wxaGet s j := mget_mset_ne _ s.wxas k j x h
theorem wxaGet_wxaPut_wf (s : State) (k : Nat) (x : Wxa) (h : mwf Wxa.init s.wxas = true) : wxaGet (wxaPut k x s) k = x :=
  (mget_mset h k k x).trans (if_pos rfl)

theorem embGet_embPut (s : State) {k : Nat} {x : Emb} (h : x ≠ Emb.init) : embGet (embPut k x s) k = x := mget_mset_nd s.emb k h
theorem embGet_embPut_ne (s : State) {k j : Nat} (x : Emb) (h : j ≠ k) : embGet (embPut k x s) j = embGet s j := mget_mset_ne _ s.emb k j x h
theorem embGet_embPut_wf (s : State) (k : Nat) (x : Emb) (h : mwf Emb.init s.emb = true) : embGet (embPut k x s) k = x :=
  (mget_mset h k k x).trans (if_pos rfl)

theorem islGet_islPut (s : State) {k : Nat} {x : Isl} (h : x ≠ Isl.init) : islGet (islPut k x s) k = x := mget_mset_nd s.isl k h
theorem islGet_islPut_ne (s : State) {k j : Nat} (x : Isl) (h : j ≠ k) : islGet (islPut k x s) j = islGet s j := mget_mset_ne _ s.isl k j x h
theorem islGet_islPut_wf (s : State) (k : Nat) (x : Isl) (h : mwf Isl.init s.isl = true) : islGet (islPut k x s) k = x :=
  (mget_mset h k k x).trans (if_pos rfl)

theorem fiGet_fiPut (s : State) {k : Nat} {x : FiSlot} (h : x ≠ FiSlot.init) : fiGet (fiPut k x s) k = x := mget_mset_nd s.fi k h
theorem fiGet_fiPut_ne (s : State) {k j : Nat} (x : FiSlot) (h : j ≠ k) : fiGet (fiPut k x s) j = fiGet s j := mget_mset_ne _ s.fi k j x h
theorem fiGet_fiPut_wf (s : State) (k : Nat) (x : FiSlot) (h : mwf FiSlot.init s.fi = true) : fiGet (fiPut k x s) k = x :=
  (mget_mset h k k x).trans (if_pos rfl)

theorem rget_rset (s : State) {k : Nat} {x : W32} (h : x ≠ 0) : rget (rset k x s) k = x := mget_mset_nd s.regs k h
theorem rget_rset_ne (s : State) {k j : Nat} (x : W32) (h : j ≠ k) : rget (rset k x s) j = rget s j := mget_mset_ne _ s.regs k j x h
theorem rget_rset_wf (s : State) (k : Nat) (x : W32) (h : mwf 0 s.regs = true) : rget (rset k x s) k = x :=
  (mget_mset h k k x).trans (if_pos rfl)

end Sys2Proof.Machine
end

