-- ==== Sys2Proof/Laws/Frames.lean ====
section
/-! SUPPORT. What passes a link while no fault is injected, the header checks of a frame, and a memory operation whose checks pass. -/

namespace Sys2Proof.Machine

/-- Slots that are not active and hold nothing let every item by. -/
theorem fiSlots_quiet {s : State} (h : ∀ k < 8, (fiGet s k).state ≠ .active ∧ (fiGet s k).held = none) :
    ∀ (l : List Nat) (it : FiItem), (∀ k ∈ l, k < 8) → fiSlots l it s = (some it, s) := by
  intro l
  induction l with
  | nil => intros; rfl
  | cons k t ih =>
    intro it hl
    have hk := h k (hl k (by simp))
    have hr := ih it (fun j hj => hl j (by simp [hj]))
    simp only [fiSlots]
    split
    · rfl
    · split
      · exact hr
      · simp [hk.1, hk.2, hr]

theorem fiFrom_quiet {s : State} (h : Quiet s) (k : Nat) (it : FiItem) : fiFrom k it s = (some it, s) := by
  unfold fiFrom
  apply fiSlots_quiet h.2
  intro j hj
  simp at hj
  exact hj.1

/-- With nothing on its way, settling changes nothing. -/
theorem settle_nil {s : State} (h : s.wire = []) : settle s = s := by
  unfold settle settleWire
  rw [h]

theorem arrive_quiet {s : State} (h : Quiet s) (c : Instr) : arrive c s = settle (arrived c s) := by
  unfold arrive
  rw [fiFrom_quiet h]

theorem emitOn_quiet {s : State} (h : Quiet s) (l : Nat) (o : Out) : emitOn l o s = emit o s := by
  unfold emitOn
  rw [fiFrom_quiet h]
  simp only
  unfold flushOut
  simp [emit, h.1]

/-- A frame that passes its header checks reaches its session. -/
theorem frameIn_ok {ty : Byte} {f : Frame} {s : State} {k : Nat} {x : Session} (h : FrameOk ty f s k x) :
    frameIn ty f s = (some (k, heardBy f s x), heard f s x) := by
  obtain ⟨h1, h2, h3, h4, h5, h6, h7, h8, h9, h10, h11⟩ := h
  subst h5
  have h12 : ¬ bodyMax < f.body.length := by unfold bodyMax; omega
  have h13 : ¬ f.hdr.nonce.toNat + 64 < x.nonceTop := by omega
  simp [frameIn, *, heardBy, heard, linkBump, bump]

theorem firstCode_ok {l : List W16} (h : ∀ c ∈ l, c = cOk) : firstCode l = cOk := by
  induction l with
  | nil => rfl
  | cons a t ih =>
    simp only [firstCode, h a (by simp), if_true]
    exact ih (fun c hc => h c (by simp [hc]))

/-- A memory operation whose checks pass has its effect and its answer. -/
theorem opRow_mem {op : Nat} {o : OpRef} {h : OpHdr} {data : List Byte} {s : State} {x : Session} (hm : MemReady op o h data s x)
    (hop : isMemOp op = true) :
    opRow op o h data s =
      emit (.opResult o (memDo op o.sid x h data s).1.code (memDo op o.sid x h data s).1.value (memDo op o.sid x h data s).1.data)
        (memDo op o.sid x h data s).2 := by
  obtain ⟨h1, h2, h3, h4, h5, h6, h7, h8, h9⟩ := hm
  have hc : firstCode ((lineAddrs (localOf h.addr) (opSpan op h)).map (if op = 0x01 then mapRead else mapWrite s)) = cOk := by
    apply firstCode_ok
    intro c hc
    obtain ⟨l, hl, rfl⟩ := List.mem_map.1 hc
    have := h6 l hl
    split at this <;> simp_all
  simp only [opRow, h1, h2, Bool.not_true, Bool.false_eq_true, if_false, opDo, h3, hop, if_true, h4, h5, memOp, hc, ne_eq,
    not_true_eq_false, h7, h8, h9]

/-- The effect of a stage that is due: its unit's function, then what poison it met. -/
theorem unitRun_due {kind : Nat} {r : RunRef} {s : State} {x : Ctx} (h : StageDue kind r s x) (f : Ctx → State → State) :
    unitRun kind r.chan.toNat r.seq.toNat f s = notePoison x (f x s) := by
  obtain ⟨h1, h2, h3, h4⟩ := h
  simp only [unitRun, h1, h2, h3]
  by_cases hh : (x.entry && decide (x.run.did = [])) = true
  · simp [hh, h4 hh]
  · simp [hh]

end Sys2Proof.Machine
end

