-- ==== Sys2Proof/Laws/Keep.lean ====
section
/-! SUPPORT. What every meaning keeps. The lemmas about one function of the model after another stand in Laws/Keep<File>.lean, each of
the form: what holds of the state it starts from holds of the state it leaves. -/

namespace Sys2Proof.Machine

/-- What every meaning keeps between the state it starts from and the state it leaves: the queue, a sound state, burnt fuses, what
the device has emitted; but for a cold restart (`C`), what `Warm` says; and memory, flash and pins, where the function does not write
them (`M`, `F`, `P`). -/
structure Keeps (C M F P : Prop) (s t : State) : Prop where
  pending : t.pending = s.pending
  sound : Sound s → Sound t
  fuses : FusesKept s.fuses t.fuses
  out : s.out <+: t.out
  warm : C ∨ Warm s t
  memory : M ∨ (t.mem = s.mem ∧ t.poison = s.poison)
  flash : F ∨ t.flash = s.flash
  pins : P ∨ t.pins = s.pins

theorem FusesKept.refl (f : Fuses) : FusesKept f f := ⟨fun _ _ h => h, fun _ h => h, Nat.le_refl _, rfl, rfl⟩
theorem Warm.refl (s : State) : Warm s s := ⟨rfl, Nat.le_refl _, id, Nat.le_refl _⟩
theorem FusesKept.trans {f g h : Fuses} (a : FusesKept f g) (b : FusesKept g h) : FusesKept f h :=
  ⟨fun k d x => b.1 k d (a.1 k d x), fun k x => b.2 k (a.2 k x), Nat.le_trans a.3 b.3, b.4.trans a.4, b.5.trans a.5⟩
theorem Warm.trans {s t u : State} (a : Warm s t) (b : Warm t u) : Warm s u :=
  ⟨b.1.trans a.1, Nat.le_trans a.2 b.2, fun h => b.3 (a.3 h), Nat.le_trans a.4 b.4⟩

theorem Keeps.refl {C M F P : Prop} (s : State) : Keeps C M F P s s :=
  ⟨rfl, id, FusesKept.refl _, List.prefix_refl _, .inr (Warm.refl _), .inr ⟨rfl, rfl⟩, .inr rfl, .inr rfl⟩
theorem Keeps.trans {C M F P : Prop} {s t u : State} (a : Keeps C M F P s t) (b : Keeps C M F P t u) : Keeps C M F P s u :=
  ⟨b.1.trans a.1, fun h => b.2 (a.2 h), a.3.trans b.3, a.4.trans b.4,
    a.5.elim .inl (fun x => b.5.elim .inl (fun y => .inr (x.trans y))),
    a.6.elim .inl (fun x => b.6.elim .inl (fun y => .inr ⟨y.1.trans x.1, y.2.trans x.2⟩)),
    a.7.elim .inl (fun x => b.7.elim .inl (fun y => .inr (y.trans x))),
    a.8.elim .inl (fun x => b.8.elim .inl (fun y => .inr (y.trans x)))⟩
theorem Keeps.ite {C M F P q : Prop} [Decidable q] {s0 a b : State} (ha : Keeps C M F P s0 a) (hb : Keeps C M F P s0 b) :
    Keeps C M F P s0 (if q then a else b) := by split <;> assumption
theorem Keeps.ite2 {C M F P q : Prop} [Decidable q] {α : Type} {s0 : State} {a b : α × State} (ha : Keeps C M F P s0 a.2)
    (hb : Keeps C M F P s0 b.2) : Keeps C M F P s0 (if q then a else b).2 := by split <;> assumption
theorem keeps_foldl {C M F P : Prop} {α : Type} {s0 : State} {f : State → α → State}
    (hf : ∀ t x, Keeps C M F P s0 t → Keeps C M F P s0 (f t x)) {l : List α} {s : State} (h : Keeps C M F P s0 s) : Keeps C M F P s0 (l.foldl f s) := by
  induction l generalizing s with
  | nil => exact h
  | cons x l ih => exact ih (hf _ _ h)
theorem keeps_foldl2 {C M F P : Prop} {α β : Type} {s0 : State} {f : β × State → α → β × State}
    (hf : ∀ t x, Keeps C M F P s0 t.2 → Keeps C M F P s0 (f t x).2) {l : List α} {s : β × State} (h : Keeps C M F P s0 s.2) :
    Keeps C M F P s0 (l.foldl f s).2 := by
  induction l generalizing s with
  | nil => exact h
  | cons x l ih => exact ih (hf _ _ h)
theorem Keeps.ite3 {C M F P q : Prop} [Decidable q] {α β : Type} {s0 : State} {a b : α × β × State} (ha : Keeps C M F P s0 a.2.2)
    (hb : Keeps C M F P s0 b.2.2) : Keeps C M F P s0 (if q then a else b).2.2 := by split <;> assumption
theorem keeps_of_eq2 {C M F P : Prop} {α : Type} {s0 t : State} {p : α × State} {a : α} (e : p = (a, t)) (h : Keeps C M F P s0 p.2) :
    Keeps C M F P s0 t := by subst e; exact h
theorem keeps_of_eq3 {C M F P : Prop} {α β : Type} {s0 t : State} {p : α × β × State} {a : α} {b : β} (e : p = (a, b, t))
    (h : Keeps C M F P s0 p.2.2) : Keeps C M F P s0 t := by subst e; exact h
theorem keeps_of_eqp {C M F P : Prop} {α : Type} {s0 : State} {p r : α × State} (e : p = r) (h : Keeps C M F P s0 p.2) :
    Keeps C M F P s0 r.2 := by subst e; exact h
/-- What a function that may answer nothing keeps where it answers. -/
def KeepsSome {α : Type} (C M F P : Prop) (s0 : State) (o : Option (α × State)) : Prop := ∀ r, o = some r → Keeps C M F P s0 r.2
theorem keeps_of_some2 {C M F P : Prop} {α : Type} {s0 t : State} {o : Option (α × State)} {a : α} (e : o = some (a, t))
    (h : KeepsSome C M F P s0 o) : Keeps C M F P s0 t := h _ e
theorem stateOf_keeps {C M F P : Prop} {s0 s : State} {o : Host.Outcome State Fault Refusal} (h : Keeps C M F P s0 s)
    (ho : ∃ t, o = .next t ∧ Keeps C M F P s0 t) : Keeps C M F P s0 (stateOf o s) := by
  obtain ⟨t, rfl, ht⟩ := ho
  exact ht
theorem Keeps.mono {C M F P C2 M2 F2 P2 : Prop} {s t : State} (h : Keeps C M F P s t) (c : C → C2) (m : M → M2) (f : F → F2)
    (p : P → P2) : Keeps C2 M2 F2 P2 s t :=
  ⟨h.1, h.2, h.3, h.4, h.5.imp c id, h.6.imp m id, h.7.imp f id, h.8.imp p id⟩
/-- A record update of the other fields keeps. -/
theorem Keeps.of_mk {C M F P : Prop} {s0 t : State} {b1 b2 b3 b4 b5 b6 b7 b8 b9 b10 b11 b12 b13 b14 b15 b16 b17 b18 b19 b20 b21 b22 b23 b24 b25 b26 b27 b28 b29 b30 b31 b32 b33 b34 b35 b36 b37 b38 b39 b40 b41 b42 b43 b44 b45 b46 b47 b48 b49 b50 b51} (h : Keeps C M F P s0 t) :
    Keeps C M F P s0 (State.mk t.pending t.out b1 t.time t.mem t.poison t.flash t.regs b2 t.counters b3 b4 b5 b6 b7 b8 b9 b10 b11 b12 b13 b14 b15 b16 b17 b18 b19 b20 b21 b22 b23 b24 b25 b26 b27 b28 b29 b30 t.nextSid b31 b32 b33 b34 b35 b36 b37 b38 b39 b40 b41 b42 b43 b44 b45 b46 b47 b48 t.audit b49 t.fuses b50 b51 t.pins) := ⟨h.1, h.2, h.3, h.4, h.5.imp id (fun w => ⟨w.1, w.2, w.3, w.4⟩), h.6, h.7, h.8⟩

/-- A record update of any field but the queue and the time keeps where each change of a store, of the log, of the fuses, of the
outputs and of the next session id does. -/
theorem Keeps.of_mk_all {C M F P : Prop} {s0 t : State} {o me po fl r n i a z pi} {b1 b2 b3 b4 b5 b6 b7 b8 b9 b10 b11 b12 b13 b14 b15 b16 b17 b18 b19 b20 b21 b22 b23 b24 b25 b26 b27 b28 b29 b30 b31 b32 b33 b34 b35 b36 b37 b38 b39 b40 b41 b42 b43 b44 b45 b46 b47 b48 b49 b50 b51} (h : Keeps C M F P s0 t)
    (hm : mwf 0 t.mem = true → mwf 0 me = true) (hp : mwf false t.poison = true → mwf false po = true)
    (hf : mwf 0xFF t.flash = true → mwf 0xFF fl = true) (hr : mwf 0 t.regs = true → mwf 0 r = true)
    (hn : mwf 0 t.counters = true → mwf 0 n = true)
    (ha : linked t.audit.count t.audit.head t.audit.ring → linked a.count a.head a.ring)
    (hc : t.audit.count ≤ a.count) (hu : t.audit.unlocked = true → a.unlocked = true)
    (hz : FusesKept t.fuses z) (ho : t.out <+: o) (hi : t.nextSid ≤ i)
    (hmm : M ∨ (me = t.mem ∧ po = t.poison)) (hff : F ∨ fl = t.flash) (hpp : P ∨ pi = t.pins) :
    Keeps C M F P s0 (State.mk t.pending o b1 t.time me po fl r b2 n b3 b4 b5 b6 b7 b8 b9 b10 b11 b12 b13 b14 b15 b16 b17 b18 b19 b20 b21 b22 b23 b24 b25 b26 b27 b28 b29 b30 i b31 b32 b33 b34 b35 b36 b37 b38 b39 b40 b41 b42 b43 b44 b45 b46 b47 b48 a b49 z b50 b51 pi) :=
  h.trans ⟨rfl, fun x => ⟨⟨hm x.1.1, hp x.1.2.1, hf x.1.2.2.1, hr x.1.2.2.2.1, hn x.1.2.2.2.2⟩, ha x.2⟩, hz, ho,
    .inr ⟨rfl, hc, hu, hi⟩, hmm, hff, hpp⟩

end Sys2Proof.Machine
end

