-- ==== Sys2Proof/Laws/KeepOps.lean ====
section
/-! SUPPORT. What the functions of Machine/Ops.lean keep (Laws/Keep.lean). -/

namespace Sys2Proof.Machine

theorem emit_keeps {C M F P : Prop} {s0 s : State} {a1} (h : Keeps C M F P s0 s) : Keeps C M F P s0 (emit a1 s) := by
  unfold emit
  try dsimp only
  with_reducible exact Keeps.of_mk_all h id id id id id id (Nat.le_refl _) id (FusesKept.refl _) (List.prefix_append _ _) (Nat.le_refl _) (.inr ⟨rfl, rfl⟩) (.inr rfl) (.inr rfl)

theorem rset_keeps {C M F P : Prop} {s0 s : State} {a1} {a2} (h : Keeps C M F P s0 s) : Keeps C M F P s0 (rset a1 a2 s) := by
  unfold rset
  try dsimp only
  with_reducible exact Keeps.of_mk_all h id id id (mset_wf _ _) id id (Nat.le_refl _) id (FusesKept.refl _) (List.prefix_refl _) (Nat.le_refl _) (.inr ⟨rfl, rfl⟩) (.inr rfl) (.inr rfl)

theorem bump_keeps {C M F P : Prop} {s0 s : State} {a1} {a2} (h : Keeps C M F P s0 s) : Keeps C M F P s0 (bump a1 a2 s) := by
  unfold bump
  try dsimp only
  with_reducible exact Keeps.of_mk_all h id id id id (mset_wf _ _) id (Nat.le_refl _) id (FusesKept.refl _) (List.prefix_refl _) (Nat.le_refl _) (.inr ⟨rfl, rfl⟩) (.inr rfl) (.inr rfl)

theorem alertEdge_keeps {C M F P : Prop} {s0 s : State} {a1} (h : Keeps C M F P s0 s) : Keeps C M F P s0 (alertEdge a1 s) := by
  unfold alertEdge
  exact .ite (emit_keeps h) h

theorem alert_keeps {C M F P : Prop} {s0 s : State} {a1} (h : Keeps C M F P s0 s) : Keeps C M F P s0 (alert a1 s) := by
  unfold alert
  try dsimp only
  with_reducible exact alertEdge_keeps (rset_keeps h)

theorem takeFree_keeps {C M F P : Prop} {s0 s : State} (h : Keeps C M F P s0 s) : Keeps C M F P s0 (takeFree s).2 := by
  unfold takeFree
  try dsimp only
  with_reducible exact Keeps.of_mk h

theorem linked_append {n : Nat} {hd : Digest} {l : List AuditRec} {r : AuditRec} (h : linked n hd l) (hi : r.index = n)
    (hc : r.chain = sha3 (digestBytes hd ++ r.body)) : linked (n + 1) r.chain (l ++ [r]) := by
  induction l with
  | nil => exact ⟨by omega, rfl⟩
  | cons x t ih =>
    cases t with
    | nil => exact ⟨⟨by rw [hi, h.1], by rw [hc, h.2]⟩, by omega, rfl⟩
    | cons y t => exact ⟨h.1, ih h.2⟩

theorem auditAppend_keeps {C M F P : Prop} {s0 s : State} {a1} {a2} {a3} {a4} {a5} {a6} {a7} (h : Keeps C M F P s0 s) :
    Keeps C M F P s0 (auditAppend a1 a2 a3 a4 a5 a6 a7 s) := by
  unfold auditAppend
  extract_lets r d
  have hr : r.index = s.audit.count := rfl
  have hd : d = sha3 (digestBytes s.audit.head ++ r.body) := rfl
  clear_value d
  clear_value r
  refine .of_mk_all h id id id id id (fun x => ?_) (Nat.le_succ _) id (FusesKept.refl _) (List.prefix_refl _) (Nat.le_refl _)
    (.inr ⟨rfl, rfl⟩) (.inr rfl) (.inr rfl)
  exact linked_append (r := { r with chain := d }) x hr hd

theorem auditCheckpoint_keeps {C M F P : Prop} {s0 s : State} (h : Keeps C M F P s0 s) : Keeps C M F P s0 (auditCheckpoint s) := by
  unfold auditCheckpoint
  try dsimp only
  with_reducible exact Keeps.of_mk_all (auditAppend_keeps (Keeps.of_mk_all h id id id id id id (Nat.le_refl _) id (FusesKept.refl _) (List.prefix_refl _) (Nat.le_refl _) (.inr ⟨rfl, rfl⟩) (.inr rfl) (.inr rfl))) id id id (mset_wf _ _) id id (Nat.le_refl _) id (FusesKept.refl _) (List.prefix_refl _) (Nat.le_refl _) (.inr ⟨rfl, rfl⟩) (.inr rfl) (.inr rfl)

theorem auditPeriodic_keeps {C M F P : Prop} {s0 s : State} (h : Keeps C M F P s0 s) : Keeps C M F P s0 (auditPeriodic s) := by
  unfold auditPeriodic
  try dsimp only
  with_reducible exact Keeps.ite (auditCheckpoint_keeps h) h

theorem auditFlush_keeps {C M F P : Prop} {s0 s : State} (h : Keeps C M F P s0 s) : Keeps C M F P s0 (auditFlush s) := by
  unfold auditFlush
  try dsimp only
  with_reducible exact Keeps.ite h (Keeps.ite (Keeps.of_mk_all h id id id id id id (Nat.le_refl _) id (FusesKept.refl _) (List.prefix_refl _) (Nat.le_refl _) (.inr ⟨rfl, rfl⟩) (.inr rfl) (.inr rfl)) (auditPeriodic_keeps (Keeps.of_mk_all (auditCheckpoint_keeps h) id id id id id id (Nat.le_refl _) id (FusesKept.refl _) (List.prefix_refl _) (Nat.le_refl _) (.inr ⟨rfl, rfl⟩) (.inr rfl) (.inr rfl))))

theorem audit_keeps {C M F P : Prop} {s0 s : State} {a1} {a2} {a3} {a4} {a5} (h : Keeps C M F P s0 s) : Keeps C M F P s0 (audit a1 a2 a3 a4 a5 s) := by
  unfold audit
  try dsimp only
  with_reducible exact Keeps.ite (bump_keeps h) (Keeps.ite (Keeps.of_mk h) (Keeps.ite (auditFlush_keeps (auditPeriodic_keeps (auditAppend_keeps h))) (auditPeriodic_keeps (auditAppend_keeps h))))

theorem regRefuse_keeps {C M F P : Prop} {s0 s : State} {a1} {a2} {a3} (h : Keeps C M F P s0 s) : Keeps C M F P s0 (regRefuse a1 a2 a3 s) := by
  unfold regRefuse
  try dsimp only
  with_reducible exact Keeps.ite (Keeps.ite (audit_keeps (alert_keeps (bump_keeps (rset_keeps (rset_keeps (rset_keeps (rset_keeps (rset_keeps h)))))))) (alert_keeps (bump_keeps (rset_keeps (rset_keeps (rset_keeps (rset_keeps (rset_keeps h)))))))) h

theorem auditRefused_keeps {C M F P : Prop} {s0 s : State} {a1} {a2} {a3} (h : Keeps C M F P s0 s) : Keeps C M F P s0 (auditRefused a1 a2 a3 s) := by
  unfold auditRefused
  try dsimp only
  with_reducible exact audit_keeps h

theorem writeMem_keeps {C F P : Prop} {s0 s : State} {a1} {a2} (h : Keeps C True F P s0 s) : Keeps C True F P s0 (writeMem a1 a2 s) := by
  unfold writeMem
  try dsimp only
  with_reducible exact Keeps.of_mk_all h (putMem_wf _ _) (foldl_ndel_wf _) id id id id (Nat.le_refl _) id (FusesKept.refl _) (List.prefix_refl _) (Nat.le_refl _) (.inl trivial) (.inr rfl) (.inr rfl)

end Sys2Proof.Machine
end

