-- ==== Sys2Proof/Laws/KeepCells.lean ====
section
/-! SUPPORT. What the functions of Machine/Cells.lean keep (Laws/Keep.lean). -/

namespace Sys2Proof.Machine

theorem wxaPut_keeps {C M F P : Prop} {s0 s : State} {a1} {a2} (h : Keeps C M F P s0 s) : Keeps C M F P s0 (wxaPut a1 a2 s) := by
  unfold wxaPut
  try dsimp only
  with_reducible exact Keeps.of_mk h

end Sys2Proof.Machine
end

