-- ==== Sys2Proof/Laws/KeepIntegrity.lean ====
section
/-! SUPPORT. What the functions of Machine/Integrity.lean keep (Laws/Keep.lean). -/

namespace Sys2Proof.Machine

theorem satBump_keeps {C M F P : Prop} {s0 s : State} {a1} (h : Keeps C M F P s0 s) : Keeps C M F P s0 (satBump a1 s) := by
  unfold satBump
  try dsimp only
  with_reducible exact Keeps.ite h (rset_keeps h)

theorem intRecord_keeps {C M F P : Prop} {s0 s : State} {a1} {a2} (h : Keeps C M F P s0 s) : Keeps C M F P s0 (intRecord a1 a2 s) := by
  unfold intRecord
  try dsimp only
  with_reducible exact Keeps.ite h (Keeps.ite (alert_keeps (rset_keeps (Keeps.ite (satBump_keeps (Keeps.of_mk h)) (Keeps.of_mk h)))) (rset_keeps (Keeps.ite (satBump_keeps (Keeps.of_mk h)) (Keeps.of_mk h))))

theorem poisonedRead_keeps {C M F P : Prop} {s0 s : State} {a1} {a2} {a3} (h : Keeps C M F P s0 s) : Keeps C M F P s0 (poisonedRead a1 a2 a3 s) := by
  unfold poisonedRead
  try dsimp only
  split
  · with_reducible exact h
  · split
    · with_reducible exact h
    · with_reducible exact intRecord_keeps (bump_keeps h)

end Sys2Proof.Machine
end

