-- ==== Sys2Proof/Laws/KeepRuns.lean ====
section
/-! SUPPORT. What the functions of Machine/Runs.lean keep (Laws/Keep.lean). -/

namespace Sys2Proof.Machine

theorem runPut_keeps {C M F P : Prop} {s0 s : State} {a1} {a2} (h : Keeps C M F P s0 s) : Keeps C M F P s0 (runPut a1 a2 s) := by
  unfold runPut
  try dsimp only
  with_reducible exact Keeps.of_mk h

theorem chanPut_keeps {C M F P : Prop} {s0 s : State} {a1} {a2} (h : Keeps C M F P s0 s) : Keeps C M F P s0 (chanPut a1 a2 s) := by
  unfold chanPut
  try dsimp only
  with_reducible exact Keeps.of_mk h

theorem notePoison_keeps {C M F P : Prop} {s0 s : State} {a1} (h : Keeps C M F P s0 s) : Keeps C M F P s0 (notePoison a1 s) := by
  unfold notePoison
  try dsimp only
  with_reducible refine Keeps.ite ?_ h
  split
  · with_reducible exact poisonedRead_keeps h
  · with_reducible exact h

theorem unitRun_keeps {C M F P : Prop} {s0 s : State} {a1} {a2} {a3} {a4} (hf4 : ∀ x1 t, Keeps C M F P s0 t → Keeps C M F P s0 (a4 x1 t)) (h : Keeps C M F P s0 s) : Keeps C M F P s0 (unitRun a1 a2 a3 a4 s) := by
  unfold unitRun
  try dsimp only
  split
  · with_reducible exact h
  · with_reducible exact Keeps.ite h (Keeps.ite (runPut_keeps h) (notePoison_keeps (hf4 _ _ h)))

theorem bumpReef_keeps {C M F P : Prop} {s0 s : State} {a1} {a2} {a3} (h : Keeps C M F P s0 s) : Keeps C M F P s0 (bumpReef a1 a2 a3 s) := by
  unfold bumpReef
  try dsimp only
  with_reducible exact Keeps.ite h (bump_keeps h)

theorem placeOut_keeps {C F P : Prop} {s0 s : State} {a1} {a2} (h : Keeps C True F P s0 s) : Keeps C True F P s0 (placeOut a1 a2 s) := by
  unfold placeOut
  try dsimp only
  with_reducible exact writeMem_keeps h

end Sys2Proof.Machine
end

