-- ==== Sys2Proof/Laws/KeepStipple.lean ====
section
/-! SUPPORT. What the functions of Machine/Stipple.lean keep (Laws/Keep.lean). -/

namespace Sys2Proof.Machine

theorem stippleStage_keeps {C M F P : Prop} {s0 s : State} {a1} (h : Keeps C M F P s0 s) : Keeps C M F P s0 (stippleStage a1 s) := by
  unfold stippleStage
  try dsimp only
  with_reducible exact bumpReef_keeps (bumpReef_keeps (bumpReef_keeps (bumpReef_keeps (runPut_keeps h))))

theorem execStippleAugment_keeps {C M F P : Prop} {s0 s : State} {a1} (h : Keeps C M F P s0 s) : ∃ t, execStippleAugment a1 s = .next t ∧ Keeps C M F P s0 t := by
  unfold execStippleAugment
  try dsimp only
  refine ⟨_, rfl, ?_⟩
  with_reducible exact unitRun_keeps (fun x1 t1 h1 => stippleStage_keeps h1) h

end Sys2Proof.Machine
end

