-- ==== Sys2Proof/Laws/KeepArray.lean ====
section
/-! SUPPORT. What the functions of Machine/Array.lean keep (Laws/Keep.lean). -/

namespace Sys2Proof.Machine

theorem execWxaTerm_keeps {C M F P : Prop} {s0 s : State} {a1} {a2} {a3} (h : Keeps C M F P s0 s) : ∃ t, execWxaTerm a1 a2 a3 s = .next t ∧ Keeps C M F P s0 t := by
  unfold execWxaTerm
  try dsimp only
  refine ⟨_, rfl, ?_⟩
  with_reducible exact Keeps.ite (wxaPut_keeps h) h

theorem sendLinks_keeps {C M F P : Prop} {s0 s : State} {a1} {a2} {a3} {a4} {a5} (h : Keeps C M F P s0 s) : Keeps C M F P s0 (sendLinks a1 a2 a3 a4 a5 s) := by
  unfold sendLinks
  try dsimp only
  with_reducible exact keeps_foldl (fun t1 x1 h1 => Keeps.ite (Keeps.of_mk h1) h1) h

theorem cellResult_keeps {C M F P : Prop} {s0 s : State} {a1} {a2} {a3} {a4} {a5} (h : Keeps C M F P s0 s) : Keeps C M F P s0 (cellResult a1 a2 a3 a4 a5 s) := by
  unfold cellResult
  try dsimp only
  with_reducible exact Keeps.ite (emit_keeps (Keeps.ite (wxaPut_keeps h) (sendLinks_keeps h))) (Keeps.ite (wxaPut_keeps h) (sendLinks_keeps h))

theorem dropRecord_keeps {C M F P : Prop} {s0 s : State} {a1} {a2} (h : Keeps C M F P s0 s) : Keeps C M F P s0 (dropRecord a1 a2 s) := by
  unfold dropRecord
  try dsimp only
  with_reducible exact Keeps.ite (runPut_keeps h) h

theorem recordStep_keeps {C M F P : Prop} {s0 s : State} {a1} {a2} {a3} {a4} {a5} {a6} {a7} {a8} (h : Keeps C M F P s0 s) : Keeps C M F P s0 (recordStep a1 a2 a3 a4 a5 a6 a7 a8 s) := by
  unfold recordStep
  try dsimp only
  with_reducible exact cellResult_keeps (Keeps.ite (dropRecord_keeps (Keeps.of_mk h)) (Keeps.of_mk h))

theorem execRecordCellStep_keeps {C M F P : Prop} {s0 s : State} {a1} {a2} {a3} {a4} {a5} {a6} {a7} {a8} (h : Keeps C M F P s0 s) : ∃ t, execRecordCellStep a1 a2 a3 a4 a5 a6 a7 a8 s = .next t ∧ Keeps C M F P s0 t := by
  unfold execRecordCellStep
  try dsimp only
  refine ⟨_, rfl, ?_⟩
  split
  · with_reducible exact h
  · with_reducible exact Keeps.ite h (recordStep_keeps h)

theorem dotCell_keeps {C M F P : Prop} {s0 : State} {a1} {a2} {a3} {a4} {a5 : DotAcc} {a6} (h : Keeps C M F P s0 a5.s) :
    Keeps C M F P s0 (dotCell a1 a2 a3 a4 a5 a6).s := by
  unfold dotCell
  dsimp only
  repeat' with_reducible first
    | exact h
    | apply emit_keeps
    | apply sendLinks_keeps
    | apply runPut_keeps
    | apply poisonedRead_keeps
    | split
    | apply Keeps.of_mk

theorem dotRow_keeps {C M F P : Prop} {s0 s : State} {a1} {a2} {a3} {a4} (h : Keeps C M F P s0 s) : Keeps C M F P s0 (dotRow a1 a2 a3 a4 s) := by
  have hf : ∀ (l : List Nat) (a : DotAcc), Keeps C M F P s0 a.s → Keeps C M F P s0 (l.foldl (dotCell a1 a2 a3 a4) a).s := by
    intro l
    induction l with
    | nil => exact fun a ha => ha
    | cons x l ih => exact fun a ha => ih _ (dotCell_keeps ha)
  unfold dotRow
  dsimp only
  exact .ite (wxaPut_keeps (hf _ _ h)) (hf _ _ h)

theorem execDotStep_keeps {C M F P : Prop} {s0 s : State} {a1} {a2} {a3} {a4} (h : Keeps C M F P s0 s) : ∃ t, execDotStep a1 a2 a3 a4 s = .next t ∧ Keeps C M F P s0 t := by
  unfold execDotStep
  try dsimp only
  refine ⟨_, rfl, ?_⟩
  split
  · with_reducible exact h
  · with_reducible exact Keeps.ite h (Keeps.of_mk (dotRow_keeps h))

end Sys2Proof.Machine
end

