-- ==== Sys2Proof/Laws/KeepAsu.lean ====
section
/-! SUPPORT. What the functions of Machine/Asu.lean keep (Laws/Keep.lean). -/

namespace Sys2Proof.Machine

theorem asuPut_keeps {C F P : Prop} {s0 s : State} {a1} {a2} {a3} (h : Keeps C True F P s0 s) : Keeps C True F P s0 (asuPut a1 a2 a3 s) := by
  unfold asuPut
  try dsimp only
  with_reducible exact writeMem_keeps (Keeps.of_mk h)

theorem asuLose_keeps {C M F P : Prop} {s0 s : State} {a1} (h : Keeps C M F P s0 s) : Keeps C M F P s0 (asuLose a1 s) := by
  unfold asuLose
  try dsimp only
  with_reducible exact Keeps.ite h (bump_keeps (Keeps.of_mk h))

theorem asuBumpGen_keeps {C M F P : Prop} {s0 s : State} {a1} {a2} {a3} (h : Keeps C M F P s0 s) : Keeps C M F P s0 (asuBumpGen a1 a2 a3 s) := by
  unfold asuBumpGen
  try dsimp only
  with_reducible exact Keeps.of_mk h

theorem asuSetSide_keeps {C M F P : Prop} {s0 s : State} {a1} {a2} {a3} (h : Keeps C M F P s0 s) : Keeps C M F P s0 (asuSetSide a1 a2 a3 s) := by
  unfold asuSetSide
  try dsimp only
  with_reducible exact Keeps.of_mk h

theorem asuTake_keeps {C F P : Prop} {s0 s : State} {a1} {a2} {a3} {a4} {a5} {a6} (h : Keeps C True F P s0 s) :
    Keeps C True F P s0 (asuTake a1 a2 a3 a4 a5 a6 s).2 := by
  induction a5 generalizing s a6 with
  | nil => exact h
  | cons o os ih =>
    unfold asuTake
    dsimp only
    with_reducible exact Keeps.ite2 h (Keeps.ite2 h (Keeps.ite2 (asuLose_keeps h) (Keeps.ite2 h (ih (bump_keeps (asuPut_keeps h))))))

theorem asuFind_keeps {C F P : Prop} {s0 s : State} {a1} {a2} {a3} {a4} {a5} (h : Keeps C True F P s0 s) : Keeps C True F P s0 (asuFind a1 a2 a3 a4 a5 s).2 := by
  unfold asuFind
  try dsimp only
  split
  · with_reducible exact asuTake_keeps (bump_keeps h)
  · with_reducible exact bump_keeps (Keeps.ite (bump_keeps (asuTake_keeps (bump_keeps h))) (asuTake_keeps (bump_keeps h)))

theorem asuNext_keeps {C F P : Prop} {s0 s : State} {a1} {a2} {a3} {a4} (h : Keeps C True F P s0 s) : Keeps C True F P s0 (asuNext a1 a2 a3 a4 s).2 := by
  unfold asuNext
  try dsimp only
  with_reducible exact Keeps.ite2 h (Keeps.ite2 (bump_keeps h) (asuFind_keeps h))

theorem asuRead_keeps {C M F P : Prop} {s0 s : State} {a1} {a2} {a3} {a4} (h : Keeps C M F P s0 s) : Keeps C M F P s0 (asuRead a1 a2 a3 a4 s).2 := by
  unfold asuRead
  try dsimp only
  with_reducible exact Keeps.ite (bump_keeps h) h

theorem asuWrite_keeps {C F P : Prop} {s0 s : State} {a1} {a2} {a3} {a4} (h : Keeps C True F P s0 s) : Keeps C True F P s0 (asuWrite a1 a2 a3 a4 s).2 := by
  unfold asuWrite
  try dsimp only
  with_reducible exact bump_keeps (asuPut_keeps h)

theorem asuDelete_keeps {C F P : Prop} {s0 s : State} {a1} {a2} {a3} {a4} (h : Keeps C True F P s0 s) : Keeps C True F P s0 (asuDelete a1 a2 a3 a4 s).2 := by
  unfold asuDelete
  try dsimp only
  with_reducible exact bump_keeps (Keeps.ite (asuPut_keeps h) h)

theorem asuMoveUp_keeps {C F P : Prop} {s0 s : State} {a1} {a2} {a3} {a4} {a5} (h : Keeps C True F P s0 s) :
    Keeps C True F P s0 (asuMoveUp a1 a2 a3 a4 a5 s) := by
  induction a5 generalizing s with
  | zero => exact h
  | succ n ih => exact ih (asuPut_keeps h)

theorem asuMoveDown_keeps {C F P : Prop} {s0 s : State} {a1} {a2} {a3} {a4} {a5} (h : Keeps C True F P s0 s) :
    Keeps C True F P s0 (asuMoveDown a1 a2 a3 a4 a5 s) := by
  induction a5 generalizing s a4 with
  | zero => exact h
  | succ n ih => exact ih (asuPut_keeps h)

theorem asuInsert_keeps {C F P : Prop} {s0 s : State} {a1} {a2} {a3} {a4} (h : Keeps C True F P s0 s) : Keeps C True F P s0 (asuInsert a1 a2 a3 a4 s).2 := by
  unfold asuInsert
  try dsimp only
  split
  · with_reducible exact h
  · with_reducible exact Keeps.ite2 h (bump_keeps (Keeps.ite (asuPut_keeps (asuMoveUp_keeps h)) (bump_keeps (asuBumpGen_keeps (asuPut_keeps (asuMoveUp_keeps h))))))
  · with_reducible exact Keeps.ite2 h (bump_keeps (Keeps.ite (asuPut_keeps (asuMoveDown_keeps h)) (bump_keeps (asuBumpGen_keeps (asuPut_keeps (asuMoveDown_keeps h))))))
  · with_reducible exact Keeps.ite2 (Keeps.ite2 h (bump_keeps (Keeps.ite (asuPut_keeps (asuMoveUp_keeps h)) (bump_keeps (asuBumpGen_keeps (asuPut_keeps (asuMoveUp_keeps h))))))) (Keeps.ite2 h (bump_keeps (Keeps.ite (asuPut_keeps (asuMoveDown_keeps h)) (bump_keeps (asuBumpGen_keeps (asuPut_keeps (asuMoveDown_keeps h)))))))

theorem asuFill_keeps {C F P : Prop} {s0 s : State} {a1} {a2} {a3} {a4} (h : Keeps C True F P s0 s) : Keeps C True F P s0 (asuFill a1 a2 a3 a4 s) := by
  unfold asuFill
  try dsimp only
  with_reducible exact keeps_foldl (fun t1 x1 h1 => Keeps.ite h1 (asuPut_keeps h1)) h

theorem asuRebuild_keeps {C F P : Prop} {s0 s : State} {a1} {a2} (h : Keeps C True F P s0 s) : Keeps C True F P s0 (asuRebuild a1 a2 s).2 := by
  unfold asuRebuild
  try dsimp only
  with_reducible exact Keeps.ite2 h (asuBumpGen_keeps (asuBumpGen_keeps (asuSetSide_keeps (asuFill_keeps h))))

theorem asuRun_keeps {C F P : Prop} {s0 s : State} {a1} {a2} (h : Keeps C True F P s0 s) : Keeps C True F P s0 (asuRun a1 a2 s).2 := by
  unfold asuRun
  try dsimp only
  split
  · with_reducible exact h
  · with_reducible refine Keeps.ite2 h ?_
    with_reducible refine Keeps.ite2 h ?_
    with_reducible refine Keeps.ite2 h ?_
    split
    · with_reducible exact asuFind_keeps h
    · with_reducible exact asuNext_keeps h
    · with_reducible exact asuRead_keeps h
    · with_reducible exact asuWrite_keeps h
    · with_reducible exact asuDelete_keeps h
    · with_reducible exact asuInsert_keeps h
    · with_reducible exact asuRebuild_keeps h

theorem asuDeliver_keeps {C F P : Prop} {s0 s : State} {a1} {a2} (h : Keeps C True F P s0 s) : Keeps C True F P s0 (asuDeliver a1 a2 s) := by
  unfold asuDeliver
  try dsimp only
  split
  · with_reducible exact writeMem_keeps h
  · with_reducible exact emit_keeps h

theorem asuStart_keeps {C F P : Prop} {s0 s : State} {a1} {a2} {a3} {a4} (h : Keeps C True F P s0 s) : Keeps C True F P s0 (asuStart a1 a2 a3 a4 s) := by
  unfold asuStart
  try dsimp only
  split
  · with_reducible exact bump_keeps (Keeps.of_mk h)
  · with_reducible exact asuDeliver_keeps (asuRun_keeps h)

theorem asuRelease_keeps {C F P : Prop} {s0 s : State} {a1} (h : Keeps C True F P s0 s) : Keeps C True F P s0 (asuRelease a1 s) := by
  induction a1 generalizing s with
  | nil => exact h
  | cons x t ih =>
    unfold asuRelease
    dsimp only
    with_reducible exact Keeps.ite (ih (Keeps.of_mk h)) (ih (asuDeliver_keeps (asuRun_keeps h)))

theorem execAsuThrottleEval_keeps {C F P : Prop} {s0 s : State} {a1} {a2} (h : Keeps C True F P s0 s) : ∃ t, execAsuThrottleEval a1 a2 s = .next t ∧ Keeps C True F P s0 t := by
  unfold execAsuThrottleEval
  try dsimp only
  refine ⟨_, rfl, ?_⟩
  with_reducible exact asuRelease_keeps (Keeps.of_mk h)

theorem execAsuSearch_keeps {C F P : Prop} {s0 s : State} {a1} {a2} (h : Keeps C True F P s0 s) : ∃ t, execAsuSearch a1 a2 s = .next t ∧ Keeps C True F P s0 t := by
  unfold execAsuSearch
  try dsimp only
  refine ⟨_, rfl, ?_⟩
  with_reducible exact asuStart_keeps h

theorem execAsuNext_keeps {C F P : Prop} {s0 s : State} {a1} {a2} (h : Keeps C True F P s0 s) : ∃ t, execAsuNext a1 a2 s = .next t ∧ Keeps C True F P s0 t := by
  unfold execAsuNext
  try dsimp only
  refine ⟨_, rfl, ?_⟩
  with_reducible exact asuStart_keeps h

theorem execAsuRead_keeps {C F P : Prop} {s0 s : State} {a1} {a2} (h : Keeps C True F P s0 s) : ∃ t, execAsuRead a1 a2 s = .next t ∧ Keeps C True F P s0 t := by
  unfold execAsuRead
  try dsimp only
  refine ⟨_, rfl, ?_⟩
  with_reducible exact asuStart_keeps h

theorem execAsuWrite_keeps {C F P : Prop} {s0 s : State} {a1} {a2} (h : Keeps C True F P s0 s) : ∃ t, execAsuWrite a1 a2 s = .next t ∧ Keeps C True F P s0 t := by
  unfold execAsuWrite
  try dsimp only
  refine ⟨_, rfl, ?_⟩
  with_reducible exact asuStart_keeps h

theorem execAsuDelete_keeps {C F P : Prop} {s0 s : State} {a1} {a2} (h : Keeps C True F P s0 s) : ∃ t, execAsuDelete a1 a2 s = .next t ∧ Keeps C True F P s0 t := by
  unfold execAsuDelete
  try dsimp only
  refine ⟨_, rfl, ?_⟩
  with_reducible exact asuStart_keeps h

theorem execAsuInsert_keeps {C F P : Prop} {s0 s : State} {a1} {a2} (h : Keeps C True F P s0 s) : ∃ t, execAsuInsert a1 a2 s = .next t ∧ Keeps C True F P s0 t := by
  unfold execAsuInsert
  try dsimp only
  refine ⟨_, rfl, ?_⟩
  with_reducible exact asuStart_keeps h

theorem execAsuRebuild_keeps {C F P : Prop} {s0 s : State} {a1} {a2} (h : Keeps C True F P s0 s) : ∃ t, execAsuRebuild a1 a2 s = .next t ∧ Keeps C True F P s0 t := by
  unfold execAsuRebuild
  try dsimp only
  refine ⟨_, rfl, ?_⟩
  with_reducible exact asuStart_keeps h

theorem execAsuRefreshScrub_keeps {C M F P : Prop} {s0 s : State} {a1} (h : Keeps C M F P s0 s) : ∃ t, execAsuRefreshScrub a1 s = .next t ∧ Keeps C M F P s0 t := by
  unfold execAsuRefreshScrub
  try dsimp only
  refine ⟨_, rfl, ?_⟩
  with_reducible refine Keeps.ite h ?_
  split
  · with_reducible exact h
  · with_reducible exact Keeps.ite (asuLose_keeps h) (Keeps.ite h (bump_keeps (Keeps.of_mk h)))

end Sys2Proof.Machine
end

