-- ==== Sys2Proof/Laws/KeepEmbed.lean ====
section
/-! SUPPORT. What the functions of Machine/Embed.lean keep (Laws/Keep.lean). -/

namespace Sys2Proof.Machine

theorem embPut_keeps {C M F P : Prop} {s0 s : State} {a1} {a2} (h : Keeps C M F P s0 s) : Keeps C M F P s0 (embPut a1 a2 s) := by
  unfold embPut
  try dsimp only
  with_reducible exact Keeps.of_mk h

theorem takeSlot_keeps {C M F P : Prop} {s0 s : State} {a1} {a2} (h : Keeps C M F P s0 s) : Keeps C M F P s0 (takeSlot a1 a2 s).2 := by
  unfold takeSlot
  try dsimp only
  with_reducible exact embPut_keeps (takeFree_keeps h)

theorem shadowSlot_keeps {C M F P : Prop} {s0 s : State} {a1} {a2} (h : Keeps C M F P s0 s) : KeepsSome C M F P s0 (shadowSlot a1 a2 s) := by
  unfold shadowSlot
  intro r hr
  dsimp only at hr
  split at hr
  · cases hr; exact takeSlot_keeps h
  · cases hr

theorem dropSlot_keeps {C M F P : Prop} {s0 s : State} {a1} {a2} (h : Keeps C M F P s0 s) : Keeps C M F P s0 (dropSlot a1 a2 s) := by
  unfold dropSlot
  try dsimp only
  with_reducible exact embPut_keeps h

theorem embFlip_keeps {C F P : Prop} {s0 s : State} {a1} {a2} {a3} (h : Keeps C True F P s0 s) : Keeps C True F P s0 (embFlip a1 a2 a3 s) := by
  unfold embFlip
  try dsimp only
  split
  · with_reducible exact Keeps.ite (writeMem_keeps (embPut_keeps h)) (bump_keeps (dropSlot_keeps (writeMem_keeps (embPut_keeps h))))
  · with_reducible exact writeMem_keeps (embPut_keeps h)

theorem embRun_keeps {C M F P : Prop} {s0 s : State} {a1} {a2} {a3} (hf2 : ∀ x1 x2 x3 x4 t, Keeps C M F P s0 t → Keeps C M F P s0 (a2 x1 x2 x3 x4 t)) (h : Keeps C M F P s0 s) : Keeps C M F P s0 (embRun a1 a2 a3 s) := by
  unfold embRun
  try dsimp only
  with_reducible refine unitRun_keeps ?_ h
  intro x1 t1 h1
  split
  · with_reducible exact h1
  · with_reducible refine Keeps.ite h1 ?_
    split
    · with_reducible exact runPut_keeps h1
    · with_reducible exact Keeps.ite (runPut_keeps h1) (Keeps.ite (runPut_keeps h1) (hf2 _ _ _ _ _ h1))

theorem fetchRow_keeps {C M F P : Prop} {s0 s : State} {a1} {a2} {a3} (h : Keeps C M F P s0 s) : Keeps C M F P s0 (fetchRow a1 a2 s a3) := by
  unfold fetchRow
  try dsimp only
  with_reducible exact Keeps.ite (bumpReef_keeps (embPut_keeps h)) (Keeps.ite (bumpReef_keeps (embPut_keeps h)) (bumpReef_keeps (embPut_keeps h)))

theorem prefetchRows_keeps {C M F P : Prop} {s0 s : State} {a1} {a2} {a3} (h : Keeps C M F P s0 s) : Keeps C M F P s0 (prefetchRows a1 a2 a3 s) := by
  unfold prefetchRows
  try dsimp only
  with_reducible refine Keeps.ite h ?_
  with_reducible refine keeps_foldl ?_ h
  intro t1 x1 h1
  split
  · with_reducible exact h1
  · with_reducible exact Keeps.ite h1 (bumpReef_keeps (embPut_keeps h1))

theorem gatherRows_keeps {C M F P : Prop} {s0 s : State} {a1} {a2} {a3} {a4} (h : Keeps C M F P s0 s) : Keeps C M F P s0 (gatherRows a1 a2 a3 a4 s).2 := by
  unfold gatherRows
  try dsimp only
  with_reducible exact bumpReef_keeps (bumpReef_keeps (bumpReef_keeps (keeps_foldl (fun t1 x1 h1 => fetchRow_keeps h1) h)))

theorem gatherAlone_keeps {C F P : Prop} {s0 s : State} {a1} {a2} {a3} (h : Keeps C True F P s0 s) : Keeps C True F P s0 (gatherAlone a1 a2 a3 s) := by
  unfold gatherAlone
  try dsimp only
  split
  · split
    · split
      · with_reducible exact prefetchRows_keeps (runPut_keeps (Keeps.ite (gatherRows_keeps h) (placeOut_keeps (gatherRows_keeps h))))
      · with_reducible exact runPut_keeps h
    · with_reducible exact runPut_keeps h
  · with_reducible exact runPut_keeps h

theorem gatherInline_keeps {C M F P : Prop} {s0 s : State} {a1} {a2} {a3} {a4} (h : Keeps C M F P s0 s) : Keeps C M F P s0 (gatherInline a1 a2 a3 a4 s) := by
  unfold gatherInline
  try dsimp only
  split
  · with_reducible exact prefetchRows_keeps (runPut_keeps (gatherRows_keeps h))
  · with_reducible exact runPut_keeps h

theorem execGather_keeps {C F P : Prop} {s0 s : State} {a1} (h : Keeps C True F P s0 s) : ∃ t, execGather a1 s = .next t ∧ Keeps C True F P s0 t := by
  unfold execGather
  try dsimp only
  refine ⟨_, rfl, ?_⟩
  with_reducible exact embRun_keeps (fun x1 x2 x3 x4 t1 h1 => Keeps.ite (gatherAlone_keeps h1) (gatherInline_keeps h1)) h

theorem addLane_keeps {C F P : Prop} {s0 s : State} {a1} {a2} {a3} {a4} {a5} (h : Keeps C True F P s0 s) : Keeps C True F P s0 (addLane a1 a2 a3 a4 a5 s) := by
  unfold addLane
  try dsimp only
  with_reducible exact writeMem_keeps h

theorem applyScatter_keeps {C F P : Prop} {s0 s : State} {a1} {a2} {a3} {a4} {a5} (h : Keeps C True F P s0 s) : Keeps C True F P s0 (applyScatter a1 a2 a3 a4 a5 s) := by
  unfold applyScatter
  try dsimp only
  split
  · with_reducible exact h
  · split
    · with_reducible exact Keeps.ite h (keeps_foldl (fun t1 x1 h1 => addLane_keeps h1) h)
    · with_reducible exact h

theorem scatterStage_keeps {C M F P : Prop} {s0 s : State} {a1} {a2} {a3} {a4} (h : Keeps C M F P s0 s) : Keeps C M F P s0 (scatterStage a1 a2 a3 a4 s) := by
  unfold scatterStage
  try dsimp only
  split
  · with_reducible exact bumpReef_keeps (bumpReef_keeps (runPut_keeps h))
  · with_reducible exact runPut_keeps h

theorem execScatter_keeps {C M F P : Prop} {s0 s : State} {a1} (h : Keeps C M F P s0 s) : ∃ t, execScatter a1 s = .next t ∧ Keeps C M F P s0 t := by
  unfold execScatter
  try dsimp only
  refine ⟨_, rfl, ?_⟩
  with_reducible exact embRun_keeps (fun x1 x2 x3 x4 t1 h1 => scatterStage_keeps h1) h

theorem foldRow_keeps {C F P : Prop} {s0 s : State} {a1} {a2} {a3} {a4} {a5} {a6} (h : Keeps C True F P s0 s) : Keeps C True F P s0 (foldRow a1 a2 a3 a4 a5 s a6) := by
  unfold foldRow
  try dsimp only
  split
  · with_reducible exact h
  · with_reducible exact bump_keeps (writeMem_keeps h)
  · with_reducible exact bump_keeps (writeMem_keeps h)
  · split
    · with_reducible exact h
    · split
      · with_reducible exact h
      · with_reducible exact bump_keeps (bump_keeps (writeMem_keeps (embFlip_keeps (writeMem_keeps (keeps_of_some2 (by assumption) (shadowSlot_keeps h))))))

theorem applyFold_keeps {C F P : Prop} {s0 s : State} {a1} {a2} {a3} {a4} {a5} (h : Keeps C True F P s0 s) : Keeps C True F P s0 (applyFold a1 a2 a3 a4 a5 s) := by
  unfold applyFold
  try dsimp only
  split
  · with_reducible exact h
  · with_reducible exact embPut_keeps (keeps_foldl (fun t1 x1 h1 => foldRow_keeps h1) h)

theorem foldStage_keeps {C M F P : Prop} {s0 s : State} {a1} {a2} {a3} {a4} (h : Keeps C M F P s0 s) : Keeps C M F P s0 (foldStage a1 a2 a3 a4 s) := by
  unfold foldStage
  try dsimp only
  with_reducible refine Keeps.ite h ?_
  with_reducible refine Keeps.ite (bumpReef_keeps (runPut_keeps h)) ?_
  with_reducible refine Keeps.ite (runPut_keeps h) ?_
  split
  · with_reducible exact Keeps.ite (runPut_keeps h) (runPut_keeps h)
  · with_reducible exact runPut_keeps h

theorem execFold_keeps {C M F P : Prop} {s0 s : State} {a1} (h : Keeps C M F P s0 s) : ∃ t, execFold a1 s = .next t ∧ Keeps C M F P s0 t := by
  unfold execFold
  try dsimp only
  refine ⟨_, rfl, ?_⟩
  with_reducible exact embRun_keeps (fun x1 x2 x3 x4 t1 h1 => foldStage_keeps h1) h

theorem placeRows_keeps {C F P : Prop} {s0 s : State} {a1} {a2} (h : Keeps C True F P s0 s) : KeepsSome C True F P s0 (placeRows a1 a2 s) := by
  induction a2 generalizing s with
  | nil => intro r hr; cases hr; exact h
  | cons x t ih =>
    intro r hr
    unfold placeRows at hr
    split at hr
    · cases hr
    · rename_i e
      split at hr
      · cases hr
      · rename_i e2
        cases hr
        exact keeps_of_some2 e2 (ih (writeMem_keeps (keeps_of_some2 e (shadowSlot_keeps h))))

theorem writeRowsStage_keeps {C F P : Prop} {s0 s : State} {a1} {a2} {a3} {a4} (h : Keeps C True F P s0 s) : Keeps C True F P s0 (writeRowsStage a1 a2 a3 a4 s) := by
  unfold writeRowsStage
  try dsimp only
  split
  · split
    · with_reducible exact runPut_keeps h
    · with_reducible exact bumpReef_keeps (runPut_keeps (keeps_of_some2 (by assumption) (placeRows_keeps h)))
  · with_reducible exact runPut_keeps h

theorem execWriteRows_keeps {C F P : Prop} {s0 s : State} {a1} (h : Keeps C True F P s0 s) : ∃ t, execWriteRows a1 s = .next t ∧ Keeps C True F P s0 t := by
  unfold execWriteRows
  try dsimp only
  refine ⟨_, rfl, ?_⟩
  with_reducible exact embRun_keeps (fun x1 x2 x3 x4 t1 h1 => writeRowsStage_keeps h1) h

theorem setReplaced_keeps {C F P : Prop} {s0 s : State} {a1} {a2} (h : Keeps C True F P s0 s) : Keeps C True F P s0 (setReplaced a1 a2 s) := by
  unfold setReplaced
  try dsimp only
  with_reducible exact Keeps.ite h (keeps_foldl (fun t1 x1 h1 => writeMem_keeps h1) h)

theorem applyFlip_keeps {C F P : Prop} {s0 s : State} {a1} {a2} {a3} (h : Keeps C True F P s0 s) : Keeps C True F P s0 (applyFlip a1 a2 a3 s) := by
  unfold applyFlip
  try dsimp only
  split
  · with_reducible exact h
  · with_reducible exact setReplaced_keeps (embFlip_keeps (writeMem_keeps h))

theorem zeroInterleaved_keeps {C F P : Prop} {s0 s : State} {a1} {a2} (h : Keeps C True F P s0 s) : Keeps C True F P s0 (zeroInterleaved a1 a2 s) := by
  unfold zeroInterleaved
  try dsimp only
  with_reducible exact Keeps.of_mk_all h (mfilter_wf _) (mfilter_wf _) id id id id (Nat.le_refl _) id (FusesKept.refl _) (List.prefix_refl _) (Nat.le_refl _) (.inl trivial) (.inr rfl) (.inr rfl)

theorem applyInit_keeps {C F P : Prop} {s0 s : State} {a1} (h : Keeps C True F P s0 s) : Keeps C True F P s0 (applyInit a1 s) := by
  unfold applyInit
  try dsimp only
  split
  · with_reducible exact h
  · with_reducible exact embPut_keeps (zeroInterleaved_keeps (zeroInterleaved_keeps (zeroInterleaved_keeps h)))

theorem execInitialise_keeps {C M F P : Prop} {s0 s : State} {a1} (h : Keeps C M F P s0 s) : ∃ t, execInitialise a1 s = .next t ∧ Keeps C M F P s0 t := by
  unfold execInitialise
  try dsimp only
  refine ⟨_, rfl, ?_⟩
  with_reducible exact embRun_keeps (fun x1 x2 x3 x4 t1 h1 => runPut_keeps h1) h

theorem execFetchEpochAdvance_keeps {C M F P : Prop} {s0 s : State} {a1} (h : Keeps C M F P s0 s) : ∃ t, execFetchEpochAdvance a1 s = .next t ∧ Keeps C M F P s0 t := by
  unfold execFetchEpochAdvance
  try dsimp only
  refine ⟨_, rfl, ?_⟩
  with_reducible exact embPut_keeps h

theorem execShoalIntervalEnd_keeps {C M F P : Prop} {s0 s : State} {a1} (h : Keeps C M F P s0 s) : ∃ t, execShoalIntervalEnd a1 s = .next t ∧ Keeps C M F P s0 t := by
  unfold execShoalIntervalEnd
  try dsimp only
  refine ⟨_, rfl, ?_⟩
  with_reducible exact keeps_foldl (fun t1 x1 h1 => embPut_keeps h1) h

theorem migrateTable_keeps {C M F P : Prop} {s0 s : State} {a1} {a2} (h : Keeps C M F P s0 s) : Keeps C M F P s0 (migrateTable a1 s a2) := by
  unfold migrateTable
  try dsimp only
  with_reducible refine Keeps.ite (embPut_keeps h) ?_
  split
  · with_reducible exact embPut_keeps h
  · with_reducible exact keeps_foldl (fun t1 x1 h1 => Keeps.ite (embPut_keeps (takeSlot_keeps h1)) h1) (embPut_keeps h)

theorem execMigrateIntervalEnd_keeps {C M F P : Prop} {s0 s : State} {a1} (h : Keeps C M F P s0 s) : ∃ t, execMigrateIntervalEnd a1 s = .next t ∧ Keeps C M F P s0 t := by
  unfold execMigrateIntervalEnd
  try dsimp only
  refine ⟨_, rfl, ?_⟩
  with_reducible exact keeps_foldl (fun t1 x1 h1 => migrateTable_keeps h1) h

theorem execMigrationFlip_keeps {C F P : Prop} {s0 s : State} {a1} {a2} (h : Keeps C True F P s0 s) : ∃ t, execMigrationFlip a1 a2 s = .next t ∧ Keeps C True F P s0 t := by
  unfold execMigrationFlip
  try dsimp only
  refine ⟨_, rfl, ?_⟩
  split
  · with_reducible exact h
  · split
    · with_reducible exact bump_keeps (embFlip_keeps (writeMem_keeps h))
    · with_reducible exact h

end Sys2Proof.Machine
end

