-- ==== Sys2Proof/Laws/KeepTableOps.lean ====
section
/-! SUPPORT. What the functions of Machine/TableOps.lean keep (Laws/Keep.lean). -/

namespace Sys2Proof.Machine

theorem hatchStage_keeps {C M F P : Prop} {s0 s : State} {a1} (h : Keeps C M F P s0 s) : Keeps C M F P s0 (hatchStage a1 s) := by
  unfold hatchStage
  try dsimp only
  with_reducible exact Keeps.ite (runPut_keeps h) (bumpReef_keeps (bumpReef_keeps (bumpReef_keeps (runPut_keeps h))))

theorem execHatchStage_keeps {C M F P : Prop} {s0 s : State} {a1} (h : Keeps C M F P s0 s) : ∃ t, execHatchStage a1 s = .next t ∧ Keeps C M F P s0 t := by
  unfold execHatchStage
  try dsimp only
  refine ⟨_, rfl, ?_⟩
  with_reducible exact unitRun_keeps (fun x1 t1 h1 => hatchStage_keeps h1) h

theorem statsStage_keeps {C M F P : Prop} {s0 s : State} {a1} (h : Keeps C M F P s0 s) : Keeps C M F P s0 (statsStage a1 s) := by
  unfold statsStage
  try dsimp only
  split
  · with_reducible exact runPut_keeps h
  · split
    · with_reducible exact runPut_keeps h
    · with_reducible exact Keeps.ite (runPut_keeps h) (runPut_keeps h)

theorem execStatsGather_keeps {C M F P : Prop} {s0 s : State} {a1} (h : Keeps C M F P s0 s) : ∃ t, execStatsGather a1 s = .next t ∧ Keeps C M F P s0 t := by
  unfold execStatsGather
  try dsimp only
  refine ⟨_, rfl, ?_⟩
  with_reducible exact unitRun_keeps (fun x1 t1 h1 => statsStage_keeps h1) h

theorem normaliseStage_keeps {C M F P : Prop} {s0 s : State} {a1} (h : Keeps C M F P s0 s) : Keeps C M F P s0 (normaliseStage a1 s) := by
  unfold normaliseStage
  try dsimp only
  split
  · with_reducible exact runPut_keeps h
  · with_reducible exact runPut_keeps h

theorem execNormalise_keeps {C M F P : Prop} {s0 s : State} {a1} (h : Keeps C M F P s0 s) : ∃ t, execNormalise a1 s = .next t ∧ Keeps C M F P s0 t := by
  unfold execNormalise
  try dsimp only
  refine ⟨_, rfl, ?_⟩
  with_reducible exact unitRun_keeps (fun x1 t1 h1 => normaliseStage_keeps h1) h

end Sys2Proof.Machine
end

