-- ==== Sys2Proof/Laws/KeepShuffle.lean ====
section
/-! SUPPORT. What the functions of Machine/Shuffle.lean keep (Laws/Keep.lean). -/

namespace Sys2Proof.Machine

theorem feedStage_keeps {C F P : Prop} {s0 s : State} {a1} {a2} {a3} (h : Keeps C True F P s0 s) : Keeps C True F P s0 (feedStage a1 a2 a3 s) := by
  unfold feedStage
  try dsimp only
  with_reducible exact Keeps.ite (Keeps.ite h (bumpReef_keeps (runPut_keeps h))) (Keeps.ite (runPut_keeps h) (bumpReef_keeps (bumpReef_keeps (bumpReef_keeps (bumpReef_keeps (bumpReef_keeps (runPut_keeps (keeps_foldl (fun t1 x1 h1 => Keeps.ite h1 (writeMem_keeps h1)) h))))))))

theorem censusStage_keeps {C M F P : Prop} {s0 s : State} {a1} {a2} (h : Keeps C M F P s0 s) : Keeps C M F P s0 (censusStage a1 a2 s) := by
  unfold censusStage
  try dsimp only
  with_reducible exact runPut_keeps h

theorem sealStage_keeps {C M F P : Prop} {s0 s : State} {a1} {a2} (h : Keeps C M F P s0 s) : Keeps C M F P s0 (sealStage a1 a2 s) := by
  unfold sealStage
  try dsimp only
  split
  · with_reducible exact runPut_keeps h
  · with_reducible exact runPut_keeps h

theorem deliverStage_keeps {C M F P : Prop} {s0 s : State} {a1} {a2} {a3} {a4} (h : Keeps C M F P s0 s) : Keeps C M F P s0 (deliverStage a1 a2 a3 a4 s) := by
  unfold deliverStage
  try dsimp only
  split
  · split
    · with_reducible exact Keeps.ite (runPut_keeps h) h
    · with_reducible exact bumpReef_keeps (bumpReef_keeps (runPut_keeps h))
  · with_reducible exact runPut_keeps h

theorem shufRun_keeps {C M F P : Prop} {s0 s : State} {a1} {a2} {a3} (hf2 : ∀ x1 x2 x3 t, Keeps C M F P s0 t → Keeps C M F P s0 (a2 x1 x2 x3 t)) (h : Keeps C M F P s0 s) : Keeps C M F P s0 (shufRun a1 a2 a3 s) := by
  unfold shufRun
  try dsimp only
  with_reducible refine unitRun_keeps ?_ h
  intro x1 t1 h1
  split
  · with_reducible exact h1
  · with_reducible exact Keeps.ite h1 (Keeps.ite (runPut_keeps h1) (Keeps.ite (runPut_keeps h1) (Keeps.ite (runPut_keeps h1) (hf2 _ _ _ _ h1))))

theorem execShuffleFeed_keeps {C F P : Prop} {s0 s : State} {a1} (h : Keeps C True F P s0 s) : ∃ t, execShuffleFeed a1 s = .next t ∧ Keeps C True F P s0 t := by
  unfold execShuffleFeed
  try dsimp only
  refine ⟨_, rfl, ?_⟩
  with_reducible exact shufRun_keeps (fun x1 x2 x3 t1 h1 => feedStage_keeps h1) h

theorem execCensus_keeps {C M F P : Prop} {s0 s : State} {a1} (h : Keeps C M F P s0 s) : ∃ t, execCensus a1 s = .next t ∧ Keeps C M F P s0 t := by
  unfold execCensus
  try dsimp only
  refine ⟨_, rfl, ?_⟩
  with_reducible exact shufRun_keeps (fun x1 x2 x3 t1 h1 => censusStage_keeps h1) h

theorem execSeal_keeps {C M F P : Prop} {s0 s : State} {a1} (h : Keeps C M F P s0 s) : ∃ t, execSeal a1 s = .next t ∧ Keeps C M F P s0 t := by
  unfold execSeal
  try dsimp only
  refine ⟨_, rfl, ?_⟩
  with_reducible exact shufRun_keeps (fun x1 x2 x3 t1 h1 => sealStage_keeps h1) h

theorem execDeliver_keeps {C M F P : Prop} {s0 s : State} {a1} {a2} (h : Keeps C M F P s0 s) : ∃ t, execDeliver a1 a2 s = .next t ∧ Keeps C M F P s0 t := by
  unfold execDeliver
  try dsimp only
  refine ⟨_, rfl, ?_⟩
  with_reducible exact shufRun_keeps (fun x1 x2 x3 t1 h1 => deliverStage_keeps h1) h

theorem slotArrive_keeps {C F P : Prop} {s0 s : State} {a1} {a2} {a3} {a4} {a5} (h : Keeps C True F P s0 s) : Keeps C True F P s0 (slotArrive a1 a2 a3 a4 a5 s) := by
  unfold slotArrive
  try dsimp only
  with_reducible exact Keeps.ite (bump_keeps h) (Keeps.ite (Keeps.ite (bump_keeps (Keeps.of_mk h)) (Keeps.of_mk h)) (writeMem_keeps h))

theorem slotRetry_keeps {C F P : Prop} {s0 s : State} {a1} (h : Keeps C True F P s0 s) : Keeps C True F P s0 (slotRetry a1 s) := by
  unfold slotRetry
  try dsimp only
  with_reducible exact keeps_foldl (fun t1 x1 h1 => slotArrive_keeps h1) (Keeps.of_mk h)

theorem slotDelivered_keeps {C F P : Prop} {s0 s : State} {a1} {a2} {a3} (h : Keeps C True F P s0 s) : Keeps C True F P s0 (slotDelivered a1 a2 a3 s) := by
  unfold slotDelivered
  try dsimp only
  with_reducible exact slotRetry_keeps (bump_keeps (Keeps.of_mk h))

theorem execStagingSlotWrite_keeps {C F P : Prop} {s0 s : State} {a1} {a2} {a3} (h : Keeps C True F P s0 s) : ∃ t, execStagingSlotWrite a1 a2 a3 s = .next t ∧ Keeps C True F P s0 t := by
  unfold execStagingSlotWrite
  try dsimp only
  refine ⟨_, rfl, ?_⟩
  with_reducible exact slotArrive_keeps h

end Sys2Proof.Machine
end

