-- ==== Sys2Proof/Laws/KeepLayout.lean ====
section
/-! SUPPORT. What the functions of Machine/Layout.lean keep (Laws/Keep.lean). -/

namespace Sys2Proof.Machine

theorem putWindow_keeps {C F P : Prop} {s0 s : State} {a1} {a2} (h : Keeps C True F P s0 s) : Keeps C True F P s0 (putWindow a1 a2 s) := by
  unfold putWindow
  try dsimp only
  with_reducible exact keeps_foldl (fun t1 x1 h1 => writeMem_keeps h1) h

theorem layStage_keeps {C F P : Prop} {s0 s : State} {a1} {a2} (h : Keeps C True F P s0 s) : Keeps C True F P s0 (layStage a1 a2 s) := by
  unfold layStage
  try dsimp only
  split
  · split
    · with_reducible exact runPut_keeps (bumpReef_keeps (bumpReef_keeps (bumpReef_keeps (bumpReef_keeps (bumpReef_keeps (keeps_foldl (fun t1 x1 h1 => putWindow_keeps h1) h))))))
    · with_reducible exact runPut_keeps h
  · with_reducible exact runPut_keeps h

theorem execLayoutTransform_keeps {C F P : Prop} {s0 s : State} {a1} (h : Keeps C True F P s0 s) : ∃ t, execLayoutTransform a1 s = .next t ∧ Keeps C True F P s0 t := by
  unfold execLayoutTransform
  try dsimp only
  refine ⟨_, rfl, ?_⟩
  with_reducible refine unitRun_keeps ?_ h
  intro x1 t1 h1
  split
  · with_reducible exact runPut_keeps h1
  · with_reducible exact Keeps.ite (runPut_keeps h1) (Keeps.ite (runPut_keeps h1) (Keeps.ite (runPut_keeps h1) (Keeps.ite h1 (layStage_keeps h1))))

theorem packStage_keeps {C F P : Prop} {s0 s : State} {a1} (h : Keeps C True F P s0 s) : Keeps C True F P s0 (packStage a1 s) := by
  unfold packStage
  try dsimp only
  split
  · with_reducible exact h
  · with_reducible refine Keeps.ite (runPut_keeps h) ?_
    split
    · with_reducible exact runPut_keeps (placeOut_keeps (bumpReef_keeps (bumpReef_keeps (bumpReef_keeps (bumpReef_keeps (bumpReef_keeps (bumpReef_keeps (bumpReef_keeps h))))))))
    · with_reducible exact runPut_keeps h

theorem packDue_keeps {C F P : Prop} {s0 s : State} {a1} (h : Keeps C True F P s0 s) : Keeps C True F P s0 (packDue a1 s) := by
  unfold packDue
  try dsimp only
  with_reducible exact Keeps.ite (packStage_keeps h) (Keeps.ite h (Keeps.ite (packStage_keeps h) (runPut_keeps h)))

theorem execPack_keeps {C F P : Prop} {s0 s : State} {a1} (h : Keeps C True F P s0 s) : ∃ t, execPack a1 s = .next t ∧ Keeps C True F P s0 t := by
  unfold execPack
  try dsimp only
  refine ⟨_, rfl, ?_⟩
  with_reducible exact unitRun_keeps (fun x1 t1 h1 => packDue_keeps h1) h

end Sys2Proof.Machine
end

