-- ==== Sys2Proof/Laws/KeepInject.lean ====
section
/-! SUPPORT. What the functions of Machine/Inject.lean keep (Laws/Keep.lean). -/

namespace Sys2Proof.Machine

theorem fiPut_keeps {C M F P : Prop} {s0 s : State} {a1} {a2} (h : Keeps C M F P s0 s) : Keeps C M F P s0 (fiPut a1 a2 s) := by
  unfold fiPut
  try dsimp only
  with_reducible exact Keeps.of_mk h

theorem fiMark_keeps {C M F P : Prop} {s0 s : State} {a1} {a2} (h : Keeps C M F P s0 s) : Keeps C M F P s0 (fiMark a1 a2 s) := by
  unfold fiMark
  try dsimp only
  with_reducible exact rset_keeps h

theorem fiAudit_keeps {C M F P : Prop} {s0 s : State} {a1} {a2} {a3} (h : Keeps C M F P s0 s) : Keeps C M F P s0 (fiAudit a1 a2 a3 s) := by
  unfold fiAudit
  try dsimp only
  with_reducible exact audit_keeps h

theorem fiRelease_keeps {C M F P : Prop} {s0 s : State} {a1} (h : Keeps C M F P s0 s) : Keeps C M F P s0 (fiRelease a1 s) := by
  unfold fiRelease
  try dsimp only
  split
  · with_reducible exact h
  · with_reducible exact Keeps.of_mk (fiPut_keeps h)

theorem fiStop_keeps {C M F P : Prop} {s0 s : State} {a1} {a2} (h : Keeps C M F P s0 s) : Keeps C M F P s0 (fiStop a1 a2 s) := by
  unfold fiStop
  try dsimp only
  with_reducible exact fiAudit_keeps (fiPut_keeps h)

theorem fiLostCheck_keeps {C M F P : Prop} {s0 s : State} (h : Keeps C M F P s0 s) : Keeps C M F P s0 (fiLostCheck s) := by
  unfold fiLostCheck
  try dsimp only
  with_reducible exact keeps_foldl (fun t1 x1 h1 => Keeps.ite (fiStop_keeps (fiRelease_keeps h1)) h1) h

theorem fiSuspend_keeps {C M F P : Prop} {s0 s : State} (h : Keeps C M F P s0 s) : Keeps C M F P s0 (fiSuspend s) := by
  unfold fiSuspend
  try dsimp only
  with_reducible exact keeps_foldl (fun t1 x1 h1 => Keeps.ite (bump_keeps (fiPut_keeps (fiRelease_keeps h1))) h1) h

theorem fiResume_keeps {C M F P : Prop} {s0 s : State} (h : Keeps C M F P s0 s) : Keeps C M F P s0 (fiResume s) := by
  unfold fiResume
  try dsimp only
  with_reducible exact keeps_foldl (fun t1 x1 h1 => Keeps.ite (fiPut_keeps h1) h1) h

theorem fiReset_keeps {C M F P : Prop} {s0 s : State} (h : Keeps C M F P s0 s) : Keeps C M F P s0 (fiReset s) := by
  unfold fiReset
  try dsimp only
  with_reducible exact keeps_foldl (fun t1 x1 h1 => Keeps.ite (fiStop_keeps (fiRelease_keeps h1)) h1) h

theorem fiInjected_keeps {C M F P : Prop} {s0 s : State} {a1} (h : Keeps C M F P s0 s) : Keeps C M F P s0 (fiInjected a1 s) := by
  unfold fiInjected
  try dsimp only
  with_reducible exact Keeps.ite (fiStop_keeps (bump_keeps h)) (bump_keeps h)

theorem fiDrew_keeps {C M F P : Prop} {s0 s : State} {a1} {a2} (h : Keeps C M F P s0 s) : Keeps C M F P s0 (fiDrew a1 a2 s) := by
  unfold fiDrew
  try dsimp only
  with_reducible exact fiPut_keeps h

theorem corruptFlit_keeps {C M F P : Prop} {s0 s : State} {a1} {a2} {a3} (h : Keeps C M F P s0 s) : Keeps C M F P s0 (corruptFlit a1 a2 a3 s).2 := by
  unfold corruptFlit
  try dsimp only
  split
  · with_reducible exact Keeps.ite2 h (keeps_foldl2 (fun x1 x2 h1 => fiDrew_keeps h1) (Keeps.of_mk h))
  · with_reducible exact h

theorem fiAct_keeps {C M F P : Prop} {s0 s : State} {a1} {a2} {a3} (h : Keeps C M F P s0 s) : Keeps C M F P s0 (fiAct a1 a2 a3 s).2 := by
  unfold fiAct
  try dsimp only
  split
  · with_reducible exact fiInjected_keeps h
  · with_reducible refine Keeps.ite2 ?_ ?_
    · split
      · with_reducible exact fiInjected_keeps (corruptFlit_keeps h)
      · with_reducible exact h
    · with_reducible refine Keeps.ite2 h ?_
      split
      · with_reducible exact fiInjected_keeps (fiDrew_keeps h)
      · with_reducible exact emit_keeps (fiInjected_keeps (fiDrew_keeps h))
  · with_reducible exact fiInjected_keeps (fiPut_keeps h)

theorem fiPass_keeps {C M F P : Prop} {s0 s : State} {a1} (h : Keeps C M F P s0 s) : Keeps C M F P s0 (fiPass a1 s) := by
  unfold fiPass
  try dsimp only
  with_reducible exact Keeps.ite (fiRelease_keeps (fiPut_keeps h)) (fiPut_keeps h)

theorem fiSlots_keeps {C M F P : Prop} {s0 s : State} {a1} {a2} (h : Keeps C M F P s0 s) : Keeps C M F P s0 (fiSlots a1 a2 s).2 := by
  induction a1 generalizing s a2 with
  | nil => exact h
  | cons x t ih =>
    unfold fiSlots
    dsimp only
    split
    · with_reducible exact h
    · with_reducible refine Keeps.ite2 (ih h) ?_
      with_reducible refine Keeps.ite2 (ih (fiPass_keeps (Keeps.ite (bump_keeps h) h))) ?_
      with_reducible refine Keeps.ite2 (ih h) ?_
      with_reducible refine Keeps.ite2 (ih (fiDrew_keeps (Keeps.ite (bump_keeps h) h))) ?_
      split
      · with_reducible exact keeps_of_eq2 (by assumption) (fiAct_keeps (fiDrew_keeps (Keeps.ite (bump_keeps h) h)))
      · with_reducible exact ih (keeps_of_eq2 (by assumption) (fiAct_keeps (fiDrew_keeps (Keeps.ite (bump_keeps h) h))))

theorem fiFrom_keeps {C M F P : Prop} {s0 s : State} {a1} {a2} (h : Keeps C M F P s0 s) : Keeps C M F P s0 (fiFrom a1 a2 s).2 := by
  unfold fiFrom
  try dsimp only
  with_reducible exact fiSlots_keeps h

theorem flushOut_keeps {C M F P : Prop} {s0 s : State} {a1} (h : Keeps C M F P s0 s) : Keeps C M F P s0 (flushOut a1 s) := by
  induction a1 generalizing s with
  | zero => exact h
  | succ n ih =>
    unfold flushOut
    split
    · with_reducible exact h
    · split
      · with_reducible exact ih (emit_keeps (keeps_of_eq2 (by assumption) (fiFrom_keeps (Keeps.of_mk h))))
      · with_reducible exact ih (keeps_of_eq2 (by assumption) (fiFrom_keeps (Keeps.of_mk h)))

theorem emitOn_keeps {C M F P : Prop} {s0 s : State} {a1} {a2} (h : Keeps C M F P s0 s) : Keeps C M F P s0 (emitOn a1 a2 s) := by
  unfold emitOn
  try dsimp only
  split
  · with_reducible exact flushOut_keeps (emit_keeps (keeps_of_eq2 (by assumption) (fiFrom_keeps h)))
  · with_reducible exact flushOut_keeps (keeps_of_eq2 (by assumption) (fiFrom_keeps h))

end Sys2Proof.Machine
end

