-- ==== Sys2Proof/Laws/KeepSend.lean ====
section
/-! SUPPORT. What the functions of Machine/Send.lean keep (Laws/Keep.lean). -/

namespace Sys2Proof.Machine

theorem sessPut_keeps {C M F P : Prop} {s0 s : State} {a1} {a2} (h : Keeps C M F P s0 s) : Keeps C M F P s0 (sessPut a1 a2 s) := by
  unfold sessPut
  try dsimp only
  with_reducible exact Keeps.of_mk h

theorem sessMod_keeps {C M F P : Prop} {s0 s : State} {a1} {a2} (h : Keeps C M F P s0 s) : Keeps C M F P s0 (sessMod a1 a2 s) := by
  unfold sessMod
  try dsimp only
  split
  · with_reducible exact sessPut_keeps h
  · with_reducible exact h

theorem sendFrame_keeps {C M F P : Prop} {s0 s : State} {a1} {a2} {a3} (h : Keeps C M F P s0 s) : Keeps C M F P s0 (sendFrame a1 a2 a3 s) := by
  unfold sendFrame
  try dsimp only
  with_reducible exact bump_keeps (emitOn_keeps (sessPut_keeps h))

theorem drainQueue_keeps {C M F P : Prop} {s0 s : State} {a1} {a2} (h : Keeps C M F P s0 s) : Keeps C M F P s0 (drainQueue a1 a2 s) := by
  induction a2 generalizing s with
  | zero => exact h
  | succ n ih =>
    unfold drainQueue
    split
    · with_reducible exact h
    · split
      · with_reducible exact h
      · split
        · with_reducible exact h
        · with_reducible exact ih (sendFrame_keeps (Keeps.ite (bump_keeps h) h))

theorem pumpSession_keeps {C M F P : Prop} {s0 s : State} {a1} (h : Keeps C M F P s0 s) : Keeps C M F P s0 (pumpSession a1 s) := by
  unfold pumpSession
  split
  · with_reducible exact h
  · with_reducible exact drainQueue_keeps h

theorem sendOp_keeps {C M F P : Prop} {s0 s : State} {a1} {a2} (h : Keeps C M F P s0 s) : Keeps C M F P s0 (sendOp a1 a2 s) := by
  unfold sendOp
  try dsimp only
  split
  · with_reducible exact h
  · with_reducible exact pumpSession_keeps (sessPut_keeps (Keeps.ite (bump_keeps (Keeps.ite (bump_keeps h) h)) (Keeps.ite (bump_keeps h) h)))

theorem sendMessage_keeps {C M F P : Prop} {s0 s : State} {a1} {a2} {a3} (h : Keeps C M F P s0 s) : Keeps C M F P s0 (sendMessage a1 a2 a3 s) := by
  unfold sendMessage
  try dsimp only
  with_reducible exact sendOp_keeps h

theorem sendAnswer_keeps {C M F P : Prop} {s0 s : State} {a1} {a2} (h : Keeps C M F P s0 s) : Keeps C M F P s0 (sendAnswer a1 a2 s) := by
  unfold sendAnswer
  try dsimp only
  with_reducible exact sendMessage_keeps (emit_keeps h)

theorem runOpDone_keeps {C M F P : Prop} {s0 s : State} {a1} {a2} (h : Keeps C M F P s0 s) : Keeps C M F P s0 (runOpDone a1 a2 s) := by
  unfold runOpDone
  try dsimp only
  split
  · with_reducible exact h
  · with_reducible exact Keeps.ite h (Keeps.of_mk h)

theorem sendToNode_keeps {C M F P : Prop} {s0 s : State} {a1} {a2} (h : Keeps C M F P s0 s) : Keeps C M F P s0 (sendToNode a1 a2 s) := by
  unfold sendToNode
  try dsimp only
  split
  · with_reducible exact runOpDone_keeps (emit_keeps h)
  · split
    · with_reducible exact sendOp_keeps h
    · with_reducible exact Keeps.ite (emit_keeps h) (Keeps.of_mk h)

end Sys2Proof.Machine
end

