-- ==== Sys2Proof/Laws/KeepChannel.lean ====
section
/-! SUPPORT. What the functions of Machine/Channel.lean keep (Laws/Keep.lean). -/

namespace Sys2Proof.Machine

theorem ringWrite_keeps {C F P : Prop} {s0 s : State} {a1} {a2} {a3} (h : Keeps C True F P s0 s) : Keeps C True F P s0 (ringWrite a1 a2 a3 s) := by
  unfold ringWrite
  try dsimp only
  with_reducible exact keeps_foldl (fun t1 x1 h1 => writeMem_keeps h1) h

theorem zeroKeys_keeps {C F P : Prop} {s0 s : State} {a1} {a2} (h : Keeps C True F P s0 s) : Keeps C True F P s0 (zeroKeys a1 a2 s) := by
  unfold zeroKeys
  try dsimp only
  with_reducible exact Keeps.of_mk_all h (mfilter_wf _) (mfilter_wf _) id id id id (Nat.le_refl _) id (FusesKept.refl _) (List.prefix_refl _) (Nat.le_refl _) (.inl trivial) (.inr rfl) (.inr rfl)

theorem accept_keeps {C M F P : Prop} {s0 s : State} {a1} {a2} {a3} (h : Keeps C M F P s0 s) : Keeps C M F P s0 (accept a1 a2 a3 s) := by
  unfold accept
  try dsimp only
  with_reducible exact Keeps.ite (bump_keeps (chanPut_keeps h)) (chanPut_keeps h)

theorem submitItem_keeps {C M F P : Prop} {s0 s : State} {a1} {a2} (h : Keeps C M F P s0 s) : Keeps C M F P s0 (submitItem a1 a2 s).2 := by
  unfold submitItem
  try dsimp only
  with_reducible exact Keeps.ite2 h (Keeps.ite2 h (Keeps.ite2 (auditRefused_keeps h) (Keeps.ite2 h (Keeps.ite2 h (Keeps.ite2 h (Keeps.ite2 h (Keeps.ite2 h (accept_keeps h))))))))

theorem freeIfDue_keeps {C M F P : Prop} {s0 s : State} {a1} (h : Keeps C M F P s0 s) : Keeps C M F P s0 (freeIfDue a1 s) := by
  unfold freeIfDue
  try dsimp only
  with_reducible exact Keeps.ite (Keeps.of_mk (chanPut_keeps h)) h

theorem closeIfDue_keeps {C M F P : Prop} {s0 s : State} {a1} (h : Keeps C M F P s0 s) : Keeps C M F P s0 (closeIfDue a1 s) := by
  unfold closeIfDue
  try dsimp only
  with_reducible exact Keeps.ite (freeIfDue_keeps (keeps_foldl (fun t1 x1 h1 => sendAnswer_keeps h1) (chanPut_keeps h))) h

theorem auditChannel_keeps {C M F P : Prop} {s0 s : State} {a1} {a2} {a3} {a4} {a5} {a6} (h : Keeps C M F P s0 s) : Keeps C M F P s0 (auditChannel a1 a2 a3 a4 a5 a6 s) := by
  unfold auditChannel
  try dsimp only
  with_reducible exact audit_keeps h

theorem openChan_keeps {C F P : Prop} {s0 s : State} {a1} {a2} {a3} (h : Keeps C True F P s0 s) : Keeps C True F P s0 (openChan a1 a2 a3 s) := by
  unfold openChan
  try dsimp only
  with_reducible exact Keeps.of_mk (chanPut_keeps (zeroKeys_keeps (zeroKeys_keeps h)))

theorem createItem_keeps {C F P : Prop} {s0 s : State} {a1} (h : Keeps C True F P s0 s) : Keeps C True F P s0 (createItem a1 s).2 := by
  unfold createItem
  try dsimp only
  with_reducible refine Keeps.ite2 h ?_
  with_reducible refine Keeps.ite2 h ?_
  split
  · with_reducible exact h
  · split
    · with_reducible exact h
    · with_reducible exact openChan_keeps h

theorem dropRun_keeps {C M F P : Prop} {s0 s : State} {a1} (h : Keeps C M F P s0 s) : Keeps C M F P s0 (dropRun a1 s) := by
  unfold dropRun
  try dsimp only
  with_reducible refine Keeps.of_mk ?_
  with_reducible refine keeps_foldl ?_ h
  intro t1 x1 h1
  split
  · with_reducible exact dropSlot_keeps h1
  · with_reducible exact h1

theorem cancelChan_keeps {C M F P : Prop} {s0 s : State} {a1} (h : Keeps C M F P s0 s) : Keeps C M F P s0 (cancelChan a1 s) := by
  unfold cancelChan
  try dsimp only
  with_reducible exact chanPut_keeps (keeps_foldl (fun t1 x1 h1 => Keeps.ite (dropRun_keeps h1) h1) h)

theorem destroyItem_keeps {C M F P : Prop} {s0 s : State} {a1} {a2} {a3} (h : Keeps C M F P s0 s) : Keeps C M F P s0 (destroyItem a1 a2 a3 s).2 := by
  unfold destroyItem
  try dsimp only
  with_reducible exact Keeps.ite2 h (Keeps.ite2 h (closeIfDue_keeps (Keeps.ite (chanPut_keeps (Keeps.ite (cancelChan_keeps (chanPut_keeps h)) (Keeps.ite (chanPut_keeps (chanPut_keeps h)) (chanPut_keeps h)))) (Keeps.ite (cancelChan_keeps (chanPut_keeps h)) (Keeps.ite (chanPut_keeps (chanPut_keeps h)) (chanPut_keeps h))))))

theorem retireItem_keeps {C F P : Prop} {s0 s : State} {a1} {a2} (h : Keeps C True F P s0 s) : Keeps C True F P s0 (retireItem a1 a2 s).2 := by
  unfold retireItem
  try dsimp only
  with_reducible exact freeIfDue_keeps (chanPut_keeps (keeps_foldl (fun t1 x1 h1 => ringWrite_keeps h1) h))

theorem setTcItem_keeps {C M F P : Prop} {s0 s : State} {a1} {a2} (h : Keeps C M F P s0 s) : Keeps C M F P s0 (setTcItem a1 a2 s).2 := by
  unfold setTcItem
  try dsimp only
  with_reducible exact Keeps.ite2 h (Keeps.ite2 h (chanPut_keeps h))

theorem setDeadlineItem_keeps {C M F P : Prop} {s0 s : State} {a1} {a2} (h : Keeps C M F P s0 s) : Keeps C M F P s0 (setDeadlineItem a1 a2 s).2 := by
  unfold setDeadlineItem
  try dsimp only
  with_reducible exact Keeps.ite2 h (chanPut_keeps h)

theorem ctlRules_keeps {C F P : Prop} {s0 s : State} {a1} {a2} {a3} (h : Keeps C True F P s0 s) : Keeps C True F P s0 (ctlRules a1 a2 a3 s).2 := by
  unfold ctlRules
  try dsimp only
  split
  · with_reducible exact createItem_keeps h
  · with_reducible exact destroyItem_keeps h
  · with_reducible exact retireItem_keeps h
  · with_reducible exact setTcItem_keeps h
  · with_reducible exact setDeadlineItem_keeps h

theorem ctlAudit_keeps {C M F P : Prop} {s0 s : State} {a1} {a2} {a3} {a4} {a5} (h : Keeps C M F P s0 s) : Keeps C M F P s0 (ctlAudit a1 a2 a3 a4 a5 s) := by
  unfold ctlAudit
  try dsimp only
  with_reducible exact Keeps.ite (auditChannel_keeps h) (Keeps.ite (auditChannel_keeps h) h)

theorem controlItem_keeps {C F P : Prop} {s0 s : State} {a1} {a2} {a3} (h : Keeps C True F P s0 s) : Keeps C True F P s0 (controlItem a1 a2 a3 s).2 := by
  unfold controlItem
  try dsimp only
  with_reducible exact Keeps.ite2 (ctlAudit_keeps h) (Keeps.ite2 (ctlAudit_keeps h) (Keeps.ite2 (auditRefused_keeps h) (ctlAudit_keeps (ctlRules_keeps h))))

theorem execDescriptorSubmit_keeps {C M F P : Prop} {s0 s : State} {a1} {a2} (h : Keeps C M F P s0 s) : ∃ t, execDescriptorSubmit a1 a2 s = .next t ∧ Keeps C M F P s0 t := by
  unfold execDescriptorSubmit
  try dsimp only
  refine ⟨_, rfl, ?_⟩
  with_reducible exact sendAnswer_keeps (submitItem_keeps h)

theorem ctlStep_keeps {C F P : Prop} {s0 s : State} {a1} {a2} {a3} (h : Keeps C True F P s0 s) : Keeps C True F P s0 (ctlStep a1 a2 a3 s) := by
  unfold ctlStep
  try dsimp only
  with_reducible exact sendAnswer_keeps (controlItem_keeps h)

theorem execCreate_keeps {C F P : Prop} {s0 s : State} {a1} {a2} (h : Keeps C True F P s0 s) : ∃ t, execCreate a1 a2 s = .next t ∧ Keeps C True F P s0 t := by
  unfold execCreate
  try dsimp only
  refine ⟨_, rfl, ?_⟩
  with_reducible exact ctlStep_keeps h

theorem execDestroy_keeps {C F P : Prop} {s0 s : State} {a1} {a2} (h : Keeps C True F P s0 s) : ∃ t, execDestroy a1 a2 s = .next t ∧ Keeps C True F P s0 t := by
  unfold execDestroy
  try dsimp only
  refine ⟨_, rfl, ?_⟩
  with_reducible exact ctlStep_keeps h

theorem execRetire_keeps {C F P : Prop} {s0 s : State} {a1} {a2} (h : Keeps C True F P s0 s) : ∃ t, execRetire a1 a2 s = .next t ∧ Keeps C True F P s0 t := by
  unfold execRetire
  try dsimp only
  refine ⟨_, rfl, ?_⟩
  with_reducible exact ctlStep_keeps h

theorem execSetTc_keeps {C F P : Prop} {s0 s : State} {a1} {a2} (h : Keeps C True F P s0 s) : ∃ t, execSetTc a1 a2 s = .next t ∧ Keeps C True F P s0 t := by
  unfold execSetTc
  try dsimp only
  refine ⟨_, rfl, ?_⟩
  with_reducible exact ctlStep_keeps h

theorem execSetDeadline_keeps {C F P : Prop} {s0 s : State} {a1} {a2} (h : Keeps C True F P s0 s) : ∃ t, execSetDeadline a1 a2 s = .next t ∧ Keeps C True F P s0 t := by
  unfold execSetDeadline
  try dsimp only
  refine ⟨_, rfl, ?_⟩
  with_reducible exact ctlStep_keeps h

theorem workItem_keeps {C F P : Prop} {s0 s : State} {a1} {a2} {a3} (h : Keeps C True F P s0 s) : Keeps C True F P s0 (workItem a1 a2 a3 s).2 := by
  unfold workItem
  try dsimp only
  with_reducible exact Keeps.ite2 (submitItem_keeps h) (Keeps.ite2 (controlItem_keeps h) h)

theorem workItems_keeps {C F P : Prop} {s0 s : State} {a1} {a2} {a3} (h : Keeps C True F P s0 s) : Keeps C True F P s0 (workItems a1 a2 a3 s).2 := by
  induction a3 generalizing s with
  | nil => exact h
  | cons x t ih =>
    unfold workItems
    dsimp only
    with_reducible exact ih (workItem_keeps h)

theorem workMessage_keeps {C F P : Prop} {s0 s : State} {a1} {a2} (h : Keeps C True F P s0 s) : Keeps C True F P s0 (workMessage a1 a2 s) := by
  unfold workMessage
  try dsimp only
  with_reducible exact Keeps.ite (workItems_keeps h) (sendAnswer_keeps (workItems_keeps h))

end Sys2Proof.Machine
end

