-- ==== Sys2Proof/Laws/KeepJoins.lean ====
section
/-! SUPPORT. What the functions of Machine/Joins.lean keep (Laws/Keep.lean). -/

namespace Sys2Proof.Machine

theorem joinProbeStage_keeps {C M F P : Prop} {s0 s : State} {a1} (h : Keeps C M F P s0 s) : Keeps C M F P s0 (joinProbeStage a1 s) := by
  unfold joinProbeStage
  try dsimp only
  split
  · with_reducible exact h
  · split
    · with_reducible exact Keeps.ite (runPut_keeps h) (bumpReef_keeps (bumpReef_keeps (bumpReef_keeps (bumpReef_keeps (runPut_keeps h)))))
    · with_reducible exact runPut_keeps h

theorem execJoinProbe_keeps {C M F P : Prop} {s0 s : State} {a1} (h : Keeps C M F P s0 s) : ∃ t, execJoinProbe a1 s = .next t ∧ Keeps C M F P s0 t := by
  unfold execJoinProbe
  try dsimp only
  refine ⟨_, rfl, ?_⟩
  with_reducible exact unitRun_keeps (fun x1 t1 h1 => Keeps.ite h1 (joinProbeStage_keeps h1)) h

theorem joinBuildStage_keeps {C M F P : Prop} {s0 s : State} {a1} (h : Keeps C M F P s0 s) : Keeps C M F P s0 (joinBuildStage a1 s) := by
  unfold joinBuildStage
  try dsimp only
  split
  · with_reducible exact h
  · split
    · with_reducible refine Keeps.ite (runPut_keeps h) ?_
      with_reducible refine Keeps.ite (runPut_keeps h) ?_
      split
      · with_reducible exact Keeps.ite (runPut_keeps h) (runPut_keeps (takeFree_keeps h))
      · with_reducible exact runPut_keeps h
    · with_reducible exact runPut_keeps h

theorem execJoinBuild_keeps {C M F P : Prop} {s0 s : State} {a1} (h : Keeps C M F P s0 s) : ∃ t, execJoinBuild a1 s = .next t ∧ Keeps C M F P s0 t := by
  unfold execJoinBuild
  try dsimp only
  refine ⟨_, rfl, ?_⟩
  with_reducible exact unitRun_keeps (fun x1 t1 h1 => Keeps.ite (joinBuildStage_keeps h1) h1) h

theorem nearProbeStage_keeps {C M F P : Prop} {s0 s : State} {a1} {a2} (h : Keeps C M F P s0 s) : Keeps C M F P s0 (nearProbeStage a1 a2 s) := by
  unfold nearProbeStage
  try dsimp only
  split
  · with_reducible refine Keeps.ite (runPut_keeps h) ?_
    split
    · with_reducible exact bumpReef_keeps (bumpReef_keeps (runPut_keeps h))
    · with_reducible exact runPut_keeps h
  · with_reducible exact runPut_keeps h

theorem nearBuildStage_keeps {C M F P : Prop} {s0 s : State} {a1} {a2} (h : Keeps C M F P s0 s) : Keeps C M F P s0 (nearBuildStage a1 a2 s) := by
  unfold nearBuildStage
  try dsimp only
  split
  · with_reducible exact Keeps.ite (runPut_keeps h) (Keeps.ite (runPut_keeps h) (bumpReef_keeps (runPut_keeps h)))
  · with_reducible exact runPut_keeps h

theorem nearRun_keeps {C M F P : Prop} {s0 s : State} {a1} {a2} (h : Keeps C M F P s0 s) : Keeps C M F P s0 (nearRun a1 a2 s) := by
  unfold nearRun
  try dsimp only
  split
  · with_reducible exact h
  · with_reducible exact Keeps.ite h (Keeps.ite (nearBuildStage_keeps h) (nearProbeStage_keeps h))

theorem execNearDupProbe_keeps {C M F P : Prop} {s0 s : State} {a1} (h : Keeps C M F P s0 s) : ∃ t, execNearDupProbe a1 s = .next t ∧ Keeps C M F P s0 t := by
  unfold execNearDupProbe
  try dsimp only
  refine ⟨_, rfl, ?_⟩
  with_reducible exact unitRun_keeps (fun x1 t1 h1 => nearRun_keeps h1) h

theorem execNearDupBuild_keeps {C M F P : Prop} {s0 s : State} {a1} (h : Keeps C M F P s0 s) : ∃ t, execNearDupBuild a1 s = .next t ∧ Keeps C M F P s0 t := by
  unfold execNearDupBuild
  try dsimp only
  refine ⟨_, rfl, ?_⟩
  with_reducible exact unitRun_keeps (fun x1 t1 h1 => nearRun_keeps h1) h

end Sys2Proof.Machine
end

