-- ==== Sys2Proof/Laws/KeepSync.lean ====
section
/-! SUPPORT. What the functions of Machine/Sync.lean keep (Laws/Keep.lean). -/

namespace Sys2Proof.Machine

theorem seqPut_keeps {C M F P : Prop} {s0 s : State} {a1} {a2} (h : Keeps C M F P s0 s) : Keeps C M F P s0 (seqPut a1 a2 s) := by
  unfold seqPut
  try dsimp only
  with_reducible exact Keeps.of_mk h

theorem seqGo_keeps {C M F P : Prop} {s0 s : State} {a1} {a2} (h : Keeps C M F P s0 s) : Keeps C M F P s0 (seqGo a1 a2 s) := by
  unfold seqGo
  try dsimp only
  with_reducible exact seqPut_keeps h

theorem seqNext_keeps {C M F P : Prop} {s0 s : State} {a1} (h : Keeps C M F P s0 s) : Keeps C M F P s0 (seqNext a1 s) := by
  unfold seqNext
  try dsimp only
  with_reducible exact seqGo_keeps h

theorem waiterTests_keeps {C M F P : Prop} {s0 s : State} {a1} (h : Keeps C M F P s0 s) : Keeps C M F P s0 (waiterTests a1 s) := by
  unfold waiterTests
  try dsimp only
  with_reducible refine Keeps.ite h ?_
  split
  · with_reducible exact bump_keeps (seqPut_keeps h)
  · with_reducible exact bump_keeps (seqPut_keeps h)
  · with_reducible exact h

theorem waitersTest_keeps {C M F P : Prop} {s0 s : State} (h : Keeps C M F P s0 s) : Keeps C M F P s0 (waitersTest s) := by
  unfold waitersTest
  try dsimp only
  with_reducible exact keeps_foldl (fun t1 x1 h1 => waiterTests_keeps h1) h

theorem objPut_keeps {C M F P : Prop} {s0 s : State} {a1} {a2} (h : Keeps C M F P s0 s) : Keeps C M F P s0 (objPut a1 a2 s) := by
  unfold objPut
  try dsimp only
  with_reducible exact Keeps.of_mk h

theorem objServe_keeps {C M F P : Prop} {s0 s : State} {a1} {a2} (h : Keeps C M F P s0 s) : Keeps C M F P s0 (objServe a1 a2 s) := by
  induction a2 generalizing s with
  | zero => exact h
  | succ n ih =>
    unfold objServe
    dsimp only
    split
    · with_reducible exact h
    · with_reducible exact Keeps.ite (ih (seqNext_keeps (bump_keeps (objPut_keeps h)))) h

theorem objWake_keeps {C M F P : Prop} {s0 s : State} {a1} (h : Keeps C M F P s0 s) : Keeps C M F P s0 (objWake a1 s) := by
  unfold objWake
  try dsimp only
  with_reducible exact objServe_keeps h

theorem objSignal_keeps {C M F P : Prop} {s0 s : State} {a1} {a2} (h : Keeps C M F P s0 s) : Keeps C M F P s0 (objSignal a1 a2 s).2 := by
  unfold objSignal
  try dsimp only
  with_reducible exact Keeps.ite2 h (Keeps.ite2 (bump_keeps h) (objWake_keeps (bump_keeps (objPut_keeps h))))

theorem synRecord_keeps {C M F P : Prop} {s0 s : State} {a1} {a2} (h : Keeps C M F P s0 s) : Keeps C M F P s0 (synRecord a1 a2 s) := by
  unfold synRecord
  try dsimp only
  with_reducible exact alert_keeps (rset_keeps (Keeps.ite (rset_keeps (Keeps.of_mk h)) (Keeps.of_mk h)))

theorem runSyncFail_keeps {C M F P : Prop} {s0 s : State} {a1} {a2} (h : Keeps C M F P s0 s) : Keeps C M F P s0 (runSyncFail a1 a2 s) := by
  unfold runSyncFail
  try dsimp only
  split
  · with_reducible exact h
  · split
    · with_reducible exact Keeps.ite (runPut_keeps h) h
    · with_reducible exact h

theorem seqError_keeps {C M F P : Prop} {s0 s : State} {a1} {a2} {a3} (h : Keeps C M F P s0 s) : Keeps C M F P s0 (seqError a1 a2 a3 s) := by
  unfold seqError
  try dsimp only
  split
  · with_reducible exact seqNext_keeps (synRecord_keeps h)
  · with_reducible exact seqPut_keeps (runSyncFail_keeps (synRecord_keeps h))

theorem seqSignal_keeps {C M F P : Prop} {s0 s : State} {a1} {a2} {a3} (h : Keeps C M F P s0 s) : Keeps C M F P s0 (seqSignal a1 a2 a3 s) := by
  unfold seqSignal
  try dsimp only
  with_reducible exact Keeps.ite (seqNext_keeps (objSignal_keeps h)) (seqError_keeps (objSignal_keeps h))

theorem seqWait_keeps {C M F P : Prop} {s0 s : State} {a1} {a2} {a3} {a4} (h : Keeps C M F P s0 s) : Keeps C M F P s0 (seqWait a1 a2 a3 a4 s) := by
  unfold seqWait
  try dsimp only
  with_reducible exact Keeps.ite (seqError_keeps h) (objWake_keeps (Keeps.ite (objPut_keeps (seqPut_keeps h)) (waiterTests_keeps (objPut_keeps (seqPut_keeps h)))))

theorem seqDecrement_keeps {C M F P : Prop} {s0 s : State} {a1} {a2} {a3} (h : Keeps C M F P s0 s) : Keeps C M F P s0 (seqDecrement a1 a2 a3 s) := by
  unfold seqDecrement
  try dsimp only
  with_reducible exact Keeps.ite (seqError_keeps h) (Keeps.ite (seqError_keeps (bump_keeps h)) (seqNext_keeps (objPut_keeps h)))

theorem barPut_keeps {C M F P : Prop} {s0 s : State} {a1} {a2} (h : Keeps C M F P s0 s) : Keeps C M F P s0 (barPut a1 a2 s) := by
  unfold barPut
  try dsimp only
  with_reducible exact Keeps.of_mk h

theorem sendBar_keeps {C M F P : Prop} {s0 s : State} {a1} {a2} {a3} {a4} (h : Keeps C M F P s0 s) : Keeps C M F P s0 (sendBar a1 a2 a3 a4 s) := by
  unfold sendBar
  try dsimp only
  with_reducible exact sendToNode_keeps h

theorem barServeList_keeps {C M F P : Prop} {s0 s : State} {a1} {a2} (h : Keeps C M F P s0 s) : Keeps C M F P s0 (barServeList a1 a2 s) := by
  unfold barServeList
  try dsimp only
  split
  · with_reducible exact Keeps.ite (seqNext_keeps (bump_keeps (barPut_keeps h))) h
  · with_reducible exact h

theorem barWake_keeps {C M F P : Prop} {s0 s : State} {a1} {a2} (h : Keeps C M F P s0 s) : Keeps C M F P s0 (barWake a1 a2 s) := by
  unfold barWake
  try dsimp only
  with_reducible exact keeps_foldl (fun t1 x1 h1 => barServeList_keeps h1) h

theorem barRelease_keeps {C M F P : Prop} {s0 s : State} {a1} {a2} (h : Keeps C M F P s0 s) : Keeps C M F P s0 (barRelease a1 a2 s) := by
  unfold barRelease
  try dsimp only
  with_reducible exact barWake_keeps (keeps_foldl (fun t1 x1 h1 => sendBar_keeps (barPut_keeps h1)) (keeps_foldl (fun t1 x1 h1 => bump_keeps h1) (barPut_keeps h)))

theorem barComplete_keeps {C M F P : Prop} {s0 s : State} {a1} {a2} {a3} (h : Keeps C M F P s0 s) : Keeps C M F P s0 (barComplete a1 a2 a3 s) := by
  induction a3 generalizing s with
  | zero => exact h
  | succ n ih =>
    unfold barComplete
    dsimp only
    with_reducible exact Keeps.ite (ih (barRelease_keeps h)) h

theorem barCount_keeps {C M F P : Prop} {s0 s : State} {a1} {a2} {a3} (h : Keeps C M F P s0 s) : Keeps C M F P s0 (barCount a1 a2 a3 s) := by
  unfold barCount
  try dsimp only
  with_reducible exact Keeps.ite (barComplete_keeps (barPut_keeps h)) (Keeps.ite (sendBar_keeps (barPut_keeps h)) (barPut_keeps h))

theorem seqLap_keeps {C M F P : Prop} {s0 s : State} {a1} {a2} (h : Keeps C M F P s0 s) : Keeps C M F P s0 (seqLap a1 a2 s) := by
  unfold seqLap
  try dsimp only
  with_reducible exact seqError_keeps (bump_keeps h)

theorem listArrives_keeps {C M F P : Prop} {s0 s : State} {a1} {a2} {a3} (h : Keeps C M F P s0 s) : Keeps C M F P s0 (listArrives a1 a2 a3 s) := by
  unfold listArrives
  try dsimp only
  with_reducible exact barCount_keeps (bump_keeps h)

theorem seqBarWait_keeps {C M F P : Prop} {s0 s : State} {a1} {a2} {a3} {a4} (h : Keeps C M F P s0 s) : Keeps C M F P s0 (seqBarWait a1 a2 a3 a4 s) := by
  unfold seqBarWait
  try dsimp only
  with_reducible exact Keeps.ite (seqNext_keeps h) (barServeList_keeps (Keeps.ite (seqPut_keeps h) (waiterTests_keeps (seqPut_keeps h))))

theorem seqResume_keeps {C M F P : Prop} {s0 s : State} {a1} (h : Keeps C M F P s0 s) : Keeps C M F P s0 (seqResume a1 s) := by
  unfold seqResume
  try dsimp only
  split
  · with_reducible exact objWake_keeps h
  · with_reducible exact barServeList_keeps h
  · with_reducible exact h

theorem assignObjs_keeps {C M F P : Prop} {s0 s : State} {a1} {a2} (h : Keeps C M F P s0 s) : Keeps C M F P s0 (assignObjs a1 a2 s) := by
  unfold assignObjs
  try dsimp only
  with_reducible exact keeps_foldl (fun t1 x1 h1 => objPut_keeps h1) h

theorem syncAssign_keeps {C M F P : Prop} {s0 s : State} {a1} {a2} (h : Keeps C M F P s0 s) : Keeps C M F P s0 (syncAssign a1 a2 s) := by
  unfold syncAssign
  try dsimp only
  with_reducible exact keeps_foldl (fun t1 x1 h1 => assignObjs_keeps h1) (Keeps.of_mk h)

theorem synRecordPeer_keeps {C M F P : Prop} {s0 s : State} {a1} {a2} {a3} {a4} (h : Keeps C M F P s0 s) : Keeps C M F P s0 (synRecordPeer a1 a2 a3 a4 s) := by
  unfold synRecordPeer
  try dsimp only
  with_reducible exact synRecord_keeps h

theorem yzSignalObj_keeps {C M F P : Prop} {s0 s : State} {a1} {a2} {a3} (h : Keeps C M F P s0 s) : Keeps C M F P s0 (yzSignalObj a1 a2 a3 s).2 := by
  unfold yzSignalObj
  try dsimp only
  with_reducible exact Keeps.ite2 (Keeps.of_mk (objSignal_keeps h)) (synRecordPeer_keeps (objSignal_keeps h))

theorem yzSignalBar_keeps {C M F P : Prop} {s0 s : State} {a1} {a2} {a3} {a4} (h : Keeps C M F P s0 s) : Keeps C M F P s0 (yzSignalBar a1 a2 a3 a4 s).2 := by
  unfold yzSignalBar
  try dsimp only
  split
  · with_reducible exact h
  · with_reducible exact Keeps.ite2 (Keeps.ite2 h (Keeps.ite2 (synRecordPeer_keeps h) (barCount_keeps h))) (Keeps.ite2 h (Keeps.ite2 (barRelease_keeps h) h))

end Sys2Proof.Machine
end

