-- ==== Sys2Proof/Laws/KeepCommit.lean ====
section
/-! SUPPORT. What the functions of Machine/Commit.lean keep (Laws/Keep.lean). -/

namespace Sys2Proof.Machine

theorem capEff_keeps {C M F P : Prop} {s0 s : State} {a1} (h : Keeps C M F P s0 s) : Keeps C M F P s0 (capEff a1 s) := by
  unfold capEff
  try dsimp only
  with_reducible refine Keeps.ite h ?_
  with_reducible refine runPut_keeps ?_
  with_reducible refine keeps_foldl ?_ h
  intro t1 x1 h1
  split
  · with_reducible exact dropSlot_keeps h1
  · with_reducible exact h1

theorem dispatchPeer_keeps {C M F P : Prop} {s0 s : State} {a1} {a2} {a3} (h : Keeps C M F P s0 s) : Keeps C M F P s0 (dispatchPeer a1 a2 s a3) := by
  unfold dispatchPeer
  try dsimp only
  split
  · with_reducible exact sendToNode_keeps h
  · with_reducible exact h

theorem commitNow_keeps {C M F P : Prop} {s0 s : State} {a1} {a2} {a3} (h : Keeps C M F P s0 s) : Keeps C M F P s0 (commitNow a1 a2 a3 s) := by
  unfold commitNow
  try dsimp only
  with_reducible exact keeps_foldl (fun t1 x1 h1 => dispatchPeer_keeps h1) (chanPut_keeps h)

theorem commitRun_keeps {C M F P : Prop} {s0 s : State} {a1} {a2} {a3} (h : Keeps C M F P s0 s) : Keeps C M F P s0 (commitRun a1 a2 a3 s) := by
  unfold commitRun
  try dsimp only
  with_reducible exact Keeps.ite h (Keeps.ite (commitNow_keeps (Keeps.ite (runPut_keeps (capEff_keeps h)) (capEff_keeps h))) (Keeps.ite (Keeps.ite (runPut_keeps (capEff_keeps h)) (capEff_keeps h)) (bump_keeps (runPut_keeps (Keeps.ite (runPut_keeps (capEff_keeps h)) (capEff_keeps h))))))

theorem execDescriptorCommit_keeps {C M F P : Prop} {s0 s : State} {a1} (h : Keeps C M F P s0 s) : ∃ t, execDescriptorCommit a1 s = .next t ∧ Keeps C M F P s0 t := by
  unfold execDescriptorCommit
  try dsimp only
  refine ⟨_, rfl, ?_⟩
  split
  · with_reducible exact h
  · with_reducible exact Keeps.ite h (commitRun_keeps h)

theorem applyBytes_keeps {C F P : Prop} {s0 s : State} {a1} {a2} (h : Keeps C True F P s0 s) : Keeps C True F P s0 (applyBytes a1 a2 s).2 := by
  unfold applyBytes
  try dsimp only
  with_reducible exact Keeps.ite2 (writeMem_keeps h) h

theorem joinSides_keeps {C F P : Prop} {s0 s : State} {a1} {a2} (h : Keeps C True F P s0 s) : Keeps C True F P s0 (joinSides a1 a2 s) := by
  unfold joinSides
  try dsimp only
  with_reducible exact keeps_foldl (fun t1 x1 h1 => asuBumpGen_keeps (asuBumpGen_keeps (asuSetSide_keeps (asuFill_keeps h1)))) h

theorem applyJoin_keeps {C F P : Prop} {s0 s : State} {a1} {a2} {a3} (h : Keeps C True F P s0 s) : Keeps C True F P s0 (applyJoin a1 a2 a3 s) := by
  unfold applyJoin
  try dsimp only
  with_reducible refine Keeps.ite ?_ (Keeps.of_mk h)
  split
  · with_reducible exact joinSides_keeps (Keeps.of_mk h)
  · with_reducible exact Keeps.of_mk h

theorem bandKey_keeps {C F P : Prop} {s0 : State} {a1} {a2} {a3} {a4} (h : Keeps C True F P s0 a3.2) : Keeps C True F P s0 (bandKey a1 a2 a3 a4).2 := by
  unfold bandKey
  try dsimp only
  split
  · with_reducible exact Keeps.ite (writeMem_keeps h) h
  · with_reducible exact writeMem_keeps h

theorem applyBands_keeps {C F P : Prop} {s0 s : State} {a1} {a2} {a3} {a4} (h : Keeps C True F P s0 s) : Keeps C True F P s0 (applyBands a1 a2 a3 a4 s).2 := by
  unfold applyBands
  try dsimp only
  with_reducible exact Keeps.ite2 h (Keeps.ite2 h (applyJoin_keeps (writeMem_keeps (takeFree_keeps (keeps_foldl2 (fun x1 x2 h1 => bandKey_keeps h1) h)))))

theorem applySignal_keeps {C M F P : Prop} {s0 s : State} {a1} {a2} {a3} {a4} {a5} (h : Keeps C M F P s0 s) : Keeps C M F P s0 (applySignal a1 a2 a3 a4 a5 s).2 := by
  unfold applySignal
  try dsimp only
  with_reducible exact Keeps.ite2 (bump_keeps (objSignal_keeps h)) (synRecord_keeps (objSignal_keeps h))

theorem applyEff_keeps {C F P : Prop} {s0 s : State} {a1} {a2} (h : Keeps C True F P s0 s) : Keeps C True F P s0 (applyEff a1 a2 s).2 := by
  unfold applyEff
  try dsimp only
  split
  · with_reducible exact applyBytes_keeps h
  · with_reducible exact applyBytes_keeps h
  · with_reducible exact Keeps.ite2 (bump_keeps h) (applyBytes_keeps h)
  · with_reducible exact slotDelivered_keeps h
  · with_reducible exact applySignal_keeps h
  · with_reducible exact applyJoin_keeps h
  · with_reducible exact applyBands_keeps h
  · split
    · with_reducible exact Keeps.ite2 h (applyScatter_keeps h)
    · with_reducible exact h
  · with_reducible exact applyFlip_keeps h
  · with_reducible exact applyFold_keeps h
  · with_reducible exact applyInit_keeps h
  · with_reducible exact h

theorem applyBatch_keeps {C F P : Prop} {s0 s : State} {a1} {a2} {a3} (h : Keeps C True F P s0 s) : Keeps C True F P s0 (applyBatch a1 a2 a3 s) := by
  induction a3 generalizing s with
  | nil => exact h
  | cons x t ih =>
    unfold applyBatch
    dsimp only
    with_reducible exact Keeps.ite (ih h) (ih (runOpDone_keeps (applyEff_keeps h)))

theorem execBatchApply_keeps {C F P : Prop} {s0 s : State} {a1} {a2} (h : Keeps C True F P s0 s) : ∃ t, execBatchApply a1 a2 s = .next t ∧ Keeps C True F P s0 t := by
  unfold execBatchApply
  try dsimp only
  refine ⟨_, rfl, ?_⟩
  split
  · with_reducible exact h
  · with_reducible exact Keeps.ite h (Keeps.ite (bump_keeps (Keeps.ite (runPut_keeps h) h)) (Keeps.ite h (runPut_keeps (applyBatch_keeps (Keeps.of_mk h)))))

theorem pushRecord_keeps {C M F P : Prop} {s0 s : State} {a1} {a2} {a3} {a4} (h : Keeps C M F P s0 s) : Keeps C M F P s0 (pushRecord a1 a2 a3 a4 s) := by
  unfold pushRecord
  try dsimp only
  with_reducible exact Keeps.ite h (Keeps.ite (sendMessage_keeps (emit_keeps (chanPut_keeps h))) (chanPut_keeps h))

theorem completeRun_keeps {C F P : Prop} {s0 s : State} {a1} {a2} {a3} {a4} {a5} (h : Keeps C True F P s0 s) : Keeps C True F P s0 (completeRun a1 a2 a3 a4 a5 s) := by
  unfold completeRun
  try dsimp only
  with_reducible exact closeIfDue_keeps (Keeps.of_mk (pushRecord_keeps (ringWrite_keeps (chanPut_keeps (Keeps.ite (bump_keeps h) (Keeps.ite (bump_keeps h) h))))))

theorem execCompletionReady_keeps {C F P : Prop} {s0 s : State} {a1} (h : Keeps C True F P s0 s) : ∃ t, execCompletionReady a1 s = .next t ∧ Keeps C True F P s0 t := by
  unfold execCompletionReady
  try dsimp only
  refine ⟨_, rfl, ?_⟩
  split
  · with_reducible exact h
  · with_reducible exact Keeps.ite h (Keeps.ite (completeRun_keeps (Keeps.ite h (chanPut_keeps h))) (Keeps.ite (completeRun_keeps h) h))

theorem updateAll_keeps {C F P : Prop} {s0 s : State} {a1} {a2} {a3} {a4} {a5} (h : Keeps C True F P s0 s) :
    Keeps C True F P s0 (updateAll a1 a2 a3 a4 a5 s).2.2 := by
  induction a2 generalizing s a3 a4 a5 with
  | nil => exact h
  | cons x t ih =>
    unfold updateAll
    dsimp only
    with_reducible exact ih (writeMem_keeps (asuRun_keeps h))

theorem updateStage_keeps {C F P : Prop} {s0 s : State} {a1} (h : Keeps C True F P s0 s) : Keeps C True F P s0 (updateStage a1 s) := by
  unfold updateStage
  try dsimp only
  with_reducible refine Keeps.ite h ?_
  with_reducible refine Keeps.ite (runPut_keeps h) ?_
  split
  · with_reducible exact Keeps.ite h (Keeps.ite (commitRun_keeps (runPut_keeps (updateAll_keeps h))) (runPut_keeps (updateAll_keeps h)))
  · with_reducible exact runPut_keeps h

theorem execAsuUpdate_keeps {C F P : Prop} {s0 s : State} {a1} (h : Keeps C True F P s0 s) : ∃ t, execAsuUpdate a1 s = .next t ∧ Keeps C True F P s0 t := by
  unfold execAsuUpdate
  try dsimp only
  refine ⟨_, rfl, ?_⟩
  with_reducible exact unitRun_keeps (fun x1 t1 h1 => updateStage_keeps h1) h

end Sys2Proof.Machine
end

