-- ==== Sys2Proof/Laws/KeepGraver.lean ====
section
/-! SUPPORT. What the functions of Machine/Graver.lean keep (Laws/Keep.lean). -/

namespace Sys2Proof.Machine

theorem graverEnd_keeps {C F P : Prop} {s0 s : State} {a1} {a2} {a3} {a4} (h : Keeps C True F P s0 s) :
    Keeps C True F P s0 (graverEnd a1 a2 a3 a4 s) := by
  unfold graverEnd
  dsimp only
  repeat' with_reducible first
    | exact h
    | apply runPut_keeps
    | apply writeMem_keeps
    | apply placeOut_keeps
    | apply Keeps.ite
    | split
    | dsimp only

theorem graverStage_keeps {C F P : Prop} {s0 s : State} {a1} (h : Keeps C True F P s0 s) : Keeps C True F P s0 (graverStage a1 s) := by
  unfold graverStage
  try dsimp only
  split
  · with_reducible exact runPut_keeps h
  · with_reducible exact Keeps.ite (runPut_keeps h) (Keeps.ite (runPut_keeps h) (Keeps.ite (graverEnd_keeps h) (Keeps.ite (graverEnd_keeps h) (Keeps.ite (runPut_keeps h) (Keeps.ite (graverEnd_keeps h) (Keeps.ite (graverEnd_keeps h) (graverEnd_keeps h)))))))

theorem execGraverRun_keeps {C F P : Prop} {s0 s : State} {a1} (h : Keeps C True F P s0 s) : ∃ t, execGraverRun a1 s = .next t ∧ Keeps C True F P s0 t := by
  unfold execGraverRun
  try dsimp only
  refine ⟨_, rfl, ?_⟩
  with_reducible refine unitRun_keeps ?_ h
  intro x1 t1 h1
  split
  · with_reducible exact Keeps.ite h1 (graverStage_keeps h1)
  · with_reducible exact graverStage_keeps h1

end Sys2Proof.Machine
end

