-- ==== Sys2Proof/Laws/KeepRecords.lean ====
section
/-! SUPPORT. What the functions of Machine/Records.lean keep (Laws/Keep.lean). -/

namespace Sys2Proof.Machine

theorem decEnd_keeps {C M F P : Prop} {s0 s : State} {a1} {a2} {a3} (h : Keeps C M F P s0 s) : Keeps C M F P s0 (decEnd a1 a2 a3 s) := by
  unfold decEnd
  try dsimp only
  with_reducible exact bumpReef_keeps (bumpReef_keeps (bumpReef_keeps (bumpReef_keeps (runPut_keeps h))))

theorem decFileFailed_keeps {C M F P : Prop} {s0 s : State} {a1} {a2} {a3} (h : Keeps C M F P s0 s) : Keeps C M F P s0 (decFileFailed a1 a2 a3 s) := by
  unfold decFileFailed
  try dsimp only
  with_reducible exact bumpReef_keeps (decEnd_keeps h)

theorem decodeStage_keeps {C M F P : Prop} {s0 s : State} {a1} (h : Keeps C M F P s0 s) : Keeps C M F P s0 (decodeStage a1 s) := by
  unfold decodeStage
  try dsimp only
  split
  · with_reducible exact decFileFailed_keeps h
  · with_reducible refine Keeps.ite (runPut_keeps h) ?_
    with_reducible refine Keeps.ite (bumpReef_keeps (bumpReef_keeps (bumpReef_keeps (decEnd_keeps h)))) ?_
    with_reducible refine Keeps.ite (bumpReef_keeps (bumpReef_keeps (bumpReef_keeps (decEnd_keeps h)))) ?_
    split
    · with_reducible exact bumpReef_keeps (decFileFailed_keeps h)
    · with_reducible exact Keeps.ite (runPut_keeps h) (bumpReef_keeps (bumpReef_keeps (bumpReef_keeps (decEnd_keeps h))))

theorem execRecordDecode_keeps {C M F P : Prop} {s0 s : State} {a1} (h : Keeps C M F P s0 s) : ∃ t, execRecordDecode a1 s = .next t ∧ Keeps C M F P s0 t := by
  unfold execRecordDecode
  try dsimp only
  refine ⟨_, rfl, ?_⟩
  with_reducible exact unitRun_keeps (fun x1 t1 h1 => decodeStage_keeps h1) h

theorem execRecordDeadline_keeps {C M F P : Prop} {s0 s : State} {a1} {a2} (h : Keeps C M F P s0 s) : ∃ t, execRecordDeadline a1 a2 s = .next t ∧ Keeps C M F P s0 t := by
  unfold execRecordDeadline
  try dsimp only
  refine ⟨_, rfl, ?_⟩
  split
  · with_reducible exact h
  · with_reducible exact Keeps.ite (runPut_keeps h) h

end Sys2Proof.Machine
end

