-- ==== Sys2Proof/Laws/KeepSelect.lean ====
section
/-! SUPPORT. What the functions of Machine/Select.lean keep (Laws/Keep.lean). -/

namespace Sys2Proof.Machine

theorem selEnd_keeps {C F P : Prop} {s0 s : State} {a1} {a2} {a3} {a4} {a5} (h : Keeps C True F P s0 s) : Keeps C True F P s0 (selEnd a1 a2 a3 a4 a5 s) := by
  unfold selEnd
  try dsimp only
  with_reducible exact runPut_keeps (Keeps.ite h (placeOut_keeps h))

theorem topStage_keeps {C F P : Prop} {s0 s : State} {a1} {a2} {a3} {a4} (h : Keeps C True F P s0 s) : Keeps C True F P s0 (topStage a1 a2 a3 a4 s) := by
  unfold topStage
  try dsimp only
  with_reducible exact Keeps.ite (bumpReef_keeps (bumpReef_keeps (bumpReef_keeps (bumpReef_keeps (bumpReef_keeps (bumpReef_keeps (bumpReef_keeps (bumpReef_keeps (selEnd_keeps h))))))))) (bump_keeps (bump_keeps (bumpReef_keeps (bumpReef_keeps (bumpReef_keeps (bumpReef_keeps (bumpReef_keeps (bumpReef_keeps (bumpReef_keeps (bumpReef_keeps (selEnd_keeps h)))))))))))

theorem sortStage_keeps {C F P : Prop} {s0 s : State} {a1} {a2} {a3} (h : Keeps C True F P s0 s) : Keeps C True F P s0 (sortStage a1 a2 a3 s) := by
  unfold sortStage
  try dsimp only
  with_reducible exact bumpReef_keeps (bumpReef_keeps (selEnd_keeps h))

theorem mergeStage_keeps {C F P : Prop} {s0 s : State} {a1} {a2} {a3} {a4} (h : Keeps C True F P s0 s) : Keeps C True F P s0 (mergeStage a1 a2 a3 a4 s) := by
  unfold mergeStage
  try dsimp only
  with_reducible exact bumpReef_keeps (bumpReef_keeps (bumpReef_keeps (selEnd_keeps h)))

theorem selRun_keeps {C F P : Prop} {s0 s : State} {a1} {a2} (h : Keeps C True F P s0 s) : Keeps C True F P s0 (selRun a1 a2 s) := by
  unfold selRun
  try dsimp only
  with_reducible refine unitRun_keeps ?_ h
  intro x1 t1 h1
  split
  · with_reducible exact runPut_keeps h1
  · with_reducible refine Keeps.ite h1 ?_
    split
    · split
      · split
        · with_reducible exact Keeps.ite (topStage_keeps h1) (Keeps.ite (sortStage_keeps h1) (mergeStage_keeps h1))
        · with_reducible exact runPut_keeps h1
      · with_reducible exact runPut_keeps h1
    · with_reducible exact runPut_keeps h1

theorem execTopk_keeps {C F P : Prop} {s0 s : State} {a1} (h : Keeps C True F P s0 s) : ∃ t, execTopk a1 s = .next t ∧ Keeps C True F P s0 t := by
  unfold execTopk
  try dsimp only
  refine ⟨_, rfl, ?_⟩
  with_reducible exact selRun_keeps h

theorem execSort_keeps {C F P : Prop} {s0 s : State} {a1} (h : Keeps C True F P s0 s) : ∃ t, execSort a1 s = .next t ∧ Keeps C True F P s0 t := by
  unfold execSort
  try dsimp only
  refine ⟨_, rfl, ?_⟩
  with_reducible exact selRun_keeps h

theorem execMerge_keeps {C F P : Prop} {s0 s : State} {a1} (h : Keeps C True F P s0 s) : ∃ t, execMerge a1 s = .next t ∧ Keeps C True F P s0 t := by
  unfold execMerge
  try dsimp only
  refine ⟨_, rfl, ?_⟩
  with_reducible exact selRun_keeps h

end Sys2Proof.Machine
end

