-- ==== Sys2Proof/Laws/KeepSequencer.lean ====
section
/-! SUPPORT. What the functions of Machine/Sequencer.lean keep (Laws/Keep.lean). -/

namespace Sys2Proof.Machine

theorem seqTake_keeps {C M F P : Prop} {s0 s : State} {a1} (h : Keeps C M F P s0 s) : Keeps C M F P s0 (seqTake a1 s) := by
  unfold seqTake
  try dsimp only
  split
  · with_reducible exact seqPut_keeps h
  · with_reducible exact seqPut_keeps (runPut_keeps h)

theorem cellsDone_keeps {C M F P : Prop} {s0 s : State} {a1} (h : Keeps C M F P s0 s) : Keeps C M F P s0 (cellsDone a1 s) := by
  unfold cellsDone
  try dsimp only
  split
  · with_reducible exact h
  · with_reducible exact Keeps.ite (runPut_keeps h) h

theorem seqDone_keeps {C M F P : Prop} {s0 s : State} {a1} (h : Keeps C M F P s0 s) : Keeps C M F P s0 (seqDone a1 s) := by
  unfold seqDone
  try dsimp only
  split
  · with_reducible exact cellsDone_keeps (seqPut_keeps h)
  · with_reducible exact seqPut_keeps h

theorem execTake_keeps {C M F P : Prop} {s0 s : State} {a1} (h : Keeps C M F P s0 s) : ∃ t, execTake a1 s = .next t ∧ Keeps C M F P s0 t := by
  unfold execTake
  try dsimp only
  refine ⟨_, rfl, ?_⟩
  with_reducible exact Keeps.ite (seqTake_keeps h) h

theorem execDone_keeps {C M F P : Prop} {s0 s : State} {a1} (h : Keeps C M F P s0 s) : ∃ t, execDone a1 s = .next t ∧ Keeps C M F P s0 t := by
  unfold execDone
  try dsimp only
  refine ⟨_, rfl, ?_⟩
  with_reducible exact Keeps.ite (seqDone_keeps h) h

theorem execNop_keeps {C M F P : Prop} {s0 s : State} {a1} (h : Keeps C M F P s0 s) : ∃ t, execNop a1 s = .next t ∧ Keeps C M F P s0 t := by
  unfold execNop
  try dsimp only
  refine ⟨_, rfl, ?_⟩
  with_reducible exact Keeps.ite (seqNext_keeps h) h

theorem execJump_keeps {C M F P : Prop} {s0 s : State} {a1} {a2} (h : Keeps C M F P s0 s) : ∃ t, execJump a1 a2 s = .next t ∧ Keeps C M F P s0 t := by
  unfold execJump
  try dsimp only
  refine ⟨_, rfl, ?_⟩
  with_reducible exact Keeps.ite (seqGo_keeps h) h

theorem execSignal_keeps {C M F P : Prop} {s0 s : State} {a1} {a2} {a3} (h : Keeps C M F P s0 s) : ∃ t, execSignal a1 a2 a3 s = .next t ∧ Keeps C M F P s0 t := by
  unfold execSignal
  try dsimp only
  refine ⟨_, rfl, ?_⟩
  with_reducible exact Keeps.ite (seqSignal_keeps h) h

theorem execWait_keeps {C M F P : Prop} {s0 s : State} {a1} {a2} {a3} {a4} (h : Keeps C M F P s0 s) : ∃ t, execWait a1 a2 a3 a4 s = .next t ∧ Keeps C M F P s0 t := by
  unfold execWait
  try dsimp only
  refine ⟨_, rfl, ?_⟩
  with_reducible exact Keeps.ite (seqWait_keeps h) h

theorem execDecrement_keeps {C M F P : Prop} {s0 s : State} {a1} {a2} {a3} (h : Keeps C M F P s0 s) : ∃ t, execDecrement a1 a2 a3 s = .next t ∧ Keeps C M F P s0 t := by
  unfold execDecrement
  try dsimp only
  refine ⟨_, rfl, ?_⟩
  with_reducible exact Keeps.ite (seqDecrement_keeps h) h

theorem onBarrier_keeps {C M F P : Prop} {s0 s : State} {a1} {a2} {a3} (hf3 : ∀ x1 t, Keeps C M F P s0 t → Keeps C M F P s0 (a3 x1 t)) (h : Keeps C M F P s0 s) : Keeps C M F P s0 (onBarrier a1 a2 a3 s) := by
  unfold onBarrier
  try dsimp only
  split
  · with_reducible exact Keeps.ite (hf3 _ _ h) (seqError_keeps h)
  · with_reducible exact seqError_keeps h

theorem execArrive_keeps {C M F P : Prop} {s0 s : State} {a1} {a2} (h : Keeps C M F P s0 s) : ∃ t, execArrive a1 a2 s = .next t ∧ Keeps C M F P s0 t := by
  unfold execArrive
  try dsimp only
  refine ⟨_, rfl, ?_⟩
  with_reducible exact Keeps.ite (onBarrier_keeps (fun x1 t1 h1 => Keeps.ite (seqLap_keeps h1) (seqNext_keeps (listArrives_keeps h1))) h) h

theorem execBwait_keeps {C M F P : Prop} {s0 s : State} {a1} {a2} {a3} (h : Keeps C M F P s0 s) : ∃ t, execBwait a1 a2 a3 s = .next t ∧ Keeps C M F P s0 t := by
  unfold execBwait
  try dsimp only
  refine ⟨_, rfl, ?_⟩
  with_reducible exact Keeps.ite (onBarrier_keeps (fun x1 t1 h1 => seqBarWait_keeps h1) h) h

theorem execArriveWait_keeps {C M F P : Prop} {s0 s : State} {a1} {a2} {a3} (h : Keeps C M F P s0 s) : ∃ t, execArriveWait a1 a2 a3 s = .next t ∧ Keeps C M F P s0 t := by
  unfold execArriveWait
  try dsimp only
  refine ⟨_, rfl, ?_⟩
  with_reducible exact Keeps.ite (onBarrier_keeps (fun x1 t1 h1 => Keeps.ite (seqLap_keeps h1) (seqBarWait_keeps (listArrives_keeps h1))) h) h

theorem execWaitTimeout_keeps {C M F P : Prop} {s0 s : State} {a1} (h : Keeps C M F P s0 s) : ∃ t, execWaitTimeout a1 s = .next t ∧ Keeps C M F P s0 t := by
  unfold execWaitTimeout
  try dsimp only
  refine ⟨_, rfl, ?_⟩
  with_reducible refine Keeps.ite h ?_
  split
  · with_reducible exact objWake_keeps (seqError_keeps (bump_keeps (objPut_keeps h)))
  · with_reducible exact seqError_keeps (bump_keeps h)
  · with_reducible exact h

theorem seqPast_keeps {C M F P : Prop} {s0 s : State} {a1} {a2} (h : Keeps C M F P s0 s) : Keeps C M F P s0 (seqPast a1 a2 s) := by
  unfold seqPast
  try dsimp only
  with_reducible exact seqGo_keeps h

theorem owe_keeps {C M F P : Prop} {s0 s : State} {a1} {a2} {a3} {a4} {a5} {a6} {a7} (h : Keeps C M F P s0 s) : Keeps C M F P s0 (owe a1 a2 a3 a4 a5 a6 a7 s) := by
  unfold owe
  try dsimp only
  split
  · with_reducible exact h
  · with_reducible exact Keeps.of_mk h

theorem tailSignal_keeps {C M F P : Prop} {s0 s : State} {a1} (h : Keeps C M F P s0 s) : Keeps C M F P s0 (tailSignal a1 s) := by
  unfold tailSignal
  try dsimp only
  split
  · with_reducible exact runPut_keeps h
  · with_reducible exact Keeps.ite (applySignal_keeps h) (runSyncFail_keeps (applySignal_keeps h))

theorem seqAttached_keeps {C M F P : Prop} {s0 s : State} {a1} {a2} (h : Keeps C M F P s0 s) : Keeps C M F P s0 (seqAttached a1 a2 s) := by
  unfold seqAttached
  try dsimp only
  split
  · with_reducible exact h
  · split
    · with_reducible exact h
    · with_reducible exact Keeps.of_mk h
    · with_reducible exact tailSignal_keeps (Keeps.of_mk h)

theorem execAttachedSignal_keeps {C M F P : Prop} {s0 s : State} {a1} {a2} (h : Keeps C M F P s0 s) : ∃ t, execAttachedSignal a1 a2 s = .next t ∧ Keeps C M F P s0 t := by
  unfold execAttachedSignal
  try dsimp only
  refine ⟨_, rfl, ?_⟩
  with_reducible exact seqAttached_keeps h

theorem kindAll_keeps {C F P : Prop} {s0 s : State} {r : RunRef} {p : State → Bool}
    {fs : List (RunRef → State → Host.Outcome State Fault Refusal)} (h : Keeps C True F P s0 s)
    (hf : ∀ f ∈ fs, ∀ t, Keeps C True F P s0 t → ∃ u, f r t = .next u ∧ Keeps C True F P s0 u) :
    Keeps C True F P s0 (fs.foldl (fun t f => if p t then stateOf (f r t) t else t) s) := by
  induction fs generalizing s with
  | nil => exact h
  | cons f fs ih =>
    refine ih ?_ (fun g hg => hf g (List.mem_cons_of_mem _ hg))
    exact .ite (stateOf_keeps h (hf f (List.mem_cons_self ..) s h)) h

theorem kindRun_keeps {C F P : Prop} {s0 s : State} {a1} {a2} (h : Keeps C True F P s0 s) : Keeps C True F P s0 (kindRun a1 a2 s) := by
  have key : ∀ fs : List (RunRef → State → Host.Outcome State Fault Refusal),
      (∀ f ∈ fs, ∀ t, Keeps C True F P s0 t → ∃ u, f a2 t = .next u ∧ Keeps C True F P s0 u) →
      Keeps C True F P s0 (fs.foldl (fun t f => if runGet t (refNum a2) = runGet s (refNum a2) then stateOf (f a2 t) t else t) s) := by
    intro fs hf
    simpa using kindAll_keeps (p := fun t => decide (runGet t (refNum a2) = runGet s (refNum a2))) h hf
  have one : ∀ f : RunRef → State → Host.Outcome State Fault Refusal,
      (∀ t, Keeps C True F P s0 t → ∃ u, f a2 t = .next u ∧ Keeps C True F P s0 u) → ∀ g ∈ [f], ∀ t, Keeps C True F P s0 t → ∃ u, g a2 t = .next u ∧ Keeps C True F P s0 u :=
    fun f hf g hg => by rw [List.mem_singleton.1 hg]; exact hf
  have more : ∀ (f : RunRef → State → Host.Outcome State Fault Refusal) (l : List (RunRef → State → Host.Outcome State Fault Refusal)),
      (∀ t, Keeps C True F P s0 t → ∃ u, f a2 t = .next u ∧ Keeps C True F P s0 u) → (∀ g ∈ l, ∀ t, Keeps C True F P s0 t → ∃ u, g a2 t = .next u ∧ Keeps C True F P s0 u) →
      ∀ g ∈ f :: l, ∀ t, Keeps C True F P s0 t → ∃ u, g a2 t = .next u ∧ Keeps C True F P s0 u :=
    fun f l hf hl g hg => (List.mem_cons.1 hg).elim (fun e => by rw [e]; exact hf) (hl g)
  unfold kindRun
  dsimp only
  split
  · exact key _ (one _ fun _ ht => execGraverRun_keeps ht)
  · exact key _ (one _ fun _ ht => execRecordDecode_keeps ht)
  · exact key _ (one _ fun _ ht => execStippleAugment_keeps ht)
  · exact key _ (one _ fun _ ht => execHatchStage_keeps ht)
  · exact key _ (one _ fun _ ht => execNormalise_keeps ht)
  · exact key _ (more _ _ (fun _ ht => execJoinProbe_keeps ht) (one _ fun _ ht => execJoinBuild_keeps ht))
  · exact key _ (more _ _ (fun _ ht => execNearDupProbe_keeps ht) (one _ fun _ ht => execNearDupBuild_keeps ht))
  · exact key _ (more _ _ (fun _ ht => execShuffleFeed_keeps ht) (more _ _ (fun _ ht => execCensus_keeps ht) (more _ _ (fun _ ht => execSeal_keeps ht) (one _ fun _ ht => execDeliver_keeps ht))))
  · exact key _ (one _ fun _ ht => execPack_keeps ht)
  · exact key _ (one _ fun _ ht => execLayoutTransform_keeps ht)
  · exact key _ (more _ _ (fun _ ht => execTopk_keeps ht) (more _ _ (fun _ ht => execSort_keeps ht) (one _ fun _ ht => execMerge_keeps ht)))
  · exact key _ (more _ _ (fun _ ht => execGather_keeps ht) (more _ _ (fun _ ht => execScatter_keeps ht) (more _ _ (fun _ ht => execFold_keeps ht) (more _ _ (fun _ ht => execWriteRows_keeps ht) (one _ fun _ ht => execInitialise_keeps ht)))))
  · exact .ite (key _ (one _ fun _ ht => execStatsGather_keeps ht)) (.ite (key _ (one _ fun _ ht => execAsuUpdate_keeps ht)) h)

theorem engineStart_keeps {C F P : Prop} {s0 s : State} {a1} {a2} {a3} {a4} (h : Keeps C True F P s0 s) : Keeps C True F P s0 (engineStart a1 a2 a3 a4 s) := by
  unfold engineStart
  try dsimp only
  split
  · with_reducible exact h
  · split
    · with_reducible exact h
    · with_reducible exact Keeps.ite h (Keeps.ite (keeps_foldl (fun t1 x1 h1 => kindRun_keeps h1) h) (Keeps.ite (kindRun_keeps h) h))

theorem seqEngine_keeps {C F P : Prop} {s0 s : State} {a1} {a2} {a3} {a4} (h : Keeps C True F P s0 s) : Keeps C True F P s0 (seqEngine a1 a2 a3 a4 s) := by
  unfold seqEngine
  try dsimp only
  split
  · with_reducible exact seqPast_keeps h
  · with_reducible exact seqAttached_keeps (seqPast_keeps (owe_keeps (engineStart_keeps h)))

theorem execEngine_keeps {C F P : Prop} {s0 s : State} {a1} {a2} {a3} {a4} (h : Keeps C True F P s0 s) : ∃ t, execEngine a1 a2 a3 a4 s = .next t ∧ Keeps C True F P s0 t := by
  unfold execEngine
  try dsimp only
  refine ⟨_, rfl, ?_⟩
  with_reducible exact Keeps.ite (seqEngine_keeps h) h

theorem listFail_keeps {C M F P : Prop} {s0 s : State} {a1} {a2} (h : Keeps C M F P s0 s) : Keeps C M F P s0 (listFail a1 a2 s) := by
  unfold listFail
  try dsimp only
  with_reducible exact runSyncFail_keeps h

theorem listPoison_keeps {C M F P : Prop} {s0 s : State} {a1} {a2} {a3} (h : Keeps C M F P s0 s) : Keeps C M F P s0 (listPoison a1 a2 a3 s) := by
  unfold listPoison
  try dsimp only
  with_reducible exact listFail_keeps (poisonedRead_keeps h)

theorem seqAsu_keeps {C F P : Prop} {s0 s : State} {a1} {a2} {a3} {a4} (h : Keeps C True F P s0 s) : Keeps C True F P s0 (seqAsu a1 a2 a3 a4 s) := by
  unfold seqAsu
  try dsimp only
  with_reducible exact Keeps.ite (seqPast_keeps (listPoison_keeps h)) (seqAttached_keeps (seqPast_keeps (asuStart_keeps (owe_keeps h))))

theorem execAsuIssue_keeps {C F P : Prop} {s0 s : State} {a1} {a2} {a3} {a4} (h : Keeps C True F P s0 s) : ∃ t, execAsuIssue a1 a2 a3 a4 s = .next t ∧ Keeps C True F P s0 t := by
  unfold execAsuIssue
  try dsimp only
  refine ⟨_, rfl, ?_⟩
  with_reducible exact Keeps.ite (seqAsu_keeps h) h

theorem execWxaClear_keeps {C M F P : Prop} {s0 s : State} {a1} {a2} (h : Keeps C M F P s0 s) : ∃ t, execWxaClear a1 a2 s = .next t ∧ Keeps C M F P s0 t := by
  unfold execWxaClear
  try dsimp only
  refine ⟨_, rfl, ?_⟩
  with_reducible exact Keeps.ite (seqNext_keeps (wxaPut_keeps h)) h

theorem execWxaSetMode_keeps {C M F P : Prop} {s0 s : State} {a1} {a2} {a3} (h : Keeps C M F P s0 s) : ∃ t, execWxaSetMode a1 a2 a3 s = .next t ∧ Keeps C M F P s0 t := by
  unfold execWxaSetMode
  try dsimp only
  refine ⟨_, rfl, ?_⟩
  with_reducible exact Keeps.ite (seqNext_keeps (wxaPut_keeps h)) h

theorem wxaWrite_keeps {C F P : Prop} {s0 s : State} {a1} {a2} {a3} {a4} {a5} (h : Keeps C True F P s0 s) : Keeps C True F P s0 (wxaWrite a1 a2 a3 a4 a5 s) := by
  unfold wxaWrite
  try dsimp only
  with_reducible exact Keeps.ite (Keeps.ite (seqPast_keeps (listPoison_keeps h)) (seqAttached_keeps (seqPast_keeps (owe_keeps (writeMem_keeps h))))) (Keeps.ite (Keeps.ite (seqPast_keeps (listPoison_keeps h)) (seqAttached_keeps (seqPast_keeps (owe_keeps (writeMem_keeps h))))) h)

theorem execWxaSave_keeps {C F P : Prop} {s0 s : State} {a1} {a2} {a3} (h : Keeps C True F P s0 s) : ∃ t, execWxaSave a1 a2 a3 s = .next t ∧ Keeps C True F P s0 t := by
  unfold execWxaSave
  try dsimp only
  refine ⟨_, rfl, ?_⟩
  with_reducible exact wxaWrite_keeps h

theorem execWxaReadFp32_keeps {C F P : Prop} {s0 s : State} {a1} {a2} {a3} (h : Keeps C True F P s0 s) : ∃ t, execWxaReadFp32 a1 a2 a3 s = .next t ∧ Keeps C True F P s0 t := by
  unfold execWxaReadFp32
  try dsimp only
  refine ⟨_, rfl, ?_⟩
  with_reducible exact wxaWrite_keeps h

theorem wxaRead_keeps {C M F P : Prop} {s0 s : State} {a1} {a2} {a3} {a4} {a5} (h : Keeps C M F P s0 s) : Keeps C M F P s0 (wxaRead a1 a2 a3 a4 a5 s) := by
  unfold wxaRead
  try dsimp only
  with_reducible exact Keeps.ite h (Keeps.ite (seqNext_keeps (listPoison_keeps h)) (seqNext_keeps (wxaPut_keeps h)))

theorem execWxaRestore_keeps {C M F P : Prop} {s0 s : State} {a1} {a2} {a3} (h : Keeps C M F P s0 s) : ∃ t, execWxaRestore a1 a2 a3 s = .next t ∧ Keeps C M F P s0 t := by
  unfold execWxaRestore
  try dsimp only
  refine ⟨_, rfl, ?_⟩
  with_reducible exact wxaRead_keeps h

theorem execWxaMerge_keeps {C M F P : Prop} {s0 s : State} {a1} {a2} {a3} (h : Keeps C M F P s0 s) : ∃ t, execWxaMerge a1 a2 a3 s = .next t ∧ Keeps C M F P s0 t := by
  unfold execWxaMerge
  try dsimp only
  refine ⟨_, rfl, ?_⟩
  with_reducible exact wxaRead_keeps h

end Sys2Proof.Machine
end

