-- ==== Sys2Proof/Laws/KeepDomains.lean ====
section
/-! SUPPORT. What the functions of Machine/Domains.lean keep (Laws/Keep.lean). -/

namespace Sys2Proof.Machine

theorem pwrTrackWith_keeps {C M F P : Prop} {s0 s : State} {a1} (h : Keeps C M F P s0 s) : Keeps C M F P s0 (pwrTrackWith a1 s) := by
  unfold pwrTrackWith
  try dsimp only
  with_reducible exact Keeps.of_mk h

end Sys2Proof.Machine
end

