-- ==== Sys2Proof/Laws/KeepFlash.lean ====
section
/-! SUPPORT. What the functions of Machine/Flash.lean keep (Laws/Keep.lean). -/

namespace Sys2Proof.Machine

theorem fwrite_keeps {C M P : Prop} {s0 s : State} {a1} {a2} (h : Keeps C M True P s0 s) : Keeps C M True P s0 (fwrite a1 a2 s) := by
  unfold fwrite
  try dsimp only
  with_reducible exact Keeps.of_mk_all h id id (fput_wf _ _) id id id (Nat.le_refl _) id (FusesKept.refl _) (List.prefix_refl _) (Nat.le_refl _) (.inr ⟨rfl, rfl⟩) (.inl trivial) (.inr rfl)

theorem areaWrite_keeps {C M P : Prop} {s0 s : State} {a1} {a2} {a3} {a4} (h : Keeps C M True P s0 s) : Keeps C M True P s0 (areaWrite a1 a2 a3 a4 s) := by
  unfold areaWrite
  try dsimp only
  split
  · with_reducible exact fwrite_keeps h
  · with_reducible exact fwrite_keeps h

theorem dirSet_keeps {C M P : Prop} {s0 s : State} {a1} {a2} {a3} {a4} (h : Keeps C M True P s0 s) : Keeps C M True P s0 (dirSet a1 a2 a3 a4 s) := by
  unfold dirSet
  try dsimp only
  with_reducible exact areaWrite_keeps h

theorem bootCtlSet_keeps {C M P : Prop} {s0 s : State} {a1} (h : Keeps C M True P s0 s) : Keeps C M True P s0 (bootCtlSet a1 s) := by
  unfold bootCtlSet
  try dsimp only
  with_reducible exact areaWrite_keeps h

end Sys2Proof.Machine
end

