-- ==== Sys2Proof/Laws/KeepPlate.lean ====
section
/-! SUPPORT. What the functions of Machine/Plate.lean keep (Laws/Keep.lean). -/

namespace Sys2Proof.Machine

theorem pwrTrack_keeps {C M F P : Prop} {s0 s : State} (h : Keeps C M F P s0 s) : Keeps C M F P s0 (pwrTrack s) := by
  unfold pwrTrack
  try dsimp only
  with_reducible exact pwrTrackWith_keeps h

theorem pltErr_keeps {C M F P : Prop} {s0 s : State} {a1} (h : Keeps C M F P s0 s) : Keeps C M F P s0 (pltErr a1 s) := by
  unfold pltErr
  try dsimp only
  with_reducible exact alert_keeps (rset_keeps (rset_keeps (rset_keeps h)))

theorem auditPlate_keeps {C M F P : Prop} {s0 s : State} {a1} {a2} {a3} {a4} {a5} (h : Keeps C M F P s0 s) : Keeps C M F P s0 (auditPlate a1 a2 a3 a4 a5 s) := by
  unfold auditPlate
  try dsimp only
  with_reducible exact audit_keeps h

theorem storePut_keeps {C M F P : Prop} {s0 s : State} {a1} (h : Keeps C M F P s0 s) : Keeps C M F P s0 (storePut a1 s) := by
  unfold storePut
  try dsimp only
  with_reducible exact Keeps.of_mk h

theorem standbyEmpty_keeps {C M F P : Prop} {s0 s : State} (h : Keeps C M F P s0 s) : Keeps C M F P s0 (standbyEmpty s) := by
  unfold standbyEmpty
  try dsimp only
  with_reducible exact pwrTrack_keeps (Keeps.of_mk h)

theorem loadFail_keeps {C M F P : Prop} {s0 s : State} {a1} (h : Keeps C M F P s0 s) : Keeps C M F P s0 (loadFail a1 s) := by
  unfold loadFail
  try dsimp only
  with_reducible exact Keeps.ite (Keeps.of_mk (standbyEmpty_keeps (auditFlush_keeps (auditPlate_keeps (pltErr_keeps h))))) (standbyEmpty_keeps (auditFlush_keeps (auditPlate_keeps (pltErr_keeps h))))

theorem loadStart_keeps {C M F P : Prop} {s0 s : State} {a1} {a2} {a3} (h : Keeps C M F P s0 s) : Keeps C M F P s0 (loadStart a1 a2 a3 s) := by
  unfold loadStart
  try dsimp only
  with_reducible exact pwrTrack_keeps (storePut_keeps (Keeps.of_mk h))

theorem commitStart_keeps {C M F P : Prop} {s0 s : State} {a1} (h : Keeps C M F P s0 s) : Keeps C M F P s0 (commitStart a1 s) := by
  unfold commitStart
  try dsimp only
  with_reducible exact Keeps.of_mk (auditPlate_keeps h)

theorem releaseHeld_keeps {C M F P : Prop} {s0 s : State} (h : Keeps C M F P s0 s) : Keeps C M F P s0 (releaseHeld s) := by
  unfold releaseHeld
  try dsimp only
  with_reducible exact Keeps.of_mk h

theorem abortCommit_keeps {C M F P : Prop} {s0 s : State} {a1} (h : Keeps C M F P s0 s) : Keeps C M F P s0 (abortCommit a1 s) := by
  unfold abortCommit
  try dsimp only
  with_reducible exact Keeps.of_mk (auditPlate_keeps (releaseHeld_keeps h))

theorem proofActive_keeps {C M F P : Prop} {s0 s : State} {a1} {a2} (h : Keeps C M F P s0 s) : Keeps C M F P s0 (proofActive a1 a2 s) := by
  unfold proofActive
  try dsimp only
  with_reducible exact keeps_foldl (fun t1 x1 h1 => auditPlate_keeps (pltErr_keeps h1)) h

theorem evict_keeps {C M F P : Prop} {s0 s : State} {a1} (h : Keeps C M F P s0 s) : Keeps C M F P s0 (evict a1 s) := by
  unfold evict
  try dsimp only
  with_reducible exact pwrTrack_keeps (Keeps.of_mk (auditPlate_keeps h))

theorem pltDo_keeps {C M F P : Prop} {s0 s : State} {a1} {a2} {a3} {a4} (h : Keeps C M F P s0 s) : Keeps C M F P s0 (pltDo a1 a2 a3 a4 s) := by
  unfold pltDo
  try dsimp only
  split
  · with_reducible exact loadStart_keeps h
  · with_reducible exact loadStart_keeps h
  · with_reducible exact standbyEmpty_keeps h
  · with_reducible exact abortCommit_keeps h
  · with_reducible exact proofActive_keeps h
  · with_reducible exact h

theorem pltGuardDo_keeps {C M F P : Prop} {s0 s : State} {a1} {a2} (h : Keeps C M F P s0 s) : Keeps C M F P s0 (pltGuardDo a1 a2 s) := by
  unfold pltGuardDo
  try dsimp only
  split
  · with_reducible exact commitStart_keeps h
  · with_reducible exact evict_keeps h
  · with_reducible exact h

theorem execPlateLoadDone_keeps {C M F P : Prop} {s0 s : State} {a1} (h : Keeps C M F P s0 s) : ∃ t, execPlateLoadDone a1 s = .next t ∧ Keeps C M F P s0 t := by
  unfold execPlateLoadDone
  try dsimp only
  refine ⟨_, rfl, ?_⟩
  with_reducible refine Keeps.ite h ?_
  split
  · split
    · with_reducible exact loadFail_keeps h
    · split
      · with_reducible exact loadFail_keeps h
      · split
        · with_reducible exact loadFail_keeps h
        · with_reducible exact pwrTrack_keeps (storePut_keeps (Keeps.of_mk h))
  · with_reducible exact h

theorem loadPassed_keeps {C M F P : Prop} {s0 s : State} (h : Keeps C M F P s0 s) : Keeps C M F P s0 (loadPassed s) := by
  unfold loadPassed
  try dsimp only
  with_reducible exact Keeps.ite (commitStart_keeps (Keeps.of_mk (auditFlush_keeps (auditPlate_keeps (Keeps.of_mk h))))) (auditFlush_keeps (auditPlate_keeps (Keeps.of_mk h)))

theorem execProofDone_keeps {C M F P : Prop} {s0 s : State} {a1} {a2} (h : Keeps C M F P s0 s) : ∃ t, execProofDone a1 a2 s = .next t ∧ Keeps C M F P s0 t := by
  unfold execProofDone
  try dsimp only
  refine ⟨_, rfl, ?_⟩
  with_reducible exact Keeps.ite h (Keeps.ite (Keeps.ite (loadPassed_keeps (Keeps.of_mk h)) (Keeps.of_mk h)) (Keeps.ite (loadFail_keeps h) (Keeps.of_mk h)))

theorem discardByLoss_keeps {C M F P : Prop} {s0 s : State} (h : Keeps C M F P s0 s) : Keeps C M F P s0 (discardByLoss s) := by
  unfold discardByLoss
  try dsimp only
  with_reducible exact Keeps.ite h (standbyEmpty_keeps (Keeps.ite (auditFlush_keeps (auditPlate_keeps (pltErr_keeps (Keeps.ite (releaseHeld_keeps h) h)))) (auditPlate_keeps (pltErr_keeps (Keeps.ite (releaseHeld_keeps h) h)))))

theorem initRecord_keeps {C F P : Prop} {s0 s : State} {a1} {a2} (h : Keeps C True F P s0 s) : Keeps C True F P s0 (initRecord a1 s a2) := by
  unfold initRecord
  try dsimp only
  with_reducible refine Keeps.ite h ?_
  with_reducible refine Keeps.ite (writeMem_keeps h) ?_
  with_reducible refine Keeps.ite ?_ h
  split
  · with_reducible exact h
  · with_reducible exact keeps_foldl (fun t1 x1 h1 => asuPut_keeps h1) h

theorem keepTables_keeps {C M F P : Prop} {s0 s : State} {a1} {a2} {a3} (h : Keeps C M F P s0 s) : Keeps C M F P s0 (keepTables a1 a2 a3 s) := by
  unfold keepTables
  try dsimp only
  with_reducible exact Keeps.of_mk h

theorem swapBanks_keeps {C F P : Prop} {s0 s : State} {a1} (h : Keeps C True F P s0 s) : Keeps C True F P s0 (swapBanks a1 s) := by
  unfold swapBanks
  try dsimp only
  with_reducible exact pwrTrack_keeps (Keeps.of_mk (syncAssign_keeps (Keeps.of_mk (keeps_foldl (fun t1 x1 h1 => initRecord_keeps h1) (keepTables_keeps (keeps_foldl (fun t1 x1 h1 => Keeps.ite h1 (keeps_foldl (fun t2 x2 h2 => Keeps.ite (dropRun_keeps h2) h2) h1)) h))))))

theorem islPut_keeps {C M F P : Prop} {s0 s : State} {a1} {a2} (h : Keeps C M F P s0 s) : Keeps C M F P s0 (islPut a1 a2 s) := by
  unfold islPut
  try dsimp only
  with_reducible exact Keeps.of_mk h

theorem execSheetSliceEnd_keeps {C M F P : Prop} {s0 s : State} {a1} (h : Keeps C M F P s0 s) : ∃ t, execSheetSliceEnd a1 s = .next t ∧ Keeps C M F P s0 t := by
  unfold execSheetSliceEnd
  try dsimp only
  refine ⟨_, rfl, ?_⟩
  with_reducible exact Keeps.ite (islPut_keeps h) h

end Sys2Proof.Machine
end

