-- ==== Sys2Proof/Laws/KeepSessions.lean ====
section
/-! SUPPORT. What the functions of Machine/Sessions.lean keep (Laws/Keep.lean). -/

namespace Sys2Proof.Machine

theorem rederiveRoles_keeps {C M F P : Prop} {s0 s : State} (h : Keeps C M F P s0 s) : Keeps C M F P s0 (rederiveRoles s) := by
  unfold rederiveRoles
  try dsimp only
  with_reducible exact Keeps.of_mk h

theorem serviceWrite_keeps {C F P : Prop} {s0 s : State} {a1} {a2} (h : Keeps C True F P s0 s) : Keeps C True F P s0 (serviceWrite a1 a2 s) := by
  unfold serviceWrite
  try dsimp only
  with_reducible exact keeps_foldl (fun t1 x1 h1 => Keeps.ite h1 (writeMem_keeps h1)) h

theorem writeReport_keeps {C F P : Prop} {s0 s : State} {a1} {a2} (h : Keeps C True F P s0 s) : Keeps C True F P s0 (writeReport a1 a2 s) := by
  unfold writeReport
  try dsimp only
  with_reducible exact serviceWrite_keeps (takeFree_keeps h)

theorem dropQueue_keeps {C M F P : Prop} {s0 s : State} {a1} {a2} (h : Keeps C M F P s0 s) : Keeps C M F P s0 (dropQueue a1 a2 s) := by
  unfold dropQueue
  try dsimp only
  with_reducible exact keeps_foldl (fun t1 x1 h1 => Keeps.ite (Keeps.of_mk h1) (Keeps.ite h1 (emit_keeps h1))) h

theorem doubtPut_keeps {C M F P : Prop} {s0 s : State} {a1} {a2} (h : Keeps C M F P s0 s) : Keeps C M F P s0 (doubtPut a1 a2 s) := by
  unfold doubtPut
  try dsimp only
  with_reducible exact Keeps.ite h (Keeps.of_mk h)

theorem suspendSession_keeps {C M F P : Prop} {s0 s : State} {a1} {a2} (h : Keeps C M F P s0 s) : Keeps C M F P s0 (suspendSession a1 a2 s) := by
  unfold suspendSession
  try dsimp only
  split
  · with_reducible exact h
  · with_reducible exact Keeps.ite h (Keeps.of_mk (dropQueue_keeps (doubtPut_keeps (sessPut_keeps h))))

theorem guardLapse_keeps {C M F P : Prop} {s0 s : State} {a1} (h : Keeps C M F P s0 s) : Keeps C M F P s0 (guardLapse a1 s) := by
  unfold guardLapse
  try dsimp only
  split
  · with_reducible exact h
  · with_reducible exact regRefuse_keeps (Keeps.of_mk h)

theorem endSession_keeps {C M F P : Prop} {s0 s : State} {a1} (h : Keeps C M F P s0 s) : Keeps C M F P s0 (endSession a1 s) := by
  unfold endSession
  try dsimp only
  split
  · with_reducible exact h
  · with_reducible exact pwrTrack_keeps (dropQueue_keeps (Keeps.of_mk (Keeps.ite (doubtPut_keeps (guardLapse_keeps h)) (audit_keeps (doubtPut_keeps (guardLapse_keeps h))))))

theorem suspendPeer_keeps {C M F P : Prop} {s0 s : State} {a1} {a2} (h : Keeps C M F P s0 s) : Keeps C M F P s0 (suspendPeer a1 a2 s) := by
  unfold suspendPeer
  try dsimp only
  with_reducible exact keeps_foldl (fun t1 x1 h1 => suspendSession_keeps h1) h

theorem suspendLink_keeps {C M F P : Prop} {s0 s : State} {a1} (h : Keeps C M F P s0 s) : Keeps C M F P s0 (suspendLink a1 s) := by
  unfold suspendLink
  try dsimp only
  with_reducible exact keeps_foldl (fun t1 x1 h1 => suspendSession_keeps h1) h

theorem askDoubt_keeps {C M F P : Prop} {s0 s : State} {a1} {a2} {a3} (h : Keeps C M F P s0 s) : Keeps C M F P s0 (askDoubt a1 a2 a3 s) := by
  unfold askDoubt
  try dsimp only
  with_reducible exact keeps_foldl (fun t1 x1 h1 => sendOp_keeps (bump_keeps h1)) h

theorem askFates_keeps {C M F P : Prop} {s0 s : State} {a1} {a2} (h : Keeps C M F P s0 s) : Keeps C M F P s0 (askFates a1 a2 s) := by
  unfold askFates
  try dsimp only
  with_reducible exact keeps_foldl (fun t1 x1 h1 => askDoubt_keeps h1) h

theorem takeQueue_keeps {C M F P : Prop} {s0 s : State} {a1} {a2} (h : Keeps C M F P s0 s) : Keeps C M F P s0 (takeQueue a1 a2 s) := by
  unfold takeQueue
  try dsimp only
  with_reducible exact keeps_foldl (fun t1 x1 h1 => sendOp_keeps h1) (Keeps.of_mk h)

theorem openSess_keeps {C F P : Prop} {s0 s : State} {a1} {a2} {a3} {a4} {a5} {a6} (h : Keeps C True F P s0 s) : Keeps C True F P s0 (openSess a1 a2 a3 a4 a5 a6 s) := by
  unfold openSess
  try dsimp only
  with_reducible exact pwrTrack_keeps (takeQueue_keeps (askFates_keeps (writeReport_keeps (Keeps.ite (sessPut_keeps (Keeps.of_mk h)) (audit_keeps (sessPut_keeps (Keeps.of_mk h)))))))

theorem linkBump_keeps {C M F P : Prop} {s0 s : State} {a1} {a2} (h : Keeps C M F P s0 s) : Keeps C M F P s0 (linkBump a1 a2 s) := by
  unfold linkBump
  try dsimp only
  with_reducible exact bump_keeps h

theorem sendHand_keeps {C M F P : Prop} {s0 s : State} {a1} {a2} {a3} {a4} (h : Keeps C M F P s0 s) : Keeps C M F P s0 (sendHand a1 a2 a3 a4 s) := by
  unfold sendHand
  try dsimp only
  with_reducible exact emitOn_keeps h

theorem answerHello_keeps {C M F P : Prop} {s0 s : State} {a1} {a2} {a3} (h : Keeps C M F P s0 s) : Keeps C M F P s0 (answerHello a1 a2 a3 s) := by
  unfold answerHello
  try dsimp only
  with_reducible exact Keeps.ite h (Keeps.ite (sendHand_keeps h) (sendHand_keeps (Keeps.of_mk_all h id id id id id id (Nat.le_refl _) id (FusesKept.refl _) (List.prefix_refl _) (Nat.le_succ _) (.inr ⟨rfl, rfl⟩) (.inr rfl) (.inr rfl))))

theorem execHello_keeps {C M F P : Prop} {s0 s : State} {a1} {a2} {a3} (h : Keeps C M F P s0 s) : ∃ t, execHello a1 a2 a3 s = .next t ∧ Keeps C M F P s0 t := by
  unfold execHello
  try dsimp only
  refine ⟨_, rfl, ?_⟩
  with_reducible refine Keeps.ite h ?_
  with_reducible refine Keeps.ite (linkBump_keeps h) ?_
  split
  · with_reducible exact linkBump_keeps (Keeps.of_mk h)
  · with_reducible exact Keeps.ite (linkBump_keeps (Keeps.of_mk h)) (answerHello_keeps (Keeps.of_mk h))

theorem execHelloReply_keeps {C F P : Prop} {s0 s : State} {a1} {a2} {a3} (h : Keeps C True F P s0 s) : ∃ t, execHelloReply a1 a2 a3 s = .next t ∧ Keeps C True F P s0 t := by
  unfold execHelloReply
  try dsimp only
  refine ⟨_, rfl, ?_⟩
  with_reducible refine Keeps.ite h ?_
  split
  · with_reducible exact linkBump_keeps h
  · with_reducible refine Keeps.ite (linkBump_keeps h) ?_
    split
    · with_reducible exact linkBump_keeps h
    · with_reducible exact Keeps.ite (linkBump_keeps h) (Keeps.ite (Keeps.of_mk h) (openSess_keeps (sendHand_keeps (Keeps.of_mk_all h id id id id id id (Nat.le_refl _) id (FusesKept.refl _) (List.prefix_refl _) (Nat.le_succ _) (.inl trivial) (.inr rfl) (.inr rfl)))))

theorem execReject_keeps {C M F P : Prop} {s0 s : State} {a1} {a2} {a3} (h : Keeps C M F P s0 s) : ∃ t, execReject a1 a2 a3 s = .next t ∧ Keeps C M F P s0 t := by
  unfold execReject
  try dsimp only
  refine ⟨_, rfl, ?_⟩
  with_reducible refine Keeps.ite h ?_
  split
  · with_reducible exact Keeps.ite (Keeps.of_mk h) (linkBump_keeps h)
  · with_reducible exact linkBump_keeps h

theorem execSessionRetry_keeps {C M F P : Prop} {s0 s : State} {a1} (h : Keeps C M F P s0 s) : ∃ t, execSessionRetry a1 s = .next t ∧ Keeps C M F P s0 t := by
  unfold execSessionRetry
  try dsimp only
  refine ⟨_, rfl, ?_⟩
  with_reducible refine Keeps.ite h ?_
  split
  · with_reducible exact h
  · with_reducible exact sendHand_keeps (Keeps.of_mk h)

theorem quarantine_keeps {C M F P : Prop} {s0 s : State} {a1} (h : Keeps C M F P s0 s) : Keeps C M F P s0 (quarantine a1 s) := by
  unfold quarantine
  try dsimp only
  with_reducible exact alert_keeps (audit_keeps (keeps_foldl (fun t1 x1 h1 => emit_keeps h1) (Keeps.of_mk (suspendPeer_keeps (rset_keeps h)))))

theorem malformedFrame_keeps {C M F P : Prop} {s0 s : State} {a1} (h : Keeps C M F P s0 s) : Keeps C M F P s0 (malformedFrame a1 s) := by
  unfold malformedFrame
  try dsimp only
  with_reducible exact Keeps.ite (quarantine_keeps (bump_keeps (Keeps.of_mk h))) (bump_keeps (Keeps.of_mk h))

theorem frameIn_keeps {C M F P : Prop} {s0 s : State} {a1} {a2} (h : Keeps C M F P s0 s) : Keeps C M F P s0 (frameIn a1 a2 s).2 := by
  unfold frameIn
  try dsimp only
  with_reducible refine Keeps.ite2 h ?_
  with_reducible refine Keeps.ite2 (linkBump_keeps h) ?_
  split
  · with_reducible exact linkBump_keeps (Keeps.ite (linkBump_keeps h) h)
  · with_reducible exact Keeps.ite2 (linkBump_keeps (Keeps.ite (linkBump_keeps h) h)) (Keeps.ite2 (linkBump_keeps (Keeps.ite (linkBump_keeps h) h)) (Keeps.ite2 (linkBump_keeps (Keeps.ite (linkBump_keeps h) h)) (Keeps.ite2 (sessPut_keeps (Keeps.ite (linkBump_keeps h) h)) (malformedFrame_keeps (sessPut_keeps (Keeps.ite (linkBump_keeps h) h))))))

theorem execAck_keeps {C M F P : Prop} {s0 s : State} {a1} (h : Keeps C M F P s0 s) : ∃ t, execAck a1 s = .next t ∧ Keeps C M F P s0 t := by
  unfold execAck
  try dsimp only
  refine ⟨_, rfl, ?_⟩
  split
  · with_reducible exact keeps_of_eq2 (by assumption) (frameIn_keeps h)
  · with_reducible exact Keeps.ite (malformedFrame_keeps (keeps_of_eq2 (by assumption) (frameIn_keeps h))) (pumpSession_keeps (sessPut_keeps (keeps_of_eq2 (by assumption) (frameIn_keeps h))))

theorem plainFrame_keeps {C M F P : Prop} {s0 s : State} {a1} {a2} {a3} (hf3 : ∀ x1 x2 t, Keeps C M F P s0 t → Keeps C M F P s0 (a3 x1 x2 t)) (h : Keeps C M F P s0 s) : Keeps C M F P s0 (plainFrame a1 a2 a3 s) := by
  unfold plainFrame
  try dsimp only
  split
  · with_reducible exact keeps_of_eq2 (by assumption) (frameIn_keeps h)
  · split
    · with_reducible exact Keeps.ite (malformedFrame_keeps (keeps_of_eq2 (by assumption) (frameIn_keeps h))) (hf3 _ _ _ (sessPut_keeps (keeps_of_eq2 (by assumption) (frameIn_keeps h))))
    · with_reducible exact Keeps.ite (malformedFrame_keeps (keeps_of_eq2 (by assumption) (frameIn_keeps h))) (hf3 _ _ _ (keeps_of_eq2 (by assumption) (frameIn_keeps h)))

theorem execProbe_keeps {C M F P : Prop} {s0 s : State} {a1} (h : Keeps C M F P s0 s) : ∃ t, execProbe a1 s = .next t ∧ Keeps C M F P s0 t := by
  unfold execProbe
  try dsimp only
  refine ⟨_, rfl, ?_⟩
  with_reducible exact plainFrame_keeps (fun x1 x2 t1 h1 => bump_keeps (sendHand_keeps h1)) h

theorem execProbeReply_keeps {C M F P : Prop} {s0 s : State} {a1} (h : Keeps C M F P s0 s) : ∃ t, execProbeReply a1 s = .next t ∧ Keeps C M F P s0 t := by
  unfold execProbeReply
  try dsimp only
  refine ⟨_, rfl, ?_⟩
  with_reducible exact plainFrame_keeps (fun x1 x2 t1 h1 => h1) h

theorem execClose_keeps {C M F P : Prop} {s0 s : State} {a1} (h : Keeps C M F P s0 s) : ∃ t, execClose a1 s = .next t ∧ Keeps C M F P s0 t := by
  unfold execClose
  try dsimp only
  refine ⟨_, rfl, ?_⟩
  with_reducible exact plainFrame_keeps (fun x1 x2 t1 h1 => endSession_keeps h1) h

theorem execConfirm_keeps {C F P : Prop} {s0 s : State} {a1} (h : Keeps C True F P s0 s) : ∃ t, execConfirm a1 s = .next t ∧ Keeps C True F P s0 t := by
  unfold execConfirm
  try dsimp only
  refine ⟨_, rfl, ?_⟩
  with_reducible refine Keeps.ite h ?_
  with_reducible refine Keeps.ite (linkBump_keeps h) ?_
  split
  · with_reducible exact linkBump_keeps h
  · with_reducible exact Keeps.ite (linkBump_keeps h) (Keeps.ite (linkBump_keeps h) (Keeps.ite (malformedFrame_keeps h) (Keeps.ite (Keeps.of_mk h) (sessMod_keeps (openSess_keeps (Keeps.of_mk h))))))

theorem execRetransmitTimeout_keeps {C M F P : Prop} {s0 s : State} {a1} {a2} (h : Keeps C M F P s0 s) : ∃ t, execRetransmitTimeout a1 a2 s = .next t ∧ Keeps C M F P s0 t := by
  unfold execRetransmitTimeout
  try dsimp only
  refine ⟨_, rfl, ?_⟩
  split
  · with_reducible exact h
  · split
    · with_reducible exact h
    · with_reducible exact Keeps.ite h (bump_keeps (bump_keeps (emitOn_keeps (sessPut_keeps h))))

theorem execProbeTimer_keeps {C M F P : Prop} {s0 s : State} {a1} (h : Keeps C M F P s0 s) : ∃ t, execProbeTimer a1 s = .next t ∧ Keeps C M F P s0 t := by
  unfold execProbeTimer
  try dsimp only
  refine ⟨_, rfl, ?_⟩
  split
  · with_reducible exact h
  · split
    · with_reducible exact h
    · with_reducible exact bump_keeps (sendHand_keeps h)

theorem auditRecovery_keeps {C M F P : Prop} {s0 s : State} {a1} {a2} {a3} {a4} (h : Keeps C M F P s0 s) : Keeps C M F P s0 (auditRecovery a1 a2 a3 a4 s) := by
  unfold auditRecovery
  try dsimp only
  with_reducible exact audit_keeps h

theorem dropPeerQueue_keeps {C M F P : Prop} {s0 s : State} {a1} (h : Keeps C M F P s0 s) : Keeps C M F P s0 (dropPeerQueue a1 s) := by
  unfold dropPeerQueue
  try dsimp only
  with_reducible exact keeps_foldl (fun t1 x1 h1 => emit_keeps h1) (Keeps.of_mk h)

theorem execPeerDown_keeps {C M F P : Prop} {s0 s : State} {a1} (h : Keeps C M F P s0 s) : ∃ t, execPeerDown a1 s = .next t ∧ Keeps C M F P s0 t := by
  unfold execPeerDown
  try dsimp only
  refine ⟨_, rfl, ?_⟩
  with_reducible exact Keeps.ite (Keeps.ite (dropPeerQueue_keeps h) h) (auditRecovery_keeps (bump_keeps (suspendPeer_keeps h)))

theorem execFateHoldExpired_keeps {C M F P : Prop} {s0 s : State} {a1} (h : Keeps C M F P s0 s) : ∃ t, execFateHoldExpired a1 s = .next t ∧ Keeps C M F P s0 t := by
  unfold execFateHoldExpired
  try dsimp only
  refine ⟨_, rfl, ?_⟩
  with_reducible exact keeps_foldl (fun t1 x1 h1 => runOpDone_keeps (emit_keeps h1)) (Keeps.of_mk (keeps_foldl (fun t1 x1 h1 => keeps_foldl (fun t2 x2 h2 => runOpDone_keeps (emit_keeps h2)) h1) (Keeps.of_mk h)))

theorem execHelloIntervalEnd_keeps {C M F P : Prop} {s0 s : State} (h : Keeps C M F P s0 s) : ∃ t, execHelloIntervalEnd s = .next t ∧ Keeps C M F P s0 t := by
  unfold execHelloIntervalEnd
  try dsimp only
  refine ⟨_, rfl, ?_⟩
  with_reducible exact Keeps.of_mk h

theorem execQuarIntervalEnd_keeps {C M F P : Prop} {s0 s : State} (h : Keeps C M F P s0 s) : ∃ t, execQuarIntervalEnd s = .next t ∧ Keeps C M F P s0 t := by
  unfold execQuarIntervalEnd
  try dsimp only
  refine ⟨_, rfl, ?_⟩
  with_reducible exact Keeps.of_mk h

theorem execLinkUp_keeps {C M F P : Prop} {s0 s : State} {a1} (h : Keeps C M F P s0 s) : ∃ t, execLinkUp a1 s = .next t ∧ Keeps C M F P s0 t := by
  unfold execLinkUp
  try dsimp only
  refine ⟨_, rfl, ?_⟩
  with_reducible exact Keeps.ite (Keeps.of_mk h) h

theorem execFabricLinkDown_keeps {C M F P : Prop} {s0 s : State} {a1} (h : Keeps C M F P s0 s) : ∃ t, execFabricLinkDown a1 s = .next t ∧ Keeps C M F P s0 t := by
  unfold execFabricLinkDown
  try dsimp only
  refine ⟨_, rfl, ?_⟩
  with_reducible exact Keeps.ite h (auditRecovery_keeps (suspendLink_keeps (Keeps.of_mk h)))

theorem execPauseFrame_keeps {C M F P : Prop} {s0 s : State} {a1} {a2} {a3} (h : Keeps C M F P s0 s) : ∃ t, execPauseFrame a1 a2 a3 s = .next t ∧ Keeps C M F P s0 t := by
  unfold execPauseFrame
  try dsimp only
  refine ⟨_, rfl, ?_⟩
  with_reducible exact Keeps.ite h (Keeps.ite (linkBump_keeps h) (Keeps.ite (Keeps.of_mk h) (keeps_foldl (fun t1 x1 h1 => Keeps.ite (pumpSession_keeps h1) h1) (Keeps.of_mk h))))

theorem execNeighbourSolicitation_keeps {C M F P : Prop} {s0 s : State} {a1} {a2} (h : Keeps C M F P s0 s) : ∃ t, execNeighbourSolicitation a1 a2 s = .next t ∧ Keeps C M F P s0 t := by
  unfold execNeighbourSolicitation
  try dsimp only
  refine ⟨_, rfl, ?_⟩
  with_reducible exact Keeps.ite h (Keeps.ite (emit_keeps h) (linkBump_keeps h))

theorem execArpRequest_keeps {C M F P : Prop} {s0 s : State} {a1} {a2} (h : Keeps C M F P s0 s) : ∃ t, execArpRequest a1 a2 s = .next t ∧ Keeps C M F P s0 t := by
  unfold execArpRequest
  try dsimp only
  refine ⟨_, rfl, ?_⟩
  with_reducible exact Keeps.ite h (Keeps.ite (emit_keeps h) (linkBump_keeps h))

end Sys2Proof.Machine
end

