-- ==== Sys2Proof/Laws/KeepRecovery.lean ====
section
/-! SUPPORT. What the functions of Machine/Recovery.lean keep (Laws/Keep.lean). -/

namespace Sys2Proof.Machine

theorem beginRecovery_keeps {C M F P : Prop} {s0 s : State} (h : Keeps C M F P s0 s) : Keeps C M F P s0 (beginRecovery s) := by
  unfold beginRecovery
  try dsimp only
  with_reducible exact Keeps.ite (alert_keeps (Keeps.of_mk h)) (fiSuspend_keeps (alert_keeps (Keeps.of_mk h)))

theorem endRecovery_keeps {C M F P : Prop} {s0 s : State} (h : Keeps C M F P s0 s) : Keeps C M F P s0 (endRecovery s) := by
  unfold endRecovery
  try dsimp only
  with_reducible exact waitersTest_keeps (fiResume_keeps (alert_keeps (Keeps.of_mk (rset_keeps (rset_keeps h)))))

theorem replayChans_keeps {C M F P : Prop} {s0 s : State} {a1} (h : Keeps C M F P s0 s) : Keeps C M F P s0 (replayChans a1 s) := by
  unfold replayChans
  try dsimp only
  with_reducible exact bump_keeps (Keeps.of_mk h)

theorem reassign_keeps {C M F P : Prop} {s0 s : State} {a1} {a2} {a3} (h : Keeps C M F P s0 s) : Keeps C M F P s0 (reassign a1 a2 a3 s) := by
  unfold reassign
  try dsimp only
  with_reducible exact bump_keeps (objPut_keeps (Keeps.of_mk h))

theorem clearReefs_keeps {C M F P : Prop} {s0 s : State} {a1} (h : Keeps C M F P s0 s) : Keeps C M F P s0 (clearReefs a1 s) := by
  unfold clearReefs
  try dsimp only
  with_reducible exact Keeps.of_mk h

theorem resync_keeps {C M F P : Prop} {s0 s : State} {a1} {a2} {a3} (h : Keeps C M F P s0 s) : Keeps C M F P s0 (resync a1 a2 a3 s) := by
  unfold resync
  try dsimp only
  with_reducible exact Keeps.of_mk (keeps_foldl (fun t1 x1 h1 => reassign_keeps h1) h)

theorem dropChan_keeps {C M F P : Prop} {s0 s : State} {a1} (h : Keeps C M F P s0 s) : Keeps C M F P s0 (dropChan s a1) := by
  unfold dropChan
  try dsimp only
  with_reducible exact keeps_foldl (fun t1 x1 h1 => Keeps.ite (dropRun_keeps h1) h1) h

theorem dropGroup_keeps {C M F P : Prop} {s0 s : State} {a1} (h : Keeps C M F P s0 s) : Keeps C M F P s0 (dropGroup a1 s) := by
  unfold dropGroup
  try dsimp only
  with_reducible refine bump_keeps ?_
  split
  · with_reducible exact resync_keeps (clearReefs_keeps (keeps_foldl (fun t1 x1 h1 => dropChan_keeps h1) h))
  · with_reducible exact clearReefs_keeps (keeps_foldl (fun t1 x1 h1 => dropChan_keeps h1) h)

theorem pauseChan_keeps {C M F P : Prop} {s0 s : State} {a1} (h : Keeps C M F P s0 s) : Keeps C M F P s0 (pauseChan s a1) := by
  unfold pauseChan
  try dsimp only
  with_reducible exact Keeps.ite (chanPut_keeps (Keeps.of_mk h)) (Keeps.ite (chanPut_keeps (Keeps.of_mk h)) (Keeps.of_mk h))

theorem restartGroup_keeps {C M F P : Prop} {s0 s : State} {a1} (h : Keeps C M F P s0 s) : Keeps C M F P s0 (restartGroup s a1) := by
  unfold restartGroup
  try dsimp only
  with_reducible exact Keeps.ite (keeps_foldl (fun t1 x1 h1 => pauseChan_keeps h1) h) (replayChans_keeps (dropGroup_keeps h))

theorem freezeGroup_keeps {C M F P : Prop} {s0 s : State} {a1} (h : Keeps C M F P s0 s) : Keeps C M F P s0 (freezeGroup s a1) := by
  unfold freezeGroup
  try dsimp only
  with_reducible exact Keeps.ite (keeps_foldl (fun t1 x1 h1 => pauseChan_keeps h1) h) (Keeps.of_mk (dropGroup_keeps h))

theorem mirrorRebuilt_keeps {C F P : Prop} {s0 s : State} {a1} (h : Keeps C True F P s0 s) : Keeps C True F P s0 (mirrorRebuilt a1 s) := by
  unfold mirrorRebuilt
  try dsimp only
  split
  · with_reducible exact h
  · with_reducible exact chanPut_keeps (writeMem_keeps h)

theorem domainsOff_keeps {C M F P : Prop} {s0 s : State} {a1} (h : Keeps C M F P s0 s) : Keeps C M F P s0 (domainsOff a1 s) := by
  unfold domainsOff
  try dsimp only
  with_reducible exact Keeps.of_mk h

theorem loseTables_keeps {C M F P : Prop} {s0 s : State} (h : Keeps C M F P s0 s) : Keeps C M F P s0 (loseTables s) := by
  unfold loseTables
  try dsimp only
  split
  · with_reducible exact h
  · with_reducible exact keeps_foldl (fun t1 x1 h1 => Keeps.ite (embPut_keeps h1) h1) h

theorem pauseGroups_keeps {C M F P : Prop} {s0 s : State} {a1} {a2} (h : Keeps C M F P s0 s) : Keeps C M F P s0 (pauseGroups a1 a2 s) := by
  unfold pauseGroups
  try dsimp only
  with_reducible exact Keeps.ite (Keeps.of_mk (keeps_foldl (fun t1 x1 h1 => keeps_foldl (fun t2 x2 h2 => pauseChan_keeps h2) h1) h)) (keeps_foldl (fun t1 x1 h1 => keeps_foldl (fun t2 x2 h2 => pauseChan_keeps h2) h1) h)

theorem islandGroups_keeps {C M F P : Prop} {s0 s : State} {a1} (h : Keeps C M F P s0 s) : Keeps C M F P s0 (islandGroups a1 s) := by
  unfold islandGroups
  try dsimp only
  with_reducible exact Keeps.ite h (Keeps.ite (pauseGroups_keeps h) (Keeps.of_mk (keeps_foldl (fun t1 x1 h1 => freezeGroup_keeps h1) h)))

theorem islandLost_keeps {C M F P : Prop} {s0 s : State} {a1} (h : Keeps C M F P s0 s) : Keeps C M F P s0 (islandLost a1 s) := by
  unfold islandLost
  try dsimp only
  with_reducible exact Keeps.ite h (pwrTrack_keeps (islandGroups_keeps (discardByLoss_keeps (fiLostCheck_keeps (Keeps.of_mk (clearReefs_keeps (loseTables_keeps (domainsOff_keeps (Keeps.of_mk (auditRecovery_keeps (beginRecovery_keeps (Keeps.of_mk h))))))))))))

theorem stackLost_keeps {C M F P : Prop} {s0 s : State} {a1} (h : Keeps C M F P s0 s) : Keeps C M F P s0 (stackLost a1 s) := by
  unfold stackLost
  try dsimp only
  with_reducible exact Keeps.ite h (islandLost_keeps (intRecord_keeps h))

theorem fallbackSwitch_keeps {C M F P : Prop} {s0 s : State} {a1} (h : Keeps C M F P s0 s) : Keeps C M F P s0 (fallbackSwitch a1 s) := by
  unfold fallbackSwitch
  try dsimp only
  split
  · with_reducible exact Keeps.ite (Keeps.of_mk (keeps_foldl (fun t1 x1 h1 => pauseChan_keeps h1) h)) (replayChans_keeps (keeps_foldl (fun t1 x1 h1 => pauseChan_keeps h1) (resync_keeps (clearReefs_keeps (Keeps.of_mk h)))))
  · with_reducible exact h

theorem reroute_keeps {C M F P : Prop} {s0 s : State} {a1} (h : Keeps C M F P s0 s) : Keeps C M F P s0 (reroute a1 s) := by
  unfold reroute
  try dsimp only
  with_reducible refine keeps_foldl ?_ h
  intro t1 x1 h1
  with_reducible refine keeps_foldl ?_ h1
  intro t2 x2 h2
  split
  · with_reducible exact h2
  · with_reducible exact keeps_foldl (fun t3 x3 h3 => emit_keeps h3) (Keeps.of_mk h2)

theorem straitLinkLost_keeps {C M F P : Prop} {s0 s : State} {a1} (h : Keeps C M F P s0 s) : Keeps C M F P s0 (straitLinkLost a1 s) := by
  unfold straitLinkLost
  try dsimp only
  with_reducible exact Keeps.ite h (fiLostCheck_keeps (reroute_keeps (auditRecovery_keeps (beginRecovery_keeps (Keeps.of_mk h)))))

theorem straitDieLost_keeps {C M F P : Prop} {s0 s : State} {a1} (h : Keeps C M F P s0 s) : Keeps C M F P s0 (straitDieLost a1 s) := by
  unfold straitDieLost
  try dsimp only
  with_reducible exact Keeps.ite h (keeps_foldl (fun t1 x1 h1 => restartGroup_keeps h1) (fiLostCheck_keeps (reroute_keeps (domainsOff_keeps (auditRecovery_keeps (beginRecovery_keeps (Keeps.of_mk h)))))))

theorem linksDown_keeps {C M F P : Prop} {s0 s : State} {a1} (h : Keeps C M F P s0 s) : Keeps C M F P s0 (linksDown a1 s) := by
  unfold linksDown
  try dsimp only
  with_reducible exact keeps_foldl (fun t1 x1 h1 => suspendLink_keeps (Keeps.of_mk h1)) h

theorem harbourGone_keeps {C M F P : Prop} {s0 s : State} {a1} (h : Keeps C M F P s0 s) : Keeps C M F P s0 (harbourGone a1 s) := by
  unfold harbourGone
  try dsimp only
  with_reducible exact Keeps.ite h (pwrTrack_keeps (fiLostCheck_keeps (linksDown_keeps (domainsOff_keeps (auditRecovery_keeps (beginRecovery_keeps (Keeps.of_mk h)))))))

theorem capeGone_keeps {C M F P : Prop} {s0 s : State} (h : Keeps C M F P s0 s) : Keeps C M F P s0 (capeGone s) := by
  unfold capeGone
  try dsimp only
  with_reducible exact Keeps.ite h (Keeps.ite (endRecovery_keeps (fallbackSwitch_keeps (fiLostCheck_keeps (linksDown_keeps (domainsOff_keeps (auditRecovery_keeps (beginRecovery_keeps (Keeps.of_mk h)))))))) (fallbackSwitch_keeps (fiLostCheck_keeps (linksDown_keeps (domainsOff_keeps (auditRecovery_keeps (beginRecovery_keeps (Keeps.of_mk h))))))))

theorem hbmClockLost_keeps {C M F P : Prop} {s0 s : State} {a1} (h : Keeps C M F P s0 s) : Keeps C M F P s0 (hbmClockLost a1 s) := by
  unfold hbmClockLost
  try dsimp only
  with_reducible exact keeps_foldl (fun t1 x1 h1 => stackLost_keeps h1) (alert_keeps (Keeps.of_mk h))

theorem ethClockLost_keeps {C M F P : Prop} {s0 s : State} {a1} (h : Keeps C M F P s0 s) : Keeps C M F P s0 (ethClockLost a1 s) := by
  unfold ethClockLost
  try dsimp only
  with_reducible exact Keeps.ite h (linksDown_keeps (keeps_foldl (fun t1 x1 h1 => auditRecovery_keeps h1) (Keeps.of_mk h)))

theorem ethClockReturn_keeps {C M F P : Prop} {s0 s : State} {a1} (h : Keeps C M F P s0 s) : Keeps C M F P s0 (ethClockReturn a1 s) := by
  unfold ethClockReturn
  try dsimp only
  with_reducible exact Keeps.of_mk h

theorem asuReload_keeps {C M F P : Prop} {s0 s : State} {a1} (h : Keeps C M F P s0 s) : Keeps C M F P s0 (asuReload a1 s) := by
  unfold asuReload
  try dsimp only
  split
  · with_reducible exact h
  · with_reducible exact keeps_foldl (fun t1 x1 h1 => keeps_foldl (fun t2 x2 h2 => Keeps.ite h2 (Keeps.ite (asuLose_keeps h2) (Keeps.of_mk h2))) h1) h

theorem resetIsland_keeps {C M F P : Prop} {s0 s : State} {a1} (h : Keeps C M F P s0 s) : Keeps C M F P s0 (resetIsland a1 s) := by
  unfold resetIsland
  try dsimp only
  with_reducible exact asuReload_keeps (Keeps.of_mk (clearReefs_keeps h))

theorem deviceWarm_keeps {C M F P : Prop} {s0 s : State} {a1} (h : Keeps C M F P s0 s) : Keeps C M F P s0 (deviceWarm a1 s) := by
  unfold deviceWarm
  try dsimp only
  with_reducible exact Keeps.of_mk (linksDown_keeps (asuReload_keeps (Keeps.of_mk (clearReefs_keeps (keeps_foldl (fun t1 x1 h1 => freezeGroup_keeps h1) (keeps_foldl (fun t1 x1 h1 => endSession_keeps h1) (fiReset_keeps (auditRecovery_keeps (beginRecovery_keeps (Keeps.of_mk h))))))))))

theorem rcvReset_keeps {C M F P : Prop} {s0 s : State} {a1} {a2} (h : Keeps C M F P s0 s) : Keeps C M F P s0 (rcvReset a1 a2 s) := by
  unfold rcvReset
  try dsimp only
  split
  · with_reducible exact restartGroup_keeps (auditRecovery_keeps (beginRecovery_keeps h))
  · with_reducible exact keeps_foldl (fun t1 x1 h1 => restartGroup_keeps h1) (resetIsland_keeps (auditRecovery_keeps (beginRecovery_keeps h)))
  · with_reducible exact linksDown_keeps (auditRecovery_keeps (beginRecovery_keeps h))

theorem rcvDo_keeps {C M F P : Prop} {s0 s : State} {a1} {a2} (h : Keeps C M F P s0 s) : Keeps C M F P s0 (rcvDo a1 a2 s) := by
  unfold rcvDo
  try dsimp only
  with_reducible exact Keeps.ite (deviceWarm_keeps h) (rcvReset_keeps h)

theorem warmPin_keeps {C M F P : Prop} {s0 s : State} (h : Keeps C M F P s0 s) : Keeps C M F P s0 (warmPin s) := by
  unfold warmPin
  try dsimp only
  with_reducible exact Keeps.ite h (Keeps.ite (Keeps.of_mk h) (deviceWarm_keeps h))

theorem recoveryComplete_keeps {C M F P : Prop} {s0 s : State} (h : Keeps C M F P s0 s) : Keeps C M F P s0 (recoveryComplete s) := by
  unfold recoveryComplete
  try dsimp only
  with_reducible exact Keeps.ite h (Keeps.ite (deviceWarm_keeps (endRecovery_keeps h)) (endRecovery_keeps h))

end Sys2Proof.Machine
end

