-- ==== Sys2Proof/Laws/KeepRegWrite.lean ====
section
/-! SUPPORT. What the functions of Machine/RegWrite.lean keep (Laws/Keep.lean). -/

namespace Sys2Proof.Machine

theorem fiOn_keeps {C M F P : Prop} {s0 s : State} {a1} {a2} (h : Keeps C M F P s0 s) : Keeps C M F P s0 (fiOn a1 a2 s) := by
  unfold fiOn
  try dsimp only
  with_reducible exact Keeps.ite (bump_keeps (fiPut_keeps (fiMark_keeps (fiAudit_keeps h)))) (fiPut_keeps (fiMark_keeps (fiAudit_keeps h)))

theorem fiOff_keeps {C M F P : Prop} {s0 s : State} {a1} {a2} (h : Keeps C M F P s0 s) : Keeps C M F P s0 (fiOff a1 a2 s) := by
  unfold fiOff
  try dsimp only
  with_reducible exact fiPut_keeps (fiRelease_keeps (fiMark_keeps (fiAudit_keeps h)))

theorem fiErr_keeps {C M F P : Prop} {s0 s : State} {a1} (h : Keeps C M F P s0 s) : Keeps C M F P s0 (fiErr a1 s) := by
  unfold fiErr
  try dsimp only
  with_reducible exact rset_keeps h

theorem fiEnable_keeps {C M F P : Prop} {s0 s : State} {a1} {a2} (h : Keeps C M F P s0 s) : Keeps C M F P s0 (fiEnable a1 a2 s).2 := by
  unfold fiEnable
  try dsimp only
  with_reducible refine keeps_foldl2 ?_ h
  intro x1 x2 h1
  with_reducible refine Keeps.ite2 ?_ (Keeps.ite2 (fiOff_keeps h1) h1)
  split
  · with_reducible exact fiOn_keeps h1
  · with_reducible exact Keeps.ite2 (fiErr_keeps h1) h1

theorem shadowStart_keeps {C M F P : Prop} {s0 s : State} {a1} (h : Keeps C M F P s0 s) : Keeps C M F P s0 (shadowStart a1 s) := by
  unfold shadowStart
  try dsimp only
  with_reducible exact Keeps.ite h (Keeps.of_mk h)

theorem shadowWrite_keeps {C M F P : Prop} {s0 s : State} {a1} {a2} (h : Keeps C M F P s0 s) : Keeps C M F P s0 (shadowWrite a1 a2 s) := by
  unfold shadowWrite
  try dsimp only
  with_reducible exact Keeps.of_mk (shadowStart_keeps h)

theorem shadowCommit_keeps {C M F P : Prop} {s0 s : State} {a1} {a2} (h : Keeps C M F P s0 s) : Keeps C M F P s0 (shadowCommit a1 a2 s) := by
  unfold shadowCommit
  try dsimp only
  with_reducible exact rset_keeps (keeps_foldl (fun t1 x1 h1 => Keeps.of_mk (Keeps.ite h1 (rset_keeps h1))) h)

theorem bankMod_keeps {C M F P : Prop} {s0 s : State} {a1} {a2} (h : Keeps C M F P s0 s) : Keeps C M F P s0 (bankMod a1 a2 s) := by
  unfold bankMod
  try dsimp only
  with_reducible exact Keeps.of_mk h

theorem snapCut_keeps {C M F P : Prop} {s0 s : State} {a1} (h : Keeps C M F P s0 s) : Keeps C M F P s0 (snapCut a1 s) := by
  unfold snapCut
  try dsimp only
  with_reducible exact emit_keeps (bankMod_keeps (Keeps.of_mk h))

theorem snapLost_keeps {C M F P : Prop} {s0 s : State} {a1} (h : Keeps C M F P s0 s) : Keeps C M F P s0 (snapLost a1 s) := by
  unfold snapLost
  try dsimp only
  with_reducible exact bankMod_keeps h

theorem snapStart_keeps {C M F P : Prop} {s0 s : State} (h : Keeps C M F P s0 s) : Keeps C M F P s0 (snapStart s) := by
  unfold snapStart
  try dsimp only
  with_reducible exact Keeps.ite (emit_keeps (Keeps.of_mk h)) (snapCut_keeps (Keeps.of_mk h))

theorem snapMarker_keeps {C M F P : Prop} {s0 s : State} {a1} (h : Keeps C M F P s0 s) : Keeps C M F P s0 (snapMarker a1 s) := by
  unfold snapMarker
  try dsimp only
  with_reducible exact Keeps.ite h (snapCut_keeps h)

theorem snapDone_keeps {C M F P : Prop} {s0 s : State} (h : Keeps C M F P s0 s) : Keeps C M F P s0 (snapDone s) := by
  unfold snapDone
  try dsimp only
  with_reducible exact Keeps.ite h (Keeps.of_mk (keeps_foldl (fun t1 x1 h1 => snapLost_keeps h1) h))

theorem auditCmd_keeps {C M F P : Prop} {s0 s : State} {a1} (h : Keeps C M F P s0 s) : Keeps C M F P s0 (auditCmd a1 s) := by
  unfold auditCmd
  try dsimp only
  with_reducible exact Keeps.ite (Keeps.ite h (bump_keeps h)) (Keeps.ite (auditFlush_keeps (Keeps.ite (auditPeriodic_keeps (auditCheckpoint_keeps (rset_keeps h))) (rset_keeps h))) (Keeps.ite (auditPeriodic_keeps (auditCheckpoint_keeps (rset_keeps h))) (rset_keeps h)))

theorem noteFi_keeps {C M F P : Prop} {s0 s : State} {a1} {a2} (h : Keeps C M F P s0 s) : Keeps C M F P s0 (noteFi a1 a2 s) := by
  unfold noteFi
  try dsimp only
  with_reducible exact Keeps.ite (fiErr_keeps h) h

theorem regSet_keeps {C M F P : Prop} {s0 s : State} {a1} {a2} (h : Keeps C M F P s0 s) : Keeps C M F P s0 (regSet a1 a2 s) := by
  unfold regSet
  try dsimp only
  with_reducible exact Keeps.ite (pwrTrack_keeps (alertEdge_keeps (rset_keeps h))) (alertEdge_keeps (rset_keeps h))

theorem wordDo_keeps {C M F P : Prop} {s0 s : State} {a1} {a2} {a3} {a4} {a5} (h : Keeps C M F P s0 s) : Keeps C M F P s0 (wordDo a1 a2 a3 a4 a5 s) := by
  unfold wordDo
  try dsimp only
  with_reducible exact Keeps.ite (Keeps.ite (snapStart_keeps h) h) (Keeps.ite (pltDo_keeps h) (Keeps.ite (auditCmd_keeps h) (Keeps.ite (Keeps.ite h (shadowWrite_keeps h)) (Keeps.ite h (regSet_keeps h)))))

theorem guardDo_keeps {C M F P : Prop} {s0 s : State} {a1} {a2} {a3} {a4} (h : Keeps C M F P s0 s) : Keeps C M F P s0 (guardDo a1 a2 a3 a4 s).2 := by
  unfold guardDo
  try dsimp only
  with_reducible exact Keeps.ite2 (pltGuardDo_keeps h) (Keeps.ite2 (rcvDo_keeps h) (Keeps.ite2 (fiEnable_keeps h) (Keeps.ite2 (shadowCommit_keeps h) (Keeps.ite2 (waitersTest_keeps (rset_keeps h)) (Keeps.ite2 (pwrTrack_keeps (rset_keeps h)) (rset_keeps h))))))

theorem setCounter_keeps {C M F P : Prop} {s0 s : State} {a1} {a2} (h : Keeps C M F P s0 s) : Keeps C M F P s0 (setCounter a1 a2 s) := by
  unfold setCounter
  try dsimp only
  with_reducible exact Keeps.of_mk_all h id id id id (mset_wf _ _) id (Nat.le_refl _) id (FusesKept.refl _) (List.prefix_refl _) (Nat.le_refl _) (.inr ⟨rfl, rfl⟩) (.inr rfl) (.inr rfl)

theorem counterWord4_keeps {C M F P : Prop} {s0 s : State} {a1} {a2} (h : Keeps C M F P s0 s) : Keeps C M F P s0 (counterWord4 a1 a2 s) := by
  unfold counterWord4
  try dsimp only
  split
  · with_reducible exact Keeps.ite h (setCounter_keeps h)
  · with_reducible exact h

theorem auditWrite_keeps {C M F P : Prop} {s0 s : State} {a1} {a2} {a3} {a4} {a5} (h : Keeps C M F P s0 s) : Keeps C M F P s0 (auditWrite a1 a2 a3 a4 a5 s) := by
  unfold auditWrite
  try dsimp only
  with_reducible exact audit_keeps h

theorem plainDo_keeps {C M F P : Prop} {s0 s : State} {a1} {a2} {a3} {a4} {a5} (h : Keeps C M F P s0 s) : Keeps C M F P s0 (plainDo a1 a2 a3 a4 a5 s) := by
  unfold plainDo
  try dsimp only
  with_reducible exact Keeps.ite (counterWord4_keeps h) (Keeps.ite h (wordDo_keeps h))

theorem plainAll_keeps {C M F P : Prop} {s0 s : State} {a1} {a2} {a3} {a4} (h : Keeps C M F P s0 s) : Keeps C M F P s0 (plainAll a1 a2 a3 a4 s) := by
  induction a3 generalizing s a4 with
  | nil => exact h
  | cons x t ih =>
    cases a4 with
    | nil => exact h
    | cons v vs => exact ih (plainDo_keeps h)

theorem pairDone_keeps {C M F P : Prop} {s0 s : State} {a1} {a2} {a3} {a4} (h : Keeps C M F P s0 s) : Keeps C M F P s0 (pairDone a1 a2 a3 a4 s).2 := by
  unfold pairDone
  try dsimp only
  with_reducible exact Keeps.ite2 (auditRefused_keeps h) (Keeps.ite2 h (guardDo_keeps (Keeps.ite (auditWrite_keeps h) h)))

theorem guardHalf_keeps {C M F P : Prop} {s0 s : State} {a1} {a2} {a3} {a4} (h : Keeps C M F P s0 s) : Keeps C M F P s0 (guardHalf a1 a2 a3 a4 s).2 := by
  unfold guardHalf
  try dsimp only
  split
  · with_reducible exact Keeps.ite2 (Keeps.of_mk h) (Keeps.of_mk h)
  · split
    · with_reducible exact Keeps.ite2 (pairDone_keeps (Keeps.of_mk h)) (Keeps.of_mk h)
    · with_reducible exact Keeps.of_mk h
  · with_reducible exact h

theorem plainWrite_keeps {C M F P : Prop} {s0 s : State} {a1} {a2} {a3} {a4} {a5} (h : Keeps C M F P s0 s) : Keeps C M F P s0 (plainWrite a1 a2 a3 a4 a5 s).2 := by
  unfold plainWrite
  try dsimp only
  with_reducible refine Keeps.ite2 (noteFi_keeps (Keeps.ite (auditWrite_keeps h) h)) ?_
  split
  · split
    · with_reducible exact Keeps.ite (Keeps.ite (auditWrite_keeps h) h) (setCounter_keeps (Keeps.ite (auditWrite_keeps h) h))
    · with_reducible exact plainAll_keeps (Keeps.ite (auditWrite_keeps h) h)
  · with_reducible exact plainAll_keeps (Keeps.ite (auditWrite_keeps h) h)

theorem regWrite_keeps {C M F P : Prop} {s0 s : State} {a1} {a2} {a3} {a4} (h : Keeps C M F P s0 s) : Keeps C M F P s0 (regWrite a1 a2 a3 a4 s).2 := by
  unfold regWrite
  try dsimp only
  with_reducible refine Keeps.ite2 h ?_
  with_reducible refine Keeps.ite2 h ?_
  split
  · with_reducible exact h
  · with_reducible refine Keeps.ite2 (auditRefused_keeps (Keeps.ite (Keeps.of_mk h) h)) (Keeps.ite2 ?_ (Keeps.ite2 (auditRefused_keeps h) (plainWrite_keeps h)))
    split
    · with_reducible exact guardHalf_keeps h
    · with_reducible exact Keeps.of_mk h

theorem aliasBit_keeps {C M F P : Prop} {s0 s : State} {a1} {a2} {a3} (h : Keeps C M F P s0 s) : Keeps C M F P s0 (aliasBit a1 a2 a3 s).2 := by
  unfold aliasBit
  try dsimp only
  split
  · with_reducible exact h
  · with_reducible refine Keeps.ite2 (auditRefused_keeps h) ?_
    with_reducible refine Keeps.ite2 h ?_
    with_reducible refine Keeps.ite2 h ?_
    split
    · with_reducible exact setCounter_keeps h
    · with_reducible exact h
    · with_reducible exact Keeps.ite2 (Keeps.ite2 h (plainWrite_keeps h)) (Keeps.ite2 (plainWrite_keeps h) h)

theorem aliasRun_keeps {C M F P : Prop} {s0 s : State} {a1} {a2} {a3} (h : Keeps C M F P s0 s) : Keeps C M F P s0 (aliasRun a1 a2 a3 s).2 := by
  induction a3 generalizing s a1 with
  | nil => exact h
  | cons x t ih =>
    unfold aliasRun
    split
    · with_reducible exact ih (keeps_of_eq2 (by assumption) (aliasBit_keeps h))
    · with_reducible exact aliasBit_keeps h

theorem aliasWrite_keeps {C M F P : Prop} {s0 s : State} {a1} {a2} {a3} (h : Keeps C M F P s0 s) : Keeps C M F P s0 (aliasWrite a1 a2 a3 s).2 := by
  unfold aliasWrite
  try dsimp only
  with_reducible exact Keeps.ite2 h (Keeps.ite2 h (Keeps.ite2 (auditRefused_keeps h) (Keeps.ite2 h (aliasRun_keeps h))))

theorem accessTick_keeps {C M F P : Prop} {s0 s : State} {a1} (h : Keeps C M F P s0 s) : Keeps C M F P s0 (accessTick a1 s) := by
  unfold accessTick
  try dsimp only
  split
  · with_reducible exact Keeps.of_mk h
  · with_reducible exact Keeps.of_mk h

theorem accessEnd_keeps {C M F P : Prop} {s0 s : State} {a1} (h : Keeps C M F P s0 s) : Keeps C M F P s0 (accessEnd a1 s) := by
  unfold accessEnd
  try dsimp only
  split
  · with_reducible exact Keeps.ite (guardLapse_keeps h) h
  · with_reducible exact h

theorem accessCode_keeps {C M F P : Prop} {s0 : State} {a1} {a2} {a3} (h : Keeps C M F P s0 a3.2) : Keeps C M F P s0 (accessCode a1 a2 a3).2 := by
  unfold accessCode
  try dsimp only
  with_reducible exact accessEnd_keeps (regRefuse_keeps h)

theorem sessWrite_keeps {C M F P : Prop} {s0 s : State} {a1} {a2} {a3} {a4} (h : Keeps C M F P s0 s) : Keeps C M F P s0 (sessWrite a1 a2 a3 a4 s).2 := by
  unfold sessWrite
  try dsimp only
  with_reducible exact accessCode_keeps (Keeps.ite2 (aliasWrite_keeps (accessTick_keeps h)) (regWrite_keeps (accessTick_keeps h)))

theorem sessOther_keeps {C M F P : Prop} {s0 s : State} {a1} {a2} {a3} (h : Keeps C M F P s0 s) : Keeps C M F P s0 (sessOther a1 a2 a3 s).2 := by
  unfold sessOther
  try dsimp only
  with_reducible exact accessCode_keeps (accessTick_keeps h)

theorem sessRead_keeps {C M F P : Prop} {s0 s : State} {a1} {a2} {a3} (h : Keeps C M F P s0 s) : Keeps C M F P s0 (sessRead a1 a2 a3 s).2.2 := by
  unfold sessRead
  try dsimp only
  with_reducible refine accessCode_keeps ?_
  dsimp only
  with_reducible refine Keeps.ite ?_ ?_
  · with_reducible refine auditRefused_keeps ?_
    split
    · with_reducible exact Keeps.of_mk (accessTick_keeps h)
    · with_reducible exact accessTick_keeps h
  · split
    · with_reducible exact Keeps.of_mk (accessTick_keeps h)
    · with_reducible exact accessTick_keeps h

theorem burinWrite_keeps {C M F P : Prop} {s0 s : State} {a1} {a2} (h : Keeps C M F P s0 s) : Keeps C M F P s0 (burinWrite a1 a2 s) := by
  unfold burinWrite
  try dsimp only
  split
  · with_reducible exact h
  · with_reducible exact Keeps.ite (counterWord4_keeps h) (Keeps.ite h (Keeps.ite (Keeps.ite (auditWrite_keeps h) (guardDo_keeps h)) (Keeps.ite (auditWrite_keeps h) (wordDo_keeps h))))

end Sys2Proof.Machine
end

