-- ==== Sys2Proof/Laws/KeepSwap.lean ====
section
/-! SUPPORT. What the functions of Machine/Swap.lean keep (Laws/Keep.lean). -/

namespace Sys2Proof.Machine

theorem commitPlate_keeps {C F P : Prop} {s0 s : State} {a1} (h : Keeps C True F P s0 s) : Keeps C True F P s0 (commitPlate a1 s) := by
  unfold commitPlate
  try dsimp only
  with_reducible exact keeps_foldl (fun t1 x1 h1 => burinWrite_keeps h1) (swapBanks_keeps h)

theorem execBankSwap_keeps {C F P : Prop} {s0 s : State} (h : Keeps C True F P s0 s) : ∃ t, execBankSwap s = .next t ∧ Keeps C True F P s0 t := by
  unfold execBankSwap
  try dsimp only
  refine ⟨_, rfl, ?_⟩
  split
  · with_reducible exact Keeps.ite (commitPlate_keeps h) h
  · with_reducible exact h

end Sys2Proof.Machine
end

