-- ==== Sys2Proof/Laws/KeepSheets.lean ====
section
/-! SUPPORT. What the functions of Machine/Sheets.lean keep (Laws/Keep.lean). -/

namespace Sys2Proof.Machine

theorem swapWxas_keeps {C M F P : Prop} {s0 s : State} {a1} {a2} {a3} (h : Keeps C M F P s0 s) : Keeps C M F P s0 (swapWxas a1 a2 a3 s) := by
  unfold swapWxas
  try dsimp only
  with_reducible exact keeps_foldl (fun t1 x1 h1 => wxaPut_keeps (wxaPut_keeps h1)) h

theorem nadds_wf (l : List Nat) : ∀ {p : NSet}, mwf false p = true → mwf false (l.foldl nadd p) = true := by
  induction l with
  | nil => exact id
  | cons x l ih => exact fun h => ih (nadd_wf _ h)

theorem poisonAdd_keeps {C F P : Prop} {s0 s : State} (l : List Nat) (h : Keeps C True F P s0 s) :
    Keeps C True F P s0 { s with poison := l.foldl nadd s.poison } :=
  Keeps.of_mk_all h id (nadds_wf l) id id id id (Nat.le_refl _) id (FusesKept.refl _) (List.prefix_refl _) (Nat.le_refl _) (.inl trivial) (.inr rfl) (.inr rfl)

theorem carryPoison_keeps {C F P : Prop} {s0 s : State} {a1} {a2} {a3} {a4} (h : Keeps C True F P s0 s) : Keeps C True F P s0 (carryPoison a1 a2 a3 a4 s) := by
  unfold carryPoison
  refine keeps_foldl (fun t1 x1 h1 => ?_) h
  dsimp only
  split
  · exact poisonAdd_keeps _ h1
  · exact h1

theorem moveImage_keeps {C F P : Prop} {s0 s : State} {a1} {a2} {a3} (h : Keeps C True F P s0 s) : Keeps C True F P s0 (moveImage a1 a2 a3 s) := by
  unfold moveImage
  exact carryPoison_keeps (writeMem_keeps h)

theorem sheetSave_keeps {C F P : Prop} {s0 s : State} {a1} {a2} {a3} {a4} (h : Keeps C True F P s0 s) : Keeps C True F P s0 (sheetSave a1 a2 a3 a4 s) := by
  unfold sheetSave
  exact Keeps.ite h (keeps_foldl (fun _ _ h1 => moveImage_keeps h1) h)

theorem sheetLoad_keeps {C F P : Prop} {s0 s : State} {a1} {a2} {a3} {a4} (h : Keeps C True F P s0 s) : Keeps C True F P s0 (sheetLoad a1 a2 a3 a4 s) := by
  unfold sheetLoad
  exact Keeps.ite (keeps_foldl (fun _ _ h1 => restartGroup_keeps h1) (keeps_foldl (fun _ _ h1 => moveImage_keeps h1) h))
    (keeps_foldl (fun _ _ h1 => moveImage_keeps h1) h)

theorem sheetFill_keeps {C F P : Prop} {s0 s : State} {a1} (h : Keeps C True F P s0 s) : Keeps C True F P s0 (sheetFill a1 s) := by
  unfold sheetFill
  split
  · exact h
  · exact Keeps.ite (sheetSave_keeps h) (sheetLoad_keeps (sheetSave_keeps h))

theorem sheetRun_keeps {C M F P : Prop} {s0 s : State} {a1} (h : Keeps C M F P s0 s) : Keeps C M F P s0 (sheetRun a1 s) := by
  unfold sheetRun
  try dsimp only
  with_reducible exact keeps_foldl (fun t1 x1 h1 => seqResume_keeps h1) (islPut_keeps (swapWxas_keeps h))

theorem execSheetSwitch_keeps {C F P : Prop} {s0 s : State} {a1} (h : Keeps C True F P s0 s) : ∃ t, execSheetSwitch a1 s = .next t ∧ Keeps C True F P s0 t := by
  unfold execSheetSwitch
  try dsimp only
  refine ⟨_, rfl, ?_⟩
  with_reducible exact Keeps.ite h (Keeps.ite (sheetRun_keeps h) (Keeps.ite (sheetRun_keeps (sheetFill_keeps h)) (bump_keeps (islPut_keeps h))))

theorem execSheetFillDone_keeps {C F P : Prop} {s0 s : State} {a1} (h : Keeps C True F P s0 s) : ∃ t, execSheetFillDone a1 s = .next t ∧ Keeps C True F P s0 t := by
  unfold execSheetFillDone
  try dsimp only
  refine ⟨_, rfl, ?_⟩
  with_reducible exact Keeps.ite h (Keeps.ite (sheetRun_keeps (sheetFill_keeps h)) (islPut_keeps (sheetFill_keeps h)))

end Sys2Proof.Machine
end

