-- ==== Sys2Proof/Laws/KeepStraits.lean ====
section
/-! SUPPORT. What the functions of Machine/Straits.lean keep (Laws/Keep.lean). -/

namespace Sys2Proof.Machine

theorem flitGrant_keeps {C M F P : Prop} {s0 s : State} {a1} {a2} {a3} (h : Keeps C M F P s0 s) : Keeps C M F P s0 (flitGrant a1 a2 a3 s) := by
  unfold flitGrant
  try dsimp only
  with_reducible exact Keeps.ite (bump_keeps h) (Keeps.ite (bump_keeps h) h)

theorem dirPut_keeps {C M F P : Prop} {s0 s : State} {a1} {a2} {a3} (h : Keeps C M F P s0 s) : Keeps C M F P s0 (dirPut a1 a2 a3 s) := by
  unfold dirPut
  try dsimp only
  with_reducible exact Keeps.of_mk h

theorem flitTaken_keeps {C M F P : Prop} {s0 s : State} {a1} {a2} {a3} {a4} (h : Keeps C M F P s0 s) : Keeps C M F P s0 (flitTaken a1 a2 a3 a4 s) := by
  unfold flitTaken
  try dsimp only
  with_reducible exact Keeps.ite (dirPut_keeps h) (Keeps.ite (emit_keeps (dirPut_keeps h)) (Keeps.ite (emit_keeps h) h))

theorem flitIn_keeps {C M F P : Prop} {s0 s : State} {a1} {a2} {a3} {a4} {a5} (h : Keeps C M F P s0 s) : Keeps C M F P s0 (flitIn a1 a2 a3 a4 a5 s) := by
  unfold flitIn
  try dsimp only
  with_reducible refine Keeps.ite h ?_
  split
  · with_reducible exact intRecord_keeps (bump_keeps h)
  · with_reducible exact flitTaken_keeps h
  · with_reducible exact flitTaken_keeps (intRecord_keeps (bump_keeps h))

theorem flitOut_keeps {C M F P : Prop} {s0 s : State} {a1} {a2} {a3} {a4} {a5} (h : Keeps C M F P s0 s) : Keeps C M F P s0 (flitOut a1 a2 a3 a4 a5 s) := by
  unfold flitOut
  try dsimp only
  with_reducible exact Keeps.ite (flitGrant_keeps h) (Keeps.ite (flitGrant_keeps (dirPut_keeps h)) h)

theorem flitResend_keeps {C M F P : Prop} {s0 s : State} {a1} {a2} {a3} (h : Keeps C M F P s0 s) : Keeps C M F P s0 (flitResend a1 a2 a3 s) := by
  unfold flitResend
  try dsimp only
  with_reducible refine Keeps.ite h ?_
  split
  · with_reducible exact h
  · with_reducible exact Keeps.ite (straitLinkLost_keeps h) (emit_keeps (dirPut_keeps h))

theorem hbmPoison_keeps {C F P : Prop} {s0 s : State} {a1} {a2} (h : Keeps C True F P s0 s) : Keeps C True F P s0 (hbmPoison a1 a2 s) := by
  unfold hbmPoison
  try dsimp only
  refine Keeps.ite (bump_keeps h) ?_
  split
  · with_reducible exact Keeps.ite (bump_keeps h) (Keeps.of_mk_all h id (nadd_wf _) id id id id (Nat.le_refl _) id (FusesKept.refl _) (List.prefix_refl _) (Nat.le_refl _) (.inl trivial) (.inr rfl) (.inr rfl))
  · with_reducible exact Keeps.of_mk_all h id (nadd_wf _) id id id id (Nat.le_refl _) id (FusesKept.refl _) (List.prefix_refl _) (Nat.le_refl _) (.inl trivial) (.inr rfl) (.inr rfl)

theorem ceOnce_keeps {C M F P : Prop} {s0 s : State} {a1} {a2} {a3} (h : Keeps C M F P s0 s) : Keeps C M F P s0 (ceOnce a1 a2 a3 s) := by
  unfold ceOnce
  try dsimp only
  with_reducible exact Keeps.ite h (intRecord_keeps (Keeps.of_mk h))

theorem scrubPass_keeps {C M F P : Prop} {s0 s : State} {a1} {a2} {a3} (h : Keeps C M F P s0 s) : Keeps C M F P s0 (scrubPass a1 a2 a3 s) := by
  unfold scrubPass
  try dsimp only
  with_reducible exact bump_keeps (Keeps.of_mk h)

theorem scrubStep_keeps {C M F P : Prop} {s0 s : State} {a1} {a2} {a3} {a4} {a5} (h : Keeps C M F P s0 s) : Keeps C M F P s0 (scrubStep a1 a2 a3 a4 a5 s) := by
  unfold scrubStep
  try dsimp only
  with_reducible exact Keeps.ite (scrubPass_keeps (Keeps.of_mk h)) (Keeps.of_mk h)

theorem keepWrong_keeps {C F P : Prop} {s0 s : State} {a1} {a2} (h : Keeps C True F P s0 s) : Keeps C True F P s0 (keepWrong a1 a2 s) := by
  unfold keepWrong
  exact keeps_foldl (fun _ _ h1 => Keeps.of_mk_all h1 (putMem_wf _ _) id id id id id (Nat.le_refl _) id (FusesKept.refl _) (List.prefix_refl _) (Nat.le_refl _) (.inl trivial) (.inr rfl) (.inr rfl)) h

theorem hbmScrub_keeps {C F P : Prop} {s0 s : State} {a1} {a2} {a3} (h : Keeps C True F P s0 s) : Keeps C True F P s0 (hbmScrub a1 a2 a3 s) := by
  unfold hbmScrub
  try dsimp only
  with_reducible refine Keeps.ite h ?_
  with_reducible refine scrubStep_keeps ?_
  with_reducible refine Keeps.ite h ?_
  split
  · with_reducible exact keepWrong_keeps h
  · with_reducible exact ceOnce_keeps (bump_keeps (bump_keeps (keepWrong_keeps h)))
  · with_reducible exact hbmPoison_keeps (intRecord_keeps (bump_keeps (Keeps.of_mk h)))

theorem lagoonScrub_keeps {C F P : Prop} {s0 s : State} {a1} {a2} {a3} (h : Keeps C True F P s0 s) : Keeps C True F P s0 (lagoonScrub a1 a2 a3 s) := by
  unfold lagoonScrub
  try dsimp only
  with_reducible refine Keeps.ite h ?_
  with_reducible refine scrubStep_keeps ?_
  with_reducible refine Keeps.ite h ?_
  split
  · with_reducible exact keepWrong_keeps h
  · with_reducible exact ceOnce_keeps (bump_keeps (bump_keeps (keepWrong_keeps h)))
  · with_reducible exact Keeps.of_mk_all (intRecord_keeps (bump_keeps h)) id (fun x => nadd_wf _ (nadd_wf _ x)) id id id id (Nat.le_refl _) id (FusesKept.refl _) (List.prefix_refl _) (Nat.le_refl _) (.inl trivial) (.inr rfl) (.inr rfl)

theorem ueInterval_keeps {C M F P : Prop} {s0 s : State} {a1} (h : Keeps C M F P s0 s) : Keeps C M F P s0 (ueInterval a1 s) := by
  unfold ueInterval
  try dsimp only
  with_reducible exact Keeps.of_mk h

theorem ueDeclare_keeps {C M F P : Prop} {s0 s : State} {a1} (h : Keeps C M F P s0 s) : Keeps C M F P s0 (ueDeclare a1 s) := by
  unfold ueDeclare
  try dsimp only
  with_reducible exact Keeps.ite (stackLost_keeps h) h

theorem execLagoonScrub_keeps {C F P : Prop} {s0 s : State} {a1} {a2} {a3} (h : Keeps C True F P s0 s) : ∃ t, execLagoonScrub a1 a2 a3 s = .next t ∧ Keeps C True F P s0 t := by
  unfold execLagoonScrub
  try dsimp only
  refine ⟨_, rfl, ?_⟩
  with_reducible exact lagoonScrub_keeps h

theorem execStackUeIntervalEnd_keeps {C M F P : Prop} {s0 s : State} {a1} (h : Keeps C M F P s0 s) : ∃ t, execStackUeIntervalEnd a1 s = .next t ∧ Keeps C M F P s0 t := by
  unfold execStackUeIntervalEnd
  try dsimp only
  refine ⟨_, rfl, ?_⟩
  with_reducible exact ueInterval_keeps h

end Sys2Proof.Machine
end

