-- ==== Sys2Proof/Laws/KeepYazer.lean ====
section
/-! SUPPORT. What the functions of Machine/Yazer.lean keep (Laws/Keep.lean). -/

namespace Sys2Proof.Machine

theorem refuseWindow_keeps {C M F P : Prop} {s0 s : State} {a1} (h : Keeps C M F P s0 s) : Keeps C M F P s0 (refuseWindow a1 s).2 := by
  unfold refuseWindow
  try dsimp only
  with_reducible exact bump_keeps h

theorem serviceTake_keeps {C F P : Prop} {s0 s : State} {a1} {a2} {a3} (h : Keeps C True F P s0 s) : Keeps C True F P s0 (serviceTake a1 a2 a3 s) := by
  unfold serviceTake
  try dsimp only
  with_reducible exact Keeps.of_mk (serviceWrite_keeps (serviceWrite_keeps h))

theorem addLanes_keeps {C F P : Prop} {s0 s : State} {a1} {a2} (h : Keeps C True F P s0 s) : Keeps C True F P s0 (addLanes a1 a2 s) := by
  unfold addLanes
  try dsimp only
  with_reducible exact keeps_foldl (fun t1 x1 h1 => writeMem_keeps h1) h

theorem memDo_keeps {C F P : Prop} {s0 s : State} {a1} {a2} {a3} {a4} {a5} (h : Keeps C True F P s0 s) : Keeps C True F P s0 (memDo a1 a2 a3 a4 a5 s).2 := by
  unfold memDo
  try dsimp only
  split
  · with_reducible exact h
  · with_reducible exact Keeps.ite (serviceTake_keeps h) (writeMem_keeps h)
  · with_reducible exact writeMem_keeps h
  · with_reducible exact writeMem_keeps h
  · with_reducible exact addLanes_keeps h
  · with_reducible exact Keeps.ite (writeMem_keeps h) h

theorem memOp_keeps {C F P : Prop} {s0 s : State} {a1} {a2} {a3} {a4} {a5} (h : Keeps C True F P s0 s) : Keeps C True F P s0 (memOp a1 a2 a3 a4 a5 s).2 := by
  unfold memOp
  try dsimp only
  with_reducible exact Keeps.ite2 h (Keeps.ite2 (refuseWindow_keeps h) (Keeps.ite2 h (Keeps.ite2 (memDo_keeps h) (Keeps.ite2 (poisonedRead_keeps h) h))))

theorem freshWrite_keeps {C M F P : Prop} {s0 s : State} {a1} {a2} {a3} (h : Keeps C M F P s0 s) : Keeps C M F P s0 (freshWrite a1 a2 a3 s).2 := by
  unfold freshWrite
  try dsimp only
  with_reducible exact sessWrite_keeps (Keeps.of_mk h)

theorem regOp_keeps {C M F P : Prop} {s0 s : State} {a1} {a2} {a3} {a4} (h : Keeps C M F P s0 s) : Keeps C M F P s0 (regOp a1 a2 a3 a4 s).2 := by
  unfold regOp
  try dsimp only
  with_reducible exact Keeps.ite2 h (Keeps.ite2 (sessRead_keeps h) (Keeps.ite2 (freshWrite_keeps h) (sessOther_keeps h)))

theorem signalOp_keeps {C M F P : Prop} {s0 s : State} {a1} {a2} (h : Keeps C M F P s0 s) : Keeps C M F P s0 (signalOp a1 a2 s).2 := by
  unfold signalOp
  try dsimp only
  with_reducible exact Keeps.ite2 (Keeps.ite2 (refuseWindow_keeps h) (yzSignalObj_keeps h)) (yzSignalBar_keeps h)

theorem messageOp_keeps {C F P : Prop} {s0 s : State} {a1} {a2} {a3} (h : Keeps C True F P s0 s) : Keeps C True F P s0 (messageOp a1 a2 a3 s).2 := by
  unfold messageOp
  try dsimp only
  with_reducible exact Keeps.ite2 h (workMessage_keeps h)

theorem closeByFate_keeps {C M F P : Prop} {s0 s : State} {a1} {a2} (h : Keeps C M F P s0 s) : Keeps C M F P s0 (closeByFate a1 a2 s) := by
  unfold closeByFate
  try dsimp only
  split
  · with_reducible exact h
  · with_reducible refine Keeps.ite ?_ (endSession_keeps h)
    split
    · with_reducible exact askDoubt_keeps (endSession_keeps h)
    · with_reducible exact endSession_keeps h

theorem fateQuery_keeps {C M F P : Prop} {s0 s : State} {a1} {a2} {a3} (h : Keeps C M F P s0 s) : Keeps C M F P s0 (fateQuery a1 a2 a3 s).2 := by
  unfold fateQuery
  try dsimp only
  split
  · with_reducible exact bump_keeps h
  · with_reducible exact Keeps.ite2 (bump_keeps h) (closeByFate_keeps (bump_keeps h))

theorem opDo_keeps {C F P : Prop} {s0 s : State} {a1} {a2} {a3} {a4} {a5} (h : Keeps C True F P s0 s) : Keeps C True F P s0 (opDo a1 a2 a3 a4 a5 s).2 := by
  unfold opDo
  try dsimp only
  with_reducible refine Keeps.ite2 h ?_
  with_reducible refine Keeps.ite2 (Keeps.ite2 h (Keeps.ite2 (regOp_keeps h) (memOp_keeps h))) ?_
  split
  · with_reducible exact signalOp_keeps h
  · with_reducible exact messageOp_keeps h
  · with_reducible exact fateQuery_keeps h
  · with_reducible exact h

theorem opRow_keeps {C F P : Prop} {s0 s : State} {a1} {a2} {a3} {a4} (h : Keeps C True F P s0 s) : Keeps C True F P s0 (opRow a1 a2 a3 a4 s) := by
  unfold opRow
  try dsimp only
  split
  · with_reducible exact h
  · with_reducible exact Keeps.ite h (emit_keeps (opDo_keeps h))

theorem fateAnswer_keeps {C M F P : Prop} {s0 s : State} {a1} {a2} {a3} {a4} {a5} (h : Keeps C M F P s0 s) : Keeps C M F P s0 (fateAnswer a1 a2 a3 a4 a5 s) := by
  unfold fateAnswer
  try dsimp only
  split
  · with_reducible exact h
  · split
    · with_reducible exact h
    · split
      · with_reducible exact Keeps.ite (endSession_keeps (Keeps.ite (Keeps.of_mk h) (Keeps.ite (Keeps.ite (sendOp_keeps (Keeps.of_mk h)) (runOpDone_keeps (emit_keeps (Keeps.of_mk h)))) (Keeps.ite (Keeps.ite (Keeps.of_mk h) (sendOp_keeps (Keeps.of_mk h))) (runOpDone_keeps (emit_keeps (Keeps.of_mk h))))))) (Keeps.ite (Keeps.of_mk h) (Keeps.ite (Keeps.ite (sendOp_keeps (Keeps.of_mk h)) (runOpDone_keeps (emit_keeps (Keeps.of_mk h)))) (Keeps.ite (Keeps.ite (Keeps.of_mk h) (sendOp_keeps (Keeps.of_mk h))) (runOpDone_keeps (emit_keeps (Keeps.of_mk h))))))
      · with_reducible exact Keeps.ite (Keeps.of_mk h) (Keeps.ite (Keeps.ite (sendOp_keeps (Keeps.of_mk h)) (runOpDone_keeps (emit_keeps (Keeps.of_mk h)))) (Keeps.ite (Keeps.ite (Keeps.of_mk h) (sendOp_keeps (Keeps.of_mk h))) (runOpDone_keeps (emit_keeps (Keeps.of_mk h)))))

theorem resultIn_keeps {C M F P : Prop} {s0 s : State} {a1} {a2} {a3} (h : Keeps C M F P s0 s) : Keeps C M F P s0 (resultIn a1 a2 a3 s) := by
  unfold resultIn
  try dsimp only
  split
  · with_reducible exact h
  · split
    · with_reducible exact h
    · split
      · with_reducible exact fateAnswer_keeps (pumpSession_keeps (sessPut_keeps h))
      · with_reducible exact runOpDone_keeps (emit_keeps (pumpSession_keeps (sessPut_keeps h)))

theorem resultRow_keeps {C M F P : Prop} {s0 s : State} {a1} {a2} {a3} (h : Keeps C M F P s0 s) : Keeps C M F P s0 (resultRow a1 a2 a3 s) := by
  unfold resultRow
  try dsimp only
  split
  · with_reducible exact h
  · with_reducible exact Keeps.ite h (Keeps.ite (malformedFrame_keeps h) (resultIn_keeps h))

theorem sendAck_keeps {C M F P : Prop} {s0 s : State} {a1} (h : Keeps C M F P s0 s) : Keeps C M F P s0 (sendAck a1 s) := by
  unfold sendAck
  try dsimp only
  split
  · with_reducible exact h
  · with_reducible exact bump_keeps (emitOn_keeps h)

theorem frameOps_keeps {C F P : Prop} {s0 s : State} {a1} {a2} {a3} (h : Keeps C True F P s0 s) : Keeps C True F P s0 (frameOps a1 a2 a3 s).2.2 := by
  induction a3 generalizing s with
  | nil => exact h
  | cons x t ih =>
    unfold frameOps
    dsimp only
    with_reducible refine Keeps.ite3 (ih (resultIn_keeps h)) ?_
    split
    · with_reducible exact h
    · with_reducible exact ih (emit_keeps (opDo_keeps h))

theorem takeFrame_keeps {C F P : Prop} {s0 s : State} {a1} {a2} {a3} (h : Keeps C True F P s0 s) : Keeps C True F P s0 (takeFrame a1 a2 a3 s) := by
  unfold takeFrame
  try dsimp only
  with_reducible refine keeps_foldl (fun t1 x1 h1 => sendOp_keeps h1) ?_
  split
  · with_reducible exact Keeps.of_mk (frameOps_keeps (sessMod_keeps h))
  · with_reducible exact frameOps_keeps (sessMod_keeps h)

theorem takeHeld_keeps {C F P : Prop} {s0 s : State} {a1} {a2} (h : Keeps C True F P s0 s) : Keeps C True F P s0 (takeHeld a1 a2 s) := by
  induction a2 generalizing s with
  | zero => exact h
  | succ n ih =>
    unfold takeHeld
    split
    · with_reducible exact h
    · split
      · with_reducible exact h
      · with_reducible exact Keeps.ite (ih (takeFrame_keeps h)) h

theorem dataIn_keeps {C F P : Prop} {s0 s : State} {a1} {a2} {a3} (h : Keeps C True F P s0 s) : Keeps C True F P s0 (dataIn a1 a2 a3 s) := by
  unfold dataIn
  try dsimp only
  with_reducible refine Keeps.ite (malformedFrame_keeps h) ?_
  with_reducible refine Keeps.ite (sendAck_keeps (bump_keeps h)) ?_
  with_reducible refine Keeps.ite (malformedFrame_keeps h) ?_
  split
  · with_reducible exact malformedFrame_keeps h
  · with_reducible exact Keeps.ite (malformedFrame_keeps h) (Keeps.ite (sendAck_keeps (pumpSession_keeps (takeHeld_keeps (sessPut_keeps h)))) (pumpSession_keeps (sessPut_keeps h)))

theorem dataFrame_keeps {C F P : Prop} {s0 s : State} {a1} (h : Keeps C True F P s0 s) : Keeps C True F P s0 (dataFrame a1 s) := by
  unfold dataFrame
  try dsimp only
  split
  · with_reducible exact keeps_of_eq2 (by assumption) (frameIn_keeps h)
  · with_reducible exact dataIn_keeps (keeps_of_eq2 (by assumption) (frameIn_keeps h))

theorem arrived_keeps {C F P : Prop} {s0 s : State} {a1} (h : Keeps C True F P s0 s) : Keeps C True F P s0 (arrived a1 s) := by
  unfold arrived
  try dsimp only
  split
  · with_reducible exact stateOf_keeps h (execHello_keeps h)
  · with_reducible exact stateOf_keeps h (execHelloReply_keeps h)
  · with_reducible exact stateOf_keeps h (execReject_keeps h)
  · with_reducible exact stateOf_keeps h (execConfirm_keeps h)
  · with_reducible exact stateOf_keeps h (execClose_keeps h)
  · with_reducible exact dataFrame_keeps h
  · with_reducible exact stateOf_keeps h (execAck_keeps h)
  · with_reducible exact stateOf_keeps h (execProbe_keeps h)
  · with_reducible exact stateOf_keeps h (execProbeReply_keeps h)
  · with_reducible exact flitIn_keeps h
  · with_reducible exact h

theorem settleWire_keeps {C F P : Prop} {s0 s : State} {a1} (h : Keeps C True F P s0 s) : Keeps C True F P s0 (settleWire a1 s) := by
  induction a1 generalizing s with
  | zero => exact h
  | succ n ih =>
    unfold settleWire
    split
    · with_reducible exact h
    · split
      · with_reducible exact ih (arrived_keeps (keeps_of_eq2 (by assumption) (fiFrom_keeps (Keeps.of_mk h))))
      · with_reducible exact ih (emit_keeps (keeps_of_eq2 (by assumption) (fiFrom_keeps (Keeps.of_mk h))))
      · with_reducible exact ih (keeps_of_eq2 (by assumption) (fiFrom_keeps (Keeps.of_mk h)))

theorem settle_keeps {C F P : Prop} {s0 s : State} (h : Keeps C True F P s0 s) : Keeps C True F P s0 (settle s) := by
  unfold settle
  try dsimp only
  with_reducible exact settleWire_keeps h

theorem arrive_keeps {C F P : Prop} {s0 s : State} {a1} (h : Keeps C True F P s0 s) : Keeps C True F P s0 (arrive a1 s) := by
  unfold arrive
  try dsimp only
  split
  · with_reducible exact settle_keeps (arrived_keeps (keeps_of_eq2 (by assumption) (fiFrom_keeps h)))
  · with_reducible exact settle_keeps (keeps_of_eq2 (by assumption) (fiFrom_keeps h))

theorem frameRow_keeps {C F P : Prop} {s0 s : State} {a1} {a2} (h : Keeps C True F P s0 s) : Keeps C True F P s0 (frameRow a1 a2 s) := by
  unfold frameRow
  try dsimp only
  with_reducible exact Keeps.ite (arrive_keeps h) h

end Sys2Proof.Machine
end

