-- ==== Sys2Proof/Laws/KeepCommands.lean ====
section
/-! SUPPORT. What the functions of Machine/Commands.lean keep (Laws/Keep.lean). -/

namespace Sys2Proof.Machine

/-- What is left of a linked log when its oldest records are flushed is linked. -/
theorem linked_drop {n : Nat} {hd : Digest} {l : List AuditRec} (k : Nat) (h : linked n hd l) : linked n hd (l.drop k) := by
  induction k generalizing l with
  | zero => exact h
  | succ k ih =>
    cases l with
    | nil => trivial
    | cons a t =>
      cases t with
      | nil => cases k <;> trivial
      | cons b t => exact ih h.2

theorem fputRound_wf {m : SMap Byte} (bs : List Byte) (a : Nat) (h : mwf 0xFF m = true) : mwf 0xFF (fputRound bs a m) = true := by
  induction bs generalizing a m with
  | nil => exact h
  | cons b t ih => exact ih _ (mset_wf _ _ h)
theorem execYzRead_keeps {C F P : Prop} {s0 s : State} {a1} {a2} (h : Keeps C True F P s0 s) : ∃ t, execYzRead a1 a2 s = .next t ∧ Keeps C True F P s0 t := by
  unfold execYzRead
  try dsimp only
  refine ⟨_, rfl, ?_⟩
  with_reducible exact opRow_keeps h

theorem execYzWrite_keeps {C F P : Prop} {s0 s : State} {a1} {a2} {a3} (h : Keeps C True F P s0 s) : ∃ t, execYzWrite a1 a2 a3 s = .next t ∧ Keeps C True F P s0 t := by
  unfold execYzWrite
  try dsimp only
  refine ⟨_, rfl, ?_⟩
  with_reducible exact settle_keeps (opRow_keeps h)

theorem execAdd32_keeps {C F P : Prop} {s0 s : State} {a1} {a2} (h : Keeps C True F P s0 s) : ∃ t, execAdd32 a1 a2 s = .next t ∧ Keeps C True F P s0 t := by
  unfold execAdd32
  try dsimp only
  refine ⟨_, rfl, ?_⟩
  with_reducible exact opRow_keeps h

theorem execAdd64_keeps {C F P : Prop} {s0 s : State} {a1} {a2} (h : Keeps C True F P s0 s) : ∃ t, execAdd64 a1 a2 s = .next t ∧ Keeps C True F P s0 t := by
  unfold execAdd64
  try dsimp only
  refine ⟨_, rfl, ?_⟩
  with_reducible exact opRow_keeps h

theorem execAddDelta_keeps {C F P : Prop} {s0 s : State} {a1} {a2} {a3} (h : Keeps C True F P s0 s) : ∃ t, execAddDelta a1 a2 a3 s = .next t ∧ Keeps C True F P s0 t := by
  unfold execAddDelta
  try dsimp only
  refine ⟨_, rfl, ?_⟩
  with_reducible exact opRow_keeps h

theorem execCas64_keeps {C F P : Prop} {s0 s : State} {a1} {a2} (h : Keeps C True F P s0 s) : ∃ t, execCas64 a1 a2 s = .next t ∧ Keeps C True F P s0 t := by
  unfold execCas64
  try dsimp only
  refine ⟨_, rfl, ?_⟩
  with_reducible exact opRow_keeps h

theorem execYzSignal_keeps {C F P : Prop} {s0 s : State} {a1} {a2} (h : Keeps C True F P s0 s) : ∃ t, execYzSignal a1 a2 s = .next t ∧ Keeps C True F P s0 t := by
  unfold execYzSignal
  try dsimp only
  refine ⟨_, rfl, ?_⟩
  with_reducible exact opRow_keeps h

theorem execMessage_keeps {C F P : Prop} {s0 s : State} {a1} {a2} {a3} (h : Keeps C True F P s0 s) : ∃ t, execMessage a1 a2 a3 s = .next t ∧ Keeps C True F P s0 t := by
  unfold execMessage
  try dsimp only
  refine ⟨_, rfl, ?_⟩
  with_reducible exact opRow_keeps h

theorem execFence_keeps {C F P : Prop} {s0 s : State} {a1} {a2} (h : Keeps C True F P s0 s) : ∃ t, execFence a1 a2 s = .next t ∧ Keeps C True F P s0 t := by
  unfold execFence
  try dsimp only
  refine ⟨_, rfl, ?_⟩
  with_reducible exact opRow_keeps h

theorem execFate_keeps {C F P : Prop} {s0 s : State} {a1} {a2} (h : Keeps C True F P s0 s) : ∃ t, execFate a1 a2 s = .next t ∧ Keeps C True F P s0 t := by
  unfold execFate
  try dsimp only
  refine ⟨_, rfl, ?_⟩
  with_reducible exact opRow_keeps h

theorem execResult_keeps {C M F P : Prop} {s0 s : State} {a1} {a2} {a3} (h : Keeps C M F P s0 s) : ∃ t, execResult a1 a2 a3 s = .next t ∧ Keeps C M F P s0 t := by
  unfold execResult
  try dsimp only
  refine ⟨_, rfl, ?_⟩
  with_reducible exact resultRow_keeps h

theorem execHelloFrame_keeps {C F P : Prop} {s0 s : State} {a1} {a2} {a3} (h : Keeps C True F P s0 s) : ∃ t, execHelloFrame a1 a2 a3 s = .next t ∧ Keeps C True F P s0 t := by
  unfold execHelloFrame
  try dsimp only
  refine ⟨_, rfl, ?_⟩
  with_reducible exact frameRow_keeps h

theorem execHelloReplyFrame_keeps {C F P : Prop} {s0 s : State} {a1} {a2} {a3} (h : Keeps C True F P s0 s) : ∃ t, execHelloReplyFrame a1 a2 a3 s = .next t ∧ Keeps C True F P s0 t := by
  unfold execHelloReplyFrame
  try dsimp only
  refine ⟨_, rfl, ?_⟩
  with_reducible exact frameRow_keeps h

theorem execConfirmFrame_keeps {C F P : Prop} {s0 s : State} {a1} (h : Keeps C True F P s0 s) : ∃ t, execConfirmFrame a1 s = .next t ∧ Keeps C True F P s0 t := by
  unfold execConfirmFrame
  try dsimp only
  refine ⟨_, rfl, ?_⟩
  with_reducible exact frameRow_keeps h

theorem execRejectFrame_keeps {C F P : Prop} {s0 s : State} {a1} {a2} {a3} (h : Keeps C True F P s0 s) : ∃ t, execRejectFrame a1 a2 a3 s = .next t ∧ Keeps C True F P s0 t := by
  unfold execRejectFrame
  try dsimp only
  refine ⟨_, rfl, ?_⟩
  with_reducible exact frameRow_keeps h

theorem execCloseFrame_keeps {C F P : Prop} {s0 s : State} {a1} (h : Keeps C True F P s0 s) : ∃ t, execCloseFrame a1 s = .next t ∧ Keeps C True F P s0 t := by
  unfold execCloseFrame
  try dsimp only
  refine ⟨_, rfl, ?_⟩
  with_reducible exact frameRow_keeps h

theorem execDataFrame_keeps {C F P : Prop} {s0 s : State} {a1} (h : Keeps C True F P s0 s) : ∃ t, execDataFrame a1 s = .next t ∧ Keeps C True F P s0 t := by
  unfold execDataFrame
  try dsimp only
  refine ⟨_, rfl, ?_⟩
  with_reducible exact frameRow_keeps h

theorem execAckFrame_keeps {C F P : Prop} {s0 s : State} {a1} (h : Keeps C True F P s0 s) : ∃ t, execAckFrame a1 s = .next t ∧ Keeps C True F P s0 t := by
  unfold execAckFrame
  try dsimp only
  refine ⟨_, rfl, ?_⟩
  with_reducible exact frameRow_keeps h

theorem execProbeFrame_keeps {C F P : Prop} {s0 s : State} {a1} (h : Keeps C True F P s0 s) : ∃ t, execProbeFrame a1 s = .next t ∧ Keeps C True F P s0 t := by
  unfold execProbeFrame
  try dsimp only
  refine ⟨_, rfl, ?_⟩
  with_reducible exact frameRow_keeps h

theorem execProbeReplyFrame_keeps {C F P : Prop} {s0 s : State} {a1} (h : Keeps C True F P s0 s) : ∃ t, execProbeReplyFrame a1 s = .next t ∧ Keeps C True F P s0 t := by
  unfold execProbeReplyFrame
  try dsimp only
  refine ⟨_, rfl, ?_⟩
  with_reducible exact frameRow_keeps h

theorem inSession_keeps {C M F P : Prop} {s0 s : State} {a1} {a2} (hf2 : ∀ x1 t, Keeps C M F P s0 t → Keeps C M F P s0 (a2 x1 t)) (h : Keeps C M F P s0 s) : Keeps C M F P s0 (inSession a1 a2 s) := by
  unfold inSession
  try dsimp only
  split
  · with_reducible exact h
  · with_reducible exact Keeps.ite (hf2 _ _ h) h

theorem writeRow_keeps {C F P : Prop} {s0 s : State} {a1} {a2} {a3} (h : Keeps C True F P s0 s) : Keeps C True F P s0 (writeRow a1 a2 a3 s) := by
  unfold writeRow
  try dsimp only
  with_reducible exact inSession_keeps (fun x1 t1 h1 => settle_keeps (emit_keeps (opDo_keeps h1))) h

theorem execRegisterWrite_keeps {C F P : Prop} {s0 s : State} {a1} {a2} {a3} (h : Keeps C True F P s0 s) : ∃ t, execRegisterWrite a1 a2 a3 s = .next t ∧ Keeps C True F P s0 t := by
  unfold execRegisterWrite
  try dsimp only
  refine ⟨_, rfl, ?_⟩
  with_reducible exact writeRow_keeps h

theorem execAliasWrite_keeps {C F P : Prop} {s0 s : State} {a1} {a2} {a3} (h : Keeps C True F P s0 s) : ∃ t, execAliasWrite a1 a2 a3 s = .next t ∧ Keeps C True F P s0 t := by
  unfold execAliasWrite
  try dsimp only
  refine ⟨_, rfl, ?_⟩
  with_reducible exact writeRow_keeps h

theorem execCounterWrite_keeps {C F P : Prop} {s0 s : State} {a1} {a2} {a3} (h : Keeps C True F P s0 s) : ∃ t, execCounterWrite a1 a2 a3 s = .next t ∧ Keeps C True F P s0 t := by
  unfold execCounterWrite
  try dsimp only
  refine ⟨_, rfl, ?_⟩
  with_reducible exact writeRow_keeps h

theorem execGuardValueHalf_keeps {C F P : Prop} {s0 s : State} {a1} {a2} {a3} (h : Keeps C True F P s0 s) : ∃ t, execGuardValueHalf a1 a2 a3 s = .next t ∧ Keeps C True F P s0 t := by
  unfold execGuardValueHalf
  try dsimp only
  refine ⟨_, rfl, ?_⟩
  with_reducible exact writeRow_keeps h

theorem execGuardComplementHalf_keeps {C F P : Prop} {s0 s : State} {a1} {a2} {a3} (h : Keeps C True F P s0 s) : ∃ t, execGuardComplementHalf a1 a2 a3 s = .next t ∧ Keeps C True F P s0 t := by
  unfold execGuardComplementHalf
  try dsimp only
  refine ⟨_, rfl, ?_⟩
  with_reducible exact writeRow_keeps h

theorem execGuardPairExpired_keeps {C M F P : Prop} {s0 s : State} {a1} (h : Keeps C M F P s0 s) : ∃ t, execGuardPairExpired a1 s = .next t ∧ Keeps C M F P s0 t := by
  unfold execGuardPairExpired
  try dsimp only
  refine ⟨_, rfl, ?_⟩
  with_reducible exact guardLapse_keeps h

theorem execCounterLowRead_keeps {C F P : Prop} {s0 s : State} {a1} {a2} (h : Keeps C True F P s0 s) : ∃ t, execCounterLowRead a1 a2 s = .next t ∧ Keeps C True F P s0 t := by
  unfold execCounterLowRead
  try dsimp only
  refine ⟨_, rfl, ?_⟩
  with_reducible exact inSession_keeps (fun x1 t1 h1 => emit_keeps (opDo_keeps h1)) h

theorem cmdWrite_keeps {C M F P : Prop} {s0 s : State} {a1} {a2} {a3} {a4} (h : Keeps C M F P s0 s) : Keeps C M F P s0 (cmdWrite a1 a2 a3 a4 s) := by
  unfold cmdWrite
  try dsimp only
  with_reducible exact inSession_keeps (fun x1 t1 h1 => emit_keeps (sessWrite_keeps h1)) h

theorem execLoadStaged_keeps {C M F P : Prop} {s0 s : State} {a1} (h : Keeps C M F P s0 s) : ∃ t, execLoadStaged a1 s = .next t ∧ Keeps C M F P s0 t := by
  unfold execLoadStaged
  try dsimp only
  refine ⟨_, rfl, ?_⟩
  with_reducible exact cmdWrite_keeps h

theorem execLoadFlash_keeps {C M F P : Prop} {s0 s : State} {a1} {a2} (h : Keeps C M F P s0 s) : ∃ t, execLoadFlash a1 a2 s = .next t ∧ Keeps C M F P s0 t := by
  unfold execLoadFlash
  try dsimp only
  refine ⟨_, rfl, ?_⟩
  with_reducible exact cmdWrite_keeps h

theorem execDiscard_keeps {C M F P : Prop} {s0 s : State} {a1} (h : Keeps C M F P s0 s) : ∃ t, execDiscard a1 s = .next t ∧ Keeps C M F P s0 t := by
  unfold execDiscard
  try dsimp only
  refine ⟨_, rfl, ?_⟩
  with_reducible exact cmdWrite_keeps h

theorem execAbortCommit_keeps {C M F P : Prop} {s0 s : State} {a1} (h : Keeps C M F P s0 s) : ∃ t, execAbortCommit a1 s = .next t ∧ Keeps C M F P s0 t := by
  unfold execAbortCommit
  try dsimp only
  refine ⟨_, rfl, ?_⟩
  with_reducible exact cmdWrite_keeps h

theorem execProofActive_keeps {C M F P : Prop} {s0 s : State} {a1} {a2} (h : Keeps C M F P s0 s) : ∃ t, execProofActive a1 a2 s = .next t ∧ Keeps C M F P s0 t := by
  unfold execProofActive
  try dsimp only
  refine ⟨_, rfl, ?_⟩
  with_reducible exact cmdWrite_keeps h

theorem execCapture_keeps {C M F P : Prop} {s0 s : State} {a1} (h : Keeps C M F P s0 s) : ∃ t, execCapture a1 s = .next t ∧ Keeps C M F P s0 t := by
  unfold execCapture
  try dsimp only
  refine ⟨_, rfl, ?_⟩
  with_reducible exact cmdWrite_keeps h

theorem execCheckpoint_keeps {C M F P : Prop} {s0 s : State} {a1} (h : Keeps C M F P s0 s) : ∃ t, execCheckpoint a1 s = .next t ∧ Keeps C M F P s0 t := by
  unfold execCheckpoint
  try dsimp only
  refine ⟨_, rfl, ?_⟩
  with_reducible exact cmdWrite_keeps h

theorem execFlush_keeps {C M F P : Prop} {s0 s : State} {a1} (h : Keeps C M F P s0 s) : ∃ t, execFlush a1 s = .next t ∧ Keeps C M F P s0 t := by
  unfold execFlush
  try dsimp only
  refine ⟨_, rfl, ?_⟩
  with_reducible exact cmdWrite_keeps h

theorem pairRow_keeps {C F P : Prop} {s0 s : State} {a1} {a2} {a3} (h : Keeps C True F P s0 s) : Keeps C True F P s0 (pairRow a1 a2 a3 s) := by
  unfold pairRow
  try dsimp only
  with_reducible refine inSession_keeps ?_ h
  intro x1 t1 h1
  split
  · with_reducible exact emit_keeps (regRefuse_keeps h1)
  · with_reducible exact settle_keeps (emit_keeps (regRefuse_keeps (pairDone_keeps (Keeps.of_mk h1))))

theorem execCommit_keeps {C F P : Prop} {s0 s : State} {a1} (h : Keeps C True F P s0 s) : ∃ t, execCommit a1 s = .next t ∧ Keeps C True F P s0 t := by
  unfold execCommit
  try dsimp only
  refine ⟨_, rfl, ?_⟩
  with_reducible exact pairRow_keeps h

theorem execEvict_keeps {C F P : Prop} {s0 s : State} {a1} (h : Keeps C True F P s0 s) : ∃ t, execEvict a1 s = .next t ∧ Keeps C True F P s0 t := by
  unfold execEvict
  try dsimp only
  refine ⟨_, rfl, ?_⟩
  with_reducible exact pairRow_keeps h

theorem execChannelReset_keeps {C F P : Prop} {s0 s : State} {a1} (h : Keeps C True F P s0 s) : ∃ t, execChannelReset a1 s = .next t ∧ Keeps C True F P s0 t := by
  unfold execChannelReset
  try dsimp only
  refine ⟨_, rfl, ?_⟩
  with_reducible exact pairRow_keeps h

theorem execIslandReset_keeps {C F P : Prop} {s0 s : State} {a1} (h : Keeps C True F P s0 s) : ∃ t, execIslandReset a1 s = .next t ∧ Keeps C True F P s0 t := by
  unfold execIslandReset
  try dsimp only
  refine ⟨_, rfl, ?_⟩
  with_reducible exact pairRow_keeps h

theorem execPortReset_keeps {C F P : Prop} {s0 s : State} {a1} (h : Keeps C True F P s0 s) : ∃ t, execPortReset a1 s = .next t ∧ Keeps C True F P s0 t := by
  unfold execPortReset
  try dsimp only
  refine ⟨_, rfl, ?_⟩
  with_reducible exact pairRow_keeps h

theorem execDeviceReset_keeps {C F P : Prop} {s0 s : State} {a1} (h : Keeps C True F P s0 s) : ∃ t, execDeviceReset a1 s = .next t ∧ Keeps C True F P s0 t := by
  unfold execDeviceReset
  try dsimp only
  refine ⟨_, rfl, ?_⟩
  with_reducible exact pairRow_keeps h

theorem execPwrSwitch_keeps {C F P : Prop} {s0 s : State} {a1} {a2} {a3} (h : Keeps C True F P s0 s) : ∃ t, execPwrSwitch a1 a2 a3 s = .next t ∧ Keeps C True F P s0 t := by
  unfold execPwrSwitch
  try dsimp only
  refine ⟨_, rfl, ?_⟩
  with_reducible exact pairRow_keeps h

theorem execFiEnable_keeps {C F P : Prop} {s0 s : State} {a1} {a2} (h : Keeps C True F P s0 s) : ∃ t, execFiEnable a1 a2 s = .next t ∧ Keeps C True F P s0 t := by
  unfold execFiEnable
  try dsimp only
  refine ⟨_, rfl, ?_⟩
  with_reducible exact pairRow_keeps h

theorem execFiDisable_keeps {C F P : Prop} {s0 s : State} {a1} {a2} (h : Keeps C True F P s0 s) : ∃ t, execFiDisable a1 a2 s = .next t ∧ Keeps C True F P s0 t := by
  unfold execFiDisable
  try dsimp only
  refine ⟨_, rfl, ?_⟩
  with_reducible exact pairRow_keeps h

theorem execYzPeerCommit_keeps {C F P : Prop} {s0 s : State} {a1} {a2} {a3} (h : Keeps C True F P s0 s) : ∃ t, execYzPeerCommit a1 a2 a3 s = .next t ∧ Keeps C True F P s0 t := by
  unfold execYzPeerCommit
  try dsimp only
  refine ⟨_, rfl, ?_⟩
  with_reducible exact pairRow_keeps h

theorem execYzWinCommit_keeps {C F P : Prop} {s0 s : State} {a1} {a2} {a3} {a4} (h : Keeps C True F P s0 s) : ∃ t, execYzWinCommit a1 a2 a3 a4 s = .next t ∧ Keeps C True F P s0 t := by
  unfold execYzWinCommit
  try dsimp only
  refine ⟨_, rfl, ?_⟩
  with_reducible exact pairRow_keeps h

theorem execSnapshotMarker_keeps {C M F P : Prop} {s0 s : State} {a1} (h : Keeps C M F P s0 s) : ∃ t, execSnapshotMarker a1 s = .next t ∧ Keeps C M F P s0 t := by
  unfold execSnapshotMarker
  try dsimp only
  refine ⟨_, rfl, ?_⟩
  with_reducible exact snapMarker_keeps h

theorem execSnapshotComplete_keeps {C M F P : Prop} {s0 s : State} (h : Keeps C M F P s0 s) : ∃ t, execSnapshotComplete s = .next t ∧ Keeps C M F P s0 t := by
  unfold execSnapshotComplete
  try dsimp only
  refine ⟨_, rfl, ?_⟩
  with_reducible exact snapDone_keeps h

theorem flushDone_keeps {C M P : Prop} {s0 s : State} (h : Keeps C M True P s0 s) : Keeps C M True P s0 (flushDone s) := by
  unfold flushDone
  try dsimp only
  with_reducible exact Keeps.ite h (Keeps.ite (auditFlush_keeps (Keeps.of_mk_all h id id (fputRound_wf _ _) id id (linked_drop _) (Nat.le_refl _) id (FusesKept.refl _) (List.prefix_refl _) (Nat.le_refl _) (.inr ⟨rfl, rfl⟩) (.inl trivial) (.inr rfl))) (rset_keeps (Keeps.of_mk_all h id id (fputRound_wf _ _) id id (linked_drop _) (Nat.le_refl _) id (FusesKept.refl _) (List.prefix_refl _) (Nat.le_refl _) (.inr ⟨rfl, rfl⟩) (.inl trivial) (.inr rfl))))

theorem execFlushDone_keeps {C M P : Prop} {s0 s : State} (h : Keeps C M True P s0 s) : ∃ t, execFlushDone s = .next t ∧ Keeps C M True P s0 t := by
  unfold execFlushDone
  try dsimp only
  refine ⟨_, rfl, ?_⟩
  with_reducible exact flushDone_keeps h

theorem auditRoleChange_keeps {C M F P : Prop} {s0 s : State} {a1} {a2} {a3} {a4} (h : Keeps C M F P s0 s) : Keeps C M F P s0 (auditRoleChange a1 a2 a3 a4 s) := by
  unfold auditRoleChange
  try dsimp only
  with_reducible exact auditFlush_keeps (audit_keeps h)

theorem debugUnlock_keeps {C M F P : Prop} {s0 s : State} {a1} (h : Keeps C M F P s0 s) : Keeps C M F P s0 (debugUnlock a1 s) := by
  unfold debugUnlock
  try dsimp only
  with_reducible exact inSession_keeps (fun x1 t1 h1 => Keeps.ite (emit_keeps h1) (Keeps.ite (emit_keeps (auditRefused_keeps h1)) (emit_keeps (Keeps.of_mk_all (auditRoleChange_keeps h1) id id id id id id (Nat.le_refl _) (fun _ => rfl) (FusesKept.refl _) (List.prefix_refl _) (Nat.le_refl _) (.inr ⟨rfl, rfl⟩) (.inr rfl) (.inr rfl))))) h

theorem execDebugUnlock_keeps {C M F P : Prop} {s0 s : State} {a1} (h : Keeps C M F P s0 s) : ∃ t, execDebugUnlock a1 s = .next t ∧ Keeps C M F P s0 t := by
  unfold execDebugUnlock
  try dsimp only
  refine ⟨_, rfl, ?_⟩
  with_reducible exact debugUnlock_keeps h

end Sys2Proof.Machine
end

