-- ==== Sys2Proof/Laws/KeepBoot.lean ====
section
/-! SUPPORT. What the functions of Machine/Boot.lean keep (Laws/Keep.lean). -/

namespace Sys2Proof.Machine

/-- A fuse request burns; it clears nothing. -/
theorem fuseRequest_kept {s : State} {b : List Byte} {f : Fuses} {x : W16} (h : fuseRequest s b = some (f, x)) :
    FusesKept s.fuses f := by
  unfold fuseRequest at h
  dsimp only at h
  generalize u8At b 0x31 = k at h
  split at h
  · cases h
  · split at h
    · simp only [Option.some.injEq, Prod.mk.injEq] at h
      rw [← h.1]
      split
      · exact FusesKept.refl _
      · rename_i hk
        refine ⟨fun j d hj => ?_, fun _ hj => hj, Nat.le_refl _, rfl, rfl⟩
        dsimp only
        rw [List.getElem?_set]
        split
        · rename_i e
          subst e
          rw [List.getD_eq_getElem?_getD, hj] at hk
          exact absurd rfl hk
        · exact hj
    · split at h
      · simp only [Option.some.injEq, Prod.mk.injEq] at h
        rw [← h.1]; exact FusesKept.refl _
      · simp only [Option.some.injEq, Prod.mk.injEq] at h
        rw [← h.1]
        refine ⟨fun _ _ hj => hj, fun j hj => ?_, Nat.le_refl _, rfl, rfl⟩
        dsimp only
        rw [List.getElem?_set]
        split
        · rename_i e
          subst e
          have hl : k < s.fuses.revoked.length := by
            rcases Nat.lt_or_ge k s.fuses.revoked.length with hl | hl
            · exact hl
            · rw [List.getElem?_eq_none hl] at hj; cases hj
          rw [if_pos hl]
        · exact hj
    · cases h

/-- The SVN counter only rises. -/
theorem svn_kept (f : Fuses) (n : Nat) : FusesKept f { f with svn := max f.svn n } :=
  ⟨fun _ _ h => h, fun _ h => h, Nat.le_max_left _ _, rfl, rfl⟩
theorem toStage_keeps {C M F P : Prop} {s0 s : State} {a1} (h : Keeps C M F P s0 s) : Keeps C M F P s0 (toStage a1 s) := by
  unfold toStage
  try dsimp only
  with_reducible exact pwrTrack_keeps (Keeps.of_mk h)

theorem domainsOn_keeps {C M F P : Prop} {s0 s : State} {a1} (h : Keeps C M F P s0 s) : Keeps C M F P s0 (domainsOn a1 s) := by
  unfold domainsOn
  try dsimp only
  with_reducible exact Keeps.of_mk h

theorem bootRom_keeps {C M F P : Prop} {s0 s : State} (h : Keeps C M F P s0 s) : Keeps C M F P s0 (bootRom s) := by
  unfold bootRom
  try dsimp only
  with_reducible exact Keeps.ite h (toStage_keeps (domainsOn_keeps (Keeps.of_mk h)))

theorem fuseApply_keeps {C M F P : Prop} {s0 s : State} {a1} (h : Keeps C M F P s0 s) : Keeps C M F P s0 (fuseApply a1 s) := by
  unfold fuseApply
  try dsimp only
  split
  · with_reducible exact h
  · with_reducible exact audit_keeps (Keeps.of_mk_all h id id id id id id (Nat.le_refl _) id (fuseRequest_kept (by assumption)) (List.prefix_refl _) (Nat.le_refl _) (.inr ⟨rfl, rfl⟩) (.inr rfl) (.inr rfl))

theorem pendingStep_keeps {C M P : Prop} {s0 s : State} {a1} {a2} (h : Keeps C M True P s0 s) : Keeps C M True P s0 (pendingStep a1 a2 s).2 := by
  unfold pendingStep
  try dsimp only
  with_reducible exact Keeps.ite2 h (audit_keeps (fwrite_keeps (Keeps.ite (fwrite_keeps h) h)))

theorem firmwareRuns_keeps {C M P : Prop} {s0 s : State} {a1} {a2} {a3} {a4} (h : Keeps C M True P s0 s) : Keeps C M True P s0 (firmwareRuns a1 a2 a3 a4 s) := by
  unfold firmwareRuns
  try dsimp only
  with_reducible exact toStage_keeps (Keeps.of_mk (pendingStep_keeps (fuseApply_keeps h)))

theorem bootFirmware_keeps {C M P : Prop} {s0 s : State} {a1} {a2} {a3} {a4} (h : Keeps C M True P s0 s) : Keeps C M True P s0 (bootFirmware a1 a2 a3 a4 s) := by
  unfold bootFirmware
  try dsimp only
  with_reducible exact Keeps.ite h (Keeps.ite (firmwareRuns_keeps (Keeps.ite (bootCtlSet_keeps h) h)) (Keeps.ite (firmwareRuns_keeps (Keeps.ite (bootCtlSet_keeps h) h)) (alertEdge_keeps (Keeps.of_mk (Keeps.ite (bootCtlSet_keeps h) h)))))

theorem hbmTraining_keeps {C F P : Prop} {s0 s : State} {a1} (h : Keeps C True F P s0 s) : Keeps C True F P s0 (hbmTraining a1 s) := by
  unfold hbmTraining
  try dsimp only
  with_reducible exact Keeps.ite h (Keeps.ite (toStage_keeps (keeps_foldl (fun t1 x1 h1 => stackLost_keeps h1) h)) (toStage_keeps (domainsOn_keeps (Keeps.of_mk_all (keeps_foldl (fun t1 x1 h1 => Keeps.of_mk h1) h) (mfilter_wf _) (mfilter_wf _) id id id id (Nat.le_refl _) id (FusesKept.refl _) (List.prefix_refl _) (Nat.le_refl _) (.inl trivial) (.inr rfl) (.inr rfl)))))

theorem straitTraining_keeps {C M F P : Prop} {s0 s : State} {a1} {a2} (h : Keeps C M F P s0 s) : Keeps C M F P s0 (straitTraining a1 a2 s) := by
  unfold straitTraining
  try dsimp only
  with_reducible exact Keeps.ite h (Keeps.ite (toStage_keeps (keeps_foldl (fun t1 x1 h1 => harbourGone_keeps h1) (keeps_foldl (fun t1 x1 h1 => straitDieLost_keeps h1) (Keeps.of_mk h)))) (toStage_keeps (domainsOn_keeps (Keeps.of_mk h))))

theorem burinWords_keeps {C M F P : Prop} {s0 s : State} {a1} {a2} (h : Keeps C M F P s0 s) : Keeps C M F P s0 (burinWords a1 a2 s) := by
  unfold burinWords
  try dsimp only
  with_reducible exact keeps_foldl (fun t1 x1 h1 => burinWrite_keeps h1) h

theorem burinEntry_keeps {C M F P : Prop} {s0 s : State} {a1} {a2} {a3} (h : Keeps C M F P s0 s) : Keeps C M F P s0 (burinEntry a1 a2 a3 s) := by
  unfold burinEntry
  try dsimp only
  with_reducible exact burinWrite_keeps (keeps_foldl (fun t1 x1 h1 => burinWrite_keeps h1) h)

theorem cfgLoad_keeps {C M F P : Prop} {s0 s : State} {a1} (h : Keeps C M F P s0 s) : Keeps C M F P s0 (cfgLoad a1 s) := by
  unfold cfgLoad
  try dsimp only
  with_reducible exact keeps_foldl (fun t1 x1 h1 => keeps_foldl (fun t2 x2 h2 => burinEntry_keeps h2) (burinEntry_keeps h1)) (burinWrite_keeps (burinWords_keeps (keeps_foldl (fun t1 x1 h1 => burinWords_keeps h1) (burinWrite_keeps (burinWrite_keeps (burinWrite_keeps h))))))

theorem bootstrap_keeps {C M F P : Prop} {s0 s : State} (h : Keeps C M F P s0 s) : Keeps C M F P s0 (bootstrap s) := by
  unfold bootstrap
  try dsimp only
  with_reducible exact keeps_foldl (fun t1 x1 h1 => burinEntry_keeps h1) (burinWords_keeps h)

theorem islandBringup_keeps {C M F P : Prop} {s0 s : State} {a1} {a2} {a3} (h : Keeps C M F P s0 s) : Keeps C M F P s0 (islandBringup a1 a2 a3 s) := by
  unfold islandBringup
  try dsimp only
  with_reducible refine Keeps.ite h ?_
  with_reducible refine Keeps.ite (toStage_keeps (keeps_foldl (fun t1 x1 h1 => islandLost_keeps h1) h)) ?_
  with_reducible refine toStage_keeps ?_
  split
  · with_reducible exact bootstrap_keeps (domainsOff_keeps (keeps_foldl (fun t1 x1 h1 => Keeps.of_mk h1) h))
  · with_reducible exact cfgLoad_keeps (Keeps.of_mk (domainsOff_keeps (keeps_foldl (fun t1 x1 h1 => Keeps.of_mk h1) h)))

theorem ethernetLinkup_keeps {C M F P : Prop} {s0 s : State} {a1} (h : Keeps C M F P s0 s) : Keeps C M F P s0 (ethernetLinkup a1 s) := by
  unfold ethernetLinkup
  try dsimp only
  with_reducible exact Keeps.ite h (keeps_foldl (fun t1 x1 h1 => stateOf_keeps h1 (execLinkUp_keeps h1)) h)

theorem bootRecords_keeps {C M F P : Prop} {s0 s : State} (h : Keeps C M F P s0 s) : Keeps C M F P s0 (bootRecords s) := by
  unfold bootRecords
  try dsimp only
  with_reducible exact Keeps.ite (auditFlush_keeps (keeps_foldl (fun t1 x1 h1 => audit_keeps h1) (audit_keeps (Keeps.of_mk_all h id id id id id id (Nat.le_refl _) id (FusesKept.refl _) (List.prefix_refl _) (Nat.le_refl _) (.inr ⟨rfl, rfl⟩) (.inr rfl) (.inr rfl))))) (keeps_foldl (fun t1 x1 h1 => audit_keeps h1) (audit_keeps (Keeps.of_mk_all h id id id id id id (Nat.le_refl _) id (FusesKept.refl _) (List.prefix_refl _) (Nat.le_refl _) (.inr ⟨rfl, rfl⟩) (.inr rfl) (.inr rfl))))

theorem trialConfirm_keeps {C M P : Prop} {s0 s : State} (h : Keeps C M True P s0 s) : Keeps C M True P s0 (trialConfirm s) := by
  unfold trialConfirm
  try dsimp only
  with_reducible exact Keeps.ite h (Keeps.ite (Keeps.of_mk_all (bootCtlSet_keeps h) id id id id id id (Nat.le_refl _) id (svn_kept _ _) (List.prefix_refl _) (Nat.le_refl _) (.inr ⟨rfl, rfl⟩) (.inl trivial) (.inr rfl)) (bootCtlSet_keeps h))

theorem readyNoPlate_keeps {C M P : Prop} {s0 s : State} (h : Keeps C M True P s0 s) : Keeps C M True P s0 (readyNoPlate s) := by
  unfold readyNoPlate
  try dsimp only
  with_reducible exact Keeps.ite h (Keeps.ite (replayChans_keeps (toStage_keeps h)) (Keeps.ite (deviceWarm_keeps (trialConfirm_keeps (bootRecords_keeps (toStage_keeps (rset_keeps (Keeps.of_mk h)))))) (trialConfirm_keeps (bootRecords_keeps (toStage_keeps (rset_keeps (Keeps.of_mk h)))))))

theorem bootPlateLoad_keeps {C M F P : Prop} {s0 s : State} (h : Keeps C M F P s0 s) : Keeps C M F P s0 (bootPlateLoad s) := by
  unfold bootPlateLoad
  try dsimp only
  with_reducible exact Keeps.ite h (toStage_keeps (loadStart_keeps (Keeps.of_mk h)))

theorem execBootRom_keeps {C M F P : Prop} {s0 s : State} (h : Keeps C M F P s0 s) : ∃ t, execBootRom s = .next t ∧ Keeps C M F P s0 t := by
  unfold execBootRom
  try dsimp only
  refine ⟨_, rfl, ?_⟩
  with_reducible exact bootRom_keeps h

theorem execBootFirmware_keeps {C M P : Prop} {s0 s : State} {a1} {a2} {a3} {a4} (h : Keeps C M True P s0 s) : ∃ t, execBootFirmware a1 a2 a3 a4 s = .next t ∧ Keeps C M True P s0 t := by
  unfold execBootFirmware
  try dsimp only
  refine ⟨_, rfl, ?_⟩
  with_reducible exact bootFirmware_keeps h

theorem execHbmTraining_keeps {C F P : Prop} {s0 s : State} {a1} (h : Keeps C True F P s0 s) : ∃ t, execHbmTraining a1 s = .next t ∧ Keeps C True F P s0 t := by
  unfold execHbmTraining
  try dsimp only
  refine ⟨_, rfl, ?_⟩
  with_reducible exact settle_keeps (hbmTraining_keeps h)

theorem execStraitTraining_keeps {C F P : Prop} {s0 s : State} {a1} {a2} (h : Keeps C True F P s0 s) : ∃ t, execStraitTraining a1 a2 s = .next t ∧ Keeps C True F P s0 t := by
  unfold execStraitTraining
  try dsimp only
  refine ⟨_, rfl, ?_⟩
  with_reducible exact settle_keeps (straitTraining_keeps h)

theorem execIslandBringup_keeps {C F P : Prop} {s0 s : State} {a1} {a2} {a3} (h : Keeps C True F P s0 s) : ∃ t, execIslandBringup a1 a2 a3 s = .next t ∧ Keeps C True F P s0 t := by
  unfold execIslandBringup
  try dsimp only
  refine ⟨_, rfl, ?_⟩
  with_reducible exact settle_keeps (islandBringup_keeps h)

theorem execEthernetLinkup_keeps {C M F P : Prop} {s0 s : State} {a1} (h : Keeps C M F P s0 s) : ∃ t, execEthernetLinkup a1 s = .next t ∧ Keeps C M F P s0 t := by
  unfold execEthernetLinkup
  try dsimp only
  refine ⟨_, rfl, ?_⟩
  with_reducible exact ethernetLinkup_keeps h

theorem execReadyNoPlate_keeps {C P : Prop} {s0 s : State} (h : Keeps C True True P s0 s) : ∃ t, execReadyNoPlate s = .next t ∧ Keeps C True True P s0 t := by
  unfold execReadyNoPlate
  try dsimp only
  refine ⟨_, rfl, ?_⟩
  with_reducible exact settle_keeps (readyNoPlate_keeps h)

theorem execBootPlateLoad_keeps {C M F P : Prop} {s0 s : State} (h : Keeps C M F P s0 s) : ∃ t, execBootPlateLoad s = .next t ∧ Keeps C M F P s0 t := by
  unfold execBootPlateLoad
  try dsimp only
  refine ⟨_, rfl, ?_⟩
  with_reducible exact bootPlateLoad_keeps h

end Sys2Proof.Machine
end

