-- ==== Sys2Proof/Laws/KeepFaults.lean ====
section
/-! SUPPORT. What the functions of Machine/Faults.lean keep (Laws/Keep.lean). -/

namespace Sys2Proof.Machine

theorem straitFlit_keeps {C F P : Prop} {s0 s : State} {a1} {a2} {a3} {a4} {a5} {a6} (h : Keeps C True F P s0 s) : Keeps C True F P s0 (straitFlit a1 a2 a3 a4 a5 a6 s) := by
  unfold straitFlit
  try dsimp only
  with_reducible exact Keeps.ite (arrive_keeps (flitOut_keeps h)) h

theorem execStraitFlit_keeps {C F P : Prop} {s0 s : State} {a1} {a2} {a3} {a4} {a5} {a6} (h : Keeps C True F P s0 s) : ∃ t, execStraitFlit a1 a2 a3 a4 a5 a6 s = .next t ∧ Keeps C True F P s0 t := by
  unfold execStraitFlit
  try dsimp only
  refine ⟨_, rfl, ?_⟩
  with_reducible exact straitFlit_keeps h

theorem execFlitResend_keeps {C F P : Prop} {s0 s : State} {a1} {a2} {a3} (h : Keeps C True F P s0 s) : ∃ t, execFlitResend a1 a2 a3 s = .next t ∧ Keeps C True F P s0 t := by
  unfold execFlitResend
  try dsimp only
  refine ⟨_, rfl, ?_⟩
  with_reducible exact settle_keeps (flitResend_keeps h)

theorem execStraitLinkLost_keeps {C F P : Prop} {s0 s : State} {a1} (h : Keeps C True F P s0 s) : ∃ t, execStraitLinkLost a1 s = .next t ∧ Keeps C True F P s0 t := by
  unfold execStraitLinkLost
  try dsimp only
  refine ⟨_, rfl, ?_⟩
  with_reducible exact settle_keeps (straitLinkLost_keeps h)

theorem execStraitDieLost_keeps {C F P : Prop} {s0 s : State} {a1} (h : Keeps C True F P s0 s) : ∃ t, execStraitDieLost a1 s = .next t ∧ Keeps C True F P s0 t := by
  unfold execStraitDieLost
  try dsimp only
  refine ⟨_, rfl, ?_⟩
  with_reducible exact settle_keeps (straitDieLost_keeps h)

theorem execIslandLost_keeps {C F P : Prop} {s0 s : State} {a1} (h : Keeps C True F P s0 s) : ∃ t, execIslandLost a1 s = .next t ∧ Keeps C True F P s0 t := by
  unfold execIslandLost
  try dsimp only
  refine ⟨_, rfl, ?_⟩
  with_reducible exact settle_keeps (islandLost_keeps h)

theorem execStackLost_keeps {C F P : Prop} {s0 s : State} {a1} (h : Keeps C True F P s0 s) : ∃ t, execStackLost a1 s = .next t ∧ Keeps C True F P s0 t := by
  unfold execStackLost
  try dsimp only
  refine ⟨_, rfl, ?_⟩
  with_reducible exact settle_keeps (stackLost_keeps h)

theorem execHbmScrub_keeps {C F P : Prop} {s0 s : State} {a1} {a2} {a3} (h : Keeps C True F P s0 s) : ∃ t, execHbmScrub a1 a2 a3 s = .next t ∧ Keeps C True F P s0 t := by
  unfold execHbmScrub
  try dsimp only
  refine ⟨_, rfl, ?_⟩
  with_reducible exact settle_keeps (ueDeclare_keeps (hbmScrub_keeps h))

theorem execHarbourLost_keeps {C F P : Prop} {s0 s : State} {a1} (h : Keeps C True F P s0 s) : ∃ t, execHarbourLost a1 s = .next t ∧ Keeps C True F P s0 t := by
  unfold execHarbourLost
  try dsimp only
  refine ⟨_, rfl, ?_⟩
  with_reducible exact settle_keeps (harbourGone_keeps h)

theorem execCapeLost_keeps {C F P : Prop} {s0 s : State} (h : Keeps C True F P s0 s) : ∃ t, execCapeLost s = .next t ∧ Keeps C True F P s0 t := by
  unfold execCapeLost
  try dsimp only
  refine ⟨_, rfl, ?_⟩
  with_reducible exact settle_keeps (capeGone_keeps h)

theorem execFallbackSwitch_keeps {C M F P : Prop} {s0 s : State} {a1} (h : Keeps C M F P s0 s) : ∃ t, execFallbackSwitch a1 s = .next t ∧ Keeps C M F P s0 t := by
  unfold execFallbackSwitch
  try dsimp only
  refine ⟨_, rfl, ?_⟩
  with_reducible exact fallbackSwitch_keeps h

theorem execMirrorRebuilt_keeps {C F P : Prop} {s0 s : State} {a1} (h : Keeps C True F P s0 s) : ∃ t, execMirrorRebuilt a1 s = .next t ∧ Keeps C True F P s0 t := by
  unfold execMirrorRebuilt
  try dsimp only
  refine ⟨_, rfl, ?_⟩
  with_reducible exact mirrorRebuilt_keeps h

theorem execRecoveryComplete_keeps {C F P : Prop} {s0 s : State} (h : Keeps C True F P s0 s) : ∃ t, execRecoveryComplete s = .next t ∧ Keeps C True F P s0 t := by
  unfold execRecoveryComplete
  try dsimp only
  refine ⟨_, rfl, ?_⟩
  with_reducible exact settle_keeps (recoveryComplete_keeps h)

theorem execHbmClockLost_keeps {C F P : Prop} {s0 s : State} {a1} (h : Keeps C True F P s0 s) : ∃ t, execHbmClockLost a1 s = .next t ∧ Keeps C True F P s0 t := by
  unfold execHbmClockLost
  try dsimp only
  refine ⟨_, rfl, ?_⟩
  with_reducible exact settle_keeps (hbmClockLost_keeps h)

theorem execEthClockLost_keeps {C F P : Prop} {s0 s : State} {a1} (h : Keeps C True F P s0 s) : ∃ t, execEthClockLost a1 s = .next t ∧ Keeps C True F P s0 t := by
  unfold execEthClockLost
  try dsimp only
  refine ⟨_, rfl, ?_⟩
  with_reducible exact settle_keeps (ethClockLost_keeps h)

theorem execEthClockReturn_keeps {C M F P : Prop} {s0 s : State} {a1} (h : Keeps C M F P s0 s) : ∃ t, execEthClockReturn a1 s = .next t ∧ Keeps C M F P s0 t := by
  unfold execEthClockReturn
  try dsimp only
  refine ⟨_, rfl, ?_⟩
  with_reducible exact ethClockReturn_keeps h

theorem execWarmN_keeps {C F P : Prop} {s0 s : State} (h : Keeps C True F P s0 s) : ∃ t, execWarmN s = .next t ∧ Keeps C True F P s0 t := by
  unfold execWarmN
  try dsimp only
  refine ⟨_, rfl, ?_⟩
  with_reducible exact settle_keeps (warmPin_keeps h)

theorem execFiHoldTimeout_keeps {C F P : Prop} {s0 s : State} {a1} (h : Keeps C True F P s0 s) : ∃ t, execFiHoldTimeout a1 s = .next t ∧ Keeps C True F P s0 t := by
  unfold execFiHoldTimeout
  try dsimp only
  refine ⟨_, rfl, ?_⟩
  with_reducible exact settle_keeps (fiRelease_keeps h)

end Sys2Proof.Machine
end

