-- ==== Sys2Proof/Laws/KeepPower.lean ====
section
/-! SUPPORT. What the functions of Machine/Power.lean keep (Laws/Keep.lean). -/

namespace Sys2Proof.Machine

theorem reset_stores : Stores State.reset := by unfold Stores; decide

/-- A cold restart leaves a sound state, and fuses and outputs as they were. -/
theorem coldState_keeps {F : Prop} {s0 s : State} (h : Keeps True True F True s0 s) : Keeps True True F True s0 (coldState s) :=
  h.trans ⟨rfl, fun x => ⟨⟨reset_stores.1, reset_stores.2.1, x.1.2.2.1, reset_stores.2.2.2.1, reset_stores.2.2.2.2⟩, trivial⟩,
    FusesKept.refl _, List.prefix_refl _, .inl trivial, .inl trivial, .inr rfl, .inl trivial⟩
theorem zeroCounters_keeps {C M F P : Prop} {s0 s : State} {a1} (h : Keeps C M F P s0 s) : Keeps C M F P s0 (zeroCounters a1 s) := by
  unfold zeroCounters
  try dsimp only
  with_reducible exact Keeps.of_mk_all h id id id id (mfilter_wf _) id (Nat.le_refl _) id (FusesKept.refl _) (List.prefix_refl _) (Nat.le_refl _) (.inr ⟨rfl, rfl⟩) (.inr rfl) (.inr rfl)

theorem domainEffect_keeps {C F P : Prop} {s0 s : State} {a1} {a2} (h : Keeps C True F P s0 s) : Keeps C True F P s0 (domainEffect a1 a2 s) := by
  unfold domainEffect
  try dsimp only
  with_reducible refine Keeps.ite ?_ (Keeps.ite (Keeps.ite (zeroCounters_keeps h) h) (Keeps.ite (linksDown_keeps h) h))
  split
  · with_reducible exact zeroCounters_keeps h
  · with_reducible exact zeroCounters_keeps h
  · with_reducible exact Keeps.of_mk_all h (mfilter_wf _) (mfilter_wf _) id id id id (Nat.le_refl _) id (FusesKept.refl _) (List.prefix_refl _) (Nat.le_refl _) (.inl trivial) (.inr rfl) (.inr rfl)
  · with_reducible exact h

theorem domainSwitchDone_keeps {C F P : Prop} {s0 s : State} {a1} (h : Keeps C True F P s0 s) : Keeps C True F P s0 (domainSwitchDone a1 s) := by
  unfold domainSwitchDone
  try dsimp only
  with_reducible exact Keeps.ite h (pwrTrack_keeps (domainEffect_keeps (Keeps.of_mk h)))

theorem railPut_keeps {C M F P : Prop} {s0 s : State} {a1} {a2} (h : Keeps C M F P s0 s) : Keeps C M F P s0 (railPut a1 a2 s) := by
  unfold railPut
  try dsimp only
  with_reducible exact Keeps.of_mk h

theorem railSample_keeps {C M F P : Prop} {s0 s : State} {a1} {a2} (h : Keeps C M F P s0 s) : Keeps C M F P s0 (railSample a1 a2 s) := by
  unfold railSample
  try dsimp only
  with_reducible exact Keeps.ite h (Keeps.ite (Keeps.ite (railPut_keeps h) (railPut_keeps h)) (Keeps.ite (railPut_keeps h) h))

theorem tripAll_keeps {C M F P : Prop} {s0 s : State} (h : Keeps C M F P s0 s) : Keeps C M F P s0 (tripAll s) := by
  unfold tripAll
  try dsimp only
  with_reducible exact keeps_foldl (fun t1 x1 h1 => railPut_keeps h1) (Keeps.of_mk h)

theorem thermalSample_keeps {C M F P : Prop} {s0 s : State} {a1} {a2} (h : Keeps C M F P s0 s) : Keeps C M F P s0 (thermalSample a1 a2 s) := by
  unfold thermalSample
  try dsimp only
  with_reducible exact Keeps.ite h (keeps_foldl (fun t1 x1 h1 => stackLost_keeps h1) (Keeps.ite (Keeps.ite (alert_keeps (Keeps.of_mk h)) (Keeps.of_mk h)) (Keeps.ite (tripAll_keeps (Keeps.ite (alert_keeps (Keeps.of_mk h)) (Keeps.of_mk h))) (keeps_foldl (fun t1 x1 h1 => railSample_keeps h1) (Keeps.ite (alert_keeps (Keeps.of_mk h)) (Keeps.of_mk h))))))

theorem powerSample_keeps {C M F P : Prop} {s0 s : State} {a1} (h : Keeps C M F P s0 s) : Keeps C M F P s0 (powerSample a1 s) := by
  unfold powerSample
  try dsimp only
  with_reducible refine Keeps.ite h ?_
  with_reducible refine Keeps.ite ?_ ?_
  · with_reducible refine Keeps.ite (Keeps.of_mk h) ?_
    split
    · with_reducible exact Keeps.of_mk h
    · with_reducible exact Keeps.ite (Keeps.of_mk h) (keeps_foldl (fun t1 x1 h1 => Keeps.ite (railPut_keeps h1) h1) (Keeps.of_mk h))
  · with_reducible refine keeps_foldl (fun t1 x1 h1 => Keeps.ite (railPut_keeps h1) h1) ?_
    with_reducible refine Keeps.ite (Keeps.of_mk h) ?_
    split
    · with_reducible exact Keeps.of_mk h
    · with_reducible exact Keeps.ite (Keeps.of_mk h) (keeps_foldl (fun t1 x1 h1 => Keeps.ite (railPut_keeps h1) h1) (Keeps.of_mk h))

theorem porNAssert_keeps {F : Prop} {s0 s : State} {a1} (h : Keeps True True F True s0 s) : Keeps True True F True s0 (porNAssert a1 s) := by
  unfold porNAssert
  try dsimp only
  with_reducible exact Keeps.ite (coldState_keeps h) (Keeps.ite (coldState_keeps (takeFree_keeps h)) (takeFree_keeps h))

theorem porNRelease_keeps {C M F : Prop} {s0 s : State} (h : Keeps C M F True s0 s) : Keeps C M F True s0 (porNRelease s) := by
  unfold porNRelease
  try dsimp only
  with_reducible exact Keeps.ite h (Keeps.of_mk_all h id id id id id id (Nat.le_refl _) id (FusesKept.refl _) (List.prefix_refl _) (Nat.le_refl _) (.inr ⟨rfl, rfl⟩) (.inr rfl) (.inl trivial))

theorem powerLoss_keeps {F : Prop} {s0 s : State} (h : Keeps True True F True s0 s) : Keeps True True F True s0 (powerLoss s) := by
  unfold powerLoss
  try dsimp only
  with_reducible exact Keeps.ite h (Keeps.of_mk_all (coldState_keeps (Keeps.of_mk_all h id id id id id id (Nat.le_refl _) id (FusesKept.refl _) (List.prefix_refl _) (Nat.le_refl _) (.inl trivial) (.inr rfl) (.inl trivial))) id id id id id id (Nat.le_refl _) id (FusesKept.refl _) (List.prefix_refl _) (Nat.le_refl _) (.inl trivial) (.inr rfl) (.inl trivial))

theorem powerUp_keeps {C M F : Prop} {s0 s : State} (h : Keeps C M F True s0 s) : Keeps C M F True s0 (powerUp s) := by
  unfold powerUp
  try dsimp only
  with_reducible exact Keeps.ite h (Keeps.of_mk_all h id id id id id id (Nat.le_refl _) id (FusesKept.refl _) (List.prefix_refl _) (Nat.le_refl _) (.inr ⟨rfl, rfl⟩) (.inr rfl) (.inl trivial))

theorem i3cPointer_keeps {C M F : Prop} {s0 s : State} {a1} (h : Keeps C M F True s0 s) : Keeps C M F True s0 (i3cPointer a1 s) := by
  unfold i3cPointer
  try dsimp only
  with_reducible exact Keeps.ite h (Keeps.of_mk_all h id id id id id id (Nat.le_refl _) id (FusesKept.refl _) (List.prefix_refl _) (Nat.le_refl _) (.inr ⟨rfl, rfl⟩) (.inr rfl) (.inl trivial))

theorem i3cRead_keeps {C M F : Prop} {s0 s : State} {a1} (h : Keeps C M F True s0 s) : Keeps C M F True s0 (i3cRead a1 s) := by
  unfold i3cRead
  try dsimp only
  with_reducible exact Keeps.ite h (emit_keeps (Keeps.of_mk_all h id id id id id id (Nat.le_refl _) id (FusesKept.refl _) (List.prefix_refl _) (Nat.le_refl _) (.inr ⟨rfl, rfl⟩) (.inr rfl) (.inl trivial)))

theorem tap_keeps {C M F : Prop} {s0 s : State} {a1} {a2} (hf2 : ∀ t, Keeps C M F True s0 t → Keeps C M F True s0 (a2 t)) (h : Keeps C M F True s0 s) : Keeps C M F True s0 (tap a1 a2 s) := by
  unfold tap
  try dsimp only
  with_reducible exact Keeps.ite h (hf2 _ (Keeps.of_mk_all h id id id id id id (Nat.le_refl _) id (FusesKept.refl _) (List.prefix_refl _) (Nat.le_refl _) (.inr ⟨rfl, rfl⟩) (.inr rfl) (.inl trivial)))

theorem tapBypass_keeps {C M F P : Prop} {s0 s : State} (h : Keeps C M F P s0 s) : Keeps C M F P s0 (tapBypass s) := by
  unfold tapBypass
  try dsimp only
  with_reducible exact emit_keeps h

theorem tapBoundary_keeps {C M F P : Prop} {s0 s : State} (h : Keeps C M F P s0 s) : Keeps C M F P s0 (tapBoundary s) := by
  unfold tapBoundary
  try dsimp only
  with_reducible exact emit_keeps (takeFree_keeps h)

theorem samplePreload_keeps {C M F : Prop} {s0 s : State} {a1} (h : Keeps C M F True s0 s) : Keeps C M F True s0 (samplePreload a1 s) := by
  unfold samplePreload
  try dsimp only
  with_reducible refine tap_keeps ?_ h
  intro t1 h1
  split
  · with_reducible exact Keeps.of_mk_all (tapBoundary_keeps h1) id id id id id id (Nat.le_refl _) id (FusesKept.refl _) (List.prefix_refl _) (Nat.le_refl _) (.inr ⟨rfl, rfl⟩) (.inr rfl) (.inl trivial)
  · with_reducible exact tapBoundary_keeps h1

theorem trst_keeps {C M F : Prop} {s0 s : State} {a1} (h : Keeps C M F True s0 s) : Keeps C M F True s0 (trst a1 s) := by
  unfold trst
  try dsimp only
  with_reducible exact Keeps.ite (Keeps.of_mk_all h id id id id id id (Nat.le_refl _) id (FusesKept.refl _) (List.prefix_refl _) (Nat.le_refl _) (.inr ⟨rfl, rfl⟩) (.inr rfl) (.inl trivial)) (Keeps.of_mk_all h id id id id id id (Nat.le_refl _) id (FusesKept.refl _) (List.prefix_refl _) (Nat.le_refl _) (.inr ⟨rfl, rfl⟩) (.inr rfl) (.inl trivial))

theorem execDomainSwitchDone_keeps {C F P : Prop} {s0 s : State} {a1} (h : Keeps C True F P s0 s) : ∃ t, execDomainSwitchDone a1 s = .next t ∧ Keeps C True F P s0 t := by
  unfold execDomainSwitchDone
  try dsimp only
  refine ⟨_, rfl, ?_⟩
  with_reducible exact domainSwitchDone_keeps h

theorem execThermalSample_keeps {C F P : Prop} {s0 s : State} {a1} {a2} (h : Keeps C True F P s0 s) : ∃ t, execThermalSample a1 a2 s = .next t ∧ Keeps C True F P s0 t := by
  unfold execThermalSample
  try dsimp only
  refine ⟨_, rfl, ?_⟩
  with_reducible exact settle_keeps (thermalSample_keeps h)

theorem execPowerSample_keeps {C M F P : Prop} {s0 s : State} {a1} (h : Keeps C M F P s0 s) : ∃ t, execPowerSample a1 s = .next t ∧ Keeps C M F P s0 t := by
  unfold execPowerSample
  try dsimp only
  refine ⟨_, rfl, ?_⟩
  with_reducible exact powerSample_keeps h

theorem execPorNAssert_keeps {F : Prop} {s0 s : State} {a1} (h : Keeps True True F True s0 s) : ∃ t, execPorNAssert a1 s = .next t ∧ Keeps True True F True s0 t := by
  unfold execPorNAssert
  try dsimp only
  refine ⟨_, rfl, ?_⟩
  with_reducible exact porNAssert_keeps h

theorem execPorNRelease_keeps {C M F : Prop} {s0 s : State} (h : Keeps C M F True s0 s) : ∃ t, execPorNRelease s = .next t ∧ Keeps C M F True s0 t := by
  unfold execPorNRelease
  try dsimp only
  refine ⟨_, rfl, ?_⟩
  with_reducible exact porNRelease_keeps h

theorem execPowerLoss_keeps {F : Prop} {s0 s : State} (h : Keeps True True F True s0 s) : ∃ t, execPowerLoss s = .next t ∧ Keeps True True F True s0 t := by
  unfold execPowerLoss
  try dsimp only
  refine ⟨_, rfl, ?_⟩
  with_reducible exact powerLoss_keeps h

theorem execPowerUp_keeps {C M F : Prop} {s0 s : State} (h : Keeps C M F True s0 s) : ∃ t, execPowerUp s = .next t ∧ Keeps C M F True s0 t := by
  unfold execPowerUp
  try dsimp only
  refine ⟨_, rfl, ?_⟩
  with_reducible exact powerUp_keeps h

theorem execI3cPointerWrite_keeps {C M F : Prop} {s0 s : State} {a1} (h : Keeps C M F True s0 s) : ∃ t, execI3cPointerWrite a1 s = .next t ∧ Keeps C M F True s0 t := by
  unfold execI3cPointerWrite
  try dsimp only
  refine ⟨_, rfl, ?_⟩
  with_reducible exact i3cPointer_keeps h

theorem execI3cRead_keeps {C M F : Prop} {s0 s : State} {a1} (h : Keeps C M F True s0 s) : ∃ t, execI3cRead a1 s = .next t ∧ Keeps C M F True s0 t := by
  unfold execI3cRead
  try dsimp only
  refine ⟨_, rfl, ?_⟩
  with_reducible exact i3cRead_keeps h

theorem execJtagBypass_keeps {C M F : Prop} {s0 s : State} (h : Keeps C M F True s0 s) : ∃ t, execJtagBypass s = .next t ∧ Keeps C M F True s0 t := by
  unfold execJtagBypass
  try dsimp only
  refine ⟨_, rfl, ?_⟩
  with_reducible exact tap_keeps (fun t1 h1 => tapBypass_keeps h1) h

theorem execJtagIdcode_keeps {C M F : Prop} {s0 s : State} (h : Keeps C M F True s0 s) : ∃ t, execJtagIdcode s = .next t ∧ Keeps C M F True s0 t := by
  unfold execJtagIdcode
  try dsimp only
  refine ⟨_, rfl, ?_⟩
  with_reducible exact tap_keeps (fun t1 h1 => emit_keeps h1) h

theorem execSamplePreload_keeps {C M F : Prop} {s0 s : State} {a1} (h : Keeps C M F True s0 s) : ∃ t, execSamplePreload a1 s = .next t ∧ Keeps C M F True s0 t := by
  unfold execSamplePreload
  try dsimp only
  refine ⟨_, rfl, ?_⟩
  with_reducible exact samplePreload_keeps h

theorem execExtest_keeps {C M F : Prop} {s0 s : State} (h : Keeps C M F True s0 s) : ∃ t, execExtest s = .next t ∧ Keeps C M F True s0 t := by
  unfold execExtest
  try dsimp only
  refine ⟨_, rfl, ?_⟩
  with_reducible exact tap_keeps (fun t1 h1 => Keeps.ite (tapBypass_keeps h1) (tapBoundary_keeps h1)) h

theorem execClamp_keeps {C M F : Prop} {s0 s : State} (h : Keeps C M F True s0 s) : ∃ t, execClamp s = .next t ∧ Keeps C M F True s0 t := by
  unfold execClamp
  try dsimp only
  refine ⟨_, rfl, ?_⟩
  with_reducible exact tap_keeps (fun t1 h1 => tapBypass_keeps h1) h

theorem execHighz_keeps {C M F : Prop} {s0 s : State} (h : Keeps C M F True s0 s) : ∃ t, execHighz s = .next t ∧ Keeps C M F True s0 t := by
  unfold execHighz
  try dsimp only
  refine ⟨_, rfl, ?_⟩
  with_reducible exact tap_keeps (fun t1 h1 => tapBypass_keeps h1) h

theorem execTrstN_keeps {C M F : Prop} {s0 s : State} {a1} (h : Keeps C M F True s0 s) : ∃ t, execTrstN a1 s = .next t ∧ Keeps C M F True s0 t := by
  unfold execTrstN
  try dsimp only
  refine ⟨_, rfl, ?_⟩
  with_reducible exact trst_keeps h

end Sys2Proof.Machine
end

