-- ==== Sys2Proof/Laws/KeepService.lean ====
section
/-! SUPPORT. What the functions of Machine/Service.lean keep (Laws/Keep.lean). -/

namespace Sys2Proof.Machine

theorem auditService_keeps {C M F P : Prop} {s0 s : State} {a1} (h : Keeps C M F P s0 s) : Keeps C M F P s0 (auditService a1 s) := by
  unfold auditService
  try dsimp only
  with_reducible exact audit_keeps h

theorem auditSvcRefused_keeps {C M F P : Prop} {s0 s : State} {a1} (h : Keeps C M F P s0 s) : Keeps C M F P s0 (auditSvcRefused a1 s) := by
  unfold auditSvcRefused
  try dsimp only
  with_reducible exact audit_keeps h

theorem svcFinish_keeps {C F P : Prop} {s0 s : State} {a1} {a2} (h : Keeps C True F P s0 s) : Keeps C True F P s0 (svcFinish a1 a2 s) := by
  unfold svcFinish
  try dsimp only
  with_reducible exact serviceWrite_keeps (serviceWrite_keeps (serviceWrite_keeps (Keeps.of_mk h)))

theorem serve_keeps {C F P : Prop} {s0 s : State} {a1} {a2} {a3} {a4} {a5} (hf5 : ∀ x1 t, Keeps C True F P s0 t → Keeps C True F P s0 (a5 x1 t).2) (h : Keeps C True F P s0 s) : Keeps C True F P s0 (serve a1 a2 a3 a4 a5 s) := by
  unfold serve
  try dsimp only
  split
  · with_reducible exact h
  · with_reducible exact Keeps.ite h (Keeps.ite (svcFinish_keeps h) (Keeps.ite h (Keeps.ite (svcFinish_keeps (auditSvcRefused_keeps h)) (Keeps.ite (svcFinish_keeps h) (Keeps.ite (svcFinish_keeps h) (svcFinish_keeps (hf5 _ _ h)))))))

theorem svcReadFlash_keeps {C F P : Prop} {s0 s : State} {a1} {a2} (h : Keeps C True F P s0 s) : Keeps C True F P s0 (svcReadFlash a1 a2 s).2 := by
  unfold svcReadFlash
  try dsimp only
  with_reducible exact Keeps.ite2 h (writeMem_keeps (auditService_keeps h))

theorem svcWritePlate_keeps {C M P : Prop} {s0 s : State} {a1} {a2} {a3} (h : Keeps C M True P s0 s) : Keeps C M True P s0 (svcWritePlate a1 a2 a3 s).2 := by
  unfold svcWritePlate
  try dsimp only
  with_reducible refine Keeps.ite2 h ?_
  split
  · with_reducible exact h
  · with_reducible exact Keeps.ite2 h (dirSet_keeps (fwrite_keeps (dirSet_keeps (auditService_keeps h))))

theorem svcErasePlate_keeps {C M P : Prop} {s0 s : State} {a1} {a2} (h : Keeps C M True P s0 s) : Keeps C M True P s0 (svcErasePlate a1 a2 s).2 := by
  unfold svcErasePlate
  try dsimp only
  with_reducible exact Keeps.ite2 h (dirSet_keeps (auditService_keeps h))

theorem svcWriteConfig_keeps {C M P : Prop} {s0 s : State} {a1} {a2} {a3} (h : Keeps C M True P s0 s) : Keeps C M True P s0 (svcWriteConfig a1 a2 a3 s).2 := by
  unfold svcWriteConfig
  try dsimp only
  with_reducible exact Keeps.ite2 h (Keeps.ite2 h (fwrite_keeps (auditService_keeps h)))

theorem svcWriteRoles_keeps {C M P : Prop} {s0 s : State} {a1} {a2} {a3} (h : Keeps C M True P s0 s) : Keeps C M True P s0 (svcWriteRoles a1 a2 a3 s).2 := by
  unfold svcWriteRoles
  try dsimp only
  with_reducible exact Keeps.ite2 (audit_keeps h) (Keeps.ite2 h (rederiveRoles_keeps (Keeps.of_mk (fwrite_keeps (fwrite_keeps (auditRoleChange_keeps h))))))

theorem svcWriteFirmware_keeps {C M P : Prop} {s0 s : State} {a1} {a2} {a3} (h : Keeps C M True P s0 s) : Keeps C M True P s0 (svcWriteFirmware a1 a2 a3 s).2 := by
  unfold svcWriteFirmware
  try dsimp only
  with_reducible exact Keeps.ite2 h (Keeps.ite2 h (bootCtlSet_keeps (fwrite_keeps (auditRoleChange_keeps h))))

theorem execServiceRequest_keeps {C F P : Prop} {s0 s : State} {a1} {a2} {a3} (h : Keeps C True F P s0 s) : ∃ t, execServiceRequest a1 a2 a3 s = .next t ∧ Keeps C True F P s0 t := by
  unfold execServiceRequest
  try dsimp only
  refine ⟨_, rfl, ?_⟩
  with_reducible exact writeRow_keeps h

theorem execReadFlash_keeps {C F P : Prop} {s0 s : State} {a1} (h : Keeps C True F P s0 s) : ∃ t, execReadFlash a1 s = .next t ∧ Keeps C True F P s0 t := by
  unfold execReadFlash
  try dsimp only
  refine ⟨_, rfl, ?_⟩
  with_reducible exact serve_keeps (fun x1 t1 h1 => svcReadFlash_keeps h1) h

theorem execWritePlate_keeps {C P : Prop} {s0 s : State} {a1} {a2} (h : Keeps C True True P s0 s) : ∃ t, execWritePlate a1 a2 s = .next t ∧ Keeps C True True P s0 t := by
  unfold execWritePlate
  try dsimp only
  refine ⟨_, rfl, ?_⟩
  with_reducible exact serve_keeps (fun x1 t1 h1 => svcWritePlate_keeps h1) h

theorem execErasePlate_keeps {C P : Prop} {s0 s : State} {a1} (h : Keeps C True True P s0 s) : ∃ t, execErasePlate a1 s = .next t ∧ Keeps C True True P s0 t := by
  unfold execErasePlate
  try dsimp only
  refine ⟨_, rfl, ?_⟩
  with_reducible exact serve_keeps (fun x1 t1 h1 => svcErasePlate_keeps h1) h

theorem execWriteConfig_keeps {C P : Prop} {s0 s : State} {a1} {a2} (h : Keeps C True True P s0 s) : ∃ t, execWriteConfig a1 a2 s = .next t ∧ Keeps C True True P s0 t := by
  unfold execWriteConfig
  try dsimp only
  refine ⟨_, rfl, ?_⟩
  with_reducible exact serve_keeps (fun x1 t1 h1 => svcWriteConfig_keeps h1) h

theorem execWriteRoleList_keeps {C P : Prop} {s0 s : State} {a1} {a2} (h : Keeps C True True P s0 s) : ∃ t, execWriteRoleList a1 a2 s = .next t ∧ Keeps C True True P s0 t := by
  unfold execWriteRoleList
  try dsimp only
  refine ⟨_, rfl, ?_⟩
  with_reducible exact serve_keeps (fun x1 t1 h1 => svcWriteRoles_keeps h1) h

theorem execWriteFirmware_keeps {C P : Prop} {s0 s : State} {a1} {a2} (h : Keeps C True True P s0 s) : ∃ t, execWriteFirmware a1 a2 s = .next t ∧ Keeps C True True P s0 t := by
  unfold execWriteFirmware
  try dsimp only
  refine ⟨_, rfl, ?_⟩
  with_reducible exact serve_keeps (fun x1 t1 h1 => svcWriteFirmware_keeps h1) h

end Sys2Proof.Machine
end

