-- ==== Sys2Proof/Laws/Registers.lean ====
section
/-! SUPPORT. What a command register and a guarded pair do once their checks have passed (20 R475, R480). -/

namespace Sys2Proof.Machine

theorem sess_accessTick (s : State) (sid k : W32) : sess? (accessTick sid s) k = sess? s k := by
  unfold accessTick; split <;> rfl

theorem roleOf_of_open {s : State} {sid : W32} {r : Role} (h : OpenAs s sid r) : roleOf s sid = r := by
  obtain ⟨x, h1, -, h3⟩ := h
  simp [roleOf, h1, h3]

theorem roleOf_accessTick (s : State) (sid k : W32) : roleOf (accessTick sid s) k = roleOf s k := by
  simp only [roleOf, sess_accessTick]

theorem inSession_open {s : State} {sid : W32} {r : Role} (h : OpenAs s sid r) (f : Session → State → State) :
    ∃ x, x.role = r ∧ x.opened = true ∧ sess? s sid = some x ∧ inSession sid f s = f x s := by
  obtain ⟨x, h1, h2, h3⟩ := h
  exact ⟨x, h3, h2, h1, by simp [inSession, h1, h2]⟩

/-- Four little-endian bytes are one word. -/
theorem words_of_leBytes {v : Nat} (hv : v < 2 ^ 32) : (chunks 4 (leBytes 4 v)).map leNat = [v] := by
  simp only [chunks, leBytes, List.length_cons, List.length_nil, chunksAux, List.take, List.drop, leNat, List.map,
    BitVec.toNat_ofNat, if_neg (show ¬ 4 = 0 by decide)]
  congr 1
  omega

theorem windowOff_none {off : Nat} (h : windowDomain off = none) (s : State) : windowOff s off = false := by
  simp only [windowOff, h]

theorem regRefuse_ok (sid : W32) (a : Nat) (s : State) : regRefuse cOk sid a s = s := by
  have : isRegCode cOk = false := by decide
  simp only [regRefuse, this, Bool.false_eq_true, if_false]

/-- A 4-byte code at a command register whose checks pass: the record of R513 where the write is reserved, then its effect. -/
theorem cmdWrite_done {s : State} {sid : W32} {r : Role} {off v bad : Nat} {w : RegWord} (h : OpenAs s sid r)
    (hshape : regShape (regRegion + off) 4 = cOk) (hwords : regWords off 4 = [off]) (hname : regName off = .reg w)
    (hg : w.grd = 0) (hmay : mayWrite r w 0 = true) (hal : regRegion + off < aliasRegion) (hv : v < 2 ^ 32)
    (hcnt : counterWord off = none) (hdom : windowDomain off = none) (hck : wordCheck (accessTick sid s) off v = cOk) :
    cmdWrite off v bad sid s = emit (.writeStatus sid cOk) (accessEnd sid (wordDo off w v bad sid
      (if auditedWrite r w then auditWrite (regRegion + off) v 1 cOk sid (accessTick sid s) else accessTick sid s))) := by
  have hr := roleOf_of_open h
  obtain ⟨x, -, -, -, hx⟩ := inSession_open h (fun _ s =>
    let (c, t) := sessWrite (regRegion + off) (leBytes 4 v) bad sid s
    emit (.writeStatus sid c) t)
  have hsub : regRegion + off - regRegion = off := by omega
  have hlen : (leBytes 4 v).length = 4 := by simp [leBytes]
  have hguard : (RegName.reg w).guarded = false := by simp [RegName.guarded, hg]
  have hw : regWrite (regRegion + off) (leBytes 4 v) bad sid (accessTick sid s) =
      (cOk, wordDo off w v bad sid
        (if auditedWrite r w then auditWrite (regRegion + off) v 1 cOk sid (accessTick sid s) else accessTick sid s)) := by
    have hrn : ¬ r = .none := by
      intro e
      subst e
      simp [mayWrite] at hmay
    simp only [regWrite, hlen, hshape, hsub, hwords, words_of_leBytes hv, namesOf, hname, Option.map_some, List.any_cons,
      List.any_nil, Bool.or_false, hguard, roleOf_accessTick, hr, if_neg hrn, RegName.word, hmay, ne_eq, not_true_eq_false, if_false,
      show ¬ (4 : Nat) < 4 by decide, Bool.not_true, Bool.false_eq_true, plainWrite, List.zip_cons_cons, List.zip_nil_right,
      List.map, hcnt, Option.isSome_none, windowOff_none hdom, Bool.or_self, hck, firstCode, if_true, List.headD_cons, plainAll,
      plainDo, List.length_cons, List.length_nil, Nat.zero_add]
  unfold cmdWrite
  rw [hx]
  simp only [sessWrite, if_neg (Nat.not_le.2 hal), hw, accessCode, regRefuse_ok]

/-- The same for a reserved register: what stands before and after its effect. -/
theorem cmdWrite_told {s : State} {sid : W32} {r : Role} {off v bad : Nat} {w : RegWord} (h : OpenAs s sid r)
    (hname : regName off = .reg w) (hmay : mayWrite r w 0 = true) (hck : wordCheck (accessTick sid s) off v = cOk)
    (haud : auditedWrite r w = true) (hv : v < 2 ^ 32)
    (hst : (regShape (regRegion + off) 4 = cOk ∧ regWords off 4 = [off]) ∧ w.grd = 0 ∧ regRegion + off < aliasRegion ∧
      counterWord off = none ∧ windowDomain off = none) :
    cmdWrite off v bad sid s = cmdAfter sid (wordDo off w v bad sid (cmdBefore off v sid s)) := by
  rw [cmdWrite_done h hst.1.1 hst.1.2 hname hst.2.1 hmay hst.2.2.1 hv hst.2.2.2.1 hst.2.2.2.2 hck, haud]
  rfl

/-- A guarded pair whose checks pass: the pending value is used up, the reserved write is recorded, the register takes the value. -/
theorem pairRow_done {s : State} {sid : W32} {r : Role} {off v : Nat} {w : RegWord} (h : OpenAs s sid r) (hreg : regAt off = some w)
    (hmay : mayWrite r w v = true) (hck : guardCheck { s with guards := mdel s.guards sid.toNat } off v = cOk)
    {c : W16} {t : State}
    (hdo : guardDo off w v sid (if auditedWrite r w then
        auditWrite (regRegion + off) v 1 cOk sid { s with guards := mdel s.guards sid.toNat }
      else { s with guards := mdel s.guards sid.toNat }) = (c, t)) :
    pairRow off v sid s = settle (emit (.writeStatus sid c) (regRefuse c sid (regRegion + off) t)) := by
  have hr : roleOf { s with guards := mdel s.guards sid.toNat } sid = r := roleOf_of_open h
  obtain ⟨x, h1, h2, -⟩ := h
  unfold pairRow inSession
  rw [h1]
  simp only [h2, if_true, hreg, pairDone, hr, hmay, Bool.not_true, Bool.false_eq_true, if_false, hck, ne_eq, not_true_eq_false]
  rw [hdo]

/-- The same for a reserved pair other than FI_ENABLE's. -/
theorem pairRow_told {s : State} {sid : W32} {r : Role} {off v : Nat} {w : RegWord} (h : OpenAs s sid r) (hreg : regAt off = some w)
    (hmay : mayWrite r w v = true) (hck : guardCheck { s with guards := mdel s.guards sid.toNat } off v = cOk)
    (haud : auditedWrite r w = true) {t : State} (hdo : guardDo off w v sid (pairBefore off v sid s) = (cOk, t)) :
    pairRow off v sid s = pairAfter sid t := by
  rw [pairRow_done h hreg hmay hck (c := cOk) (t := t) (by rw [haud]; exact hdo), regRefuse_ok]
  rfl

end Sys2Proof.Machine
end

