-- ==== Sys2Proof/Tests/Fixtures.lean ====
section
/-! SUPPORT. Small states for the tests: updates of State.reset with sessions, a plate of given records, and one open channel. -/

namespace Sys2Proof.Tests
open Sys2Proof Sys2Proof.Machine
set_option Elab.async false

/-! ## Sessions -/

/-- An open session of a role over link 0, of a peer entry. -/
def sessionOf (r : Role) (entry : Nat) : Session :=
  { entry := entry, index := 0, link := 0, role := r, opened := true, initiator := true, peerSid := 9, transcript := 0, taken := 0,
    held := [], nonceTop := 0, nonces := [], nextSeq := 1, nextNonce := 0, queue := [], arb := Arb.init, unacked := [], credit := 64, cwnd := 64,
    cwndAt := 0, srtt := 0, rttvar := 0, rto := 100, ce := 0, peerCe := 0, suspendedAt := 0, lastHeard := 0 }

/-- In service at stage 7 with the supplies up, link 0 up, and sessions 1 of an operator, 2 of an installer, 3 of a maker. -/
def ready : State :=
  { State.reset with
    sessions := [(1, sessionOf .operator 0), (2, sessionOf .installer 1), (3, sessionOf .maker 2)], nextSid := 4, linksUp := [(0, true)],
    rcv := { State.reset.rcv with served := true }, boot := { State.reset.boot with stage := 7, slot := some 0 },
    pwr := { State.reset.pwr with state := BitVec.allOnes 80 },
    pins := { State.reset.pins with porN := true, trstN := true, supplies := true } }

/-! ## Plates -/

/-- A record of 02 Table 2.14. -/
def recOf (kind reef unit stage index : Nat) (body : List Byte) : List Byte :=
  leBytes 2 kind ++ leBytes 1 reef ++ leBytes 1 unit ++ leBytes 4 body.length ++ leBytes 2 stage ++ leBytes 2 index ++ zeros 4 ++ body
    ++ zeros (roundUp body.length 8 - body.length)

/-- Region 0: the interleaved view from 0, 16 MiB; stages 0 and 1 may read and write it. -/
def regionRecs : List Byte :=
  recOf 0x0100 0 0 0 0 (leBytes 8 0 ++ leBytes 8 0x01000000 ++ [0, 0, 1, 0] ++ zeros 4)
    ++ recOf 0x0101 0 0 0 0 ([3] ++ zeros 7) ++ recOf 0x0101 0 0 1 0 ([3] ++ zeros 7)

/-- Inlet 0: opcodes 1-0x7FFF, classes 0-3, a chain of stages. -/
def inletRecs (chain : List Nat) : List Byte :=
  recOf 0x0200 0 0 0 0 (leBytes 2 0 ++ [3, 1] ++ zeros 4 ++ leBytes 2 1 ++ leBytes 2 0x7FFF)
    ++ recOf 0x0201 0 0 0 0 (leBytes 2 chain.length ++ chain.flatMap (leBytes 2))

/-- A plate of one sheet an island, with records of ENGINE_BIND on island 0, of REGION_MAP and a chain. -/
def plateWith (binds maps : List Byte) (chain : List Nat) (more : List Section) : Plate :=
  { id := 1, version := 1, rateNominal := 1, rateFallback := 1, sheets := List.replicate 16 1, mask := 0, digest := 5,
    sections := [{ kind := 2, island := 0, sheet := 0, case := 255, data := binds }, { kind := 5, island := 255, sheet := 255, case := 255, data := regionRecs ++ maps },
      { kind := 6, island := 255, sheet := 255, case := 255, data := inletRecs chain }] ++ more }

/-- A state whose active bank runs a plate. -/
def running (p : Plate) (s : State) : State :=
  { s with plt := { s.plt with active := .running, storeX := some p }, boot := { s.boot with stage := 9 } }

/-! ## A channel -/

/-- A descriptor of channel 0: SEQ 1, input at 0, output at 0x10000 and parameters at 0x20000 of the interleaved view. -/
def descWith (inLen outLen paramLen : Nat) : Descriptor :=
  { opcode := 1, flags := 0, handle := 0x10000, seq := 1, inAddr := BitVec.ofNat 64 (causeway 0), inLen := BitVec.ofNat 64 inLen, outAddr := BitVec.ofNat 64 (causeway 0x10000),
    outLen := BitVec.ofNat 64 outLen, paramAddr := if paramLen = 0 then 0 else BitVec.ofNat 64 (causeway 0x20000), paramLen := BitVec.ofNat 32 paramLen, rsvd := 0 }

/-- Its journal entry once accepted. -/
def entryOf (d : Descriptor) : Journal :=
  { d := d, deadline := 1, tc := 0, state := .accepted, session := 1, plate := 5, after := false, verdict := 0 }

/-- Channel 0, OPEN on inlet 0 with a ring of 64 slots on stacks 0 and 2. -/
def chan0 : Chan := { Chan.init with state := .opened, ringLog2 := 6, primary := 0, mirror := 2 }

/-- The same with a descriptor accepted. -/
def chanWith (d : Descriptor) : Chan := { chan0 with accepted := 1, journal := [(1, entryOf d)] }

/-- A running plate with a chain of stages and an accepted descriptor. -/
def working (binds maps : List Byte) (chain : List Nat) (d : Descriptor) : State :=
  { running (plateWith binds maps chain []) ready with chans := [(0, chanWith d)] }

/-- That descriptor. -/
def ref1 : RunRef := { chan := 0, seq := 1 }

/-- `s` with bytes written at a local address. -/
def holding (a : Nat) (bs : List Byte) (s : State) : State := writeMem a bs s

/-! ## Long stores -/

/-- A sparse map that holds some bytes from a key up: the entries of those that are not the default. -/
def mapOf (d : Byte) : Nat → List Byte → SMap Byte
  | _, [] => []
  | a, x :: t => if x = d then mapOf d (a + 1) t else (a, x) :: mapOf d (a + 1) t

theorem mget_default {d : Byte} {m : SMap Byte} {k : Nat} (h : ∀ p ∈ m, p.1 ≠ k) : mget d m k = d := by
  induction m with
  | nil => rfl
  | cons p t ih => obtain ⟨j, v⟩ := p; simp only [List.mem_cons, forall_eq_or_imp] at h; simp [mget, h.1, ih h.2]

theorem mapOf_below {d : Byte} {m : SMap Byte} : ∀ (b : List Byte) (a k : Nat), k < a → (∀ p ∈ m, p.1 ≠ k) →
    mget d (mapOf d a b ++ m) k = d := by
  intro b
  induction b with
  | nil => intro a k _ h; exact mget_default h
  | cons x t ih =>
    intro a k hk h
    have := ih (a + 1) k (by omega) h
    by_cases hx : x = d
    · simp [mapOf, hx, this]
    · simp [mapOf, hx, mget, Nat.ne_of_gt hk, this]

/-- What such a map holds. -/
theorem mapOf_get {d : Byte} {m : SMap Byte} : ∀ (b : List Byte) (a i : Nat), i < b.length → (∀ p ∈ m, p.1 < a ∨ a + b.length ≤ p.1) →
    mget d (mapOf d a b ++ m) (a + i) = b.getD i d := by
  intro b
  induction b with
  | nil => intro a i h; simp at h
  | cons x t ih =>
    intro a i hi hm
    simp only [List.length_cons] at hi hm
    cases i with
    | zero =>
      have := mapOf_below (d := d) (m := m) t (a + 1) a (by omega) (fun p hp => by have := hm p hp; omega)
      by_cases hx : x = d
      · simp [mapOf, hx, this]
      · simp [mapOf, hx, mget]
    | succ i =>
      have e : a + (i + 1) = a + 1 + i := by omega
      have := ih (a + 1) i (by omega) (fun p hp => by have := hm p hp; omega)
      have ne : ¬ a = a + 1 + i := by omega
      rw [e, mapOf]
      split
      · simp [this]
      · simp [mget, this, ne]

/-- The bytes that such flash reads. -/
theorem fread_mapOf {s : State} {b : List Byte} {a n : Nat} (m : SMap Byte) (hs : s.flash = mapOf 0xFF a b ++ m) (hn : n ≤ b.length)
    (hm : ∀ p ∈ m, p.1 < a ∨ a + b.length ≤ p.1) : fread s a n = b.take n := by
  refine List.ext_getElem (by simp [fread, hn]) fun i h1 h2 => ?_
  simp only [fread, List.length_map, List.length_range] at h1
  simp only [fread, fget, hs, List.getElem_map, List.getElem_range, List.getElem_take, mapOf_get b a i (by omega) hm]
  simp [List.getD_eq_getElem?_getD, List.getElem?_eq_getElem (show i < b.length by omega)]

/-- The bytes that such a memory reads in the per-stack view. -/
theorem readMem_mapOf {s : State} {b : List Byte} {a : Nat} (hs : s.mem = mapOf 0 a b) (h1 : 0x010000000000 ≤ a)
    (h2 : a + b.length ≤ 0x020000000000) : readMem s a b.length = b := by
  refine List.ext_getElem (by simp [readMem]) fun i g1 g2 => ?_
  have hk : memKey (a + i) = some (a + i) := by
    have e : placeOf (a + i) = .hbm ((a + i - 0x010000000000) / 0x1000000000) ((a + i) % 0x1000000000) := by
      rw [placeOf, if_neg (by omega), if_pos (by omega)]
    have e2 : hbmKey ((a + i - 0x010000000000) / 0x1000000000) ((a + i) % 0x1000000000) = a + i := by rw [hbmKey]; omega
    simp only [memKey, e, e2]
  have := mapOf_get (d := 0) (m := []) b a i g2 (by simp)
  rw [List.append_nil] at this
  simp only [readMem, readByte, kget, List.getElem_map, List.getElem_range, hk, hs, this]
  simp [List.getD_eq_getElem?_getD, List.getElem?_eq_getElem g2]

/-! ## Signed containers -/

/-- The key of the tests' signatures: 1,312 zero bytes. -/
def keyDigest : Digest := sha3 (zeros 1312)

/-- A signature block by that key (02 Table 2.4). -/
def sigBlockOf : List Byte := leBytes 4 0x47534B41 ++ leBytes 2 0x44 ++ zeros 2 ++ digestBytes keyDigest ++ zeros 4056

/-- A digest in eight register words. -/
def digestAt (off : Nat) (d : Digest) (s : State) : State :=
  (List.range 8).foldl (fun s w => rset (off + 4 * w) (BitVec.ofNat 32 (d.toNat / 2 ^ (32 * w))) s) s

/-- The key is on the signer list. -/
def signed (s : State) : State := rset 0x00040300 1 (digestAt 0x00040100 keyDigest s)

/-- The smallest plate: no sheets, an empty REGION_MAP and INLET_BIND. -/
def leastPlate : List Byte :=
  let pre := leBytes 4 0x4C504B41 ++ leBytes 2 1 ++ leBytes 2 0x100 ++ leBytes 2 0x0A25 ++ [0xB0, 0] ++ leBytes 4 2 ++ leBytes 8 8192
    ++ leBytes 8 1 ++ leBytes 4 1 ++ zeros 4 ++ leBytes 8 0x100 ++ zeros 32
  let entry := fun (k : Nat) => leBytes 2 k ++ [255, 255, 255, 0, 0, 0] ++ leBytes 8 0x140 ++ zeros 16
  let post := zeros 144 ++ entry 5 ++ entry 6 ++ zeros (4096 - 0x140)
  pre ++ digestBytes (sha3 (pre ++ zeros 32 ++ post)) ++ post ++ sigBlockOf

end Sys2Proof.Tests
end

