-- ==== Sys2Proof/WellFormed.lean ====
section
/-! DEFINITION. The operands a command may carry: the ranges that the spec gives its identifiers (00 Table 0.8) and that the
operand's type does not already impose. -/

namespace Sys2Proof

/-- Links of Table 21.9: 0 is HP, 1 + 2n + k is FPn.k. -/
def linkOk (l : BitVec 5) : Bool := decide (l.toNat < 17)

/-- Strait links of Table 1.3: 32 of islands, 4 of the ring, 8 of harbours, 2 of the cape. -/
def straitLinkOk (l : BitVec 6) : Bool := decide (l.toNat < 46)

/-- Objects 48 r + k of 128 reefs (14 R333). -/
def objNamed (o : BitVec 13) : Bool := decide (o.toNat < 6144)

/-- Symbols of a codeword (19 R452): 39. -/
def symErrsOk (e : List SymErr) : Bool := e.all (fun x => decide (x.pos.toNat < 39))

/-- Attached signals name an object. -/
def attOk : Option Attach → Bool
  | none => true
  | some a => objNamed a.obj

/-- An operation's payload is at most its frame's (15 R366). -/
def payloadOk (d : List Byte) : Bool := decide (d.length ≤ 8192)

/-- The well-formed commands. -/
def Instr.wf : Instr → Bool
  | .signal _ o _ => objNamed o
  | .wait _ o _ _ => objNamed o
  | .decrement _ o _ => objNamed o
  | .engine _ _ _ a => attOk a
  | .asuIssue _ _ _ a => attOk a
  | .dotStep _ _ _ acts => decide (acts.length = 16) && acts.all (fun a => decide (a.length = 64))
  | .hello l b _ => linkOk l && payloadOk b
  | .helloReply l b _ => linkOk l && payloadOk b
  | .confirm f => linkOk f.link && payloadOk f.body
  | .close f => linkOk f.link && payloadOk f.body
  | .dataFrame f => linkOk f.link && payloadOk f.body
  | .ack f => linkOk f.link && payloadOk f.body
  | .probe f => linkOk f.link && payloadOk f.body
  | .probeReply f => linkOk f.link && payloadOk f.body
  | .reject l _ _ => linkOk l
  | .yzWrite _ _ d => payloadOk d
  | .addDelta _ _ d => payloadOk d
  | .message _ _ d => payloadOk d
  | .result _ _ d => payloadOk d
  | .linkUp l => linkOk l
  | .fabricLinkDown l => linkOk l
  | .pauseFrame l _ _ => linkOk l
  | .neighbourSolicitation l _ => linkOk l
  | .arpRequest l _ => linkOk l
  | .straitFlit l _ _ _ _ e => straitLinkOk l && symErrsOk e
  | .straitLinkLost l => straitLinkOk l
  | .flitResend l _ _ => straitLinkOk l
  | .hbmScrub _ _ e => symErrsOk e
  | .lagoonScrub _ _ e => symErrsOk e
  | .ethClockLost c => decide (c.toNat < 5)
  | .ethClockReturn c => decide (c.toNat < 5)
  | .pwrSwitch _ w _ => decide (w.toNat < 3)
  | .serviceRequest _ _ r => decide (r.length = 64)
  | .thermalSample t _ => decide (t.length = 48)
  | .snapshotMarker d => decide (d.toNat < 25)
  | .domainSwitchDone d => decide (d.toNat < 80)
  | _ => true

end Sys2Proof
end

