-- ==== Sys2Proof/Tests/Slice0.lean ====
section
/-! SUPPORT. The WellFormed smoke test, and small tests whose expected results are the spec's worked examples. Each names its
example. -/

namespace Sys2Proof.Tests.Examples
open Sys2Proof Sys2Proof.Machine Sys2Proof.Tests
set_option Elab.async false

/-! ## WellFormed: a term that each check refuses -/

/-- Words of 32 bits, little-endian. -/
def words (l : List Nat) : List Byte := l.flatMap (leBytes 4)

/-- A list's identity. -/
def list0 : ListId := { reef := 0, sheet := 0, list := 0 }

/-- A frame of no body. -/
def frameOn (link : BitVec 5) (body : List Byte) : Frame :=
  { link := link, hdr := { version := 1, type := 4, tc := 0, opCount := 0, sid := 0, nonce := 0, seq := 0, ack := 0 }, body := body,
    tagOk := true, ce := false }

/-- An operation's place and header. -/
def op0 : OpRef := { sid := 1, seq := 1, idx := 0 }
def hdr0 : OpHdr := { rsvd := 0, len := 0, addr := 0, op0 := 0, op1 := 0 }

theorem test_wf_link : Instr.wf (.linkUp 17) = false ∧ Instr.wf (.linkUp 16) = true := by decide
theorem test_wf_frame_link : Instr.wf (.ack (frameOn 17 [])) = false := by decide
theorem test_wf_strait_link : Instr.wf (.straitLinkLost 46) = false ∧ Instr.wf (.straitLinkLost 45) = true := by decide
theorem test_wf_object : Instr.wf (.signal list0 6144 1) = false ∧ Instr.wf (.signal list0 6143 1) = true := by decide
theorem test_wf_attached : Instr.wf (.engine list0 0 0 (some { obj := 6144, n := 1 })) = false := by decide
theorem test_wf_symbol : Instr.wf (.hbmScrub 0 0 [{ pos := 39, bits := 1 }]) = false := by decide
theorem test_wf_payload : Instr.wf (.yzWrite op0 hdr0 (zeros 8193)) = false := by decide +kernel
theorem test_wf_dot_step : Instr.wf (.dotStep { chan := 0, seq := 1 } 0 0 [[]]) = false := by decide
theorem test_wf_request : Instr.wf (.serviceRequest 1 0 [0]) = false := by decide
theorem test_wf_temps : Instr.wf (.thermalSample [] 0) = false := by decide
theorem test_wf_die : Instr.wf (.snapshotMarker 25) = false ∧ Instr.wf (.snapshotMarker 24) = true := by decide
theorem test_wf_domain : Instr.wf (.domainSwitchDone 80) = false ∧ Instr.wf (.domainSwitchDone 79) = true := by decide
theorem test_wf_eth_clock : Instr.wf (.ethClockLost 5) = false ∧ Instr.wf (.ethClockReturn 5) = false := by decide
theorem test_wf_power_word : Instr.wf (.pwrSwitch 1 3 0) = false ∧ Instr.wf (.pwrSwitch 1 2 0) = true := by decide

/-- The table gives no word of any row its bits. -/
theorem test_no_words : decodeTableWord 32 0 = none := rfl

/-! ## Addresses (01 after R13; 19 after R457) -/

theorem test_lagoon_address : lagKey 5 0x09352A60 = shareKey 46 0x352A60 := by decide
theorem test_interleaved_address : memKey 0x12345678 = some 0x015001234678 := by decide

/-! ## Sheets (02, the example after R51) -/

/-- A DEMAND section: record and dot cells, Graver engines, and lagoon bytes of every reef. -/
def demand (rec dot graver : Nat) (lag : List Nat) : List Byte :=
  words [rec, dot, 0, graver, 0, 0, 0, 0, 0, 0, 0, 0, 0, 0, 0, 0] ++ words ((List.range 8).flatMap (fun _ => lag))

theorem test_sheets_fit : sheetsNeeded (demand 900 700 6 [0xA00000, 0x500000, 0x600000, 0, 0]) = 2
    ∧ fitFails false 2 (demand 900 700 6 [0xA00000, 0x500000, 0x600000, 0, 0]) = none := by decide +kernel
theorem test_sheets_do_not_fit : fitFails false 4 (demand 900 2100 6 [0xA00000, 0x500000, 0x600000, 0, 0]) = some 2 := by decide +kernel

/-! ## Channels (04, the example after R117) -/

/-- The example's channel: N = 64, ACCEPTED 70, COMPLETED 66, RETIRED 10. -/
def chan17 : Chan := { chan0 with gen := 3, accepted := 70, committed := 66, completed := 66, retired := 10 }
def ringState : State := { ready with chans := [(17, chan17)] }
def retireTo (n : Nat) : CtlItem := { rsvd0 := 0, handle := 0x00030011, tag := 0, arg0 := BitVec.ofNat 64 n, arg1 := 0, rsvd1 := 0 }

theorem test_retire_12 : (chanGet (ctlStep 0x8003 1 (retireTo 12) ringState) 17).retired = 12 := by decide +kernel
theorem test_retire_100 : (chanGet (ctlStep 0x8003 1 (retireTo 100) ringState) 17).retired = 66 := by decide +kernel

/-! ## Cells (03, the examples after R78 and R87) -/

theorem test_stochastic_pack : [toFloat 9 (.sr 0x5A3C1E07) false (floatVal 10 0x3F806000), toFloat 9 (.sr 0x80000000) false (floatVal 10 0x3F806000),
    toFloat 9 .rne false (floatVal 10 0x3F806000)] = [0x3F81, 0x3F80, 0x3F80] := by decide +kernel

/-- A WXA that FP32 terms enter in order. -/
def wxaOf (l : List Nat) : Wxa := l.foldl (fun w v => wxaEnter false (floatVal 10 v) w) Wxa.init

theorem test_wxa_order : wxaOf [0x4B800000, 0x3F800000, 0xCB800000] = wxaOf [0xCB800000, 0x3F800000, 0x4B800000]
    ∧ wxaFp32 (wxaOf [0x4B800000, 0x3F800000, 0xCB800000]) = 0x3F800000 := by decide +kernel

/-! ## The Graver (05, Table 5.5) -/

/-- The frame of the example's 260 bytes. -/
def abcdFrame : List Byte :=
  abfFrameOut (levelSet 1) 0 12 0 0 [] ((List.replicate 64 ([0x61, 0x62, 0x63, 0x64] : List Byte)).flatten ++ [0x77, 0x78, 0x79, 0x7A])

theorem test_abf_payload : (abcdFrame.drop 40).take 44 =
    [8, 0, 0, 0, 1, 0, 0, 0, 9, 0, 0, 0, 0, 0x61, 0x62, 0x63, 0x64, 0x77, 0x78, 0x79, 0x7A, 2, 0, 0, 0, 0, 4, 2, 0, 0, 0, 0, 0x0C, 2, 0, 0, 0, 0, 3,
      1, 0, 0, 0, 0x78] := by decide +kernel

/-! ## Embedding tables (12, the examples after R292 and R308) -/

def gathered : GatherAcc :=
  [some 7, none, some 7, none, none, some 7].foldl gatherPos { window := [], distinct := 0, fetched := [], coalesced := 0, invalid := 0 }

theorem test_gather_window : (gathered.fetched, gathered.coalesced, gathered.invalid) = ([7], 2, 3) := by decide +kernel
theorem test_fold_scale : scaleUp 0x3C00 1 = some 0x3C80 := by decide +kernel

/-! ## Records and batches (06, the example after R172) -/

/-- A slot of a sample, sound or with a reason. -/
def slotOf (i : Nat) (r : W16) : SlotIn := { ready := true, item := { idx := i, reason := r, streams := [] } }

/-- Batch 5 of the example as it fills. -/
def batch5 : Option Fill :=
  fillBatch [slotOf 29 0x3108, slotOf 140 0, slotOf 71 0, slotOf 12 0]
    ([slotOf 131 0, slotOf 7 0, slotOf 17 0x3101, slotOf 64 0, slotOf 102 0, slotOf 88 0x3102, slotOf 3 0, slotOf 55 0].zipIdx)
    { out := [], man := [], used := 0, filled := 0, unfilled := 0 }

theorem test_batch_filled : batch5.map (fun f => (f.out.map (·.idx), f.used)) = some ([131, 7, 140, 64, 102, 71, 3, 55], 3) := by
  decide +kernel
theorem test_batch_manifest : batch5.map (·.man) = some [⟨2, 0x3101, false, 17, 29⟩, ⟨2, 0x3108, true, 29, 140⟩, ⟨5, 0x3102, false, 88, 71⟩] := by
  decide +kernel

/-! ## Stipple (07, A worked sample) -/

/-- A list of `n` tokens, numbered. -/
def tokens (n : Nat) : SEnt := { shape := 1, fmt := 1, w := 16, data := (List.range n).flatMap (leBytes 2) }
def stipOp (kind p0 p1 p2 p3 : Nat) : StipOp := { kind := kind, stream := 0, id := 0x10, p0 := p0, p1 := p1, p2 := p2, p3 := p3, rsvd := true }

theorem test_stipple_crop : (let r := (stipApply (stipOp 1 4 24 0 0) (tokens 128) (fun _ => 0x9C400000)).1; (r.length, r.head?)) = (96, some (leBytes 2 20)) := by
  decide +kernel
theorem test_stipple_choice : drawIndex 0x9C400000 9 = 5 ∧ drawIndex 0x40000001 4 = 1 := by decide

/-! ## The Hatch, normalisation and joins (08, the examples after R199, R204, R208) -/

/-- A bucketing entry. -/
def bucketOp (n base width : Nat) : HatchOp :=
  { fn := 4, out := 0, n := n, keys := [0], seed := 0, base := base, width := width, list := 0, len := 0, nanBucket := 99 }

theorem test_bucket_fixed : ([0x3F19999A, 0x3FC00000, 0xC0400000].map (fun v => (fixedBucket (bucketOp 8 0xBF800000 0x3E800000) (floatVal 10 v)).v)) = [6, 7, 0] := by
  decide +kernel
theorem test_bucket_boundary : ([0xBE99999A, 0x3F800000, 0x40000000, 0x7FC00000].map (fun v =>
    (boundaryBucket (bucketOp 4 0 0) ([0x3F000000, 0x3F800000, 0x40000000].map (floatVal 10)) (floatVal 10 v)).v)) = [0, 2, 3, 99] := by
  decide +kernel

/-- The image of the terms 2.0, 4.0, 4.0 and 6.0. -/
def fourTerms : List Byte :=
  statsImage [[0x40000000, 0x40800000, 0x40800000, 0x40C00000].foldl (fun g v => g.enter (floatVal 10 v)) Feature.init]
/-- A z-score entry. -/
def zScore : NormOp :=
  { kind := 1, clip := false, nanRep := false, stream := 0, fmt := 10, feature := 0, eps := 0, lo := 0, hi := 0, nanVal := 0 }

theorem test_normalise : (let p := normParams zScore fourTerms;
    [0x40C00000, 0x40000000, 0x40800000].map (fun v => normElem zScore p.1 p.2 (floatVal 10 v))) = [0x3FB504F3, 0xBFB504F3, 0] := by
  decide +kernel

/-- The join table of the example at local address 0, its rows of keys 3, 7, 3 and 0 with payloads A to D, and its index. -/
def joinRows : List Nat := [3, 7, 3, 0]
def joinHead : JoinHdr := { keyBytes := 4, rows := 4, cap := 4, pay := 1, index := 0, ok := true, bytes := [] }
def joinState : State :=
  { joinRows.zipIdx.foldl (fun s p => writeMem (64 + 33 * p.2) (leBytes 16 p.1 ++ leBytes 4 1 ++ zeros 12 ++ leBytes 1 (0x41 + p.2)) s) ready with
    joins := [(0, { method := 0, rows := joinRows.zipIdx.map (fun p => (p.2, BitVec.ofNat 128 p.1)) })] }
def joinEntry (kind : Nat) : JoinOp :=
  { kind := kind, method := 0, keys := [0], nullMask := 1, maxMatch := 4, out := 1, flag := 2, base := 0, asu := 0, nulls := [0] }
def probeRec (i k : Nat) : DRec := { idx := i, reason := 0, streams := [(0, scalarEnt 1 32 k)] }
/-- Samples, payloads and match flags that a kind gives for the example's probes. -/
def joined (kind : Nat) : List (Nat × Option (List Byte) × Option (List Byte)) :=
  ([probeRec 10 7, probeRec 11 3, probeRec 12 0, probeRec 13 9].flatMap (fun r =>
    joinOutput joinState (joinEntry kind) joinHead r
      (if nullKey (joinEntry kind) r then [] else joinMatches joinState 0 joinHead (key16 ((canonKey r [0]).getD []))))).map
    (fun r => (r.idx, (streamOf r 1).map (·.data), (streamOf r 2).map (·.data)))

theorem test_join_inner : joined 0 = [(10, some [0x42], none), (11, some [0x41], none), (11, some [0x43], none)] := by decide +kernel
theorem test_join_outer : joined 1 = [(10, some [0x42], some [1]), (11, some [0x41], some [1]), (11, some [0x43], some [1]),
    (12, some [0], some [0]), (13, some [0], some [0])] := by decide +kernel

/-! ## Associative search (10, the example after Table 10.5) -/

/-- Table 5 and its entries. -/
def table5 : AsuTab :=
  { num := 5, ternary := true, partLog := 0, sel := 0, hole := 4, sides := 1, first := 524280, size := 16, stride := 0, seed := 0, copy := 0x100000 }
def caredMask (m : Nat) : BitVec 128 := BitVec.ofNat 128 (2 ^ 128 - 256 + m)
def entry5 (o k m d : Nat) : Nat × AsuEntry :=
  (524280 + o, { key := BitVec.ofNat 128 k, mask := caredMask m, data := BitVec.ofNat 32 d, valid := true, lost := false })
def entries5 : State :=
  { ready with
    asu := [entry5 0 0x4D 0xFF 200, entry5 1 0x48 0xF8 201, entry5 2 0x40 0xF0 202, entry5 4 0x20 0xE0 203, entry5 5 0 0x80 204,
      entry5 6 0x80 0x80 205, entry5 8 0x4D 0xFF 206, entry5 9 0xC0 0xC0 207, entry5 10 0 0 208], asuGen := [(1280, 3)] }
/-- A command on table 5. -/
def asuCmd (o d k m cursor : Nat) : AsuCmd :=
  { table := 5, flags := 0, partition := 0, rsvd0 := 0, offset := BitVec.ofNat 32 o, data := BitVec.ofNat 32 d, key := BitVec.ofNat 128 k, mask := caredMask m,
    cursor := BitVec.ofNat 64 cursor, rsvd1 := 0 }
/-- The state after the example's INSERT. -/
def inserted5 : State := (asuInsert table5 0 0 (asuCmd 1 209 0x4C 0xFE 0) entries5).2

theorem test_asu_search : (let r := (asuFind table5 0 0 0x4D none entries5).1; (r.off, r.data, r.flags)) = (0, 200, 3) := by decide +kernel
theorem test_asu_next : ([0, 1, 2, 5, 8].map (fun o =>
    let r := (asuNext table5 0 0 (asuCmd 0 0 0x4D 0 (asuCursor table5 0 0 3 o)) entries5).1; (r.off, r.data))) = [(1, 201), (2, 202), (5, 204), (8, 206), (10, 208)]
    ∧ asuCursor table5 0 0 3 2 = 0x0000006005000002 := by decide +kernel
theorem test_asu_insert : (asuGet inserted5 524281).data = 209 ∧ (asuGet inserted5 524283).data = 202 ∧ asuGenOf inserted5 table5 0 0 = 4 := by
  decide +kernel
theorem test_asu_stale : (asuNext table5 0 0 (asuCmd 0 0 0x4D 0 0x0000006005000002) inserted5).1.status = 0x7003 := by decide +kernel

/-! ## Top-k (11, Table 11.4) -/

/-- The example's row. -/
def topOp : SelOp :=
  { op := 1, fmt := 10, asc := false, expl := true, dedup := true, k := 4, elem := 0, key := 0, rows := 1, rowLen := 10, stride := 40, aux := 0, ok := true }
def topRowOut (class0 : Bool) : RowOut :=
  topRow topOp class0
    (words [0x3F666666, 0x7FC00000, 0x3F333333, 0x3F666666, 0x3F000000, 0x3F333333, 0x80000000, 0x3F333333, 0, 0x3F333333])
    (words [40, 41, 12, 7, 40, 30, 55, 20, 9, 12]) 0

theorem test_topk_class2 : (topRowOut false).p.cands.map (·.idx) = [40, 7, 12, 30]
    ∧ (topRowOut false).bytes.take 24 = [4, 0, 0, 0, 3, 0, 4, 0, 1, 0, 0, 0, 1, 0, 0, 0, 2, 0, 0, 0, 0, 0, 0, 0] := by decide +kernel
theorem test_topk_class0 : (topRowOut true).p.cands.map (·.idx) = [7, 40, 12, 20] := by decide +kernel

/-! ## Layout (13, Tables 13.4 and 13.7) -/

/-- The example's transform and source. -/
def moveView (base : Nat) (dims : List Nat) : View :=
  { base := BitVec.ofNat 64 base, g32 := false, fmt := 4, rank := 2, dims := dims, strides := [32, 0], raw := [] }
def moveOp (mode : Nat) : Transform :=
  { src := moveView 0 [3, 4], dst := moveView 0x1000 [4, 5], perm := [1, 0], mode := mode, pad := 0x7F, origin := [0, -1], raw := [] }
def moveState : State :=
  (List.range 3).foldl (fun s r => writeMem (32 * r) ((List.range 4).map (fun c => BitVec.ofNat 8 (10 * r + c))) s) ready
def moved (mode : Nat) : List Nat × Nat × Nat :=
  let m := moveAll moveState (moveOp mode)
  (m.win.map (·.2), m.clamped, m.padded)

theorem test_layout_edge : moved 0 = ([0, 0, 10, 20, 20, 1, 1, 11, 21, 21, 2, 2, 12, 22, 22, 3, 3, 13, 23, 23], 8, 0) := by decide +kernel
theorem test_layout_reflect : moved 2 = ([10, 0, 10, 20, 10, 11, 1, 11, 21, 11, 12, 2, 12, 22, 12, 13, 3, 13, 23, 13], 0, 8) := by decide +kernel

/-- The example's samples packed. -/
def packSample (n : Nat) : DRec :=
  { idx := 0, reason := if n = 0 then 0x3005 else 0, streams := if n = 0 then [] else [(0, { shape := 1, fmt := 1, w := 16, data := zeros (2 * n) })] }
def packed (seqs : Nat) : List Machine.Sample :=
  (packAll { len := 16, seqs := seqs, split := false, tokens := [0], fixed := [], pad := 9 } ([7, 5, 6, 0, 9].map packSample)
    { sq := 0, place := 0, parts := 0, toks := [[]], segs := [[]], full := false } []).2

theorem test_pack : (packed 3).map (fun m => (m.sq, m.start, m.len, m.flags)) = [(0, 0, 7, 0), (0, 7, 5, 0), (1, 0, 6, 0), (1, 6, 0, 1), (1, 6, 9, 0)] := by
  decide +kernel
theorem test_pack_overflow : ((packed 1).filter (fun m => decide (8 ≤ m.flags))).length = 3 := by decide +kernel

/-! ## Barriers (14, Table 14.6) -/

/-- Barrier 9: A on list 2 of reef 0.0, B on list 2 of reef 0.1, C on list 5 of reef 5.2. -/
def plan9 : BarPlan := { p := 3, timeout := 0, root := 0xFFF, nodes := [], lists := [listNum 0 0 2, listNum 1 0 2, listNum 42 0 5] }
def barArrive (k : Nat) (s : State) : State := if barLaps s 9 k then seqLap 9 k s else seqNext k (listArrives 9 plan9 k s)
def barArriveWait (k : Nat) (s : State) : State := if barLaps s 9 k then seqLap 9 k s else seqBarWait 9 plan9 k 0 (listArrives 9 plan9 k s)
/-- Steps 1 to 6 of the table, then 7 to 9. -/
def barAt6 : State :=
  [barArrive 2, barArriveWait 66, barArrive 2, barArrive 2, seqBarWait 9 plan9 2 0, barArriveWait 2693].foldl (fun s f => f s)
    (running (plateWith [] [] [0] []) ready)
def barAt9 : State := [barArriveWait 66, barArriveWait 2693, barArrive 2].foldl (fun s f => f s) barAt6

theorem test_barrier_lap : (let x := barGet barAt6 9; (x.even, x.odd, x.g)) = (0, 1, 1) ∧ (partGet (barGet barAt6 9) 2).a = 2 := by decide +kernel
theorem test_barrier_next : (let x := barGet barAt9 9; (x.even, x.odd, x.g)) = (1, 0, 2) := by decide +kernel

/-! ## Routes (01 after R21) and the send queues of a session (16 R399, R400) -/

theorem test_routes : (routesOf 0 1).high = [1] ∧ (routesOf 0 1).low = [0, 3, 2] ∧ routesOf 0 4 = { low := [0], high := [1], split := true } ∧
    routesOf 0 2 = { low := [0, 3], high := [1, 2], split := true } := by decide
def opOf (tc : BitVec 2) (n a : Nat) : TxOp :=
  { tc := tc, body := opRecord 2 (BitVec.ofNat 64 a) 0 0 n (zeros n), awaits := true, run := none, fate := none }
/-- The classes of the frames that session 1 sends when these operations wait. -/
def grantsOf (q : List TxOp) : List (Nat) :=
  (((pumpSession 1 (sessPut 1 { sessionOf .operator 0 with queue := q } ready)).sessions.find? (fun p => p.1 = 1)).elim []
    (fun p => p.2.unacked.map (fun f => f.2.op.tc.toNat)))

theorem test_one_yield : grantsOf (opOf 2 8 0 :: (List.range 9).map (fun i => opOf 0 8 (64 * i + 64))) = [0, 0, 0, 0, 0, 0, 0, 2, 0, 0] := by decide +kernel
theorem test_shares : grantsOf ([3, 3, 2, 2, 2, 2, 2, 1, 1, 1].mapIdx (fun i c => opOf c 480 (4096 * i))) = [1, 1, 2, 2, 2, 2, 3, 1, 2, 3] := by decide +kernel
theorem test_hold : grantsOf [opOf 2 16 100, opOf 0 8 108] = [2, 0] := by decide +kernel

/-! ## Registers and counters (20 after R479; 21 after Table 21.11) -/

theorem test_alias : aliasOf 0x80208 = (0x4010, 2) := by decide
theorem test_counter : counterWord 0x012B1188 = some (9649, false) ∧ reefCnt 43 49 = 9649 := by decide +kernel

/-! ## Power and management (24 Table 24.5; 25 after Table 25.7) -/

/-- Island 9 at a temperature at a time, where THROTTLE_C is 90. -/
def sampleAt (t temp : Nat) (s : State) : State :=
  thermalSample ((List.range 48).map (fun k => if k = 9 then BitVec.ofNat 8 temp else 40)) 0 { s with time := t }
def throttled : State := [(100, 88), (1000, 91), (2000, 90), (4000, 87)].foldl (fun s p => sampleAt p.1 p.2 s) (rset 0x00060000 0x00735A5F ready)

theorem test_throttle_down : (railGet throttled 9).mv = 680 := by decide +kernel
theorem test_throttle_up : (railGet (sampleAt 14000 86 throttled) 9).mv = 750 := by decide +kernel
theorem test_management_word : mgmtWord { ready with pwr := { ready.pwr with watts := 1852 } } 0 0x42 = 0x073C := by decide +kernel

/-! ## Digests and checks -/

/-- The published check values of CRC-32C and CRC-32 for the digits 1 to 9, and the first bytes of SHA3-256 of nothing. -/
theorem test_crc : crc32c [0x31, 0x32, 0x33, 0x34, 0x35, 0x36, 0x37, 0x38, 0x39] = 0xE3069283 := by decide +kernel
theorem test_sha3 : (digestBytes (sha3 [])).take 8 = [0xA7, 0xFF, 0xC6, 0xF8, 0xBF, 0x1E, 0xD7, 0x66] := by decide +kernel

end Sys2Proof.Tests.Examples
end

