-- ==== Sys2Proof/Tests/Witness1.lean ====
section
/-! SUPPORT. Witnesses of the statements' hypotheses, one theorem for each statement: steps, stores, plates, channels. -/

namespace Sys2Proof.Tests
open Sys2Proof Sys2Proof.Machine
set_option Elab.async false

/-! ## Steps and stores -/

theorem witness_StepRunsTheFrontCommand : State.reset.pending = [] := rfl

theorem witness_StepKeepsSound :
    Sound { State.reset with pending := [.powerUp] } ∧ ∃ t, step { State.reset with pending := [.powerUp] } = .next t :=
  ⟨⟨⟨by decide, by decide, by decide, by decide, by decide⟩, trivial⟩, _, rfl⟩

theorem witness_NothingTurnsBack :
    (∃ t, step State.reset = .next t) ∧ (∀ us, Instr.capeLost ≠ .porNAssert us) ∧ Instr.capeLost ≠ .powerLoss ∧
      ∃ t, exec .capeLost ready = .next t := ⟨⟨_, rfl⟩, by simp, by simp, _, rfl⟩

theorem witness_CommandsKeepToTheirStores :
    (sparesMemory .helloIntervalEnd = true ∧ ∃ t, exec .helloIntervalEnd ready = .next t) ∧
      (∃ t, exec (.islandLost 15) ready = .next t) ∧ writesFlash (.islandLost 15) = false ∧ movesPins (.islandLost 15) = false :=
  ⟨⟨rfl, _, rfl⟩, ⟨_, rfl⟩, rfl, rfl⟩

/-! ## Plates -/

/-- A plate of no stages. -/
def bare : Plate := plateWith [] [] [] []

/-- The standby bank holds the plate, in a state. -/
def standingBy (x : Standby) (s : State) : State := { s with plt := { s.plt with standby := x, storeY := some bare } }

theorem witness_PlateLoadsBegin :
    OpenAs ready 2 .installer ∧ ready.rcv.cape = false ∧ ready.plt.standby = .empty ∧
      OpenAs (standingBy .proofed ready) 2 .installer ∧ (standingBy .proofed ready).plt.standby = .proofed :=
  ⟨⟨_, rfl, rfl, rfl⟩, rfl, rfl, ⟨_, rfl, rfl, rfl⟩, rfl⟩

theorem witness_PlateBankCommandsAct :
    OpenAs (standingBy .proofed ready) 2 .installer ∧ (standingBy .proofed ready).rcv.cape = false ∧
      (standingBy .proofed ready).plt.standby = .proofed ∧
    OpenAs (standingBy .committing ready) 2 .installer ∧ (standingBy .committing ready).plt.standby = .committing ∧
    OpenAs (running bare ready) 2 .installer ∧ (running bare ready).plt.active = .running ∧
    { running bare ready with plt := { (running bare ready).plt with active := .fallback } }.plt.active = .fallback :=
  ⟨⟨_, rfl, rfl, rfl⟩, rfl, rfl, ⟨_, rfl, rfl, rfl⟩, rfl, ⟨_, rfl, rfl, rfl⟩, rfl, rfl⟩

theorem witness_CommitAndEvict :
    let s := { standingBy .proofed ready with chans := [(0, chan0)] }
    let t := running bare ready
    OpenAs s 2 .installer ∧ s.rcv.cape = false ∧ s.plt.standby = .proofed ∧ standbyPlate s = some bare ∧ inletMissing s bare = false ∧
      OpenAs t 2 .installer ∧ t.rcv.cape = false ∧ t.plt.active = .running ∧ ∀ c ∈ t.chans, c.2.state = .free :=
  ⟨⟨_, rfl, rfl, rfl⟩, rfl, rfl, rfl, by decide +kernel, ⟨_, rfl, rfl, rfl⟩, rfl, rfl, by decide⟩

theorem witness_SwapAndFallback :
    let s := { standingBy .committing ready with plt := { (standingBy .committing ready).plt with instant := true } }
    let t := { running bare ready with plt := { (running bare ready).plt with fallbackFor := some 15 } }
    (standbyPlate s = some bare ∧ s.plt.standby = .committing ∧ s.plt.instant = true ∧ drained s = true ∧ s.rcv.cape = false) ∧
    (t.plt.fallbackFor = some 15 ∧ activePlate t = some bare ∧ t.rcv.cape = false) ∧
    (∃ i < 16, (0x8000#16).getLsbD i = true ∧ islLost t i = false) ∧ ∀ i < 16, (0#16).getLsbD i = true → islLost t i = true := by
  decide +kernel

/-- Two sheets an island; with `d`, island 15 has that DEMAND section. -/
def twoSheets (d : List (List Byte)) : Plate :=
  { plateWith [] [] [] (d.map (fun b => { kind := 10, island := 15, sheet := 255, case := 255, data := b })) with sheets := List.replicate 16 2 }

/-- A state with that plate, island 15 at `x`. -/
def sheetState (d : List (List Byte)) (x : Isl) : State := { running (twoSheets d) ready with isl := [(15, x)] }

/-- A DEMAND section with private lagoon bytes for sheet 1 of reef 0. -/
def privateDemand : List Byte := zeros 0x48 ++ leBytes 4 32 ++ zeros (0xE0 - 0x4C)

theorem witness_SheetsTakeTurns :
    2 ≤ sheetsOf (sheetState [] ⟨0, false, false, false, 0⟩) 15 ∧ (islGet (sheetState [] ⟨0, false, false, false, 0⟩) 15).switching = false ∧
    (let s := sheetState [] ⟨0, true, false, false, 0⟩
     2 ≤ sheetsOf s 15 ∧ (islGet s 15).switching = true ∧ (islGet s 15).stalled = false ∧ privateBytes s 15 1 = 0) ∧
    (let s := sheetState [privateDemand] ⟨0, true, true, false, 0⟩
     2 ≤ sheetsOf s 15 ∧ (islGet s 15).switching = true ∧ (islGet s 15).stalled = false ∧ (islGet s 15).filled = true) ∧
    (let s := sheetState [privateDemand] ⟨0, true, false, false, 0⟩
     2 ≤ sheetsOf s 15 ∧ (islGet s 15).switching = true ∧ (islGet s 15).stalled = false ∧ (islGet s 15).filled = false ∧
       privateBytes s 15 1 ≠ 0) ∧
    (let s := sheetState [privateDemand] ⟨0, true, false, true, 0⟩
     2 ≤ sheetsOf s 15 ∧ (islGet s 15).stalled = true) := by decide +kernel

/-- The least plate is loading, for a session. -/
def loadingLeast : State :=
  { signed ready with plt := { (signed ready).plt with standby := .loading, load := some { cmd := 1, sid := 2, bytes := some leastPlate } } }

/-- A plate is proofing, the islands below `n` proofed. -/
def proofing (n : Nat) : State :=
  { ready with plt := { ready.plt with standby := .proofing, storeY := some bare, proofed := (List.range n).map (fun i => (i, true)) } }

theorem witness_LoadAndProofEnd_load :
    loadingLeast.rcv.cape = false ∧ loadingLeast.plt.standby = .loading ∧
      loadingLeast.plt.load = some { cmd := 1, sid := 2, bytes := some leastPlate } ∧ loadChecks loadingLeast leastPlate true = none ∧
      namesLost loadingLeast (plateOf leastPlate) = none := by
  refine ⟨rfl, rfl, rfl, by decide +kernel, by decide +kernel⟩

theorem witness_LoadAndProofEnd :
    ((proofing 15).rcv.cape = false ∧ (proofing 15).plt.standby = .proofing ∧ islLost (proofing 15) 15 = false ∧
      nmem (proofing 15).plt.rewritten 15 = false) ∧
    ((proofing 15).plt.bootLoad = false ∧ (∀ i < 16, islLost (proofing 15) i = false → i ≠ 15 → nmem (proofing 15).plt.proofed i = true) ∧
      mwf false (proofing 15).plt.proofed = true) ∧
    (islLost (proofing 0) 0 = false ∧ (∃ i < 16, islLost (proofing 0) i = false ∧ i ≠ 0 ∧ nmem (proofing 0).plt.proofed i = false) ∧
      mwf false (proofing 0).plt.proofed = true) := by decide +kernel

/-! ## Channels -/

/-- An ENGINE record of stage 1 for a unit, without regions. -/
def engineOn (unit : Nat) : List Byte := recOf 1 0 unit 1 0 (zeros 2 ++ zeros 2 ++ leBytes 2 0xFFFF ++ zeros 42)

/-- A plate of a Graver stage runs; channel 0 is OPEN. -/
def openState : State := { running (plateWith (engineOn 0) [] [1] []) ready with chans := [(0, chan0)] }

theorem witness_SubmitAcceptsADescriptor :
    let d := descWith 64 64 0
    let c := chanGet openState (handleIdx d.handle)
    (descFields d = true ∧ handleCode openState d.handle = cOk ∧ roleOf openState 1 = .operator ∧ openState.rcv.double = false ∧
      d.seq.toNat = c.accepted + 1 ∧ c.state = .opened ∧ descTail openState (handleIdx d.handle) c d = cOk ∧
      2 ≤ (chanCopies openState c).length) ∧
    descFields { d with rsvd := 1 } = false := by decide +kernel

/-- A control item for a handle. -/
def item (h : W32) (arg0 : W64) : CtlItem := { rsvd0 := 0, handle := h, tag := 7, arg0 := arg0, arg1 := 0, rsvd1 := 0 }

theorem witness_CreateOpensTheLowestIndex :
    let c := item 0 0x060300
    ctlFields 0x8001 c = true ∧ roleOf openState 1 = .operator ∧ createInlet openState 0 = (cOk, 3) ∧ c.arg0.toNat / 256 % 4 ≤ 3 ∧
      freeIndex? openState = some 1 ∧ ringFits openState 1 0 2048 = true ∧ ringFits openState 3 0 2048 = true := by decide +kernel

theorem witness_CreateOpensTheLowestIndex_place : ringPlaces openState ((item 0 0x060300).arg0.toNat / 2 ^ 16) ≠ [] := by
  refine List.ne_nil_of_mem (a := (1, 0)) ?_
  simp only [ringPlaces, List.mem_flatMap, List.mem_filter, List.mem_map, List.mem_range]
  exact ⟨1, by decide +kernel, 0, by decide +kernel, rfl⟩

/-- Channel 0 with a descriptor completed, retired up to `n`. -/
def doneChan (n : Nat) : Chan := { chanWith (descWith 64 64 0) with committed := 1, completed := 1, retired := n }

theorem witness_DestroyDrains :
    let c := item 0x10000 0
    let s := working (engineOn 0) [] [1] (descWith 64 64 0)
    let t := { openState with chans := [(0, doneChan 1)] }
    ctlFields 0x8002 c = true ∧ c.arg0 = 0 ∧
    (handleCode s c.handle = cOk ∧ roleOf s 1 = .operator ∧ (chanGet s 0).state = .opened ∧ (chanGet s 0).completed < (chanGet s 0).accepted) ∧
    (handleCode t c.handle = cOk ∧ roleOf t 1 = .operator ∧ (chanGet t 0).state = .opened ∧ (chanGet t 0).accepted = (chanGet t 0).completed ∧
      (chanGet t 0).waiting = [] ∧ (chanGet t 0).accepted ≤ (chanGet t 0).retired) := by decide +kernel

theorem witness_RetireAndSettings :
    let s := { openState with chans := [(0, doneChan 0)] }
    handleCode s 0x10000 = cOk ∧ roleOf s 1 = .operator ∧
    (ctlFields 0x8003 (item 0x10000 1) = true ∧ (chanGet s 0).state ≠ .closed) ∧
    (ctlFields 0x8003 (item 0x10000 0) = true ∧ max (chanGet s 0).retired (min 0 (chanGet s 0).completed) = (chanGet s 0).retired) ∧
    (chanGet s 0).state = .opened ∧
    (ctlFields 0x8004 (item 0x10000 3) = true ∧ acceptPlate s 0 = some (plateWith (engineOn 0) [] [1] [], 255) ∧
      (inletNum (plateWith (engineOn 0) [] [1] []) 255 0).map (·.maxTc) = some 3) ∧
    ctlFields 0x8005 (item 0x10000 5) = true := by decide +kernel

/-- The only stage is over. -/
def finished : State :=
  { working (engineOn 0) [] [1] (descWith 64 64 0) with runs := [(1, { Run.init with pos := 1, eff := [.bytes 0x10000 [1]] })] }

theorem witness_CommitAdvancesTheChannel :
    let c := chanGet finished 0
    let j := entryOf (descWith 64 64 0)
    let x := runGet finished (runNum 0 1)
    c.committed = 0 ∧ mlook c.journal 1 = some j ∧ j.state = .accepted ∧ j.after = false ∧ j.verdict = 0 ∧ chanRuns c = true ∧
      nmem finished.rcv.frozen 0 = false ∧ chanCopies finished c ≠ [] ∧ runFinished finished c x = true ∧ finished.engines = [] ∧
      effBytes x.eff ≤ 0x1000000 ∧ lostTarget finished x.eff = false ∧ logFits finished c (effBytes x.eff) = true ∧
      ∀ e ∈ x.eff, ∃ a b, e = .bytes a b := by
  refine ⟨rfl, rfl, rfl, rfl, rfl, rfl, rfl, by decide +kernel, by decide +kernel, rfl, by decide +kernel, by decide +kernel,
    by decide +kernel, ?_⟩
  intro e he
  exact ⟨0x10000, [1], by simpa [finished, runGet, runNum, mget] using he⟩

/-- It is committed; island 1 has its batch to apply. -/
def committed1 (applied : SMap Nat) (done : NSet) : State :=
  { finished with
    chans := [(0, { chanWith (descWith 64 64 0) with committed := 1, journal := [(1, { entryOf (descWith 64 64 0) with state := .committed })] })],
    applied := applied, runs := [(1, { Run.init with pos := 1, eff := [.bytes 0x11000 [1]], applied := done })] }

theorem witness_BatchesApplyOnce :
    let s := committed1 [] []
    let j := { entryOf (descWith 64 64 0) with state := .committed }
    (journalOf s 0 1 = some j ∧ j.state = .committed ∧ j.verdict = 0 ∧ islLost s 1 = false ∧ appliedThrough s 1 0 < 1 ∧
      (effIslands s (runGet s (runNum 0 1)).eff).contains 1 = true ∧ earlierApplied s 1 0 1 = true) ∧
    (let t := committed1 [(4096, 1)] [(1, true)]
     journalOf t 0 1 = some j ∧ islLost t 1 = false ∧ 1 ≤ appliedThrough t 1 0) := by decide +kernel

theorem witness_CompletionAdvancesTheChannel :
    (let s := committed1 [(4096, 1)] [(1, true)]
     let c := chanGet s 0
     c.completed = 0 ∧ mlook c.journal 1 = some { entryOf (descWith 64 64 0) with state := .committed } ∧ chanCopies s c ≠ [] ∧
       allConfirmed s (runNum 0 1) (runGet s (runNum 0 1)) = true ∧ c.state = .opened) ∧
    (let j := { entryOf (descWith 64 64 0) with verdict := cCancelled }
     let s := { openState with chans := [(0, { chanWith (descWith 64 64 0) with journal := [(1, j)] })] }
     mlook (chanGet s 0).journal 1 = some j ∧ chanCopies s (chanGet s 0) ≠ [] ∧ j.state = .accepted ∧ j.verdict = cCancelled) := by decide +kernel

end Sys2Proof.Tests
end

