-- ==== Sys2Proof/Tests/Witness2.lean ====
section
/-! SUPPORT. Witnesses of the statements' hypotheses: sequencers, cells and accumulators. -/

namespace Sys2Proof.Tests
open Sys2Proof Sys2Proof.Machine
set_option Elab.async false

/-! ## Sequencers -/

/-- A SEQ_PROGRAM section of island 0 whose list 0 of reef 0 has one command. -/
def program (w arg addr : Nat) : Section :=
  { kind := 3, island := 0, sheet := 0, case := 255, data := leBytes 4 1 ++ zeros 508 ++ leBytes 4 w ++ leBytes 4 arg ++ leBytes 8 addr }

/-- A SYNC_ASSIGN section of island 0: barrier 63 of lists 0 and 1 of reef 0, its root here. -/
def barrierSection : Section :=
  { kind := 4, island := 0, sheet := 255, case := 255, data := zeros 3072 ++ leBytes 4 1 ++ zeros 28 ++ [63, 0] ++ leBytes 2 2 ++ leBytes 4 9
      ++ leBytes 2 0xFFF ++ leBytes 2 2 ++ zeros 20 ++ leBytes 2 0 ++ leBytes 2 8 ++ zeros 4 }

/-- List 0 of reef 0 of a running plate stands at a command; object 47 counts 2 of 5. -/
def atCommand (w arg addr : Nat) : State :=
  { running (plateWith (engineOf0) [] [1] [program w arg addr, barrierSection]) ready with
    chans := [(0, chanWith (descWith 64 64 0))], objs := [(47, { count := 2, ceiling := 5, timeout := 9, queue := [] })] }
where engineOf0 := recOf 1 0 0 1 0 (leBytes 2 0 ++ leBytes 2 0 ++ leBytes 2 0xFFFF ++ zeros 42)

/-- That list. -/
def list0 : ListId := { reef := 0, sheet := 0, list := 0 }

theorem witness_ListsFlow :
    let s := atCommand 1 0 0
    listIssues (atCommand 0 0 0) (listKey list0) ⟨0, 0, 0⟩ = true ∧ listIssues (atCommand 3 0 0) (listKey list0) ⟨3, (0 : W32).toNat, 0⟩ = true ∧
    listIssues (atCommand 2 0 0) (listKey list0) ⟨2, 0, 0⟩ = true ∧
    (listIssues s (listKey list0) ⟨1, 0, 0⟩ = true ∧ takeNext s (listKey list0) = some ref1) ∧
    (listIssues { s with chans := [] } (listKey list0) ⟨1, 0, 0⟩ = true ∧ takeNext { s with chans := [] } (listKey list0) = none) := by
  decide +kernel

theorem witness_ObjectsCount :
    let k := listKey list0
    let o : BitVec 13 := 47
    let at_ := fun (op n addr : Nat) => atCommand (op + 256 * o.toNat) n addr
    (objOk (at_ 0x10 3 0) 47 = true ∧ listIssues (at_ 0x10 3 0) k ⟨0x10 + 256 * o.toNat, (3 : W16).toNat, 0⟩ = true ∧
      (objGet (at_ 0x10 3 0) 47).count + 3 ≤ (objGet (at_ 0x10 3 0) 47).ceiling ∧ (objGet (at_ 0x10 3 0) 47).queue = []) ∧
    (objOk (at_ 0x12 2 0) 47 = true ∧ listIssues (at_ 0x12 2 0) k ⟨0x12 + 256 * o.toNat, (2 : W16).toNat, 0⟩ = true ∧
      o.toNat / 48 = k / 64 ∧ 2 ≤ (objGet (at_ 0x12 2 0) 47).count) ∧
    (objOk (at_ 0x11 2 7) 47 = true ∧ listIssues (at_ 0x11 2 7) k ⟨0x11 + 256 * o.toNat, (2 : W16).toNat, (7 : BitVec 24).toNat⟩ = true ∧
      (objGet (at_ 0x11 2 7) 47).queue = [] ∧ 2 ≤ (objGet (at_ 0x11 2 7) 47).count) ∧
    (objOk (at_ 0x11 3 0) 47 = true ∧ listIssues (at_ 0x11 3 0) k ⟨0x11 + 256 * o.toNat, (3 : W16).toNat, (0 : BitVec 24).toNat⟩ = true ∧
      (objGet (at_ 0x11 3 0) 47).queue = [] ∧ (objGet (at_ 0x11 3 0) 47).count < 3) := by decide +kernel

/-- Barrier 63 as that plate gives it. -/
def plan63 : BarPlan := { p := 2, timeout := 9, root := 0xFFF, lists := [0, 1], nodes := [] }

theorem witness_BarriersCountArrivals :
    let k := listKey list0
    let at_ := fun (op addr : Nat) => atCommand (op + 256 * 63) 0 addr
    let s := { at_ 0x15 0 with barriers := [(63, { g := 1, even := 0, odd := 0, parts := [(0, { a := 1, w1 := 0 })] })] }
    (barNow (at_ 0x14 0) 63 = some plan63 ∧ plan63.lists.contains k = true) ∧
    (listIssues (at_ 0x14 0) k ⟨0x14 + 256 * 63, 0, 0⟩ = true ∧ barLaps (at_ 0x14 0) 63 k = false) ∧
    (listIssues (at_ 0x15 5) k ⟨0x15 + 256 * 63, 0, (5 : BitVec 24).toNat⟩ = true ∧ (partGet (barGet (at_ 0x15 5) 63) k).a = 0) ∧
    (barNow s 63 = some plan63 ∧ listIssues s k ⟨0x15 + 256 * 63, 0, (0 : BitVec 24).toNat⟩ = true ∧ 0 < (partGet (barGet s 63) k).a ∧
      (partGet (barGet s 63) k).a ≤ (barGet s 63).g ∧ (seqGet s k).wait = none) ∧
    (listIssues (at_ 0x16 5) k ⟨0x16 + 256 * 63, 0, (5 : BitVec 24).toNat⟩ = true ∧ barLaps (at_ 0x16 5) 63 k = false) := by decide +kernel

theorem witness_WaitsAndTransfersSignal :
    let k := listKey list0
    let w := fun (x : SeqWait) => { atCommand 0 0 0 with lists := [(0, { SeqList.init with wait := some x })] }
    let e : EngineCmd := { EngineCmd.init with att := { obj := 47, n := 3 } }
    let s := { atCommand 0 0 0 with engines := [(engineKey 127 255, e)] }
    let t := { atCommand (0x50 + 256 * 8) 6 0 with lists := [(0, { SeqList.init with cur := some ref1 })] }
    (listRuns (w (.obj 47 3 1)) k = true ∧ (seqGet (w (.obj 47 3 1)) k).wait = some (.obj 47 3 1)) ∧
    (listRuns (w (.bar 63 1)) k = true ∧ (seqGet (w (.bar 63 1)) k).wait = some (.bar 63 1)) ∧
    (mlook s.engines (engineKey 127 255) = some e ∧ e.run = none ∧ e.dest = none ∧ objOk s e.att.obj.toNat = true ∧
      (objGet s e.att.obj.toNat).count + e.att.n.toNat ≤ (objGet s e.att.obj.toNat).ceiling) ∧
    (listIssues (atCommand (0x50 + 256 * 8) 6 0) k ⟨0x50 + 256 * (8 : Byte).toNat, (6 : W32).toNat, 0⟩ = true ∧
      (seqGet (atCommand (0x50 + 256 * 8) 6 0) k).cur = none) ∧
    (listIssues t k ⟨0x50 + 256 * (8 : Byte).toNat, (6 : W32).toNat, 0⟩ = true ∧ (seqGet t k).cur = some ref1) ∧
    (listIssues (atCommand 0x40 64 128) k ⟨0x40, (64 : W32).toNat, (128 : W64).toNat⟩ = true ∧
      anyPoison (atCommand 0x40 64 128) (lagKey (k / 512) (128 : W64).toNat) 64 = false) := by decide +kernel

/-! ## Cells and accumulators -/

theorem witness_WxaCommandsAct :
    let k := listKey list0
    let at_ := fun (op addr : Nat) => atCommand (op + 256 * 11) 0 addr
    listIssues (at_ 0x30 0) k ⟨0x30 + 256 * (11 : BitVec 4).toNat, 0, 0⟩ = true ∧
    listIssues (at_ (0x31 + 4096) 0) k ⟨0x31 + 256 * (11 : BitVec 4).toNat + 4096 * true.toNat, 0, 0⟩ = true ∧
    (listIssues (at_ 0x32 64) k ⟨0x32 + 256 * (11 : BitVec 4).toNat, 0, (64 : W64).toNat⟩ = true ∧
      partPoison (at_ 0x32 64) (lagKey (k / 512) 64) (wxaImage (wxaGet (at_ 0x32 64) 11)).length = false) ∧
    (listIssues (at_ 0x35 64) k ⟨0x35 + 256 * (11 : BitVec 4).toNat, 0, (64 : W64).toNat⟩ = true ∧
      partPoison (at_ 0x35 64) (lagKey (k / 512) 64) 4 = false) ∧
    (listIssues (at_ 0x33 64) k ⟨0x33 + 256 * (11 : BitVec 4).toNat, 0, (64 : W64).toNat⟩ = true ∧
      anyPoison (at_ 0x33 64) (lagKey (k / 512) 64) 64 = false) ∧
    (listIssues (at_ 0x34 64) k ⟨0x34 + 256 * (11 : BitVec 4).toNat, 0, (64 : W64).toNat⟩ = true ∧
      anyPoison (at_ 0x34 64) (lagKey (k / 512) 64) 64 = false) ∧
    (termOk (.dot 3 (-2)) = true ∧ islLost ready ((127 : BitVec 7).toNat / 8) = false) ∧
    ((1 : Nat) ≠ 0 ∧ 3 < 1 * 2 ^ 128 ∧ Wxa.init.terms < 2 ^ 40 ∧ Wxa.init.square = false ∧ 3 * 2 ^ 149 % 1 = 0) := by decide +kernel

theorem witness_MergeAddsAnImage :
    let s := atCommand (0x34 + 256 * 15) 0 64
    let i := fun (n : Nat) => { Wxa.init with terms := n }
    let t := holding (lagKey 0 64) (wxaImage (i 1)) { s with wxas := [(wxaNum 0 15, i (2 ^ 40))] }
    (listIssues s (listKey list0) ⟨0x34 + 256 * (15 : BitVec 4).toNat, 0, (64 : W64).toNat⟩ = true ∧ anyPoison s (lagKey 0 64) 64 = false ∧
      (wxaGet s (wxaNum 0 15)).terms + (wxaOfImage (readMem s (lagKey 0 64) 64)).terms ≤ 2 ^ 40) ∧
    (listIssues t (listKey list0) ⟨0x34 + 256 * (15 : BitVec 4).toNat, 0, (64 : W64).toNat⟩ = true ∧ anyPoison t (lagKey 0 64) 64 = false ∧
      2 ^ 40 < (wxaGet t (wxaNum 0 15)).terms + (wxaOfImage (readMem t (lagKey 0 64) 64)).terms) := by decide +kernel

theorem witness_SumsDoNotDependOnOrder :
    let enter := fun (w : Wxa) (t : Bool × Machine.Num) => wxaEnter t.1 t.2 w
    let a : List (Bool × Machine.Num) := [(true, .fin false 3 1), (false, .nan)]
    a.Perm a.reverse ∧ (a.foldl enter Wxa.init).full = false ∧ ((a ++ a).foldl enter { Wxa.init with square := true }).full = false := by
  refine ⟨(List.reverse_perm _).symm, by decide +kernel, by decide +kernel⟩

/-- A CELL_WIRING section of island 0 whose cell (0, 0) of reef 0 has an operation. -/
def wired (op : Nat) : Section :=
  { kind := 1, island := 0, sheet := 0, case := 255, data := leBytes 64 op ++ zeros 64 }

/-- A descriptor at work beside a cell of operation `op`. -/
def cellState (op : Nat) : State :=
  { running (plateWith (recOf 1 0 0 1 0 (zeros 4 ++ leBytes 2 0xFFFF ++ zeros 42)) [] [1] [wired op]) ready with
    chans := [(0, chanWith (descWith 64 64 0))] }

theorem witness_CellsStep :
    ((ctxOf (cellState 1) 0 1).isSome = true ∧ (0 : BitVec 4).toNat ≤ 11 ∧ cfgBits (cellCfg (cellState 1) 0 0 0) 7 0 ≠ 0 ∧
      cellsRun (cellState 1) 0 = true) ∧
    (12 ≤ (15 : BitVec 4).toNat ∧ cellsRun (cellState 0) 0 = true ∧ ∀ col < 16, dotPoison (cellState 0) 0 (cellCfg (cellState 0) 0 15 col)
      (mget DCell.init (cellState 0).dcells (cellNum 0 15 col)).line = none) := by decide +kernel

end Sys2Proof.Tests
end

