-- ==== Sys2Proof/Tests/Witness3.lean ====
section
/-! SUPPORT. Witnesses of the statements' hypotheses: the stages of a descriptor. -/

namespace Sys2Proof.Tests
open Sys2Proof Sys2Proof.Machine
set_option Elab.async false

/-! ## Stages -/

/-- An ENGINE record of a stage for a unit: region 0 in and out; `aux` bytes of region 0 at 0x30000 where it has an AUX area. -/
def engineRecOf (stage unit aux : Nat) : List Byte :=
  recOf 1 0 unit stage 0 (zeros 4 ++ leBytes 2 (if aux = 0 then 0xFFFF else 0) ++ zeros 18 ++ leBytes 8 0x30000 ++ zeros 8 ++ leBytes 4 aux ++ zeros 4)

/-- Where a stage stands: its records beside an ENGINE of unit 3, a parameter section and its bytes, records of REGION_MAP, the
descriptor's lengths, its run so far (stage 0 of chain 0, 1 is over where that is not new), bytes in memory. -/
def atStage (recs : List Byte) (sec : Nat) (param maps : List Byte) (d : Descriptor) (r : Run) (mem : List (Nat × List Byte)) : State :=
  let binds := engineRecOf 0 0 0 ++ engineRecOf 1 3 0 ++ recs
    ++ (if sec = 0 then [] else recOf 0x10 0 0 1 0 (leBytes 4 sec ++ zeros 4))
  let s := { working binds maps (if r.pos = 0 then [1] else [0, 1]) d with runs := if r = Run.init then [] else [(1, r)] }
  mem.foldl (fun s p => holding p.1 p.2 s) (if param = [] then s else holding 0x20000 param s)

/-- No context. -/
def noCtx : Ctx :=
  { chan := 0, seq := 0, ch := chan0, j := entryOf (descWith 0 0 0), p := plateWith [] [] [] [], c := 255,
    inl := { num := 0, entry := 0, maxTc := 0, ranges := [], chain := [] }, st := 0, rs := [], reef := 0, run := Run.init }

/-- The context of the descriptor's stage. -/
def ctxAt (s : State) : Ctx := (ctxOf s 0 1).getD noCtx

/-- Work of a kind is due, as a test that evaluates. -/
def dueAt (kind : Nat) (s : State) : Bool :=
  decide (ctxOf s 0 1 = some (ctxAt s)) && (stageKinds (ctxAt s).rs).contains kind && !nmem (ctxAt s).run.did kind
    && (!((ctxAt s).entry && decide ((ctxAt s).run.did = [])) || decide (startLost s (ctxAt s).j.d = cOk))

theorem due_of {kind : Nat} {s : State} (h : dueAt kind s = true) : StageDue kind ref1 s (ctxAt s) := by
  simp only [dueAt, Bool.and_eq_true, decide_eq_true_eq, Bool.not_eq_true', Bool.or_eq_true] at h
  obtain ⟨⟨⟨h1, h2⟩, h3⟩, h4⟩ := h
  exact ⟨h1, h2, h3, fun he => h4.elim (fun hn => by rw [hn] at he; cases he) id⟩

/-- A descriptor that begins its only stage. -/
def second : Run := { Run.init with pos := 1 }

/-! ## The Graver and the records -/

/-- GRAVER_PARAMS of a DEFLATE decompression. -/
def graverState : State :=
  atStage (recOf 2 0 0 1 0 ([1, 0] ++ leBytes 2 4 ++ zeros 60)) 0 [] [] (descWith 8 64 0) Run.init [(0, [1, 3, 0, 0xFC, 0xFF, 0x61, 0x62, 0x63])]

theorem witness_GraverRunsItsCommand :
    let s := graverState
    let x := ctxAt s
    StageDue 2 ref1 s x ∧ ∃ g, graverParams s x = some (g, true, none) ∧ graverReady s x g true none = true ∧
      (gCommand g 64 (stageInput s x) [] none none).code = cOk ∧ (gCommand g 64 (stageInput s x) [] none none).out ≠ [] := by
  refine ⟨due_of (by decide +kernel), gParamOf ([1, 0] ++ leBytes 2 4 ++ zeros 60), by decide +kernel, by decide +kernel, by decide +kernel,
    by decide +kernel⟩

/-- A CBOR decoder of one field "a", over one record. -/
def decodeState : State :=
  atStage (recOf 3 0 3 1 0 ([0, 1, 7, 0] ++ zeros 2 ++ leBytes 2 1 ++ zeros 24) ++ recOf 4 0 3 1 0 [0x61]) 1
    ([2, 0, 0, 0] ++ leBytes 4 1 ++ zeros 24) [] (descWith 4 64 32) Run.init [(0, [0xA1, 0x61, 0x61, 1])]

theorem witness_RecordDecodeNumbersItsRecords :
    let s := decodeState
    let x := ctxAt s
    let d := decSecOf (paramSection s x 1 32)
    StageDue 3 ref1 s x ∧ decSecOk (paramSection s x 1 32) = true ∧ (∃ bs, bindingSet x.rs d.set = some bs) ∧ inputCode s x = cOk ∧ d.fmt = 2 ∧
      (ctxOf s ref1.chan.toNat ref1.seq.toNat = some x ∧ (stageKinds x.rs).contains 3 = true ∧ nmem x.run.did 3 = false ∧ x.j.deadline ≠ 0 ∧
        d.first ≤ (0 : W64).toNat ∧ (0 : W64).toNat < d.first + d.count) := by
  refine ⟨due_of (by decide +kernel), by decide +kernel, ⟨[⟨0, 1, 8, 0, false, [[0x61]], 0, 0, 0⟩], by decide +kernel⟩, by decide +kernel, by decide +kernel, by decide +kernel⟩

/-- A record with a byte in stream 0. -/
def oneRec : DRec := { idx := 0, reason := 0, streams := [(0, { shape := 0, fmt := 1, w := 8, data := [7] })] }

theorem witness_RecordStagesKeepTheirRecords :
    (let s := atStage (recOf 5 0 3 1 0 (zeros 32)) 0 [] [] (descWith 4 64 0) { second with recs := [oneRec] } []
     StageDue 5 ref1 s (ctxAt s)) ∧
    (let s := atStage (recOf 6 0 3 1 0 ([5, 1, 1] ++ zeros 33 ++ leBytes 2 2 ++ zeros 10)) 0 [] [] (descWith 4 64 0) { second with recs := [oneRec] } []
     StageDue 6 ref1 s (ctxAt s) ∧
      ∀ q ∈ recKinds (ctxAt s).rs 6, (hatchOf q).fn = 5 → areaCode s (hatchOf q).list (4 * (hatchOf q).len) = cOk) ∧
    (let s := atStage (recOf 7 0 3 1 0 ([3, 0, 0, 10] ++ zeros 28)) 0 [] [] (descWith 4 64 0) { second with recs := [oneRec] } []
     StageDue 7 ref1 s (ctxAt s) ∧
      readStats s (ctxAt s) (BitVec.ofNat 64 (u64At (operatorSection s (ctxAt s)) 16)) ((((recKinds (ctxAt s).rs 7).map (fun q => normOf q.body)).filter
        (fun e => decide (e.kind = 1) || decide (e.kind = 2))).map (·.feature)) = .ok []) ∧
    (let s := { working (engineRecOf 0 0 0 ++ engineRecOf 1 3 0xE0000) [] [0, 1] (descWith 4 64 0) with runs := [(1, { second with recs := [oneRec] })] }
     let x := ctxAt s
     let ns := featureStreams x.run.recs
     let img := statsImage ((if ns = [] then [0] else ns).map (gatherFeature x.run.recs))
     StageDue kindStats ref1 s x ∧ (∃ e a, engineRec x.rs = some e ∧ areaAddr x e.auxRegion e.auxOff = some a ∧
       e.auxLen / (4096 * roundUp img.length 32) ≠ 0)) := by
  refine ⟨due_of (by decide +kernel), ⟨due_of (by decide +kernel), by decide +kernel⟩, ⟨due_of (by decide +kernel), by unfold readStats; rw [if_pos (by decide +kernel)]⟩,
    due_of (by decide +kernel), ⟨0, 3, 0, 0, 0, false, 0x30000, 0xE0000, 0, 0⟩, 0x30000, by decide +kernel, by decide +kernel, by decide +kernel⟩

/-! ## Joins -/

/-- A join table header at 0x40000 with no rows. -/
def joinHeader (keyBytes pay : Nat) : List Byte :=
  let h := leBytes 4 0x544A4B41 ++ leBytes 2 1 ++ leBytes 2 keyBytes ++ leBytes 4 0 ++ leBytes 4 8 ++ leBytes 4 pay ++ zeros 4 ++ leBytes 8 1 ++ zeros 28
  h ++ leBytes 4 (crc32c h).toNat

/-- An inner join on stream 0 by method 0. -/
def joinBody : List Byte := [0, 0, 1, 0, 1, 0, 1, 0] ++ zeros 8 ++ leBytes 8 0x40000 ++ zeros 72

theorem witness_JoinsProbeAndBuild_probe :
    let s := atStage (recOf 8 0 3 1 0 joinBody) 0 [] [] (descWith 4 64 0) { second with recs := [oneRec] } [(0x40000, joinHeader 1 0)]
    let x := ctxAt s
    StageDue 8 ref1 s x ∧ ∃ rec, recKind x.rs 8 = some rec ∧
      let e := joinOf rec.body
      let h := joinHdrOf (readMem s e.base 64)
      engRead s x.p x.c x.st e.base 64 = cOk ∧ h.ok = true ∧ x.entry = false ∧ h.index ≠ 0 ∧ keyLength e x.run.recs = some h.keyBytes ∧
      ((probeOrder e x.run.recs).foldl (joinProbe1 s x e h) { out := [], dropped := 0, probes := 0, found := 0, nulls := 0, code := 0, met := [] }).code = cOk := by
  refine ⟨due_of (by decide +kernel), { island := 0, sheet := 0, kind := 8, reef := 0, unit := 3, stage := 1, index := 0, body := joinBody }, by decide +kernel⟩

theorem witness_JoinsProbeAndBuild_build :
    let s := atStage (recOf 8 0 3 1 0 joinBody) 0 [] [] (descWith 4 64 0) Run.init [(0x40000, joinHeader 1 0)]
    let x := ctxAt s
    StageDue 8 ref1 s x ∧ ∃ rec, recKind x.rs 8 = some rec ∧
      let e := joinOf rec.body
      let h := joinHdrOf (readMem s e.base 64)
      engRead s x.p x.c x.st e.base 64 = cOk ∧ h.ok = true ∧ x.entry = true ∧ h.rows ≤ h.cap ∧
      engRead s x.p x.c x.st e.base (64 + h.rows * h.rowBytes) = cOk ∧ joinFits s e.method e.asu h.rows (indexRows s e.base h) = true := by
  refine ⟨due_of (by decide +kernel), { island := 0, sheet := 0, kind := 8, reef := 0, unit := 3, stage := 1, index := 0, body := joinBody }, by decide +kernel⟩

/-- A near-duplicate entry over stream 0. -/
def nearBody (build : Nat) : List Byte := [0, 1, 1, 1] ++ leBytes 4 build ++ zeros 8 ++ leBytes 8 0x40000 ++ zeros 8

theorem witness_JoinsProbeAndBuild_near :
    let at_ := fun (build : Nat) =>
      atStage (recOf 9 0 3 1 0 (nearBody build)) 0 [] [] (descWith 4 64 0) { second with recs := [oneRec] } [(0x40000, joinHeader 16 32)]
    ∀ build, build = 0 ∨ build = 1 →
    let s := at_ build
    let x := ctxAt s
    StageDue 9 ref1 s x ∧ ∃ rec, recKind x.rs 9 = some rec ∧
      let e := nearOf rec.body
      let h := joinHdrOf (readMem s e.base 64)
      engRead s x.p x.c x.st e.base 64 = cOk ∧ nearHdrOk h = true ∧ e.build = decide (build = 1) ∧ h.index ≠ 0 ∧
      engRead s x.p x.c x.st e.base (64 + h.rows * h.rowBytes) = cOk ∧
      h.rows + ((bandReps e x.run.recs).filter (fun p => decide (joinMatches s e.base h p.1 = []))).length ≤ h.cap := by
  intro at_ build hb
  rcases hb with rfl | rfl
  · exact ⟨due_of (by decide +kernel), { island := 0, sheet := 0, kind := 9, reef := 0, unit := 3, stage := 1, index := 0, body := nearBody 0 },
      by decide +kernel⟩
  · exact ⟨due_of (by decide +kernel), { island := 0, sheet := 0, kind := 9, reef := 0, unit := 3, stage := 1, index := 0, body := nearBody 1 },
      by decide +kernel⟩

/-! ## The shuffle -/

/-- A shuffle entry of batches of one, this device their owner, slots of 64 bytes at 0x50000 and 0x60000. -/
def shufBody : List Byte :=
  leBytes 4 1 ++ [0, 0] ++ leBytes 2 1 ++ leBytes 4 64 ++ zeros 4 ++ leBytes 8 0x1000 ++ zeros 8 ++ leBytes 8 0xFFF ++ leBytes 8 0x50000
    ++ leBytes 8 0x60000

/-- A shuffle section. -/
def shufParam (epoch role : Nat) (dir : Nat) (count : Nat) : List Byte :=
  leBytes 4 epoch ++ leBytes 4 role ++ zeros 8 ++ leBytes 8 dir ++ zeros 8 ++ leBytes 8 count ++ zeros 24

/-- A kept directory of 4,096 indices at 0x70000, not sealed. -/
def dirHead : List Byte := leBytes 4 0x44534B41 ++ leBytes 2 1 ++ zeros 10 ++ leBytes 8 4096 ++ zeros 104

/-- A shuffle stage. -/
def shufState (param : List Byte) (mem : List (Nat × List Byte)) : State :=
  atStage (recOf 10 0 3 1 0 shufBody) 4 param [] (descWith 4 64 64) { second with recs := [oneRec] } mem

/-- ShufDue's test. -/
theorem shufDue_of {role : Nat} {s : State} (h : dueAt 10 s = true) (h1 : (recKind (ctxAt s).rs 10).map (fun q => shufOf q.body) = some (shufOf shufBody))
    (h2 : (shufSecOf (paramSection s (ctxAt s) 4 64)).role = role) (h3 : shufSecOk (shufSecOf (paramSection s (ctxAt s) 4 64)) = true)
    (h4 : (shufSecOf (paramSection s (ctxAt s) 4 64)).dir ≠ 0 → dirOk s (ctxAt s) (shufSecOf (paramSection s (ctxAt s) 4 64)) = true)
    (h5 : shufLimits s (shufOf shufBody) (shufSecOf (paramSection s (ctxAt s) 4 64)) = true) :
    ShufDue role ref1 s (ctxAt s) (shufOf shufBody) (shufSecOf (paramSection s (ctxAt s) 4 64)) :=
  ⟨due_of h, h1, rfl, h2, h3, h4, h5⟩

theorem witness_ShuffleRolesRun_feed :
    let s := shufState (shufParam 0 0 0 1) []
    let x := ctxAt s
    let e := shufOf shufBody
    let c := shufSecOf (paramSection s x 4 64)
    let ws := x.run.recs.filterMap (fun q => match shufPlace s e c (shufKeys (jobSeed s x) c.epoch) q.idx with
        | .at_ k j _ => some (slotWrite s e c.epoch k j q)
        | _ => none)
    let live := ws.filter (fun w => !w.here || decide (leNat (readMem s w.slot 4) ≤ c.epoch))
    ShufDue 0 ref1 s x e c ∧ ws ≠ [] ∧ (∀ w ∈ ws, w.here = true → slotBlocked s w.slot w.slot0 c.epoch = false) ∧
      (∀ w ∈ live, w.here = true → engWrite s x.p x.c x.st w.slot (32 + w.body.length) = cOk) := by
  refine ⟨shufDue_of (by decide +kernel) (by decide +kernel) (by decide +kernel) (by decide +kernel) (by decide +kernel) (by decide +kernel),
    by decide +kernel, by decide +kernel, by decide +kernel⟩

theorem witness_ShuffleRolesRun_directory :
    let s := fun (role : Nat) => shufState (shufParam 0 role (causeway 0x70000) 0) [(0x70000, dirHead)]
    let c := fun (role : Nat) => shufSecOf (paramSection (s role) (ctxAt (s role)) 4 64)
    ShufDue 1 ref1 (s 1) (ctxAt (s 1)) (shufOf shufBody) (c 1) ∧ ShufDue 2 ref1 (s 2) (ctxAt (s 2)) (shufOf shufBody) (c 2) ∧
      areaCode (s 2) (localOf (c 2).dir) (dirBytes (u64At (readMem (s 2) (localOf (c 2).dir) 128) 16)) = cOk := by
  refine ⟨shufDue_of (by decide +kernel) (by decide +kernel) (by decide +kernel) (by decide +kernel) (by decide +kernel) (by decide +kernel),
    shufDue_of (by decide +kernel) (by decide +kernel) (by decide +kernel) (by decide +kernel) (by decide +kernel) (by decide +kernel),
    by decide +kernel⟩

theorem witness_ShuffleRolesRun_deliver :
    let s := shufState (shufParam 1 3 0 1) [(0x60000, leBytes 4 1 ++ leBytes 2 0 ++ leBytes 2 1 ++ zeros 24)]
    let x := ctxAt s
    let e := shufOf shufBody
    let c := shufSecOf (paramSection s x 4 64)
    let addrs := (List.range (e.b + e.q)).map (slotAddr e c.epoch c.batch)
    let ins := addrs.map (slotRead s c.epoch)
    ShufDue 3 ref1 s x e c ∧ (∀ a ∈ addrs, engRead s x.p x.c x.st a e.slotBytes = cOk) ∧ (ins.take e.b).all (·.ready) = true ∧
      ∃ f, fillBatch (ins.drop e.b) ((ins.take e.b).zip (List.range e.b)) { out := [], man := [], used := 0, filled := 0, unfilled := 0 } = some f := by
  refine ⟨shufDue_of (by decide +kernel) (by decide +kernel) (by decide +kernel) (by decide +kernel) (by decide +kernel) (by decide +kernel),
    by decide +kernel, by decide +kernel, { out := [{ idx := 0, reason := 0, streams := [] }], man := [], used := 0, filled := 0, unfilled := 0 },
    by decide +kernel⟩

theorem witness_ShuffleRolesRun_slots :
    (let s := holding 0x50000 (leBytes 4 1) ready
     u32At (leBytes 4 0) 0 < leNat (readMem s (localOf (BitVec.ofNat 64 (causeway 0x50000))) 4)) ∧
    (let s := holding 0x50000 (leBytes 4 0 ++ leBytes 2 0 ++ leBytes 2 1) ready
     let a := localOf (BitVec.ofNat 64 (causeway 0x50000))
     leNat (readMem s a 4) ≤ u32At (leBytes 4 2) 0 ∧ slotBlocked s a a 2 = true ∧ leNat (readMem s a 4) ≤ u32At (leBytes 4 0) 0 ∧
       slotBlocked s a a 0 = false) := by decide +kernel

/-! ## Selection, layout, packing -/

/-- A select stage over a block. -/
def selState (body : List Byte) (inLen : Nat) (mem : List (Nat × List Byte)) : State :=
  atStage (recOf 14 0 5 1 0 body) 0 [] [] (descWith inLen 256 0) Run.init mem

/-- A select block. -/
def selBody (op fmt k elem key rows rowLen stride aux : Nat) : List Byte :=
  leBytes 1 op ++ leBytes 1 fmt ++ zeros 2 ++ leBytes 1 k ++ leBytes 1 elem ++ leBytes 1 key ++ zeros 1 ++ leBytes 4 rows ++ leBytes 4 rowLen
    ++ leBytes 8 stride ++ leBytes 8 aux ++ zeros 32

/-- SelDue's test. -/
def selDueAt (op : Nat) (s : State) (e : SelOp) : Bool :=
  dueAt 14 s && decide (selParams s (ctxAt s) = some e) && decide (e.op = op)
    && decide (selCheck s (ctxAt s) e (ctxAt s).j.d.inLen.toNat = cOk) && decide (inputCode s (ctxAt s) = cOk)
    && (decide (selAuxLen e = 0) || decide (areaCode s (localOf e.aux) (selAuxLen e) = cOk))
    && decide (engWrite s (ctxAt s).p (ctxAt s).c (ctxAt s).st (localOf (ctxAt s).j.d.outAddr) (selOutLen s e) = cOk)
    && (ctxAt s).run.bytes.isNone

theorem selDue_of {op : Nat} {s : State} {e : SelOp} (h : selDueAt op s e = true) : SelDue op ref1 s (ctxAt s) e := by
  simp only [selDueAt, Bool.and_eq_true, decide_eq_true_eq, Bool.or_eq_true, Option.isNone_iff_eq_none] at h
  obtain ⟨⟨⟨⟨⟨⟨⟨h1, h2⟩, h3⟩, h4⟩, h5⟩, h6⟩, h7⟩, h8⟩ := h
  refine ⟨due_of h1, h2, h3, ?_, h5, fun h0 => h6.resolve_left h0, h7⟩
  rw [h8]
  exact h4

theorem witness_SelectPlacesItsResults :
    (let e := selOf (selBody 1 1 1 0 0 1 2 8 0)
     let s := selState (selBody 1 1 1 0 0 1 2 8 0) 8 []
     SelDue 1 ref1 s (ctxAt s) e) ∧
    (let e := selOf (selBody 2 1 0 8 4 1 2 0 0)
     let s := selState (selBody 2 1 0 8 4 1 2 0 0) 16 []
     SelDue 2 ref1 s (ctxAt s) e) ∧
    (let b := selBody 3 1 0 8 4 2 0 0 (causeway 0x30000)
     let s := selState b 16 [(0x30000, leBytes 4 1 ++ leBytes 4 1)]
     let es := runElems (selOf b) (stageInput s (ctxAt s))
     SelDue 3 ref1 s (ctxAt s) (selOf b) ∧ (mergeRuns false (es.length + 1) (cutRuns (runTable s (selOf b)) es)).2 = false) := by
  refine ⟨selDue_of (by decide +kernel), selDue_of (by decide +kernel), selDue_of (by decide +kernel), by decide +kernel⟩

/-- A view of 4 elements of 8 bits in a row. -/
def view4 (a : Nat) : List Byte := leBytes 8 (causeway a) ++ [0, 4, 1] ++ zeros 5 ++ leBytes 4 4 ++ zeros 108

/-- A copy from the input to the output. -/
def moveBody : List Byte := view4 0 ++ view4 0x10000 ++ zeros 128

/-- A pack entry of one sequence of 16 tokens from stream 0. -/
def packBody : List Byte := leBytes 4 16 ++ leBytes 4 1 ++ [0, 1] ++ zeros 54

theorem witness_LayoutMovesAndPacks :
    (let s := atStage (recOf 13 0 7 1 0 moveBody) 0 [] [] (descWith 64 64 0) Run.init []
     let x := ctxAt s
     let ts := [transformOf moveBody]
     StageDue 13 ref1 s x ∧ layTransforms s x = some ts ∧ ts.all (fun t => t.ok && t.aligned) = true ∧
      ts.all (fun t => inRange t.src x.j.d.inAddr x.j.d.inLen.toNat && inRange t.dst x.j.d.outAddr x.j.d.outLen.toNat) = true ∧
      layWaits x ts = false ∧ firstCode (ts.map (layRead s x)) = cOk ∧
      firstCode ((ts.map (fun t => (t, moveAll s t))).map (fun p => layWrite s x p.1 p.2)) = cOk) ∧
    (let s := atStage (recOf 12 0 7 1 0 packBody) 0 [] [] (descWith 64 256 0) { second with recs := [oneRec] } []
     let x := ctxAt s
     let e := packOf packBody
     let pm := packAll e x.run.recs { sq := 0, place := 0, parts := 0, toks := [[]], segs := [[]], full := false } []
     let out := packBytes e x.run.recs pm.1 pm.2
     StageDue 12 ref1 s x ∧ (recKind x.rs 12).map (·.body) = some packBody ∧ recKind x.rs 10 = none ∧ out.length ≤ x.j.d.outLen.toNat ∧
       engWrite s x.p x.c x.st (localOf x.j.d.outAddr) out.length = cOk) := by
  refine ⟨⟨due_of (by decide +kernel), by decide +kernel⟩, due_of (by decide +kernel), by decide +kernel⟩

/-! ## Embedding tables -/

/-- An INT8 table 0 of 2 rows of 8 codes: entries at 0x80000, delta areas at 0x90000 and 0xA0000, pools at 0x30000 of each stack. -/
def tableBody : List Byte :=
  [0, 4] ++ leBytes 2 8 ++ zeros 12 ++ leBytes 8 2 ++ leBytes 8 2 ++ zeros 8 ++ leBytes 8 0x80000 ++ leBytes 8 0x90000 ++ leBytes 8 0xA0000
    ++ leBytes 8 0x30000 ++ leBytes 4 4 ++ zeros 52

/-- An embedding section. -/
def embParam (role step grad : Nat) : List Byte := [0] ++ leBytes 1 role ++ zeros 6 ++ leBytes 8 step ++ zeros 22 ++ leBytes 1 grad ++ zeros 9

/-- An embedding stage of the table in a role; row 0 is in slot 0 of stack 0. -/
def embState (role grad inLen : Nat) (r : Run) (mem : List (Nat × List Byte)) : State :=
  { atStage (recOf 15 0 6 1 0 ([0] ++ leBytes 1 role ++ zeros 14)) 5 (embParam role 0 grad) (recOf 0x103 0 0 0 0 tableBody)
      (descWith inLen 256 64) r ([(0x80000, leBytes 8 (2 ^ 63))] ++ mem) with emb := [(0, { Emb.init with ready := true })] }

/-- EmbDue's test. -/
def embDueAt (role : Nat) (s : State) : Bool :=
  let x := ctxAt s
  let e := embSecOf (paramSection s x 5 48)
  dueAt 15 s && decide (embTab? s e.table = some (embTabOf tableBody)) && embSecOk e && decide (e.role = role)
    && (!x.entry || embRangesOk x (embTabOf tableBody) e) && (embGet s e.table).ready
    && decide (recKind x.rs 15 = some { island := 0, sheet := 0, kind := 15, reef := 0, unit := 6, stage := 1, index := 0,
                                        body := [0] ++ leBytes 1 role ++ zeros 14 })
    && decide (u8At ([0] ++ leBytes 1 role ++ zeros 14) 1 = role)

theorem embDue_of {role : Nat} {s : State} (h : embDueAt role s = true) :
    EmbDue role ref1 s (ctxAt s) { island := 0, sheet := 0, kind := 15, reef := 0, unit := 6, stage := 1, index := 0,
                                   body := [0] ++ leBytes 1 role ++ zeros 14 } (embTabOf tableBody)
      (embSecOf (paramSection s (ctxAt s) 5 48)) := by
  simp only [embDueAt, Bool.and_eq_true, decide_eq_true_eq, Bool.or_eq_true, Bool.not_eq_true'] at h
  obtain ⟨⟨⟨⟨⟨⟨⟨h1, h2⟩, h3⟩, h4⟩, h5⟩, h6⟩, h7⟩, h8⟩ := h
  refine ⟨due_of h1, h7, h8, rfl, h2, h3, h4, fun _ => by decide, fun he => h5.resolve_left (by rw [he]; decide), fun _ => h6⟩

theorem witness_EmbeddingRolesRun_gather :
    (let s := embState 0 0 16 Run.init [(8, leBytes 8 9)]
     let x := ctxAt s
     let t := embTabOf tableBody
     let e := embSecOf (paramSection s x 5 48)
     let vs := (chunks 8 (stageInput s x)).map (fun b => validRow s t (ofInt (sintOf 64 (leNat b))))
     embDueAt 0 s = true ∧ x.entry = true ∧ inputCode s x = cOk ∧ vs = [some 0, none] ∧ rowCodeOf s t 0 = cOk ∧
       engWrite s x.p x.c x.st (localOf x.j.d.outAddr) (vs.length * roundUp (gatherRow t e.outMode) 32 + vs.length) = cOk) ∧
    (let s := embState 0 0 4 { second with recs := [oneRec] } []
     let x := ctxAt s
     let ps := x.run.recs.map (fun q => (q, if sound q then recRows s (embTabOf tableBody) 0 q else none))
     embDueAt 0 s = true ∧ x.entry = false ∧ ps.flatMap (fun p => match p.2 with | some q => q.2 | none => []) = [none]) := by decide +kernel

theorem witness_EmbeddingRolesRun :
    (let s := embState 1 10 64 Run.init []
     embDueAt 1 s = true ∧ (ctxAt s).entry = true ∧ inputCode s (ctxAt s) = cOk) ∧
    (let s := embState 2 0 4 Run.init [(0x90020, leBytes 8 1)]
     let x := ctxAt s
     let t := embTabOf tableBody
     let rows := touchedRows s t 0
     embDueAt 2 s = true ∧ atHead x = true ∧ (embGet s t.id).folded = none ∧ rows = [0] ∧
       (∀ n ∈ rows, areaCode s (deltaAddr t 0 n) t.drow = cOk ∧ rowCodeOf s t n = cOk) ∧
       ((rows.map (foldCase s t 0)).filter (fun c => match c with | .requant _ => true | _ => false)).length ≤ freeSlots s t) ∧
    (let s := embState 3 0 64 Run.init []
     let rs := writeRecs (embTabOf tableBody) (chunks (32 + (embTabOf tableBody).rowBytes) (stageInput s (ctxAt s)))
     embDueAt 3 s = true ∧ inputCode s (ctxAt s) = cOk ∧ rs.2 = false ∧ (placeRows (embTabOf tableBody) (lastPerRow rs.1) s).isSome = true) ∧
    embDueAt 4 (embState 4 0 4 Run.init []) = true := by decide +kernel

end Sys2Proof.Tests
end

