-- ==== Sys2Proof/Tests/Witness4.lean ====
section
/-! SUPPORT. Witnesses of the statements' hypotheses: associative search and the upkeep of tables. -/

namespace Sys2Proof.Tests
open Sys2Proof Sys2Proof.Machine
set_option Elab.async false

/-! ## Associative search -/

/-- A table 63 of one partition of 16 positions from 0, two sides, its copies at `copy`. -/
def asuBody (ternary copy : Nat) : List Byte :=
  [63] ++ leBytes 1 ternary ++ [0, 0] ++ leBytes 2 0 ++ [2, 0] ++ leBytes 4 0 ++ leBytes 4 16 ++ leBytes 4 16 ++ zeros 12 ++ leBytes 8 copy ++ zeros 24

/-- A state of one ternary table with entries of key 5 at offsets 0 and 1. -/
def asuState : State :=
  { working (engineRecOf 1 3 0) (recOf 0x102 0 0 0 0 (asuBody 1 0xC0000)) [1] (descWith 4 64 0) with
    asu := [(0, { key := 5, mask := 0xF, data := 8, valid := true, lost := false }), (1, { key := 5, mask := 0xF, data := 9, valid := true, lost := false })] }

/-- A command on table 63. -/
def asuCmd (offset : W32) (data : W32) (mask : BitVec 128) (cursor : W64) : AsuCmd :=
  { table := 63, flags := 0, partition := 0, rsvd0 := 0, offset := offset, data := data, key := 5, mask := mask, cursor := cursor, rsvd1 := 0 }

/-- AsuDue's test on partition 0 of the active side. -/
def asuDueAt (op : Nat) (c : AsuCmd) (s : State) : Bool :=
  let t := asuTabOf (asuBody 1 0xC0000)
  decide (asuTab? s c.table.toNat = some t) && asuCmdOk t op c && !asuMismatch t op c && asuPartOk t c && decide (asuPart t c = 0)
    && decide (asuSideOf s t c 0 = 0) && decide (asuHeldAt s op c = none)

theorem asuDue_of {op : Nat} {c : AsuCmd} {s : State} (h : asuDueAt op c s = true) : AsuDue op c s (asuTabOf (asuBody 1 0xC0000)) 0 0 := by
  simp only [asuDueAt, Bool.and_eq_true, decide_eq_true_eq, Bool.not_eq_true'] at h
  obtain ⟨⟨⟨⟨⟨⟨h1, h2⟩, h3⟩, h4⟩, h5⟩, h6⟩, h7⟩ := h
  exact ⟨h1, h2, h3, h4, h5.symm, h6.symm, h7⟩

theorem witness_AsuCommandsAnswer :
    let t := asuTabOf (asuBody 1 0xC0000)
    let s := asuState
    (AsuDue 1 (asuCmd 0 0 0 0) s t 0 0 ∧ asuMatches s t 0 0 5 none = [0, 1] ∧ t.ternary = true ∧ (asuGet s (t.pos 0 0 0)).lost = false) ∧
    (AsuDue 2 (asuCmd 0 0 0 (BitVec.ofNat 64 (2 ^ 24 * 63))) s t 0 0 ∧ 2 ^ 24 * 63 = asuCursor t 0 0 (asuGenOf s t 0 0) 0 ∧ t.num < 64 ∧
      asuGenOf s t 0 0 < 65536) ∧
    AsuDue 3 (asuCmd 15 0 0 0) s t 0 0 ∧ AsuDue 4 (asuCmd 15 7 0xF 0) s t 0 0 ∧ AsuDue 5 (asuCmd 1 0 0 0) s t 0 0 ∧
    (AsuDue 6 (asuCmd 0 7 0xF 0) s t 0 0 ∧ asuHoles s t 0 0 0 = (some 2, none)) ∧
    (let u := { s with asu := s.asu.tail }
     AsuDue 6 (asuCmd 2 7 0xF 0) u t 0 0 ∧ asuHoles u t 0 0 2 = (some 2, some 0)) ∧
    (let u := { s with asu := (List.range 15).map (fun i => (i + 1, (asuGet s 0))) }
     AsuDue 6 (asuCmd 2 7 0xF 0) u t 0 0 ∧ asuHoles u t 0 0 2 = (none, some 0)) ∧
    (AsuDue 7 { asuCmd 0 0 0 0 with key := 0 } s t 0 0 ∧
      ((s.asu.filter (fun p => 0 ≤ p.1 && p.1 < 0 + t.size && p.2.valid)).map (fun p => { p.2 with lost := false })).length ≤ (asuSlots t).length) := by
  refine ⟨⟨asuDue_of (by decide +kernel), by decide +kernel⟩, ⟨asuDue_of (by decide +kernel), by decide +kernel⟩, asuDue_of (by decide +kernel),
    asuDue_of (by decide +kernel), asuDue_of (by decide +kernel), ⟨asuDue_of (by decide +kernel), by decide +kernel⟩,
    ⟨asuDue_of (by decide +kernel), by decide +kernel⟩, ⟨asuDue_of (by decide +kernel), by decide +kernel⟩, asuDue_of (by decide +kernel),
    by decide +kernel⟩

/-- An ASU update stage of one READ. -/
def updateState : State :=
  atStage' (recOf 0x102 0 0 0 0 (asuBody 1 0xC0000)) ([3, 63] ++ zeros 62)
where atStage' (maps param : List Byte) : State :=
  holding 0x20000 param { working (engineRecOf 1 4 0) maps [1] (descWith 64 64 64) with
    asu := [(0, { key := 5, mask := 0xF, data := 8, valid := true, lost := false })] }

/-- Table 0 moves row 1 to slot 3 of stack 15. -/
def movingState : State :=
  { embState 0 0 16 Run.init [(0x80008, leBytes 8 (2 ^ 63 + 16))] with emb := [(0, { Emb.init with ready := true, moves := [(1, slotKey 15 3)] })] }

theorem witness_UpkeepOfTablesRuns :
    (let s := updateState
     let x := ctxAt s
     let d := x.j.d
     let n := d.paramLen.toNat / 64
     let cmds := chunks 64 (readMem s (localOf d.paramAddr) d.paramLen.toNat)
     StageDue kindAsu ref1 s x ∧ x.ch.committed + 1 = x.seq ∧ d.paramLen.toNat = 64 * n ∧ 1 ≤ n ∧ n ≤ 1024 ∧ 64 * n ≤ d.outLen.toNat ∧
      engRead s x.p x.c x.st (localOf d.paramAddr) d.paramLen.toNat = cOk ∧ engWrite s x.p x.c x.st (localOf d.outAddr) (64 * n) = cOk ∧
      (∀ b ∈ cmds, asuIsHeld s (asuCmdOf b).1 (asuCmdOf b).2 = false) ∧ (updateAll (localOf d.outAddr) cmds 0 0 0 s).1 = 0) ∧
    (let s := asuState
     let t := asuTabOf (asuBody 1 0xC0000)
     (rget s 0x00090000).getLsbD 2 = false ∧ mget 0 s.asuLevel 0 ≠ 3 ∧ islLost s 0 = false ∧
       activePlate s = some (plateWith (engineRecOf 1 3 0) (recOf 0x102 0 0 0 0 (asuBody 1 0xC0000)) [1] []) ∧
       (asuTabs (plateWith (engineRecOf 1 3 0) (recOf 0x102 0 0 0 0 (asuBody 1 0xC0000)) [1] []) (caseNow s)).find? (fun t => t.holds 1) = some t ∧
       asuCopyBad { s with poison := [(hbmKey 0 0xC040, true)] } t 1 = true ∧ asuCopyBad s t 1 = false ∧
       (let u := holding 0xC0040 (asuImage (asuGet s 0)) s
        (asuFromCopy t (readMem u (asuCopyAddr t 1) (asuCopyBytes t))).valid = true)) ∧
    (110 < (111 : Byte).toInt ∧ 105 < (108 : Byte).toInt ∧ (108 : Byte).toInt ≤ 108 ∧ (93 : Byte).toInt ≤ 93) ∧
    (let h : HeldSearch := { reef := 0, op := 1, cmd := asuCmd 0 0 0 0, dest := none }
     asuIsHeld { asuState with asuHeld := [h], asuLevel := [(0, 3)] } h.op h.cmd = true) ∧
    (let s := movingState
     embTab? s 0 = some (embTabOf tableBody) ∧ mlook (embGet s 0).moves 1 = some (slotKey 15 3) ∧
       rowSlot s (embTabOf tableBody) 1 = some (slotKey 0 1)) := by
  refine ⟨⟨due_of (by decide +kernel), by decide +kernel⟩, by decide +kernel, by decide +kernel, by decide +kernel, by decide +kernel⟩

end Sys2Proof.Tests
end

