-- ==== Sys2Proof/Tests/Witness5.lean ====
section
/-! SUPPORT. Witnesses of the statements' hypotheses: sessions, frames and operations. -/

namespace Sys2Proof.Tests
open Sys2Proof Sys2Proof.Machine
set_option Elab.async false

/-! ## Handshakes -/

/-- Peer entry 0 is enabled, initiates, over every port, with the key of the tests. -/
def peered : State := rset (peerBase 0 + 0x24) 0x01FF0000 (rset (peerBase 0 + 0x20) 0x00050000 (digestAt (peerBase 0) keyDigest ready))

theorem quiet_of {s : State} (h : decide (s.wire = []) && (List.range 8).all (fun k => decide ((fiGet s k).state ≠ .active) && decide ((fiGet s k).held = none)) = true) :
    Quiet s := by
  simp only [Bool.and_eq_true, decide_eq_true_eq, List.all_eq_true, List.mem_range] at h
  exact h

/-- A frame header. -/
def hdrOf (type sid : Nat) (seq ack : Nat) : FrameHdr :=
  { version := 1, type := BitVec.ofNat 8 type, tc := 0, opCount := if type = 1 then 1 else 0, sid := BitVec.ofNat 32 sid, nonce := 0,
    seq := BitVec.ofNat 64 seq, ack := BitVec.ofNat 64 ack }

/-- A frame on link 0. -/
def frameOf (type sid seq ack : Nat) (body : List Byte) : Frame := { link := 0, hdr := hdrOf type sid seq ack, body := body, tagOk := true, ce := false }

/-- FrameOk's test. -/
def frameTest (type : Byte) (f : Frame) (s : State) (k : Nat) (x : Session) : Bool :=
  linkTakes s f.link.toNat && decide (f.body.length ≤ 8192) && decide (f.hdr.version = 1) && decide (f.hdr.type = type) && decide (k = f.hdr.sid.toNat)
    && decide (mlook s.sessions k = some x) && x.opened && f.tagOk && decide (x.nonceTop ≤ f.hdr.nonce.toNat + 64)
    && !nmem x.nonces f.hdr.nonce.toNat && headerBits f.hdr

theorem frame_of {type : Byte} {f : Frame} {s : State} {k : Nat} {x : Session} (h : frameTest type f s k x = true) : FrameOk type f s k x := by
  simp only [frameTest, Bool.and_eq_true, decide_eq_true_eq, Bool.not_eq_true'] at h
  obtain ⟨⟨⟨⟨⟨⟨⟨⟨⟨⟨h1, h2⟩, h3⟩, h4⟩, h5⟩, h6⟩, h7⟩, h8⟩, h9⟩, h10⟩, h11⟩ := h
  exact ⟨h1, h2, h3, h4, h5, h6, h7, h8, h9, h10, h11⟩

/-- The device has sent a HELLO to entry 0 over link 0. -/
def helloSent : State := { peered with helloOut := [(0, { link := 0, body := [], at_ := 0 })] }

/-- It has answered one: session 4 waits for its CONFIRM. -/
def helloAnswered : State := { peered with helloIn := [(4, { entry := 0, link := 0, sid := 4, transcript := 0 })] }

theorem witness_HandshakesOpenAndClose :
    Quiet peered ∧ Quiet helloSent ∧ Quiet helloAnswered ∧
    (let body := zeros 4956
     linkTakes peered 0 = true ∧ peered.helloCount < 4000 ∧ entryOfKey peered (sha3 ((body.drop 40).take 1312)) = some 0 ∧ body.length = 4956 ∧
       zeroAt body 2 6 = true ∧ u16At body 0 = peerNode peered 0 ∧ mlook peered.helloOut 0 = none ∧ sessRoom peered 0 = true) ∧
    (let body := zeros 4860
     linkTakes helloSent 0 = true ∧ entryOfKey helloSent (sha3 ((body.drop 40).take 1312)) = some 0 ∧ body.length = 4860 ∧ zeroAt body 6 2 = true ∧
       u16At body 4 = peerNode helloSent 0 ∧ mlook helloSent.helloOut 0 = some { link := 0, body := [], at_ := 0 } ∧ sessRoom helloSent 0 = true) ∧
    (let f := frameOf 0x12 4 0 0 (zeros 32)
     linkTakes helloAnswered 0 = true ∧ f.body.length = 32 ∧ zeroAt f.body 4 28 = true ∧ f.hdr.version = 1 ∧ f.hdr.type = 0x12 ∧
       mlook helloAnswered.helloIn f.hdr.sid.toNat = some { entry := 0, link := 0, sid := 4, transcript := 0 } ∧ f.tagOk = true ∧
       headerBits f.hdr = true ∧ f.hdr.nonce = 0 ∧ sessRoom helloAnswered 0 = true ∧ peerUsable helloAnswered 0 = true) ∧
    (FrameOk 0x13 (frameOf 0x13 1 0 0 []) peered 1 (sessionOf .operator 0) ∧ ackOf (frameOf 0x13 1 0 0 []).hdr = none) := by
  refine ⟨quiet_of (by decide +kernel), quiet_of (by decide +kernel), quiet_of (by decide +kernel), by decide +kernel, by decide +kernel,
    by decide +kernel, frame_of (by decide +kernel), by decide +kernel⟩

/-! ## Frames -/

/-- An operation record of 32 bytes, without data. -/
def fenceRec : List Byte := [9] ++ zeros 31

/-- Session 1 with a frame sent that waits for an answer, frame 1 taken. -/
def midSession : Session :=
  { sessionOf .operator 0 with taken := 1, nextSeq := 2, unacked := [(1, sentFrame)] }
where sentFrame : TxFrame :=
  { op := { tc := 1, body := fenceRec, awaits := true, run := none, fate := none }, sentAt := 0, resends := 0, acked := false, answered := false }

/-- A state of that session. -/
def midState : State := { ready with sessions := [(1, midSession)] }

theorem witness_FramesAreTaken :
    Quiet midState ∧
    (let f := frameOf 1 1 1 0 fenceRec
     FrameOk 1 f midState 1 midSession ∧ 1 ≤ f.hdr.seq.toNat ∧ f.hdr.seq.toNat ≤ midSession.taken) ∧
    (let f := frameOf 1 1 (1 + 1024 + 16) (2 ^ 48 + 1) fenceRec
     FrameOk 1 f midState 1 midSession ∧ f.hdr.seq.toNat ≤ midSession.taken + granted midSession + 16 ∧ midSession.taken < f.hdr.seq.toNat ∧
       mlook midSession.held f.hdr.seq.toNat = none ∧ ackOf f.hdr = some 1 ∧ 1 < midSession.nextSeq ∧
       ∃ rs, opRecs f.hdr.opCount.toNat f.body = some rs ∧ resultsOk (heardBy f midState midSession) rs = true) ∧
    (let f := frameOf 2 1 0 (2 ^ 48 + 1) (zeros 48)
     FrameOk 2 f midState 1 midSession ∧ f.body.length = 48 ∧ zeroAt f.body 40 8 = true ∧ (ackOf f.hdr).getD 0 < midSession.nextSeq ∧
       sackOk ((ackOf f.hdr).getD 0) midSession.nextSeq f.body = true) ∧
    (FrameOk 3 (frameOf 3 1 0 0 []) midState 1 midSession ∧ FrameOk 4 (frameOf 4 1 0 0 []) midState 1 midSession) := by
  refine ⟨quiet_of (by decide +kernel), ⟨frame_of (by decide +kernel), by decide +kernel⟩, ⟨frame_of (by decide +kernel), by decide +kernel,
    by decide +kernel, by decide +kernel, by decide +kernel, by decide +kernel, [{ op := 9, h := opHdrOf fenceRec, data := [] }],
    by decide +kernel, by decide +kernel⟩, ⟨frame_of (by decide +kernel), by decide +kernel⟩, frame_of (by decide +kernel), frame_of (by decide +kernel)⟩

/-! ## Operations -/

/-- Entry 0's window 0 admits reads, writes and atomics of [lo, lo + n); window 1 signals to object 47. -/
def windowed (lo n : Nat) : State :=
  rset (peerBase 0 + 0x1000) (BitVec.ofNat 32 lo) (rset (peerBase 0 + 0x1004) (BitVec.ofNat 32 (lo / 2 ^ 32))
    (rset (peerBase 0 + 0x1008) (BitVec.ofNat 32 (lo + n)) (rset (peerBase 0 + 0x100C) (BitVec.ofNat 32 ((lo + n) / 2 ^ 32))
      (rset (peerBase 0 + 0x1010) 0x700 (rset (peerBase 0 + 0x1020) 47 (rset (peerBase 0 + 0x1028) 48 (rset (peerBase 0 + 0x1030) 0x801 ready)))))))

/-- An operation header at a local address. -/
def opAt (a len : Nat) (op0 op1 : W64) : OpHdr :=
  { rsvd := 0, len := BitVec.ofNat 32 len, addr := BitVec.ofNat 64 (causeway a), op0 := op0, op1 := op1 }

/-- Operation 0 of frame 1 of session 1. -/
def op1 : OpRef := { sid := 1, seq := 1, idx := 0 }

/-- MemReady's test. -/
def memTest (op : Nat) (h : OpHdr) (data : List Byte) (s : State) (x : Session) : Bool :=
  decide (sess? s op1.sid = some x) && x.opened && fieldsOk op h data && nodeLocal s h.addr && !isRegAddr (localOf h.addr)
    && (lineAddrs (localOf h.addr) (opSpan op h)).all (fun l => decide ((if op = 0x01 then mapRead l else mapWrite s l) = cOk))
    && windowAdmits s x.entry 0 (opRight op) (localOf h.addr) (opSpan op h)
    && decide (ownedCheck s x op (localOf h.addr) (opSpan op h) = cOk) && decide (memRules s op (localOf h.addr) (opSpan op h) = cOk)

theorem mem_of {op : Nat} {h : OpHdr} {data : List Byte} {s : State} {x : Session} (t : memTest op h data s x = true) : MemReady op op1 h data s x := by
  simp only [memTest, Bool.and_eq_true, decide_eq_true_eq, Bool.not_eq_true', List.all_eq_true] at t
  obtain ⟨⟨⟨⟨⟨⟨⟨⟨h1, h2⟩, h3⟩, h4⟩, h5⟩, h6⟩, h7⟩, h8⟩, h9⟩ := t
  exact ⟨h1, h2, h3, h4, h5, h6, h7, h8, h9⟩

/-- The operator's session. -/
def x1 : Session := sessionOf .operator 0

/-- Where session index 0's requests go in the service area of stack 1. -/
def requestAt : Nat := hbmKey 1 (slotOff (sessSlot x1))

/-- A table 0 of one delta row at 0x90000 of the plate in force. -/
def deltaState : State :=
  holding 0x80000 (leBytes 8 (2 ^ 63)) { windowed 0x90020 8 with
    plt := (running (plateWith [] (recOf 0x103 0 0 0 0 ([0, 4] ++ leBytes 2 8 ++ zeros 12 ++ leBytes 8 1 ++ leBytes 8 1 ++ zeros 8 ++ leBytes 8 0x80000
      ++ leBytes 8 0x90000 ++ leBytes 8 0xA0000 ++ leBytes 8 0x30000 ++ leBytes 4 4 ++ zeros 52)) [] []) ready).plt }

theorem witness_MemoryOperationsAct :
    (windowed 0 64).wire = [] ∧
    MemReady 0x01 op1 (opAt 60 4 0 0) [] (windowed 0 64) x1 ∧
    (MemReady 0x02 op1 (opAt 0 3 0 0) [1, 2, 3] (windowed 0 64) x1 ∧ isRequest x1 (localOf (opAt 0 3 0 0).addr) 3 = false) ∧
    (MemReady 0x02 op1 (opAt requestAt 64 0 0) (zeros 64) (windowed requestAt 64) x1 ∧
      isRequest x1 (localOf (opAt requestAt 64 0 0).addr) 64 = true) ∧
    MemReady 0x03 op1 (opAt 60 0 5 0) [] (windowed 0 64) x1 ∧ MemReady 0x04 op1 (opAt 56 0 5 0) [] (windowed 0 64) x1 ∧
    MemReady 0x05 op1 (opAt 0x90020 8 0 0) (leBytes 8 3) deltaState x1 ∧ MemReady 0x06 op1 (opAt 0 0 0 9) [] (windowed 0 64) x1 ∧
    (∀ i < [(1 : Byte), 2].length, memKey (0 + i) ≠ some (hbmKey 0 2)) ∧
    (mwf 0 (windowed 0 64).mem = true ∧ (∀ i < [(1 : Byte), 2].length, (memKey (0 + i)).isSome) ∧
      ∀ i < [(1 : Byte), 2].length, ∀ j < [(1 : Byte), 2].length, memKey (0 + i) = memKey (0 + j) → i = j) := by
  refine ⟨rfl, mem_of (by decide +kernel), ⟨mem_of (by decide +kernel), by decide +kernel⟩, ⟨mem_of (by decide +kernel), by decide +kernel⟩,
    mem_of (by decide +kernel), mem_of (by decide +kernel), mem_of (by decide +kernel), mem_of (by decide +kernel), by decide +kernel, by decide +kernel⟩

/-- A header without an address. -/
def hdr0 (len : Nat) (addr op0 op1 : W64) : OpHdr := { rsvd := 0, len := BitVec.ofNat 32 len, addr := addr, op0 := op0, op1 := op1 }

/-- The fates of session 9's frame 1. -/
def fateState : State :=
  { ready with fates := [(9, { entry := 0, closed := false, since := some 0, taken := 1, recs := [(1, [{ status := 0, value := 0 }])] })] }

theorem witness_OtherOperationsAct :
    sess? (windowed 0 64) op1.sid = some x1 ∧ x1.opened = true ∧
    (let h := hdr0 0 0 (BitVec.ofNat 64 (65536 * 47)) 3
     fieldsOk 0x07 h [] = true ∧ h.op0.toNat % 4 = 0 ∧ windowAdmits (windowed 0 64) x1.entry 1 3 (bits h.op0.toNat 31 16) 1 = true) ∧
    (let h := hdr0 0 0 (BitVec.ofNat 64 (65536 * 63 + 1)) 0
     fieldsOk 0x07 h [] = true ∧ h.op0.toNat % 4 ≠ 0) ∧
    (let s := { ready with objs := [(47, { count := 2, ceiling := 5, timeout := 9, queue := [] })] }
     objOk s 47 = true ∧ (objGet s 47).count + 3 ≤ (objGet s 47).ceiling ∧ (objGet s 47).queue = []) ∧
    (fieldsOk 0x08 (hdr0 64 0 1 0) (zeros 64) = true ∧ fieldsOk 0x08 (hdr0 64 0 2 0) (zeros 64) = true) ∧ fieldsOk 0x09 (hdr0 0 0 0 0) [] = true ∧
    (fieldsOk 0x0A (hdr0 0 0 9 2) [] = true ∧ mlook ready.fates 9 = none ∧
      (∃ g, mlook fateState.fates 9 = some g ∧ g.entry = x1.entry ∧ (mlook g.recs 1).isSome ∧ mlook g.recs 2 = none ∧ g.taken < 2)) ∧
    ((∃ f, awaited midSession (hdr0 0 1 0 0) = some f ∧ f.op.fate = none) ∧ midSession.queue = [] ∧ sess? midState 1 = some midSession) := by
  refine ⟨by decide +kernel, rfl, by decide +kernel, by decide +kernel, by decide +kernel, by decide +kernel, by decide +kernel,
    ⟨by decide +kernel, rfl, _, rfl, rfl, rfl, rfl, by decide⟩, ⟨midSession.sentFrame, rfl, rfl⟩, rfl, by decide +kernel⟩

/-! ## Timers and links -/

theorem witness_SessionTimersAndLinksAct :
    Quiet midState ∧
    (sess? midState 1 = some midSession ∧ midSession.opened = true ∧ (∃ f, mlook midSession.unacked 1 = some f ∧ f.acked = false)) ∧
    ((openOf midState 0).head? = some 1 ∧ mlook midState.sessions 1 = some midSession ∧ openOf midState 0 ≠ []) ∧
    (let s := { peered with sessions := [] }
     peerUsable s 0 = true ∧ bit (peerFlags s 0) 2 = true ∧ openOf s 0 = [] ∧ entryLink s 0 = some 0) ∧
    (linkMode ready 1 = true ∧ portLost ready 1 = false ∧ nmem ready.pwr.ethLost 0 = false ∧ 6 ≤ ready.boot.stage) ∧
    (linkMode ready 0 = true ∧ nmem ready.linksUp 0 = true ∧ portLost ready 0 = false ∧
      (4 : BitVec 3).toNat ≠ (rget ready 0x000D0008).toNat % 8 ∧ (5 : BitVec 3).toNat = (rget ready 0x000D0008).toNat % 8) ∧
    ((∀ q ∈ ({ ready with sessions := [] } : State).sessions, q.2.link ≠ 0) ∧ linkIp6 ready 0 = 0 ∧ linkIp6 ready 0 ≠ 1) ∧
    (let s := rset 0x000D1010 0x0A000001 ready
     (0x0A000001 : W32) = rget s (0x000D1010 + 0x100 * 0) ∧ (7 : W32) ≠ rget s (0x000D1010 + 0x100 * 0)) := by
  refine ⟨quiet_of (by decide +kernel), ⟨by decide +kernel, rfl, midSession.sentFrame, rfl, rfl⟩, by decide +kernel, by decide +kernel, by decide +kernel,
    by decide +kernel, by decide +kernel, by decide +kernel⟩

end Sys2Proof.Tests
end

