-- ==== Sys2Proof/Tests/Witness6.lean ====
section
/-! SUPPORT. Witnesses of the statements' hypotheses: strait links, losses, resets, boot and service. -/

namespace Sys2Proof.Tests
open Sys2Proof Sys2Proof.Machine
set_option Elab.async false

/-! ## Strait links, losses and resets -/

/-- Strait link 0 with flit 3 sent `n` times again. -/
def flitWaits (n : Nat) : State := { ready with straits := [(0, { next := 0, pending := [(3, n)] })] }

/-- A symbol in error at a position. -/
def errAt (p : Nat) : SymErr := { pos := BitVec.ofNat 6 p, bits := 1 }

theorem witness_StraitFlitsPass :
    Quiet (flitWaits 0) ∧ straitWorks (flitWaits 0) 0 = true ∧ Quiet (flitWaits 8) ∧ straitWorks (flitWaits 8) 0 = true ∧
    (decodeErrs [] = .corrected [] ∧ lsnAhead (dirGet (flitWaits 0) 0 false) 0 = 0 ∧
      2 ^ 31 ≤ lsnAhead (dirGet (flitWaits 0) 0 false) (0xFFFFFFFF : W32).toNat ∧ decodeErrs [errAt 38] = .corrected [38] ∧
      decodeErrs [errAt 32] = .failed ∧ decodeErrs [errAt 0, errAt 1, errAt 2] = .failed) ∧
    (mlook (dirGet (flitWaits 0) 0 false).pending 3 = some 0 ∧ mlook (dirGet (flitWaits 8) 0 false).pending 3 = some 8) := by
  refine ⟨quiet_of (by decide +kernel), by decide +kernel, quiet_of (by decide +kernel), by decide +kernel, by decide +kernel, by decide +kernel⟩

theorem witness_LossesStartARecovery :
    Quiet openState ∧ islLost openState 15 = false ∧ straitLost openState 3 = false ∧ harbourLost openState 0 = false ∧
      openState.rcv.cape = false := ⟨quiet_of (by decide +kernel), by decide +kernel⟩

/-- Channel 0 has one copy. -/
def oneCopy : State := { openState with chans := [(0, { chan0 with single := true })] }

/-- A recovery runs with nothing to wait for. -/
def recovered : State := { ready with rcv := { ready.rcv with recovering := true } }

theorem witness_RecoveriesEndAndClocksFail :
    oneCopy.wire = [] ∧ rebuildAt oneCopy (chanGet oneCopy 0) = some 2 ∧
    (recovered.wire = [] ∧ recovered.rcv.recovering = true ∧ recovered.plt.fallbackFor = none ∧ recovered.rcv.frozen = [] ∧
      7 ≤ recovered.boot.stage ∧ recovered.rcv.warmPending = false ∧ (∀ c ∈ recovered.chans, rebuildAt recovered c.2 = none) ∧
      mwf 0 recovered.regs = true) ∧
    (Quiet ready ∧ nmem ready.pwr.ethLost 4 = false) := by
  refine ⟨rfl, by decide +kernel, by decide +kernel, quiet_of (by decide +kernel), by decide +kernel⟩

/-- RCV_TARGET holds a value. -/
def targeting (v : Nat) : State := rset 0x00070000 (BitVec.ofNat 32 v) openState

theorem witness_WarmResetsRestart :
    (OpenAs (targeting 0x10000) 1 .operator ∧ rcvCheck (targeting 0x10000) 1 = cOk) ∧
    (OpenAs (targeting 15) 2 .installer ∧ rcvCheck (targeting 15) 2 = cOk) ∧ rcvCheck (targeting 7) 3 = cOk ∧
    (OpenAs (targeting 0) 2 .installer ∧ rcvCheck (targeting 0) 3 = cOk ∧ rcvCheck (targeting 0) 4 = cOk) ∧
    (ready.pins.porN = true ∧ ready.pwr.tripped = false ∧ ready.rcv.served = true ∧ ready.rcv.recovering = false ∧ 7 ≤ ready.boot.stage) ∧
    (recovered.pins.porN = true ∧ recovered.pwr.tripped = false ∧ recovered.wire = [] ∧ recovered.rcv.recovering = true) :=
  ⟨⟨⟨_, rfl, rfl, rfl⟩, by decide +kernel⟩, ⟨⟨_, rfl, rfl, rfl⟩, by decide +kernel⟩, by decide +kernel,
    ⟨⟨_, rfl, rfl, rfl⟩, by decide +kernel, by decide +kernel⟩, by decide +kernel, by decide +kernel⟩

theorem witness_ColdRestartsKeepFlashAndFuses :
    (let s := { State.reset with pins := { State.reset.pins with supplies := true } }
     s.pins.porN = false ∧ s.pins.supplies = true) ∧
    (State.reset.pins.porN = false ∧ State.reset.pins.supplies = false) ∧ 100 ≤ 100 ∧ 99 < 100 := by decide

/-! ## Boot -/

/-- A cold boot at a stage. -/
def booting (n : Nat) : State :=
  { State.reset with boot := { State.reset.boot with stage := n }, pins := { State.reset.pins with porN := true, supplies := true } }

/-- The boot stages of a warm reset. -/
def rebooting (n : Nat) : State := { booting n with rcv := { (booting n).rcv with served := true, recovering := true } }

/-- A maker key of 1,312 bytes 0xFF, which erased flash reads. -/
def makerDigest : Digest := sha3 (List.replicate 1312 0xFF)

/-- A firmware image of 8,192 bytes in a slot, signed by that key: what is not listed reads 0xFF. -/
def firmwareAt (a : Nat) : SMap Byte :=
  mapOf 0xFF a (leBytes 4 0x57464B41 ++ leBytes 2 1) ++ mapOf 0xFF (a + 8) (leBytes 4 8192) ++ mapOf 0xFF (a + 0x10) (digestBytes (sha3 []))
    ++ mapOf 0xFF (a + 0x1008) (digestBytes makerDigest)

/-- The header of no image, of LENGTH 16. -/
def noFirmwareAt (a : Nat) : SMap Byte := mapOf 0xFF (a + 8) (leBytes 4 16)

/-- Stage 2, that key in fuse slot 0, some flash. -/
def romState (f : SMap Byte) : State :=
  { booting 2 with flash := f, fuses := { (booting 2).fuses with maker := [some makerDigest, none, none, none] } }

theorem witness_BootReachesStageFive_rom : (booting 1).wire = [] ∧ bootWorks (booting 1) 1 = true := by decide +kernel

theorem witness_BootReachesStageFive_firmware :
    (let s := romState (firmwareAt 0 ++ noFirmwareAt 0x01000000)
     bootWorks s 2 = true ∧ s.boot.stuck = false ∧ fwOk s (fwImage s false) true = true) ∧
    (let s := romState (noFirmwareAt 0 ++ firmwareAt 0x01000000)
     fwOk s (fwImage s false) true = false ∧ fwOk s (fwImage s true) true = true) ∧
    (let s := romState (noFirmwareAt 0 ++ noFirmwareAt 0x01000000)
     fwOk s (fwImage s false) true = false ∧ fwOk s (fwImage s true) true = false) := by decide +kernel

/-- With no valid copy, boot control chooses slot A. -/
theorem witness_BootReachesStageFive_choice :
    fwChoice (bootCtl (romState [])) = { slotB := false, trial := false, tries := 0 } := by decide +kernel

theorem witness_BootReachesStageFive :
    (bootWorks (booting 3) 3 = true ∧ (booting 3).rcv.served = false ∧ bootWorks (rebooting 3) 3 = true ∧ (rebooting 3).rcv.served = true) ∧
    (bootWorks (booting 4) 4 = true ∧ (booting 4).rcv.served = false ∧ bootWorks (rebooting 4) 4 = true ∧ (rebooting 4).rcv.served = true) := by
  decide +kernel

/-- A configuration of no peers, signed by the same key; its plate slot is none. -/
def configBytes : List Byte :=
  leBytes 4 0x43494B41 ++ leBytes 2 1 ++ zeros 12 ++ [255] ++ zeros 7 ++ [0, 0] ++ leBytes 4 0x1440 ++ zeros 1056 ++ leBytes 4 0x47534B41
    ++ leBytes 2 0x44 ++ zeros 2 ++ digestBytes makerDigest ++ List.replicate 1312 0xFF ++ zeros 2744

/-- An area with no configuration, of LENGTH 16. -/
def noConfig : List Byte := List.replicate 28 0xFF ++ leBytes 4 16

/-- Stage 5 with a configuration in area A alone, whose signer is an installer. -/
def configState : State :=
  { booting 5 with flash := mapOf 0xFF 0x02100000 configBytes ++ mapOf 0xFF 0x02500000 noConfig,
                   boot := { (booting 5).boot with roles := [(makerDigest, .installer)] } }

theorem config_length : configBytes.length = 0x1440 := by decide +kernel

theorem config_apart : ∀ p ∈ mapOf 0xFF 0x02500000 noConfig, p.1 < 0x02100000 ∨ 0x02100000 + configBytes.length ≤ p.1 := by decide +kernel

theorem config_first {s : State} (h : s.flash = configState.flash) : cfgRead s false = configBytes := by
  have h0 : fread s 0x02100000 32 = configBytes.take 32 := fread_mapOf _ h (by rw [config_length]; omega) config_apart
  have e : min 0x400000 (cfgLen (configBytes.take 32)) = configBytes.length := by decide +kernel
  rw [cfgRead, show cfgArea false = 0x02100000 from rfl, h0, e, fread_mapOf _ h (Nat.le_refl _) config_apart, List.take_length]

theorem config_ok {s : State} (h : s.boot.roles = configState.boot.roles) : cfgOk s configBytes true = true := by
  have e : cfgOk configState configBytes true = true := by decide +kernel
  rw [cfgOk, h]
  exact e

/-- An area of LENGTH 16 without the magic number holds no configuration. -/
theorem no_config {s t : State} (ht : s.flash = t.flash) (b : Bool)
    (h : (List.range 32).map (fun i => mget 0xFF t.flash (cfgArea b + i)) = noConfig) : cfgOk s (cfgRead s b) true = false := by
  have h2 : fread s (cfgArea b) 32 = noConfig := by
    rw [fread]
    simp only [fget, ht]
    exact h
  have e : fread s (cfgArea b) 16 = noConfig.take 16 := by
    rw [← h2]
    simp only [fread, ← List.map_take]
    rfl
  have e3 : min 0x400000 (cfgLen noConfig) = 16 := by decide +kernel
  have e4 : u32At (noConfig.take 16) 0 ≠ 0x43494B41 := by decide +kernel
  simp only [cfgOk, cfgRead, h2, e3, e, e4, decide_false, Bool.false_and]

theorem newest_of {s : State} {x : Bool} (a : cfgOk s (cfgRead s false) true = x) (b : cfgOk s (cfgRead s true) true = false) :
    cfgNewest s true true = if x then some false else none := by
  unfold cfgNewest
  cases x <;> simp only [a, b] <;> rfl

theorem config_newest {s : State} (h : s.flash = configState.flash) (hr : s.boot.roles = configState.boot.roles) :
    cfgNewest s true true = some false :=
  newest_of (x := true) ((congrArg (fun b => cfgOk s b true) (config_first h)).trans (config_ok hr))
    (no_config (t := configState) h true (by decide +kernel))

/-- A state as stage 5 reads the configuration with no island failed. -/
def upState (s : State) : State := domainsOff [] { s with rcv := { s.rcv with islands := s.rcv.islands ||| 0 } }

theorem witness_BootReachesService_config :
    bootWorks configState 5 = true ∧ configState.rcv.served = false ∧ cfgNewest (upState configState) true true = some false :=
  ⟨by decide, by decide, config_newest (s := upState configState) rfl rfl⟩

/-- Stage 5 with no configuration. -/
def bareState : State := { booting 5 with flash := mapOf 0xFF 0x02100000 noConfig ++ mapOf 0xFF 0x02500000 noConfig }

theorem witness_BootReachesService_bootstrap :
    bootWorks bareState 5 = true ∧ bareState.rcv.served = false ∧ cfgNewest (upState bareState) true true = none :=
  ⟨by decide, by decide, newest_of (s := upState bareState) (x := false) (no_config (t := bareState) rfl false (by decide +kernel))
    (no_config (t := bareState) rfl true (by decide +kernel))⟩

theorem witness_BootReachesService :
    (bootWorks (rebooting 5) 5 = true ∧ (rebooting 5).rcv.served = true) ∧
    (bootWorks (booting 6) 6 = true ∧ (booting 6).rcv.served = false ∧ (booting 6).rcv.warmPending = false) ∧
    (bootWorks (rebooting 6) 6 = true ∧ (rebooting 6).rcv.served = true) ∧
    (let s := { booting 7 with boot := { (booting 7).boot with bootSlot := 3 } }
     bootWorks s 7 = true ∧ s.boot.bootSlot ≠ 255 ∧ s.plt.standby = .empty ∧ s.plt.active = .empty) := by decide +kernel

end Sys2Proof.Tests
end

