-- ==== Sys2Proof/Tests/Witness7.lean ====
section
/-! SUPPORT. Witnesses of the statements' hypotheses: service requests. -/

namespace Sys2Proof.Tests
open Sys2Proof Sys2Proof.Machine
set_option Elab.async false

/-- The buffer: local address 0x100000 of stack 0 in the per-stack view. -/
def bufAt : Nat := 0x010000100000

/-- A request of session 1: an operation, ARG, and `n` bytes at the buffer. -/
def reqOf (op arg n : Nat) : SvcReq :=
  { sid := 1, slot := 0, op := op, arg := arg, tag := 9, flashOff := 0, addr := BitVec.ofNat 64 (causeway bufAt), len := n, wellFormed := true }

/-- Session 1 has a role and a window over that buffer, and the request is at the head of the queue. -/
def asking (role : Role) (r : SvcReq) : State :=
  { windowed bufAt r.len with sessions := [(1, sessionOf role 0)], svc := [r] }

/-- What a request's checks need besides its own data. -/
def askTest (role : Role) (r : SvcReq) (s : State) : Bool :=
  decide (s.svc.head? = some r) && !s.rcv.cape && decide (7 ≤ s.boot.stage) && decide (roleOf s r.sid = role)

theorem witness_ServiceRequestsAreServed_request :
    (windowed requestAt 64).wire = [] ∧
      MemReady 0x02 { sid := 1, seq := 0, idx := 0 } (writeHdr (BitVec.ofNat 64 (causeway requestAt)) (zeros 64).length) (zeros 64)
        (windowed requestAt 64) x1 ∧
      isRequest x1 (localOf (BitVec.ofNat 64 (causeway requestAt))) (zeros 64).length = true :=
  ⟨rfl, mem_of (h := writeHdr (BitVec.ofNat 64 (causeway requestAt)) 64) (by decide +kernel), by decide +kernel⟩

theorem witness_ServiceRequestsAreServed_readFlash :
    let s := asking .operator (reqOf 1 0 32)
    askTest .operator (reqOf 1 0 32) s = true ∧ svcFields (reqOf 1 0 32) 32 0x1000000 255 = true ∧
      (reqOf 1 0 32).flashOff.toNat + (reqOf 1 0 32).len ≤ flashBytes ∧ bufCheck s (reqOf 1 0 32) 0x02 = cOk :=
  ⟨by decide +kernel, by decide +kernel, Nat.le_trans (by decide +kernel) (Nat.le_max_left _ _), by decide +kernel⟩

/-- The buffer of a request to write holds some bytes; the key of the tests is on the signer list and on the role list, and a maker's. -/
def writing (role : Role) (op : Nat) (b : List Byte) : State :=
  let s := signed (asking role (reqOf op 0 b.length))
  { s with mem := mapOf 0 bufAt b, boot := { s.boot with roles := [(keyDigest, .installer)] },
           fuses := { s.fuses with maker := if role = .maker then [some keyDigest, none, none, none] else s.fuses.maker } }

theorem buf_of {role : Role} {op : Nat} {b : List Byte} (h : b.length ≤ 0x10000) :
    bufBytes (writing role op b) (reqOf op 0 b.length) = b :=
  readMem_mapOf (s := writing role op b) (a := localOf (BitVec.ofNat 64 (causeway bufAt))) (by rw [at_]; rfl) (by rw [at_]; decide)
    (by rw [at_, bufAt]; omega)
where at_ : localOf (BitVec.ofNat 64 (causeway bufAt)) = bufAt := by decide

/-- The slots of the plate directory are empty where no copy of it is valid. -/
theorem ranges_of {s : State} {k : Nat} (h : newest (fread s 0x02014000 0x2000) (fread s 0x02016000 0x2000) 0x300 = none) : slotRanges s k = [] := by
  have d : plateDir s = zeros 0x2000 := by simp only [plateDir, areaRead, h]
  have e : ∀ j < 16, u64At (zeros 0x2000) (48 * j + 8) = 0 := by decide +kernel
  simp only [slotRanges, List.filterMap_eq_nil_iff, List.mem_filter, List.mem_range]
  intro j hj
  simp only [dirEntry, d, e j hj.1, if_pos]

theorem firstFit_of {s : State} {k n : Nat} (h : slotRanges s k = []) (hn : 0x08000000 + n ≤ 0x20000000) : firstFit s k n = some 0x08000000 := by
  have : 0x08000000 + n ≤ flashBytes := Nat.le_trans hn (Nat.le_max_left _ _)
  simp [firstFit, h, this]

/-- The request that writes the least plate. -/
def plateAsked : State := writing .installer 2 leastPlate

theorem plate_length : leastPlate.length = 8192 := by decide +kernel

theorem plate_taken : leastPlate.take (plateLen leastPlate) = leastPlate := by
  rw [show plateLen leastPlate = leastPlate.length by decide +kernel, List.take_length]

theorem plate_checked : plateChecks plateAsked leastPlate true = cOk := by decide +kernel

theorem plate_fits : firstFit plateAsked 0 leastPlate.length = some 0x08000000 :=
  firstFit_of (ranges_of (by decide +kernel)) (by rw [plate_length]; decide)

theorem witness_ServiceRequestsAreServed_writePlate :
    let s := plateAsked
    let r := reqOf 2 0 leastPlate.length
    let b := bufBytes s r
    askTest .installer r s = true ∧ svcFields r 1 0x10000000 15 = true ∧ bufCheck s r 0x01 = cOk ∧
      plateChecks s (b.take (plateLen b)) true = cOk ∧ firstFit s r.arg (b.take (plateLen b)).length = some 0x08000000 := by
  have hb : bufBytes plateAsked (reqOf 2 0 leastPlate.length) = leastPlate := buf_of (by rw [plate_length]; decide)
  simp only [hb, plate_taken]
  exact ⟨by decide +kernel, by decide +kernel, by decide +kernel, plate_checked, plate_fits⟩

theorem witness_ServiceRequestsAreServed_erasePlate :
    (let s := asking .installer (reqOf 3 5 0)
     askTest .installer (reqOf 3 5 0) s = true ∧ svcFields (reqOf 3 5 0) 0 0 15 = true) ∧
    askTest .operator (reqOf 3 5 0) (asking .operator (reqOf 3 5 0)) = true := by decide +kernel

/-- A configuration of no peers by the key of the tests. -/
def cfgImage : List Byte :=
  leBytes 4 0x43494B41 ++ leBytes 2 1 ++ zeros 22 ++ leBytes 4 0x1440 ++ zeros 1056 ++ sigBlockOf

theorem witness_ServiceRequestsAreServed_writeConfig :
    let s := writing .installer 4 cfgImage
    let r := reqOf 4 0 cfgImage.length
    askTest .installer r s = true ∧ svcFields r 1 0x400000 255 = true ∧ bufCheck s r 0x01 = cOk ∧ cfgOk s (bufBytes s r) true = true := by
  simp only [buf_of (role := .installer) (op := 4) (b := cfgImage) (by decide +kernel)]
  refine ⟨by decide +kernel, by decide +kernel, by decide +kernel, by decide +kernel⟩

/-- A role list of SEQ 1 with no entry, signed by a maker. -/
def listImage : List Byte :=
  leBytes 4 0x4C524B41 ++ leBytes 2 1 ++ zeros 2 ++ leBytes 8 1 ++ zeros 4080 ++ sigBlockOf

theorem witness_ServiceRequestsAreServed_writeRoleList :
    let s := writing .maker 5 listImage
    let r := reqOf 5 0 listImage.length
    askTest .maker r s = true ∧ svcFields r 8192 8192 255 = true ∧ bufCheck s r 0x01 = cOk ∧
      newListOk s (bufBytes s r) true s.boot.roleSeq s.boot.roles = true := by
  simp only [buf_of (role := .maker) (op := 5) (b := listImage) (by decide +kernel)]
  refine ⟨by decide +kernel, by decide +kernel, by decide +kernel, by decide +kernel⟩

/-- A firmware image of SVN 0 with no contents, signed by a maker. -/
def fwBytes : List Byte :=
  leBytes 4 0x57464B41 ++ leBytes 2 1 ++ zeros 2 ++ leBytes 4 8192 ++ zeros 4 ++ digestBytes (sha3 []) ++ zeros 4048 ++ sigBlockOf

theorem witness_ServiceRequestsAreServed_writeFirmware :
    let s := writing .maker 6 fwBytes
    let r := reqOf 6 0 fwBytes.length
    askTest .maker r s = true ∧ svcFields r 1 0x1000000 255 = true ∧ bufCheck s r 0x01 = cOk ∧ fwOk s (bufBytes s r) true = true := by
  simp only [buf_of (role := .maker) (op := 6) (b := fwBytes) (by decide +kernel)]
  refine ⟨by decide +kernel, by decide +kernel, by decide +kernel, by decide +kernel⟩

end Sys2Proof.Tests
end

