-- ==== Sys2Proof/Tests/Witness8.lean ====
section
/-! SUPPORT. Witnesses of the statements' hypotheses: registers, the snapshot, audit, power, injection, scrub, management. -/

namespace Sys2Proof.Tests
open Sys2Proof Sys2Proof.Machine
set_option Elab.async false

/-! ## Registers -/

/-- PlainReg's test. -/
def plainTest (s : State) (r : Role) (off v : Nat) : Bool :=
  match regAt off with
  | none => false
  | some w => decide (w.grd = 0) && !w.readOnly && mayWrite r w 0 && decide (off ≠ 0x00010000) && decide (off ≠ 0x00030000)
      && decide (off ≠ 0x00040010) && !isPeerWord off && decide (counterWord off = none) && !windowOff s off && decide (wordCheck s off v = cOk)

theorem plain_of {s : State} {r : Role} {off v : Nat} (h : plainTest s r off v = true) : ∃ w, regAt off = some w ∧ PlainReg s r off w v := by
  unfold plainTest at h
  cases e : regAt off with
  | none => simp [e] at h
  | some w =>
    simp only [e, Bool.and_eq_true, decide_eq_true_eq, Bool.not_eq_true'] at h
    obtain ⟨⟨⟨⟨⟨⟨⟨⟨⟨h1, h2⟩, h3⟩, h4⟩, h5⟩, h6⟩, h7⟩, h8⟩, h9⟩, h10⟩ := h
    exact ⟨w, rfl, e, h1, h2, h3, h4, h5, h6, h7, h8, h9, h10⟩

/-- RegAccess's test for session 1. -/
def accessTest (s : State) (x : Session) (addr : W64) (a : Nat) : Bool :=
  decide (sess? s 1 = some x) && x.opened && decide (x.role ≠ .none) && nodeLocal s addr && decide (localOf addr = a)
    && decide (mlook s.guards 1 = none) && decide (mlook s.hiCaps 1 = none) && decide (s.wire = [])

theorem access_of {s : State} {x : Session} {addr : W64} {a : Nat} (h : accessTest s x addr a = true) : RegAccess s 1 x addr a := by
  simp only [accessTest, Bool.and_eq_true, decide_eq_true_eq] at h
  obtain ⟨⟨⟨⟨⟨⟨⟨h1, h2⟩, h3⟩, h4⟩, h5⟩, h6⟩, h7⟩, h8⟩ := h
  exact ⟨h1, h2, h3, h4, h5, h6, h7, h8⟩

theorem witness_RegistersReadAndWrite :
    mwf 0 ready.regs = true ∧ RegAccess ready 1 (sessionOf .operator 0) (regAddr 0x000B000C) (regRegion + 0x000B000C) ∧
    (RegAccess ready 1 (sessionOf .operator 0) (regAddr 0x00070000) (regRegion + 0x00070000) ∧
      ∃ w, regAt 0x00070000 = some w ∧ PlainReg ready .operator 0x00070000 w 5) ∧
    (regAt 0 = some {} ∧ (∀ v : W32, wordCheck ready 0 v.toNat = cOk) ∧ pairRead ready 0 = none) ∧
    (RegAccess ready 1 (sessionOf .operator 0) (regAddr 0x00070100) (regRegion + 0x00070100) ∧ regAt 0x00070100 ≠ none ∧
      counterWord 0x00070100 = some (rcvCnt 0, false) ∧ windowOff ready 0x00070100 = false) := by
  refine ⟨by decide +kernel, access_of (by decide +kernel), ⟨access_of (by decide +kernel), plain_of (by decide +kernel)⟩,
    ⟨by decide +kernel, fun v => by simp [wordCheck, miRange], by decide +kernel⟩, access_of (by decide +kernel), by decide +kernel⟩

/-- The alias word of bit 3 of RCV_TARGET. -/
def aliasRel : Nat := 0x00070000 * 32 + 4 * 3

theorem witness_RegistersReadAndWrite_alias :
    RegAccess ready 1 (sessionOf .operator 0) (BitVec.ofNat 64 (causeway (aliasRegion + aliasRel))) (aliasRegion + aliasRel) ∧
      aliasOf aliasRel = (0x00070000, 3) ∧ aliasRel % 4 = 0 ∧
      (∃ w, regAt 0x00070000 = some w ∧ PlainReg ready .operator 0x00070000 w 8 ∧ bit w.rw 3 = true ∧ bit w.w1c 3 = false ∧
        bit w.w1s 3 = false ∧ bit w.wo 3 = false) := by
  refine ⟨access_of (by decide +kernel), by decide +kernel, by decide +kernel, ?_⟩
  obtain ⟨w, h, p⟩ := plain_of (s := ready) (r := .operator) (off := 0x00070000) (v := 8) (by decide +kernel)
  have e : (regAt 0x00070000).any (fun w => bit w.rw 3 && !bit w.w1c 3 && !bit w.w1s 3 && !bit w.wo 3) = true := by decide +kernel
  rw [h] at e
  simp only [Option.any_some, Bool.and_eq_true, Bool.not_eq_true'] at e
  exact ⟨w, h, p, e.1.1.1, e.1.1.2, e.1.2, e.2⟩

/-- A value half of THM_LIMITS pends. -/
def guarded : State := { ready with guards := [(2, { off := 0x00060000, v := 0x00735A50, left := 3 })] }

theorem witness_GuardedPairsTakeBothHalves :
    (∃ w, regAt 0x00060000 = some w ∧ w.grd ≠ 0 ∧ w.right = .installer ∧ mayWrite .installer w 5 = true) ∧
    sess? guarded 2 = some (sessionOf .installer 1) ∧ nodeLocal guarded (regAddr 0x00060000) = true ∧ guarded.wire = [] ∧
    mlook guarded.hiCaps 2 = none ∧ localOf (regAddr 0x00060000) = regRegion + 0x00060000 ∧
    localOf (regAddr 0x00068000) = regRegion + 0x00060000 + 0x8000 ∧ mlook ready.guards 2 = none ∧
    mlook guarded.guards 2 = some { off := 0x00060000, v := 0x00735A50, left := 3 } ∧
    mlook (mdel (accessTick 2 guarded).guards 2) 2 = none ∧ (0xFF8CA5AF : W32) = ~~~0x00735A50 ∧ roleOf guarded 2 = .installer ∧
    isPeerWord 0x00060000 = false := by
  refine ⟨⟨_, rfl, by decide +kernel, by decide +kernel, by decide +kernel⟩, by decide +kernel⟩

/-! ## The snapshot and the audit log -/

/-- A capture runs, the dies below `n` cut. -/
def capturing (n : Nat) : State := { ready with snap := { ready.snap with busy := true, cut := (List.range n).map (fun d => (d, true)) } }

/-- A flush runs. -/
def flushing : State := { ready with audit := { ready.audit with busy := true } }

theorem witness_SnapshotAndAuditCommandsAct :
    (sess? ready 1 = some (sessionOf .operator 0) ∧ ready.snap.busy = false ∧ ready.rcv.cape = false ∧ ready.audit.busy = false) ∧
    (sess? flushing 1 = some (sessionOf .operator 0) ∧ flushing.audit.busy = true ∧ flushing.audit.again = false ∧ flushing.rcv.cape = false) ∧
    sess? ready 3 = some (sessionOf .maker 2) ∧
    ((capturing 24).snap.busy = true ∧ nmem (capturing 24).snap.cut 24 = false ∧ dieLost (capturing 24) 24 = false ∧
      mwf 0 (capturing 24).counters = true ∧ counterDie (rcvCnt 0) = 24 ∧ counterDie (reefCnt 0 0) ≠ 24) ∧
    (∀ d < 25, dieLost (capturing 25) d = true ∨ nmem (capturing 25).snap.cut d = true) := by decide +kernel

theorem witness_AuditRecordsAreAppended :
    ({ ready with rcv := { ready.rcv with cape := true } } : State).rcv.cape = true ∧ (ready.rcv.cape = false ∧ ready.rcv.served = true) ∧
      (State.reset.rcv.cape = false ∧ State.reset.rcv.served = false) := by decide

theorem witness_CommitNeedsEveryInlet :
    let s := { standingBy .proofed ready with chans := [(0, { chan0 with inlet := 1 })] }
    OpenAs s 2 .installer ∧ s.rcv.cape = false ∧ s.plt.standby = .proofed ∧ standbyPlate s = some bare ∧
      (∃ c ∈ s.chans, c.2.state ≠ .free ∧ inletNum bare normalCase c.2.inlet.toNat = none) ∧ s.wire = [] :=
  ⟨⟨_, rfl, rfl, rfl⟩, rfl, rfl, rfl, ⟨_, List.mem_singleton.mpr rfl, by decide, by decide +kernel⟩, rfl⟩

/-! ## Power -/

/-- Domain `d` switches, from off. -/
def switching (d : Nat) : State := { ready with pwr := { ready.pwr with state := 0, switching := [(d, true)] } }

theorem witness_PowerFollowsItsRequests :
    (OpenAs ready 2 .installer ∧ (2 : BitVec 2).toNat < 3 ∧ ready.wire = []) ∧
    (nmem (switching 2).pwr.switching 2 = true ∧ (switching 2).pwr.state.getLsbD 2 = false ∧ nmem (switching 79).pwr.switching 79 = true) ∧
    (ready.pins.porN = true ∧ ready.pins.supplies = true ∧ ready.rcv.cape = false ∧ ready.pwr.tripped = false) ∧
    ((47 : Nat) ∈ dieCodes ∧ (List.replicate 48 (100 : Byte))[47]? = some 100 ∧ codeLost ready 47 = false) ∧
    ({ ready with pwr := { ready.pwr with tripped := true } } : State).pwr.tripped = true ∧
    (let s := { ready with time := 5000, pwr := { ready.pwr with overSince := some 4000 } }
     s.pwr.overSince = some 4000 ∧ 4000 + 1000 ≤ s.time ∧ islLost s 15 = false ∧ 620 < (railGet s 15).mv) :=
  ⟨⟨⟨_, rfl, rfl, rfl⟩, by decide, rfl⟩, by decide +kernel, by decide +kernel, by decide +kernel, rfl, by decide +kernel⟩

/-- At 120 C the die of code 0 is at TRIP_C. -/
theorem witness_PowerFollowsItsRequests_trip :
    ∃ t, exec (.thermalSample [120] 0) ready = .next t ∧ (0 : Nat) ∈ dieCodes ∧ limitC ready 2 ≤ (tempOf t 0).toInt ∧ t.pwr.tripped = true := by
  refine ⟨_, rfl, by decide +kernel, by decide +kernel, by decide +kernel⟩

/-! ## Injection, peers -/

/-- Slot 0 of fault injection: on, or holding a frame. -/
def injecting (x : FiSlot) : State := { rset 0x00080400 1 ready with fi := [(0, x)] }

/-- Slot `k` drops one frame of class 0 in every one of port 0. -/
def slotSet (k : Nat) : State := rset (fiBase k + 4) 0x20020 (rset (fiBase k + 8) 1 ready)

theorem witness_SlotsAndPeersTakeTheirWords :
    (sess? (slotSet 0) 2 = some (sessionOf .installer 1) ∧ (rget (slotSet 0) 0x00080400).getLsbD 0 = false ∧
      fiEnableCode (slotSet 0) .installer 0 = cOk ∧ (slotSet 0).rcv.recovering = false) ∧
    (let s := { slotSet 7 with rcv := { ready.rcv with recovering := true } }
     fiEnableCode s .maker 7 = cOk ∧ (rget s 0x00080400).getLsbD 7 = false ∧ s.rcv.recovering = true) ∧
    (let s := injecting { state := .active, cause := 0, s := 0, held := none, passed := 0 }
     sess? s 2 = some (sessionOf .installer 1) ∧ (rget s 0x00080400).getLsbD 0 = true) ∧
    (let s := injecting { state := .active, cause := 0, s := 0, held := some (.out 0 (.frame 0 4 9 [])), passed := 0 }
     s.wire = [] ∧ (fiGet s 0).held = some (.out 0 (.frame 0 4 9 [])) ∧
       ∀ j < 8, (0 : BitVec 3).toNat < j → (fiGet s j).state ≠ .active ∧ (fiGet s j).held = none) ∧
    (mwf 0 ready.regs = true ∧ isPeerWord (peerBase 1023 + 0x20) = true ∧ isPeerWord (peerBase 0 + 0x17F0) = true) := by decide +kernel

/-! ## Scrub, management -/

theorem witness_ScrubRecordsAndPoisons :
    (ready.wire = [] ∧ islLost ready 15 = false ∧ (rget ready 0x00090000).getLsbD 0 = false ∧ 4 ≤ ready.boot.stage ∧
      nmem ready.poison (hbmKey 15 0) = false ∧ mget 0 ready.ueCount 15 + 1 < mget 256 ready.ueLimit 15) ∧
    (sheetImage ready 15 0 = false ∧ otherCopy ready 15 0 = none ∧ otherCopy ready 15 (64 * 0x3F500000) = some 1 ∧ islLost ready 1 = false ∧
      nmem ready.poison (hbmKey 1 (64 * 0x3F500000)) = false ∧ 0x3F500000 + 1 < 2 ^ 30) ∧
    (lagoonOn ready 15 = true ∧ (rget ready 0x00090000).getLsbD 1 = false ∧ 3145726 + 1 < lagoonWords ∧ nmem ready.poison (lagKey 15 0) = false) := by
  decide +kernel

theorem witness_ManagementAndTapAnswer :
    aonWorks ready = true ∧ ready.pins.pointer = 0 ∧ ready.pins.trstN = true ∧ ready.pins.porN = true ∧
      (let s := { ready with pins := { ready.pins with pointer := 1, porN := false } }
       aonWorks s = true ∧ s.pins.pointer = 1 ∧ s.pins.trstN = true ∧ s.pins.porN = false) := by decide +kernel

end Sys2Proof.Tests
end

namespace Sys2Proof.Machine

/-! ## What every command answers

The `_keeps` lemmas of Laws/ say it for one meaning at a time. Here they are put together over the table of `exec`, with the tables of
Safety saying which commands may write memory, flash and pins. -/

/-- The commands that start the device again from cold: POR_N low and a loss of power (25 R566). -/
def restartsCold : Instr → Bool
  | .porNAssert .. | .powerLoss => true
  | _ => false

section
variable {C M F P C' M' F' P' : Prop} {s : State} {o : Host.Outcome State Fault Refusal}

theorem nextKeeps_mono (h : ∃ t, o = .next t ∧ Keeps C M F P s t) (hC : C → C') (hM : M → M') (hF : F → F') (hP : P → P') :
    ∃ t, o = .next t ∧ Keeps C' M' F' P' s t :=
  h.imp fun _ ⟨ho, hk⟩ => ⟨ho, hk.mono hC hM hF hP⟩

theorem nextKeeps_of_restarts (hC : C') (h : ∃ t, o = .next t ∧ Keeps True M F P s t) : ∃ t, o = .next t ∧ Keeps C' M F P s t :=
  nextKeeps_mono h (fun _ => hC) id id id

theorem nextKeeps_of_writesMemory (hM : M') (h : ∃ t, o = .next t ∧ Keeps C True F P s t) : ∃ t, o = .next t ∧ Keeps C M' F P s t :=
  nextKeeps_mono h id (fun _ => hM) id id

theorem nextKeeps_of_writesFlash (hF : F') (h : ∃ t, o = .next t ∧ Keeps C M True P s t) : ∃ t, o = .next t ∧ Keeps C M F' P s t :=
  nextKeeps_mono h id id (fun _ => hF) id

theorem nextKeeps_of_movesPins (hP : P') (h : ∃ t, o = .next t ∧ Keeps C M F True s t) : ∃ t, o = .next t ∧ Keeps C M F P' s t :=
  nextKeeps_mono h id id id (fun _ => hP)
end

/-- Every command answers a next state, and what it keeps is what the tables of Safety say of it. One case for each row of `exec`: the
lemma of its meaning, and where that lemma allows a write without a condition, the table's entry that allows it. -/
theorem exec_keeps (c : Instr) (s : State) : ∃ t, exec c s = .next t ∧
    Keeps (restartsCold c = true) (sparesMemory c = false) (writesFlash c = true) (movesPins c = true) s t := by
  cases c with
  | loadStaged => exact execLoadStaged_keeps (.refl s)
  | loadFlash => exact execLoadFlash_keeps (.refl s)
  | discard => exact execDiscard_keeps (.refl s)
  | abortCommit => exact execAbortCommit_keeps (.refl s)
  | proofActive => exact execProofActive_keeps (.refl s)
  | commit => exact nextKeeps_of_writesMemory rfl (execCommit_keeps (.refl s))
  | evict => exact nextKeeps_of_writesMemory rfl (execEvict_keeps (.refl s))
  | plateLoadDone => exact execPlateLoadDone_keeps (.refl s)
  | proofDone => exact execProofDone_keeps (.refl s)
  | bankSwap => exact nextKeeps_of_writesMemory rfl (execBankSwap_keeps (.refl s))
  | fallbackSwitch => exact execFallbackSwitch_keeps (.refl s)
  | sheetSliceEnd => exact execSheetSliceEnd_keeps (.refl s)
  | sheetSwitch => exact nextKeeps_of_writesMemory rfl (execSheetSwitch_keeps (.refl s))
  | descriptorSubmit => exact execDescriptorSubmit_keeps (.refl s)
  | create => exact nextKeeps_of_writesMemory rfl (execCreate_keeps (.refl s))
  | destroy => exact nextKeeps_of_writesMemory rfl (execDestroy_keeps (.refl s))
  | retire => exact nextKeeps_of_writesMemory rfl (execRetire_keeps (.refl s))
  | setTc => exact nextKeeps_of_writesMemory rfl (execSetTc_keeps (.refl s))
  | setDeadline => exact nextKeeps_of_writesMemory rfl (execSetDeadline_keeps (.refl s))
  | descriptorCommit => exact execDescriptorCommit_keeps (.refl s)
  | batchApply => exact nextKeeps_of_writesMemory rfl (execBatchApply_keeps (.refl s))
  | completionReady => exact nextKeeps_of_writesMemory rfl (execCompletionReady_keeps (.refl s))
  | take => exact execTake_keeps (.refl s)
  | done => exact execDone_keeps (.refl s)
  | nop => exact execNop_keeps (.refl s)
  | jump => exact execJump_keeps (.refl s)
  | signal => exact execSignal_keeps (.refl s)
  | wait => exact execWait_keeps (.refl s)
  | decrement => exact execDecrement_keeps (.refl s)
  | arrive => exact execArrive_keeps (.refl s)
  | bwait => exact execBwait_keeps (.refl s)
  | arriveWait => exact execArriveWait_keeps (.refl s)
  | waitTimeout => exact execWaitTimeout_keeps (.refl s)
  | attachedSignal => exact execAttachedSignal_keeps (.refl s)
  | engine => exact nextKeeps_of_writesMemory rfl (execEngine_keeps (.refl s))
  | asuIssue => exact nextKeeps_of_writesMemory rfl (execAsuIssue_keeps (.refl s))
  | wxaClear => exact execWxaClear_keeps (.refl s)
  | wxaSetMode => exact execWxaSetMode_keeps (.refl s)
  | wxaSave => exact nextKeeps_of_writesMemory rfl (execWxaSave_keeps (.refl s))
  | wxaRestore => exact execWxaRestore_keeps (.refl s)
  | wxaMerge => exact execWxaMerge_keeps (.refl s)
  | wxaReadFp32 => exact nextKeeps_of_writesMemory rfl (execWxaReadFp32_keeps (.refl s))
  | wxaTerm => exact execWxaTerm_keeps (.refl s)
  | recordCellStep => exact execRecordCellStep_keeps (.refl s)
  | dotStep => exact execDotStep_keeps (.refl s)
  | graverRun => exact nextKeeps_of_writesMemory rfl (execGraverRun_keeps (.refl s))
  | recordDecode => exact execRecordDecode_keeps (.refl s)
  | recordDeadline => exact execRecordDeadline_keeps (.refl s)
  | stippleAugment => exact execStippleAugment_keeps (.refl s)
  | hatchStage => exact execHatchStage_keeps (.refl s)
  | statsGather => exact execStatsGather_keeps (.refl s)
  | normalise => exact execNormalise_keeps (.refl s)
  | joinProbe => exact execJoinProbe_keeps (.refl s)
  | joinBuild => exact execJoinBuild_keeps (.refl s)
  | nearDupProbe => exact execNearDupProbe_keeps (.refl s)
  | nearDupBuild => exact execNearDupBuild_keeps (.refl s)
  | shuffleFeed => exact nextKeeps_of_writesMemory rfl (execShuffleFeed_keeps (.refl s))
  | census => exact execCensus_keeps (.refl s)
  | sealBatch => exact execSeal_keeps (.refl s)
  | deliver => exact execDeliver_keeps (.refl s)
  | stagingSlotWrite => exact nextKeeps_of_writesMemory rfl (execStagingSlotWrite_keeps (.refl s))
  | asuUpdate => exact nextKeeps_of_writesMemory rfl (execAsuUpdate_keeps (.refl s))
  | asuSearch => exact nextKeeps_of_writesMemory rfl (execAsuSearch_keeps (.refl s))
  | asuNext => exact nextKeeps_of_writesMemory rfl (execAsuNext_keeps (.refl s))
  | asuRead => exact nextKeeps_of_writesMemory rfl (execAsuRead_keeps (.refl s))
  | asuWrite => exact nextKeeps_of_writesMemory rfl (execAsuWrite_keeps (.refl s))
  | asuDelete => exact nextKeeps_of_writesMemory rfl (execAsuDelete_keeps (.refl s))
  | asuInsert => exact nextKeeps_of_writesMemory rfl (execAsuInsert_keeps (.refl s))
  | asuRebuild => exact nextKeeps_of_writesMemory rfl (execAsuRebuild_keeps (.refl s))
  | asuRefreshScrub => exact execAsuRefreshScrub_keeps (.refl s)
  | asuThrottleEval => exact nextKeeps_of_writesMemory rfl (execAsuThrottleEval_keeps (.refl s))
  | topk => exact nextKeeps_of_writesMemory rfl (execTopk_keeps (.refl s))
  | sort => exact nextKeeps_of_writesMemory rfl (execSort_keeps (.refl s))
  | merge => exact nextKeeps_of_writesMemory rfl (execMerge_keeps (.refl s))
  | gather => exact nextKeeps_of_writesMemory rfl (execGather_keeps (.refl s))
  | scatter => exact execScatter_keeps (.refl s)
  | fold => exact execFold_keeps (.refl s)
  | writeRows => exact nextKeeps_of_writesMemory rfl (execWriteRows_keeps (.refl s))
  | initialise => exact execInitialise_keeps (.refl s)
  | fetchEpochAdvance => exact execFetchEpochAdvance_keeps (.refl s)
  | shoalIntervalEnd => exact execShoalIntervalEnd_keeps (.refl s)
  | migrateIntervalEnd => exact execMigrateIntervalEnd_keeps (.refl s)
  | migrationFlip => exact nextKeeps_of_writesMemory rfl (execMigrationFlip_keeps (.refl s))
  | layoutTransform => exact nextKeeps_of_writesMemory rfl (execLayoutTransform_keeps (.refl s))
  | pack => exact nextKeeps_of_writesMemory rfl (execPack_keeps (.refl s))
  | hello => exact nextKeeps_of_writesMemory rfl (execHelloFrame_keeps (.refl s))
  | helloReply => exact nextKeeps_of_writesMemory rfl (execHelloReplyFrame_keeps (.refl s))
  | confirm => exact nextKeeps_of_writesMemory rfl (execConfirmFrame_keeps (.refl s))
  | reject => exact nextKeeps_of_writesMemory rfl (execRejectFrame_keeps (.refl s))
  | close => exact nextKeeps_of_writesMemory rfl (execCloseFrame_keeps (.refl s))
  | dataFrame => exact nextKeeps_of_writesMemory rfl (execDataFrame_keeps (.refl s))
  | ack => exact nextKeeps_of_writesMemory rfl (execAckFrame_keeps (.refl s))
  | probe => exact nextKeeps_of_writesMemory rfl (execProbeFrame_keeps (.refl s))
  | probeReply => exact nextKeeps_of_writesMemory rfl (execProbeReplyFrame_keeps (.refl s))
  | yzRead => exact nextKeeps_of_writesMemory rfl (execYzRead_keeps (.refl s))
  | yzWrite => exact nextKeeps_of_writesMemory rfl (execYzWrite_keeps (.refl s))
  | add32 => exact nextKeeps_of_writesMemory rfl (execAdd32_keeps (.refl s))
  | add64 => exact nextKeeps_of_writesMemory rfl (execAdd64_keeps (.refl s))
  | addDelta => exact nextKeeps_of_writesMemory rfl (execAddDelta_keeps (.refl s))
  | cas64 => exact nextKeeps_of_writesMemory rfl (execCas64_keeps (.refl s))
  | yzSignal => exact nextKeeps_of_writesMemory rfl (execYzSignal_keeps (.refl s))
  | message => exact nextKeeps_of_writesMemory rfl (execMessage_keeps (.refl s))
  | fence => exact nextKeeps_of_writesMemory rfl (execFence_keeps (.refl s))
  | fate => exact nextKeeps_of_writesMemory rfl (execFate_keeps (.refl s))
  | result => exact execResult_keeps (.refl s)
  | retransmitTimeout => exact execRetransmitTimeout_keeps (.refl s)
  | probeTimer => exact execProbeTimer_keeps (.refl s)
  | peerDown => exact execPeerDown_keeps (.refl s)
  | sessionRetry => exact execSessionRetry_keeps (.refl s)
  | fateHoldExpired => exact execFateHoldExpired_keeps (.refl s)
  | helloIntervalEnd => exact execHelloIntervalEnd_keeps (.refl s)
  | quarIntervalEnd => exact execQuarIntervalEnd_keeps (.refl s)
  | linkUp => exact execLinkUp_keeps (.refl s)
  | fabricLinkDown => exact execFabricLinkDown_keeps (.refl s)
  | straitFlit => exact nextKeeps_of_writesMemory rfl (execStraitFlit_keeps (.refl s))
  | straitLinkLost => exact nextKeeps_of_writesMemory rfl (execStraitLinkLost_keeps (.refl s))
  | straitDieLost => exact nextKeeps_of_writesMemory rfl (execStraitDieLost_keeps (.refl s))
  | islandLost => exact nextKeeps_of_writesMemory rfl (execIslandLost_keeps (.refl s))
  | stackLost => exact nextKeeps_of_writesMemory rfl (execStackLost_keeps (.refl s))
  | stackUeIntervalEnd => exact execStackUeIntervalEnd_keeps (.refl s)
  | harbourLost => exact nextKeeps_of_writesMemory rfl (execHarbourLost_keeps (.refl s))
  | capeLost => exact nextKeeps_of_writesMemory rfl (execCapeLost_keeps (.refl s))
  | mirrorRebuilt => exact nextKeeps_of_writesMemory rfl (execMirrorRebuilt_keeps (.refl s))
  | recoveryComplete => exact nextKeeps_of_writesMemory rfl (execRecoveryComplete_keeps (.refl s))
  | hbmClockLost => exact nextKeeps_of_writesMemory rfl (execHbmClockLost_keeps (.refl s))
  | ethClockLost => exact nextKeeps_of_writesMemory rfl (execEthClockLost_keeps (.refl s))
  | channelReset => exact nextKeeps_of_writesMemory rfl (execChannelReset_keeps (.refl s))
  | islandReset => exact nextKeeps_of_writesMemory rfl (execIslandReset_keeps (.refl s))
  | portReset => exact nextKeeps_of_writesMemory rfl (execPortReset_keeps (.refl s))
  | deviceReset => exact nextKeeps_of_writesMemory rfl (execDeviceReset_keeps (.refl s))
  | warmN => exact nextKeeps_of_writesMemory rfl (execWarmN_keeps (.refl s))
  | porNAssert => exact nextKeeps_of_restarts rfl (nextKeeps_of_writesMemory rfl (nextKeeps_of_movesPins rfl (execPorNAssert_keeps (.refl s))))
  | porNRelease => exact nextKeeps_of_movesPins rfl (execPorNRelease_keeps (.refl s))
  | powerLoss => exact nextKeeps_of_restarts rfl (nextKeeps_of_writesMemory rfl (nextKeeps_of_movesPins rfl (execPowerLoss_keeps (.refl s))))
  | bootRom => exact execBootRom_keeps (.refl s)
  | bootFirmware => exact nextKeeps_of_writesFlash rfl (execBootFirmware_keeps (.refl s))
  | hbmTraining => exact nextKeeps_of_writesMemory rfl (execHbmTraining_keeps (.refl s))
  | straitTraining => exact nextKeeps_of_writesMemory rfl (execStraitTraining_keeps (.refl s))
  | islandBringup => exact nextKeeps_of_writesMemory rfl (execIslandBringup_keeps (.refl s))
  | ethernetLinkup => exact execEthernetLinkup_keeps (.refl s)
  | readyNoPlate => exact nextKeeps_of_writesMemory rfl (nextKeeps_of_writesFlash rfl (execReadyNoPlate_keeps (.refl s)))
  | bootPlateLoad => exact execBootPlateLoad_keeps (.refl s)
  | serviceRequest => exact nextKeeps_of_writesMemory rfl (execServiceRequest_keeps (.refl s))
  | readFlash => exact nextKeeps_of_writesMemory rfl (execReadFlash_keeps (.refl s))
  | writePlate => exact nextKeeps_of_writesMemory rfl (nextKeeps_of_writesFlash rfl (execWritePlate_keeps (.refl s)))
  | erasePlate => exact nextKeeps_of_writesMemory rfl (nextKeeps_of_writesFlash rfl (execErasePlate_keeps (.refl s)))
  | writeConfig => exact nextKeeps_of_writesMemory rfl (nextKeeps_of_writesFlash rfl (execWriteConfig_keeps (.refl s)))
  | writeRoleList => exact nextKeeps_of_writesMemory rfl (nextKeeps_of_writesFlash rfl (execWriteRoleList_keeps (.refl s)))
  | writeFirmware => exact nextKeeps_of_writesMemory rfl (nextKeeps_of_writesFlash rfl (execWriteFirmware_keeps (.refl s)))
  | registerWrite => exact nextKeeps_of_writesMemory rfl (execRegisterWrite_keeps (.refl s))
  | guardValueHalf => exact nextKeeps_of_writesMemory rfl (execGuardValueHalf_keeps (.refl s))
  | guardComplementHalf => exact nextKeeps_of_writesMemory rfl (execGuardComplementHalf_keeps (.refl s))
  | guardPairExpired => exact execGuardPairExpired_keeps (.refl s)
  | aliasWrite => exact nextKeeps_of_writesMemory rfl (execAliasWrite_keeps (.refl s))
  | counterWrite => exact nextKeeps_of_writesMemory rfl (execCounterWrite_keeps (.refl s))
  | counterLowRead => exact nextKeeps_of_writesMemory rfl (execCounterLowRead_keeps (.refl s))
  | capture => exact execCapture_keeps (.refl s)
  | snapshotMarker => exact execSnapshotMarker_keeps (.refl s)
  | snapshotComplete => exact execSnapshotComplete_keeps (.refl s)
  | checkpoint => exact execCheckpoint_keeps (.refl s)
  | flush => exact execFlush_keeps (.refl s)
  | flushDone => exact nextKeeps_of_writesFlash rfl (execFlushDone_keeps (.refl s))
  | pwrSwitch => exact nextKeeps_of_writesMemory rfl (execPwrSwitch_keeps (.refl s))
  | domainSwitchDone => exact nextKeeps_of_writesMemory rfl (execDomainSwitchDone_keeps (.refl s))
  | fiEnable => exact nextKeeps_of_writesMemory rfl (execFiEnable_keeps (.refl s))
  | fiDisable => exact nextKeeps_of_writesMemory rfl (execFiDisable_keeps (.refl s))
  | fiHoldTimeout => exact nextKeeps_of_writesMemory rfl (execFiHoldTimeout_keeps (.refl s))
  | yzPeerCommit => exact nextKeeps_of_writesMemory rfl (execYzPeerCommit_keeps (.refl s))
  | yzWinCommit => exact nextKeeps_of_writesMemory rfl (execYzWinCommit_keeps (.refl s))
  | thermalSample => exact nextKeeps_of_writesMemory rfl (execThermalSample_keeps (.refl s))
  | powerSample => exact execPowerSample_keeps (.refl s)
  | hbmScrub => exact nextKeeps_of_writesMemory rfl (execHbmScrub_keeps (.refl s))
  | lagoonScrub => exact nextKeeps_of_writesMemory rfl (execLagoonScrub_keeps (.refl s))
  | i3cPointerWrite => exact nextKeeps_of_movesPins rfl (execI3cPointerWrite_keeps (.refl s))
  | i3cRead => exact nextKeeps_of_movesPins rfl (execI3cRead_keeps (.refl s))
  | jtagBypass => exact nextKeeps_of_movesPins rfl (execJtagBypass_keeps (.refl s))
  | jtagIdcode => exact nextKeeps_of_movesPins rfl (execJtagIdcode_keeps (.refl s))
  | samplePreload => exact nextKeeps_of_movesPins rfl (execSamplePreload_keeps (.refl s))
  | extest => exact nextKeeps_of_movesPins rfl (execExtest_keeps (.refl s))
  | clamp => exact nextKeeps_of_movesPins rfl (execClamp_keeps (.refl s))
  | highz => exact nextKeeps_of_movesPins rfl (execHighz_keeps (.refl s))
  | sheetFillDone => exact nextKeeps_of_writesMemory rfl (execSheetFillDone_keeps (.refl s))
  | flitResend => exact nextKeeps_of_writesMemory rfl (execFlitResend_keeps (.refl s))
  | ethClockReturn => exact execEthClockReturn_keeps (.refl s)
  | pauseFrame => exact execPauseFrame_keeps (.refl s)
  | neighbourSolicitation => exact execNeighbourSolicitation_keeps (.refl s)
  | arpRequest => exact execArpRequest_keeps (.refl s)
  | powerUp => exact nextKeeps_of_movesPins rfl (execPowerUp_keeps (.refl s))
  | debugUnlock => exact execDebugUnlock_keeps (.refl s)
  | trstN => exact nextKeeps_of_movesPins rfl (execTrstN_keeps (.refl s))

/-- Settles O4: the queue is one of the things that every meaning keeps. That a command answers a next state in every state is the
model's choice (notes/assumptions/98.md: an event whose condition does not hold changes nothing), and so is the one queue
(notes/assumptions/1.md). -/
theorem everyCommandCompletes : Obligations.EveryCommandCompletes := by
  intro c s
  obtain ⟨t, hnext, hkeeps⟩ := exec_keeps c s
  exact ⟨t, hnext, hkeeps.pending⟩

end Sys2Proof.Machine

namespace Sys2Proof.Machine

/-! ## What the log and the alerts leave alone

An alert and an audit record write the log itself, the records that boot holds, counters, register words, free values and outputs, and
nothing else. -/

/-- `t` differs from `s` at most in the log, the boot record, counters, free values, outputs and register words. -/
def LogsOnly (s t : State) : Prop :=
  t = { s with audit := t.audit, boot := t.boot, counters := t.counters, free := t.free, out := t.out, regs := t.regs }

namespace LogsOnly
variable {s t u : State}

theorem refl (s : State) : LogsOnly s s := rfl

theorem trans (h : LogsOnly s t) (h' : LogsOnly t u) : LogsOnly s u := by
  calc u = { t with audit := u.audit, boot := u.boot, counters := u.counters, free := u.free, out := u.out, regs := u.regs } := h'
    _ = { s with audit := u.audit, boot := u.boot, counters := u.counters, free := u.free, out := u.out, regs := u.regs } := by rw [h]

theorem rcv (h : LogsOnly s t) : t.rcv = s.rcv := by rw [LogsOnly] at h; rw [h]
theorem fi (h : LogsOnly s t) : t.fi = s.fi := by rw [LogsOnly] at h; rw [h]
theorem straits (h : LogsOnly s t) : t.straits = s.straits := by rw [LogsOnly] at h; rw [h]
theorem wire (h : LogsOnly s t) : t.wire = s.wire := by rw [LogsOnly] at h; rw [h]

/-- The slots are none of it: they may be set in both. -/
theorem withFi (h : LogsOnly s t) (x : SMap FiSlot) : LogsOnly { s with fi := x } { t with fi := x } := by
  rw [LogsOnly] at h ⊢
  rw [h]

/-- Neither are the directions of the links. -/
theorem withStraits (h : LogsOnly s t) (x : SMap StraitDir) : LogsOnly { s with straits := x } { t with straits := x } := by
  rw [LogsOnly] at h ⊢
  rw [h]
end LogsOnly

theorem emit_logsOnly (o : Out) (s : State) : LogsOnly s (emit o s) := rfl

theorem alertEdge_logsOnly (before after : State) : LogsOnly after (alertEdge before after) := by
  unfold alertEdge
  split <;> rfl

theorem alert_logsOnly (k : Nat) (s : State) : LogsOnly s (alert k s) :=
  LogsOnly.trans (t := rset 8 (rget s 8 ||| (1#32 <<< k)) s) rfl (alertEdge_logsOnly _ _)

theorem auditAppend_logsOnly (kind : Byte) (code : W16) (role : Role) (source : Byte) (sid : W32) (subject : Digest) (detail : List Byte)
    (s : State) : LogsOnly s (auditAppend kind code role source sid subject detail s) := rfl

theorem auditCheckpoint_logsOnly (s : State) : LogsOnly s (auditCheckpoint s) := rfl

theorem auditPeriodic_logsOnly (s : State) : LogsOnly s (auditPeriodic s) := by
  unfold auditPeriodic
  split
  · exact auditCheckpoint_logsOnly s
  · exact .refl s

theorem auditFlush_logsOnly (s : State) : LogsOnly s (auditFlush s) := by
  unfold auditFlush
  split
  · exact .refl s
  · split
    · rfl
    · have started : LogsOnly (auditCheckpoint s) { auditCheckpoint s with audit :=
          { (auditCheckpoint s).audit with busy := true, flushing := (auditCheckpoint s).audit.ring.length,
                                           flushingCp := (auditCheckpoint s).audit.checkpoints.length } } := rfl
      exact ((auditCheckpoint_logsOnly s).trans started).trans (auditPeriodic_logsOnly _)

theorem audit_logsOnly (kind : Byte) (code : W16) (sid : W32) (source : Byte) (detail : List Byte) (s : State) :
    LogsOnly s (audit kind code sid source detail s) := by
  have logged : LogsOnly s (auditPeriodic (auditAppend kind code (roleOf s sid) source sid (subjectOf s sid) detail s)) :=
    .trans (auditAppend_logsOnly ..) (auditPeriodic_logsOnly _)
  unfold audit
  split
  · rfl
  · split
    · rfl
    · dsimp only
      split
      · exact logged.trans (auditFlush_logsOnly _)
      · exact logged

theorem auditRecovery_logsOnly (cls target : Nat) (code : W16) (sid : W32) (s : State) : LogsOnly s (auditRecovery cls target code sid s) :=
  audit_logsOnly ..

theorem fiAudit_logsOnly (k ev : Nat) (sid : W32) (s : State) : LogsOnly s (fiAudit k ev sid s) := audit_logsOnly ..

/-! ## Slots that hold nothing

A slot that holds nothing has nothing to release, so that its stop or its suspension puts nothing on its way. -/

/-- No slot holds an item. -/
def HoldsNone (s : State) : Prop := ∀ k < 8, (fiGet s k).held = none

theorem HoldsNone.of_fi {s t : State} (h : HoldsNone s) (e : t.fi = s.fi) : HoldsNone t := by
  intro k hk
  rw [fiGet, e]
  exact h k hk

theorem Quiet.holdsNone {s : State} (h : Quiet s) : HoldsNone s := fun k hk => (h.2 k hk).2

theorem fiRelease_of_held_none {s : State} {k : Nat} (h : (fiGet s k).held = none) : fiRelease k s = s := by
  simp only [fiRelease, h]

/-- With no slot active, none is suspended. -/
theorem fiSuspend_of_inactive {s : State} (h : ∀ k < 8, (fiGet s k).state ≠ .active) : fiSuspend s = s := by
  refine List.foldlRecOn (motive := fun t => t = s) _ _ rfl ?_
  rintro t rfl k hk
  exact if_neg (h k (List.mem_range.1 hk))

/-- A stopped slot holds what it held, and so does every other. -/
theorem fiStop_held (k cause j : Nat) (s : State) : (fiGet (fiStop k cause s) j).held = (fiGet s j).held := by
  have e : (fiStop k cause s).fi = (fiPut k { fiGet s k with state := .stopped, cause := cause } s).fi := (fiAudit_logsOnly ..).fi
  have stopped : ({ fiGet s k with state := .stopped, cause := cause } : FiSlot) ≠ FiSlot.init :=
    fun h => FiState.noConfusion (congrArg FiSlot.state h)
  rw [fiGet, e, ← fiGet]
  by_cases hj : j = k
  · subst hj
    rw [fiGet_fiPut s stopped]
  · rw [fiGet_fiPut_ne s _ hj]

theorem fiStop_logsOnly (k cause : Nat) (s : State) : LogsOnly { s with fi := (fiStop k cause s).fi } (fiStop k cause s) := by
  have h := fiAudit_logsOnly k 3 0 (fiPut k { fiGet s k with state := .stopped, cause := cause } s)
  unfold fiStop
  rw [h.fi]
  exact h

/-- Where nothing is held, slots whose target is lost write their state and the log alone. -/
theorem fiLostCheck_logsOnly {s : State} (h : HoldsNone s) : LogsOnly { s with fi := (fiLostCheck s).fi } (fiLostCheck s) := by
  have stops : HoldsNone (fiLostCheck s) ∧ LogsOnly { s with fi := (fiLostCheck s).fi } (fiLostCheck s) := by
    refine List.foldlRecOn (motive := fun t => HoldsNone t ∧ LogsOnly { s with fi := t.fi } t) _ _ ⟨h, rfl⟩ ?_
    rintro t ⟨hnone, hlogs⟩ k hk
    rw [fiRelease_of_held_none (hnone k (List.mem_range.1 hk))]
    split
    · refine ⟨fun j hj => (fiStop_held k 3 j t).trans (hnone j hj), ?_⟩
      exact (hlogs.withFi (fiStop k 3 t).fi).trans (fiStop_logsOnly k 3 t)
    · exact ⟨hnone, hlogs⟩
  exact stops.2

/-! ## A recovery begins -/

/-- `t` differs from `s` at most in what a lost strait link writes: the log, slots, outputs, register words, the recovery and the links'
directions. -/
def LinkLossOnly (s t : State) : Prop :=
  t = { s with audit := t.audit, boot := t.boot, counters := t.counters, fi := t.fi, free := t.free, out := t.out, rcv := t.rcv,
               regs := t.regs, straits := t.straits }

theorem LinkLossOnly.trans {s t u : State} (h : LinkLossOnly s t) (h' : LinkLossOnly t u) : LinkLossOnly s u := by
  calc u = { t with audit := u.audit, boot := u.boot, counters := u.counters, fi := u.fi, free := u.free, out := u.out, rcv := u.rcv,
                    regs := u.regs, straits := u.straits } := h'
    _ = { s with audit := u.audit, boot := u.boot, counters := u.counters, fi := u.fi, free := u.free, out := u.out, rcv := u.rcv,
                 regs := u.regs, straits := u.straits } := by rw [h]

theorem LinkLossOnly.wire {s t : State} (h : LinkLossOnly s t) : t.wire = s.wire := by rw [LinkLossOnly] at h; rw [h]

theorem LogsOnly.linkLoss {s t : State} {f : SMap FiSlot} {r : Rcv} {d : SMap StraitDir}
    (h : LogsOnly { s with fi := f, rcv := r, straits := d } t) : LinkLossOnly s t := by
  obtain ⟨rfl, rfl, rfl⟩ : t.fi = f ∧ t.rcv = r ∧ t.straits = d := ⟨h.fi, h.rcv, h.straits⟩
  exact h

/-- What a recovery that begins marks (17 R407, R431): it runs, and one that ran makes it a double fault. -/
def recoveringSince (r : Rcv) (since : Nat) : Rcv := { r with recovering := true, double := r.double || r.recovering, since := since }

/-- With no slot active, a recovery that begins marks itself and raises its alert. -/
theorem beginRecovery_logsOnly {s : State} (h : ∀ k < 8, (fiGet s k).state ≠ .active) :
    ∃ since, LogsOnly { s with rcv := recoveringSince s.rcv since } (beginRecovery s) := by
  cases hr : s.rcv.recovering with
  | true =>
    refine ⟨s.rcv.since, ?_⟩
    have hrcv : recoveringSince s.rcv s.rcv.since = { s.rcv with double := true } := by
      simp [recoveringSince, hr]
    rw [beginRecovery, if_pos hr, hrcv]
    exact alert_logsOnly ..
  | false =>
    refine ⟨s.time, ?_⟩
    have hrcv : recoveringSince s.rcv s.time = { s.rcv with recovering := true, since := s.time } := by
      simp [recoveringSince, hr]
    have halert := alert_logsOnly 3 { s with rcv := { s.rcv with recovering := true, since := s.time } }
    rw [beginRecovery, if_neg (by rw [hr]; decide), hrcv, fiSuspend_of_inactive]
    · exact halert
    · intro k hk
      rw [fiGet, halert.fi]
      exact h k hk

/-! ## Flits that go again over the alternate route (01 R24) -/

/-- The flits that wait on direction `d` of link `l` sent over the alternate route. -/
def rerouteDir (l d : Nat) (s : State) : State :=
  match mlook s.straits (2 * l + d) with
  | none => s
  | some x => x.pending.foldl (fun s q => emit (.flitSent l (d = 1) (BitVec.ofNat 32 q.1) true) s)
      { s with straits := mput s.straits (2 * l + d) { x with pending := [] } }

theorem reroute_cons (l : Nat) (ls : List Nat) (s : State) : reroute (l :: ls) s = reroute ls (rerouteDir l 1 (rerouteDir l 0 s)) := rfl

theorem foldl_emit_logsOnly {α : Type} (f : α → Out) (l : List α) (s : State) : LogsOnly s (l.foldl (fun s q => emit (f q) s) s) :=
  List.foldlRecOn (motive := LogsOnly s) _ _ (.refl s) fun _ h _ _ => h.trans (emit_logsOnly ..)

theorem rerouteDir_of_none {l d : Nat} {s : State} (h : mlook s.straits (2 * l + d) = none) : rerouteDir l d s = s := by
  simp only [rerouteDir, h]

theorem rerouteDir_of_some {l d : Nat} {s : State} {x : StraitDir} (h : mlook s.straits (2 * l + d) = some x) :
    LogsOnly { s with straits := mput s.straits (2 * l + d) { x with pending := [] } } (rerouteDir l d s) := by
  simp only [rerouteDir, h]
  exact foldl_emit_logsOnly (fun q : Nat × Nat => .flitSent l (d = 1) (BitVec.ofNat 32 q.1) true) ..

theorem rerouteDir_logsOnly (l d : Nat) (s : State) : LogsOnly { s with straits := (rerouteDir l d s).straits } (rerouteDir l d s) := by
  cases h : mlook s.straits (2 * l + d) with
  | none => rw [rerouteDir_of_none h]; rfl
  | some x =>
    have hsent := rerouteDir_of_some h
    rw [hsent.straits]
    exact hsent

/-- Rerouting writes the directions of its links and sends. -/
theorem reroute_logsOnly (ls : List Nat) (s : State) : LogsOnly { s with straits := (reroute ls s).straits } (reroute ls s) := by
  induction ls generalizing s with
  | nil => rfl
  | cons l ls ih =>
    have hdirs : LogsOnly { s with straits := (rerouteDir l 1 (rerouteDir l 0 s)).straits } (rerouteDir l 1 (rerouteDir l 0 s)) :=
      ((rerouteDir_logsOnly l 0 s).withStraits _).trans (rerouteDir_logsOnly l 1 _)
    rw [reroute_cons]
    exact (hdirs.withStraits _).trans (ih _)

theorem mget_of_mlook_none {α : Type} {d : α} {m : SMap α} {k : Nat} (h : mlook m k = none) : mget d m k = d := by
  induction m with
  | nil => rfl
  | cons p m ih =>
    obtain ⟨j, v⟩ := p
    by_cases hj : j = k
    · simp [mlook, hj] at h
    · rw [mget, if_neg hj]
      rw [mlook, if_neg hj] at h
      exact ih h

/-- No flit of the direction waits any more. -/
theorem rerouteDir_pending (l : Nat) (dir : Bool) (s : State) : (dirGet (rerouteDir l dir.toNat s) l dir).pending = [] := by
  cases h : mlook s.straits (2 * l + dir.toNat) with
  | none => rw [rerouteDir_of_none h, dirGet, mget_of_mlook_none h]; rfl
  | some x => rw [dirGet, (rerouteDir_of_some h).straits, mget_mput, if_pos rfl]

/-- The other direction stands. -/
theorem rerouteDir_dirGet_ne {l : Nat} {dir dir' : Bool} (hne : dir ≠ dir') (s : State) :
    dirGet (rerouteDir l dir'.toNat s) l dir = dirGet s l dir := by
  have hkey : 2 * l + dir.toNat ≠ 2 * l + dir'.toNat := by
    cases dir <;> cases dir' <;> simp_all
  cases h : mlook s.straits (2 * l + dir'.toNat) with
  | none => rw [rerouteDir_of_none h]
  | some x => rw [dirGet, (rerouteDir_of_some h).straits, mget_mput, if_neg hkey]; rfl

theorem reroute_link_pending (l : Nat) (dir : Bool) (s : State) : (dirGet (reroute [l] s) l dir).pending = [] := by
  rw [reroute_cons]
  cases dir with
  | true => exact rerouteDir_pending l true _
  | false =>
    refine (congrArg StraitDir.pending (rerouteDir_dirGet_ne (dir' := true) Bool.false_ne_true _)).trans ?_
    exact rerouteDir_pending l false s

/-! ## A strait link is lost (17 R407, 01 R24) -/

theorem straitWorks_link_lt {s : State} {l : Nat} (h : straitWorks s l = true) : l < 46 ∧ straitLinkDown s l = false := by
  simp only [straitWorks, Bool.and_eq_true, decide_eq_true_eq, Bool.not_eq_true'] at h
  exact h.1

/-- A fault that is detected and logged while no slot is active. -/
theorem recoveryLogged_linkLoss {s : State} (h : ∀ k < 8, (fiGet s k).state ≠ .active) (cls target : Nat) (code : W16) (sid : W32) :
    LinkLossOnly s (auditRecovery cls target code sid (beginRecovery s)) ∧
      (auditRecovery cls target code sid (beginRecovery s)).fi = s.fi ∧
      ∃ since, (auditRecovery cls target code sid (beginRecovery s)).rcv = recoveringSince s.rcv since := by
  obtain ⟨since, hbegin⟩ := beginRecovery_logsOnly h
  have hlogged := hbegin.trans (auditRecovery_logsOnly cls target code sid _)
  exact ⟨hlogged.linkLoss, hlogged.fi, since, hlogged.rcv⟩

/-- The flits of a link go again and slots that aim at what is lost stop, while no slot holds an item. -/
theorem linkLeft_linkLoss {s : State} (h : HoldsNone s) (l : Nat) :
    LinkLossOnly s (fiLostCheck (reroute [l] s)) ∧ (fiLostCheck (reroute [l] s)).rcv = s.rcv ∧
      ∀ dir, (dirGet (fiLostCheck (reroute [l] s)) l dir).pending = [] := by
  have hroute := reroute_logsOnly [l] s
  have hstop := fiLostCheck_logsOnly (h.of_fi hroute.fi)
  refine ⟨hroute.linkLoss.trans hstop.linkLoss, hstop.rcv.trans hroute.rcv, fun dir => ?_⟩
  rw [dirGet, hstop.straits]
  exact reroute_link_pending l dir s

/-- A working link that is lost is marked, a recovery begins, and none of its flits waits. -/
theorem straitLinkLost_quiet {s : State} {l : Nat} (hq : Quiet s) (hw : straitWorks s l = true) :
    LinkLossOnly s (straitLinkLost l s) ∧
      (∃ since, (straitLinkLost l s).rcv = recoveringSince { s.rcv with links := nadd s.rcv.links l } since) ∧
      ∀ dir, (dirGet (straitLinkLost l s) l dir).pending = [] := by
  obtain ⟨hl, hup⟩ := straitWorks_link_lt hw
  obtain ⟨hlogged, hfi, since, hrcv⟩ := recoveryLogged_linkLoss
    (s := { s with rcv := { s.rcv with links := nadd s.rcv.links l } }) (fun k hk => (hq.2 k hk).1) (faultClass 0) l cOk 0
  obtain ⟨hleft, hleftRcv, hpending⟩ := linkLeft_linkLoss (hq.holdsNone.of_fi hfi) l
  rw [straitLinkLost, if_neg (by simp [hup, hl])]
  have hmarked : LinkLossOnly s { s with rcv := { s.rcv with links := nadd s.rcv.links l } } := rfl
  exact ⟨(hmarked.trans hlogged).trans hleft, ⟨since, hleftRcv.trans hrcv⟩, hpending⟩

/-! ## A flit leaves its sender and reaches its receiver (01 R24, 19 R455) -/

/-- A grant is counted, where it is, and nothing else. -/
theorem flitGrant_counters (h l tc : Nat) (s : State) : flitGrant h l tc s = { s with counters := (flitGrant h l tc s).counters } := by
  unfold flitGrant
  split
  · rfl
  · split <;> rfl

/-- An acknowledgement that leaves takes a grant of class 0. -/
theorem flitOut_ack (l : Nat) (dir : Bool) (q tc : Nat) (s : State) :
    flitOut l dir q tc true s = flitGrant (flitEnds l dir).1 l 0 s := by
  simp only [flitOut, if_true]

/-- A flit that leaves waits in the replay buffer and is counted. -/
theorem flitOut_stores (l : Nat) (dir : Bool) (q tc : Nat) (ackF : Bool) (s : State) :
    flitOut l dir q tc ackF s =
      { s with straits := (flitOut l dir q tc ackF s).straits, counters := (flitOut l dir q tc ackF s).counters } := by
  unfold flitOut
  dsimp only
  split
  · rw [flitGrant_counters]
  · split
    · rw [flitGrant_counters]; rfl
    · rfl

theorem flitOut_quiet {s : State} (h : Quiet s) (l : Nat) (dir : Bool) (q tc : Nat) (ackF : Bool) : Quiet (flitOut l dir q tc ackF s) := by
  rw [flitOut_stores]
  exact h

theorem flitOut_straitWorks (s : State) (l : Nat) (dir : Bool) (q tc : Nat) (ackF : Bool) (k : Nat) :
    straitWorks (flitOut l dir q tc ackF s) k = straitWorks s k := by
  rw [flitOut_stores]
  rfl

/-- With no fault injected a flit over a working link leaves its sender and reaches its receiver as it is. -/
theorem exec_straitFlit_quiet {s : State} {link : BitVec 6} (hq : Quiet s) (hw : straitWorks s link.toNat = true) (dir : Bool) (lsn : W32)
    (tc : BitVec 2) (ackF : Bool) (errs : List SymErr) :
    exec (.straitFlit link dir lsn tc ackF errs) s =
      .next (settle (flitIn link.toNat dir lsn.toNat ackF errs (flitOut link.toNat dir lsn.toNat tc.toNat ackF s))) := by
  have hrow : straitFlit link dir lsn tc ackF errs s =
      arrive (.straitFlit link dir lsn tc ackF errs) (flitOut link.toNat dir lsn.toNat tc.toNat ackF s) := if_pos hw
  rw [arrive_quiet (flitOut_quiet hq ..)] at hrow
  exact congrArg Host.Outcome.next hrow

section
variable {s : State} {l : Nat} (hw : straitWorks s l = true) (dir : Bool) (q : Nat) (ackF : Bool) {errs : List SymErr}
include hw

theorem flitIn_of_clean (h : decodeErrs errs = .corrected []) : flitIn l dir q ackF errs s = flitTaken l dir q ackF s := by
  simp [flitIn, hw, h]

theorem flitIn_of_corrected {ps : List Nat} (h : decodeErrs errs = .corrected ps) (hps : ps ≠ []) :
    flitIn l dir q ackF errs s = flitTaken l dir q ackF
      (intRecord (flitEnds l dir).2 (ceRecord 2 l 3 q ps) (bump (flitCnt (flitEnds l dir).2 l 0) 1 s)) := by
  cases ps with
  | nil => exact absurd rfl hps
  | cons p ps => simp [flitIn, hw, h]

theorem flitIn_of_failed (h : decodeErrs errs = .failed) :
    flitIn l dir q ackF errs s = intRecord (flitEnds l dir).2 (ueRecord 4 2 l 3 q) (bump (flitCnt (flitEnds l dir).2 l 1) 1 s) := by
  simp [flitIn, hw, h]
end

@[simp] theorem dirPut_wire (l : Nat) (dir : Bool) (x : StraitDir) (s : State) : (dirPut l dir x s).wire = s.wire := rfl

/-- A flit that carries data is taken in order, acknowledged again, or left, as its number says. -/
theorem flitTaken_data (l : Nat) (dir : Bool) (q : Nat) (s : State) : flitTaken l dir q false s =
    if lsnAhead (dirGet s l dir) q = 0 then
      emit (.flitAck l dir (BitVec.ofNat 32 q)) (dirPut l dir { dirGet s l dir with next := (q + 1) % 2 ^ 32 } s)
    else if 2 ^ 31 ≤ lsnAhead (dirGet s l dir) q then emit (.flitAck l dir (BitVec.ofNat 32 q)) s else s := if_neg Bool.false_ne_true

theorem flitTaken_next {s : State} {l : Nat} {dir : Bool} {q : Nat} (h : lsnAhead (dirGet s l dir) q = 0) :
    flitTaken l dir q false s =
      emit (.flitAck l dir (BitVec.ofNat 32 q)) (dirPut l dir { dirGet s l dir with next := (q + 1) % 2 ^ 32 } s) := by
  rw [flitTaken_data, if_pos h]

/-- A number half the range ahead is one behind, and so not the next. -/
theorem lsnAhead_ne_zero {x : StraitDir} {q : Nat} (h : 2 ^ 31 ≤ lsnAhead x q) : lsnAhead x q ≠ 0 := by
  generalize lsnAhead x q = n at h
  omega

theorem flitTaken_repeat {s : State} {l : Nat} {dir : Bool} {q : Nat} (h : 2 ^ 31 ≤ lsnAhead (dirGet s l dir) q) :
    flitTaken l dir q false s = emit (.flitAck l dir (BitVec.ofNat 32 q)) s := by
  rw [flitTaken_data, if_neg (lsnAhead_ne_zero h), if_pos h]

/-- An acknowledgement frees what it names, on the other direction. -/
theorem flitTaken_ack (l : Nat) (dir : Bool) (q : Nat) (s : State) : flitTaken l dir q true s =
    dirPut l (!dir) { dirGet s l (!dir) with pending := mdel (dirGet s l (!dir)).pending q } s := rfl

theorem flitTaken_wire (l : Nat) (dir : Bool) (q : Nat) (ackF : Bool) (s : State) : (flitTaken l dir q ackF s).wire = s.wire := by
  cases ackF with
  | true => rw [flitTaken_ack, dirPut_wire]
  | false => rw [flitTaken_data]; simp only [apply_ite State.wire, emit_wire, dirPut_wire, ite_self]

@[simp] theorem alert_wire (k : Nat) (s : State) : (alert k s).wire = s.wire := (alert_logsOnly k s).wire

@[simp] theorem satBump_wire (off : Nat) (s : State) : (satBump off s).wire = s.wire := by
  simp [satBump, apply_ite State.wire]

/-- An integrity record puts nothing on its way. -/
theorem intRecord_wire (h : Nat) (r : IntRec) (s : State) : (intRecord h r s).wire = s.wire := by
  simp [intRecord, apply_ite State.wire]

/-! ## One symbol in error (19 R453, Table 19.2) -/

theorem errorSum_single {e : SymErr} (hbits : e.bits ≠ 0) (hpos : e.pos.toNat ≤ 38) : errorSum [e] = [e] := by
  rw [errorSum, List.filter_cons_of_pos (by rw [decide_eq_true hpos, decide_eq_true hbits]; rfl)]
  rfl

theorem filter_range_eq {n p : Nat} (h : p < n) : (List.range n).filter (fun k => decide (k = p)) = [p] := by
  rw [List.filter_eq, List.count_range, if_pos h, List.replicate_one]

theorem errorPlaces_single {e : SymErr} (hbits : e.bits ≠ 0) (hpos : e.pos.toNat ≤ 38) : errorPlaces [e] = [e.pos.toNat] := by
  rw [errorPlaces, errorSum_single hbits hpos]
  simp only [List.any_cons, List.any_nil, Bool.or_false, eq_comm (a := e.pos.toNat)]
  exact filter_range_eq (by omega)

/-- One stored symbol is corrected; one of the address is not. -/
theorem decodeErrs_single {e : SymErr} (hbits : e.bits ≠ 0) (hpos : e.pos.toNat ≤ 38) :
    decodeErrs [e] = if e.pos.toNat = 32 ∨ e.pos.toNat = 33 then .failed else .corrected [e.pos.toNat] := by
  unfold decodeErrs
  rw [errorPlaces_single hbits hpos]
  simp [eq_comm (b := e.pos.toNat)]

/-! ## A flit goes again (19 R455) -/

section
variable {s : State} {link : BitVec 6} (hw : straitWorks s link.toNat = true) {dir : Bool} {lsn : W32} {n : Nat}
  (hn : mlook (dirGet s link.toNat dir).pending lsn.toNat = some n)
include hw hn

theorem flitResend_again (h : n < 8) : flitResend link.toNat dir lsn.toNat s = emit (.flitSent link.toNat dir lsn false)
    (dirPut link.toNat dir { dirGet s link.toNat dir with pending := mput (dirGet s link.toNat dir).pending lsn.toNat (n + 1) } s) := by
  simp [flitResend, hw, hn, Nat.not_le.2 h]

theorem flitResend_spent (h : 8 ≤ n) : flitResend link.toNat dir lsn.toNat s = straitLinkLost link.toNat s := by
  simp [flitResend, hw, hn, h]
end

/-! ## The clauses of StraitFlitsPass -/

section
variable {s : State} {link : BitVec 6} (hq : Quiet s) (hw : straitWorks s link.toNat = true) (dir : Bool) (lsn : W32) (tc : BitVec 2)
  {errs : List SymErr}
include hq hw

/-- What arrives is what the receiver makes of the flit, where that puts nothing on its way. -/
theorem exec_straitFlit_of_flitIn {ackF : Bool} {t : State}
    (h : flitIn link.toNat dir lsn.toNat ackF errs (flitOut link.toNat dir lsn.toNat tc.toNat ackF s) = t)
    (hwire : t.wire = (flitOut link.toNat dir lsn.toNat tc.toNat ackF s).wire) :
    exec (.straitFlit link dir lsn tc ackF errs) s = .next t := by
  rw [exec_straitFlit_quiet hq hw, h, settle_nil (hwire.trans (flitOut_quiet hq ..).1)]

theorem exec_straitFlit_clean (h : decodeErrs errs = .corrected []) :
    exec (.straitFlit link dir lsn tc false errs) s =
      .next (flitTaken link.toNat dir lsn.toNat false (flitOut link.toNat dir lsn.toNat tc.toNat false s)) :=
  exec_straitFlit_of_flitIn hq hw dir lsn tc (flitIn_of_clean ((flitOut_straitWorks ..).trans hw) dir _ _ h) (flitTaken_wire ..)

theorem exec_straitFlit_corrected {ps : List Nat} (h : decodeErrs errs = .corrected ps) (hps : ps ≠ []) :
    exec (.straitFlit link dir lsn tc false errs) s =
      .next (flitTaken link.toNat dir lsn.toNat false (intRecord (flitEnds link.toNat dir).2 (ceRecord 2 link.toNat 3 lsn.toNat ps)
        (bump (flitCnt (flitEnds link.toNat dir).2 link.toNat 0) 1 (flitOut link.toNat dir lsn.toNat tc.toNat false s)))) :=
  exec_straitFlit_of_flitIn hq hw dir lsn tc (flitIn_of_corrected ((flitOut_straitWorks ..).trans hw) dir _ _ h hps)
    ((flitTaken_wire ..).trans ((intRecord_wire ..).trans (bump_wire ..)))

theorem exec_straitFlit_failed (h : decodeErrs errs = .failed) :
    exec (.straitFlit link dir lsn tc false errs) s =
      .next (intRecord (flitEnds link.toNat dir).2 (ueRecord 4 2 link.toNat 3 lsn.toNat)
        (bump (flitCnt (flitEnds link.toNat dir).2 link.toNat 1) 1 (flitOut link.toNat dir lsn.toNat tc.toNat false s))) :=
  exec_straitFlit_of_flitIn hq hw dir lsn tc (flitIn_of_failed ((flitOut_straitWorks ..).trans hw) dir _ _ h)
    ((intRecord_wire ..).trans (bump_wire ..))

theorem exec_straitFlit_ack :
    exec (.straitFlit link dir lsn tc true []) s =
      .next (flitTaken link.toNat dir lsn.toNat true (flitOut link.toNat dir lsn.toNat tc.toNat true s)) :=
  exec_straitFlit_of_flitIn hq hw dir lsn tc (flitIn_of_clean ((flitOut_straitWorks ..).trans hw) dir _ _ rfl) (flitTaken_wire ..)

/-- A lost link settles as it is: nothing was on its way, and the loss puts nothing there. -/
theorem exec_straitLinkLost_quiet : exec (.straitLinkLost link) s = .next (straitLinkLost link.toNat s) :=
  congrArg Host.Outcome.next (settle_nil ((straitLinkLost_quiet hq hw).1.wire.trans hq.1))

theorem exec_flitResend_again {n : Nat} (hn : mlook (dirGet s link.toNat dir).pending lsn.toNat = some n) (h : n < 8) :
    exec (.flitResend link dir lsn) s = .next (emit (.flitSent link.toNat dir lsn false)
      (dirPut link.toNat dir { dirGet s link.toNat dir with pending := mput (dirGet s link.toNat dir).pending lsn.toNat (n + 1) } s)) := by
  refine congrArg Host.Outcome.next ?_
  rw [flitResend_again hw hn h]
  exact settle_nil hq.1
end

/-- A flit given up loses its link. -/
theorem exec_flitResend_spent {s : State} {link : BitVec 6} (hw : straitWorks s link.toNat = true) {dir : Bool} {lsn : W32} {n : Nat}
    (hn : mlook (dirGet s link.toNat dir).pending lsn.toNat = some n) (h : 8 ≤ n) :
    exec (.flitResend link dir lsn) s = exec (.straitLinkLost link) s :=
  congrArg (fun t => Host.Outcome.next (settle t)) (flitResend_spent hw hn h)

/-- Settles O41: with no fault injected a flit reaches its receiver as it left, and each outcome of the decoder has its lemma. That a
sequence number counts modulo 2^32, that half the range behind is a repeat, that links work from stage 5 and that an acknowledgement is by
link and direction is the model's choice, deduced (notes/assumptions/115.md). -/
theorem straitFlitsPass : Obligations.StraitFlitsPass := by
  intro s link dir lsn tc hq hw
  refine ⟨fun errs => ⟨fun hdec => ⟨fun hnext => ?_, fun hrep => ?_⟩, fun ps hdec hps => ?_, fun hdec => ?_⟩, ?_,
    fun e hbits hpos => decodeErrs_single hbits hpos, fun n hn => ⟨exec_flitResend_again hq hw dir lsn hn, exec_flitResend_spent hw hn⟩, ?_⟩
  · rw [exec_straitFlit_clean hq hw dir lsn tc hdec, flitTaken_next hnext, BitVec.ofNat_toNat, BitVec.setWidth_eq]
  · rw [exec_straitFlit_clean hq hw dir lsn tc hdec, flitTaken_repeat hrep, BitVec.ofNat_toNat, BitVec.setWidth_eq]
  · exact exec_straitFlit_corrected hq hw dir lsn tc hdec hps
  · exact exec_straitFlit_failed hq hw dir lsn tc hdec
  · refine ⟨_, exec_straitFlit_ack hq hw dir lsn tc, ?_, ?_⟩
    · rw [flitTaken_ack, flitOut_ack, flitGrant_counters]
      rfl
    · rw [flitTaken_ack, flitOut_ack, flitGrant_counters]
      rfl
  · obtain ⟨honly, ⟨since, hrcv⟩, hpending⟩ := straitLinkLost_quiet hq hw
    refine ⟨_, exec_straitLinkLost_quiet hq hw, ?_, ?_, ?_, hpending dir, honly⟩
    · rw [hrcv]
      exact nmem_nadd ..
    · rw [hrcv]; rfl
    · rw [hrcv]; rfl

end Sys2Proof.Machine

namespace Sys2Proof.Machine

/-! ## Boot stages that work -/

theorem bootWorks_stage {s : State} {n : Nat} (h : bootWorks s n = true) : s.boot.stage = n := by
  simp only [bootWorks, Bool.and_eq_true, decide_eq_true_eq] at h
  exact h.2

/-! ## Dies that fail a boot stage (23 R524)

A stage's command names the dies that failed by the bits of a word. -/

theorem bit_eq_testBit (v i : Nat) : bit v i = v.testBit i := Nat.testBit_eq_decide_div_mod_eq.symm

/-- No die fails where the word is 0. -/
theorem filter_bit_zero (n : Nat) : (List.range n).filter (bit 0) = [] := by
  simp [bit_eq_testBit]

/-- Marking bits one after the other sets those bits. -/
theorem getLsbD_foldl_mark {n : Nat} (l : List Nat) (w : BitVec n) (i : Nat) :
    (l.foldl (fun w k => w ||| (1#n <<< k)) w).getLsbD i = (w.getLsbD i || (decide (i < n) && decide (i ∈ l))) := by
  induction l generalizing w with
  | nil => simp
  | cons k l ih =>
    have hk : (1#n <<< k).getLsbD i = (decide (i < n) && decide (i = k)) :=
      (BitVec.getLsbD_twoPow ..).trans (by grind)
    rw [List.foldl_cons, ih, BitVec.getLsbD_or, hk]
    simp only [List.mem_cons, Bool.decide_or, Bool.and_or_distrib_left, Bool.or_assoc]

/-- The marks of the failed dies, one after the other, are the word's bits. -/
theorem foldl_mark_failed {n : Nat} (w failed : BitVec n) :
    ((List.range n).filter (bit failed.toNat)).foldl (fun w k => w ||| (1#n <<< k)) w = w ||| failed := by
  refine BitVec.eq_of_getLsbD_eq fun i hi => ?_
  rw [getLsbD_foldl_mark, BitVec.getLsbD_or]
  simp [hi, bit_eq_testBit, BitVec.getLsbD]

/-- Lost islands marked one after the other change nothing else. -/
theorem foldl_lose_islands (l : List Nat) (s : State) :
    l.foldl (fun (s : State) k => { s with rcv := { s.rcv with islands := s.rcv.islands ||| (1#16 <<< k) } }) s =
      { s with rcv := { s.rcv with islands := l.foldl (fun w k => w ||| (1#16 <<< k)) s.rcv.islands } } := by
  induction l generalizing s with
  | nil => rfl
  | cons k l ih => rw [List.foldl_cons, ih]; rfl

/-! ## Stage 1 (23 R532) -/

theorem bootRom_works {s : State} (h : bootWorks s 1 = true) :
    bootRom s = toStage 2 (domainsOn [76, 77, 78, 79] { s with boot := { s.boot with m0 := Config.romDigest, identity := sha3 (ownKey s) } }) := by
  simp only [bootRom, h, Bool.not_true, Bool.false_eq_true, if_false]

/-! ## Stage 2 (23 R524-R528) -/

/-- The image in a slot passes R525, the verdicts of both signatures given. -/
def fwPasses (s : State) (sigA sigB b : Bool) : Bool := fwOk s (fwImage s b) (if b then sigB else sigA)

/-- The state with the boot control that the choice of a slot leaves: a trial is counted. -/
def fwTried (s : State) : State := if (bootCtl s).trial then bootCtlSet (fwChoice (bootCtl s)) s else s

theorem areaWrite_flash (base n at_ : Nat) (new : List Byte) (s : State) :
    areaWrite base n at_ new s = { s with flash := (areaWrite base n at_ new s).flash } := by
  unfold areaWrite
  split <;> rfl

theorem fwTried_flash (s : State) : fwTried s = { s with flash := (fwTried s).flash } := by
  unfold fwTried
  split
  · exact areaWrite_flash ..
  · rfl

section
variable {s : State} (hw : bootWorks s 2 = true) (hs : s.boot.stuck = false) {sigA sigB : Bool} (listSig pendingSig : Bool)
include hw hs

/-- The chosen slot runs where its image passes. -/
theorem bootFirmware_chosen (h : fwPasses s sigA sigB (fwChoice (bootCtl s)).slotB = true) :
    bootFirmware sigA sigB listSig pendingSig s =
      firmwareRuns (fwChoice (bootCtl s)).slotB (fwChoice (bootCtl s)).trial listSig pendingSig (fwTried s) := by
  rw [fwPasses] at h
  rw [bootFirmware, if_neg (by simp [hw, hs]), if_pos h, fwTried]

/-- The other slot runs, and not as a trial, where only its image passes. -/
theorem bootFirmware_other (h : fwPasses s sigA sigB (fwChoice (bootCtl s)).slotB = false)
    (h' : fwPasses s sigA sigB (!(fwChoice (bootCtl s)).slotB) = true) :
    bootFirmware sigA sigB listSig pendingSig s =
      firmwareRuns (!(fwChoice (bootCtl s)).slotB) false listSig pendingSig (fwTried s) := by
  rw [fwPasses] at h h'
  rw [bootFirmware, if_neg (by simp [hw, hs]), if_neg (Bool.eq_false_iff.1 h), if_pos h', fwTried]

/-- Where neither image passes the device is stuck. -/
theorem bootFirmware_stuck (h : fwPasses s sigA sigB (fwChoice (bootCtl s)).slotB = false)
    (h' : fwPasses s sigA sigB (!(fwChoice (bootCtl s)).slotB) = false) :
    bootFirmware sigA sigB listSig pendingSig s =
      alertEdge (fwTried s) { fwTried s with boot := { (fwTried s).boot with stuck := true } } := by
  rw [fwPasses] at h h'
  rw [bootFirmware, if_neg (by simp [hw, hs]), if_neg (Bool.eq_false_iff.1 h), if_neg (Bool.eq_false_iff.1 h'), fwTried]
end

/-- An image that runs ends stage 2 in its slot. -/
theorem firmwareRuns_ends (slot trial listSig pendingSig : Bool) (s : State) :
    ∃ t, firmwareRuns slot trial listSig pendingSig s = toStage 3 t ∧ t.boot.slot = some slot.toNat := by
  unfold firmwareRuns
  dsimp only
  exact ⟨_, rfl, rfl⟩

theorem alertEdge_boot (before after : State) : (alertEdge before after).boot = after.boot := by
  unfold alertEdge
  split <;> rfl

theorem alertN_alertEdge (before after : State) : alertN (alertEdge before after) = alertN after := by
  unfold alertEdge
  split <;> rfl

/-- A device that is stuck at stage 2 asserts ALERT_N once POR_N is released. -/
theorem bootFirmware_stuck_alerts {s : State} (hw : bootWorks s 2 = true) (hs : s.boot.stuck = false) {sigA sigB : Bool}
    (listSig pendingSig : Bool) (h : fwPasses s sigA sigB (fwChoice (bootCtl s)).slotB = false)
    (h' : fwPasses s sigA sigB (!(fwChoice (bootCtl s)).slotB) = false) :
    (bootFirmware sigA sigB listSig pendingSig s).boot.stuck = true ∧ (bootFirmware sigA sigB listSig pendingSig s).boot.stage = 2 ∧
      (s.pins.porN = true → alertN (bootFirmware sigA sigB listSig pendingSig s) = true) := by
  have hboot : (fwTried s).boot = s.boot := by rw [fwTried_flash]
  have hpins : (fwTried s).pins = s.pins := by rw [fwTried_flash]
  rw [bootFirmware_stuck hw hs listSig pendingSig h h', alertEdge_boot, alertN_alertEdge]
  refine ⟨rfl, ?_, fun hpor => ?_⟩
  · rw [hboot, bootWorks_stage hw]
  · simp [alertN, hpins, hpor]

/-! ## Stages 3 and 4 (23 R523, R524, R531) -/

/-- Training of a cold boot marks the stacks that fail and clears the device's own areas. -/
theorem hbmTraining_cold {s : State} (hw : bootWorks s 3 = true) (hs : s.rcv.served = false) (failed : W16) :
    hbmTraining failed.toNat s = toStage 4 (domainsOn ((List.range 16).map (4 * · + 3))
      { s with rcv := { s.rcv with islands := s.rcv.islands ||| failed }, mem := s.mem.filter (fun p => !ownArea p.1),
               poison := s.poison.filter (fun p => !ownArea p.1) }) := by
  rw [hbmTraining, if_neg (by simp [hw]), if_neg (by simp [hs]), foldl_lose_islands, foldl_mark_failed]

/-- Training of a warm reset in which no stack fails clears nothing. -/
theorem hbmTraining_warm {s : State} (hw : bootWorks s 3 = true) (hs : s.rcv.served = true) : hbmTraining 0 s = toStage 4 s := by
  rw [hbmTraining, if_neg (by simp [hw]), if_pos hs, filter_bit_zero, List.foldl_nil]

/-- Strait training of a cold boot marks the dies that fail, starts the links anew and writes the route table. -/
theorem straitTraining_cold {s : State} (hw : bootWorks s 4 = true) (hs : s.rcv.served = false) (failed harbours : BitVec 4) :
    straitTraining failed.toNat harbours.toNat s = toStage 5 (domainsOn ((List.range 4).map (64 + ·))
      { s with straits := [], boot := { s.boot with routes := routeTable },
               rcv := { s.rcv with straits := s.rcv.straits ||| failed, harbours := s.rcv.harbours ||| harbours } }) := by
  rw [straitTraining, if_neg (by simp [hw]), if_neg (by simp [hs]), foldl_mark_failed, foldl_mark_failed]

theorem straitTraining_warm {s : State} (hw : bootWorks s 4 = true) (hs : s.rcv.served = true) :
    straitTraining 0 0 s = toStage 5 { s with straits := [], boot := { s.boot with routes := routeTable } } := by
  rw [straitTraining, if_neg (by simp [hw]), if_pos hs, filter_bit_zero, List.foldl_nil, List.foldl_nil]

/-- A stage that puts nothing on its way settles as it is. -/
theorem exec_hbmTraining_of_eq {s t : State} {failed : W16} (hwire : s.wire = []) (h : hbmTraining failed.toNat s = t)
    (ht : t.wire = s.wire) : exec (.hbmTraining failed) s = .next t := by
  subst h
  exact congrArg Host.Outcome.next (settle_nil (ht.trans hwire))

theorem exec_straitTraining_of_eq {s t : State} {failed harbours : BitVec 4} (hwire : s.wire = [])
    (h : straitTraining failed.toNat harbours.toNat s = t) (ht : t.wire = s.wire) : exec (.straitTraining failed harbours) s = .next t := by
  subst h
  exact congrArg Host.Outcome.next (settle_nil (ht.trans hwire))

/-- Settles O46: each stage's command has a lemma for each of its outcomes. That strait training writes the whole route table whatever has
been lost is the model's choice, deduced (notes/assumptions/116.md). -/
theorem bootReachesStageFive : Obligations.BootReachesStageFive := by
  intro s hwire
  refine ⟨fun hw => ?_, fun hw hs sigA sigB listSig pendingSig => ⟨fun hok => ?_, fun hbad hok => ?_, fun hbad hbad' => ?_, ?_⟩,
    fun hw failed => ⟨fun hs => ?_, fun hs => ?_⟩, fun hw failed harbours => ⟨fun hs => ?_, fun hs => ?_⟩, fun n v => ⟨rfl, rfl, rfl⟩⟩
  · exact ⟨_, congrArg Host.Outcome.next (bootRom_works hw), rfl, rfl⟩
  · exact congrArg Host.Outcome.next (bootFirmware_chosen hw hs listSig pendingSig hok)
  · exact congrArg Host.Outcome.next (bootFirmware_other hw hs listSig pendingSig hbad hok)
  · exact ⟨_, rfl, bootFirmware_stuck_alerts hw hs listSig pendingSig hbad hbad'⟩
  · intro slot trial v
    obtain ⟨t, hends, hslot⟩ := firmwareRuns_ends slot trial listSig pendingSig v
    rw [hends]
    exact ⟨rfl, hslot⟩
  · refine ⟨_, exec_hbmTraining_of_eq hwire (hbmTraining_cold hw hs failed) rfl, ?_⟩
    exact ⟨rfl, rfl, rfl, rfl, rfl⟩
  · exact exec_hbmTraining_of_eq hwire (hbmTraining_warm hw hs) rfl
  · refine ⟨_, exec_straitTraining_of_eq hwire (straitTraining_cold hw hs failed harbours) rfl, ?_⟩
    exact ⟨rfl, rfl, rfl, rfl, rfl, rfl⟩
  · exact exec_straitTraining_of_eq hwire (straitTraining_warm hw hs) rfl

end Sys2Proof.Machine

namespace Sys2Proof.Machine

/-! ## What a record of the log leaves of the stores -/

namespace LogsOnly
variable {s t : State}

theorem plt (h : LogsOnly s t) : t.plt = s.plt := by rw [LogsOnly] at h; rw [h]
theorem mem (h : LogsOnly s t) : t.mem = s.mem := by rw [LogsOnly] at h; rw [h]
theorem chans (h : LogsOnly s t) : t.chans = s.chans := by rw [LogsOnly] at h; rw [h]
theorem flash (h : LogsOnly s t) : t.flash = s.flash := by rw [LogsOnly] at h; rw [h]
end LogsOnly

theorem auditPlate_logsOnly (code : W16) (sid : W32) (ev island : Nat) (d : Digest) (s : State) :
    LogsOnly s (auditPlate code sid ev island d s) := audit_logsOnly ..

/-- Before its effect a guarded pair uses up the pending value and writes the log. -/
theorem pairBefore_logsOnly (off v : Nat) (sid : W32) (s : State) :
    LogsOnly { s with guards := mdel s.guards sid.toNat } (pairBefore off v sid s) := audit_logsOnly ..

/-! ## Store copies and power domains -/

@[simp] theorem pwrTrack_plt (s : State) : (pwrTrack s).plt = s.plt := rfl

/-- Tracking lets power domains begin to switch and changes nothing else. -/
theorem pwrTrack_eq (s : State) : pwrTrack s = { s with pwr := { s.pwr with switching := (pwrTrack s).pwr.switching } } := rfl

/-- The plate in force is read from the banks alone. -/
theorem activePlate_congr {s t : State} (h : t.plt = s.plt) : activePlate t = activePlate s := by
  simp only [activePlate, h]

theorem standbyPlate_congr {s t : State} (h : t.plt = s.plt) : standbyPlate t = standbyPlate s := by
  simp only [standbyPlate, h]

@[simp] theorem storePut_standby (p : Option Plate) (s : State) : (storePut p s).plt.standby = s.plt.standby := by
  simp only [storePut, apply_ite Plt.standby, ite_self]

@[simp] theorem storePut_load (p : Option Plate) (s : State) : (storePut p s).plt.load = s.plt.load := by
  simp only [storePut, apply_ite Plt.load, ite_self]

/-- A write of the standby copy leaves the plate in force as it was. -/
theorem storePut_activePlate (p : Option Plate) (s : State) : activePlate (storePut p s) = activePlate s := by
  cases h : s.plt.copyY <;> simp [activePlate, storePut, h]

/-- A bank whose proof runs holds the plate that was put in the standby copy. -/
theorem storePut_standbyPlate (p : Option Plate) {s : State} (h : s.plt.standby = .proofing) : standbyPlate (storePut p s) = p := by
  cases hc : s.plt.copyY <;> simp [standbyPlate, storePut, hc, h]

/-! ## PLT_CMD (02 R57, 21 R496) -/

theorem pltCheck_accessTick (s : State) (sid : W32) (cmd : Nat) : pltCheck (accessTick sid s) cmd = pltCheck s cmd := by
  unfold accessTick
  split <;> rfl

/-- PLT_CMD. -/
def pltCmdWord : RegWord := { wo := 0xF0F, right := .installer }

theorem regName_pltCmd : regName 0x00030000 = .reg pltCmdWord := rfl

/-- A code of PLT_CMD whose transition Table 2.8 lists: it is recorded, and has its effect. -/
theorem cmdWrite_pltCmd {s : State} {sid : W32} {v : Nat} (bad : Nat) (h : OpenAs s sid .installer) (hck : pltCheck s (v % 16) = cOk)
    (hv : v < 2 ^ 32) :
    cmdWrite 0x00030000 v bad sid s = cmdAfter sid (pltDo (v % 16) (v / 256 % 16) sid bad (cmdBefore 0x00030000 v sid s)) :=
  cmdWrite_told h regName_pltCmd rfl ((pltCheck_accessTick s sid _).trans hck) rfl hv (by decide)

/-! ## Loads begin (02 R58) -/

theorem pltCheck_load {s : State} (hcape : s.rcv.cape = false) (h : s.plt.standby = .empty ∨ s.plt.standby = .proofed) :
    pltCheck s 1 = cOk ∧ pltCheck s 2 = cOk := by
  simp [pltCheck, hcape, h]

/-- A load that begins writes the standby bank and its store copy, and domains begin to switch. -/
theorem loadStart_begins (cmd : Nat) (sid : W32) (b : Option (List Byte)) (s : State) :
    let t := loadStart cmd sid b s
    t.plt.standby = .loading ∧ t.plt.load = some { cmd := cmd, sid := sid, bytes := b } ∧ activePlate t = activePlate s ∧
      t = { s with plt := t.plt, pwr := { s.pwr with switching := t.pwr.switching } } := by
  refine ⟨storePut_standby .., storePut_load .., ?_, rfl⟩
  exact (activePlate_congr (pwrTrack_plt _)).trans (storePut_activePlate ..)

/-- Settles O7: both commands are codes of PLT_CMD, and both are `loadStart` with their own source. That the bank holds the source's
plate whole at the moment of the command is the model's choice, deduced (notes/assumptions/48.md). -/
theorem plateLoadsBegin : Obligations.PlateLoadsBegin := by
  intro s sid hopen hcape hstandby
  obtain ⟨hstaged, hflash⟩ := pltCheck_load hcape hstandby
  refine ⟨⟨_, congrArg Host.Outcome.next (cmdWrite_pltCmd 0 hopen hstaged (by decide)), loadStart_begins ..⟩, fun slot => ?_⟩
  have hcode : (2 + 256 * slot.toNat) % 16 = 2 := by omega
  have hslot : (2 + 256 * slot.toNat) / 256 % 16 = slot.toNat := by omega
  have hrow := cmdWrite_pltCmd (v := 2 + 256 * slot.toNat) 0 hopen (by rw [hcode]; exact hflash) (by omega)
  rw [hcode, hslot] at hrow
  exact ⟨_, congrArg Host.Outcome.next hrow, loadStart_begins ..⟩

/-! ## DISCARD, ABORT_COMMIT and PROOF_ACTIVE (02 R57, R61, R65) -/

/-- An emptied standby bank leaves the active bank as it was; domains begin to switch. -/
theorem standbyEmpty_empties (s : State) :
    let t := standbyEmpty s
    t.plt.standby = .empty ∧ t.plt.active = s.plt.active ∧ t.plt.instant = false ∧ t.plt.load = none ∧
      t = { s with plt := t.plt, pwr := { s.pwr with switching := t.pwr.switching } } := ⟨rfl, rfl, rfl, rfl, rfl⟩

/-- No channel that was released holds a descriptor across the commit instant. -/
theorem releaseHeld_holds_none (s : State) (i : Nat) (c : Chan) (h : (i, c) ∈ (releaseHeld s).chans) :
    c.fresh = false ∧ ∀ q ∈ c.journal, q.2.after = false := by
  obtain ⟨⟨k, old⟩, -, he⟩ := List.mem_map.1 h
  obtain ⟨-, rfl⟩ := Prod.mk.inj he
  refine ⟨rfl, fun q hq => ?_⟩
  obtain ⟨j, -, rfl⟩ := List.mem_map.1 hq
  split
  next => rfl
  next hafter => exact Bool.eq_false_iff.2 hafter

/-- An aborted commit leaves the banks as they were but for the standby bank's state. -/
theorem abortCommit_plt (sid : W32) (s : State) :
    (abortCommit sid s).plt = { s.plt with standby := .proofed, instant := false } := by
  simp only [abortCommit, (auditPlate_logsOnly ..).plt]
  rfl

/-- No island has its proof reported where none differs. -/
theorem proofActive_none (sid : W32) (s : State) : proofActive sid 0 s = s := by
  rw [proofActive, List.filter_eq_nil_iff.2 (fun i _ => by simp [bit_eq_testBit])]
  rfl

/-- Settles O8: each command is a code of PLT_CMD and its effect on the banks. The PLATE record's numbers 4 and 5 and its island 255 are
the model's choice (notes/assumptions/43.md), and so is the ascending order of the islands. -/
theorem plateBankCommandsAct : Obligations.PlateBankCommandsAct := by
  refine ⟨fun s sid hopen hcape => ⟨fun hstandby => ?_, fun hstandby => ?_⟩, fun s sid bad hopen hcape hactive => ?_⟩
  · have hck : pltCheck s 3 = cOk := by simp [pltCheck, hcape, hstandby]
    exact ⟨_, congrArg Host.Outcome.next (cmdWrite_pltCmd 0 hopen hck (by decide)), standbyEmpty_empties _⟩
  · have hck : pltCheck s 4 = cOk := by simp [pltCheck, hcape, hstandby]
    refine ⟨_, congrArg Host.Outcome.next (cmdWrite_pltCmd 0 hopen hck (by decide)), rfl, ?_, releaseHeld_holds_none _⟩
    exact abortCommit_plt sid _
  · have hck : pltCheck s 5 = cOk := by simp [pltCheck, hcape, hactive]
    have hrow : exec (.proofActive sid bad) s = .next (cmdAfter sid (proofActive sid bad.toNat (cmdBefore 0x00030000 5 sid s))) :=
      congrArg Host.Outcome.next (cmdWrite_pltCmd bad.toNat hopen hck (by decide))
    refine ⟨hrow, ?_⟩
    rintro rfl
    exact hrow.trans (congrArg (fun t => Host.Outcome.next (cmdAfter sid t)) (proofActive_none sid _))

/-! ## COMMIT and EVICT (02 R62, R68) -/

/-- PLT_GCMD. -/
def pltGcmdWord : RegWord := { grd := 0xF, right := .installer }

theorem regAt_pltGcmd : regAt 0x00030004 = some pltGcmdWord := rfl

/-- PLT_GCMD's own check, which the pending value is no part of. -/
theorem guardCheck_pltGcmd (s : State) (g : SMap Guard) (v : Nat) :
    guardCheck { s with guards := g } 0x00030004 v = pltGuardCheck s (v % 16) := rfl

/-- A code of PLT_GCMD that passes its check: it is recorded, and has its effect. -/
theorem pairRow_pltGcmd {s : State} {sid : W32} {v : Nat} (h : OpenAs s sid .installer) (hck : pltGuardCheck s (v % 16) = cOk) :
    pairRow 0x00030004 v sid s = pairAfter sid (pltGuardDo (v % 16) sid (pairBefore 0x00030004 v sid s)) :=
  pairRow_told h regAt_pltGcmd rfl ((guardCheck_pltGcmd ..).trans hck) rfl rfl

/-- A guarded pair that its block's check refuses uses up the pending value and answers the code. -/
theorem pairRow_refused {s : State} {sid : W32} {r : Role} {off v : Nat} {w : RegWord} {c : W16} (h : OpenAs s sid r)
    (hreg : regAt off = some w) (hmay : mayWrite r w v = true)
    (hck : guardCheck { s with guards := mdel s.guards sid.toNat } off v = c) (hc : c ≠ cOk) :
    pairRow off v sid s = settle (emit (.writeStatus sid c)
      (regRefuse c sid (regRegion + off) { s with guards := mdel s.guards sid.toNat })) := by
  have hrole : roleOf { s with guards := mdel s.guards sid.toNat } sid = r := roleOf_of_open h
  obtain ⟨x, hsess, hopened, -⟩ := h
  simp [pairRow, inSession, hsess, hopened, hreg, pairDone, hrole, hmay, hck, hc]

theorem pltGuardCheck_commit {s : State} {p : Plate} (hcape : s.rcv.cape = false) (hstandby : s.plt.standby = .proofed)
    (hp : standbyPlate s = some p) : pltGuardCheck s 1 = if inletMissing s p then cInletMissing else cOk := by
  simp [pltGuardCheck, hcape, hstandby, hp]

theorem pltGuardCheck_evict {s : State} (hcape : s.rcv.cape = false) (hactive : s.plt.active = .running)
    (hfree : ∀ c ∈ s.chans, c.2.state = .free) : pltGuardCheck s 2 = cOk := by
  have hnone : s.chans.any (fun c => decide (c.2.state ≠ .free)) = false :=
    List.any_eq_false.2 fun c hc => by simp [hfree c hc]
  simp only [pltGuardCheck, hcape, hactive, hnone]
  rfl

/-- The commit instant of a bank that holds plate `p`. -/
theorem commitStart_of_standby {s : State} {p : Plate} (sid : W32) (h : standbyPlate s = some p) :
    commitStart sid s =
      let u := auditPlate cOk sid evCommit 255 p.digest s
      { u with plt := { u.plt with standby := .committing, instant := true } } := by
  simp only [commitStart, h, Option.map_some, Option.getD_some]

/-- EVICT empties the active bank and what its plate assigned. -/
theorem evict_empties (sid : W32) (s : State) :
    let t := evict sid s
    t.plt.active = .empty ∧ activePlate t = none ∧ t.objs = [] ∧ t.lists = [] ∧ t.barriers = [] ∧ t.engines = [] ∧ t.boot.stage = 7 :=
  ⟨rfl, rfl, rfl, rfl, rfl, rfl, rfl⟩

/-- EVICT leaves memory, channels and flash as they were. -/
theorem evict_stores (sid : W32) (s : State) :
    (evict sid s).mem = s.mem ∧ (evict sid s).chans = s.chans ∧ (evict sid s).flash = s.flash := by
  have hlog := auditPlate_logsOnly cOk sid evEvict 255 (((activePlate s).map (·.digest)).getD 0) s
  rw [evict, pwrTrack_eq]
  exact ⟨hlog.mem, hlog.chans, hlog.flash⟩

/-- Settles O9: each command is a code of PLT_GCMD and its effect. That EVICT leaves no sync object, list or barrier is the model's choice
(notes/assumptions/53.md), and so are the COMMIT record's number and its island 255 (notes/assumptions/43.md). -/
theorem commitAndEvict : Obligations.CommitAndEvict := by
  intro s sid hopen hcape
  refine ⟨fun p hstandby hp hinlets => ?_, fun hactive hfree => ?_⟩
  · have hck : pltGuardCheck s 1 = cOk := by rw [pltGuardCheck_commit hcape hstandby hp, hinlets]; rfl
    have hbefore : standbyPlate (pairBefore 0x00030004 1 sid s) = some p :=
      (standbyPlate_congr (pairBefore_logsOnly ..).plt).trans hp
    exact ⟨_, congrArg Host.Outcome.next (pairRow_pltGcmd hopen hck), commitStart_of_standby sid hbefore⟩
  · have hck := pltGuardCheck_evict hcape hactive hfree
    obtain ⟨hactive', hplate, hobjs, hlists, hbarriers, hengines, hstage⟩ := evict_empties sid (pairBefore 0x00030004 2 sid s)
    obtain ⟨hmem, hchans, hflash⟩ := evict_stores sid (pairBefore 0x00030004 2 sid s)
    have hlog := pairBefore_logsOnly 0x00030004 2 sid s
    refine ⟨_, congrArg Host.Outcome.next (pairRow_pltGcmd hopen hck), hactive', hplate, hobjs, hlists, hbarriers, hengines, hstage, ?_⟩
    exact ⟨hmem.trans hlog.mem, hchans.trans hlog.chans, hflash.trans hlog.flash⟩

/-- An existing channel on an inlet that the plate's normal INLET_BIND lacks. -/
theorem inletMissing_of_channel {s : State} {p : Plate}
    (h : ∃ c ∈ s.chans, c.2.state ≠ .free ∧ inletNum p normalCase c.2.inlet.toNat = none) : inletMissing s p = true := by
  obtain ⟨c, hc, hstate, hinlet⟩ := h
  exact List.any_eq_true.2 ⟨c, hc, by simp [hstate, hinlet]⟩

/-- Settles O57: the check of PLT_GCMD finds the channel and answers INLET_MISSING before the banks are touched. -/
theorem commitNeedsEveryInlet : Obligations.CommitNeedsEveryInlet := by
  intro s sid p hopen hcape hstandby hp hchan hwire
  have hck : pltGuardCheck s 1 = cInletMissing := by
    rw [pltGuardCheck_commit hcape hstandby hp, inletMissing_of_channel hchan, if_pos rfl]
  have hrow : exec (.commit sid) s = .next (emit (.writeStatus sid cInletMissing) { s with guards := mdel s.guards sid.toNat }) := by
    refine congrArg Host.Outcome.next ?_
    rw [pairRow_refused hopen regAt_pltGcmd rfl ((guardCheck_pltGcmd ..).trans hck) (by decide), regRefuse, if_neg (by decide)]
    exact settle_nil hwire
  refine ⟨hrow, fun t ht => ?_⟩
  obtain rfl := Host.Outcome.next.inj (hrow.symm.trans ht)
  exact ⟨rfl, hstandby⟩

/-! ## The end of a load (02 R59, R60) -/

/-- A plate that passes its checks is in the standby copy, and its proof begins. -/
theorem exec_plateLoadDone_passes {s : State} {l : Load} {bs : List Byte} (hcape : s.rcv.cape = false) (hstandby : s.plt.standby = .loading)
    (hload : s.plt.load = some l) (hbytes : l.bytes = some bs) (hchecks : loadChecks s bs true = none)
    (hlost : namesLost s (plateOf bs) = none) :
    exec (.plateLoadDone true) s =
      .next (pwrTrack (storePut (some (plateOf bs)) { s with plt := { s.plt with standby := .proofing } })) := by
  refine congrArg Host.Outcome.next ?_
  simp [hcape, hstandby, hload, hbytes, hchecks, hlost]

/-- A plate put in the standby copy for its proof leaves the plate in force as it was. -/
theorem proofing_holds (p : Option Plate) (s : State) :
    let t := pwrTrack (storePut p { s with plt := { s.plt with standby := .proofing } })
    t.plt.standby = .proofing ∧ standbyPlate t = p ∧ activePlate t = activePlate s := by
  refine ⟨storePut_standby .., ?_, ?_⟩
  · exact (standbyPlate_congr (pwrTrack_plt _)).trans (storePut_standbyPlate p rfl)
  · exact (activePlate_congr (pwrTrack_plt _)).trans (storePut_activePlate ..)

/-- The proofs of a live island of a bank that is proofing. -/
theorem exec_proofDone_live {s : State} {island : BitVec 4} (hcape : s.rcv.cape = false) (hstandby : s.plt.standby = .proofing)
    (hlive : islLost s island.toNat = false) :
    exec (.proofDone island false) s = .next (
      if nmem s.plt.rewritten island.toNat then loadFail { code := cProof, step := 11, island := island.toNat } s
      else { s with plt := { s.plt with rewritten := nadd s.plt.rewritten island.toNat } }) ∧
    exec (.proofDone island true) s = .next (
      let t := { s with plt := { s.plt with proofed := nadd s.plt.proofed island.toNat } }
      if (proofIslands s).all (nmem t.plt.proofed) then loadPassed t else t) := by
  have hgo : ¬ (decide (s.plt.standby ≠ .proofing) || islLost s island.toNat || s.rcv.cape) = true := by
    simp [hcape, hstandby, hlive]
  exact ⟨congrArg Host.Outcome.next (if_neg hgo), congrArg Host.Outcome.next (if_neg hgo)⟩

/-- With one more island proofed, every live island is proofed where every other one was. -/
theorem proofIslands_all_nadd {s : State} {m : NSet} {i : Nat} : (proofIslands s).all (nmem (nadd m i)) = true ↔
    ∀ j < 16, islLost s j = false → j ≠ i → nmem m j = true := by
  simp only [proofIslands, List.all_eq_true, List.mem_filter, List.mem_range, Bool.not_eq_true', and_imp]
  refine forall₃_congr fun j _ _ => ?_
  by_cases hj : j = i
  · simp [hj]
  · simp [nmem_nadd_ne m hj, hj]

/-- A load that a session began ends PROOFED, with its record and the flush. -/
theorem loadPassed_session {s : State} (h : s.plt.bootLoad = false) :
    LogsOnly { s with plt := { s.plt with standby := .proofed, load := none } } (loadPassed s) := by
  simp only [loadPassed, h, Bool.false_eq_true, if_false]
  exact (auditPlate_logsOnly ..).trans (auditFlush_logsOnly _)

/-- Settles O10: the two ways that PLATE_LOAD_DONE and PROOF_DONE go on, and whether the island was the last to be proofed. -/
theorem loadAndProofEnd : Obligations.LoadAndProofEnd := by
  refine ⟨fun s l bs hcape hstandby hload hbytes hchecks hlost => ?_, fun s island hcape hstandby hlive => ?_⟩
  · obtain ⟨hproofing, hplate, hactive⟩ := proofing_holds (some (plateOf bs)) s
    exact ⟨_, exec_plateLoadDone_passes hcape hstandby hload hbytes hchecks hlost, hproofing, hplate, hactive, rfl⟩
  · obtain ⟨hdiffers, hsame⟩ := exec_proofDone_live hcape hstandby hlive
    refine ⟨fun hfirst => ?_, fun hsession hothers _ => ?_, fun ⟨i, hi, hilive, hne, hnot⟩ _ => ?_⟩
    · rw [hdiffers, hfirst]
      rfl
    · have hpassed := loadPassed_session
        (s := { s with plt := { s.plt with proofed := nadd s.plt.proofed island.toNat } }) hsession
      refine ⟨_, hsame.trans (congrArg Host.Outcome.next (if_pos (proofIslands_all_nadd.2 hothers))), ?_, ?_, hpassed.mem⟩
      · rw [hpassed.plt]
      · rw [hpassed.plt]
    · refine hsame.trans (congrArg Host.Outcome.next (if_neg fun hall => ?_))
      have hproofed := proofIslands_all_nadd.1 hall i hi hilive hne
      rw [hnot] at hproofed
      exact Bool.false_ne_true hproofed

end Sys2Proof.Machine

namespace Sys2Proof.Machine

/-! ## What a term does to a WXA (03 R87, R88, R92)

R92's own argument: which exclusion or which sum a term leads to depends on the term alone, and only FULL depends on what the WXA holds.
So a term is first reduced to its effect, and effects commute and pass through MERGE as long as FULL stays clear. -/

/-- The three exclusions of R87, each with its own counter. -/
inductive Exclusion where
  | nan
  | inf
  | range

/-- What a term does on entry: it counts as an exclusion, or it adds units of 2^-149 with LOW_BITS set or not. -/
inductive TermEffect where
  | excluded (x : Exclusion)
  | counted (units : Int) (low : Bool)

namespace TermEffect

/-- The effect on a WXA; a counted term beyond 2^40 sets FULL alone (R88). -/
def apply : TermEffect → Wxa → Wxa
  | .excluded .nan, w => { w with exclNan := satAdd32 w.exclNan 1 }
  | .excluded .inf, w => { w with exclInf := satAdd32 w.exclInf 1 }
  | .excluded .range, w => { w with exclRange := satAdd32 w.exclRange 1 }
  | .counted u low, w =>
    if 2 ^ 40 ≤ w.terms then { w with full := true }
    else { w with acc := wrap320 (w.acc + u), terms := w.terms + 1, lowBits := w.lowBits || low }

/-- The effects of a list of terms, in order. -/
def applyAll (es : List TermEffect) (w : Wxa) : Wxa := es.foldl (fun w e => e.apply w) w

end TermEffect

/-- The effect of a number that enters, squared before where it has to be. -/
def numEffect : Num → TermEffect
  | .nan => .excluded .nan
  | .inf _ => .excluded .inf
  | .fin s n d =>
    if d * 2 ^ 128 ≤ n then .excluded .range
    else .counted (if s then -((wxaUnits n d).1 : Int) else ((wxaUnits n d).1 : Int)) (wxaUnits n d).2

/-- The effect of a term, from a dot row or not, on a WXA whose MODE_SQUARE is `sq`. -/
def termEffect (sq : Bool) (t : Bool × Num) : TermEffect := numEffect (if sq && !t.1 then t.2.mul t.2 else t.2)

theorem wxaEnter_eq_apply (dot : Bool) (t : Num) (w : Wxa) : wxaEnter dot t w = (termEffect w.square (dot, t)).apply w := by
  unfold wxaEnter termEffect
  cases (if w.square && !dot then t.mul t else t) with
  | nan => rfl
  | inf => rfl
  | fin s n d =>
    rw [numEffect]
    by_cases hrange : d * 2 ^ 128 ≤ n
    · rw [if_pos hrange, TermEffect.apply]
      exact if_pos hrange
    · rw [if_neg hrange, TermEffect.apply]
      exact if_neg hrange

/-! ### The 320-bit sum -/

/-- The two's complement value of the low bits is the balanced remainder. -/
theorem sintOf_uintOf {w : Nat} (hw : 0 < w) (i : Int) : sintOf w (uintOf w i) = i.bmod (2 ^ w) := by
  have hpow : 2 ^ w = 2 * 2 ^ (w - 1) := by rw [Nat.mul_comm, Nat.two_pow_pred_mul_two hw]
  have hpos : 0 < 2 ^ (w - 1) := Nat.two_pow_pos (w - 1)
  have hnonneg := Int.emod_nonneg i (b := ((2 * 2 ^ (w - 1) : Nat) : Int)) (by omega)
  have hlt := Int.emod_lt_of_pos i (b := ((2 * 2 ^ (w - 1) : Nat) : Int)) (by omega)
  simp only [sintOf, uintOf, Int.bmod, hpow, if_neg (Nat.pos_iff_ne_zero.1 hw)]
  rw [Nat.mod_eq_of_lt (by omega)]
  split <;> split <;> omega

theorem wrap320_eq_bmod (i : Int) : wrap320 i = i.bmod (2 ^ 320) := by rw [wrap320, sintOf_uintOf (by decide)]

@[simp] theorem wrap320_zero : wrap320 0 = 0 := by rw [wrap320_eq_bmod, Int.zero_bmod]

@[simp] theorem wrap320_wrap320 (i : Int) : wrap320 (wrap320 i) = wrap320 i := by
  rw [wrap320_eq_bmod, wrap320_eq_bmod, Int.bmod_bmod]

@[simp] theorem wrap320_wrap320_add (i j : Int) : wrap320 (wrap320 i + j) = wrap320 (i + j) := by
  rw [wrap320_eq_bmod, wrap320_eq_bmod, wrap320_eq_bmod, Int.bmod_add_bmod]

@[simp] theorem wrap320_add_wrap320 (i j : Int) : wrap320 (i + wrap320 j) = wrap320 (i + j) := by
  rw [wrap320_eq_bmod, wrap320_eq_bmod, wrap320_eq_bmod, Int.add_bmod_bmod]

/-- A saturating count does not depend on how its parts were grouped. -/
theorem satAdd32_assoc (a b c : Nat) : satAdd32 (satAdd32 a b) c = satAdd32 a (satAdd32 b c) := by
  unfold satAdd32
  omega

/-! ### Effects, one after another -/

namespace TermEffect
variable {w : Wxa} {e f : TermEffect} {u : Int} {low : Bool}

theorem apply_counted_of_full (h : 2 ^ 40 ≤ w.terms) : (counted u low).apply w = { w with full := true } := if_pos h

theorem apply_counted_of_lt (h : w.terms < 2 ^ 40) : (counted u low).apply w =
    { w with acc := wrap320 (w.acc + u), terms := w.terms + 1, lowBits := w.lowBits || low } := if_neg (Nat.not_le.2 h)

@[simp] theorem apply_square (e : TermEffect) (w : Wxa) : (e.apply w).square = w.square := by
  match e with
  | .excluded .nan | .excluded .inf | .excluded .range => rfl
  | .counted u low => exact (apply_ite Wxa.square ..).trans (ite_self _)

/-- FULL, once set, stays set. -/
theorem full_of_apply (h : (e.apply w).full = false) : w.full = false := by
  cases e with
  | counted u low =>
    rcases Nat.lt_or_ge w.terms (2 ^ 40) with hlt | hge
    · rwa [apply_counted_of_lt hlt] at h
    · rw [apply_counted_of_full hge] at h
      cases h
  | excluded x => cases x <;> exact h

/-- A counted term that leaves FULL clear found room. -/
theorem terms_lt_of_full (h : ((counted u low).apply w).full = false) : w.terms < 2 ^ 40 := by
  refine Nat.not_le.1 fun hge => ?_
  rw [apply_counted_of_full hge] at h
  cases h

@[simp] theorem applyAll_nil (w : Wxa) : applyAll [] w = w := rfl
@[simp] theorem applyAll_cons (e : TermEffect) (es : List TermEffect) (w : Wxa) : applyAll (e :: es) w = applyAll es (e.apply w) := rfl

theorem applyAll_append (es fs : List TermEffect) (w : Wxa) : applyAll (es ++ fs) w = applyAll fs (applyAll es w) := List.foldl_append

theorem full_of_applyAll {es : List TermEffect} (h : (applyAll es w).full = false) : w.full = false := by
  induction es generalizing w with
  | nil => exact h
  | cons e es ih => exact full_of_apply (ih h)

@[simp] theorem apply_excluded_terms (x : Exclusion) (w : Wxa) : ((excluded x).apply w).terms = w.terms := by
  cases x <;> rfl

/-- An exclusion counts the same before a counted term and after it. -/
theorem apply_counted_excluded (x : Exclusion) (w : Wxa) :
    (counted u low).apply ((excluded x).apply w) = (excluded x).apply ((counted u low).apply w) := by
  rcases Nat.lt_or_ge w.terms (2 ^ 40) with hlt | hge
  · rw [apply_counted_of_lt hlt, apply_counted_of_lt (by rwa [apply_excluded_terms])]
    cases x <;> simp only [apply]
  · rw [apply_counted_of_full hge, apply_counted_of_full (by rwa [apply_excluded_terms])]
    cases x <;> rfl

/-- Two counted terms that both find room add up in either order. -/
theorem apply_counted_counted {v : Int} {low' : Bool} (h : w.terms + 1 < 2 ^ 40) :
    (counted v low').apply ((counted u low).apply w) =
      { w with acc := wrap320 (w.acc + (u + v)), terms := w.terms + 2, lowBits := w.lowBits || (low || low') } := by
  have hfirst : (counted u low).apply w = _ := apply_counted_of_lt (Nat.lt_of_succ_lt h)
  rw [hfirst, apply_counted_of_lt (w := { w with acc := _, terms := _, lowBits := _ }) h]
  simp only [wrap320_wrap320_add, Int.add_assoc, Bool.or_assoc]

/-- Two terms in either order, where FULL stays clear: two counted ones both found room, and no other pair meets. -/
theorem apply_comm (h : (f.apply (e.apply w)).full = false) : e.apply (f.apply w) = f.apply (e.apply w) := by
  cases e with
  | excluded x =>
    cases f with
    | excluded y => cases x <;> cases y <;> rfl
    | counted v low' => exact (apply_counted_excluded x w).symm
  | counted u low =>
    cases f with
    | excluded y => exact apply_counted_excluded y w
    | counted v low' =>
      have hroom := terms_lt_of_full h
      rw [apply_counted_of_lt (terms_lt_of_full (full_of_apply h))] at hroom
      rw [apply_counted_counted hroom, apply_counted_counted hroom, Int.add_comm u, Bool.or_comm low]

theorem applyAll_perm {es fs : List TermEffect} (hp : es.Perm fs) (h : (applyAll es w).full = false) :
    applyAll fs w = applyAll es w := by
  induction hp generalizing w with
  | nil => rfl
  | cons e _ ih => exact ih h
  | swap e f es =>
    have hfull : (e.apply (f.apply w)).full = false := full_of_applyAll h
    exact congrArg (applyAll es) (apply_comm hfull)
  | trans _ _ ih₁ ih₂ =>
    have heq := ih₁ h
    exact (ih₂ (heq ▸ h)).trans heq

end TermEffect

/-! ### MERGE (R90) -/

theorem wxaMergeIn_of_lt {w i : Wxa} (h : 2 ^ 40 < w.terms + i.terms) : wxaMergeIn w i = { w with full := true } := if_pos h

theorem wxaMergeIn_of_le {w i : Wxa} (h : w.terms + i.terms ≤ 2 ^ 40) : wxaMergeIn w i =
    { acc := wrap320 (w.acc + i.acc), terms := w.terms + i.terms, exclNan := satAdd32 w.exclNan i.exclNan,
      exclInf := satAdd32 w.exclInf i.exclInf, exclRange := satAdd32 w.exclRange i.exclRange, lowBits := w.lowBits || i.lowBits,
      full := w.full || i.full, square := w.square } := if_neg (Nat.not_lt.2 h)

/-- A MERGE that leaves FULL clear found room for the image's terms. -/
theorem terms_le_of_wxaMergeIn_full {w i : Wxa} (h : (wxaMergeIn w i).full = false) : w.terms + i.terms ≤ 2 ^ 40 := by
  refine Nat.not_lt.1 fun hgt => ?_
  rw [wxaMergeIn_of_lt hgt] at h
  cases h

/-- A term that enters before the image is merged does what it does when it enters after, where FULL stays clear. -/
theorem wxaMergeIn_apply {w i : Wxa} {e : TermEffect} (h : (e.apply (wxaMergeIn w i)).full = false) :
    wxaMergeIn w (e.apply i) = e.apply (wxaMergeIn w i) := by
  have hle : w.terms + i.terms ≤ 2 ^ 40 := terms_le_of_wxaMergeIn_full (TermEffect.full_of_apply h)
  cases e with
  | excluded x =>
    rw [wxaMergeIn_of_le hle, wxaMergeIn_of_le (by rwa [TermEffect.apply_excluded_terms])]
    cases x <;> simp only [TermEffect.apply, satAdd32_assoc]
  | counted u low =>
    have hroom := TermEffect.terms_lt_of_full h
    rw [wxaMergeIn_of_le hle] at hroom ⊢
    have hsum : w.terms + (i.terms + 1) ≤ 2 ^ 40 := hroom
    have hroom' : i.terms < 2 ^ 40 := Nat.lt_of_le_of_lt (Nat.le_add_left ..) hroom
    rw [TermEffect.apply_counted_of_lt hroom, TermEffect.apply_counted_of_lt hroom',
      wxaMergeIn_of_le (i := { i with acc := _, terms := _, lowBits := _ }) hsum]
    simp only [wrap320_wrap320_add, wrap320_add_wrap320, Int.add_assoc, Nat.add_assoc, Bool.or_assoc]

theorem wxaMergeIn_applyAll {w i : Wxa} {es : List TermEffect} (h : (TermEffect.applyAll es (wxaMergeIn w i)).full = false) :
    wxaMergeIn w (TermEffect.applyAll es i) = TermEffect.applyAll es (wxaMergeIn w i) := by
  induction es generalizing i with
  | nil => rfl
  | cons e es ih =>
    have hstep : wxaMergeIn w (e.apply i) = e.apply (wxaMergeIn w i) := wxaMergeIn_apply (TermEffect.full_of_applyAll h)
    rw [TermEffect.applyAll_cons, ← hstep] at h
    rw [TermEffect.applyAll_cons, TermEffect.applyAll_cons, ← hstep]
    exact ih h

/-- What a WXA holds fits its image's fields, up to TERMS at its ceiling. -/
structure Wxa.Fits (w : Wxa) : Prop where
  acc : wrap320 w.acc = w.acc
  terms : w.terms ≤ 2 ^ 40
  exclNan : w.exclNan ≤ 0xFFFFFFFF
  exclInf : w.exclInf ≤ 0xFFFFFFFF
  exclRange : w.exclRange ≤ 0xFFFFFFFF

theorem wxaInit_fits (sq : Bool) : Wxa.Fits { Wxa.init with square := sq } :=
  ⟨wrap320_zero, Nat.zero_le _, Nat.zero_le _, Nat.zero_le _, Nat.zero_le _⟩

theorem TermEffect.apply_fits {w : Wxa} (h : w.Fits) (e : TermEffect) : (e.apply w).Fits := by
  obtain ⟨hacc, hterms, hnan, hinf, hrange⟩ := h
  match e with
  | .excluded .nan => exact ⟨hacc, hterms, Nat.min_le_right .., hinf, hrange⟩
  | .excluded .inf => exact ⟨hacc, hterms, hnan, Nat.min_le_right .., hrange⟩
  | .excluded .range => exact ⟨hacc, hterms, hnan, hinf, Nat.min_le_right ..⟩
  | .counted u low =>
    rcases Nat.lt_or_ge w.terms (2 ^ 40) with hlt | hge
    · rw [apply_counted_of_lt hlt]
      exact ⟨by simp only [wrap320_wrap320], hlt, hnan, hinf, hrange⟩
    · rw [apply_counted_of_full hge]
      exact ⟨hacc, hterms, hnan, hinf, hrange⟩

theorem TermEffect.applyAll_fits {w : Wxa} (h : w.Fits) (es : List TermEffect) : (applyAll es w).Fits :=
  List.foldlRecOn (motive := Wxa.Fits) es _ h fun _ hw e _ => apply_fits hw e

/-- Merging a cleared WXA changes nothing. -/
theorem wxaMergeIn_init {w : Wxa} (h : w.Fits) (sq : Bool) : wxaMergeIn w { Wxa.init with square := sq } = w := by
  obtain ⟨hacc, hterms, hnan, hinf, hrange⟩ := h
  rw [wxaMergeIn_of_le (i := { Wxa.init with square := sq }) hterms]
  simp [Wxa.init, satAdd32, hacc, hnan, hinf, hrange]

/-! ### Terms -/

/-- Terms that enter one after another: MODE_SQUARE stands, so each has the effect it has on the WXA that they find. -/
theorem foldl_wxaEnter (ts : List (Bool × Num)) (w : Wxa) :
    ts.foldl (fun w t => wxaEnter t.1 t.2 w) w = TermEffect.applyAll (ts.map (termEffect w.square)) w := by
  induction ts generalizing w with
  | nil => rfl
  | cons t ts ih =>
    rw [List.foldl_cons, ih, wxaEnter_eq_apply, TermEffect.apply_square, List.map_cons, TermEffect.applyAll_cons]

/-- Settles O59: the effects of the terms commute, and those of the terms merged last pass through the merge one by one. -/
theorem sumsDoNotDependOnOrder : Obligations.SumsDoNotDependOnOrder := by
  refine ⟨fun w ts us hperm hfull => ?_, fun sq ts us hfull => ?_⟩
  · rw [foldl_wxaEnter] at hfull
    rw [foldl_wxaEnter, foldl_wxaEnter]
    exact TermEffect.applyAll_perm (hperm.map _) hfull
  · have hinit := wxaMergeIn_init (TermEffect.applyAll_fits (wxaInit_fits sq) (ts.map (termEffect sq))) sq
    rw [foldl_wxaEnter, List.map_append, TermEffect.applyAll_append] at hfull
    rw [foldl_wxaEnter, foldl_wxaEnter, foldl_wxaEnter, List.map_append, TermEffect.applyAll_append]
    dsimp only at hfull ⊢
    rw [← hinit] at hfull
    rw [wxaMergeIn_applyAll hfull, hinit]

/-! ## The WXA commands of a list (03 R89, R90)

One lemma for the commands that read an image from the lagoon and one for those that write to it, each where the list issues the command
and no poison is met. -/

section
variable {op : Nat} {l : ListId} {row : BitVec 4} {addr : W64} {s : State}

theorem wxaRead_clean (f : Wxa → Wxa → Wxa) (hissues : listIssues s (listKey l) (wxaCmd op row 0 addr.toNat) = true)
    (hclean : anyPoison s (listAddr (listKey l) addr.toNat) 64 = false) :
    wxaRead op l row addr f s = seqNext (listKey l) (wxaPut (listWxa l row)
      (f (wxaGet s (listWxa l row)) (wxaOfImage (readMem s (listAddr (listKey l) addr.toNat) 64))) s) := by
  simp only [wxaRead, hissues, hclean, Bool.not_true, Bool.false_eq_true, if_false]

/-- Without a signal attached a write owes nothing, and the list goes on to its next command. -/
theorem wxaWrite_clean (image : Wxa → List Byte) (hissues : listIssues s (listKey l) (wxaCmd op row 0 addr.toNat) = true)
    (hclean : partPoison s (listAddr (listKey l) addr.toNat) (image (wxaGet s (listWxa l row))).length = false) :
    wxaWrite op l row addr image s = seqAttached (listKey l / 64) op (seqNext (listKey l)
      (writeMem (listAddr (listKey l) addr.toNat) (image (wxaGet s (listWxa l row))) s)) := by
  simp only [wxaWrite, hissues, hclean, Bool.false_eq_true, if_true, if_false]
  rfl

end

/-- A term of an exact value below 2^128 that is not to be squared, with room for it, adds its units of 2^-149. -/
theorem wxaEnter_exact {w : Wxa} {dot neg : Bool} {n d : Nat} (hrange : n < d * 2 ^ 128) (hroom : w.terms < 2 ^ 40)
    (hplain : dot = true ∨ w.square = false) (hexact : n * 2 ^ 149 % d = 0) :
    wxaEnter dot (.fin neg n d) w =
      { w with acc := wrap320 (w.acc + (if neg then -((n * 2 ^ 149 / d : Nat) : Int) else ((n * 2 ^ 149 / d : Nat) : Int))),
               terms := w.terms + 1 } := by
  have hsquare : ¬ (w.square && !dot) = true := by
    rcases hplain with h | h <;> simp [h]
  rw [wxaEnter_eq_apply, termEffect, if_neg hsquare, numEffect, if_neg (Nat.not_le.2 hrange), TermEffect.apply_counted_of_lt hroom]
  simp only [wxaUnits, hexact, ne_eq, not_true_eq_false, decide_false, Bool.or_false]

/-- Settles O34: each command is one of the list's reads or writes, and the term's clause is its effect. Where the image lies in the
lagoon's window is the model's choice, deduced (notes/assumptions/88.md). -/
theorem wxaCommandsAct : Obligations.WxaCommandsAct := by
  intro s l row k w x
  refine ⟨fun hissues => ?_, fun sq hissues => ?_, fun addr => ⟨fun hissues hclean => ?_, fun hissues hclean => ?_, fun hclean =>
    ⟨fun hissues => ?_, fun hissues => ?_⟩⟩, fun reef v hterm hisland => ?_, fun y dot neg n d _ hrange hroom hplain hexact => ?_⟩
  · exact congrArg Host.Outcome.next (if_pos hissues)
  · exact congrArg Host.Outcome.next (if_pos hissues)
  · exact congrArg Host.Outcome.next (wxaWrite_clean wxaImage hissues hclean)
  · exact congrArg Host.Outcome.next (wxaWrite_clean (fun w => leBytes 4 (wxaFp32 w).toNat) hissues hclean)
  · exact congrArg Host.Outcome.next (wxaRead_clean (fun _ i => i) hissues hclean)
  · exact congrArg Host.Outcome.next (wxaRead_clean wxaMergeIn hissues hclean)
  · exact congrArg Host.Outcome.next (if_pos (by rw [hterm, hisland]; rfl))
  · exact wxaEnter_exact hrange hroom hplain hexact

/-- Settles O58: MERGE is the list's read with `wxaMergeIn`, whose two cases are the two sides of 2^40. Where the image lies in the
lagoon's window is the model's choice, deduced (notes/assumptions/88.md). -/
theorem mergeAddsAnImage : Obligations.MergeAddsAnImage := by
  intro s l row addr k w a x i sum hissues hclean
  exact ⟨wxaMergeIn x i, congrArg Host.Outcome.next (wxaRead_clean wxaMergeIn hissues hclean), wxaMergeIn_of_le, wxaMergeIn_of_lt⟩

/-! ## The cells step (03 R80-R87) -/

/-- The step of a record cell at work, on its descriptor. -/
theorem exec_recordCellStep_works {s : State} {r : RunRef} {x : Ctx} {reef : BitVec 7} {row col : BitVec 4} (sample lag0 lag1 port : W64)
    (hctx : ctxOf s r.chan.toNat r.seq.toNat = some x) (hrow : row.toNat ≤ 11)
    (hop : cfgBits (cellCfg s reef.toNat row.toNat col.toNat) 7 0 ≠ 0) (hrun : cellsRun s reef.toNat = true) :
    exec (.recordCellStep r sample reef row col lag0 lag1 port) s =
      .next (recordStep x sample reef.toNat row.toNat col.toNat lag0 lag1 port s) := by
  have hgo : ¬ (decide (11 < row.toNat) || decide (cfgBits (cellCfg s reef.toNat row.toNat col.toNat) 7 0 = 0)
      || !cellsRun s reef.toNat) = true := by
    simp [hop, hrun, hrow]
  change execRecordCellStep r sample reef row col lag0 lag1 port s = _
  rw [execRecordCellStep, hctx]
  exact congrArg Host.Outcome.next (if_neg hgo)

/-- The step of a dot row at work, on its descriptor. -/
theorem exec_dotStep_works {s : State} {r : RunRef} {x : Ctx} {reef : BitVec 7} {row : BitVec 4} (acts : List (List Byte))
    (hctx : ctxOf s r.chan.toNat r.seq.toNat = some x) (hrow : 12 ≤ row.toNat) (hrun : cellsRun s reef.toNat = true) :
    exec (.dotStep r reef row acts) s = .next { dotRow x reef.toNat row.toNat acts s with
      free := (dotRow x reef.toNat row.toNat acts s).free + 32 } := by
  have hgo : ¬ (decide (row.toNat < 12) || !cellsRun s reef.toNat) = true := by
    simp [hrun, hrow]
  change execDotStep r reef row acts s = _
  rw [execDotStep, hctx]
  exact congrArg Host.Outcome.next (if_neg hgo)

/-! ### What a dot cell writes -/

/-- `t` differs from `s` at most in dot cells, links and outputs, and its outputs go on from those of `s`. -/
structure DotCellsOnly (s t : State) : Prop where
  frame : t = { s with dcells := t.dcells, cellLinks := t.cellLinks, out := t.out }
  out : s.out <+: t.out

namespace DotCellsOnly
variable {s t u : State}

theorem refl (s : State) : DotCellsOnly s s := ⟨rfl, List.prefix_refl _⟩

theorem trans (h : DotCellsOnly s t) (h' : DotCellsOnly t u) : DotCellsOnly s u := by
  refine ⟨?_, h.out.trans h'.out⟩
  calc u = { t with dcells := u.dcells, cellLinks := u.cellLinks, out := u.out } := h'.frame
    _ = { s with dcells := u.dcells, cellLinks := u.cellLinks, out := u.out } := by rw [h.frame]

theorem plt (h : DotCellsOnly s t) : t.plt = s.plt := by rw [h.frame]
theorem isl (h : DotCellsOnly s t) : t.isl = s.isl := by rw [h.frame]
theorem poison (h : DotCellsOnly s t) : t.poison = s.poison := by rw [h.frame]
theorem free (h : DotCellsOnly s t) : t.free = s.free := by rw [h.frame]
theorem wxas (h : DotCellsOnly s t) : t.wxas = s.wxas := by rw [h.frame]

/-- The wiring belongs to the plate and the sheets, which stand. -/
theorem cellCfg (h : DotCellsOnly s t) (reef row col : Nat) : cellCfg t reef row col = cellCfg s reef row col := by
  simp only [Machine.cellCfg, wiringOf, activePlate_congr h.plt, caseNow, runningSheet, h.plt, h.isl]

theorem dotPoison (h : DotCellsOnly s t) (reef cfg line : Nat) : dotPoison t reef cfg line = dotPoison s reef cfg line := by
  simp only [Machine.dotPoison, anyPoison, h.poison]

end DotCellsOnly

theorem emit_dotCellsOnly (o : Out) (s : State) : DotCellsOnly s (emit o s) := ⟨rfl, List.prefix_append ..⟩

theorem dcells_dotCellsOnly (m : SMap DCell) (s : State) : DotCellsOnly s { s with dcells := m } := ⟨rfl, List.prefix_refl _⟩

/-- Sending on the links writes the links. -/
theorem sendLinks_links (reef row col mask : Nat) (v : W64) (s : State) :
    sendLinks reef row col mask v s = { s with cellLinks := (sendLinks reef row col mask v s).cellLinks } := by
  refine List.foldlRecOn (motive := fun t : State => t = { s with cellLinks := t.cellLinks }) _ _ rfl fun t ht dir _ => ?_
  split
  · rw [ht]
  · exact ht

theorem sendLinks_dotCellsOnly (reef row col mask : Nat) (v : W64) (s : State) : DotCellsOnly s (sendLinks reef row col mask v s) := by
  rw [sendLinks_links]
  exact ⟨rfl, List.prefix_refl _⟩

/-- `t` differs from `s` at most in what a dot row writes: dot cells, links, outputs that go on from those of `s`, and WXA `k`. -/
structure DotRowOnly (k : Nat) (s t : State) : Prop where
  frame : t = { s with dcells := t.dcells, cellLinks := t.cellLinks, wxas := t.wxas, out := t.out }
  out : s.out <+: t.out
  wxas : ∀ j, j ≠ k → wxaGet t j = wxaGet s j

theorem DotCellsOnly.rowOnly {s t : State} (h : DotCellsOnly s t) (k : Nat) : DotRowOnly k s t := by
  refine ⟨?_, h.out, fun j _ => by rw [wxaGet, h.wxas, wxaGet]⟩
  rw [h.wxas]
  exact h.frame

theorem DotCellsOnly.wxaPut {s t : State} (h : DotCellsOnly s t) (k : Nat) (w : Wxa) : DotRowOnly k s (wxaPut k w t) := by
  refine ⟨?_, h.out, fun j hj => ?_⟩
  · rw [h.frame]
    rfl
  · rw [wxaGet_wxaPut_ne t w hj, wxaGet, h.wxas, wxaGet]

/-- The next weight lines of a dot cell hold no poison. -/
def DotClean (reef row : Nat) (s : State) (col : Nat) : Prop :=
  dotPoison s reef (cellCfg s reef row col) (mget DCell.init s.dcells (cellNum reef row col)).line = none

section
variable {x : Ctx} {reef row : Nat} {acts : List (List Byte)}

/-- A dot cell whose weights are not poisoned writes dot cells, links and outputs, and no other dot cell than its own. -/
theorem dotCell_clean {a : DotAcc} {col : Nat} (h : DotClean reef row a.s col) :
    DotCellsOnly a.s (dotCell x reef row acts a col).s ∧
    ∀ k ≠ cellNum reef row col,
      mget DCell.init (dotCell x reef row acts a col).s.dcells k = mget DCell.init a.s.dcells k := by
  unfold DotClean at h
  unfold dotCell
  simp only [h]
  split
  · exact ⟨.refl _, fun _ _ => rfl⟩
  · split
    · exact ⟨dcells_dotCellsOnly .., fun k hk => mget_mset_ne _ _ _ _ _ hk⟩
    · split
      · exact ⟨dcells_dotCellsOnly .., fun k hk => mget_mset_ne _ _ _ _ _ hk⟩
      · refine ⟨(dcells_dotCellsOnly ..).trans ((sendLinks_dotCellsOnly ..).trans (emit_dotCellsOnly ..)), fun k hk => ?_⟩
        rw [emit_dcells, sendLinks_links]
        exact mget_mset_ne _ _ _ _ _ hk

/-- The other columns' next lines stay clean when a clean cell steps. -/
theorem dotClean_dotCell {a : DotAcc} {col other : Nat} (h : DotClean reef row a.s col) (hother : DotClean reef row a.s other)
    (hne : other ≠ col) : DotClean reef row (dotCell x reef row acts a col).s other := by
  obtain ⟨honly, hcells⟩ := dotCell_clean (x := x) (acts := acts) h
  have hnum : cellNum reef row other ≠ cellNum reef row col := by
    unfold cellNum
    omega
  rw [DotClean, honly.dotPoison, honly.cellCfg, hcells _ hnum]
  exact hother

/-- Clean cells that step one after another write dot cells, links and outputs. -/
theorem foldl_dotCell_clean {cols : List Nat} (hnodup : cols.Nodup) {a : DotAcc} (h : ∀ col ∈ cols, DotClean reef row a.s col) :
    DotCellsOnly a.s (cols.foldl (dotCell x reef row acts) a).s := by
  induction cols generalizing a with
  | nil => exact .refl _
  | cons col cols ih =>
    obtain ⟨hnotmem, hnodup⟩ := List.nodup_cons.1 hnodup
    obtain ⟨hcol, hcols⟩ := List.forall_mem_cons.1 h
    refine (dotCell_clean hcol).1.trans (ih hnodup fun other hmem => ?_)
    exact dotClean_dotCell hcol (hcols other hmem) fun heq => hnotmem (heq ▸ hmem)

/-- A clean row writes dot cells, links and outputs, and at the end its WXA where a cell gave a sum. -/
theorem dotRow_clean {s : State} (h : ∀ col < 16, DotClean reef row s col) :
    DotRowOnly (wxaNum reef row) s (dotRow x reef row acts s) := by
  have hcells := foldl_dotCell_clean (x := x) (acts := acts) List.nodup_range (a := { s := s, sum := .fin true 0 1, any := false })
    fun col hcol => h col (List.mem_range.1 hcol)
  unfold dotRow
  dsimp only
  split
  · exact hcells.wxaPut ..
  · exact hcells.rowOnly _

end

/-- Settles O35: a record cell's clause is `recordStep` written out; a dot row's is what its cells, each clean as the ones before it left
it, and then its WXA write. That the lagoon streams' and the engine port's words are operands of the command is the model's choice
(notes/assumptions/81.md), and so are the free bytes that a dot cell without a weight area multiplies by (notes/assumptions/82.md). -/
theorem cellsStep : Obligations.CellsStep := by
  refine ⟨fun s r x sample reef row col lag0 lag1 port => ?_, fun s r x reef row acts hctx hrow hrun hclean => ?_⟩
  · intro cfg n op c0 c srcP res u hctx hrow hop hrun
    exact exec_recordCellStep_works sample lag0 lag1 port hctx hrow hop hrun
  · have hrow' := dotRow_clean (x := x) (acts := acts) hclean
    have hfree : (dotRow x reef.toNat row.toNat acts s).free = s.free := by rw [hrow'.frame]
    have hexec := exec_dotStep_works acts hctx hrow hrun
    rw [hfree] at hexec
    refine ⟨_, hexec, rfl, ?_, hrow'.out, hrow'.wxas⟩
    exact congrArg (fun t : State => { t with free := s.free + 32 }) hrow'.frame

end Sys2Proof.Machine

namespace Sys2Proof.Machine

/-! ## A descriptor is accepted (04 R104, R107) -/

/-- Channel `c` once it has accepted a descriptor of session `sid`: its SEQ is ACCEPTED_THROUGH and its journal entry is there. -/
def acceptedChan (sid : W32) (d : Descriptor) (s : State) (c : Chan) : Chan :=
  { c with
    accepted := d.seq.toNat
    journal := mput c.journal d.seq.toNat
      { d := d, deadline := c.deadline, tc := c.tc, state := .accepted, session := sid, plate := acceptDigest s, after := awaitsSwap s,
        verdict := 0 } }

/-- A channel that has accepted a descriptor is not one that was never used. -/
theorem acceptedChan_ne_init {d : Descriptor} (hseq : d.seq.toNat ≠ 0) (sid : W32) (s : State) (c : Chan) :
    acceptedChan sid d s c ≠ Chan.init :=
  fun h => hseq (congrArg Chan.accepted h)

section
variable (sid : W32) (i : Nat) (d : Descriptor) (s : State)

/-- An acceptance sets its channel; one on a single copy is counted. -/
theorem accept_eq : accept sid i d s =
    if (chanCopies s (chanGet s i)).length < 2 then bump (rcvCnt 3) 1 (chanPut i (acceptedChan sid d s (chanGet s i)) s)
    else chanPut i (acceptedChan sid d s (chanGet s i)) s := rfl

theorem accept_chans : (accept sid i d s).chans = (chanPut i (acceptedChan sid d s (chanGet s i)) s).chans := by
  rw [accept_eq]
  split <;> rfl

/-- An acceptance writes channels and counters alone. -/
theorem accept_frame : accept sid i d s =
    { s with chans := (accept sid i d s).chans, counters := (accept sid i d s).counters } := by
  rw [accept_eq]
  split <;> rfl
end

/-- An acceptance on two copies counts nothing. -/
theorem accept_counters {s : State} {i : Nat} (h : 2 ≤ (chanCopies s (chanGet s i)).length) (sid : W32) (d : Descriptor) :
    (accept sid i d s).counters = s.counters := by
  rw [accept_eq, if_neg (Nat.not_lt.2 h)]
  rfl

theorem chanGet_accept {d : Descriptor} (hseq : d.seq.toNat ≠ 0) (sid : W32) (i : Nat) (s : State) :
    chanGet (accept sid i d s) i = acceptedChan sid d s (chanGet s i) := by
  rw [chanGet, accept_chans]
  exact chanGet_chanPut s (acceptedChan_ne_init hseq sid s _)

theorem chanGet_accept_ne {i k : Nat} (h : k ≠ i) (sid : W32) (d : Descriptor) (s : State) :
    chanGet (accept sid i d s) k = chanGet s k := by
  rw [chanGet, accept_chans]
  exact chanGet_chanPut_ne s _ h

/-- Step 1 of Table 4.4 comes first: wrong fields answer that alone. -/
theorem submitItem_of_wrong_fields {d : Descriptor} (h : descFields d = false) (sid : W32) (s : State) :
    submitItem sid d s = (receipt d cDescriptorInvalid 0, s) := by
  simp [submitItem, h]

/-- A descriptor for channel `c` at index `i` that passes every step of Table 4.4 in turn. -/
theorem submitItem_of_checks {s : State} {sid : W32} {d : Descriptor} {i : Nat} {c : Chan} (hi : handleIdx d.handle = i)
    (hc : chanGet s i = c) (hfields : descFields d = true) (hhandle : handleCode s d.handle = cOk) (hrole : roleOf s sid = .operator)
    (hdouble : s.rcv.double = false) (hseq : d.seq.toNat = c.accepted + 1) (hstate : c.state = .opened ∨ c.state = .paused)
    (htail : descTail s i c d = cOk) :
    submitItem sid d s = (receipt d cOk 1, accept sid i d s) := by
  have hnew : ¬ d.seq.toNat ≤ c.accepted := by omega
  have hopen : ¬ (c.state ≠ .opened ∧ c.state ≠ .paused) := fun h => hstate.elim h.1 h.2
  rw [submitItem, if_neg (by simp [hfields])]
  simp only [hi, hc, hhandle, hrole, hdouble, htail, ne_eq, not_true_eq_false, Bool.false_eq_true, if_false]
  rw [if_neg hnew, if_neg (fun h => h hseq), if_neg hopen]

/-- The row answers what its item answers. -/
theorem exec_descriptorSubmit_of_item {s t : State} {sid : W32} {d : Descriptor} {b : List Byte} (h : submitItem sid d s = (b, t)) :
    exec (.descriptorSubmit sid d) s = .next (sendAnswer sid b t) := by
  change execDescriptorSubmit sid d s = _
  rw [execDescriptorSubmit, h]

/-- Settles O13: the state after the answer is the model's `accept`. That no memory changes is the model's choice: the journal is a field
of the channel and not bytes of the stacks (notes/assumptions/100.md). -/
theorem submitAcceptsADescriptor : Obligations.SubmitAcceptsADescriptor := by
  intro s sid d i c
  refine ⟨fun hfields hhandle hrole hdouble hseq hstate htail => ?_, fun hfields => ?_⟩
  · have hpos : d.seq.toNat ≠ 0 := by omega
    have hitem := submitItem_of_checks rfl rfl hfields hhandle hrole hdouble hseq hstate htail
    refine ⟨accept sid i d s, exec_descriptorSubmit_of_item hitem, ?_, ?_,
      fun k hk => chanGet_accept_ne hk sid d s, accept_frame sid i d s, fun hcopies => accept_counters hcopies sid d⟩
    · rw [chanGet_accept hpos]
      rfl
    · rw [chanGet_accept hpos]
      exact mlook_mput_self ..
  · exact exec_descriptorSubmit_of_item (submitItem_of_wrong_fields hfields sid s)

end Sys2Proof.Machine

namespace Sys2Proof.Machine

/-! ## A channel is created (04 R119) -/

/-- The channel that a CREATE opens on index `i`, its ring placed. -/
def createdChan (i : Nat) (c : CtlItem) (place : Nat × Nat) (s : State) : Chan :=
  { Chan.init with
    gen := (chanGet s i).gen
    state := .opened
    inlet := BitVec.ofNat 8 (c.arg0.toNat % 256)
    tc := BitVec.ofNat 2 (c.arg0.toNat / 256 % 4)
    ringLog2 := c.arg0.toNat / 2 ^ 16
    deadline := BitVec.ofNat 32 c.arg1.toNat
    ringOff := place.2
    primary := place.1
    mirror := (place.1 + 2) % 16
    fresh := awaitsSwap s }

theorem createdChan_ne_init (i : Nat) (c : CtlItem) (place : Nat × Nat) (s : State) : createdChan i c place s ≠ Chan.init :=
  fun h => ChState.noConfusion (congrArg Chan.state h)

theorem openChan_chans (i : Nat) (c : CtlItem) (place : Nat × Nat) (s : State) :
    (openChan i c place s).chans = (chanPut i (createdChan i c place s) s).chans := rfl

theorem chanGet_openChan (i : Nat) (c : CtlItem) (place : Nat × Nat) (s : State) :
    chanGet (openChan i c place s) i = createdChan i c place s := by
  rw [chanGet, openChan_chans]
  exact chanGet_chanPut s (createdChan_ne_init i c place s)

theorem chanGet_openChan_ne {i k : Nat} (h : k ≠ i) (c : CtlItem) (place : Nat × Nat) (s : State) :
    chanGet (openChan i c place s) k = chanGet s k := by
  rw [chanGet, openChan_chans]
  exact chanGet_chanPut_ne s _ h

/-- Where a ring fits somewhere, the device chooses a place where it fits. -/
theorem ringChoice_mem {s : State} {log2 : Nat} (h : ringPlaces s log2 ≠ []) :
    ∃ place ∈ ringPlaces s log2, ringChoice s log2 = some place := by
  have hlt : (Config.free64 s.free).toNat % (ringPlaces s log2).length < (ringPlaces s log2).length :=
    Nat.mod_lt _ (List.length_pos_iff.2 h)
  exact ⟨_, List.getElem_mem hlt, (if_neg h).trans (List.getElem?_eq_getElem hlt)⟩

/-- A CREATE whose inlet, class, index and place are all there opens the channel. -/
theorem createItem_opens {s : State} {c : CtlItem} {i m : Nat} {place : Nat × Nat} (hinlet : createInlet s (c.arg0.toNat % 256) = (cOk, m))
    (htc : c.arg0.toNat / 256 % 4 ≤ m) (hfree : freeIndex? s = some i) (hplace : ringChoice s (c.arg0.toNat / 2 ^ 16) = some place) :
    let t := openChan i c place s
    let x := chanGet t i
    createItem c s =
      ({ code := cOk, handle := handleOf i x, v0 := causeway (ringAddr x x.primary 0), v1 := causeway (ringAddr x x.mirror 0) }, t) := by
  simp only [createItem, hinlet, hfree, hplace, Nat.not_lt.2 htc, ne_eq, not_true_eq_false, if_false]

/-- A CREATE with right fields from an operator answers by the rules of CREATE, and leaves its record. -/
theorem controlItem_create {s t : State} {sid : W32} {c : CtlItem} {a : CtlAns} (hfields : ctlFields 0x8001 c = true)
    (hrole : roleOf s sid = .operator) (h : createItem c s = (a, t)) :
    controlItem 0x8001 sid c s =
      (ctlReply 0x8001 a.code a.handle c.tag a.v0 a.v1, auditChannel sid a.code 0x8001 a.handle (c.arg0.toNat % 256) 0 t) := by
  have hrules : ctlRules 0x8001 sid c s = (a, t) := h
  simp [controlItem, ctlAudit, hfields, hrole, hrules]

theorem exec_create_of_item {s t : State} {sid : W32} {c : CtlItem} {b : List Byte} (h : controlItem 0x8001 sid c s = (b, t)) :
    exec (.create sid c) s = .next (sendAnswer sid b t) := by
  change execCreate sid c s = _
  rw [execCreate, ctlStep, h]

/-- Settles O14: the place is the device's own choice, a free value (notes/assumptions/23.md), of which only that the ring fits there is
used; the channel that opens is `createdChan`. -/
theorem createOpensTheLowestIndex : Obligations.CreateOpensTheLowestIndex := by
  intro s sid c i m hfields hrole hinlet htc hfree hplaces
  obtain ⟨place, hmem, hplace⟩ := ringChoice_mem hplaces
  have hexec := exec_create_of_item (controlItem_create hfields hrole (createItem_opens hinlet htc hfree hplace))
  refine ⟨place, hmem, hexec, ?_⟩
  rw [chanGet_openChan]
  exact ⟨rfl, rfl, rfl, rfl, rfl, rfl, fun k hk => chanGet_openChan_ne hk c place s⟩

end Sys2Proof.Machine

namespace Sys2Proof.Machine

/-! ## A Graver command that nothing ends before it runs (05 R126-R129, R577, R578) -/

/-- The ranges of a Graver stage that R127 compares, but for its report line. -/
def graverRanges (x : Ctx) (g : GParam) : List (Nat × Nat) :=
  (if x.run.bytes.isNone then [(localOf x.j.d.inAddr, x.j.d.inLen.toNat)] else [])
    ++ (if x.last || g.compress then [(localOf x.j.d.outAddr, x.j.d.outLen.toNat)] else [])
    ++ (if g.dictLen ≠ 0 then [(localOf g.dict, g.dictLen)] else [])
    ++ (if g.restore || g.save then [(localOf g.state, imageBytes)] else [])

/-- The command that a Graver stage runs, on the bytes before the first poisoned codeword of an input in memory. -/
def graverOutcome (s : State) (x : Ctx) (g : GParam) : GOut :=
  gCommand g (if x.last || g.compress then x.j.d.outLen.toNat else 2 ^ 40) (stageInput s x)
    (if g.dictLen ≠ 0 then readMem s (localOf g.dict) g.dictLen else [])
    (if x.run.bytes.isNone then firstPoison s (localOf x.j.d.inAddr) x.j.d.inLen.toNat else none)
    (if g.restore then some (imageOf (readMem s (localOf g.state) imageBytes)) else none)

/-- What `graverReady` says, one check to a field. -/
structure GraverChecks (s : State) (x : Ctx) (g : GParam) (inPlate : Bool) (report : Option Nat) : Prop where
  imageStands : (g.restore || g.save) = true → anyLost s (localOf g.state) imageBytes = false
  dictStands : g.dictLen ≠ 0 → anyLost s (localOf g.dict) g.dictLen = false
  dictClean : g.dictLen ≠ 0 → anyPoison s (localOf g.dict) g.dictLen = false
  reportStands : report.any (fun a => anyLost s a 32) = false
  params : gParamOk g = true
  ranges : gRangesOk s x g inPlate report = true
  apart : anyOverlap (graverRanges x g ++ (report.map (fun a => [(a, 32)])).getD []) = false
  input : inputCode s x = cOk ∨ inputCode s x = cPoisoned
  imageClean : g.restore = true → anyPoison s (localOf g.state) imageBytes = false
  imageVerifies : g.restore = true → imageOk g (readMem s (localOf g.state) imageBytes) = true
  noSaveAhead : g.restore = true → saveAhead s x (localOf g.state) = false

theorem GraverChecks.of_ready {s : State} {x : Ctx} {g : GParam} {inPlate : Bool} {report : Option Nat}
    (h : graverReady s x g inPlate report = true) : GraverChecks s x g inPlate report := by
  simp only [graverReady, Bool.and_eq_true] at h
  obtain ⟨⟨⟨⟨⟨⟨⟨himage, hdict⟩, hreport⟩, hparams⟩, hranges⟩, hapart⟩, hinput⟩, hrestore⟩ := h
  have hdict' : g.dictLen ≠ 0 → anyLost s (localOf g.dict) g.dictLen = false ∧ anyPoison s (localOf g.dict) g.dictLen = false :=
    fun hn => by simpa [hn] using hdict
  have hrestore' : g.restore = true → (anyPoison s (localOf g.state) imageBytes = false ∧
      imageOk g (readMem s (localOf g.state) imageBytes) = true) ∧ saveAhead s x (localOf g.state) = false :=
    fun hr => by simpa [hr] using hrestore
  exact {
    imageStands := fun hi => by simpa [hi] using himage
    dictStands := fun hn => (hdict' hn).left
    dictClean := fun hn => (hdict' hn).right
    reportStands := by simpa using hreport
    params := hparams
    ranges := hranges
    apart := by simpa [graverRanges] using hapart
    input := by simpa using hinput
    imageClean := fun hr => (hrestore' hr).left.left
    imageVerifies := fun hr => (hrestore' hr).left.right
    noSaveAhead := fun hr => (hrestore' hr).right }

namespace GraverChecks

section
variable {s : State} {x : Ctx} {g : GParam} {inPlate : Bool} {report : Option Nat} (h : GraverChecks s x g inPlate report)
include h

/-- No memory that the command reads is lost (17 R424). -/
theorem not_inputLost : ¬ (g.restore && anyLost s (localOf g.state) imageBytes ||
    decide (g.dictLen ≠ 0) && anyLost s (localOf g.dict) g.dictLen) = true := by
  simp only [Bool.or_eq_true, Bool.and_eq_true, decide_eq_true_eq]
  rintro (⟨hr, hlost⟩ | ⟨hn, hlost⟩)
  · simp [h.imageStands (by simp [hr])] at hlost
  · simp [h.dictStands hn] at hlost

/-- No memory that the command writes outside its output is lost (17 R424). -/
theorem not_outputLost : ¬ (g.save && anyLost s (localOf g.state) imageBytes || report.any (fun a => anyLost s a 32)) = true := by
  simp only [h.reportStands, Bool.or_false, Bool.and_eq_true]
  rintro ⟨hs, hlost⟩
  simp [h.imageStands (by simp [hs])] at hlost

/-- An input that the command may not read is poisoned, and then the command runs on what stands before the poison (R578). -/
theorem not_refused : ¬ (decide (inputCode s x ≠ 0) && decide (inputCode s x ≠ cPoisoned)) = true := by
  simp only [Bool.and_eq_true, decide_eq_true_eq]
  rintro ⟨hfails, hreads⟩
  exact h.input.elim hfails hreads

/-- The image and the dictionary are not poisoned (R578). -/
theorem not_poisoned : ¬ (g.restore && anyPoison s (localOf g.state) imageBytes ||
    decide (g.dictLen ≠ 0) && anyPoison s (localOf g.dict) g.dictLen) = true := by
  simp only [Bool.or_eq_true, Bool.and_eq_true, decide_eq_true_eq]
  rintro (⟨hr, hmet⟩ | ⟨hn, hmet⟩)
  · simp [h.imageClean hr] at hmet
  · simp [h.dictClean hn] at hmet

/-- The stage comes to its command. -/
theorem graverStage_eq (hparams : graverParams s x = some (g, inPlate, report)) :
    graverStage x s = graverEnd x g report (graverOutcome s x g) s := by
  have himage : (if g.restore then some (imageOf (if g.restore then readMem s (localOf g.state) imageBytes else [])) else none) =
      if g.restore then some (imageOf (readMem s (localOf g.state) imageBytes)) else none := by
    split <;> rfl
  have hverified : ¬ (g.restore && !imageOk g (if g.restore then readMem s (localOf g.state) imageBytes else [])) = true := by
    by_cases hr : g.restore = true
    · simp [hr, h.imageVerifies hr]
    · simp [hr]
  have hrules : ¬ (!gParamOk g || !gRangesOk s x g inPlate report) = true := by simp [h.params, h.ranges]
  have hapart := Bool.eq_false_iff.1 h.apart
  unfold graverRanges at hapart
  simp only [graverStage, hparams]
  rw [if_neg h.not_inputLost, if_neg h.not_outputLost, if_neg hrules, if_neg hapart, if_neg h.not_refused, if_neg h.not_poisoned,
    if_neg hverified, himage]
  rfl

end

end GraverChecks

/-- Where its restore waits for no earlier save, GRAVER_RUN runs its stage (R151). -/
theorem exec_graverRun_due {s : State} {r : RunRef} {x : Ctx} {g : GParam} {inPlate : Bool} {report : Option Nat} (hdue : StageDue 2 r s x)
    (hparams : graverParams s x = some (g, inPlate, report)) (hfree : g.restore = true → saveAhead s x (localOf g.state) = false) :
    exec (.graverRun r) s = .next (notePoison x (graverStage x s)) := by
  have hwait : ¬ (g.restore && saveAhead s x (localOf g.state)) = true := by
    simp only [Bool.and_eq_true, not_and, Bool.not_eq_true]
    exact hfree
  change execGraverRun r s = _
  simp only [execGraverRun, unitRun_due hdue, hparams]
  rw [if_neg hwait]

/-- A command without a report line places its output where its stage does, and no other memory moves. -/
theorem graverEnd_no_report (x : Ctx) (g : GParam) (o : GOut) (s : State) :
    ∃ run, graverEnd x g none o s =
      runPut x.num run (if (x.last || g.compress) && o.out ≠ [] then placeOut x o.out s else s) :=
  ⟨_, rfl⟩

/-- Settles O24: the checks that `graverReady` names are those that stand before the command in `graverStage`. That the command runs on
the bytes before the first poisoned codeword is the model's choice, deduced (notes/assumptions/95.md). -/
theorem graverRunsItsCommand : Obligations.GraverRunsItsCommand := by
  intro s r x g inPlate report hdue hparams hready cut dict img limit o
  have hchecks := GraverChecks.of_ready hready
  refine ⟨?_, fun _ hreport => ?_⟩
  · rw [exec_graverRun_due hdue hparams hchecks.noSaveAhead, hchecks.graverStage_eq hparams]
    rfl
  · subst hreport
    obtain ⟨run, hend⟩ := graverEnd_no_report x g o s
    refine ⟨_, hend, fun hlast _ hout => ?_, fun hlast hplain => ?_, ?_⟩
    · rw [runPut_mem, if_pos (by simp [hlast, hout])]
    · rw [runPut_mem, if_neg (by simp [hlast, hplain])]
    · split <;> rfl

end Sys2Proof.Machine

namespace Sys2Proof.Machine

/-! ## A stage that counts

The record stages end with their counters; the equation below is how the obligations leave those free (06 R177, 07 R185, 08 R199). -/

/-- `t` differs from `s` in counters alone. -/
def CountersOnly (s t : State) : Prop := t = { s with counters := t.counters }

namespace CountersOnly
variable {s t u : State}

theorem refl (s : State) : CountersOnly s s := rfl

theorem trans (h : CountersOnly s t) (h' : CountersOnly t u) : CountersOnly s u := by
  calc u = { t with counters := u.counters } := h'
    _ = { s with counters := u.counters } := by rw [h]

theorem bumpReef (h : CountersOnly s t) (x : Ctx) (c n : Nat) : CountersOnly s (bumpReef x c n t) := by
  refine h.trans ?_
  unfold Machine.bumpReef
  split <;> rfl

end CountersOnly

/-- A command that is a unit's run has the effect of the unit's stage where that is due. -/
theorem exec_of_unitRun {i : Instr} {kind : Nat} {r : RunRef} {f : Ctx → State → State} {s : State} {x : Ctx}
    (hunit : exec i s = .next (unitRun kind r.chan.toNat r.seq.toNat f s)) (hdue : StageDue kind r s x) :
    exec i s = .next (notePoison x (f x s)) := by
  rw [hunit, unitRun_due hdue]

/-! ## What a stage keeps of a record (06 R167) -/

/-- `q` is the record `p` with other streams. -/
structure SameHead (p q : DRec) : Prop where
  idx : q.idx = p.idx
  reason : q.reason = p.reason

namespace SameHead

theorem refl (p : DRec) : SameHead p p := ⟨rfl, rfl⟩

theorem trans {p q r : DRec} (h : SameHead p q) (h' : SameHead q r) : SameHead p r :=
  ⟨h'.idx.trans h.idx, h'.reason.trans h.reason⟩

end SameHead

theorem setStream_sameHead (n : Nat) (b : SEnt) (r : DRec) : SameHead r (setStream n b r) := ⟨rfl, rfl⟩

/-- An operator writes an entry and, where that is a list, the entry of its length beside it. -/
theorem setList_sameHead {list : Prop} [Decidable list] (n m : Nat) (b len : SEnt) (r : DRec) :
    SameHead r (if list then setStream m len (setStream n b r) else setStream n b r) := by
  split <;> exact ⟨rfl, rfl⟩

/-- Steps that each keep the record that a state carries keep it one after another. -/
theorem foldl_sameHead {σ β : Type} (record : σ → DRec) {step : σ → β → σ} (h : ∀ a e, SameHead (record a) (record (step a e))) (es : List β)
    (a : σ) : SameHead (record a) (record (es.foldl step a)) := by
  induction es generalizing a with
  | nil => exact .refl _
  | cons e es ih => exact (h a e).trans (ih _)

/-! ### Lists of records -/

theorem sameRecords_nil : SameRecords [] [] := ⟨rfl, by simp⟩

theorem SameRecords.cons {p q : DRec} {a b : List DRec} (hhead : SameHead p q) (hcorrupt : sound p = false → q = p)
    (h : SameRecords a b) : SameRecords (p :: a) (q :: b) := by
  obtain ⟨hlength, hrest⟩ := h
  refine ⟨by simp [hlength], fun n r hr => ?_⟩
  cases n with
  | zero =>
    obtain rfl : p = r := by simpa using hr
    exact ⟨q, rfl, hhead.idx, hhead.reason, hcorrupt⟩
  | succ n => exact hrest n r hr

/-- A function applied to the sound records alone. -/
theorem sameRecords_map_sound {f : DRec → DRec} (h : ∀ r, SameHead r (f r)) (rs : List DRec) :
    SameRecords rs (rs.map (fun r => if sound r then f r else r)) := by
  induction rs with
  | nil => exact sameRecords_nil
  | cons r rs ih =>
    refine .cons ?_ (fun hs => if_neg (by simp [hs])) ih
    dsimp only
    split
    · exact h r
    · exact .refl r

/-- A function with counts applied to the sound records alone. -/
theorem sameRecords_eachSound {γ : Type} {f : DRec → γ → DRec × γ} (h : ∀ r c, SameHead r (f r c).1) (rs : List DRec) (c : γ) :
    SameRecords rs (eachSound f rs c).1 := by
  induction rs generalizing c with
  | nil => exact sameRecords_nil
  | cons r rs ih =>
    by_cases hs : sound r = true
    · simp only [eachSound, hs, if_true]
      exact .cons (h r c) (fun hcorrupt => by simp [hs] at hcorrupt) (ih _)
    · simp only [eachSound, hs]
      exact .cons (.refl r) (fun _ => rfl) (ih _)

/-! ### Stipple (07 R184-R187) -/

theorem stipEntry_sameHead (seed : W64) (disable i : Nat) (e : StipOp) (a : DRec × StipCnt) :
    SameHead a.1 (stipEntry seed disable i e a).1 := by
  unfold stipEntry
  dsimp only
  split
  · exact .refl _
  · split
    · exact .refl _
    · split
      · exact .refl _
      · exact setList_sameHead ..

theorem stipRecord_sameHead (seed : W64) (disable : Nat) (es : List (Nat × StipOp)) (r : DRec) (c : StipCnt) :
    SameHead r (stipRecord seed disable es r c).1 :=
  foldl_sameHead (step := fun a (e : Nat × StipOp) => stipEntry seed disable e.1 e.2 a) Prod.fst
    (fun a e => stipEntry_sameHead seed disable e.1 e.2 a) es (r, c)

theorem stipRecords_eq_eachSound (seed : W64) (disable : Nat) (es : List (Nat × StipOp)) (rs : List DRec) (c : StipCnt) :
    stipRecords seed disable es rs c = eachSound (stipRecord seed disable es) rs c := by
  induction rs generalizing c with
  | nil => rfl
  | cons r rs ih => simp only [stipRecords, eachSound, ih]

/-- The records after the Stipple stage. -/
def stippledRecords (s : State) (x : Ctx) : List DRec :=
  (stipRecords (jobSeed s x) (u16At (paramSection s x 2 16) 8) ((recKinds x.rs 5).map (fun q => (q.index, stipOpOf q.body)))
    x.run.recs { blocks := 0, idle := 0, wraps := 0 }).1

theorem stippledRecords_same (s : State) (x : Ctx) : SameRecords x.run.recs (stippledRecords s x) := by
  rw [stippledRecords, stipRecords_eq_eachSound]
  exact sameRecords_eachSound (stipRecord_sameHead _ _ _) _ _

/-- The records of the stage go on to the next, and the rest is counters. -/
theorem stippleStage_counts (x : Ctx) (s : State) :
    CountersOnly (runPut x.num (stageDid x 5 { x.run with recs := stippledRecords s x }) s) (stippleStage x s) :=
  ((((CountersOnly.refl _).bumpReef x 25 _).bumpReef x 24 _).bumpReef x 23 _).bumpReef x 21 _

/-! ### The Hatch (08 R198, R199) -/

theorem hatchRecord_sameHead (sip : List Byte) (es : List (HatchOp × List Num)) (r : DRec) (c : Nat × Nat × Nat) :
    SameHead r (hatchRecord sip es r c).1 := by
  refine foldl_sameHead Prod.fst (fun a e => ?_) es (r, c)
  split
  · exact .refl _
  · exact setStream_sameHead ..

/-- The records after the Hatch stage. -/
def hatchedRecords (s : State) (x : Ctx) : List DRec :=
  (eachSound (hatchRecord ((operatorSection s x).take 16) ((recKinds x.rs 6).map (fun q => (hatchOf q, boundaries s (hatchOf q)))))
    x.run.recs (0, 0, 0)).1

theorem hatchedRecords_same (s : State) (x : Ctx) : SameRecords x.run.recs (hatchedRecords s x) :=
  sameRecords_eachSound (hatchRecord_sameHead _ _) _ _

/-- The boundary lists can be read: the records go on, and the rest is counters. -/
theorem hatchStage_counts {s : State} {x : Ctx}
    (hlists : ∀ q ∈ recKinds x.rs 6, (hatchOf q).fn = 5 → areaCode s (hatchOf q).list (4 * (hatchOf q).len) = cOk) :
    CountersOnly (runPut x.num (stageDid x 6 { x.run with recs := hatchedRecords s x }) s) (hatchStage x s) := by
  have hcode : firstCode (((recKinds x.rs 6).map hatchOf).map
      (fun e => if e.fn = 5 then areaCode s e.list (4 * e.len) else cOk)) = cOk := by
    refine firstCode_ok fun c hc => ?_
    simp only [List.map_map, List.mem_map, Function.comp_apply] at hc
    obtain ⟨q, hq, rfl⟩ := hc
    split
    case isTrue hfn => exact hlists q hq hfn
    case isFalse => rfl
  simp only [hatchStage, hcode]
  rw [if_neg (by decide), List.map_map]
  exact (((CountersOnly.refl _).bumpReef x 28 _).bumpReef x 27 _).bumpReef x 26 _

/-! ### Normalisation (08 R202-R204) -/

theorem normRecord_sameHead (es : List (NormOp × Num × Num)) (r : DRec) : SameHead r (normRecord es r) := by
  refine foldl_sameHead id (fun a e => ?_) es r
  dsimp only [id]
  split
  · exact .refl _
  · split
    · exact .refl _
    · exact setList_sameHead ..

/-- The records after the normalisation stage with a statistics image. -/
def normalisedRecords (x : Ctx) (img : List Byte) : List DRec :=
  x.run.recs.map (fun q => if sound q then
    normRecord ((recKinds x.rs 7).map (fun e => (normOf e.body, normParams (normOf e.body) img))) q else q)

theorem normalisedRecords_same (x : Ctx) (img : List Byte) : SameRecords x.run.recs (normalisedRecords x img) :=
  sameRecords_map_sound (normRecord_sameHead _) _

/-- The statistics image can be read: the records go on, and nothing else changes. -/
theorem normaliseStage_of_image {s : State} {x : Ctx} {img : List Byte}
    (himg : readStats s x (BitVec.ofNat 64 (u64At (operatorSection s x) 16)) ((((recKinds x.rs 7).map (fun q => normOf q.body)).filter
      (fun e => decide (e.kind = 1) || decide (e.kind = 2))).map (·.feature)) = .ok img) :
    normaliseStage x s = runPut x.num (stageDid x 7 { x.run with recs := normalisedRecords x img }) s := by
  simp only [normaliseStage, himg, normalisedRecords, List.map_map, Function.comp_def]

/-! ### Statistics (08 R201, R576) -/

/-- The AUX area holds a window of images: the image of the records is deferred to the commit, in the descriptor's place. -/
theorem statsStage_of_area {s : State} {x : Ctx} {e : EngineRec} {a n : Nat} {img : List Byte} (hengine : engineRec x.rs = some e)
    (harea : areaAddr x e.auxRegion e.auxOff = some a)
    (himg : img = statsImage ((if featureStreams x.run.recs = [] then [0] else featureStreams x.run.recs).map (gatherFeature x.run.recs)))
    (hn : n = e.auxLen / (4096 * roundUp img.length 32)) (hroom : n ≠ 0) :
    statsStage x s = runPut x.num (stageDid x kindStats { x.run with
      eff := x.run.eff ++ [Eff.bytes (a + roundUp img.length 32 * (x.chan * n + x.seq % n)) (padTo 32 img)] }) s := by
  subst himg hn
  simp only [statsStage, hengine, harea]
  exact if_neg hroom

/-- Settles O26: an entry of each operator writes streams alone, so what it gives for a sound record has the same index and reason, and
the list keeps its places. That the features of STATS_GATHER are the streams of `featureStreams` is the model's choice, which no rule
gives (notes/assumptions/14.md). -/
theorem recordStagesKeepTheirRecords : Obligations.RecordStagesKeepTheirRecords := by
  intro s r x
  refine ⟨fun hdue => ?stipple, fun hdue hlists => ?hatch, fun img hdue himg => ?normalise, fun e a hdue hengine harea hroom => ?stats⟩
  case stipple => exact ⟨_, _, exec_of_unitRun rfl hdue, stippledRecords_same s x, stippleStage_counts x s, rfl⟩
  case hatch => exact ⟨_, _, exec_of_unitRun rfl hdue, hatchedRecords_same s x, hatchStage_counts hlists, rfl⟩
  case normalise =>
    refine ⟨_, ?_, normalisedRecords_same x img, rfl⟩
    rw [← normaliseStage_of_image himg]
    exact exec_of_unitRun rfl hdue
  case stats =>
    rw [← statsStage_of_area hengine harea rfl rfl hroom]
    exact exec_of_unitRun rfl hdue

/-! ## The decoder numbers its records (06 R157, R174) -/

theorem decRec_idx (idx : Nat) (o : RecOut) : (decRec idx o).idx = idx := by
  cases o with
  | error r => rfl
  | ok es => exact (foldl_sameHead (step := fun d (e : Nat × SEnt) => setStream e.1 e.2 d) id (fun d e => setStream_sameHead e.1 e.2 d) es
      { idx := idx, reason := 0, streams := [] }).idx

theorem length_decRecs (ab : NSet) (first : Nat) (os : List RecOut) : (decRecs ab first os).length = os.length := by
  induction os generalizing first with
  | nil => rfl
  | cons o os ih => simp [decRecs, ih]

theorem decRecs_numbered {ab : NSet} {first : Nat} {os : List RecOut} {n : Nat} {q : DRec} (h : (decRecs ab first os)[n]? = some q) :
    q.idx = first + n ∧ (nmem ab q.idx = true → q.reason = rDeadline) := by
  induction os generalizing first n with
  | nil => simp [decRecs] at h
  | cons o os ih =>
    cases n with
    | zero =>
      obtain rfl : (if nmem ab first then { idx := first, reason := rDeadline, streams := [] } else decRec first o) = q := by
        simpa [decRecs] using h
      split
      case isTrue => exact ⟨rfl, fun _ => rfl⟩
      case isFalse hkept => exact ⟨decRec_idx first o, fun hab => absurd (decRec_idx first o ▸ hab) hkept⟩
    | succ n =>
      obtain ⟨hidx, hlate⟩ := ih (first := first + 1) (by simpa [decRecs] using h)
      exact ⟨by omega, hlate⟩

/-- The records that are not sound are the corrupt ones and those that a deadline abandoned (R174). -/
theorem corrupt_add_late (rs : List DRec) :
    rs.length - (rs.filter sound).length - (rs.filter (fun q => decide (q.reason = rDeadline))).length +
      (rs.filter (fun q => decide (q.reason = rDeadline))).length = (rs.filter (fun q => !sound q)).length := by
  have hlate : rs.countP (fun q => decide (q.reason = rDeadline)) ≤ rs.countP (fun q => !sound q) := by
    refine List.countP_mono_left fun q _ hq => ?_
    rw [sound, of_decide_eq_true hq]
    decide
  have hall : rs.length = rs.countP sound + rs.countP (fun q => !sound q) := by
    simpa only [Bool.not_eq_true, Bool.decide_eq_false] using rs.length_eq_countP_add_countP sound
  simp only [← List.countP_eq_length_filter]
  omega

/-- The decoder's stage ends with its records and their counts, and the rest is counters. -/
theorem decEnd_counts (x : Ctx) (rs : List DRec) (run : Run) (s : State) :
    CountersOnly (runPut x.num (stageDid x 3 { run with
      recs := rs, recsIn := rs.length, recsOut := (rs.filter sound).length, replaced := (rs.filter (fun q => !sound q)).length }) s)
      (decEnd x rs run s) := by
  simp only [decEnd, corrupt_add_late]
  exact ((((CountersOnly.refl _).bumpReef x 14 _).bumpReef x 13 _).bumpReef x 12 _).bumpReef x 11 _

/-- An input gives these records in the section's format: Parquet with no Graver error, CBOR or ARS (06 R158-R163). -/
def DecodesTo (d : DecSec) (bs : List Bind) (inp : List Byte) (os : List RecOut) : Prop :=
  d.fmt = 1 ∧ (∃ crcs, pqDecode inp d.count bs = .ok (os, crcs, 0)) ∨ d.fmt = 2 ∧ os = (cborSeq bs d.count 0 inp).1 ∨
    d.fmt = 3 ∧ os = (arsFrames bs (inp.length + d.count + 1) d.count d.first 0 inp).recs

/-- A readable input gives the stage its records, and the rest is counters. -/
theorem decodeStage_counts {s : State} {x : Ctx} {d : DecSec} {bs : List Bind} {os : List RecOut}
    (hd : decSecOf (paramSection s x 1 32) = d) (hsec : decSecOk (paramSection s x 1 32) = true) (hset : bindingSet x.rs d.set = some bs)
    (hinput : inputCode s x = cOk) (hos : DecodesTo d bs (stageInput s x) os) :
    CountersOnly (decEnd x (decRecs x.run.abandoned d.first os) x.run s) (decodeStage x s) := by
  have hread : ¬ inputCode s x ≠ 0 := fun hfails => hfails hinput
  have hcounts : ∀ (taken resync crcs : Nat) (t : State),
      CountersOnly t (bumpReef x 10 taken (bumpReef x 16 resync (bumpReef x 15 crcs t))) := fun taken resync crcs t =>
    (((CountersOnly.refl t).bumpReef x 15 crcs).bumpReef x 16 resync).bumpReef x 10 taken
  simp only [decodeStage, hd, hsec, if_true, hset, if_neg hread]
  rcases hos with ⟨hparquet, crcs, hfile⟩ | ⟨hcbor, rfl⟩ | ⟨hars, rfl⟩
  · simp [hparquet, hfile, hcounts]
  · simp [hcbor, hcounts]
  · simp [hars, hcounts]

/-- RECORD_DEADLINE of a sample that the descriptor's decoder has yet to give abandons it (R174). -/
theorem exec_recordDeadline_due {s : State} {r : RunRef} {x : Ctx} {sample : W64} (hctx : ctxOf s r.chan.toNat r.seq.toNat = some x)
    (hkind : (stageKinds x.rs).contains 3 = true) (hleft : nmem x.run.did 3 = false) (hmode : x.j.deadline ≠ 0)
    (hfirst : (decSecOf (paramSection s x 1 32)).first ≤ sample.toNat)
    (hlast : sample.toNat < (decSecOf (paramSection s x 1 32)).first + (decSecOf (paramSection s x 1 32)).count) :
    exec (.recordDeadline r sample) s = .next (runPut x.num { x.run with abandoned := nadd x.run.abandoned sample.toNat } s) := by
  change execRecordDeadline r sample s = _
  simp only [execRecordDeadline, hctx]
  rw [if_pos]
  simp only [hkind, hleft, hmode, hfirst, hlast, Bool.not_false, Bool.and_self, decide_true, ne_eq, not_false_eq_true]

/-- Settles O25: each format's records reach `decRecs`, which numbers them and abandons those of the deadline. Among the counters
that the statement leaves free, RDC_BYTES_IN is the model's deduction (notes/assumptions/26.md). -/
theorem recordDecodeNumbersItsRecords : Obligations.RecordDecodeNumbersItsRecords := by
  refine ⟨fun s r x bs os hdue hsec hset hinput hos => ?decode, fun s r x sample hctx hkind hleft hmode hfirst hlast => ?deadline⟩
  case decode =>
    exact ⟨decodeStage x s, exec_of_unitRun rfl hdue, (decEnd_counts x _ x.run s).trans (decodeStage_counts rfl hsec hset hinput hos),
      length_decRecs .., fun n q => decRecs_numbered⟩
  case deadline => exact exec_recordDeadline_due hctx hkind hleft hmode hfirst hlast

end Sys2Proof.Machine

namespace Sys2Proof.Machine

/-! ## A join's probes (08 R205-R207, R212) -/

/-- A join stage that is fed runs its probes. -/
theorem exec_joinProbe_due {r : RunRef} {s : State} {x : Ctx} (hdue : StageDue 8 r s x) (hfed : x.entry = false) :
    exec (.joinProbe r) s = .next (notePoison x (joinProbeStage x s)) := by
  rw [exec_of_unitRun (f := fun x t => if x.entry then t else joinProbeStage x t) rfl hdue]
  simp only [hfed, Bool.false_eq_true, if_false]

/-- A join stage that nothing feeds builds its table's index (notes/assumptions/13.md). -/
theorem exec_joinBuild_due {r : RunRef} {s : State} {x : Ctx} (hdue : StageDue 8 r s x) (hentry : x.entry = true) :
    exec (.joinBuild r) s = .next (notePoison x (joinBuildStage x s)) := by
  rw [exec_of_unitRun (f := fun x t => if x.entry then joinBuildStage x t else t) rfl hdue]
  simp only [hentry, if_true]

section
variable {s : State} {x : Ctx} {rec : PRec} {e : JoinOp} {h : JoinHdr}

/-- The table has an index and every probe passes: the records of the probes go on, and the rest is counters. -/
theorem joinProbeStage_counts {a : JoinAcc} (hrec : recKind x.rs 8 = some rec) (he : joinOf rec.body = e)
    (hh : joinHdrOf (readMem s e.base 64) = h) (hread : engRead s x.p x.c x.st e.base 64 = cOk) (hok : h.ok = true) (hindex : h.index ≠ 0)
    (hkeys : ∀ n, keyLength e x.run.recs = some n → n = h.keyBytes)
    (ha : (probeOrder e x.run.recs).foldl (joinProbe1 s x e h)
      { out := [], dropped := 0, probes := 0, found := 0, nulls := 0, code := 0, met := [] } = a) (hcode : a.code = cOk) :
    CountersOnly (runPut x.num (stageDid x 8 { x.run with recs := a.out, dropped := x.run.dropped + a.dropped }) s)
      (joinProbeStage x s) := by
  have hserves : (!h.ok || decide (h.index = 0) || !((keyLength e x.run.recs).all (fun n => decide (n = h.keyBytes)))) = false := by
    simpa [hok, hindex, Option.all_eq_true] using hkeys
  simp only [joinProbeStage, hrec, he, hread, hh, hserves, ha, hcode]
  exact ((((CountersOnly.refl _).bumpReef x 32 _).bumpReef x 31 _).bumpReef x 30 _).bumpReef x 29 _

/-! ## A join's build (08 R210, R211) -/

/-- The table keeps its limits: its index and its header are deferred to the commit, and the next free value is taken for INDEX_ADDR
(notes/assumptions/17.md). -/
theorem joinBuildStage_of_fits (hrec : recKind x.rs 8 = some rec) (he : joinOf rec.body = e)
    (hh : joinHdrOf (readMem s e.base 64) = h) (hread : engRead s x.p x.c x.st e.base 64 = cOk) (hok : h.ok = true)
    (hcap : h.rows ≤ h.cap) (hrows : engRead s x.p x.c x.st e.base (64 + h.rows * h.rowBytes) = cOk)
    (hfits : joinFits s e.method e.asu h.rows (indexRows s e.base h) = true) :
    joinBuildStage x s = runPut x.num (stageDid x 8 { x.run with
      eff := x.run.eff ++ Eff.joinSwitch e.base e.asu { method := e.method, rows := indexRows s e.base h } ::
        joinHeaderEff e.base h.bytes (freeIndex s.free), recsIn := h.rows, recsOut := (indexRows s e.base h).length })
      { s with free := s.free + 1 } := by
  simp only [joinBuildStage, hrec, he, hread, hh, hok, Nat.not_lt.2 hcap, hrows, hfits]
  rfl

end

/-! ## Near-duplicates (08 R214-R216) -/

section
variable {s : State} {x : Ctx} {e : NearOp} {h : JoinHdr}

/-- A near-duplicate stage in its entry's own mode runs that mode's stage. -/
theorem nearRun_of_mode {rec : PRec} {build : Bool} (hrec : recKind x.rs 9 = some rec) (he : nearOf rec.body = e)
    (hmode : e.build = build) : nearRun build x s = if build then nearBuildStage x e s else nearProbeStage x e s := by
  simp only [nearRun, hrec, he, hmode, ne_eq, not_true_eq_false, if_false]

/-- The records that a near-duplicate probe keeps (R215). -/
def nearKept (s : State) (e : NearOp) (h : JoinHdr) (rs : List DRec) : List DRec :=
  rs.filter (fun q => !(sound q && isNearDup s e h q))

/-- The records that it drops are all the others. -/
theorem length_nearDups (s : State) (e : NearOp) (h : JoinHdr) (rs : List DRec) :
    (rs.filter (fun q => sound q && isNearDup s e h q)).length = rs.length - (nearKept s e h rs).length := by
  have hall := rs.length_eq_countP_add_countP (fun q => sound q && isNearDup s e h q)
  simp only [Bool.not_eq_true, Bool.decide_eq_false, List.countP_eq_length_filter] at hall
  rw [nearKept]
  omega

/-- The table has an index: the records that are kept go on, and the rest is counters. -/
theorem nearProbeStage_counts (hh : joinHdrOf (readMem s e.base 64) = h) (hread : engRead s x.p x.c x.st e.base 64 = cOk)
    (hok : nearHdrOk h = true) (hindex : h.index ≠ 0) (hrows : engRead s x.p x.c x.st e.base (64 + h.rows * h.rowBytes) = cOk) :
    CountersOnly (runPut x.num (stageDid x 9 { x.run with
      recs := nearKept s e h x.run.recs, dropped := x.run.dropped + (x.run.recs.length - (nearKept s e h x.run.recs).length) }) s)
      (nearProbeStage x e s) := by
  have hserves : (!nearHdrOk h || decide (h.index = 0)) = false := by simp [hok, hindex]
  simp only [nearProbeStage, hread, hh, hserves, hrows, length_nearDups]
  exact ((CountersOnly.refl _).bumpReef x 34 _).bumpReef x 33 _

/-- The table has room for the keys that it does not hold: every band key is deferred to the commit, and the rest is counters. -/
theorem nearBuildStage_counts (hh : joinHdrOf (readMem s e.base 64) = h) (hread : engRead s x.p x.c x.st e.base 64 = cOk)
    (hok : nearHdrOk h = true)
    (hcap : h.rows + ((bandReps e x.run.recs).filter (fun p => decide (joinMatches s e.base h p.1 = []))).length ≤ h.cap) :
    CountersOnly (runPut x.num (stageDid x 9 { x.run with
      eff := x.run.eff ++ [Eff.bandRows e.base e.asu e.method (bandReps e x.run.recs)] }) s) (nearBuildStage x e s) := by
  simp only [nearBuildStage, hread, hh, hok, Nat.not_lt.2 hcap]
  exact (CountersOnly.refl _).bumpReef x 34 _

end

/-- Settles O27: each stage's guards hold, so the stage ends with its records or its deferred effect, and the rest is counters. Two
points are the model's choice: that a join stage which nothing feeds is a build (notes/assumptions/13.md), and that INDEX_ADDR is a
free value that is not 0 (notes/assumptions/17.md). -/
theorem joinsProbeAndBuild : Obligations.JoinsProbeAndBuild := by
  intro s r x rec
  refine ⟨fun hdue hrec hread hok => ⟨fun hfed hindex hkeys hcode => ?probe, fun hentry hcap hrows hfits => ?build⟩,
    fun hdue hrec hread hok => ⟨fun hmode hindex hrows => ?nearProbe, fun hmode hcap => ?nearBuild⟩⟩
  case probe =>
    exact ⟨_, exec_joinProbe_due hdue hfed, joinProbeStage_counts hrec rfl rfl hread hok hindex hkeys rfl hcode⟩
  case build =>
    rw [exec_joinBuild_due hdue hentry, joinBuildStage_of_fits hrec rfl rfl hread hok hcap hrows hfits]
  case nearProbe =>
    refine ⟨nearProbeStage x (nearOf rec.body) s, ?_, nearProbeStage_counts rfl hread hok hindex hrows⟩
    rw [exec_of_unitRun (f := nearRun false) rfl hdue, nearRun_of_mode hrec rfl hmode, if_neg Bool.false_ne_true]
  case nearBuild =>
    refine ⟨nearBuildStage x (nearOf rec.body) s, ?_, nearBuildStage_counts rfl hread hok hcap⟩
    rw [exec_of_unitRun (f := nearRun true) rfl hdue, nearRun_of_mode hrec rfl hmode, if_pos rfl]

end Sys2Proof.Machine

namespace Sys2Proof.Machine

/-! ## A shuffle stage in its role (09 R227, R228) -/

/-- The section passes R228 for its own role, so the role's stage runs. -/
theorem shufRun_due {role : Nat} {r : RunRef} {s : State} {x : Ctx} {e : ShufOp} {c : ShufSec} (hdue : ShufDue role r s x e c)
    (f : Ctx → ShufOp → ShufSec → State → State) : shufRun role f r s = notePoison x (f x e c s) := by
  obtain ⟨hstage, hentry, rfl, hrole, hsec, hdir, hlimits⟩ := hdue
  obtain ⟨rec, hrec, rfl⟩ := Option.map_eq_some_iff.mp hentry
  have hdirectory : (decide ((shufSecOf (paramSection s x 4 64)).dir ≠ 0) && !dirOk s x (shufSecOf (paramSection s x 4 64))) = false := by
    simpa using hdir
  rw [shufRun, unitRun_due hstage]
  simp only [hrec, hrole, hsec, hdirectory, hlimits, ne_self_iff_false, false_and, Bool.not_true, Bool.false_eq_true, if_false]

/-- A command that is a shuffle role has the effect of the role's stage where that is due. -/
theorem exec_of_shufRun {i : Instr} {role : Nat} {r : RunRef} {s : State} {x : Ctx} {e : ShufOp} {c : ShufSec}
    {f : Ctx → ShufOp → ShufSec → State → State} (hunit : exec i s = .next (shufRun role f r s)) (hdue : ShufDue role r s x e c) :
    exec i s = .next (notePoison x (f x e c s)) := by
  rw [hunit, shufRun_due hdue]

section
variable {s : State} {x : Ctx} {e : ShufOp} {c : ShufSec}

/-! ## Feed (09 R229-R231) -/

/-- The slot writes of the records that have a place in a batch (R229, R230). -/
def feedWrites (s : State) (x : Ctx) (e : ShufOp) (c : ShufSec) : List SlotWrite :=
  (x.run.recs.map (fun q => (q, shufPlace s e c (shufKeys (jobSeed s x) c.epoch) q.idx))).filterMap (fun p =>
    match p.2 with
    | .at_ k j _ => some (slotWrite s e c.epoch k j p.1)
    | _ => none)

/-- The writes that no newer epoch has overtaken; what the slot of another owner holds is for that owner to see (R231). -/
def liveWrites (s : State) (c : ShufSec) (ws : List SlotWrite) : List SlotWrite :=
  ws.filter (fun w => !w.here || decide (leNat (readMem s w.slot 4) ≤ c.epoch))

/-- The run of a feed that is done: its records are gone, their headers and the writes to other owners deferred to the commit. -/
def fedRun (x : Ctx) (c : ShufSec) (live : List SlotWrite) : Run :=
  { x.run with recs := [], eff := x.run.eff ++ live.flatMap (slotEffs c.epoch x.reef) }

/-- `s` with the record data of the slots of this device. -/
def writeOwnSlots (live : List SlotWrite) (s : State) : State :=
  (live.filter (·.here)).foldl (fun s w => if w.body = [] then s else writeMem (w.slot + 32) w.body s) s

/-- No slot of this device waits for a delivery and all can be written: the feed is done, and the rest is counters. -/
theorem feedStage_counts {ws live : List SlotWrite} (hws : feedWrites s x e c = ws) (hlive : liveWrites s c ws = live)
    (hfree : ∀ w ∈ ws, w.here = true → slotBlocked s w.slot w.slot0 c.epoch = false)
    (hwrite : ∀ w ∈ live, w.here = true → engWrite s x.p x.c x.st w.slot (32 + w.body.length) = cOk) :
    CountersOnly (runPut x.num (stageDid x 10 (fedRun x c live)) (writeOwnSlots live s)) (feedStage x e c s) := by
  subst hws hlive
  have hwaits : ((feedWrites s x e c).filter (fun w => w.here && slotBlocked s w.slot w.slot0 c.epoch)).length = 0 := by
    simpa using hfree
  have hcode : firstCode (((liveWrites s c (feedWrites s x e c)).filter (·.here)).map
      (fun w => engWrite s x.p x.c x.st w.slot (32 + w.body.length))) = 0 := by
    refine firstCode_ok fun code hcode => ?_
    obtain ⟨w, hw, rfl⟩ := List.mem_map.mp hcode
    obtain ⟨hmem, hhere⟩ := List.mem_filter.mp hw
    exact hwrite w hmem hhere
  rw [show feedStage x e c s = _ from (if_neg (Decidable.not_not.2 hwaits)).trans (if_neg (Decidable.not_not.2 hcode))]
  exact (((((CountersOnly.refl _).bumpReef x 39 _).bumpReef x 38 _).bumpReef x 37 _).bumpReef x 36 _).bumpReef x 35 _

/-! ## Census and seal (09 R222) -/

/-- The bits that a census sets: those of the records in the directory's range. -/
def censusBits (s : State) (x : Ctx) (c : ShufSec) : List Eff :=
  let a := localOf c.dir
  let base := u64At (readMem s a 32) 8
  x.run.recs.filterMap (fun q =>
    if q.idx < base ∨ base + u64At (readMem s a 32) 16 ≤ q.idx then none
    else some (Eff.orByte (a + 128 + 544 * ((q.idx - base) / 4096) + 32 + (q.idx - base) % 4096 / 8)
      (BitVec.ofNat 8 (2 ^ ((q.idx - base) % 8)))))

theorem censusStage_eq : censusStage x c s = runPut x.num (stageDid x 10
    { x.run with eff := x.run.eff ++ Eff.bytes (localOf c.dir + 0x20) (digestBytes x.p.digest) :: censusBits s x c }) s := rfl

theorem mem_censusBits (b : Eff) : b ∈ censusBits s x c ↔
    ∃ q ∈ x.run.recs, u64At (readMem s (localOf c.dir) 32) 8 ≤ q.idx ∧
      q.idx < u64At (readMem s (localOf c.dir) 32) 8 + u64At (readMem s (localOf c.dir) 32) 16 ∧
      b = Eff.orByte (localOf c.dir + 128 + 544 * ((q.idx - u64At (readMem s (localOf c.dir) 32) 8) / 4096) + 32 +
        (q.idx - u64At (readMem s (localOf c.dir) 32) 8) % 4096 / 8)
        (BitVec.ofNat 8 (2 ^ ((q.idx - u64At (readMem s (localOf c.dir) 32) 8) % 8))) := by
  simp only [censusBits, List.mem_filterMap, Option.ite_none_left_eq_some, Option.some.injEq, not_or, Nat.not_lt, Nat.not_le, and_assoc,
    @eq_comm _ b]

/-- The directory can be read: its prefixes, its count and its header's checksum are deferred to the commit. -/
theorem sealStage_of_readable {h h1 : List Byte} {b : List Eff × Nat} (hh : readMem s (localOf c.dir) 128 = h)
    (hread : areaCode s (localOf c.dir) (dirBytes (u64At h 16)) = cOk) (hb : sealBlocks s (localOf c.dir) (u64At h 16 / 4096) 0 0 = b)
    (hh1 : patch (patch h 6 (leBytes 2 1)) 24 (leBytes 8 b.2) = h1) :
    sealStage x c s = runPut x.num (stageDid x 10 { x.run with
      eff := x.run.eff ++ Eff.bytes (localOf c.dir) (patch h1 0x7C (leBytes 4 (crc32c (h1.take 0x7C)).toNat)) :: b.1 }) s := by
  simp only [sealStage, hh, hread, hb, hh1]

/-! ## Deliver (09 R232) -/

/-- The run of a batch that is delivered: its records and counts, the manifest and the delivery deferred to the commit. -/
def deliveredRun (x : Ctx) (e : ShufOp) (c : ShufSec) (slot0 : Nat) (f : Fill) : Run :=
  let run := { x.run with
    recs := f.out, recsIn := e.b + f.used, recsOut := e.b - f.unfilled, replaced := f.filled + f.unfilled,
    eff := x.run.eff ++ (manifestEff x c.epoch c.batch f ++ [Eff.delivered slot0 c.epoch x.reef]) }
  if f.unfilled = 0 then run else runCode 0x3005 run

/-- Every slot can be read, the nominal ones are filled and so are the reserve slots in use: the batch is delivered, and the rest is
counters. -/
theorem deliverStage_counts {f : Fill} {addrs : List Nat} {ins : List SlotIn}
    (haddrs : (List.range (e.b + e.q)).map (slotAddr e c.epoch c.batch) = addrs) (hins : addrs.map (slotRead s c.epoch) = ins)
    (hread : ∀ a ∈ addrs, engRead s x.p x.c x.st a e.slotBytes = cOk) (hready : (ins.take e.b).all (·.ready) = true)
    (hfill : fillBatch (ins.drop e.b) ((ins.take e.b).zip (List.range e.b))
      { out := [], man := [], used := 0, filled := 0, unfilled := 0 } = some f) (expired : Bool) :
    CountersOnly (runPut x.num (stageDid x 10 (deliveredRun x e c (addrs.headD 0) f)) s) (deliverStage x e c expired s) := by
  have hcode : firstCode (addrs.map (fun a => engRead s x.p x.c x.st a e.slotBytes)) = cOk :=
    firstCode_ok (by simpa using hread)
  simp only [deliverStage, haddrs, hcode, hins, hready, hfill, if_true]
  exact ((CountersOnly.refl _).bumpReef x 20 _).bumpReef x 19 _

end

/-! ## A slot write that reaches its owner (09 R231) -/

section
variable {s : State} {slot slot0 reef : Nat} {data : List Byte}

theorem slotArrive_of_stale (hstale : u32At data 0 < leNat (readMem s slot 4)) (first : Bool) :
    slotArrive first reef slot slot0 data s = bump (reefCnt reef 39) 1 s := if_pos hstale

theorem slotArrive_of_blocked (hnew : leNat (readMem s slot 4) ≤ u32At data 0) (hwait : slotBlocked s slot slot0 (u32At data 0) = true) :
    slotArrive true reef slot slot0 data s = bump (reefCnt reef 40) 1 { s with slotWaits := s.slotWaits ++ [(slot, slot0, data)] } := by
  simp only [slotArrive, Nat.not_lt.2 hnew, hwait, if_true, if_false]

theorem slotArrive_of_free (hnew : leNat (readMem s slot 4) ≤ u32At data 0) (hfree : slotBlocked s slot slot0 (u32At data 0) = false)
    (first : Bool) : slotArrive first reef slot slot0 data s = writeMem slot data s := by
  simp [slotArrive, Nat.not_lt.2 hnew, hfree]

end

/-- Settles O28: each role's stage passes its guards, so it ends with its records and deferred effects, and the rest is counters; a slot
write takes the branch of R231 that its epoch selects. Three points are the model's choice: the layout of record data in a slot
(notes/assumptions/16.md), the counts of DELIVER and that a blocked feed writes nothing (notes/assumptions/27.md), and that a manifest
leaves the rest of its own slot as it was (notes/assumptions/28.md). -/
theorem shuffleRolesRun : Obligations.ShuffleRolesRun := by
  refine ⟨fun s r x e c => ⟨fun hdue => ?feed, fun hdue => ?census, fun hdue => ?sealing, fun expired f hdue => ?deliver⟩,
    fun s slot batch data => ⟨fun hstale => ?stale, fun hnew => ⟨fun hwait => ?blocked, fun hfree => ?free⟩⟩⟩
  case feed =>
    intro ws live hfree hwrite
    have hws : feedWrites s x e c = ws := List.filterMap_map
    exact ⟨_, exec_of_shufRun rfl hdue, feedStage_counts hws rfl hfree hwrite⟩
  case census =>
    refine ⟨censusBits s x c, ?_, mem_censusBits⟩
    rw [← censusStage_eq]
    exact exec_of_shufRun (f := fun x _ c t => censusStage x c t) rfl hdue
  case sealing =>
    intro a h hread b h1
    rw [← sealStage_of_readable rfl hread rfl rfl]
    exact exec_of_shufRun (f := fun x _ c t => sealStage x c t) rfl hdue
  case deliver =>
    intro addrs ins hread hready hfill
    exact ⟨_, exec_of_shufRun rfl hdue, deliverStage_counts rfl rfl hread hready hfill expired⟩
  case stale => exact congrArg Host.Outcome.next (slotArrive_of_stale hstale true)
  case blocked => exact congrArg Host.Outcome.next (slotArrive_of_blocked hnew hwait)
  case free => exact congrArg Host.Outcome.next (slotArrive_of_free hnew hfree true)

end Sys2Proof.Machine

namespace Sys2Proof.Machine

/-! ## A command that passes its checks (10 R243) -/

/-- What an ASU command does on side `sd` of partition `q` once its fields are checked. -/
def asuAct (op : Nat) (t : AsuTab) (q sd : Nat) (c : AsuCmd) (s : State) : AsuRes × State :=
  match op with
  | 1 => asuFind t q sd c.key none s
  | 2 => asuNext t q sd c s
  | 3 => asuRead t q sd c s
  | 4 => asuWrite t q sd c s
  | 5 => asuDelete t q sd c s
  | 6 => asuInsert t q sd c s
  | _ => asuRebuild t q s

/-- Counting changes counters alone. -/
theorem CountersOnly.bump {s u : State} (h : CountersOnly s u) (i n : Nat) : CountersOnly s (Machine.bump i n u) :=
  h.trans rfl

section
variable {s : State} {c : AsuCmd} {t : AsuTab} {op q sd : Nat}

theorem asuRun_of_due (hdue : AsuDue op c s t q sd) : asuRun op c s = asuAct op t q sd c s := by
  obtain ⟨htab, hfields, hmatch, hpart, rfl, rfl, -⟩ := hdue
  simp only [asuRun, htab, hfields, hmatch, hpart, Bool.not_true, Bool.false_eq_true, if_false]
  rfl

/-- A command that is not held answers at once: its result is an output of the state that it leaves. -/
theorem exec_of_asuDue {i : Instr} {reef : Nat} (hbank : exec i s = .next (asuStart reef op c none s)) (hdue : AsuDue op c s t q sd) :
    exec i s = .next (emit (.asu (asuAct op t q sd c s).1.bytes) (asuAct op t q sd c s).2) := by
  have hrun := asuRun_of_due hdue
  obtain ⟨-, -, -, -, -, -, hfree⟩ := hdue
  rw [hbank, asuStart, hfree, hrun]
  rfl

/-! ## SEARCH and NEXT (10 R245, R246) -/

/-- A ternary table reports its first match as it stands, unless that entry is lost. -/
theorem asuTake_ternary {key : BitVec 128} {m : Nat} {ms : List Nat} {disc : Bool} (htern : t.ternary = true)
    (hkept : (asuGet s (t.pos sd q m)).lost = false) :
    asuTake t q sd key (m :: ms) disc s = ({ hit := some m, more := decide (ms ≠ []), lost := false, discarded := disc }, s) := by
  simp [asuTake, htern, hkept]

theorem asuFind_ternary {key : BitVec 128} {above : Option Nat} {m : Nat} {ms : List Nat}
    (hmatches : asuMatches s t q sd key above = m :: ms) (htern : t.ternary = true)
    (hkept : (asuGet s (t.pos sd q m)).lost = false) :
    (asuFind t q sd key above s).1.off = m ∧ (asuFind t q sd key above s).1.flags = 1 + 2 * (decide (ms ≠ [])).toNat ∧
      (asuFind t q sd key above s).1.data = (asuGet s (t.pos sd q m)).data.toNat ∧ CountersOnly s (asuFind t q sd key above s).2 := by
  have htake := asuTake_ternary (s := bump (reefCnt (t.pos sd q 0 / 65536) 42) 1 s) (key := key) (ms := ms) (disc := false) htern hkept
  simp only [asuFind, hmatches, htake]
  refine ⟨trivial, rfl, rfl, ?_⟩
  split
  · exact (((CountersOnly.refl s).bump _ _).bump _ _).bump _ _
  · exact ((CountersOnly.refl s).bump _ _).bump _ _

/-- The fields of a cursor come back out of it. -/
theorem asuCursor_fields {gen o : Nat} (ho : o < 2 ^ 23) (hsd : sd < 2) (hnum : t.num < 64) (hq : q < 128) (hgen : gen < 65536) :
    asuCursor t q sd gen o / 2 ^ 53 = 0 ∧ asuCursor t q sd gen o / 2 ^ 23 % 2 = sd ∧ asuCursor t q sd gen o / 2 ^ 24 % 64 = t.num ∧
      asuCursor t q sd gen o / 2 ^ 30 % 128 = q ∧ asuCursor t q sd gen o / 2 ^ 37 % 65536 = gen := by
  simp only [asuCursor]
  omega

/-- NEXT with a current cursor of its own table, partition and side searches above the cursor's offset. -/
theorem asuNext_of_cursor {o : Nat} (hcursor : c.cursor.toNat = asuCursor t q sd (asuGenOf s t q sd) o) (ho : o < 2 ^ 23) (hsd : sd < 2)
    (hnum : t.num < 64) (hq : q < 128) (hgen : asuGenOf s t q sd < 65536) :
    asuNext t q sd c s = asuFind t q sd c.key (some (c.cursor.toNat % 2 ^ 23)) s := by
  obtain ⟨h53, hside, htable, hpart, hcurrent⟩ := asuCursor_fields ho hsd hnum hq hgen
  rw [← hcursor] at h53 hside htable hpart hcurrent
  simp only [asuNext, h53, hside, htable, hpart, hcurrent, ne_eq, not_true_eq_false, or_self, if_false]

/-! ## READ (10 R247) -/

theorem asuRead_countersOnly : CountersOnly s (asuRead t q sd c s).2 := by
  simp only [asuRead]
  split
  · exact (CountersOnly.refl s).bump _ _
  · exact .refl s

/-! ## INSERT (10 R248) -/

/-- INSERT's end: the new entry at `o` after `n` entries moved, and the generation advanced where any did. -/
def asuPlaced (t : AsuTab) (q sd : Nat) (c : AsuCmd) (o n : Nat) (s : State) : AsuRes × State :=
  let bank := t.pos sd q 0 / 65536
  let u := asuPut t (t.pos sd q o) (asuNew t c) s
  ({ status := cOk, off := o, part := q },
   bump (reefCnt bank 45) 1 (if n = 0 then u else bump (reefCnt bank 46) n (asuBumpGen t q sd u)))

/-- The free position at or above the offset is within reach, and the one below is not nearer: the entries between move up. -/
theorem asuInsert_up {h : Nat} (hup : (asuHoles s t q sd c.offset.toNat).1 = some h)
    (hreach : h - c.offset.toNat ≤ max 64 (4 * t.hole))
    (hnear : ∀ k, (asuHoles s t q sd c.offset.toNat).2 = some k → h - c.offset.toNat ≤ c.offset.toNat - 1 - k) :
    asuInsert t q sd c s =
      asuPlaced t q sd c c.offset.toNat (h - c.offset.toNat) (asuMoveUp t q sd c.offset.toNat (h - c.offset.toNat) s) := by
  rcases hholes : asuHoles s t q sd c.offset.toNat with ⟨up, down⟩
  simp only [hholes] at hup hnear
  subst hup
  cases down with
  | none => simp only [asuInsert, hholes, Nat.not_lt.2 hreach, if_false]; rfl
  | some k => simp only [asuInsert, hholes, hnear k rfl, Nat.not_lt.2 hreach, if_true, if_false]; rfl

/-- The free position below the offset is within reach, and the one above is further off: the entries between move down. -/
theorem asuInsert_down {k : Nat} (hdown : (asuHoles s t q sd c.offset.toNat).2 = some k)
    (hreach : c.offset.toNat - 1 - k ≤ max 64 (4 * t.hole))
    (hnear : ∀ h, (asuHoles s t q sd c.offset.toNat).1 = some h → c.offset.toNat - 1 - k < h - c.offset.toNat) :
    asuInsert t q sd c s =
      asuPlaced t q sd c (c.offset.toNat - 1) (c.offset.toNat - 1 - k) (asuMoveDown t q sd k (c.offset.toNat - 1 - k) s) := by
  rcases hholes : asuHoles s t q sd c.offset.toNat with ⟨up, down⟩
  simp only [hholes] at hdown hnear
  subst hdown
  cases up with
  | none => simp only [asuInsert, hholes, Nat.not_lt.2 hreach, if_false]; rfl
  | some h => simp only [asuInsert, hholes, Nat.not_le.2 (hnear h rfl), Nat.not_lt.2 hreach, if_false]; rfl

/-! ## REBUILD (10 R250) -/

/-- The valid entries of the active side of a partition, in order, none marked lost. -/
def asuKept (t : AsuTab) (q : Nat) (s : State) : List AsuEntry :=
  let b := t.pos (asuActive s t q) q 0
  (s.asu.filter (fun p => b ≤ p.1 && p.1 < b + t.size && p.2.valid)).map (fun p => { p.2 with lost := false })

theorem asuRebuild_of_fits (hfits : (asuKept t q s).length ≤ (asuSlots t).length) :
    asuRebuild t q s = ({ status := cOk, part := q },
      asuBumpGen t q 0 (asuBumpGen t q 1 (asuSetSide t q (1 - asuActive s t q) (asuFill t q (1 - asuActive s t q) (asuKept t q s) s)))) :=
  if_neg (Nat.not_lt.2 hfits)

end

/-- Settles O32: each command passes its checks, so its clause is what it does with its own table. Two points are the model's choice: that
READ's flag is the entry's VALID bit (notes/assumptions/31.md), and that a command counts at its partition's first bank
(notes/assumptions/32.md). -/
theorem asuCommandsAnswer : Obligations.AsuCommandsAnswer := by
  intro s reef c t q sd o g bank answer
  refine ⟨fun hdue => ?search, fun hdue => ?next, fun hdue => ?read, fun hdue => ?write, fun hdue => ?delete, fun hdue => ?insert,
    fun hdue => ?rebuild⟩
  case search => exact ⟨exec_of_asuDue (op := 1) rfl hdue, fun m ms hmatches htern hkept => asuFind_ternary hmatches htern hkept⟩
  case next =>
    intro hcursor hsd hnum hq hgen
    rw [exec_of_asuDue rfl hdue]
    simp only [asuAct, asuNext_of_cursor hcursor (Nat.mod_lt _ (by decide)) hsd hnum hq hgen, answer]
  case read => exact ⟨_, _, exec_of_asuDue (op := 3) rfl hdue, asuRead_countersOnly, rfl, rfl, rfl, rfl, rfl, rfl⟩
  case write => exact exec_of_asuDue (op := 4) rfl hdue
  case delete => exact exec_of_asuDue (op := 5) rfl hdue
  case insert =>
    refine ⟨fun h hup hreach hnear => ?up, fun k hdown hreach hnear => ?down⟩
    all_goals rw [exec_of_asuDue rfl hdue]
    case up => simp only [asuAct, asuInsert_up hup hreach hnear]; rfl
    case down => simp only [asuAct, asuInsert_down hdown hreach hnear]; rfl
  case rebuild =>
    intro a b es hfits
    rw [exec_of_asuDue rfl hdue]
    simp only [asuAct, asuRebuild_of_fits hfits]
    rfl

end Sys2Proof.Machine

namespace Sys2Proof.Machine

/-! ## A select stage that R267 lets run (11 R266, R267) -/

/-- What a select operation does with its input once nothing ends it. -/
def selAct (op : Nat) (x : Ctx) (e : SelOp) (s : State) : State :=
  if op = 1 then topStage x e (stageInput s x) (if e.expl then readMem s (localOf e.aux) (selAuxLen e) else []) s
  else if op = 2 then sortStage x e ((stageInput s x).take (selInLen s e)) s
  else mergeStage x e (runTable s e) (stageInput s x) s

/-- No check of R267 and no access ends the stage. The length checked is the last stage's output's, or else IN_LEN. -/
theorem selRun_due {op : Nat} {r : RunRef} {s : State} {x : Ctx} {e : SelOp} (hdue : SelDue op r s x e) :
    selRun op r s = notePoison x (selAct op x e s) := by
  obtain ⟨hstage, hparams, rfl, hcheck, hinput, haux, hwrite⟩ := hdue
  have hreads : firstCode [inputCode s x, if selAuxLen e = 0 then cOk else areaCode s (localOf e.aux) (selAuxLen e)] = cOk := by
    by_cases hlen : selAuxLen e = 0
    · simp [firstCode, hinput, hlen]
    · simp [firstCode, hinput, hlen, haux hlen]
  rw [selRun, unitRun_due hstage]
  cases hbytes : x.run.bytes
  all_goals
    simp only [hbytes] at hcheck
    simp only [hparams, ne_self_iff_false, false_and, if_false, hcheck, hreads, hwrite]
    rfl

/-- A select command has the effect of its operation where its stage is due. -/
theorem exec_of_selDue {i : Instr} {op : Nat} {r : RunRef} {s : State} {x : Ctx} {e : SelOp}
    (hunit : exec i s = .next (selRun op r s)) (hdue : SelDue op r s x e) : exec i s = .next (notePoison x (selAct op x e s)) := by
  rw [hunit, selRun_due hdue]

/-! ## What each operation places (11 R268, R275, R276) -/

theorem topStage_counts (x : Ctx) (e : SelOp) (inp aux : List Byte) (s : State) :
    CountersOnly (selEnd x ((List.range e.rows).flatMap (fun n => (topRow e (decide (x.j.tc = 0)) inp aux n).bytes))
      (e.rows * e.rowLen) e.rows cOk s) (topStage x e inp aux s) := by
  rw [← List.flatMap_map (topRow e (decide (x.j.tc = 0)) inp aux) RowOut.bytes]
  unfold topStage
  extract_lets rs sum d placed counted
  have hcounted : CountersOnly placed counted :=
    ((((((((CountersOnly.refl placed).bumpReef x 62 _).bumpReef x 61 _).bumpReef x 60 _).bumpReef x 59 _).bumpReef x 58 _).bumpReef
      x 57 _).bumpReef x 56 _).bumpReef x 55 _
  split
  · exact hcounted
  · exact (hcounted.bump _ _).bump _ _

theorem sortStage_counts (x : Ctx) (e : SelOp) (inp : List Byte) (s : State) :
    CountersOnly (selEnd x ((((chunks (e.rowLen * e.elem) inp).map (runElems e)).flatMap (sortRun e.asc)).flatMap (·.data))
      (e.rows * e.rowLen) (e.rows * e.rowLen) cOk s) (sortStage x e inp s) :=
  ((CountersOnly.refl _).bumpReef x 57 _).bumpReef x 56 _

/-- Runs in order, as the merge finds them, are all written. -/
theorem mergeStage_counts {e : SelOp} {table : List Nat} {inp : List Byte}
    (hsorted : (mergeRuns e.asc ((runElems e inp).length + 1) (cutRuns table (runElems e inp))).2 = false) (x : Ctx) (s : State) :
    CountersOnly (selEnd x ((mergeRuns e.asc ((runElems e inp).length + 1) (cutRuns table (runElems e inp))).1.flatMap (·.data))
      (runElems e inp).length (mergeRuns e.asc ((runElems e inp).length + 1) (cutRuns table (runElems e inp))).1.length cOk s)
      (mergeStage x e table inp s) := by
  simp only [mergeStage, hsorted]
  exact (((CountersOnly.refl _).bumpReef x 63 _).bumpReef x 57 _).bumpReef x 56 _

/-! ## SORT's order (11 R263, R275) -/

theorem Num.lt_asymm {a b : Num} (h : a.lt b = true) : b.lt a = false := by
  cases a with
  | nan => cases h
  | inf neg => cases b <;> simp_all [Num.lt]
  | fin s n d =>
    cases b with
    | nan => cases h
    | inf neg => simp_all [Num.lt]
    | fin t m e => exact decide_eq_false (Int.lt_asymm (of_decide_eq_true h))

theorem valHigher_asymm {asc : Bool} {a b : Num} (h : valHigher asc a b = true) : valHigher asc b a = false := by
  cases asc with
  | false => exact Num.lt_asymm h
  | true => exact Num.lt_asymm h

theorem before_asymm {asc : Bool} {a b : RunElt} (h : before asc a b = true) : before asc b a = false := by
  unfold before at h ⊢
  by_cases ha : a.key = .nan
  · simp [ha] at h
  · by_cases hb : b.key = .nan
    · simp [hb]
    · simp only [ha, hb, if_false] at h ⊢
      exact valHigher_asymm h

/-- `a` may stand in front of `b`: it does not rank after it. -/
abbrev NotAfter (asc : Bool) (a b : RunElt) : Prop := before asc b a = false

theorem insRun_eq_orderedInsert (asc : Bool) (a : RunElt) (l : List RunElt) : insRun asc a l = l.orderedInsert (NotAfter asc) a := by
  induction l with
  | nil => rfl
  | cons b t ih =>
    rw [List.orderedInsert_cons, insRun, ih]
    by_cases hba : before asc b a = true <;> simp [hba]

theorem sortRun_eq_insertionSort (asc : Bool) (l : List RunElt) : sortRun asc l = l.insertionSort (NotAfter asc) := by
  rw [sortRun, funext₂ (insRun_eq_orderedInsert asc), List.insertionSort]

theorem sortRun_perm (asc : Bool) (l : List RunElt) : (sortRun asc l).Perm l := by
  rw [sortRun_eq_insertionSort]
  exact List.perm_insertionSort _ l

theorem head_insRun {asc : Bool} {a b : RunElt} {l : List RunElt} (h : b ∈ (insRun asc a l).head?) : b = a ∨ b ∈ l.head? := by
  cases l with
  | nil => exact .inl (Option.mem_some.1 h).symm
  | cons c t =>
    rw [insRun] at h
    split at h
    · exact .inr h
    · exact .inl (Option.mem_some.1 h).symm

/-- The neighbour in front of an inserted element ranks before it, so the element does not rank before that neighbour; the neighbour behind
is the first that does not rank before it. -/
theorem insRun_isChain {asc : Bool} (a : RunElt) {l : List RunElt} (h : l.IsChain (NotAfter asc)) :
    (insRun asc a l).IsChain (NotAfter asc) := by
  induction l with
  | nil => exact .singleton a
  | cons b t ih =>
    obtain ⟨hnext, htail⟩ := List.isChain_cons.1 h
    rw [insRun]
    split
    case isTrue hba =>
      refine List.isChain_cons.2 ⟨fun c hc => ?_, ih htail⟩
      rcases head_insRun hc with rfl | hc
      · exact before_asymm hba
      · exact hnext c hc
    case isFalse hba => exact .cons_cons (Bool.eq_false_of_not_eq_true hba) h

theorem sortRun_isChain (asc : Bool) (l : List RunElt) : (sortRun asc l).IsChain (NotAfter asc) := by
  induction l with
  | nil => exact .nil
  | cons a t ih => exact insRun_isChain a ih

/-- Settles O29: the stage passes its checks, so each clause is what its operation places, the counters aside. SORT is an insertion sort:
it permutes its run, and each insertion keeps neighbours in order because no two elements rank before each other. The merge tree over the
pieces of a long row is the model's choice (notes/assumptions/18.md). -/
theorem selectPlacesItsResults : Obligations.SelectPlacesItsResults := by
  refine ⟨fun s r x e => ⟨fun hdue => ?topk, fun hdue => ?sort, fun hdue => ?merge⟩, fun asc l => ⟨sortRun_perm asc l, ?order⟩⟩
  case topk => exact ⟨_, exec_of_selDue rfl hdue, topStage_counts ..⟩
  case sort => exact ⟨_, exec_of_selDue rfl hdue, sortStage_counts ..⟩
  case merge =>
    intro es o hsorted
    exact ⟨_, exec_of_selDue rfl hdue, mergeStage_counts hsorted x s⟩
  case order =>
    intro n a b ha hb
    obtain ⟨hn, rfl⟩ := List.getElem?_eq_some_iff.1 ha
    obtain ⟨hnext, rfl⟩ := List.getElem?_eq_some_iff.1 hb
    exact (sortRun_isChain asc l).getElem n hnext

end Sys2Proof.Machine

namespace Sys2Proof.Machine

/-! ## Steps

A step is `exec` of the front command on the queue's rest, or a tick. What holds of a step follows from what every command keeps. -/

theorem step_of_empty {s : State} (h : s.pending = []) : step s = .next { s with time := s.time + 1 } := by
  rw [step, h]

theorem step_of_front {s : State} {c : Instr} {rest : List Instr} (h : s.pending = c :: rest) :
    step s = exec c { s with pending := rest } := by
  rw [step, h]

/-- What a step can do: a microsecond passes, or the front command is run. -/
theorem step_cases {s t : State} (h : step s = .next t) :
    t = { s with time := s.time + 1 } ∨ ∃ c rest, s.pending = c :: rest ∧ exec c { s with pending := rest } = .next t := by
  obtain hq | hq := eq_or_ne s.pending []
  · rw [step_of_empty hq] at h
    exact .inl (Host.Outcome.next.inj h).symm
  · obtain ⟨c, rest, hq⟩ := List.exists_cons_of_ne_nil hq
    rw [step_of_front hq] at h
    exact .inr ⟨c, rest, hq, h⟩

/-- What a command keeps, of the state that it answers. -/
theorem keeps_of_exec {c : Instr} {s t : State} (h : exec c s = .next t) :
    Keeps (restartsCold c = true) (sparesMemory c = false) (writesFlash c = true) (movesPins c = true) s t := by
  obtain ⟨u, hnext, hkeeps⟩ := exec_keeps c s
  obtain rfl : u = t := Host.Outcome.next.inj (hnext.symm.trans h)
  exact hkeeps

/-- Settles O1: the two branches of `step`. That on an empty queue one microsecond passes is the model's choice
(notes/assumptions/2.md). -/
theorem stepRunsTheFrontCommand : Obligations.StepRunsTheFrontCommand :=
  ⟨fun _ _ _ => step_of_front rfl, fun _ => step_of_empty⟩

/-- Settles O2: the stores at reset are empty or listed in rising order, and no record of the log stands. -/
theorem resetIsSound : Obligations.ResetIsSound := by
  refine ⟨⟨rfl, rfl, rfl, ?_, rfl⟩, trivial⟩
  decide

/-- Settles O3: the front command keeps a sound state sound, and the queue and the clock are no part of what `Sound` says. The values that
unlisted bytes read as are the model's choice (notes/assumptions/4.md, notes/assumptions/5.md). -/
theorem stepKeepsSound : Obligations.StepKeepsSound := by
  intro s t hsound hstep
  obtain rfl | ⟨c, rest, -, hexec⟩ := step_cases hstep
  · exact hsound
  · exact (keeps_of_exec hexec).sound hsound

theorem restartsCold_eq_false {c : Instr} (hpor : ∀ us, c ≠ .porNAssert us) (hloss : c ≠ .powerLoss) : restartsCold c = false := by
  cases c with
  | porNAssert us => exact absurd rfl (hpor us)
  | powerLoss => exact absurd rfl hloss
  | _ => rfl

/-- Settles O5: each part is one of the things that every command keeps. That a command takes no time on the interval timers and that
session ids are counted up is the model's choice (notes/assumptions/2.md, notes/assumptions/7.md); that DEBUG_UNLOCKED stays is R512. -/
theorem nothingTurnsBack : Obligations.NothingTurnsBack := by
  refine ⟨fun s t hstep => ?_, fun c s t hpor hloss hexec => ?_⟩
  · obtain rfl | ⟨c, rest, -, hexec⟩ := step_cases hstep
    · exact .refl _
    · exact (keeps_of_exec hexec).fuses
  · have hkeeps := keeps_of_exec hexec
    have hwarm := hkeeps.warm.resolve_left (by simp [restartsCold_eq_false hpor hloss])
    exact ⟨hwarm, hkeeps.out⟩

/-- Settles O6: each part is one of the things that every command keeps, by the tables of Safety. That records of the log and of the
journals leave memory as it was is the model's choice: device-owned areas are fields of the state (notes/assumptions/100.md, 22 R517). -/
theorem commandsKeepToTheirStores : Obligations.CommandsKeepToTheirStores := by
  refine ⟨fun c s t hspares hexec => ?_, fun c s t hexec => ⟨fun hflash a => ?_, fun hpins => ?_⟩⟩
  · obtain ⟨hmem, hpoison⟩ := (keeps_of_exec hexec).memory.resolve_left (by simp [hspares])
    exact ⟨hpoison, fun k => by rw [kget, hmem, kget]⟩
  · have hkept := (keeps_of_exec hexec).flash.resolve_left (by simp [hflash])
    rw [fget, hkept, fget]
  · exact (keeps_of_exec hexec).pins.resolve_left (by simp [hpins])

end Sys2Proof.Machine

namespace Sys2Proof.Machine

/-! ## A list goes on (14 R336, R337) -/

/-- A list that waits for nothing and has the command next runs it. -/
theorem listRuns_next_of_listIssues {s : State} {k : Nat} {c : SeqCmd} (h : listIssues s k c = true) :
    listRuns s k = true ∧ (seqGet s k).wait = none ∧ (listProg s k)[(seqGet s k).pc]? = some c := by
  simp only [listIssues, Bool.and_eq_true, decide_eq_true_eq] at h
  exact ⟨h.1.1, h.1.2, h.2⟩

theorem listRuns_of_listIssues {s : State} {k : Nat} {c : SeqCmd} (h : listIssues s k c = true) : listRuns s k = true :=
  (listRuns_next_of_listIssues h).1

theorem mput_ne_nil {α : Type} (m : SMap α) (k : Nat) (v : α) : mput m k v ≠ [] := by
  cases m with
  | nil => simp [mput]
  | cons p m =>
    obtain ⟨j, w⟩ := p
    simp only [mput]
    split
    · simp
    · split <;> simp

theorem mset_ne_nil {α : Type} [DecidableEq α] {d v : α} (h : v ≠ d) (m : SMap α) (k : Nat) : mset d m k v ≠ [] := by
  rw [mset, if_neg h]
  exact mput_ne_nil m k v

theorem nadd_ne_nil (m : NSet) (k : Nat) : nadd m k ≠ [] := mset_ne_nil (by decide) m k

/-- A list past its first command is no list as it starts, so it reads as it was put. -/
theorem seqGet_seqPut_pc (s : State) (k : Nat) {x : SeqList} (h : x.pc ≠ 0) : seqGet (seqPut k x s) k = x :=
  seqGet_seqPut s fun e => h (congrArg SeqList.pc e)

theorem seqGet_seqPut_wait (s : State) (k : Nat) {x : SeqList} (h : x.wait ≠ none) : seqGet (seqPut k x s) k = x :=
  seqGet_seqPut s fun e => h (congrArg SeqList.wait e)

@[simp] theorem seqGet_bump (i n : Nat) (s : State) (k : Nat) : seqGet (bump i n s) k = seqGet s k := rfl
@[simp] theorem seqGet_objPut (o : Nat) (x : SyncObj) (s : State) (k : Nat) : seqGet (objPut o x s) k = seqGet s k := rfl
@[simp] theorem seqGet_barPut (b : Nat) (x : Barrier) (s : State) (k : Nat) : seqGet (barPut b x s) k = seqGet s k := rfl

theorem seqGet_seqNext (s : State) (k : Nat) :
    seqGet (seqNext k s) k = { seqGet s k with pc := (seqGet s k).pc + 1, wait := none, slept := false } :=
  seqGet_seqPut_pc s k (Nat.succ_ne_zero _)

theorem cellsDone_runs (r : RunRef) (s : State) : cellsDone r s = { s with runs := (cellsDone r s).runs } := by
  unfold cellsDone
  split
  · rfl
  · split <;> rfl

/-- DONE of a list gives up its descriptor, and beside the list only runs change. -/
theorem seqDone_lists (k : Nat) (s : State) :
    seqDone k s =
      { seqPut k { pc := (seqGet s k).pc + 1, cur := none, wait := none, slept := false } s with runs := (seqDone k s).runs } := by
  unfold seqDone
  dsimp only
  split
  · rw [cellsDone_runs]
  · rfl

/-- TAKE of a list for which a descriptor stands. -/
theorem seqTake_of_some {s : State} {k : Nat} {r : RunRef} (h : takeNext s k = some r) :
    seqTake k s = seqPut k { pc := (seqGet s k).pc + 1, cur := some r, wait := none, slept := false }
      (runPut (refNum r) { runGet s (refNum r) with served := nadd (runGet s (refNum r)).served k } s) := by
  simp only [seqTake, h]

theorem seqTake_of_none {s : State} {k : Nat} (h : takeNext s k = none) :
    seqTake k s = seqPut k { seqGet s k with wait := some .take } s := by
  simp only [seqTake, h]

/-- A run that serves a list is no run as it starts. -/
theorem runGet_runPut_served (s : State) (j k : Nat) (x : Run) :
    runGet (runPut j { x with served := nadd x.served k } s) j = { x with served := nadd x.served k } :=
  runGet_runPut s fun e => nadd_ne_nil x.served k (congrArg Run.served e)

theorem exec_take_of_issues {s : State} {l : ListId} (h : listIssues s (listKey l) { word := 1, arg := 0, addr := 0 } = true) :
    exec (.take l) s = .next (seqTake (listKey l) s) := by
  obtain ⟨hruns, hwait, hnext⟩ := listRuns_next_of_listIssues h
  exact congrArg Host.Outcome.next (if_pos (by simp [hruns, hwait, hnext]))

/-- Settles O20: a list that issues its command has that command's effect. Which descriptor TAKE finds where the list serves several channels
is the model's choice (notes/assumptions/86.md), and `takeNext` stands for it. -/
theorem listsFlow : Obligations.ListsFlow := by
  intro s l k x
  refine ⟨fun hissues => ?nop, fun target hissues => ?jump, fun hissues => ?done, fun hissues => ⟨fun r htake => ?taken, fun htake => ?waits⟩⟩
  case nop => exact congrArg Host.Outcome.next (if_pos hissues)
  case jump => exact congrArg Host.Outcome.next (if_pos hissues)
  case done =>
    refine ⟨seqDone k s, congrArg Host.Outcome.next (if_pos hissues), ?_, ?_⟩
    · rw [seqDone_lists]
      exact seqGet_seqPut_pc (x := { pc := (seqGet s k).pc + 1, cur := none, wait := none, slept := false }) s k (Nat.succ_ne_zero _)
    · rw [seqDone_lists]
      rfl
  case taken =>
    refine ⟨_, exec_take_of_issues hissues, ?_⟩
    rw [seqTake_of_some htake]
    refine ⟨seqGet_seqPut_pc _ k (Nat.succ_ne_zero _), ?_, rfl⟩
    have hrun := runGet_runPut_served s (refNum r) k (runGet s (refNum r))
    exact (congrArg (fun x : Run => nmem x.served k) hrun).trans (nmem_nadd ..)
  case waits => rw [exec_take_of_issues hissues, seqTake_of_none htake]

/-! ## Objects count (14 R339-R341) -/

/-- An object that is assigned has a ceiling, and so reads as it was put. -/
theorem objGet_objPut_ceiling (s : State) (o : Nat) {x : SyncObj} (h : x.ceiling ≠ 0) : objGet (objPut o x s) o = x :=
  objGet_objPut s fun e => h (congrArg SyncObj.ceiling e)

theorem ceiling_of_objOk {s : State} {o : Nat} (h : objOk s o = true) : (objGet s o).ceiling ≠ 0 := by
  simp only [objOk, Bool.and_eq_true, decide_eq_true_eq] at h
  exact h.1.2

/-- With nobody queued nobody is woken. -/
theorem objWake_of_queue_nil {s : State} {o : Nat} (h : (objGet s o).queue = []) : objWake o s = s := by
  rw [objWake, h]
  rfl

/-- Nobody is woken where the first waiter's condition is false. -/
theorem objWake_of_short {s : State} {o : Nat} {w : Waiter} (h : (objGet s o).queue = [w]) (hn : (objGet s o).count < w.n) :
    objWake o s = s := by
  simp only [objWake, h, List.length_singleton, objServe, Nat.not_le.2 hn, false_and, if_false]

/-- One waiter whose condition holds and whose sheet runs is served. -/
theorem objWake_of_ready {s : State} {o : Nat} {w : Waiter} (h : (objGet s o).queue = [w]) (hn : w.n ≤ (objGet s o).count)
    (hruns : listRuns s w.list = true) :
    objWake o s = seqNext w.list (bump (reefCnt (w.list / 64) 1) 1
      (objPut o { objGet s o with count := (objGet s o).count - w.n, queue := [] } s)) := by
  simp only [objWake, h, List.length_singleton, objServe, hn, hruns, and_self, if_true]

theorem objSignal_below_ceiling {s : State} {o n : Nat} (hok : objOk s o = true) (hn : (objGet s o).count + n ≤ (objGet s o).ceiling) :
    objSignal o n s = (cOk, objWake o (bump (reefCnt (o / 48) 0) 1 (objPut o { objGet s o with count := (objGet s o).count + n } s))) := by
  simp only [objSignal, hok, Bool.not_true, Bool.false_eq_true, if_false, Nat.not_lt.2 hn]

theorem seqSignal_below_ceiling {s : State} {o n : Nat} (k : Nat) (hok : objOk s o = true)
    (hn : (objGet s o).count + n ≤ (objGet s o).ceiling) :
    seqSignal k o n s =
      seqNext k (objWake o (bump (reefCnt (o / 48) 0) 1 (objPut o { objGet s o with count := (objGet s o).count + n } s))) := by
  simp only [seqSignal, objSignal_below_ceiling hok hn, if_true]

/-- SIGNAL of an object for which nobody waits only counts. -/
theorem objWake_signalled {s : State} {o : Nat} (hok : objOk s o = true) (n i : Nat) (h : (objGet s o).queue = []) :
    objWake o (bump i 1 (objPut o { objGet s o with count := (objGet s o).count + n } s)) =
      bump i 1 (objPut o { objGet s o with count := (objGet s o).count + n } s) := by
  have hput := objGet_objPut_ceiling s o (x := { objGet s o with count := (objGet s o).count + n }) (ceiling_of_objOk hok)
  exact objWake_of_queue_nil ((congrArg SyncObj.queue hput).trans h)

theorem seqDecrement_enough {s : State} {k o n : Nat} (hok : objOk s o = true) (hisland : o / 48 = k / 64) (hn : n ≤ (objGet s o).count) :
    seqDecrement k o n s = seqNext k (objPut o { objGet s o with count := (objGet s o).count - n } s) := by
  simp [seqDecrement, hok, hisland, Nat.not_lt.2 hn]

/-- The list in the object's queue, as WAIT puts it there. -/
def waiting (k o n left : Nat) (s : State) : State :=
  objPut o { objGet s o with queue := (objGet s o).queue ++ [{ list := k, n := n }] }
    (seqPut k { seqGet s k with wait := some (.obj o n left) } s)

theorem objGet_waiting {s : State} {o : Nat} (hok : objOk s o = true) (hqueue : (objGet s o).queue = []) (k n left : Nat) :
    objGet (waiting k o n left s) o = { objGet s o with queue := [{ list := k, n := n }] } := by
  rw [waiting, hqueue]
  exact objGet_objPut_ceiling _ o (ceiling_of_objOk hok)

theorem seqGet_waiting (s : State) (k o n left : Nat) :
    seqGet (waiting k o n left s) k = { seqGet s k with wait := some (.obj o n left) } :=
  seqGet_seqPut_wait s k (Option.some_ne_none _)

/-- A wait whose condition is false may be counted as slept, and nothing else (14 R341). -/
theorem waiterTests_eq (k : Nat) (s : State) :
    waiterTests k s = { s with lists := (waiterTests k s).lists, counters := (waiterTests k s).counters } := by
  unfold waiterTests
  dsimp only
  split
  · rfl
  · split <;> rfl

theorem waiterTests_wait {s : State} {k : Nat} (h : (seqGet s k).wait ≠ none) : (seqGet (waiterTests k s) k).wait = (seqGet s k).wait := by
  have hslept : (seqGet (seqPut k { seqGet s k with slept := true } s) k).wait = (seqGet s k).wait := by
    rw [seqGet_seqPut_wait s k (x := { seqGet s k with slept := true }) h]
  unfold waiterTests
  dsimp only
  split
  · rfl
  · split
    · exact hslept
    · exact hslept
    · rfl

section
variable {s : State} {k o n : Nat} (timeout : Nat) (hok : objOk s o = true) (hisland : o / 48 = k / 64) (hqueue : (objGet s o).queue = [])
include hok hisland hqueue

theorem seqWait_ready (hn : n ≤ (objGet s o).count) :
    seqWait k o n timeout s = objWake o (waiting k o n (if timeout = 0 then (objGet s o).timeout else timeout) s) := by
  simp [seqWait, waiting, hok, hisland, hqueue, hn]

theorem seqWait_short (hn : (objGet s o).count < n) :
    seqWait k o n timeout s = objWake o (waiterTests k (waiting k o n (if timeout = 0 then (objGet s o).timeout else timeout) s)) := by
  simp [seqWait, waiting, hok, hisland, hqueue, Nat.not_le.2 hn]

/-- WAIT with nobody queued and its condition true takes its count and goes on. -/
theorem seqWait_served (hn : n ≤ (objGet s o).count) (hruns : listRuns s k = true) :
    let t := seqWait k o n timeout s
    (objGet t o).count = (objGet s o).count - n ∧ (objGet t o).queue = [] ∧
      seqGet t k = { seqGet s k with pc := (seqGet s k).pc + 1, wait := none, slept := false } ∧
      t = { s with objs := t.objs, lists := t.lists, counters := t.counters } := by
  have hready := seqWait_ready timeout hok hisland hqueue hn
  generalize (if timeout = 0 then (objGet s o).timeout else timeout) = left at hready
  have hobj := objGet_waiting hok hqueue k n left
  have hserved : objWake o (waiting k o n left s) = _ :=
    objWake_of_ready (congrArg SyncObj.queue hobj) (hn.trans_eq (congrArg SyncObj.count hobj).symm) hruns
  have hput := objGet_objPut_ceiling (waiting k o n left s) o (x := { objGet s o with count := (objGet s o).count - n, queue := [] })
    (ceiling_of_objOk hok)
  rw [hready, hserved, hobj]
  refine ⟨congrArg SyncObj.count hput, congrArg SyncObj.queue hput, ?_, ?_⟩
  · rw [seqGet_seqNext, seqGet_bump, seqGet_objPut, seqGet_waiting]
  · dsimp only [seqNext, seqGo, seqPut, bump, objPut, waiting]

/-- WAIT with nobody queued and its condition false is the one waiter. -/
theorem seqWait_queues (hn : (objGet s o).count < n) :
    let t := seqWait k o n timeout s
    objGet t o = { objGet s o with queue := [{ list := k, n := n }] } ∧
      (seqGet t k).wait = some (.obj o n (if timeout = 0 then (objGet s o).timeout else timeout)) ∧
      t = { s with objs := t.objs, lists := t.lists, counters := t.counters } := by
  have hshort := seqWait_short timeout hok hisland hqueue hn
  generalize (if timeout = 0 then (objGet s o).timeout else timeout) = left at hshort ⊢
  have hseq := congrArg SeqList.wait (seqGet_waiting s k o n left)
  have hwaits := (waiterTests_wait (hseq.trans_ne (Option.some_ne_none _))).trans hseq
  have htests := waiterTests_eq k (waiting k o n left s)
  have hobj : objGet (waiterTests k (waiting k o n left s)) o = { objGet s o with queue := [{ list := k, n := n }] } := by
    rw [htests]
    exact objGet_waiting hok hqueue k n left
  rw [hshort, objWake_of_short (congrArg SyncObj.queue hobj) ((congrArg SyncObj.count hobj).trans_lt hn)]
  refine ⟨hobj, hwaits, ?_⟩
  rw [htests]
  rfl

end

/-- Settles O21: SIGNAL wakes nobody where nobody waits, and WAIT with nobody queued is the one waiter, who is served or stays. -/
theorem objectsCount : Obligations.ObjectsCount := by
  intro s l obj n k o x hok
  refine ⟨fun hissues hn => ⟨?signal, fun hqueue => ?signalOnly⟩, fun hissues hisland hn => ?decrement,
    fun timeout hissues hisland hqueue => ⟨fun hn => ?waitReady, fun hn => ?waitShort⟩⟩
  case signal => exact (congrArg Host.Outcome.next (if_pos hissues)).trans (by rw [seqSignal_below_ceiling k hok hn])
  case signalOnly =>
    exact (congrArg Host.Outcome.next (if_pos hissues)).trans
      (by rw [seqSignal_below_ceiling k hok hn, objWake_signalled hok _ _ hqueue])
  case decrement => exact (congrArg Host.Outcome.next (if_pos hissues)).trans (by rw [seqDecrement_enough hok hisland hn])
  case waitReady => exact ⟨_, congrArg Host.Outcome.next (if_pos hissues), seqWait_served timeout.toNat hok hisland hqueue hn
    (listRuns_of_listIssues hissues)⟩
  case waitShort => exact ⟨_, congrArg Host.Outcome.next (if_pos hissues), seqWait_queues timeout.toNat hok hisland hqueue hn⟩

/-! ## Barriers count arrivals (14 R353, R354) -/

theorem onBarrier_participant {s : State} {b k : Nat} {pl : BarPlan} (hplan : barNow s b = some pl) (hpart : pl.lists.contains k = true)
    (f : BarPlan → State → State) : onBarrier k b f s = f pl s := by
  simp only [onBarrier, hplan, hpart, if_true]

/-- The list as it waits for the barrier. -/
def atBarrier (b k left : Nat) (s : State) : State := seqPut k { seqGet s k with wait := some (.bar b left) } s

/-- The barrier with a participant's last generation waited for. -/
def barPassed (b k : Nat) (s : State) : Barrier :=
  { barGet s b with parts := mset ⟨0, 0⟩ (barGet s b).parts k { partGet (barGet s b) k with w1 := (partGet (barGet s b) k).a } }

section
variable {s : State} {b k : Nat} (harrived : 0 < (partGet (barGet s b) k).a)
include harrived

theorem arrived_ne_init : ({ partGet (barGet s b) k with w1 := (partGet (barGet s b) k).a } : Part) ≠ ⟨0, 0⟩ :=
  fun e => harrived.ne' (congrArg Part.a e)

theorem barGet_barPassed (t : State) : barGet (barPut b (barPassed b k s) t) b = barPassed b k s :=
  barGet_barPut t fun e => mset_ne_nil (arrived_ne_init harrived) (barGet s b).parts k (congrArg Barrier.parts e)

theorem partGet_barPassed : (partGet (barPassed b k s) k).w1 = (partGet (barGet s b) k).a :=
  congrArg Part.w1 (mget_mset_nd (barGet s b).parts k (arrived_ne_init harrived))

/-- A participant whose generation is over passes. -/
theorem seqBarWait_passes (pl : BarPlan) (timeout : Nat) (hover : (partGet (barGet s b) k).a ≤ (barGet s b).g) (hruns : listRuns s k = true) :
    seqBarWait b pl k timeout s = seqNext k (bump (reefCnt (k / 64) 1) 1
      (barPut b (barPassed b k s) (atBarrier b k (if timeout = 0 then pl.timeout else timeout) s))) := by
  have hwait := seqGet_seqPut_wait s k (x := { seqGet s k with wait := some (.bar b (if timeout = 0 then pl.timeout else timeout)) })
    (Option.some_ne_none _)
  simp only [seqBarWait, harrived.ne', hover, if_true, if_false, barServeList, hwait]
  exact if_pos ⟨trivial, hover, hruns⟩

/-- It then stands at its next command, with that generation waited for. -/
theorem seqBarWait_passed (pl : BarPlan) (timeout : Nat) (hover : (partGet (barGet s b) k).a ≤ (barGet s b).g) (hruns : listRuns s k = true) :
    let t := seqBarWait b pl k timeout s
    (seqGet t k).pc = (seqGet s k).pc + 1 ∧ (seqGet t k).wait = none ∧ (partGet (barGet t b) k).w1 = (partGet (barGet s b) k).a ∧
      t = { s with barriers := t.barriers, lists := t.lists, counters := t.counters } := by
  rw [seqBarWait_passes harrived pl timeout hover hruns]
  generalize (if timeout = 0 then pl.timeout else timeout) = left
  have hat : seqGet (atBarrier b k left s) k = { seqGet s k with wait := some (.bar b left) } :=
    seqGet_seqPut_wait s k (Option.some_ne_none _)
  have hnext := seqGet_seqNext (bump (reefCnt (k / 64) 1) 1 (barPut b (barPassed b k s) (atBarrier b k left s))) k
  rw [seqGet_bump, seqGet_barPut, hat] at hnext
  refine ⟨congrArg SeqList.pc hnext, congrArg SeqList.wait hnext, ?_, ?_⟩
  · exact (congrArg (fun y => (partGet y k).w1) (barGet_barPassed harrived _)).trans (partGet_barPassed harrived)
  · dsimp only [seqNext, seqGo, seqPut, bump, barPut, atBarrier]

end

/-- Settles O22: each command of a participant is its branch of `onBarrier`. -/
theorem barriersCountArrivals : Obligations.BarriersCountArrivals := by
  intro s l bar pl k b hplan hpart
  refine ⟨fun hissues hlaps => ?arrive, fun timeout => ⟨fun hissues hnever => ?never, fun hissues harrived => ⟨?bwait, fun hover _ => ?passes⟩,
    fun hissues hlaps => ?arriveWait⟩⟩
  case arrive =>
    refine congrArg Host.Outcome.next ((if_pos hissues).trans ((onBarrier_participant hplan hpart _).trans ?_))
    exact if_neg (Bool.eq_false_iff.1 hlaps)
  case never =>
    refine congrArg Host.Outcome.next ((if_pos hissues).trans ((onBarrier_participant hplan hpart _).trans ?_))
    exact if_pos hnever
  case bwait => exact congrArg Host.Outcome.next ((if_pos hissues).trans (onBarrier_participant hplan hpart _))
  case passes => exact ⟨_, rfl, seqBarWait_passed harrived pl timeout.toNat hover (listRuns_of_listIssues hissues)⟩
  case arriveWait =>
    refine congrArg Host.Outcome.next ((if_pos hissues).trans ((onBarrier_participant hplan hpart _).trans ?_))
    exact if_neg (Bool.eq_false_iff.1 hlaps)

end Sys2Proof.Machine

namespace Sys2Proof.Machine

/-! ## A descriptor commits (17 R414) -/

/-- With nothing owed, lost or too large, and room in the log, a finished run commits. -/
theorem commitRun_ready {s : State} {i n : Nat} (j : Journal) (hdone : runFinished s (chanGet s i) (runGet s (runNum i n)) = true)
    (howed : s.engines = []) (hsize : effBytes (runGet s (runNum i n)).eff ≤ 0x1000000)
    (hlost : lostTarget s (runGet s (runNum i n)).eff = false)
    (hroom : logFits s (chanGet s i) (effBytes (runGet s (runNum i n)).eff) = true) : commitRun i n j s = commitNow i n j s := by
  have hcap : capEff (runNum i n) s = s := if_pos hsize
  simp [commitRun, hcap, hdone, howed, hlost, hroom]

/-- Effects that go to no peer send nothing. -/
theorem foldl_dispatchPeer_own (k : Nat) (tc : BitVec 2) (es : List Eff) (s : State)
    (h : ∀ e ∈ es, ∀ a b d e1 e2 f, e ≠ .peer a b d e1 e2 f) : es.foldl (dispatchPeer k tc) s = s := by
  refine List.foldlRecOn (motive := fun t => t = s) _ _ rfl ?_
  rintro t rfl e he
  cases e with
  | peer a b d e1 e2 f => exact absurd rfl (h _ he a b d e1 e2 f)
  | _ => rfl

/-- Settles O17: nothing keeps the descriptor from its commit, which is `commitNow`. What counts in the 16 MiB is the model's choice
(notes/assumptions/37.md). -/
theorem commitAdvancesTheChannel : Obligations.CommitAdvancesTheChannel := by
  intro s chan j i c n k x hj hstate hafter hverdict hruns hfrozen hcopies hdone howed hsize hlost hroom t
  have hcommit : exec (.descriptorCommit chan) s = .next (commitNow i n j s) := by
    rw [← commitRun_ready j hdone howed hsize hlost hroom]
    simp only [c, n, i] at hj hruns hfrozen hcopies
    simp [exec, execDescriptorCommit, c, n, i, hj, hstate, hafter, hverdict, hruns, hfrozen, hcopies]
  exact ⟨hcommit, fun hown => hcommit.trans (congrArg Host.Outcome.next (foldl_dispatchPeer_own k j.tc x.eff t hown))⟩

/-! ## A batch is applied once (17 R415) -/

section
variable {s : State} {island : BitVec 4} {r : RunRef} {j : Journal} (hj : journalOf s r.chan.toNat r.seq.toNat = some j)
  (hstate : j.state = .committed) (hverdict : j.verdict = 0) (hisland : islLost s island.toNat = false)
include hj hstate hverdict hisland

theorem exec_batchApply_next (hnew : appliedThrough s island.toNat r.chan.toNat < r.seq.toNat)
    (htarget : (effIslands s (runGet s (runNum r.chan.toNat r.seq.toNat)).eff).contains island.toNat = true)
    (hearlier : earlierApplied s island.toNat r.chan.toNat r.seq.toNat = true) :
    exec (.batchApply island r) s = .next
      (let k := runNum r.chan.toNat r.seq.toNat
       let u := applyBatch r island.toNat (runGet s k).eff
         { s with applied := mset 0 s.applied (4096 * island.toNat + r.chan.toNat) r.seq.toNat }
       runPut k { runGet u k with applied := nadd (runGet u k).applied island.toNat } u) := by
  have hnotBelow : ¬ r.seq.toNat ≤ appliedThrough s island.toNat r.chan.toNat := Nat.not_le.2 hnew
  simp only [exec, execBatchApply, hj, hstate, hverdict, hisland, hnotBelow, htarget, hearlier, reduceCtorEq, decide_false, Bool.or_self,
    Bool.false_eq_true, ne_eq, not_true_eq_false, Bool.not_true, if_false]

theorem exec_batchApply_again (hold : r.seq.toNat ≤ appliedThrough s island.toNat r.chan.toNat) :
    exec (.batchApply island r) s = .next
      (let k := runNum r.chan.toNat r.seq.toNat
       bump (rcvCnt 2) 1 (runPut k { runGet s k with applied := nadd (runGet s k).applied island.toNat } s)) := by
  simp only [exec, execBatchApply, hj, hstate, hverdict, hisland, hold, reduceCtorEq, decide_false, Bool.or_self, Bool.false_eq_true,
    ne_eq, not_true_eq_false, if_true, if_false]

end

/-- Settles O18: a batch above APPLIED_THROUGH is applied and one at or below it only counted. That an effect belongs to the island of its
first byte is the model's choice, deduced (notes/assumptions/36.md). -/
theorem batchesApplyOnce : Obligations.BatchesApplyOnce := by
  intro s island r j i c n k x hj hstate hverdict hisland
  refine ⟨fun hnew htarget hearlier => exec_batchApply_next hj hstate hverdict hisland hnew htarget hearlier, fun hold => ?_⟩
  exact ⟨_, exec_batchApply_again hj hstate hverdict hisland hold, rfl⟩

end Sys2Proof.Machine

namespace Sys2Proof.Machine

/-! ## A stage that counts and then writes -/

/-- What was counted before a run is put counts after it. -/
theorem CountersOnly.runPut {s t : State} (h : CountersOnly s t) (k : Nat) (x : Run) : CountersOnly (runPut k x s) (runPut k x t) := by
  rw [CountersOnly] at h ⊢
  rw [h]
  rfl

theorem CountersOnly.writeMem {s t : State} (h : CountersOnly s t) (a : Nat) (bs : List Byte) :
    CountersOnly (writeMem a bs s) (writeMem a bs t) := by
  rw [CountersOnly] at h ⊢
  rw [h]
  rfl

/-! ## A layout transform (13 R319-R326) -/

/-- The windows written one transform after another. -/
def putWindows (ms : List (Transform × Moved)) (s : State) : State :=
  ms.foldl (fun u p => putWindow (localOf p.1.dst.base) p.2.win u) s

/-- The run of a mover that is done: the groups of its windows are counted. -/
def movedRun (x : Ctx) (ms : List (Transform × Moved)) : Run :=
  { x.run with lines := (ms.map (fun p => groupsOf p.2.win [])).foldl (fun n g => n + g.length) 0 }

theorem layStage_counts {s : State} {x : Ctx} {ts : List Transform} (hread : firstCode (ts.map (layRead s x)) = cOk)
    (hwrite : firstCode ((ts.map (fun t => (t, moveAll s t))).map (fun p => layWrite s x p.1 p.2)) = cOk) :
    CountersOnly (runPut x.num (stageDid x 13 (movedRun x (ts.map (fun t => (t, moveAll s t)))))
      (putWindows (ts.map (fun t => (t, moveAll s t))) s)) (layStage x ts s) := by
  unfold layStage
  simp only [hread, hwrite]
  exact ((((((CountersOnly.refl _).bumpReef x 82 _).bumpReef x 81 _).bumpReef x 83 _).bumpReef x 80 _).bumpReef x 79 _).runPut _ _

/-- Transforms that keep the rules, in range and with nothing to wait for, are moved. -/
theorem exec_layoutTransform_ready {s : State} {r : RunRef} {x : Ctx} {ts : List Transform} (hdue : StageDue 13 r s x)
    (hts : layTransforms s x = some ts) (hrules : ts.all (fun t => t.ok && t.aligned) = true)
    (hrange : ts.all (fun t => inRange t.src x.j.d.inAddr x.j.d.inLen.toNat && inRange t.dst x.j.d.outAddr x.j.d.outLen.toNat) = true)
    (hwaits : layWaits x ts = false) : exec (.layoutTransform r) s = .next (notePoison x (layStage x ts s)) := by
  simp only [List.all_eq_true, Bool.and_eq_true] at hrules hrange
  have hok : ts.any (fun t => !t.ok) = false := by simpa using fun t ht => (hrules t ht).1
  have haligned : ts.any (fun t => !t.aligned) = false := by simpa using fun t ht => (hrules t ht).2
  have hinside : ts.any (fun t => !inRange t.src x.j.d.inAddr x.j.d.inLen.toNat || !inRange t.dst x.j.d.outAddr x.j.d.outLen.toNat) = false := by
    simpa using hrange
  refine (exec_of_unitRun rfl hdue).trans ?_
  simp only [hts, hok, haligned, hinside, hwaits, Bool.false_eq_true, if_false]

/-! ## Packing (13 R327-R331) -/

/-- A pack stage is due where no shuffle stage stands before it, or one of the deliver role has run. -/
theorem packDue_runs {s : State} {x : Ctx}
    (h : recKind x.rs 10 = none ∨ nmem x.run.did 10 = true ∧ (shufSecOf (paramSection s x 4 64)).role = 3) : packDue x s = packStage x s := by
  rcases h with h | ⟨hdid, hrole⟩
  · simp only [packDue, h, Option.isNone_none, if_true]
  · simp only [packDue, hdid, hrole, Bool.not_true, Bool.false_eq_true, if_false, if_true, ite_self]

/-- Where every sample of the records goes (R328, R329). -/
def packed (x : Ctx) (e : PackOp) : Packer × List Sample :=
  packAll e x.run.recs { sq := 0, place := 0, parts := 0, toks := [[]], segs := [[]], full := false } []

/-- How many samples repeat one of their batch and are left out. -/
def packDups (ms : List Sample) : Nat := (ms.filter (fun m => decide (m.flags / 8 % 2 = 1))).length

theorem packStage_counts {s : State} {x : Ctx} {rec : PRec} {out : List Byte} (hrec : recKind x.rs 12 = some rec)
    (hout : out = packBytes (packOf rec.body) x.run.recs (packed x (packOf rec.body)).1 (packed x (packOf rec.body)).2)
    (hfits : out.length ≤ x.j.d.outLen.toNat) (hwrite : engWrite s x.p x.c x.st (localOf x.j.d.outAddr) out.length = cOk) :
    let ms := (packed x (packOf rec.body)).2
    let run := { x.run with recsOut := ms.length - packDups ms, lines := out.length / 32 }
    CountersOnly (runPut x.num (stageDid x 12 (if packDups ms = 0 then run else runCode 0x5004 run)) (placeOut x out s)) (packStage x s) := by
  subst hout
  rw [packed] at hfits hwrite
  simp only [packStage, hrec, if_neg (Nat.not_lt.2 hfits), hwrite]
  exact (((((((((CountersOnly.refl _).bumpReef x 89 _).bumpReef x 88 _).bumpReef x 87 _).bumpReef x 86 _).bumpReef x 85 _).bumpReef x 84
    _).bumpReef x 79 _).writeMem _ _).runPut _ _

/-- Settles O30: each stage passes its checks, so it writes its output, and the rest is counters. The bits that a transform leaves in the last
byte of an INT4 row of odd length are free values (notes/assumptions/21.md), and a batch counts its empty sequences (notes/assumptions/84.md). -/
theorem layoutMovesAndPacks : Obligations.LayoutMovesAndPacks := by
  intro s r x
  refine ⟨fun ts hdue hts hrules hrange hwaits hread hwrite => ?move, fun rec hdue hrec hturn hfits hwrite => ?pack⟩
  case move => exact ⟨_, exec_layoutTransform_ready hdue hts hrules hrange hwaits, layStage_counts hread hwrite⟩
  case pack =>
    refine ⟨_, exec_of_unitRun rfl hdue, ?_⟩
    rw [packDue_runs hturn]
    exact packStage_counts hrec rfl hfits hwrite

/-! ## An embedding stage in its role (12 R287, R288) -/

/-- The section passes R287 and R288 for its own role, so the role's stage runs. -/
theorem embRun_due {role : Nat} {r : RunRef} {s : State} {x : Ctx} {rec : PRec} {t : EmbTab} {e : EmbSec} (hdue : EmbDue role r s x rec t e)
    (f : Ctx → PRec → EmbTab → EmbSec → State → State) : embRun role f r s = notePoison x (f x rec t e s) := by
  obtain ⟨hstage, hrec, hbody, rfl, htab, hsec, hrole, hdelta, hranges, hready⟩ := hdue
  have hfields : (!embSecOk (embSecOf (paramSection s x 5 48)) || decide ((embSecOf (paramSection s x 5 48)).role ≠ role) ||
      (decide (role = 1) || decide (role = 2)) && decide (t.deltaRows = 0) ||
      x.entry && !embRangesOk x t (embSecOf (paramSection s x 5 48))) = false := by
    simpa [hsec, hrole] using ⟨hdelta, hranges⟩
  have hinit : (decide (role ≠ 4) && !(embGet s (embSecOf (paramSection s x 5 48)).table).ready) = false := by simpa using hready
  rw [embRun, unitRun_due hstage]
  simp only [hrec, hbody, htab, ne_self_iff_false, if_false]
  rw [if_neg (by simpa using hfields), if_neg (by simpa using hinit)]

/-- A command that is an embedding role has the effect of the role's stage where that is due. -/
theorem exec_of_embRun {i : Instr} {role : Nat} {r : RunRef} {s : State} {x : Ctx} {rec : PRec} {t : EmbTab} {e : EmbSec}
    {f : Ctx → PRec → EmbTab → EmbSec → State → State} (hunit : exec i s = .next (embRun role f r s)) (hdue : EmbDue role r s x rec t e) :
    exec i s = .next (notePoison x (f x rec t e s)) := by
  rw [hunit, embRun_due hdue]

/-! ## Gathers (12 R290-R294) -/

theorem firstCode_map_ok {α : Type} {f : α → W16} {l : List α} (h : ∀ a ∈ l, f a = cOk) : firstCode (l.map f) = cOk :=
  firstCode_ok (List.forall_mem_map.2 h)

section
variable {s : State} {x : Ctx} {t : EmbTab} {e : EmbSec}

theorem gatherAlone_ready (hinput : inputCode s x = cOk)
    (hrows : ∀ n, some n ∈ (chunks 8 (stageInput s x)).map (fun b => validRow s t (ofInt (sintOf 64 (leNat b)))) → rowCodeOf s t n = cOk)
    (hwrite : engWrite s x.p x.c x.st (localOf x.j.d.outAddr)
      (((chunks 8 (stageInput s x)).map (fun b => validRow s t (ofInt (sintOf 64 (leNat b))))).length * roundUp (gatherRow t e.outMode) 32 +
        ((chunks 8 (stageInput s x)).map (fun b => validRow s t (ofInt (sintOf 64 (leNat b))))).length) = cOk) :
    gatherAlone x t e s =
      (let vs := (chunks 8 (stageInput s x)).map (fun b => validRow s t (ofInt (sintOf 64 (leNat b))))
       let g := gatherRows x t e.outMode vs s
       let bytes := g.1.flatMap (fun p => padTo 32 p.1) ++ g.1.map (fun p => if p.2 then 1 else 0)
       let bad := (g.1.filter (fun p => !p.2)).length
       prefetchRows x t e (runPut x.num (stageDid x 15
         { x.run with recsIn := vs.length, recsOut := vs.length - bad, dropped := bad, lines := ceilDiv bytes.length 32 })
         (if bytes = [] then g.2 else placeOut x bytes g.2))) := by
  unfold gatherAlone
  simp only [hinput]
  rw [firstCode_map_ok]
  · simp only [hwrite]
  · rintro (_ | n) hn
    · rfl
    · exact hrows n hn

theorem gatherInline_ready {rec : PRec} (hrows : ∀ n, some n ∈ (x.run.recs.map (fun q => (q, if sound q then recRows s t (u8At rec.body 2) q
      else none))).flatMap (fun p => match p.2 with | some q => q.2 | none => []) → rowCodeOf s t n = cOk) :
    gatherInline x rec t e s =
      (let ps := x.run.recs.map (fun q => (q, if sound q then recRows s t (u8At rec.body 2) q else none))
       let g := gatherRows x t e.outMode (ps.flatMap (fun p => match p.2 with | some q => q.2 | none => [])) s
       prefetchRows x t e (runPut x.num (stageDid x 15
         { x.run with recs := gatherRecs t e.outMode (u8At rec.body 3) (u8At rec.body 4) ps g.1,
                      dropped := x.run.dropped + (g.1.filter (fun p => !p.2)).length }) g.2)) := by
  unfold gatherInline
  dsimp only
  rw [firstCode_map_ok]
  · rfl
  · rintro (_ | n) hn
    · rfl
    · exact hrows n hn

end

/-! ## Scatters, folds, rows written (12 R299-R309) -/

/-- The gradients that a scatter adds, one of each input that has a row (R300). -/
def scatterEffs (s : State) (x : Ctx) (rec : PRec) (t : EmbTab) (e : EmbSec) : List Eff :=
  (scatterIn s x rec t e).filterMap (fun p => p.bind (fun q => (scatterRow s t q.1).map (fun n => Eff.scatter t.id e.step n e.grad q.2)))

/-- The run of a scatter that is done; alone it counts its inputs. -/
def scatteredRun (s : State) (x : Ctx) (rec : PRec) (t : EmbTab) (e : EmbSec) : Run :=
  let ok := scatterEffs s x rec t e
  let run := { x.run with eff := x.run.eff ++ ok, dropped := x.run.dropped + ((scatterIn s x rec t e).length - ok.length) }
  if x.entry then { run with recsIn := (scatterIn s x rec t e).length, recsOut := ok.length } else run

section
variable {s : State} {x : Ctx} {rec : PRec} {t : EmbTab} {e : EmbSec}

theorem scatterStage_counts (hinput : x.entry = true → inputCode s x = cOk) :
    CountersOnly (runPut x.num (stageDid x 15 (scatteredRun s x rec t e)) s) (scatterStage x rec t e s) := by
  have hcode : (if x.entry then inputCode s x else cOk) = cOk := by
    split
    · exact hinput ‹_›
    · rfl
  have heffs : (scatterIn s x rec t e).filterMap (fun p => match p with
      | some (v, g) => (scatterRow s t v).map (fun r => Eff.scatter t.id e.step r e.grad g)
      | none => none) = scatterEffs s x rec t e := by
    refine congrArg (fun f => (scatterIn s x rec t e).filterMap f) (funext fun p => ?_)
    cases p <;> rfl
  rw [scatteredRun, ← heffs]
  unfold scatterStage
  rw [hcode]
  exact ((CountersOnly.refl _).bumpReef x 70 _).bumpReef x 67 _

/-- The fold of the next step, with a free slot for each row that is quantised again, is deferred. -/
theorem foldStage_next (hhead : atHead x = true) (hstep : e.step = (match (embGet s t.id).folded with | some f => f + 1 | none => 0))
    (hrows : ∀ n ∈ touchedRows s t e.step, areaCode s (deltaAddr t e.step n) t.drow = cOk ∧ rowCodeOf s t n = cOk)
    (hslots : (((touchedRows s t e.step).map (foldCase s t e.step)).filter (fun c => match c with | .requant _ => true | _ => false)).length ≤
      freeSlots s t) :
    foldStage x rec t e s =
      (let run := { x.run with eff := x.run.eff ++ [Eff.fold t.id e.step x.reef e.seed (decide (e.requant = 1))] }
       runPut x.num (stageDid x 15
         (if ((touchedRows s t e.step).map (foldCase s t e.step)).contains .saturated then runCode 0x6003 run else run)) s) := by
  have hdone : (match (embGet s t.id).folded with | some f => decide (e.step ≤ f) | none => false) = false := by
    cases hf : (embGet s t.id).folded with
    | none => rfl
    | some f =>
      rw [hf] at hstep
      have hnext : e.step = f + 1 := hstep
      exact decide_eq_false (by omega)
  have hcodes : firstCode ((touchedRows s t e.step).map
      (fun r => firstCode [areaCode s (deltaAddr t e.step r) t.drow, rowCodeOf s t r])) = cOk :=
    firstCode_map_ok fun n hn => by simp [firstCode, hrows n hn]
  unfold foldStage
  rw [if_neg (by simp [hhead])]
  refine (if_neg (ne_true_of_eq_false hdone)).trans ((if_neg (not_not.2 hstep)).trans ?_)
  dsimp only
  rw [hcodes]
  exact if_neg (Nat.not_lt.2 hslots)

theorem writeRowsStage_ready {es : List Eff} {u : State} (hinput : inputCode s x = cOk)
    (hgood : (writeRecs t (chunks (32 + t.rowBytes) (stageInput s x))).2 = false)
    (hplace : placeRows t (lastPerRow (writeRecs t (chunks (32 + t.rowBytes) (stageInput s x))).1) s = some (es, u)) :
    writeRowsStage x rec t e s =
      (let rs := (writeRecs t (chunks (32 + t.rowBytes) (stageInput s x))).1
       bumpReef x 76 (lastPerRow rs).length (runPut x.num (stageDid x 15
         { x.run with eff := x.run.eff ++ es, recsIn := rs.length, recsOut := (lastPerRow rs).length }) u)) := by
  unfold writeRowsStage
  simp only [hinput, hplace, hgood, Bool.false_eq_true, if_false]

end

/-- Settles O31: each role's stage is due and passes its checks, so each clause is what that role does with its inputs. -/
theorem embeddingRolesRun : Obligations.EmbeddingRolesRun := by
  intro s r x rec t e
  refine ⟨fun hdue hentry hinput hrows hwrite => ?alone, fun hdue hentry hrows => ?inline, fun hdue hinput => ?scatter,
    fun hdue hhead hstep hrows hslots => ?fold, fun hdue hinput es u hgood hplace => ?writeRows, fun hdue => ?init⟩
  case alone =>
    exact (exec_of_embRun rfl hdue).trans (congrArg (fun u => Host.Outcome.next (notePoison x u))
      ((if_pos hentry).trans (gatherAlone_ready hinput hrows hwrite)))
  case inline =>
    exact (exec_of_embRun rfl hdue).trans (congrArg (fun u => Host.Outcome.next (notePoison x u))
      ((if_neg (ne_true_of_eq_false hentry)).trans (gatherInline_ready hrows)))
  case scatter => exact ⟨_, _, exec_of_embRun rfl hdue, rfl, scatterStage_counts hinput⟩
  case fold =>
    exact (exec_of_embRun rfl hdue).trans (congrArg (fun u => Host.Outcome.next (notePoison x u))
      (foldStage_next hhead hstep hrows hslots))
  case writeRows =>
    exact (exec_of_embRun rfl hdue).trans (congrArg (fun u => Host.Outcome.next (notePoison x u))
      (writeRowsStage_ready hinput hgood hplace))
  case init => exact (exec_of_embRun rfl hdue).trans rfl

end Sys2Proof.Machine

namespace Sys2Proof.Machine

/-! ## Frames of links that take them -/

/-- With no fault injected, a frame that a working link takes has its meaning, and then what it released goes on its way. -/
theorem frameRow_quiet {s : State} (hq : Quiet s) {l : Nat} (hl : linkTakes s l = true) (c : Instr) :
    frameRow l c s = settle (arrived c s) := (if_pos hl).trans (arrive_quiet hq c)

/-- A handshake message leaves as it is while no fault is injected. -/
theorem sendHand_quiet {s : State} (hq : Quiet s) (l ty : Nat) (sid : W32) (b : List Byte) :
    sendHand l ty sid b s = emit (.frame l ty sid b) s := emitOn_quiet hq _ _

theorem Quiet.congr {s t : State} (hq : Quiet s) (hw : t.wire = s.wire) (hf : t.fi = s.fi) : Quiet t := by
  unfold Quiet fiGet at *
  rw [hw, hf]
  exact hq

/-- A frame with no body of an open session: what its acknowledgement names is taken, then the frame has its effect. -/
theorem plainFrame_ok {ty : Byte} {f : Frame} {s : State} {k : Nat} {x : Session} (h : FrameOk ty f s k x) (hb : f.body = [])
    (ha : ∀ a, ackOf f.hdr = some a → a < x.nextSeq) (g : Nat → Session → State → State) :
    plainFrame ty f g s =
      g k (match ackOf f.hdr with | some a => ackUpTo s.time a (heardBy f s x) | none => heardBy f s x) (tookAck f s x) := by
  obtain ⟨_, _, _, _, hk, _⟩ := id h
  have hx : (heardBy f s x).nextSeq = x.nextSeq := rfl
  simp only [plainFrame, tookAck, frameIn_ok h, hb, hx, ← hk]
  cases hack : ackOf f.hdr with
  | none => simp
  | some a => simp [Nat.not_le.2 (ha a hack)]

/-! ## Handshakes -/

/-- The body of the HELLO_REPLY that the device answers next (15 R370). -/
def nextReply (s : State) : List Byte :=
  leBytes 4 s.nextSid ++ leBytes 2 (helloNode s) ++ zeros 2 ++ digestBytes (Config.free256 s.free) ++ ownKey s
    ++ leBytes 1088 (Config.ciphertext (s.free + 1)).toNat ++ leBytes 2420 (Config.signature (s.free + 2)).toNat

/-- With no HELLO of the device's own on its way and room for a session, the responder answers and remembers the session. -/
theorem answerHello_answers {l p : Nat} {body : List Byte} {s : State} (hq : Quiet s) (ho : mlook s.helloOut p = none)
    (hr : sessRoom s p = true) :
    answerHello l p body s = emit (.frame l 0x11 0 (nextReply s))
      { s with free := s.free + 3, nextSid := s.nextSid + 1, helloOut := mdel s.helloOut p,
               helloIn := mput s.helloIn (s.nextSid % 2 ^ 32) { entry := p, link := l, sid := BitVec.ofNat 32 s.nextSid,
                                                                transcript := sha3 (body ++ nextReply s) } } := by
  rw [← BitVec.toNat_ofNat s.nextSid 32]
  simp only [answerHello, ho, hr, Option.isSome_none, Bool.false_and, Bool.false_eq_true, if_false, Bool.not_true]
  exact sendHand_quiet (hq.congr (by rfl) (by rfl)) l 0x11 0 (nextReply s)

/-- A HELLO that passes Table 15.11 is counted and answered. -/
theorem execHello_passes {link : BitVec 5} {body : List Byte} {p : Nat} {s : State}
    (hl : linkTakes s link.toNat = true) (hc : s.helloCount < 4000) (hp : entryOfKey s (sha3 ((body.drop 40).take 1312)) = some p)
    (hlen : body.length = 4956) (hz : zeroAt body 2 6 = true) (hn : u16At body 0 = peerNode s p)
    (hown : link.toNat = 0 ∨ ownNode s ≠ 4095) :
    execHello link body true s = .next (answerHello link.toNat p body { s with helloCount := s.helloCount + 1 }) := by
  have hown' : (decide (link.toNat ≠ 0) && decide (ownNode s = 4095)) = false := by
    rcases hown with h | h <;> simp [h]
  simp only [execHello, hl, Bool.not_true, Bool.false_eq_true, if_false, Nat.not_le.2 hc, hp, hlen, hz, hn, hown',
    ne_eq, not_true_eq_false, decide_false, Bool.or_self]

/-- The HELLO_REPLY to a HELLO of the device: the attempt ends, the session opens, and its CONFIRM goes out. -/
theorem execHelloReply_opens {link : BitVec 5} {body : List Byte} {p : Nat} {o : HelloOut} {s : State} (hq : Quiet s)
    (hl : linkTakes s link.toNat = true) (hp : entryOfKey s (sha3 ((body.drop 40).take 1312)) = some p)
    (hlen : body.length = 4860) (hz : zeroAt body 6 2 = true) (hn : u16At body 4 = peerNode s p) (ho : mlook s.helloOut p = some o)
    (hlink : o.link = link.toNat) (hr : sessRoom s p = true) :
    execHelloReply link body true s = .next (openSess (BitVec.ofNat 32 s.nextSid) p link.toNat true (BitVec.ofNat 32 (u32At body 0))
      (sha3 (o.body ++ body)) (emit (.frame link.toNat 0x12 (BitVec.ofNat 32 (u32At body 0))
        (leBytes 4 (BitVec.ofNat 32 s.nextSid).toNat ++ zeros 28)) { s with nextSid := s.nextSid + 1, helloOut := mdel s.helloOut p })) := by
  simp only [execHelloReply, hl, Bool.not_true, Bool.false_eq_true, if_false, hp, hlen, hz, hn, ho, hlink, hr, ne_eq, not_true_eq_false,
    decide_false, Bool.or_self]
  exact congrArg (fun t => Host.Outcome.next (openSess _ p _ true _ _ t)) (sendHand_quiet (hq.congr (by rfl) (by rfl)) _ _ _ _)

/-- The CONFIRM of a session that the responder remembers opens it. -/
theorem execConfirm_opens {f : Frame} {h : HelloIn} {s : State} (hl : linkTakes s f.link.toNat = true) (hlen : f.body.length = 32)
    (hz : zeroAt f.body 4 28 = true) (hv : f.hdr.version = 1) (hty : f.hdr.type = 0x12) (hi : mlook s.helloIn f.hdr.sid.toNat = some h)
    (hlink : h.link = f.link.toNat) (htag : f.tagOk = true) (hb : headerBits f.hdr = true) (hnon : f.hdr.nonce = 0)
    (hr : sessRoom s h.entry = true) (hu : peerUsable s h.entry = true) :
    execConfirm f s = .next (sessMod h.sid.toNat (fun x => { takeNonce 0 x with ce := f.ce.toNat })
      (openSess h.sid h.entry f.link.toNat false (BitVec.ofNat 32 (u32At f.body 0)) h.transcript
        { s with helloIn := mdel s.helloIn f.hdr.sid.toNat })) := by
  have hr' : sessRoom { s with helloIn := mdel s.helloIn f.hdr.sid.toNat } h.entry = true := hr
  have hu' : peerUsable { s with helloIn := mdel s.helloIn f.hdr.sid.toNat } h.entry = true := hu
  have hmax : ¬ bodyMax < 32 := by decide
  simp only [execConfirm, hl, Bool.not_true, Bool.false_eq_true, if_false, hmax, hlen, hz, hv, hty, hi, hlink, htag, hb, hnon, hr', hu',
    ne_eq, not_true_eq_false, decide_false, Bool.or_self]

theorem execReject_ends {link : BitVec 5} {entry : BitVec 10} {h : HelloOut} {s : State} (hl : linkTakes s link.toNat = true)
    (ho : mlook s.helloOut entry.toNat = some h) (hlink : h.link = link.toNat) (code : W16) :
    execReject link entry code s = .next { s with helloOut := mdel s.helloOut entry.toNat } := by
  simp only [execReject, hl, Bool.not_true, Bool.false_eq_true, if_false, ho, hlink, if_true]

/-- Settles O36: each message passes the checks of Table 15.11 and has its meaning. That the sessions take their ids from one counter
is the model's choice (notes/assumptions/7.md). -/
theorem handshakesOpenAndClose : Obligations.HandshakesOpenAndClose := by
  intro s hq
  refine ⟨fun link body p hl hc hp hlen hz hn hown ho hr => ?hello, fun link body p o hl hp hlen hz hn ho hlink hr => ?reply,
    fun f h hl hlen hz hv hty hi hlink htag hb hnon hr hu => ?confirm, fun link entry code h hl ho hlink => ?reject,
    fun f k x h hb ha => ?close⟩
  case hello =>
    have hq1 : Quiet { s with helloCount := s.helloCount + 1 } := hq
    have hans := (execHello_passes hl hc hp hlen hz hn hown).trans
      (congrArg Host.Outcome.next (answerHello_answers (body := body) hq1 ho hr))
    refine ⟨nextReply { s with helloCount := s.helloCount + 1 }, congrArg Host.Outcome.next ((frameRow_quiet hq hl _).trans ?_)⟩
    exact (congrArg (fun u => settle (stateOf u s)) hans).trans (settle_nil hq.1)
  case reply =>
    exact congrArg Host.Outcome.next ((frameRow_quiet hq hl _).trans
      (congrArg (fun u => settle (stateOf u s)) (execHelloReply_opens hq hl hp hlen hz hn ho hlink hr)))
  case confirm =>
    exact congrArg Host.Outcome.next ((frameRow_quiet hq hl _).trans
      (congrArg (fun u => settle (stateOf u s)) (execConfirm_opens hl hlen hz hv hty hi hlink htag hb hnon hr hu)))
  case reject =>
    exact congrArg Host.Outcome.next ((frameRow_quiet hq hl _).trans
      ((congrArg (fun u => settle (stateOf u s)) (execReject_ends hl ho hlink code)).trans (settle_nil hq.1)))
  case close =>
    exact congrArg Host.Outcome.next ((frameRow_quiet hq h.1 _).trans
      (congrArg settle (plainFrame_ok h hb ha (fun k _ s => endSession k s))))

/-! ## Frames of open sessions -/

@[simp] theorem heard_time (f : Frame) (s : State) (x : Session) : (heard f s x).time = s.time := by
  unfold heard
  split <;> rfl

@[simp] theorem heard_wire (f : Frame) (s : State) (x : Session) : (heard f s x).wire = s.wire := by
  unfold heard
  split <;> rfl

@[simp] theorem heard_fi (f : Frame) (s : State) (x : Session) : (heard f s x).fi = s.fi := by
  unfold heard
  split <;> rfl

theorem tookAck_quiet {s : State} (hq : Quiet s) (f : Frame) (x : Session) : Quiet (tookAck f s x) := by
  unfold tookAck
  cases ackOf f.hdr <;> exact hq.congr (heard_wire f s x) (heard_fi f s x)

/-- The round-trip samples of acknowledged frames move the timers' estimates alone. -/
theorem rttSamples_frame (now : Nat) (l : List (Nat × TxFrame)) (x : Session) :
    ∃ sr rv ro, l.foldl (fun x p => rttSample (now - p.2.sentAt) x) x = { x with srtt := sr, rttvar := rv, rto := ro } := by
  induction l generalizing x with
  | nil => exact ⟨_, _, _, rfl⟩
  | cons p l ih =>
    obtain ⟨sr, rv, ro, h⟩ := ih (rttSample (now - p.2.sentAt) x)
    exact ⟨sr, rv, ro, h.trans rfl⟩

/-- The frames that stand unacknowledged or await an answer once all up to `n` are acknowledged. -/
def stillAwaited (n : Nat) (l : List (Nat × TxFrame)) : List (Nat × TxFrame) :=
  (l.map (fun p => if p.1 ≤ n then (p.1, { p.2 with acked := true }) else p)).filter (fun p => !(p.2.acked && p.2.answered))

/-- An acknowledgement changes the timers' estimates, the window and the frames kept, and nothing else of its session. -/
theorem ackUpTo_frame (now n : Nat) (x : Session) :
    ∃ sr rv ro w wa, ackUpTo now n x =
      { x with srtt := sr, rttvar := rv, rto := ro, cwnd := w, cwndAt := wa, unacked := stillAwaited n x.unacked } := by
  obtain ⟨sr, rv, ro, h⟩ := rttSamples_frame now (x.unacked.filter (fun p => decide (p.1 ≤ n) && !p.2.acked && decide (p.2.resends = 0))) x
  simp only [ackUpTo, growWindow, h]
  split <;> exact ⟨_, _, _, _, _, rfl⟩

@[simp] theorem ackUpTo_nextSeq (now n : Nat) (x : Session) : (ackUpTo now n x).nextSeq = x.nextSeq := by
  obtain ⟨_, _, _, _, _, h⟩ := ackUpTo_frame now n x
  rw [h]

@[simp] theorem ackUpTo_taken (now n : Nat) (x : Session) : (ackUpTo now n x).taken = x.taken := by
  obtain ⟨_, _, _, _, _, h⟩ := ackUpTo_frame now n x
  rw [h]

@[simp] theorem ackUpTo_link (now n : Nat) (x : Session) : (ackUpTo now n x).link = x.link := by
  obtain ⟨_, _, _, _, _, h⟩ := ackUpTo_frame now n x
  rw [h]

@[simp] theorem ackUpTo_peerSid (now n : Nat) (x : Session) : (ackUpTo now n x).peerSid = x.peerSid := by
  obtain ⟨_, _, _, _, _, h⟩ := ackUpTo_frame now n x
  rw [h]

@[simp] theorem ackUpTo_unacked (now n : Nat) (x : Session) : (ackUpTo now n x).unacked = stillAwaited n x.unacked := by
  obtain ⟨_, _, _, _, _, h⟩ := ackUpTo_frame now n x
  rw [h]

theorem acked_of_mem_stillAwaited {n : Nat} {l : List (Nat × TxFrame)} {p : Nat × TxFrame} (hp : p ∈ stillAwaited n l)
    (hn : p.1 ≤ n) : p.2.acked = true ∧ p.2.answered = false := by
  obtain ⟨hmem, hkept⟩ := List.mem_filter.1 hp
  obtain ⟨q, -, rfl⟩ := List.mem_map.1 hmem
  by_cases hq : q.1 ≤ n
  · simpa [hq] using hkept
  · simp [hq] at hn

/-- A DATA frame that its session has taken already is acknowledged again. -/
theorem dataIn_repeat {k : Nat} {x : Session} {f : Frame} (s : State) (h1 : 1 ≤ f.hdr.seq.toNat)
    (hn : f.hdr.seq.toNat ≤ x.taken + granted x + 16) (ht : f.hdr.seq.toNat ≤ x.taken) :
    dataIn k x f s = sendAck k (bump (peerCnt x.entry 3) 1 s) := by
  have h0 : f.hdr.seq.toNat ≠ 0 := by omega
  simp only [dataIn, h0, decide_false, Nat.not_lt.2 hn, Bool.or_self, Bool.false_eq_true, if_false, ht, decide_true, Bool.true_or, if_true]

/-- A new DATA frame is held; where it is the next in order it is taken with those held behind it and acknowledged. -/
theorem dataIn_new {k : Nat} {x : Session} {f : Frame} (s : State) {rs : List OpRec} (h1 : 1 ≤ f.hdr.seq.toNat)
    (hn : f.hdr.seq.toNat ≤ x.taken + granted x + 16) (ht : x.taken < f.hdr.seq.toNat) (hh : mlook x.held f.hdr.seq.toNat = none)
    (ha : ∀ a, ackOf f.hdr = some a → a < x.nextSeq) (hops : opRecs f.hdr.opCount.toNat f.body = some rs) (hres : resultsOk x rs = true) :
    dataIn k x f s =
      let z := match ackOf f.hdr with
        | some a => ackUpTo s.time a x
        | none => x
      let u := sessPut k { z with held := mput z.held f.hdr.seq.toNat f } s
      if f.hdr.seq.toNat = x.taken + 1 then sendAck k (pumpSession k (takeHeld k (x.held.length + 1) u)) else pumpSession k u := by
  have h0 : f.hdr.seq.toNat ≠ 0 := by omega
  simp only [dataIn, h0, decide_false, Nat.not_lt.2 hn, Nat.not_le.2 ht, Bool.or_self, Bool.false_eq_true, if_false, hh, Option.isSome_none,
    hops, hres, Bool.not_true]
  cases hack : ackOf f.hdr with
  | none => rfl
  | some a => simp only [Nat.not_le.2 (ha a hack), decide_false, Bool.false_eq_true, if_false]

/-- Settles O37: each frame passes its checks, so it has its session's meaning. That an acknowledgement leaves as an ACK frame of its
own is the model's choice (notes/assumptions/69.md). -/
theorem framesAreTaken : Obligations.FramesAreTaken := by
  intro s f k x hq n y
  refine ⟨fun h h1 hn => ⟨fun ht => ?again, fun ht hh ha hops => ?taken⟩, fun h hlen hz ha hsack => ⟨?ack, ?seq, ?order, fun p hp hpn => ?freed⟩,
    fun h hb ha => ?probe, fun h hb ha => ?probeReply⟩
  case again =>
    have hin : dataFrame f s = dataIn k y f (heard f s x) := by simp only [dataFrame, frameIn_ok h]; rfl
    exact congrArg Host.Outcome.next ((frameRow_quiet hq h.1 _).trans (congrArg settle (hin.trans (dataIn_repeat _ h1 hn ht))))
  case taken =>
    obtain ⟨rs, hrecs, hres⟩ := hops
    have hin : dataFrame f s = dataIn k y f (heard f s x) := by simp only [dataFrame, frameIn_ok h]; rfl
    have hdata := dataIn_new (k := k) (x := y) (heard f s x) h1 hn ht hh ha hrecs hres
    rw [heard_time] at hdata
    exact congrArg Host.Outcome.next ((frameRow_quiet hq h.1 _).trans (congrArg settle (hin.trans hdata)))
  case ack =>
    have hack : execAck f s = .next (pumpSession k (sessPut k (ackCredit s.time (u32At f.body 32) (u32At f.body 36)
        (ackUpTo s.time ((ackOf f.hdr).getD 0) y)) (heard f s x))) := by
      have ha' : ¬ (heardBy f s x).nextSeq ≤ (ackOf f.hdr).getD 0 := Nat.not_le.2 ha
      have hs : sackOk ((ackOf f.hdr).getD 0) (heardBy f s x).nextSeq f.body = true := hsack
      simp only [execAck, frameIn_ok h, ha', hlen, hz, hs, decide_false, ne_eq, not_true_eq_false, Bool.not_true, Bool.or_self,
        Bool.false_eq_true, if_false]
      rfl
    exact congrArg Host.Outcome.next ((frameRow_quiet hq h.1 _).trans (congrArg (fun u => settle (stateOf u s)) hack))
  case seq => exact ackUpTo_nextSeq _ _ y
  case order => exact ackUpTo_taken _ _ y
  case freed =>
    rw [ackUpTo_unacked] at hp
    exact acked_of_mem_stillAwaited hp hpn
  case probe =>
    have hlink : ∀ z : Session, z.link = x.link → z.peerSid = x.peerSid →
        bump (portCnt z.link 0) 1 (sendHand z.link 0x04 z.peerSid [] (tookAck f s x)) =
          bump (portCnt x.link 0) 1 (emit (.frame x.link 0x04 x.peerSid []) (tookAck f s x)) := by
      intro z hl hp
      rw [hl, hp, sendHand_quiet (tookAck_quiet hq f x)]
    have hprobe : arrived (.probe f) s = bump (portCnt x.link 0) 1 (emit (.frame x.link 0x04 x.peerSid []) (tookAck f s x)) := by
      refine (plainFrame_ok h hb ha (fun _ x s => bump (portCnt x.link 0) 1 (sendHand x.link 0x04 x.peerSid [] s))).trans (hlink _ ?_ ?_)
      · cases ackOf f.hdr <;> simp only [ackUpTo_link] <;> rfl
      · cases ackOf f.hdr <;> simp only [ackUpTo_peerSid] <;> rfl
    exact congrArg Host.Outcome.next ((frameRow_quiet hq h.1 _).trans ((congrArg settle hprobe).trans
      (settle_nil (tookAck_quiet hq f x).1)))
  case probeReply =>
    exact congrArg Host.Outcome.next ((frameRow_quiet hq h.1 _).trans
      ((congrArg settle (plainFrame_ok h hb ha (fun _ _ s => s))).trans (settle_nil (tookAck_quiet hq f x).1)))

end Sys2Proof.Machine

namespace Sys2Proof.Machine

/-! ## Operations of an open session (15 R381) -/

/-- An operation of an open session has its answer emitted after its effect. -/
theorem opRow_open {op : Nat} {o : OpRef} {h : OpHdr} {data : List Byte} {s : State} {x : Session} {a : Ans × State}
    (hs : sess? s o.sid = some x) (ho : x.opened = true) (hdo : opDo op o.sid x h data s = a) :
    opRow op o h data s = emit (.opResult o a.1.code a.1.value a.1.data) a.2 := by
  simp only [opRow, hs, ho, Bool.not_true, Bool.false_eq_true, if_false, hdo]

section
variable {h : OpHdr} {data : List Byte} (sid : W32) (x : Session) (s : State)

theorem opDo_signal (hf : fieldsOk 0x07 h data = true) : opDo 0x07 sid x h data s = signalOp x h s := by
  unfold opDo
  rw [hf]
  rfl

theorem opDo_message (hf : fieldsOk 0x08 h data = true) : opDo 0x08 sid x h data s = messageOp sid h data s := by
  unfold opDo
  rw [hf]
  rfl

theorem opDo_fence (hf : fieldsOk 0x09 h data = true) : opDo 0x09 sid x h data s = (.status cOk, s) := by
  unfold opDo
  rw [hf]
  rfl

theorem opDo_fate (hf : fieldsOk 0x0A h data = true) : opDo 0x0A sid x h data s = fateQuery sid.toNat x h s := by
  unfold opDo
  rw [hf]
  rfl

end

theorem signalOp_obj {x : Session} {h : OpHdr} {s : State} (hk : h.op0.toNat % 4 = 0)
    (hw : windowAdmits s x.entry 1 3 (bits h.op0.toNat 31 16) 1 = true) :
    signalOp x h s = (.status (yzSignalObj (bits h.op0.toNat 31 16) h.op1.toNat (peerNode s x.entry) s).1,
      (yzSignalObj (bits h.op0.toNat 31 16) h.op1.toNat (peerNode s x.entry) s).2) := by
  simp only [signalOp, hk, if_true, hw, Bool.not_true, Bool.false_eq_true, if_false]

theorem signalOp_bar {x : Session} {h : OpHdr} {s : State} (hk : h.op0.toNat % 4 ≠ 0) :
    signalOp x h s = (.status (yzSignalBar (h.op0.toNat % 4) (bits h.op0.toNat 31 16) (bits h.op0.toNat 63 32) (peerNode s x.entry) s).1,
      (yzSignalBar (h.op0.toNat % 4) (bits h.op0.toNat 31 16) (bits h.op0.toNat 63 32) (peerNode s x.entry) s).2) := by
  simp only [signalOp, hk, if_false]

theorem yzSignalObj_below_ceiling {s : State} {k n : Nat} (hok : objOk s k = true) (hn : (objGet s k).count + n ≤ (objGet s k).ceiling)
    (hqueue : (objGet s k).queue = []) (node : Nat) :
    yzSignalObj k n node s = (cOk, { bump (reefCnt (k / 48) 0) 1 (objPut k { objGet s k with count := (objGet s k).count + n } s) with
      yzApplied := mmod 0 s.yzApplied k (· + 1) }) := by
  simp only [yzSignalObj, objSignal_below_ceiling hok hn, if_true, objWake_signalled hok n _ hqueue]
  rfl

/-- The message types that pass the fields' check are below 256. -/
theorem messageType_lt {h : OpHdr} {data : List Byte} (hf : fieldsOk 0x08 h data = true) : h.op0.toNat < 256 := by
  simp only [fieldsOk, Bool.and_eq_true, decide_eq_true_eq] at hf
  obtain ⟨-, ⟨-, hp⟩, -⟩ := hf
  exact hp

theorem fateQuery_unknown {k : Nat} {x : Session} {h : OpHdr} {s : State} (hf : mlook s.fates h.op0.toNat = none) :
    fateQuery k x h s = ({ code := cOk, value := 0, data := fateData 2 [] }, bump (peerCnt x.entry 5) 1 s) := by
  have hf' : mlook (bump (peerCnt x.entry 5) 1 s).fates h.op0.toNat = none := hf
  simp only [fateQuery, hf']

theorem fateQuery_recorded {k : Nat} {x : Session} {h : OpHdr} {s : State} {g : Fates} {ops : List FateOp}
    (hf : mlook s.fates h.op0.toNat = some g) (he : g.entry = x.entry) (hr : mlook g.recs h.op1.toNat = some ops) :
    fateQuery k x h s = ({ code := cOk, value := 0, data := fateData 1 ops },
      closeByFate k h.op0.toNat (bump (peerCnt x.entry 5) 1 s)) := by
  have hf' : mlook (bump (peerCnt x.entry 5) 1 s).fates h.op0.toNat = some g := hf
  simp only [fateQuery, hf', he, ne_eq, not_true_eq_false, if_false, hr]

theorem fateQuery_notTaken {k : Nat} {x : Session} {h : OpHdr} {s : State} {g : Fates}
    (hf : mlook s.fates h.op0.toNat = some g) (he : g.entry = x.entry) (hr : mlook g.recs h.op1.toNat = none)
    (ht : g.taken < h.op1.toNat) :
    fateQuery k x h s = ({ code := cOk, value := 0, data := fateData 0 [] },
      closeByFate k h.op0.toNat (bump (peerCnt x.entry 5) 1 s)) := by
  have hf' : mlook (bump (peerCnt x.entry 5) 1 s).fates h.op0.toNat = some g := hf
  simp only [fateQuery, hf', he, ne_eq, not_true_eq_false, if_false, hr, ht, or_true, if_true]

/-- A session with nothing to send sends nothing. -/
theorem pumpSession_idle {k : Nat} {s : State} {x : Session} (hx : mlook s.sessions k = some x) (hq : x.queue = []) :
    pumpSession k s = s := by
  simp only [pumpSession, hx, hq, List.length_nil, drainQueue]

theorem mlook_sessPut (k : Nat) (x : Session) (s : State) : mlook (sessPut k x s).sessions k = some x := mlook_mput_self _ _ _

theorem resultRow_awaited {o : OpRef} {h : OpHdr} {data : List Byte} {s : State} {x : Session} {f : TxFrame}
    (hs : sess? s o.sid = some x) (ho : x.opened = true) (hf : awaited x h = some f) :
    resultRow o h data s = resultIn o.sid.toNat h data s := by
  simp only [resultRow, hs, ho, hf, Bool.not_true, Bool.false_eq_true, if_false, Option.isNone_some]

/-- The session once the result that the frame awaits has come. -/
def answeredBy (x : Session) (f : TxFrame) (h : OpHdr) : Session :=
  { x with unacked := if f.acked then mdel x.unacked h.addr.toNat else mput x.unacked h.addr.toNat { f with answered := true } }

theorem resultIn_idle {k : Nat} {h : OpHdr} {s : State} {x : Session} {f : TxFrame} (data : List Byte) (hs : mlook s.sessions k = some x)
    (hf : awaited x h = some f) (hfate : f.op.fate = none) (hq : x.queue = []) :
    resultIn k h data s = runOpDone f.op.run (BitVec.ofNat 16 (bits h.op0.toNat 31 16))
      (emit (.opDone x.peerSid h.addr.toNat 0 (BitVec.ofNat 16 (bits h.op0.toNat 31 16)) h.op1) (sessPut k (answeredBy x f h) s)) := by
  have hidle : pumpSession k (sessPut k (answeredBy x f h) s) = sessPut k (answeredBy x f h) s :=
    pumpSession_idle (mlook_sessPut k _ s) hq
  rw [answeredBy] at hidle ⊢
  simp only [resultIn, hs, hf, hfate, hidle]

/-- Settles O39: each operation of an open session passes its checks, so it has its meaning and its answer. That a session which the
device has no record of answers UNKNOWN is the model's choice (notes/assumptions/68.md); the answers themselves are R389. -/
theorem otherOperationsAct : Obligations.OtherOperationsAct := by
  intro s o h data x hs ho
  refine ⟨fun hf hk hw => ?signalObj, fun hf hk => ?signalBar, fun k n hok hn hqueue => ?counts, fun hf ht => ?work,
    fun hf ht => ?refused, fun hf => ?fence, fun hf hfate => ?unknown,
    fun g hf hfate he => ⟨fun ops hr => ?recorded, fun hr ht => ?notTaken⟩, fun f hf hfate hq => ?result⟩
  case signalObj =>
    exact congrArg Host.Outcome.next (opRow_open hs ho ((opDo_signal _ _ _ hf).trans (signalOp_obj hk hw)))
  case signalBar =>
    exact congrArg Host.Outcome.next (opRow_open hs ho ((opDo_signal _ _ _ hf).trans (signalOp_bar hk)))
  case counts => exact yzSignalObj_below_ceiling hok hn hqueue _
  case work =>
    have hwork : messageOp o.sid h data s = (.status cOk, workMessage o.sid data s) := if_neg (by omega)
    exact congrArg Host.Outcome.next (opRow_open hs ho ((opDo_message _ _ _ hf).trans hwork))
  case refused =>
    have hlt := messageType_lt hf
    have hrefused : messageOp o.sid h data s = (.status cMessageRefused, s) := if_pos (by omega)
    exact congrArg Host.Outcome.next (opRow_open hs ho ((opDo_message _ _ _ hf).trans hrefused))
  case fence => exact congrArg Host.Outcome.next (opRow_open hs ho (opDo_fence _ _ _ hf))
  case unknown =>
    exact congrArg Host.Outcome.next (opRow_open hs ho ((opDo_fate _ _ _ hf).trans (fateQuery_unknown hfate)))
  case recorded =>
    exact congrArg Host.Outcome.next (opRow_open hs ho ((opDo_fate _ _ _ hf).trans (fateQuery_recorded hfate he hr)))
  case notTaken =>
    exact congrArg Host.Outcome.next (opRow_open hs ho ((opDo_fate _ _ _ hf).trans (fateQuery_notTaken hfate he hr ht)))
  case result =>
    have hy : { answeredBy x f h with queue := [] } = answeredBy x f h := by rw [← hq]; rfl
    refine ⟨sessPut o.sid.toNat (answeredBy x f h) s, congrArg Host.Outcome.next ((resultRow_awaited hs ho hf).trans
      (resultIn_idle data hs hf hfate hq)), ?_, rfl⟩
    exact (mlook_sessPut _ _ _).trans (congrArg some hy.symm)

end Sys2Proof.Machine

namespace Sys2Proof.Machine

/-! ## Suspending sessions (15 R386) -/

theorem doubtPut_sessions (k : Nat) (x : Session) (s : State) : (doubtPut k x s).sessions = s.sessions := by
  unfold doubtPut
  split <;> rfl

theorem dropQueue_sessions (code : W16) (x : Session) (s : State) : (dropQueue code x s).sessions = s.sessions := by
  refine List.foldlRecOn (motive := fun t : State => t.sessions = s.sessions) x.queue _ rfl (fun t ht o _ => ?_)
  split
  · exact ht
  · split <;> exact ht

theorem suspendSession_sessions {k : Nat} {x : Session} {s : State} (code : W16) (hx : mlook s.sessions k = some x)
    (ho : x.opened = true) :
    (suspendSession code k s).sessions =
      mput s.sessions k { x with opened := false, suspendedAt := s.time, queue := [], unacked := [], held := [] } := by
  simp only [suspendSession, hx, ho, Bool.not_true, Bool.false_eq_true, if_false, dropQueue_sessions, doubtPut_sessions]
  rfl

/-! ## Ends of peer operations -/

/-- Operations whose end is told: outputs and the runs that asked for them change, and nothing else. -/
def AnswersOnly (s t : State) : Prop := t = { s with out := t.out, runs := t.runs }

theorem AnswersOnly.refl (s : State) : AnswersOnly s s := rfl

theorem AnswersOnly.opDone {s t : State} (h : AnswersOnly s t) (run : Option Nat) (c : W16) (o : Out) :
    AnswersOnly s (runOpDone run c (emit o t)) := by
  unfold runOpDone
  cases run with
  | none => exact congrArg (fun u : State => { u with out := u.out ++ [o] }) h
  | some n =>
    simp only
    split
    · exact congrArg (fun u : State => { u with out := u.out ++ [o] }) h
    · exact congrArg (fun u : State => { u with out := u.out ++ [o], runs := mset Run.init t.runs n { mget Run.init t.runs n with effCode := c } }) h

/-- The operations of frames in doubt end one after another. -/
theorem AnswersOnly.foldl {α : Type} {s t : State} (h : AnswersOnly s t) (l : List α) {f : State → α → State}
    (hf : ∀ u a, AnswersOnly s u → AnswersOnly s (f u a)) : AnswersOnly s (l.foldl f t) :=
  List.foldlRecOn (motive := AnswersOnly s) l f h (fun u hu a _ => hf u a hu)

/-! ## Session timers -/

theorem sessPut_quiet {s : State} (hq : Quiet s) (k : Nat) (x : Session) : Quiet (sessPut k x s) := hq.congr rfl rfl

theorem execRetransmitTimeout_resends {s : State} (hq : Quiet s) {sid : W32} {seq : BitVec 48} {x : Session} {f : TxFrame}
    (hs : sess? s sid = some x) (ho : x.opened = true) (hf : mlook x.unacked seq.toNat = some f) (ha : f.acked = false) :
    execRetransmitTimeout sid seq s = .next (bump (peerCnt x.entry 2) 1 (bump (portCnt x.link f.op.tc.toNat) 1
      (emit (.data x.peerSid f.op.tc seq.toNat f.op.body) (sessPut sid.toNat
        { x with nextNonce := x.nextNonce + 1, rto := min 2000 (2 * x.rto),
                 unacked := mput x.unacked seq.toNat { f with resends := f.resends + 1, sentAt := s.time } } s)))) := by
  simp only [execRetransmitTimeout, hs, hf, ho, ha, Bool.not_true, Bool.or_self, Bool.false_eq_true, if_false]
  rw [emitOn_quiet (sessPut_quiet hq _ _)]

theorem execProbeTimer_probes {s : State} (hq : Quiet s) {entry : BitVec 10} {k : Nat} {x : Session}
    (hk : (openOf s entry.toNat).head? = some k) (hx : mlook s.sessions k = some x) :
    execProbeTimer entry s = .next (bump (portCnt x.link 0) 1 (emit (.frame x.link 0x03 x.peerSid []) s)) := by
  simp only [execProbeTimer, hk, hx, sendHand_quiet hq]

/-- The body of the HELLO that the device sends next (15 R370). -/
def nextHello (s : State) : List Byte :=
  leBytes 2 (helloNode s) ++ zeros 6 ++ digestBytes (Config.free256 s.free) ++ ownKey s
    ++ leBytes 1184 (Config.encapsKey (s.free + 1)).toNat ++ leBytes 2420 (Config.signature (s.free + 2)).toNat

theorem execSessionRetry_sends {s : State} (hq : Quiet s) {entry : BitVec 10} {l : Nat} (hu : peerUsable s entry.toNat = true)
    (hf : bit (peerFlags s entry.toNat) 2 = true) (ho : openOf s entry.toNat = []) (hl : entryLink s entry.toNat = some l) :
    execSessionRetry entry s = .next (emit (.frame l 0x10 0 (nextHello s))
      { s with free := s.free + 3, helloOut := mput s.helloOut entry.toNat { link := l, body := nextHello s, at_ := s.time } }) := by
  simp only [execSessionRetry, hu, hf, ho, hl, Bool.not_true, Bool.or_self, ne_eq, not_true_eq_false, decide_false, Bool.false_eq_true, if_false]
  exact congrArg Host.Outcome.next (sendHand_quiet (hq.congr (by rfl) (by rfl)) l 0x10 0 (nextHello s))

/-- The fate records of an entry's suspended sessions with nothing left in them. -/
def fatesForgotten (p : Nat) (l : List (Nat × Fates)) : List (Nat × Fates) :=
  l.map (fun f => if f.2.entry = p && f.2.since.isSome then (f.1, { f.2 with recs := [] }) else f)

theorem recs_of_mem_fatesForgotten {p : Nat} {l : List (Nat × Fates)} {f : Nat × Fates} (hf : f ∈ fatesForgotten p l)
    (he : f.2.entry = p) (hs : f.2.since.isSome) : f.2.recs = [] := by
  obtain ⟨g, -, rfl⟩ := List.mem_map.1 hf
  by_cases hg : (decide (g.2.entry = p) && g.2.since.isSome) = true
  · simp only [hg, if_true]
  · rw [if_neg hg] at he hs
    exact absurd (by simp [he, hs]) hg

/-- The queue of operations for peers without those that wait for node `n`, where the entry has no open session. -/
def peerQueueLeft (s : State) (p : Nat) : List (Nat × TxOp) :=
  if openOf s p = [] then s.peerQueue.filter (fun q => decide (q.1 ≠ peerNode s p)) else s.peerQueue

/-- What the end of the hold leaves of fate records, of frames in doubt and of operations that wait for the peer. -/
def holdOver (p : Nat) (s : State) : State :=
  { s with fates := fatesForgotten p s.fates, doubts := s.doubts.filter (fun x => x.2.entry ≠ p), peerQueue := peerQueueLeft s p }

/-- Once the frames in doubt are told, the operations that wait for the peer go too. -/
theorem AnswersOnly.dropLate {p : Nat} {s t : State}
    (h : AnswersOnly { s with fates := fatesForgotten p s.fates, doubts := s.doubts.filter (fun x => x.2.entry ≠ p) } t) :
    AnswersOnly (holdOver p s)
      { t with peerQueue := (if openOf s p = [] then t.peerQueue.filter (fun q => decide (q.1 ≠ peerNode s p)) else t.peerQueue) } := by
  unfold AnswersOnly at h
  rw [h]
  rfl

/-- The end of the hold: the records of suspended sessions of the entry go, and its frames in doubt and its late operations are told. -/
theorem execFateHoldExpired_tells (entry : BitVec 10) (s : State) :
    ∃ t, execFateHoldExpired entry s = .next t ∧ AnswersOnly (holdOver entry.toNat s) t := by
  refine ⟨_, rfl, AnswersOnly.foldl (AnswersOnly.dropLate ?_) _ (fun u q hu => hu.opDone _ _ _)⟩
  exact AnswersOnly.foldl (.refl _) _ (fun u x hu => hu.foldl _ (fun v f hv => hv.opDone _ _ _))

/-! ## Links (15 R364-R367) -/

/-- A link whose pause ends sends what its own sessions have queued. -/
theorem foldl_pumpSession_of_no_link {l : Nat} {xs : List (Nat × Session)} (h : ∀ q ∈ xs, q.2.link ≠ l) (s : State) :
    xs.foldl (fun s x => if x.2.link = l then pumpSession x.1 s else s) s = s := by
  induction xs with
  | nil => rfl
  | cons x xs ih => rw [List.foldl_cons, if_neg (h x (by simp))]; exact ih (fun q hq => h q (by simp [hq]))

section
variable {s : State} {link : BitVec 5}

theorem execLinkUp_trains (hl : link.toNat < 17) (hm : linkMode s link.toNat = true) (hp : portLost s link.toNat = false)
    (he : nmem s.pwr.ethLost (if link.toNat = 0 then 4 else (link.toNat - 1) / 4) = false) (hb : 6 ≤ s.boot.stage) :
    execLinkUp link s = .next { s with linksUp := nadd s.linksUp link.toNat } :=
  congrArg Host.Outcome.next (if_pos ⟨hl, hm, by simp [hp], by simp [he], hb⟩)

theorem execFabricLinkDown_up (hu : nmem s.linksUp link.toNat = true) :
    execFabricLinkDown link s = .next (auditRecovery (faultClass 5) link.toNat cOk 0
      (suspendLink link.toNat { s with linksUp := ndel s.linksUp link.toNat, paused := ndel s.paused link.toNat })) :=
  congrArg Host.Outcome.next (if_neg (by simp [hu]))

theorem execPauseFrame_other {pr : BitVec 3} (hu : nmem s.linksUp link.toNat = true) (hp : pr.toNat ≠ (rget s 0x000D0008).toNat % 8)
    (pause : Bool) : execPauseFrame link pr pause s = .next (bump (linkCnt link.toNat 1) 1 s) :=
  congrArg Host.Outcome.next ((if_neg (by simp [hu])).trans (if_pos hp))

theorem execPauseFrame_pauses {pr : BitVec 3} (hu : nmem s.linksUp link.toNat = true) (hp : pr.toNat = (rget s 0x000D0008).toNat % 8) :
    execPauseFrame link pr true s = .next { s with paused := nadd s.paused link.toNat } :=
  congrArg Host.Outcome.next ((if_neg (by simp [hu])).trans ((if_neg (not_not_intro hp)).trans (if_pos rfl)))

theorem execPauseFrame_resumes {pr : BitVec 3} (hu : nmem s.linksUp link.toNat = true) (hp : pr.toNat = (rget s 0x000D0008).toNat % 8)
    (hx : ∀ q ∈ s.sessions, q.2.link ≠ link.toNat) :
    execPauseFrame link pr false s = .next { s with paused := ndel s.paused link.toNat } :=
  congrArg Host.Outcome.next ((if_neg (by simp [hu])).trans ((if_neg (not_not_intro hp)).trans
    ((if_neg Bool.false_ne_true).trans (foldl_pumpSession_of_no_link hx _))))

theorem execNeighbourSolicitation_own (hu : nmem s.linksUp link.toNat = true) (hp : portLost s link.toNat = false) :
    execNeighbourSolicitation link (linkIp6 s link.toNat) s = .next (emit (.neighbour link.toNat (linkIp6 s link.toNat)) s) :=
  congrArg Host.Outcome.next ((if_neg (by simp [hu, hp])).trans (if_pos rfl))

theorem execNeighbourSolicitation_other {a : BitVec 128} (hu : nmem s.linksUp link.toNat = true) (hp : portLost s link.toNat = false)
    (ha : a ≠ linkIp6 s link.toNat) : execNeighbourSolicitation link a s = .next (bump (linkCnt link.toNat 0) 1 s) :=
  congrArg Host.Outcome.next ((if_neg (by simp [hu, hp])).trans (if_neg ha))

theorem execArpRequest_own {a : W32} (hu : nmem s.linksUp link.toNat = true) (hp : portLost s link.toNat = false)
    (ha : a = rget s (0x000D1010 + 0x100 * link.toNat)) (h0 : a ≠ 0) :
    execArpRequest link a s = .next (emit (.arp link.toNat a) s) :=
  congrArg Host.Outcome.next ((if_neg (by simp [hu, hp])).trans (if_pos (by
    rw [← ha]
    simpa using h0)))

theorem execArpRequest_other {a : W32} (hu : nmem s.linksUp link.toNat = true) (hp : portLost s link.toNat = false)
    (ha : a ≠ rget s (0x000D1010 + 0x100 * link.toNat)) : execArpRequest link a s = .next (bump (linkCnt link.toNat 0) 1 s) :=
  congrArg Host.Outcome.next ((if_neg (by simp [hu, hp])).trans (if_neg (by simp [ha])))

end

/-! ## The arbiter of classes 1-3 (16 R398) -/

/-- The class whose turn it is. -/
def Arb.class (a : Arb) : Nat := if a.turn = 2 then 2 else if a.turn = 3 then 3 else 1

/-- The arbiter once the class whose turn it is has `d` bytes left and the turn passes on. -/
def Arb.passed (a : Arb) (d : Nat) : Arb := { a.setLeft a.class d with turn := a.class % 3 + 1, credited := false }

/-- How many turns pass before class `c` has its own. -/
def Arb.turnsTo (a : Arb) (c : Nat) : Nat := (c + 3 - a.class) % 3

theorem Arb.class_cases (a : Arb) : a.class = 1 ∨ a.class = 2 ∨ a.class = 3 := by
  unfold Arb.class
  split
  · simp
  · split <;> simp

theorem Arb.class_passed (a : Arb) (d : Nat) : (a.passed d).class = a.class % 3 + 1 := by
  have hturn : (a.passed d).turn = a.class % 3 + 1 := rfl
  rw [Arb.class, hturn]
  rcases a.class_cases with h | h | h <;> rw [h] <;> rfl

theorem Arb.left_passed_self (a : Arb) (d : Nat) : (a.passed d).left a.class = d := by
  rcases a.class_cases with h | h | h <;> simp [Arb.passed, h, Arb.setLeft, Arb.left]

theorem Arb.left_passed_ne {a : Arb} {c : Nat} (hc : c = 1 ∨ c = 2 ∨ c = 3) (h : c ≠ a.class) (d : Nat) :
    (a.passed d).left c = a.left c := by
  rcases a.class_cases with ha | ha | ha <;> rcases hc with rfl | rfl | rfl <;> simp_all [Arb.passed, Arb.setLeft, Arb.left]

theorem drrCredit_ge (c : Nat) : 512 ≤ drrCredit c := by
  unfold drrCredit
  split
  · decide
  · split <;> decide

/-- One turn of the arbiter: the class is granted, or the turn passes on; where the class waits for more than it has left, its credit
has been added to that. -/
theorem drrPick_succ (need : Nat → Option Nat) (n : Nat) (a : Arb) :
    (∃ b, drrPick need (n + 1) a = some (a.class, b)) ∨
      ∃ d, drrPick need (n + 1) a = drrPick need n (a.passed d) ∧
        ∀ z, need a.class = some z → d < z ∧ (a.credited = false → d = a.left a.class + drrCredit a.class) := by
  have hstep : drrPick need (n + 1) a = match need a.class with
      | none => drrPick need n (a.passed 0)
      | some z =>
        let d := a.left a.class + (if a.credited then 0 else drrCredit a.class)
        if z ≤ d then some (a.class, { a.setLeft a.class (d - z) with credited := true }) else drrPick need n (a.passed d) := by
    rw [drrPick]; rfl
  cases hneed : need a.class with
  | none =>
    rw [hneed] at hstep
    exact .inr ⟨0, hstep, by simp⟩
  | some z =>
    rw [hneed] at hstep
    by_cases hz : z ≤ a.left a.class + (if a.credited then 0 else drrCredit a.class)
    · exact .inl ⟨_, hstep.trans (if_pos hz)⟩
    · refine .inr ⟨_, hstep.trans (if_neg hz), fun y hy => ⟨?_, fun hc => by simp [hc]⟩⟩
      rw [← Option.some.inj hy]
      exact Nat.lt_of_not_le hz

/-- From a fresh turn on, a class that waits for `z` bytes is granted, or another before it, within the turns that its credit takes. -/
theorem drrPick_of_fresh {need : Nat → Option Nat} {c z : Nat} (hc : c = 1 ∨ c = 2 ∨ c = 3) (hz : need c = some z) :
    ∀ (n j : Nat) (a : Arb), a.credited = false → z ≤ a.left c + 512 * (j + 1) → a.turnsTo c + 3 * j + 1 ≤ n →
      ∃ k b, drrPick need n a = some (k, b) ∧ 1 ≤ k ∧ k ≤ 3 := by
  intro n
  induction n with
  | zero => omega
  | succ n ih =>
    intro j a hfresh hleft hn
    have hclass := a.class_cases
    rcases drrPick_succ need n a with ⟨b, hb⟩ | ⟨d, hd, hneed⟩
    · exact ⟨_, _, hb, by omega, by omega⟩
    · rw [hd]
      have hpassed := a.class_passed d
      unfold Arb.turnsTo at hn
      by_cases hcc : c = a.class
      · obtain ⟨hlt, hcredit⟩ := hneed z (hcc ▸ hz)
        have hge := drrCredit_ge a.class
        have hd' := hcredit hfresh
        rw [← hcc] at hd' hge
        have hj : j ≠ 0 := by
          rintro rfl
          omega
        have hroom : z ≤ d + 512 * (j - 1 + 1) := by
          rw [Nat.sub_add_cancel (Nat.one_le_iff_ne_zero.2 hj)]
          omega
        have hself : (a.passed d).left c = d := by rw [hcc, Arb.left_passed_self]
        refine ih (j - 1) (a.passed d) rfl (hroom.trans_eq (by rw [hself])) ?_
        unfold Arb.turnsTo
        omega
      · refine ih j (a.passed d) rfl (by rw [Arb.left_passed_ne hc hcc]; exact hleft) ?_
        unfold Arb.turnsTo
        omega

/-- The arbiter grants a class wherever one waits. -/
theorem drrPick_of_waiting {need : Nat → Option Nat} {c z m : Nat} (hc : c = 1 ∨ c = 2 ∨ c = 3) (hz : need c = some z) (hm : z ≤ m)
    (a : Arb) : ∃ k b, drrPick need (3 * (m / 512 + 2)) a = some (k, b) ∧ 1 ≤ k ∧ k ≤ 3 := by
  have hclass := a.class_cases
  rcases drrPick_succ need (3 * (m / 512) + 5) a with ⟨b, hb⟩ | ⟨d, hd, -⟩
  · exact ⟨_, _, hb, by omega, by omega⟩
  · have hsucc : 3 * (m / 512 + 2) = 3 * (m / 512) + 5 + 1 := by omega
    rw [hsucc, hd]
    refine drrPick_of_fresh hc hz _ (m / 512) (a.passed d) rfl (by omega) ?_
    unfold Arb.turnsTo
    omega

/-- The frame that a class has ready to send. -/
def readyHead (s : State) (x : Session) (c : Nat) : Option TxOp :=
  if canSend s x (BitVec.ofNat 2 c) then headOf (BitVec.ofNat 2 c) x.queue [] else none

/-- How many bytes each of classes 1-3 has ready. -/
def readyNeed (s : State) (x : Session) (c : Nat) : Option Nat := (readyHead s x c).map (fun o => o.body.length)

theorem arbPick_eq (s : State) (x : Session) :
    arbPick s x =
      let lower := [1, 2, 3].filterMap (readyNeed s x)
      if (readyHead s x 0).isSome && !(decide (7 ≤ x.arb.row) && !lower.isEmpty) then
        some (0, false, { x.arb with row := if lower.isEmpty then 0 else x.arb.row + 1 })
      else (drrPick (readyNeed s x) (3 * (lower.foldl max 0 / 512 + 2)) x.arb).map
        (fun p => (p.1, (readyHead s x 0).isSome, { p.2 with row := 0 })) := rfl

theorem readyHead_of {s : State} {x : Session} {c : BitVec 2} {o : TxOp} (hs : canSend s x c = true) (hq : headOf c x.queue [] = some o) :
    readyHead s x c.toNat = some o := by
  simp only [readyHead, BitVec.ofNat_toNat, BitVec.setWidth_eq, hs, hq, if_true]

theorem le_foldl_max {z : Nat} : ∀ (l : List Nat) (b : Nat), z ∈ l ∨ z ≤ b → z ≤ l.foldl max b
  | [], b, h => h.elim (fun h => nomatch h) id
  | a :: l, b, h => le_foldl_max l (max b a) (by
      rcases h with h | h
      · rcases List.mem_cons.1 h with rfl | h
        · exact .inr (le_max_right _ _)
        · exact .inl h
      · exact .inr (le_trans h (le_max_left _ _)))

theorem arbPick_class0 {s : State} {x : Session} {o : TxOp} (h0 : readyHead s x 0 = some o) (hr : x.arb.row < 7) :
    ∃ a, arbPick s x = some (0, false, a) := by
  rw [arbPick_eq]
  exact ⟨_, if_pos (by simp [h0, Nat.not_le.2 hr])⟩

theorem arbPick_yields {s : State} {x : Session} {o e : TxOp} {c : Nat} (h0 : readyHead s x 0 = some o) (hc : c = 1 ∨ c = 2 ∨ c = 3)
    (he : readyHead s x c = some e) (hr : 7 ≤ x.arb.row) :
    ∃ k a, arbPick s x = some (k, true, a) ∧ 1 ≤ k ∧ k ≤ 3 ∧ a.row = 0 := by
  have hneed : readyNeed s x c = some e.body.length := by rw [readyNeed, he]; rfl
  have hmem : e.body.length ∈ [1, 2, 3].filterMap (readyNeed s x) := List.mem_filterMap.2 ⟨c, by simpa using hc, hneed⟩
  obtain ⟨k, b, hb, hk⟩ := drrPick_of_waiting hc hneed (le_foldl_max _ 0 (.inl hmem)) x.arb
  refine ⟨k, { b with row := 0 }, ?_, hk.1, hk.2, rfl⟩
  rw [arbPick_eq]
  refine (if_neg ?_).trans (by rw [hb, h0]; rfl)
  simp [h0, hr, List.ne_nil_of_mem hmem]

/-- Settles O40: each timer, link event and grant by the lemma about its command. That a silent peer or a link that goes down leaves
RECOVERING clear and writes its record at once is the model's choice (notes/assumptions/52.md), as are the record's class
(notes/assumptions/43.md) and a link's own address (notes/assumptions/75.md). -/
theorem sessionTimersAndLinksAct : Obligations.SessionTimersAndLinksAct := by
  refine ⟨fun s entry hq => ⟨fun sid seq x f hs ho hf ha => ?resend, fun k x hk hx => ?probe, fun ho => ?down, fun k x code hx ho => ?suspend,
      fun l hu hf ho hl => ?retry, ?hold, rfl, rfl⟩,
    fun s link => ⟨fun hl hm hp he hb => ⟨execLinkUp_trains hl hm hp he hb, nmem_nadd _ _⟩, fun hu =>
      ⟨execFabricLinkDown_up hu, fun pr pause hp => execPauseFrame_other hu hp pause,
        fun pr hp => ⟨execPauseFrame_pauses hu hp, fun hx => execPauseFrame_resumes hu hp hx⟩, fun hp =>
        ⟨fun a => ⟨fun ha => ?neighbour, fun ha => execNeighbourSolicitation_other hu hp ha⟩,
          fun a => ⟨fun ha h0 => execArpRequest_own hu hp ha h0, fun ha => execArpRequest_other hu hp ha⟩⟩⟩⟩,
    fun s x o hs hh => ⟨fun hr => arbPick_class0 (readyHead_of hs hh) hr, fun c e hc hce hhe hr => ?yields⟩⟩
  case resend => exact execRetransmitTimeout_resends hq hs ho hf ha
  case probe => exact execProbeTimer_probes hq hk hx
  case down => exact congrArg Host.Outcome.next (if_neg ho)
  case suspend => exact suspendSession_sessions code hx ho
  case retry => exact ⟨_, execSessionRetry_sends hq hu hf ho hl⟩
  case hold =>
    obtain ⟨t, ht, htold⟩ := execFateHoldExpired_tells entry s
    refine ⟨t, ht, fun f hf he hs => ?_, fun f hf => ?_, fun ho q hq => ?_, ?_⟩
    · exact recs_of_mem_fatesForgotten (congrArg State.fates htold ▸ hf) he hs
    · have hdoubts : t.doubts = s.doubts.filter (fun x => x.2.entry ≠ entry.toNat) := congrArg State.doubts htold
      rw [hdoubts] at hf
      simpa using (List.mem_filter.1 hf).2
    · have hqueue : t.peerQueue = peerQueueLeft s entry.toNat := congrArg State.peerQueue htold
      rw [hqueue, peerQueueLeft, if_pos ho] at hq
      simpa using (List.mem_filter.1 hq).2
    · unfold AnswersOnly at htold
      rw [htold]
      rfl
  case neighbour => exact ha ▸ execNeighbourSolicitation_own hu hp
  case yields =>
    have hc' : c.toNat = 1 ∨ c.toNat = 2 ∨ c.toNat = 3 := by
      have hlt := c.isLt
      have hne : c.toNat ≠ 0 := fun h => hc (BitVec.eq_of_toNat_eq h)
      omega
    exact arbPick_yields (readyHead_of hs hh) hc' (readyHead_of hce hhe) hr

end Sys2Proof.Machine

namespace Sys2Proof.Machine

/-! ## What stands at reset (20 R473) -/

/-- The words with a reset value, in order. -/
theorem rget_reset (off : Nat) : rget State.reset off =
    if off = 0x0000000C then 0x19 else if off = 0x00030018 then 0x00FFFFFF else if off = 0x00060000 then 0x0073695F
    else if off = 0x00090004 then 8 else if off = 0x00090008 then 100 else if off = 0x0009000C then 256
    else if off = 0x000A0000 then 1 else if off = 0x000B0010 then 1000 else if off = 0x000B0014 then 1024
    else if off = 0x000B0018 then 10000 else if off = 0x000B001C then 160 else if off = 0x000D0000 then 0xFFF
    else if off = 0x000D0004 then 0x9BED else if off = 0x000D0008 then 0x135 else if off = 0x000D000C then 60000
    else if off = 0x000D0010 then 1024 else if off = 0x000D0014 then 10000 else 0 := by
  simp only [rget, State.reset, mget, eq_comm (b := off)]

/-- A channel at reset is FREE with generation 1. -/
theorem readCh_reset (x q : Nat) : readCh State.reset x q = if q = 0 then x + 65536 else 0 := by
  unfold readCh
  split <;> rfl

/-- A slot at reset is OFF with no cause. -/
theorem readFi_reset_status (k : Nat) : readFi State.reset (0x40 * (k % 8) + 0x14) = 0 :=
  if_pos ⟨by omega, by omega⟩

/-- Settles O60: each word by its entry of the reset state. That counters, in whose tables no reset value stands, are 0 is the model's
choice (notes/assumptions/6.md), as is stage 1 before power-up (notes/assumptions/76.md). -/
theorem resetHoldsItsValues : Obligations.ResetHoldsItsValues :=
  ⟨rget_reset, rfl, rfl, readCh_reset, fun _ => rfl, readFi_reset_status, rfl, rfl, rfl, rfl, fun _ => rfl⟩

end Sys2Proof.Machine

namespace Sys2Proof.Machine

/-! ## The audit log grows (22 R514-R518) -/

/-- The log goes on by checkpoint records alone. -/
def LogGrows (s t : State) : Prop :=
  ∃ more, t.audit.ring = s.audit.ring ++ more ∧ t.audit.count = s.audit.count + more.length ∧ (∀ q ∈ more, q.kind = 0x0D) ∧
    s.audit.checkpoints <+: t.audit.checkpoints

theorem LogGrows.of_audit_eq {s t : State} (h : t.audit = s.audit) : LogGrows s t :=
  ⟨[], by simp [h], by simp [h], by simp, by rw [h]⟩

theorem LogGrows.trans {s t u : State} (h : LogGrows s t) (h' : LogGrows t u) : LogGrows s u := by
  obtain ⟨a, hring, hcount, hkind, hcp⟩ := h
  obtain ⟨b, hring', hcount', hkind', hcp'⟩ := h'
  refine ⟨a ++ b, by rw [hring', hring, List.append_assoc], by rw [hcount', hcount, List.length_append]; omega, fun q hq => ?_, hcp.trans hcp'⟩
  exact (List.mem_append.1 hq).elim (hkind q) (hkind' q)

/-- A checkpoint's own record is of kind 0x0D. -/
theorem auditCheckpoint_grows (s : State) : LogGrows s (auditCheckpoint s) :=
  ⟨_, rfl, rfl, by simp, List.prefix_append _ _⟩

theorem auditPeriodic_grows (s : State) : LogGrows s (auditPeriodic s) := by
  unfold auditPeriodic
  split
  · exact auditCheckpoint_grows s
  · exact .of_audit_eq rfl

theorem auditFlush_grows (s : State) : LogGrows s (auditFlush s) := by
  unfold auditFlush
  split
  · exact .of_audit_eq rfl
  · split
    · exact ⟨[], by simp, rfl, by simp, List.prefix_refl _⟩
    · exact (auditCheckpoint_grows s).trans (LogGrows.trans ⟨[], by simp, rfl, by simp, List.prefix_refl _⟩ (auditPeriodic_grows _))

/-- The record that service appends for a session's act (22 R514). -/
def serviceRecord (kind : Byte) (code : W16) (sid : W32) (source : Byte) (detail : List Byte) (s : State) : AuditRec :=
  let r : AuditRec := { index := s.audit.count, time := s.time, kind := kind, code := code, role := roleOf s sid, source := source,
                        sid := sid, subject := subjectOf s sid, detail := detail, chain := 0 }
  { r with chain := sha3 (digestBytes s.audit.head ++ r.body) }

theorem auditAppend_ring (kind : Byte) (code : W16) (sid : W32) (source : Byte) (detail : List Byte) (s : State) :
    (auditAppend kind code (roleOf s sid) source sid (subjectOf s sid) detail s).audit.ring =
      s.audit.ring ++ [serviceRecord kind code sid source detail s] := rfl

/-- Its CHAIN is over the CHAIN before it and its own other bytes. -/
theorem serviceRecord_chain (kind : Byte) (code : W16) (sid : W32) (source : Byte) (detail : List Byte) (s : State) :
    (serviceRecord kind code sid source detail s).chain =
      sha3 (digestBytes s.audit.head ++ (serviceRecord kind code sid source detail s).body) := by
  simp only [serviceRecord, AuditRec.body]

/-- In service a record is appended, and checkpoints may follow it. -/
theorem audit_in_service {s : State} (hcape : s.rcv.cape = false) (hserved : s.rcv.served = true) (kind : Byte) (code : W16) (sid : W32)
    (source : Byte) (detail : List Byte) :
    LogGrows (auditAppend kind code (roleOf s sid) source sid (subjectOf s sid) detail s) (audit kind code sid source detail s) := by
  have hperiodic := auditPeriodic_grows (auditAppend kind code (roleOf s sid) source sid (subjectOf s sid) detail s)
  simp only [audit, hcape, hserved, Bool.not_true, Bool.false_eq_true, if_false]
  split
  · exact hperiodic.trans (auditFlush_grows _)
  · exact hperiodic

/-- Settles O56: the record is the one that is appended, and what follows it is checkpoints'. That records of the boot are held, and the log
stands, until service starts is the model's choice (notes/assumptions/93.md). -/
theorem auditRecordsAreAppended : Obligations.AuditRecordsAreAppended := by
  intro s kind code sid source detail
  refine ⟨fun hcape => ?missed, fun hcape hserved => ?service, fun hcape hserved => ?boot⟩
  case missed => simp only [audit, hcape, if_true]
  case service =>
    obtain ⟨more, hring, hcount, hkind, -⟩ := audit_in_service hcape hserved kind code sid source detail
    rw [auditAppend_ring, List.append_assoc] at hring
    exact ⟨serviceRecord kind code sid source detail s, more, hring, rfl, rfl, rfl, rfl, rfl, rfl, rfl, rfl, rfl,
      serviceRecord_chain .., hcount, hkind⟩
  case boot => simp only [audit, hcape, hserved, Bool.not_false, Bool.false_eq_true, if_false, if_true]

end Sys2Proof.Machine

namespace Sys2Proof.Machine

/-! ## Management (25 R562, R563) -/

/-- Words in bytes, of four each. -/
theorem length_flatMap_words (f : Nat → Nat) (l : List Nat) : (l.flatMap (fun i => leBytes 4 (f i))).length = 4 * l.length := by
  induction l with
  | nil => rfl
  | cons a l ih => simp only [List.flatMap_cons, List.length_append, ih, List.length_cons]; simp [leBytes]; omega

/-- The first word of those read. -/
theorem take_flatMap_words (f : Nat → Nat) {n : Nat} (h : 0 < n) :
    ((List.range n).flatMap (fun i => leBytes 4 (f i))).take 4 = leBytes 4 (f 0) := by
  obtain ⟨m, rfl⟩ := Nat.exists_eq_succ_of_ne_zero h.ne'
  rw [List.range_succ_eq_map, List.flatMap_cons]
  exact List.take_left' (by simp [leBytes])

section
variable {s : State}

/-- The words that a read of `n` answers. -/
def mgmtBytes (s : State) (n : Nat) : List Byte :=
  (List.range n).flatMap (fun i => leBytes 4 (mgmtWord s (s.free + i) ((s.pins.pointer.toNat + i) % 65536)))

theorem i3cRead_works (ha : aonWorks s = true) (n : Nat) :
    i3cRead n s = emit (.i3c (mgmtBytes s n))
      { s with free := s.free + n, pins := { s.pins with pointer := s.pins.pointer + BitVec.ofNat 16 n } } := by
  have hp : BitVec.ofNat 16 (s.pins.pointer.toNat + n) = s.pins.pointer + BitVec.ofNat 16 n := by
    rw [BitVec.ofNat_add, BitVec.ofNat_toNat, BitVec.setWidth_eq]
  simp only [i3cRead, ha, Bool.not_true, Bool.false_eq_true, if_false, hp]
  rfl

theorem i3cPointer_two (ha : aonWorks s = true) (a b : Byte) :
    i3cPointer [a, b] s = { s with pins := { s.pins with pointer := BitVec.ofNat 16 (a.toNat + 256 * b.toNat) } } := by
  simp [i3cPointer, ha, leNat]

/-! ## The TAP (25 R564) -/

/-- An instruction is taken while TRST_N is high. -/
theorem tap_high (ha : aonWorks s = true) (ht : s.pins.trstN = true) (ir : Byte) (f : State → State) :
    tap ir f s = f { s with pins := { s.pins with ir := ir } } := by
  simp only [tap, ha, ht, Bool.not_true, Bool.or_self, Bool.false_eq_true, if_false]

end

/-- Settles O55: management answers the words from its pointer on; each TAP instruction is taken and answers its register. That TRST_N low selects
IDCODE is the model's choice (notes/assumptions/9.md), as are the bypass register of CLAMP, HIGHZ and EXTEST (notes/assumptions/74.md) and a
boundary register of 64 bits (notes/assumptions/73.md). -/
theorem managementAndTapAnswer : Obligations.ManagementAndTapAnswer := by
  intro s ha
  refine ⟨fun a b => ?pointer, fun n => ⟨mgmtBytes s n, ?read, ?length, fun hn hp => ?code, fun hn hp hpor => ?stage⟩,
    fun ht => ⟨?idcode, ?bypass, ?clamp, ?highz, fun hpor => ?extestBypass, fun hpor => ?extest, ?sample, fun p => ?preload⟩, rfl, rfl⟩
  case pointer => exact congrArg Host.Outcome.next (i3cPointer_two ha a b)
  case read => exact congrArg Host.Outcome.next (i3cRead_works ha n)
  case length => exact (length_flatMap_words _ _).trans (by rw [List.length_range])
  case code =>
    refine (take_flatMap_words _ hn).trans ?_
    rw [hp]
    have hw : mgmtWord s (s.free + 0) 0 = 0x00B00A25 := by
      simp only [mgmtWord, mgmtLive]
      cases s.pins.porN <;> rfl
    exact congrArg (leBytes 4) hw
  case stage =>
    refine (take_flatMap_words _ hn).trans ?_
    rw [hp]
    have hw : mgmtWord s (s.free + 0) 1 = s.boot.stage := by simp [mgmtWord, mgmtLive, hpor]
    exact congrArg (leBytes 4) hw
  case idcode => exact congrArg Host.Outcome.next (tap_high ha ht _ _)
  case bypass => exact congrArg Host.Outcome.next (tap_high ha ht _ _)
  case clamp => exact congrArg Host.Outcome.next (tap_high ha ht _ _)
  case highz => exact congrArg Host.Outcome.next (tap_high ha ht _ _)
  case extestBypass => exact congrArg Host.Outcome.next ((tap_high ha ht _ _).trans (if_pos hpor))
  case extest => exact ⟨_, congrArg Host.Outcome.next ((tap_high ha ht _ _).trans (if_neg (ne_true_of_eq_false hpor)))⟩
  case sample => exact ⟨_, congrArg Host.Outcome.next (tap_high ha ht _ _)⟩
  case preload => exact ⟨_, congrArg Host.Outcome.next (tap_high ha ht _ _)⟩

end Sys2Proof.Machine

namespace Sys2Proof.Machine

/-! ## What a restart leaves as it is

Restarts of groups, losses and warm resets write channels, objects, lists, tables and the log. -/

/-- The parts of the state that no restart of a group writes. -/
structure RestartCore where
  sessions : SMap Session
  wire : List (Nat × FiItem)
  fi : SMap FiSlot
  rcv : Rcv
  stage : Nat
  wxas : SMap Wxa
  linksUp : NSet
  plt : Plt
  isl : SMap Isl

/-- Those parts of a state; which channels are frozen is none of them. -/
def restartCore (s : State) : RestartCore :=
  { sessions := s.sessions, wire := s.wire, fi := s.fi, rcv := { s.rcv with frozen := [] }, stage := s.boot.stage, wxas := s.wxas,
    linksUp := s.linksUp, plt := s.plt, isl := s.isl }

section
variable {s : State} {c : RestartCore} (h : restartCore s = c)
include h

theorem sessions_of_restartCore : s.sessions = c.sessions := congrArg RestartCore.sessions h
theorem wire_of_restartCore : s.wire = c.wire := congrArg RestartCore.wire h
theorem fi_of_restartCore : s.fi = c.fi := congrArg RestartCore.fi h
theorem recovering_of_restartCore : s.rcv.recovering = c.rcv.recovering := congrArg (fun c => c.rcv.recovering) h
theorem double_of_restartCore : s.rcv.double = c.rcv.double := congrArg (fun c => c.rcv.double) h
theorem islands_of_restartCore : s.rcv.islands = c.rcv.islands := congrArg (fun c => c.rcv.islands) h
theorem warmPending_of_restartCore : s.rcv.warmPending = c.rcv.warmPending := congrArg (fun c => c.rcv.warmPending) h
theorem stage_of_restartCore : s.boot.stage = c.stage := congrArg RestartCore.stage h
theorem wxas_of_restartCore : s.wxas = c.wxas := congrArg RestartCore.wxas h
theorem linksUp_of_restartCore : s.linksUp = c.linksUp := congrArg RestartCore.linksUp h
theorem plt_of_restartCore : s.plt = c.plt := congrArg RestartCore.plt h
theorem isl_of_restartCore : s.isl = c.isl := congrArg RestartCore.isl h

end

theorem restartCore_foldl {α : Type} {f : State → α → State} (hf : ∀ s a, restartCore (f s a) = restartCore s) (l : List α) (s : State) :
    restartCore (l.foldl f s) = restartCore s :=
  List.foldlRecOn (motive := fun t => restartCore t = restartCore s) l f rfl (fun t ht a _ => (hf t a).trans ht)

theorem LogsOnly.restartCore {s t : State} (h : LogsOnly s t) (hb : t.boot.stage = s.boot.stage) :
    restartCore t = restartCore s := by
  rw [LogsOnly] at h
  rw [h]
  exact congrArg (fun n => { Machine.restartCore s with stage := n }) hb

/-! ### The log -/

theorem auditPeriodic_boot (s : State) : (auditPeriodic s).boot = s.boot := by
  unfold auditPeriodic
  split <;> rfl

theorem auditFlush_boot (s : State) : (auditFlush s).boot = s.boot := by
  unfold auditFlush
  split
  · rfl
  · split
    · rfl
    · exact auditPeriodic_boot _

theorem audit_stage (kind : Byte) (code : W16) (sid : W32) (source : Byte) (detail : List Byte) (s : State) :
    (audit kind code sid source detail s).boot.stage = s.boot.stage := by
  unfold audit
  split
  · rfl
  · split
    · rfl
    · dsimp only
      split
      · rw [auditFlush_boot, auditPeriodic_boot]; rfl
      · rw [auditPeriodic_boot]; rfl

@[simp] theorem restartCore_audit (kind : Byte) (code : W16) (sid : W32) (source : Byte) (detail : List Byte) (s : State) :
    restartCore (audit kind code sid source detail s) = restartCore s := (audit_logsOnly ..).restartCore (audit_stage ..)

@[simp] theorem restartCore_auditRecovery (cls target : Nat) (code : W16) (sid : W32) (s : State) :
    restartCore (auditRecovery cls target code sid s) = restartCore s := restartCore_audit ..

@[simp] theorem restartCore_auditFlush (s : State) : restartCore (auditFlush s) = restartCore s :=
  (auditFlush_logsOnly s).restartCore (congrArg Boot.stage (auditFlush_boot s))

@[simp] theorem restartCore_alert (k : Nat) (s : State) : restartCore (alert k s) = restartCore s :=
  (alert_logsOnly k s).restartCore (congrArg Boot.stage (alertEdge_boot ..))

@[simp] theorem restartCore_bump (i n : Nat) (s : State) : restartCore (bump i n s) = restartCore s := rfl

@[simp] theorem restartCore_rset (off : Nat) (v : W32) (s : State) : restartCore (rset off v s) = restartCore s := rfl

@[simp] theorem restartCore_pwrTrack (s : State) : restartCore (pwrTrack s) = restartCore s := rfl

/-! ### Groups (17 R420-R426) -/

@[simp] theorem restartCore_pauseChan (s : State) (i : Nat) : restartCore (pauseChan s i) = restartCore s := by
  unfold pauseChan
  dsimp only
  split
  · rfl
  · split <;> rfl

@[simp] theorem restartCore_dropRun (k : Nat) (s : State) : restartCore (dropRun k s) = restartCore s := by
  unfold dropRun
  dsimp only
  change restartCore (List.foldl _ s _) = restartCore s
  refine restartCore_foldl (fun u e => ?_) _ s
  cases e <;> rfl

@[simp] theorem restartCore_dropChan (s : State) (i : Nat) : restartCore (dropChan s i) = restartCore s := by
  refine restartCore_foldl (fun u j => ?_) _ s
  split
  · exact restartCore_dropRun ..
  · rfl

@[simp] theorem restartCore_resync (p : Plate) (c : Nat) (rs : List Nat) (s : State) : restartCore (resync p c rs s) = restartCore s := by
  unfold resync
  exact restartCore_foldl (f := fun s o => reassign p c o s) (fun u o => rfl) _ s

@[simp] theorem restartCore_clearReefs (rs : List Nat) (s : State) : restartCore (clearReefs rs s) = restartCore s := rfl

@[simp] theorem restartCore_dropGroup (g : List Nat) (s : State) : restartCore (dropGroup g s) = restartCore s := by
  have hdrop : restartCore (clearReefs (g.flatMap (inletReefs s)) ((groupChans s g).foldl dropChan s)) = restartCore s :=
    restartCore_foldl restartCore_dropChan _ s
  unfold dropGroup
  dsimp only
  rw [restartCore_bump]
  split
  · rw [restartCore_resync, hdrop]
  · exact hdrop

theorem restartCore_pauseChans (is : List Nat) (s : State) : restartCore (is.foldl pauseChan s) = restartCore s :=
  restartCore_foldl restartCore_pauseChan _ s

theorem restartCore_restartGroup (s : State) (g : List Nat) : restartCore (restartGroup s g) = restartCore s := by
  unfold restartGroup
  split
  · exact restartCore_pauseChans _ s
  · exact restartCore_dropGroup g s

theorem restartCore_freezeGroup (s : State) (g : List Nat) : restartCore (freezeGroup s g) = restartCore s := by
  unfold freezeGroup
  split
  · exact restartCore_pauseChans _ s
  · exact restartCore_dropGroup g s

/-! ### Tables that are loaded again -/

theorem restartCore_asuReload (is : List Nat) (s : State) : restartCore (asuReload is s) = restartCore s := by
  unfold asuReload
  split
  · rfl
  · refine restartCore_foldl (fun u t => restartCore_foldl (fun v g => ?_) _ u) _ s
    split
    · rfl
    · split
      · unfold asuLose
        split <;> rfl
      · rfl

/-! ## Sessions that end or are suspended -/

/-- `t` differs from `s` at most in what a suspension writes: sessions, their fates and doubts, what waits for their peers, and outputs. -/
def SuspendsOnly (s t : State) : Prop :=
  t = { s with sessions := t.sessions, fates := t.fates, doubts := t.doubts, peerQueue := t.peerQueue, out := t.out }

namespace SuspendsOnly
variable {s t u : State}

theorem refl (s : State) : SuspendsOnly s s := rfl

theorem trans (h : SuspendsOnly s t) (h' : SuspendsOnly t u) : SuspendsOnly s u := by
  calc u = { t with sessions := u.sessions, fates := u.fates, doubts := u.doubts, peerQueue := u.peerQueue, out := u.out } := h'
    _ = { s with sessions := u.sessions, fates := u.fates, doubts := u.doubts, peerQueue := u.peerQueue, out := u.out } := by rw [h]

/-- The links are none of it. -/
theorem withLinks (h : SuspendsOnly s t) (up paused : NSet) :
    SuspendsOnly { s with linksUp := up, paused := paused } { t with linksUp := up, paused := paused } := by
  rw [SuspendsOnly] at h ⊢
  rw [h]

theorem linksUp (h : SuspendsOnly s t) : t.linksUp = s.linksUp := by rw [SuspendsOnly] at h; rw [h]
theorem paused (h : SuspendsOnly s t) : t.paused = s.paused := by rw [SuspendsOnly] at h; rw [h]

end SuspendsOnly

theorem dropQueue_suspendsOnly (code : W16) (x : Session) (s : State) : SuspendsOnly s (dropQueue code x s) := by
  refine List.foldlRecOn (motive := SuspendsOnly s) x.queue _ (.refl s) (fun t ht o _ => ht.trans ?_)
  split
  · rfl
  · split <;> rfl

theorem doubtPut_suspendsOnly (k : Nat) (x : Session) (s : State) : SuspendsOnly s (doubtPut k x s) := by
  unfold doubtPut
  split <;> rfl

theorem suspendSession_suspendsOnly (code : W16) (k : Nat) (s : State) : SuspendsOnly s (suspendSession code k s) := by
  unfold suspendSession
  split
  · rfl
  · dsimp only
    split
    · rfl
    · have hput (y : Session) : SuspendsOnly s (sessPut k y s) := rfl
      have hfates (u : State) (f : SMap Fates) : SuspendsOnly u { u with fates := f } := rfl
      exact (((hput _).trans (doubtPut_suspendsOnly ..)).trans (dropQueue_suspendsOnly ..)).trans (hfates _ _)

theorem suspendLink_suspendsOnly (l : Nat) (s : State) : SuspendsOnly s (suspendLink l s) :=
  List.foldlRecOn (motive := SuspendsOnly s) _ _ (.refl s) (fun _ ht _ _ => ht.trans (suspendSession_suspendsOnly ..))

theorem linksDown_cons (l : Nat) (ls : List Nat) (s : State) :
    linksDown (l :: ls) s = linksDown ls (suspendLink l { s with linksUp := ndel s.linksUp l, paused := ndel s.paused l }) := rfl

/-- Links that go down leave the others up, and suspend sessions. -/
theorem linksDown_suspendsOnly (ls : List Nat) (s : State) :
    SuspendsOnly { s with linksUp := ls.foldl ndel s.linksUp, paused := ls.foldl ndel s.paused } (linksDown ls s) := by
  induction ls generalizing s with
  | nil => rfl
  | cons l ls ih =>
    have hdown := suspendLink_suspendsOnly l { s with linksUp := ndel s.linksUp l, paused := ndel s.paused l }
    rw [linksDown_cons]
    refine SuspendsOnly.trans ?_ (ih _)
    rw [hdown.linksUp, hdown.paused]
    exact hdown.withLinks _ _

theorem linksDown_linksUp (ls : List Nat) (s : State) : (linksDown ls s).linksUp = ls.foldl ndel s.linksUp :=
  (linksDown_suspendsOnly ls s).linksUp

theorem suspendLink_of_no_session {s : State} (h : s.sessions = []) (l : Nat) : suspendLink l s = s := by
  unfold suspendLink
  rw [h]
  rfl

/-- With no session, links go down alone. -/
theorem linksDown_of_no_session {s : State} (h : s.sessions = []) (ls : List Nat) :
    linksDown ls s = { s with linksUp := ls.foldl ndel s.linksUp, paused := ls.foldl ndel s.paused } := by
  induction ls generalizing s with
  | nil => rfl
  | cons l ls ih =>
    rw [linksDown_cons, suspendLink_of_no_session (s := { s with linksUp := ndel s.linksUp l, paused := ndel s.paused l }) h]
    exact ih h

theorem SuspendsOnly.restartCore {s t : State} (h : SuspendsOnly s t) : restartCore t = { restartCore s with sessions := t.sessions } := by
  rw [SuspendsOnly] at h
  rw [h]
  rfl

theorem restartCore_dropQueue (code : W16) (x : Session) (s : State) : restartCore (dropQueue code x s) = restartCore s := by
  rw [(dropQueue_suspendsOnly code x s).restartCore, dropQueue_sessions]
  rfl

theorem restartCore_doubtPut (k : Nat) (x : Session) (s : State) : restartCore (doubtPut k x s) = restartCore s := by
  rw [(doubtPut_suspendsOnly k x s).restartCore, doubtPut_sessions]
  rfl

theorem restartCore_regRefuse (code : W16) (sid : W32) (a : Nat) (s : State) : restartCore (regRefuse code sid a s) = restartCore s := by
  unfold regRefuse
  split
  · dsimp only
    split <;> simp only [restartCore_audit, restartCore_alert, restartCore_bump, restartCore_rset]
  · rfl

theorem restartCore_guardLapse (sid : W32) (s : State) : restartCore (guardLapse sid s) = restartCore s := by
  unfold guardLapse
  split
  · rfl
  · exact restartCore_regRefuse ..

/-- A session that ends is no more, and of a restart's core nothing else changes. -/
theorem restartCore_endSession {k : Nat} {x : Session} {s : State} (hx : mlook s.sessions k = some x) :
    restartCore (endSession k s) = { restartCore s with sessions := mdel s.sessions k } := by
  have hdoubt : restartCore (doubtPut k x (guardLapse (BitVec.ofNat 32 k) s)) = restartCore s :=
    (restartCore_doubtPut ..).trans (restartCore_guardLapse ..)
  have hended (u : State) (f : SMap Fates) (g : SMap HiCapture) (hu : restartCore u = restartCore s) :
      restartCore (pwrTrack (dropQueue cPeerDown x { u with sessions := mdel u.sessions k, hiCaps := g, fates := f })) =
        { restartCore s with sessions := mdel s.sessions k } := by
    rw [restartCore_pwrTrack, restartCore_dropQueue]
    exact congrArg (fun c : RestartCore => { c with sessions := mdel c.sessions k }) hu
  unfold endSession
  simp only [hx]
  split
  · exact hended _ _ _ hdoubt
  · exact hended _ _ _ ((restartCore_audit ..).trans hdoubt)

/-- Every session ends. -/
theorem restartCore_endSessions (s : State) :
    restartCore ((s.sessions.map (·.1)).foldl (fun s k => endSession k s) s) = { restartCore s with sessions := [] } := by
  generalize hl : s.sessions = l
  induction l generalizing s with
  | nil => exact congrArg (fun l => { restartCore s with sessions := l }) hl
  | cons p l ih =>
    have hcore : restartCore (endSession p.1 s) = { restartCore s with sessions := l } := by
      rw [restartCore_endSession (x := p.2) (by rw [hl]; exact if_pos rfl), hl]
      exact congrArg (fun l => { restartCore s with sessions := l }) (if_pos rfl)
    refine (ih (endSession p.1 s) (congrArg RestartCore.sessions hcore)).trans ?_
    rw [hcore]

/-! ## Fault injection in a recovery (18 R443) -/

/-- Of a restart's core at most the slots and what they release change. -/
def SlotsOnly (s t : State) : Prop := ∃ f w, restartCore t = { restartCore s with fi := f, wire := w }

namespace SlotsOnly
variable {s t u : State}

theorem refl (s : State) : SlotsOnly s s := ⟨_, _, rfl⟩

theorem trans (h : SlotsOnly s t) (h' : SlotsOnly t u) : SlotsOnly s u := by
  obtain ⟨f, w, h⟩ := h
  obtain ⟨f', w', h'⟩ := h'
  exact ⟨f', w', by rw [h', h]⟩

theorem of_core (h : restartCore t = restartCore s) : SlotsOnly s t := ⟨_, _, h⟩

theorem sessions (h : SlotsOnly s t) : t.sessions = s.sessions := by
  obtain ⟨f, w, h⟩ := h
  exact sessions_of_restartCore h

end SlotsOnly

theorem fiPut_slotsOnly (k : Nat) (x : FiSlot) (s : State) : SlotsOnly s (fiPut k x s) := ⟨_, _, rfl⟩

theorem fiRelease_slotsOnly (k : Nat) (s : State) : SlotsOnly s (fiRelease k s) := by
  unfold fiRelease
  dsimp only
  split <;> exact ⟨_, _, rfl⟩

theorem fiStop_slotsOnly (k cause : Nat) (s : State) : SlotsOnly s (fiStop k cause s) :=
  (fiPut_slotsOnly k _ s).trans (.of_core (restartCore_audit ..))

theorem fiSuspend_slotsOnly (s : State) : SlotsOnly s (fiSuspend s) := by
  refine List.foldlRecOn (motive := SlotsOnly s) _ _ (.refl s) (fun t ht k _ => ht.trans ?_)
  dsimp only
  split
  · exact ((fiRelease_slotsOnly k t).trans (fiPut_slotsOnly ..)).trans (.of_core (restartCore_bump ..))
  · exact .refl t

theorem fiReset_slotsOnly (s : State) : SlotsOnly s (fiReset s) := by
  refine List.foldlRecOn (motive := SlotsOnly s) _ _ (.refl s) (fun t ht k _ => ht.trans ?_)
  split
  · exact (fiRelease_slotsOnly k t).trans (fiStop_slotsOnly ..)
  · exact .refl t

theorem fiLostCheck_slotsOnly (s : State) : SlotsOnly s (fiLostCheck s) := by
  refine List.foldlRecOn (motive := SlotsOnly s) _ _ (.refl s) (fun t ht k _ => ht.trans ?_)
  split
  · exact (fiRelease_slotsOnly k t).trans (fiStop_slotsOnly ..)
  · exact .refl t

/-- A recovery that begins marks itself; of a restart's core only slots change besides. -/
theorem beginRecovery_slotsOnly (s : State) : ∃ since, SlotsOnly { s with rcv := recoveringSince s.rcv since } (beginRecovery s) := by
  unfold beginRecovery
  cases hr : s.rcv.recovering with
  | true =>
    refine ⟨s.rcv.since, ?_⟩
    have hrcv : recoveringSince s.rcv s.rcv.since = { s.rcv with double := true } := by
      simp [recoveringSince, hr]
    rw [if_pos rfl, hrcv]
    exact .of_core (restartCore_alert ..)
  | false =>
    refine ⟨s.time, ?_⟩
    have hrcv : recoveringSince s.rcv s.time = { s.rcv with recovering := true, since := s.time } := by
      simp [recoveringSince, hr]
    rw [if_neg Bool.false_ne_true, hrcv]
    exact SlotsOnly.trans (.of_core (restartCore_alert ..)) (fiSuspend_slotsOnly _)

/-- A recovery that begins and is logged. -/
theorem recoveryLogged_slotsOnly (cls target : Nat) (code : W16) (sid : W32) (s : State) :
    ∃ since, SlotsOnly { s with rcv := recoveringSince s.rcv since } (auditRecovery cls target code sid (beginRecovery s)) := by
  obtain ⟨since, h⟩ := beginRecovery_slotsOnly s
  exact ⟨since, h.trans (.of_core (restartCore_auditRecovery ..))⟩

/-! ## RCV_CMD and WARM_N (17 R430, R431) -/

/-- An island that starts anew loses its own WXAs. -/
theorem restartCore_resetIsland (n : Nat) (s : State) :
    restartCore (resetIsland n s) = { restartCore s with wxas := s.wxas.filter (fun p => 2048 ≤ p.1 || p.1 / 128 ≠ n) } := by
  rw [resetIsland, restartCore_asuReload]
  rfl

/-- What a level of RCV_CMD leaves of the state `u` that it starts from: a recovery runs, and of the rest of a restart's core only slots, sessions,
WXAs and links change. -/
def Reset (u t : State) : Prop :=
  ∃ since f w x ws up, restartCore t = { restartCore u with
    fi := f, wire := w, sessions := x, wxas := ws, linksUp := up, rcv := { recoveringSince u.rcv since with frozen := [] } }

theorem Reset.of_core {u s t : State} {since : Nat} {x : SMap Session} {ws : SMap Wxa} {up : NSet}
    (h : SlotsOnly { u with rcv := recoveringSince u.rcv since } s)
    (ht : restartCore t = { restartCore s with sessions := x, wxas := ws, linksUp := up }) : Reset u t := by
  obtain ⟨f, w, h⟩ := h
  exact ⟨since, f, w, x, ws, up, by rw [ht, h]; rfl⟩

theorem rcvReset_channel (sid : W32) (u : State) : Reset u (rcvReset 1 sid u) := by
  obtain ⟨since, hlogged⟩ := recoveryLogged_slotsOnly 1 (rcvTarget u) cOk sid u
  have hcore : restartCore (rcvReset 1 sid u) = restartCore (auditRecovery 1 (rcvTarget u) cOk sid (beginRecovery u)) :=
    restartCore_restartGroup ..
  exact .of_core hlogged (hcore.trans rfl)

/-- The WXAs of the island start anew. -/
theorem rcvReset_island (sid : W32) (u : State) :
    Reset u (rcvReset 2 sid u) ∧ (rcvReset 2 sid u).wxas = u.wxas.filter (fun p => 2048 ≤ p.1 || p.1 / 128 ≠ rcvTarget u) := by
  obtain ⟨since, hlogged⟩ := recoveryLogged_slotsOnly 2 (rcvTarget u) cOk sid u
  have hwxas : (auditRecovery 2 (rcvTarget u) cOk sid (beginRecovery u)).wxas = u.wxas := by
    obtain ⟨f, w, h⟩ := hlogged
    exact wxas_of_restartCore h
  have hcore : restartCore (rcvReset 2 sid u) = { restartCore (auditRecovery 2 (rcvTarget u) cOk sid (beginRecovery u)) with
      wxas := u.wxas.filter (fun p => 2048 ≤ p.1 || p.1 / 128 ≠ rcvTarget u) } := by
    rw [← hwxas]
    exact (restartCore_foldl restartCore_restartGroup _ _).trans (restartCore_resetIsland ..)
  exact ⟨.of_core hlogged (hcore.trans rfl), wxas_of_restartCore hcore⟩

/-- The links of a port go down; the sessions that they carry are suspended. -/
theorem rcvReset_links {level : Nat} (h1 : level ≠ 1) (h2 : level ≠ 2) (sid : W32) (u : State) :
    Reset u (rcvReset level sid u) ∧ (rcvReset level sid u).linksUp = ((portLinks u (rcvTarget u)).getD []).foldl ndel u.linksUp := by
  obtain ⟨since, hlogged⟩ := recoveryLogged_slotsOnly level (rcvTarget u) cOk sid u
  have hreset : rcvReset level sid u = linksDown ((portLinks u (rcvTarget u)).getD []) (auditRecovery level (rcvTarget u) cOk sid (beginRecovery u)) := by
    unfold rcvReset
    split
    · exact absurd rfl h1
    · exact absurd rfl h2
    · rfl
  have hdown := linksDown_suspendsOnly ((portLinks u (rcvTarget u)).getD []) (auditRecovery level (rcvTarget u) cOk sid (beginRecovery u))
  have hup : (auditRecovery level (rcvTarget u) cOk sid (beginRecovery u)).linksUp = u.linksUp := by
    obtain ⟨f, w, h⟩ := hlogged
    exact linksUp_of_restartCore h
  rw [hreset]
  exact ⟨.of_core hlogged (hdown.restartCore.trans rfl), (linksDown_linksUp ..).trans (by rw [hup])⟩

theorem rcvReset_reset (level : Nat) (sid : W32) (u : State) : Reset u (rcvReset level sid u) := by
  by_cases h1 : level = 1
  · exact h1 ▸ rcvReset_channel sid u
  · by_cases h2 : level = 2
    · exact h2 ▸ (rcvReset_island sid u).1
    · exact (rcvReset_links h1 h2 sid u).1

/-- A state whose WARM_N waits no more. -/
def warmTaken (u : State) : State := { u with rcv := { u.rcv with warmPending := false } }

/-- A device that is reset warm, as its recovery begins. -/
def warmBegun (sid : W32) (u : State) : State := auditRecovery 4 0 cOk sid (beginRecovery (warmTaken u))

/-- The same once its slots are reset and its sessions have ended. -/
def warmEnded (sid : W32) (u : State) : State :=
  ((warmBegun sid u).sessions.map (·.1)).foldl (fun s k => endSession k s) (fiReset (warmBegun sid u))

/-- The same once its groups wait and its islands start anew. -/
def warmCleared (s1 : State) : State :=
  let s3 := clearReefs (List.range 128) ((restartGroups s1 (inletsNow s1)).foldl freezeGroup s1)
  asuReload (List.range 16) { s3 with wxas := s3.wxas.filter (fun p => 2048 ≤ p.1), isl := [],
                                      emb := s3.emb.map (fun t => (t.1, { t.2 with prefetch := [] })) }

/-- The boot starts at stage 3, and attempts at sessions and strait flits are forgotten. -/
def bootWarm (s : State) : State :=
  { s with straits := [], helloOut := [], helloIn := [], boot := { s.boot with stage := 3 } }

theorem restartCore_bootWarm (s : State) : restartCore (bootWarm s) = { restartCore s with stage := 3 } := rfl

theorem restartCore_linksDown_of_no_session {s : State} (h : s.sessions = []) (ls : List Nat) :
    restartCore (linksDown ls s) = { restartCore s with linksUp := ls.foldl ndel s.linksUp } := by
  rw [linksDown_of_no_session h]
  rfl

theorem linksDown_boot_of_no_session {s : State} (h : s.sessions = []) (ls : List Nat) : (linksDown ls s).boot = s.boot := by
  rw [linksDown_of_no_session h]

theorem restartCore_warmEnded (sid : W32) (u : State) :
    ∃ since f w, restartCore (warmEnded sid u) = { restartCore u with
      fi := f, wire := w, sessions := [],
      rcv := { recoveringSince { u.rcv with warmPending := false } since with frozen := [] } } := by
  obtain ⟨since, hlogged⟩ := recoveryLogged_slotsOnly 4 0 cOk sid (warmTaken u)
  have hreset := fiReset_slotsOnly (warmBegun sid u)
  have hended : restartCore (warmEnded sid u) = { restartCore (fiReset (warmBegun sid u)) with sessions := [] } := by
    rw [warmEnded, ← hreset.sessions]
    exact restartCore_endSessions _
  obtain ⟨f, w, hslots⟩ := hlogged.trans hreset
  exact ⟨since, f, w, by rw [hended, hslots]; rfl⟩

theorem restartCore_warmCleared (s : State) :
    restartCore (warmCleared s) = { restartCore s with isl := [], wxas := s.wxas.filter (fun p => 2048 ≤ p.1) } := by
  have hgroups : restartCore (clearReefs (List.range 128) ((restartGroups s (inletsNow s)).foldl freezeGroup s)) = restartCore s :=
    (restartCore_clearReefs ..).trans (restartCore_foldl restartCore_freezeGroup _ s)
  refine (restartCore_asuReload ..).trans ?_
  exact congrArg (fun c : RestartCore => { c with isl := [], wxas := c.wxas.filter (fun p => 2048 ≤ p.1) }) hgroups

theorem warmCleared_sessions (sid : W32) (u : State) : (warmCleared (warmEnded sid u)).sessions = [] := by
  obtain ⟨since, f, w, hended⟩ := restartCore_warmEnded sid u
  exact (sessions_of_restartCore (restartCore_warmCleared _)).trans (congrArg RestartCore.sessions hended)

theorem deviceWarm_eq (sid : W32) (u : State) :
    deviceWarm sid u = bootWarm (linksDown (List.range 17) (warmCleared (warmEnded sid u))) := by
  unfold bootWarm
  rw [linksDown_boot_of_no_session (warmCleared_sessions sid u)]
  rfl

/-- The fourth level of RCV_CMD: the sessions end, the islands' own state goes, the links go down and the boot starts at stage 3. -/
theorem restartCore_deviceWarm (sid : W32) (u : State) :
    ∃ since f w, restartCore (deviceWarm sid u) = { restartCore u with
      fi := f, wire := w, sessions := [], isl := [], stage := 3,
      wxas := u.wxas.filter (fun p => 2048 ≤ p.1), linksUp := (List.range 17).foldl ndel u.linksUp,
      rcv := { recoveringSince { u.rcv with warmPending := false } since with frozen := [] } } := by
  obtain ⟨since, f, w, hended⟩ := restartCore_warmEnded sid u
  have hcleared := restartCore_warmCleared (warmEnded sid u)
  have hwarm : restartCore (deviceWarm sid u) = { restartCore (warmCleared (warmEnded sid u)) with
      stage := 3, linksUp := (List.range 17).foldl ndel (warmCleared (warmEnded sid u)).linksUp } := by
    rw [deviceWarm_eq, restartCore_bootWarm, restartCore_linksDown_of_no_session (warmCleared_sessions sid u)]
  have hup : (warmCleared (warmEnded sid u)).linksUp = u.linksUp :=
    (linksUp_of_restartCore hcleared).trans (congrArg RestartCore.linksUp hended)
  have hwxas : (warmEnded sid u).wxas = u.wxas := wxas_of_restartCore hended
  exact ⟨since, f, w, by rw [hwarm, hcleared, hended, hup, hwxas]⟩

theorem deviceWarm_straits (sid : W32) (u : State) : (deviceWarm sid u).straits = [] := by
  rw [deviceWarm_eq]
  rfl

/-! ## The rows of RCV_CMD and WARM_N -/

/-- RCV_CMD. -/
def rcvCmdWord : RegWord := { grd := 7, right := .level }

theorem regAt_rcvCmd : regAt 0x00070004 = some rcvCmdWord := rfl

theorem guardCheck_rcvCmd (s : State) (g : SMap Guard) (v : Nat) : guardCheck { s with guards := g } 0x00070004 v = rcvCheck s (v % 8) := rfl

/-- A level of RCV_CMD on a valid target, by its role: it is recorded, and has its effect. -/
theorem pairRow_rcvCmd {s : State} {sid : W32} {r : Role} {v : Nat} (h : OpenAs s sid r) (hmay : mayWrite r rcvCmdWord v = true)
    (hck : rcvCheck s (v % 8) = cOk) :
    pairRow 0x00070004 v sid s = pairAfter sid (rcvDo (v % 8) sid (pairBefore 0x00070004 v sid s)) :=
  pairRow_told h regAt_rcvCmd hmay ((guardCheck_rcvCmd ..).trans hck) rfl rfl

theorem warmPin_waits {s : State} (hpor : s.pins.porN = true) (htrip : s.pwr.tripped = false)
    (h : s.rcv.served = false ∨ s.rcv.recovering = true ∨ s.boot.stage < 7) :
    warmPin s = { s with rcv := { s.rcv with warmPending := true } } := by
  have hwaits : (!s.rcv.served || s.rcv.recovering || decide (s.boot.stage < 7)) = true := by
    rcases h with h | h | h <;> simp [h]
  simp only [warmPin, hpor, htrip, Bool.not_true, Bool.or_self, Bool.false_eq_true, if_false, hwaits, if_true]

theorem warmPin_starts {s : State} (hpor : s.pins.porN = true) (htrip : s.pwr.tripped = false) (hserved : s.rcv.served = true)
    (hrec : s.rcv.recovering = false) (hstage : 7 ≤ s.boot.stage) : warmPin s = deviceWarm 0 s := by
  simp only [warmPin, hpor, htrip, hserved, hrec, Nat.not_lt.2 hstage, Bool.not_true, Bool.or_self, decide_false, Bool.false_eq_true, if_false]

/-- Settles O44: the pair has its effect, and each level's effect is what it leaves of a restart's core; memory and flash stand since no restart
writes them. -/
theorem warmResetsRestart : Obligations.WarmResetsRestart := by
  refine ⟨fun s sid => ⟨fun h hck => ?channel, fun h => ⟨fun hck => ?island, fun hck => ?port, fun hck => ?device⟩, fun hpor htrip =>
      ⟨fun hserved hrec hstage => ?starts, fun hwire hwaits => ?waits⟩⟩,
    fun u sid level => ?levels, fun u sid => ?fourth⟩
  case channel => exact congrArg Host.Outcome.next (pairRow_rcvCmd (v := 1) h rfl hck)
  case island => exact congrArg Host.Outcome.next (pairRow_rcvCmd (v := 2) h rfl hck)
  case port => exact congrArg Host.Outcome.next (pairRow_rcvCmd (v := 3) h rfl hck)
  case device => exact congrArg Host.Outcome.next (pairRow_rcvCmd (v := 4) h rfl hck)
  case starts => exact congrArg (fun t => Host.Outcome.next (settle t)) (warmPin_starts hpor htrip hserved hrec hstage)
  case waits => exact congrArg Host.Outcome.next ((congrArg settle (warmPin_waits hpor htrip hwaits)).trans (settle_nil hwire))
  case levels =>
    obtain ⟨since, f, w, x, ws, up, h⟩ := rcvReset_reset level sid u
    have hkeeps := rcvReset_keeps (C := False) (M := False) (F := False) (P := False) (a1 := level) (a2 := sid) (.refl u)
    refine ⟨recovering_of_restartCore h, double_of_restartCore h, islands_of_restartCore h, ?mem, plt_of_restartCore h, ?flash,
      stage_of_restartCore h, ?wxas, ?links⟩
    case mem => exact (hkeeps.memory.resolve_left not_false).1
    case flash => exact hkeeps.flash.resolve_left not_false
    case wxas =>
      rintro rfl p hp
      rw [(rcvReset_island sid u).2] at hp
      have hkept := (List.mem_filter.1 hp).2
      simp only [Bool.or_eq_true, decide_eq_true_eq] at hkept
      exact hkept.symm
    case links =>
      rintro rfl
      exact (rcvReset_links (by decide) (by decide) sid u).2
  case fourth =>
    obtain ⟨since, f, w, h⟩ := restartCore_deviceWarm sid u
    have hkeeps := deviceWarm_keeps (C := False) (M := False) (F := False) (P := False) (a1 := sid) (.refl u)
    refine ⟨recovering_of_restartCore h, warmPending_of_restartCore h, stage_of_restartCore h, sessions_of_restartCore h,
      isl_of_restartCore h, deviceWarm_straits sid u, ?links, fun p hp => ?wxas, ?mem, ?poison, plt_of_restartCore h,
      hkeeps.flash.resolve_left not_false⟩
    case links => rw [linksUp_of_restartCore h]
    case wxas =>
      have hw : (deviceWarm sid u).wxas = u.wxas.filter (fun p => 2048 ≤ p.1) := wxas_of_restartCore h
      rw [hw] at hp
      exact of_decide_eq_true (List.mem_filter.1 hp).2
    case mem => exact (hkeeps.memory.resolve_left not_false).1
    case poison => exact (hkeeps.memory.resolve_left not_false).2

end Sys2Proof.Machine

namespace Sys2Proof.Machine

/-! ## A channel's new copy, and the end of a recovery (17 R412, R431) -/

theorem mirrorRebuilt_at {i k : Nat} {s : State} (h : rebuildAt s (chanGet s i) = some k) :
    mirrorRebuilt i s = chanPut i { chanGet s i with mirror := k, single := false }
      (writeMem (hbmKey k (0xFEC000000 + (chanGet s i).ringOff))
        (readMem s (hbmKey (chanGet s i).primary (0xFEC000000 + (chanGet s i).ringOff)) (32 * (chanGet s i).slots)) s) := by
  simp only [mirrorRebuilt, h]

theorem alert_regs (k : Nat) (s : State) : (alert k s).regs = (rset 8 (rget s 8 ||| (1#32 <<< k)) s).regs := by
  unfold alert alertEdge
  split <;> rfl

theorem rget_alert_ne {k off : Nat} (h : off ≠ 8) (s : State) : rget (alert k s) off = rget s off := by
  rw [rget, alert_regs]
  exact rget_rset_ne s _ h

/-- Slots that were suspended go on, and no slot's change is anything else. -/
theorem fiResume_eq (s : State) : fiResume s = { s with fi := (fiResume s).fi } := by
  refine List.foldlRecOn (motive := fun t : State => t = { s with fi := t.fi }) _ _ rfl (fun t ht k _ => ?_)
  split
  · exact congrArg (fun u : State => { u with fi := (fiPut k { fiGet t k with state := .active } t).fi }) ht
  · exact ht

/-- Waiters that test again write lists and counters. -/
theorem waitersTest_eq (s : State) : waitersTest s = { s with lists := (waitersTest s).lists, counters := (waitersTest s).counters } := by
  refine List.foldlRecOn (motive := fun t : State => t = { s with lists := t.lists, counters := t.counters }) _ _ rfl (fun t ht k _ => ?_)
  rw [waiterTests_eq]
  exact congrArg (fun u : State => { u with lists := (waiterTests k t).lists, counters := (waiterTests k t).counters }) ht

/-- The registers at the end of a recovery. -/
def recoveryTold (s : State) : State :=
  rset 0x00070010 (BitVec.ofNat 32 (min (s.time - s.rcv.since) 0xFFFFFFFF)) (rset 0x00070008 (rget s 0x00070008 ||| 0x20) s)

theorem endRecovery_eq (s : State) :
    endRecovery s = waitersTest (fiResume (alert 3 { recoveryTold s with rcv := { s.rcv with recovering := false } })) := rfl

theorem alert_eq (k : Nat) (s : State) : alert k s = { s with out := (alert k s).out, regs := (alert k s).regs } := by
  unfold alert alertEdge
  split <;> rfl

/-- `t` differs from `s` at most in what the end of a recovery writes. -/
def RecoveryEndOnly (s t : State) : Prop :=
  t = { s with counters := t.counters, fi := t.fi, lists := t.lists, out := t.out, rcv := t.rcv, regs := t.regs }

theorem RecoveryEndOnly.trans {s t u : State} (h : RecoveryEndOnly s t) (h' : RecoveryEndOnly t u) : RecoveryEndOnly s u := by
  calc u = { t with counters := u.counters, fi := u.fi, lists := u.lists, out := u.out, rcv := u.rcv, regs := u.regs } := h'
    _ = { s with counters := u.counters, fi := u.fi, lists := u.lists, out := u.out, rcv := u.rcv, regs := u.regs } := by rw [h]

theorem RecoveryEndOnly.of_eq {s t : State} {c : SMap (BitVec 64)} {f : SMap FiSlot} {l : SMap SeqList} {o : List Out} {g : SMap W32}
    (h : t = { s with counters := c, fi := f, lists := l, out := o, regs := g }) : RecoveryEndOnly s t := by
  rw [h]
  rfl

theorem alert_recoveryEndOnly (k : Nat) (s : State) : RecoveryEndOnly s (alert k s) :=
  .of_eq (c := s.counters) (f := s.fi) (l := s.lists) (alert_eq k s)

theorem fiResume_recoveryEndOnly (s : State) : RecoveryEndOnly s (fiResume s) :=
  .of_eq (c := s.counters) (l := s.lists) (o := s.out) (g := s.regs) (fiResume_eq s)

theorem waitersTest_recoveryEndOnly (s : State) : RecoveryEndOnly s (waitersTest s) :=
  .of_eq (f := s.fi) (o := s.out) (g := s.regs) (waitersTest_eq s)

@[simp] theorem fiResume_rcv (s : State) : (fiResume s).rcv = s.rcv := by rw [fiResume_eq]
@[simp] theorem fiResume_regs (s : State) : (fiResume s).regs = s.regs := by rw [fiResume_eq]
@[simp] theorem waitersTest_rcv (s : State) : (waitersTest s).rcv = s.rcv := by rw [waitersTest_eq]
@[simp] theorem waitersTest_regs (s : State) : (waitersTest s).regs = s.regs := by rw [waitersTest_eq]

theorem endRecovery_recoveryEndOnly (s : State) : RecoveryEndOnly s (endRecovery s) := by
  have htold : RecoveryEndOnly s { recoveryTold s with rcv := { s.rcv with recovering := false } } := rfl
  exact ((htold.trans (alert_recoveryEndOnly 3 _)).trans (fiResume_recoveryEndOnly _)).trans (waitersTest_recoveryEndOnly _)

theorem endRecovery_rcv (s : State) : (endRecovery s).rcv = { s.rcv with recovering := false } := by
  rw [endRecovery_eq, waitersTest_rcv, fiResume_rcv, (alert_logsOnly ..).rcv]

/-- The end of a recovery raises its alert besides the words that it tells. -/
theorem rget_endRecovery {off : Nat} (h : off ≠ 8) (s : State) : rget (endRecovery s) off = rget (recoveryTold s) off := by
  have halert := rget_alert_ne (k := 3) h { recoveryTold s with rcv := { s.rcv with recovering := false } }
  rw [rget] at halert ⊢
  rw [endRecovery_eq, waitersTest_regs, fiResume_regs, halert]
  rfl

/-- RCV_LAST_US holds the duration, and DONE is set. -/
theorem endRecovery_told {s : State} (hw : mwf 0 s.regs = true) :
    rget (endRecovery s) 0x00070010 = BitVec.ofNat 32 (min (s.time - s.rcv.since) 0xFFFFFFFF) ∧
      rget (endRecovery s) 0x00070008 = rget s 0x00070008 ||| 0x20 := by
  have hw1 : mwf 0 (rset 0x00070008 (rget s 0x00070008 ||| 0x20) s).regs = true := mset_wf _ _ hw
  constructor
  · rw [rget_endRecovery (by decide), recoveryTold, rget_rset_wf _ _ _ hw1]
  · rw [rget_endRecovery (by decide), recoveryTold, rget_rset_ne _ _ (by decide), rget_rset_wf _ _ _ hw]

theorem recoveryComplete_ends {s : State} (hrec : s.rcv.recovering = true) (hfall : s.plt.fallbackFor = none) (hfroz : s.rcv.frozen = [])
    (hstage : 7 ≤ s.boot.stage) (hwarm : s.rcv.warmPending = false) (hchans : ∀ c ∈ s.chans, rebuildAt s c.2 = none) :
    recoveryComplete s = endRecovery s := by
  have hany : s.chans.any (fun c => (rebuildAt s c.2).isSome) = false := by
    rw [List.any_eq_false]
    intro c hc
    rw [hchans c hc]
    decide
  have hwarm' : (endRecovery s).rcv.warmPending = false := by rw [endRecovery_rcv]; exact hwarm
  simp only [recoveryComplete, hrec, hfall, hfroz, Nat.not_lt.2 hstage, hany, hwarm', Option.isSome_none, Bool.not_true, ne_eq,
    not_true_eq_false, decide_false, Bool.or_self, Bool.false_eq_true, if_false]

/-! ## Losses of islands (17 R408, R423-R427) -/

/-- No slot is active or holds an item. -/
def SlotsIdle (s : State) : Prop := ∀ k < 8, (fiGet s k).state ≠ .active ∧ (fiGet s k).held = none

theorem SlotsIdle.of_fi {s t : State} (h : SlotsIdle s) (e : t.fi = s.fi) : SlotsIdle t := by
  intro k hk
  rw [fiGet, e]
  exact h k hk

theorem SlotsIdle.holdsNone {s : State} (h : SlotsIdle s) : HoldsNone s := fun k hk => (h k hk).2

/-- A slot that stops is active no more. -/
theorem fiStop_idle {s : State} (h : SlotsIdle s) (k cause : Nat) : SlotsIdle (fiStop k cause s) := by
  intro j hj
  refine ⟨?_, (fiStop_held k cause j s).trans (h j hj).2⟩
  have e : (fiStop k cause s).fi = (fiPut k { fiGet s k with state := .stopped, cause := cause } s).fi := (fiAudit_logsOnly ..).fi
  have stopped : ({ fiGet s k with state := .stopped, cause := cause } : FiSlot) ≠ FiSlot.init :=
    fun h => FiState.noConfusion (congrArg FiSlot.state h)
  rw [fiGet, e, ← fiGet]
  by_cases hjk : j = k
  · rw [hjk, fiGet_fiPut s stopped]
    exact FiState.noConfusion
  · rw [fiGet_fiPut_ne s _ hjk]
    exact (h j hj).1

theorem fiLostCheck_idle {s : State} (h : SlotsIdle s) : SlotsIdle (fiLostCheck s) := by
  refine List.foldlRecOn (motive := SlotsIdle) _ _ h (fun t ht k hk => ?_)
  rw [fiRelease_of_held_none (ht k (List.mem_range.1 hk)).2]
  split
  · exact fiStop_idle ht k 3
  · exact ht

/-- Of a restart's core at most the slots and the plate's standing change. -/
def LossCore (s t : State) : Prop := ∃ f p, restartCore t = { restartCore s with fi := f, plt := p }

namespace LossCore
variable {s t u : State}

theorem of_core (h : restartCore t = restartCore s) : LossCore s t := ⟨_, _, h⟩

theorem trans (h : LossCore s t) (h' : LossCore t u) : LossCore s u := by
  obtain ⟨f, p, h⟩ := h
  obtain ⟨f', p', h'⟩ := h'
  exact ⟨f', p', by rw [h', h]⟩

end LossCore

theorem fiLostCheck_lossCore {s : State} (h : SlotsIdle s) : LossCore s (fiLostCheck s) := by
  have hlogs := fiLostCheck_logsOnly h.holdsNone
  obtain ⟨f, w, hslots⟩ := fiLostCheck_slotsOnly s
  exact ⟨_, _, hlogs.restartCore (stage_of_restartCore hslots)⟩

theorem restartCore_withPlt (s : State) (p : Plt) : restartCore { s with plt := p } = { restartCore s with plt := p } := rfl

theorem restartCore_loseTables (s : State) : restartCore (loseTables s) = restartCore s := by
  unfold loseTables
  split
  · rfl
  · refine restartCore_foldl (fun u t => ?_) _ s
    dsimp only
    split <;> rfl

/-- What the groups of a lost island do to the plate's standing. -/
theorem islandGroups_core (n : Nat) (s : State) : ∃ p, restartCore (islandGroups n s) = { restartCore s with plt := p } := by
  have hpause (gs : List (List Nat)) : ∃ p, restartCore (pauseGroups n gs s) = { restartCore s with plt := p } := by
    have hfold : restartCore (gs.foldl (fun s g => (groupChans s g).foldl pauseChan s) s) = restartCore s :=
      restartCore_foldl (fun u g => restartCore_pauseChans _ u) gs s
    unfold pauseGroups
    dsimp only
    split
    · exact ⟨_, by rw [restartCore_withPlt, hfold]⟩
    · exact ⟨_, hfold⟩
  unfold islandGroups
  dsimp only
  split
  · exact ⟨_, rfl⟩
  · split
    · exact hpause _
    · exact ⟨_, by rw [restartCore_withPlt, restartCore_foldl restartCore_freezeGroup]⟩

theorem restartCore_pltErr (e : LoadErr) (s : State) : restartCore (pltErr e s) = restartCore s := by
  unfold pltErr
  simp only [restartCore_alert, restartCore_rset]

theorem restartCore_releaseHeld (s : State) : restartCore (releaseHeld s) = restartCore s := rfl

theorem standbyEmpty_core (s : State) : ∃ p, restartCore (standbyEmpty s) = { restartCore s with plt := p } :=
  ⟨_, by rw [standbyEmpty, restartCore_pwrTrack, restartCore_withPlt]⟩

theorem restartCore_auditPlate (code : W16) (sid : W32) (ev island : Nat) (d : Digest) (s : State) :
    restartCore (auditPlate code sid ev island d s) = restartCore s := restartCore_audit ..

/-- A bank that is discarded changes the plate's standing. -/
theorem discardByLoss_core (s : State) : ∃ p, restartCore (discardByLoss s) = { restartCore s with plt := p } := by
  have hheld (b : Prop) [Decidable b] : restartCore (if b then releaseHeld s else s) = restartCore s := by
    split
    · exact restartCore_releaseHeld s
    · rfl
  have hempty (u : State) (hu : restartCore u = restartCore s) : ∃ p, restartCore (standbyEmpty u) = { restartCore s with plt := p } := by
    rw [← hu]
    exact standbyEmpty_core u
  unfold discardByLoss
  split
  · exact ⟨_, rfl⟩
  · dsimp only
    refine hempty _ ?_
    split <;> simp only [restartCore_auditFlush, restartCore_auditPlate, restartCore_pltErr, hheld]

theorem restartCore_intRecord (h : Nat) (r : IntRec) (s : State) : restartCore (intRecord h r s) = restartCore s := by
  have hbump (off : Nat) (u : State) : restartCore (satBump off u) = restartCore u := by
    unfold satBump
    dsimp only
    split <;> rfl
  unfold intRecord
  split
  · rfl
  · dsimp only
    split <;> split <;> simp only [restartCore_alert, restartCore_rset, hbump] <;> rfl

/-- A state with island `n` marked lost. -/
def islandMarked (n : Nat) (s : State) : State := { s with rcv := { s.rcv with islands := s.rcv.islands ||| (1#16 <<< n) } }

/-- With the slots idle, the recovery that a lost island starts leaves them so. -/
theorem recoveryLogged_idle {s : State} (h : SlotsIdle s) (cls target : Nat) (code : W16) (sid : W32) :
    ∃ since, restartCore (auditRecovery cls target code sid (beginRecovery s)) =
      restartCore { s with rcv := recoveringSince s.rcv since } := by
  obtain ⟨since, hbegin⟩ := beginRecovery_logsOnly (fun k hk => (h k hk).1)
  obtain ⟨_, f, w, hslots⟩ := beginRecovery_slotsOnly s
  exact ⟨since, (restartCore_auditRecovery ..).trans (hbegin.restartCore (stage_of_restartCore hslots))⟩

/-- What a loss keeps: what is on its way, the sessions, idle slots, the islands that are lost already and a double fault. -/
structure LossKept (s t : State) : Prop where
  wire : t.wire = s.wire
  sessions : t.sessions = s.sessions
  idle : SlotsIdle s → SlotsIdle t
  islands : ∀ j, islLost s j = true → islLost t j = true
  double : s.rcv.double = true → t.rcv.double = true

theorem LossKept.refl (s : State) : LossKept s s := ⟨rfl, rfl, id, fun _ => id, id⟩

theorem LossKept.trans {s t u : State} (h : LossKept s t) (h' : LossKept t u) : LossKept s u :=
  ⟨h'.wire.trans h.wire, h'.sessions.trans h.sessions, h'.idle ∘ h.idle, fun j => h'.islands j ∘ h.islands j, h'.double ∘ h.double⟩

/-- What is left of the state once island `n`'s die is off and its reefs, tables and WXAs are gone. -/
def islandCleared (n : Nat) (s : State) : State :=
  let s3 := domainsOff [4 * n, 4 * n + 1, 4 * n + 2, 4 * n + 3] { s with chans := s.chans.map (fun p => (p.1, copyLost n p.2)) }
  let s4 := clearReefs ((List.range 8).map (8 * n + ·)) (loseTables s3)
  { s4 with asu := s4.asu.filter (fun p => p.1 / 524288 ≠ n), isl := mdel s4.isl n }

theorem islandLost_eq {n : Nat} {s : State} (h : islLost s n = false) :
    islandLost n s = pwrTrack (islandGroups n (discardByLoss (fiLostCheck (islandCleared n
      (auditRecovery (faultClass 2) n cOk 0 (beginRecovery (islandMarked n s))))))) := by
  simp only [islandLost, islandCleared, islandMarked, h, Bool.false_eq_true, if_false]

theorem restartCore_forget (s : State) (a : SMap AsuEntry) (i : SMap Isl) :
    restartCore { s with asu := a, isl := i } = { restartCore s with isl := i } := rfl

theorem restartCore_chansOff (ds : List Nat) (c : SMap Chan) (s : State) :
    restartCore (domainsOff ds { s with chans := c }) = restartCore s := rfl

theorem restartCore_islandCleared (n : Nat) (s : State) :
    ∃ i, restartCore (islandCleared n s) = { restartCore s with isl := i } := by
  exact ⟨_, by rw [islandCleared, restartCore_forget, restartCore_clearReefs, restartCore_loseTables, restartCore_chansOff]⟩

theorem getLsbD_mark (w : W16) (n j : Nat) (hj : j < 16) : (w ||| (1#16 <<< n)).getLsbD j = (w.getLsbD j || decide (j = n)) := by
  simpa [hj] using getLsbD_foldl_mark [n] w j

/-- What follows for the standby bank and the groups once the slots have been checked. -/
theorem islandFollows_core (n : Nat) (u : State) :
    (∃ p, restartCore (pwrTrack (islandGroups n (discardByLoss u))) = { restartCore u with plt := p }) ∧
      (pwrTrack (islandGroups n (discardByLoss u))).fi = u.fi := by
  obtain ⟨p, hdiscard⟩ := discardByLoss_core u
  obtain ⟨p', hgroups⟩ := islandGroups_core n (discardByLoss u)
  have hcore : restartCore (pwrTrack (islandGroups n (discardByLoss u))) = { restartCore u with plt := p' } := by
    rw [restartCore_pwrTrack, hgroups, hdiscard]
  exact ⟨⟨p', hcore⟩, fi_of_restartCore hcore⟩

/-- An island's loss: it is marked, a recovery runs; of a restart's core its slots, the plate's standing and its own island's state change besides. -/
theorem restartCore_islandLost {n : Nat} {s : State} (hidle : SlotsIdle s) (h : islLost s n = false) :
    (∃ since f p i, restartCore (islandLost n s) = { restartCore s with
      fi := f, plt := p, isl := i, rcv := { recoveringSince (islandMarked n s).rcv since with frozen := [] } }) ∧ SlotsIdle (islandLost n s) := by
  obtain ⟨since, hlogged⟩ := recoveryLogged_idle (s := islandMarked n s) hidle (faultClass 2) n cOk 0
  obtain ⟨i, hcleared⟩ := restartCore_islandCleared n (auditRecovery (faultClass 2) n cOk 0 (beginRecovery (islandMarked n s)))
  rw [hlogged] at hcleared
  have hidle1 := hidle.of_fi (fi_of_restartCore hcleared)
  obtain ⟨f, q, hcheck⟩ := fiLostCheck_lossCore hidle1
  rw [islandLost_eq h]
  obtain ⟨⟨p, hfollows⟩, hfi⟩ := islandFollows_core n
    (fiLostCheck (islandCleared n (auditRecovery (faultClass 2) n cOk 0 (beginRecovery (islandMarked n s)))))
  refine ⟨⟨since, f, p, i, by rw [hfollows, hcheck, hcleared]; rfl⟩, (fiLostCheck_idle hidle1).of_fi hfi⟩

/-- The integrity record of a stack that is lost (19 R463). -/
def stackLossRecord (n : Nat) : IntRec :=
  { kind := 5, place := 0, unit := n, symbols := 255, pos0 := 255, pos1 := 255, source := 0, addr := BitVec.ofNat 64 (hbmKey n 0), handle := 0 }

/-- A stack's loss marks its island and keeps the rest. -/
theorem stackLost_kept {n : Nat} (hn : n < 16) {s : State} (hidle : SlotsIdle s) :
    LossKept s (stackLost n s) ∧ islLost (stackLost n s) n = true := by
  unfold stackLost
  split
  · next h => exact ⟨.refl s, h⟩
  · next h =>
    have hrec := restartCore_intRecord n (stackLossRecord n) s
    change LossKept s (islandLost n (intRecord n (stackLossRecord n) s)) ∧ islLost (islandLost n (intRecord n (stackLossRecord n) s)) n = true
    generalize intRecord n (stackLossRecord n) s = u at hrec ⊢
    have hislands : u.rcv.islands = s.rcv.islands := islands_of_restartCore hrec
    have hu : islLost u n = false := by
      rw [islLost, hislands]
      exact eq_false_of_ne_true h
    obtain ⟨⟨since, f, p, i, hlost⟩, hidle'⟩ := restartCore_islandLost (hidle.of_fi (fi_of_restartCore hrec)) hu
    have hmarked : (islandLost n u).rcv.islands = u.rcv.islands ||| (1#16 <<< n) := islands_of_restartCore hlost
    have hdouble : (islandLost n u).rcv.double = (u.rcv.double || u.rcv.recovering) := double_of_restartCore hlost
    refine ⟨⟨?_, ?_, fun _ => hidle', fun j hj => ?_, fun hd => ?_⟩, ?_⟩
    · exact (wire_of_restartCore hlost).trans (wire_of_restartCore hrec)
    · exact (sessions_of_restartCore hlost).trans (sessions_of_restartCore hrec)
    · have hj16 : j < 16 := BitVec.lt_of_getLsbD hj
      rw [islLost, hmarked, hislands, getLsbD_mark _ _ _ hj16]
      exact Bool.or_eq_true_iff.2 (.inl hj)
    · have hud : u.rcv.double = s.rcv.double := double_of_restartCore hrec
      rw [hdouble, hud, hd]
      rfl
    · rw [islLost, hmarked, getLsbD_mark _ _ _ hn]
      simp

/-- A clock's four stacks are lost one after the other. -/
theorem stacksLost_kept {k : Nat} (hk : k < 4) {s : State} (hidle : SlotsIdle s) (js : List Nat) (hjs : ∀ j ∈ js, j < 4) :
    LossKept s (js.foldl (fun s j => stackLost (4 * k + j) s) s) ∧
      ∀ j ∈ js, islLost (js.foldl (fun s j => stackLost (4 * k + j) s) s) (4 * k + j) = true := by
  induction js generalizing s with
  | nil => exact ⟨.refl s, by simp⟩
  | cons j js ih =>
    have hj := hjs j (by simp)
    obtain ⟨hkept, hlost⟩ := stackLost_kept (n := 4 * k + j) (by omega) hidle
    obtain ⟨hkept', hlost'⟩ := ih (hkept.idle hidle) (fun i hi => hjs i (by simp [hi]))
    refine ⟨hkept.trans hkept', fun i hi => ?_⟩
    rcases List.mem_cons.1 hi with rfl | hi
    · exact hkept'.islands _ hlost
    · exact hlost' i hi

/-- An HBM clock that fails is a double fault and takes its stacks. -/
theorem hbmClockLost_kept {k : Nat} (hk : k < 4) {s : State} (hidle : SlotsIdle s) :
    (hbmClockLost k s).wire = s.wire ∧ (hbmClockLost k s).sessions = s.sessions ∧ (hbmClockLost k s).rcv.double = true ∧
      ∀ j < 4, islLost (hbmClockLost k s) (4 * k + j) = true := by
  have halert := restartCore_alert 3 { s with rcv := { s.rcv with double := true } }
  obtain ⟨hkept, hlost⟩ := stacksLost_kept hk (s := alert 3 { s with rcv := { s.rcv with double := true } })
    (hidle.of_fi (fi_of_restartCore halert)) [0, 1, 2, 3] (by decide)
  refine ⟨hkept.wire.trans (wire_of_restartCore halert), hkept.sessions.trans (sessions_of_restartCore halert),
    hkept.double (double_of_restartCore halert), fun j hj => hlost j ?_⟩
  have : j = 0 ∨ j = 1 ∨ j = 2 ∨ j = 3 := by omega
  simpa using this

/-! ## Ethernet clocks (25 R561) -/

/-- An Ethernet clock that fails: it is marked, and the links that were up and were its own go down. -/
theorem ethClockLost_works {k : Nat} {s : State} (hk : k ≤ 4) (h : nmem s.pwr.ethLost k = false) :
    ∃ u, LogsOnly { s with pwr := { s.pwr with ethLost := nadd s.pwr.ethLost k } } u ∧
      SuspendsOnly { u with linksUp := ((if k = 4 then [0] else harbourLinks k).filter (nmem s.linksUp)).foldl ndel u.linksUp,
                            paused := ((if k = 4 then [0] else harbourLinks k).filter (nmem s.linksUp)).foldl ndel u.paused } (ethClockLost k s) := by
  unfold ethClockLost
  rw [h, decide_eq_false (Nat.not_lt.2 hk)]
  refine ⟨_, ?_, linksDown_suspendsOnly _ _⟩
  exact List.foldlRecOn (motive := LogsOnly _) _ _ (.refl _) (fun t ht l _ => ht.trans (auditRecovery_logsOnly ..))

/-- Settles O43: a rebuilt copy is written, a recovery with nothing left ends, and each clock takes what stands on it. -/
theorem recoveriesEndAndClocksFail : Obligations.RecoveriesEndAndClocksFail := by
  refine ⟨fun s hwire => ⟨fun chan k hk => ?rebuilt, fun hrec hfall hfroz hstage hwarm hchans hregs => ?ends, fun stack => rfl⟩,
    fun s hq => ⟨fun k => ?hbm, fun k hk h => ?eth, fun k => rfl⟩⟩
  case rebuilt => exact congrArg Host.Outcome.next (mirrorRebuilt_at hk)
  case ends =>
    have hend := recoveryComplete_ends hrec hfall hfroz hstage hwarm hchans
    have hframe := endRecovery_recoveryEndOnly s
    have hsettle : settle (endRecovery s) = endRecovery s := settle_nil (by rw [hframe]; exact hwire)
    obtain ⟨hlast, hdone⟩ := endRecovery_told hregs
    refine ⟨endRecovery s, congrArg Host.Outcome.next ((congrArg settle hend).trans hsettle), endRecovery_rcv s, hlast, ?_, hframe⟩
    rw [hdone, BitVec.getLsbD_or]
    exact Bool.or_eq_true_iff.2 (.inr (by decide))
  case hbm =>
    obtain ⟨hw, hsessions, hdouble, hlost⟩ := hbmClockLost_kept k.isLt hq.2
    have hkeeps := hbmClockLost_keeps (C := False) (M := False) (F := False) (P := False) (a1 := k.toNat) (.refl s)
    exact ⟨hbmClockLost k.toNat s, congrArg Host.Outcome.next (settle_nil (hw.trans hq.1)), hlost, hdouble,
      (hkeeps.memory.resolve_left not_false).1, hsessions⟩
  case eth =>
    obtain ⟨u, hlogs, hdown⟩ := ethClockLost_works hk h
    rw [SuspendsOnly] at hdown
    rw [LogsOnly] at hlogs
    refine ⟨ethClockLost k.toNat s, congrArg Host.Outcome.next (settle_nil ?wire), ?lost, ?links, ?rcv, ?mem, ?chans⟩ <;> rw [hdown, hlogs]
    case wire => exact hq.1
    case lost => exact nmem_nadd _ _

end Sys2Proof.Machine

namespace Sys2Proof.Machine

/-! ## Cold restarts (25 R557, R558, R565, R566; 17 R433) -/

/-- Settles O45: each clause is an entry of the state after a cold restart. That unwritten memory reads 0 is the model's choice
(notes/assumptions/4.md), and so is the chain value kept beside the flash image (notes/assumptions/71.md); the chain itself is R514. -/
theorem coldRestartsKeepFlashAndFuses : Obligations.ColdRestartsKeepFlashAndFuses := by
  intro s
  refine ⟨fun us => ⟨fun hlong => ?long, fun hshort => ?short⟩, ?cold, fun hpor hsup => ?release, fun hsup => ?loss, fun hpor hsup => ?up⟩
  case long => exact congrArg Host.Outcome.next (if_pos hlong)
  case short =>
    have hpulse : porNAssert us s =
        if (Config.free64 s.free).getLsbD 0 then coldState { s with free := s.free + 1 } else { s with free := s.free + 1 } :=
      if_neg (Nat.not_le.2 hshort)
    by_cases hseen : (Config.free64 s.free).getLsbD 0 = true
    · exact .inr (congrArg Host.Outcome.next (hpulse.trans (if_pos hseen)))
    · exact .inl (congrArg Host.Outcome.next (hpulse.trans (if_neg hseen)))
  case cold => exact ⟨rfl, rfl, rfl, rfl, rfl, rfl, rfl, rfl, rfl, rfl, rfl, rfl, rfl, rfl, rfl, rfl, rfl⟩
  case release => exact congrArg Host.Outcome.next (if_neg (by simp [hpor, hsup]))
  case loss => exact ⟨_, congrArg Host.Outcome.next (if_neg (by simp [hsup])), rfl, rfl, rfl, rfl, rfl, rfl, rfl⟩
  case up => exact ⟨_, congrArg Host.Outcome.next (if_neg (by simp [hpor, hsup])), rfl, rfl, rfl⟩

/-! ## Boot stages 5 to 8 (23 R529-R531) -/

/-- A cold boot once the islands that fail are marked and off. -/
def islandsTried (failed : W16) (s : State) : State :=
  domainsOff (((List.range 16).filter (bit failed.toNat)).flatMap (fun i => [4 * i, 4 * i + 1, 4 * i + 2, 4 * i + 3]))
    { s with rcv := { s.rcv with islands := s.rcv.islands ||| failed } }

section
variable {s : State} (hw : bootWorks s 5 = true) (hs : s.rcv.served = false) {failed : W16} {sigA sigB : Bool}
include hw hs

/-- With no valid configuration the bootstrap settings are loaded. -/
theorem islandBringup_bootstrap (h : cfgNewest (islandsTried failed s) sigA sigB = none) :
    islandBringup failed.toNat sigA sigB s = toStage 6 (bootstrap (islandsTried failed s)) := by
  rw [islandBringup, if_neg (by simp [hw]), if_neg (by simp [hs]), foldl_lose_islands, foldl_mark_failed]
  rw [islandsTried] at h ⊢
  simp only [h]

/-- The newest valid configuration is loaded. -/
theorem islandBringup_configured {c : Bool} (h : cfgNewest (islandsTried failed s) sigA sigB = some c) :
    islandBringup failed.toNat sigA sigB s = toStage 6 (cfgLoad (cfgRead (islandsTried failed s) c)
      { islandsTried failed s with boot := { (islandsTried failed s).boot with
          m3 := sha3 ((cfgRead (islandsTried failed s) c).take (cfgLen (cfgRead (islandsTried failed s) c) - 4096)),
          bootSlot := u8At (cfgRead (islandsTried failed s) c) 0x12 } }) := by
  rw [islandBringup, if_neg (by simp [hw]), if_neg (by simp [hs]), foldl_lose_islands, foldl_mark_failed]
  rw [islandsTried] at h ⊢
  simp only [h]

end

theorem islandBringup_warm {s : State} (hw : bootWorks s 5 = true) (hs : s.rcv.served = true) (sigA sigB : Bool) :
    islandBringup 0 sigA sigB s = toStage 6 s := by
  rw [islandBringup, if_neg (by simp [hw]), if_pos hs, filter_bit_zero, List.foldl_nil]

/-- Whether a link that the boot finds comes up (15 R364). -/
def linkComesUp (s : State) (l : Nat) : Bool :=
  linkMode s l && !portLost s l && !nmem s.pwr.ethLost (if l = 0 then 4 else (l - 1) / 4)

theorem execLinkUp_boot {s : State} (hb : 6 ≤ s.boot.stage) {l : Nat} (hl : l < 17) :
    stateOf (execLinkUp (BitVec.ofNat 5 l) s) s = if linkComesUp s l then { s with linksUp := nadd s.linksUp l } else s := by
  have hn : (BitVec.ofNat 5 l).toNat = l := by rw [BitVec.toNat_ofNat]; omega
  simp only [execLinkUp, hn, stateOf, linkComesUp, hl, hb, true_and, and_true, Bool.and_eq_true, and_assoc]

/-- Links that come up one after the other. -/
theorem foldl_execLinkUp {ls : List Nat} (hls : ∀ l ∈ ls, l < 17) {s : State} (hb : 6 ≤ s.boot.stage) :
    ls.foldl (fun s l => stateOf (execLinkUp (BitVec.ofNat 5 l) s) s) s =
      { s with linksUp := (ls.filter (linkComesUp s)).foldl nadd s.linksUp } := by
  induction ls generalizing s with
  | nil => rfl
  | cons l ls ih =>
    have hls' : ∀ k ∈ ls, k < 17 := fun k hk => hls k (by simp [hk])
    rw [List.foldl_cons, execLinkUp_boot hb (hls l (by simp))]
    cases h : linkComesUp s l with
    | true =>
      rw [if_pos rfl, ih hls' (s := { s with linksUp := nadd s.linksUp l }) hb, List.filter_cons_of_pos h]
      rfl
    | false =>
      rw [if_neg Bool.false_ne_true, ih hls' hb, List.filter_cons_of_neg (by simp [h])]

/-! ### Service starts (23 R531, 22 R519) -/

/-- The log goes on: of what it may write, the boot's record and where the boot's records begin stand, and its count does not fall. -/
structure LogGoesOn (s t : State) : Prop where
  logs : LogsOnly s t
  boot : t.boot = s.boot
  bootIndex : t.audit.bootIndex = s.audit.bootIndex
  count : s.audit.count ≤ t.audit.count

namespace LogGoesOn
variable {s t u : State}

theorem refl (s : State) : LogGoesOn s s := ⟨.refl s, rfl, rfl, Nat.le_refl _⟩

theorem trans (h : LogGoesOn s t) (h' : LogGoesOn t u) : LogGoesOn s u :=
  ⟨h.logs.trans h'.logs, h'.boot.trans h.boot, h'.bootIndex.trans h.bootIndex, h.count.trans h'.count⟩

end LogGoesOn

theorem auditCheckpoint_goesOn (s : State) : LogGoesOn s (auditCheckpoint s) := ⟨rfl, rfl, rfl, Nat.le_succ _⟩

theorem auditPeriodic_goesOn (s : State) : LogGoesOn s (auditPeriodic s) := by
  unfold auditPeriodic
  split
  · exact auditCheckpoint_goesOn s
  · exact .refl s

theorem auditBusy_goesOn (n m : Nat) (s : State) :
    LogGoesOn s { s with audit := { s.audit with busy := true, flushing := n, flushingCp := m } } := ⟨rfl, rfl, rfl, Nat.le_refl _⟩

theorem auditFlush_goesOn (s : State) : LogGoesOn s (auditFlush s) := by
  unfold auditFlush
  split
  · exact .refl s
  · split
    · exact ⟨rfl, rfl, rfl, Nat.le_refl _⟩
    · exact (auditCheckpoint_goesOn s).trans ((auditBusy_goesOn _ _ _).trans (auditPeriodic_goesOn _))

/-- A record of service goes to the log, not to the boot's own. -/
theorem audit_goesOn {s : State} (hcape : s.rcv.cape = false) (hserved : s.rcv.served = true) (kind : Byte) (code : W16) (sid : W32)
    (source : Byte) (detail : List Byte) :
    LogGoesOn s (audit kind code sid source detail s) ∧ s.audit.count < (audit kind code sid source detail s).audit.count := by
  have happend : LogGoesOn s (auditAppend kind code (roleOf s sid) source sid (subjectOf s sid) detail s) :=
    ⟨rfl, rfl, rfl, Nat.le_succ _⟩
  have hperiodic := auditPeriodic_goesOn (auditAppend kind code (roleOf s sid) source sid (subjectOf s sid) detail s)
  simp only [audit, hcape, hserved, Bool.not_true, Bool.false_eq_true, if_false]
  split
  · have hflush := auditFlush_goesOn (auditPeriodic (auditAppend kind code (roleOf s sid) source sid (subjectOf s sid) detail s))
    exact ⟨(happend.trans hperiodic).trans hflush, Nat.lt_of_lt_of_le (Nat.lt_succ_self _) (hperiodic.count.trans hflush.count)⟩
  · exact ⟨happend.trans hperiodic, Nat.lt_of_lt_of_le (Nat.lt_succ_self _) hperiodic.count⟩

/-- The state from which the boot's records are written: none is held any more. -/
def heldTaken (s : State) : State :=
  { s with boot := { s.boot with heldRecs := [] }, audit := { s.audit with bootIndex := s.audit.count } }

/-- The record of the start and those that the boot held, one after the other. -/
def bootTold (s : State) : State :=
  s.boot.heldRecs.foldl (fun s r => audit r.1 r.2.1 0 1 r.2.2 s)
    (audit 0x01 cOk 0 1 (leBytes 8 s.audit.lastIndex ++ (digestBytes s.audit.lastChain).take 24) (heldTaken s))

theorem bootRecords_eq (s : State) :
    bootRecords s = if s.boot.heldRecs.any (fun r => r.1 = 0x0C) then auditFlush (bootTold s) else bootTold s := rfl

section
variable {s : State} (hcape : s.rcv.cape = false) (hserved : s.rcv.served = true)
include hcape hserved

/-- Records of service go on, one after the other. -/
theorem foldl_audit_goesOn (l : List (Byte × W16 × List Byte)) :
    LogGoesOn s (l.foldl (fun s r => audit r.1 r.2.1 0 1 r.2.2 s) s) := by
  refine List.foldlRecOn (motive := LogGoesOn s) _ _ (.refl s) (fun t ht r _ => ht.trans (audit_goesOn ?_ ?_ ..).1)
  · rw [ht.logs.rcv, hcape]
  · rw [ht.logs.rcv, hserved]

theorem bootTold_goesOn : LogGoesOn (heldTaken s) (bootTold s) ∧ s.audit.count < (bootTold s).audit.count := by
  obtain ⟨hfirst, hcount⟩ := audit_goesOn (s := heldTaken s) hcape hserved 0x01 cOk 0 1
    (leBytes 8 s.audit.lastIndex ++ (digestBytes s.audit.lastChain).take 24)
  rw [bootTold]
  generalize audit 0x01 cOk 0 1 _ (heldTaken s) = u at hfirst hcount ⊢
  have hall := foldl_audit_goesOn (s := u) (by rw [hfirst.logs.rcv]; exact hcape) (by rw [hfirst.logs.rcv]; exact hserved) s.boot.heldRecs
  exact ⟨hfirst.trans hall, Nat.lt_of_lt_of_le hcount hall.count⟩

/-- The boot's records go to the log. -/
theorem bootRecords_goesOn : LogGoesOn (heldTaken s) (bootRecords s) ∧ s.audit.count < (bootRecords s).audit.count := by
  obtain ⟨htold, hcount⟩ := bootTold_goesOn hcape hserved
  rw [bootRecords_eq]
  split
  · have hflush := auditFlush_goesOn (bootTold s)
    exact ⟨htold.trans hflush, Nat.lt_of_lt_of_le hcount hflush.count⟩
  · exact ⟨htold, hcount⟩

end

theorem areaWrite_eq (base n at_ : Nat) (new : List Byte) (s : State) :
    areaWrite base n at_ new s = { s with flash := (areaWrite base n at_ new s).flash } := by
  unfold areaWrite
  split <;> rfl

theorem bootCtlSet_eq (c : BootCtl) (s : State) : bootCtlSet c s = { s with flash := (bootCtlSet c s).flash } := areaWrite_eq ..

/-- `t` differs from `s` at most in flash and the fuses. -/
def FlashAndFusesOnly (s t : State) : Prop := t = { s with flash := t.flash, fuses := t.fuses }

theorem FlashAndFusesOnly.of_flash {s t : State} (h : t = { s with flash := t.flash }) (f : Fuses) :
    FlashAndFusesOnly s { t with fuses := f } := by
  rw [FlashAndFusesOnly]
  rw [h]

/-- The confirmation of a trial writes flash and the SVN counter. -/
theorem trialConfirm_only (s : State) : FlashAndFusesOnly s (trialConfirm s) := by
  have hset := bootCtlSet_eq { bootCtl s with trial := false } s
  unfold trialConfirm
  split
  · rfl
  · dsimp only
    generalize bootCtlSet { bootCtl s with trial := false } s = u at hset ⊢
    split
    · exact .of_flash hset _
    · exact .of_flash hset u.fuses

/-- The state as service starts. -/
def serviceEntered (s : State) : State := toStage 7 (rset 0x000A0000 0 { s with rcv := { s.rcv with served := true } })

/-- The first entry to stage 7 ends with the boot's records and a trial's confirmation. -/
theorem readyNoPlate_first {s : State} (hw : bootWorks s 6 = true) (hs : s.rcv.served = false) (hwarm : s.rcv.warmPending = false)
    (hcape : s.rcv.cape = false) :
    readyNoPlate s = trialConfirm (bootRecords (serviceEntered s)) ∧
      (trialConfirm (bootRecords (serviceEntered s))).rcv = { s.rcv with served := true } := by
  obtain ⟨hrecords, -⟩ := bootRecords_goesOn (s := serviceEntered s) hcape rfl
  have hrcv : (trialConfirm (bootRecords (serviceEntered s))).rcv = { s.rcv with served := true } := by
    have hconfirm := trialConfirm_only (bootRecords (serviceEntered s))
    rw [FlashAndFusesOnly] at hconfirm
    rw [hconfirm]
    exact hrecords.logs.rcv
  have hwarm' : (trialConfirm (bootRecords (serviceEntered s))).rcv.warmPending = false := by rw [hrcv]; exact hwarm
  refine ⟨?_, hrcv⟩
  rw [readyNoPlate, if_neg (by simp [hw]), if_neg (by simp [hs])]
  exact if_neg (ne_true_of_eq_false hwarm')

theorem readyNoPlate_warm {s : State} (hw : bootWorks s 6 = true) (hs : s.rcv.served = true) :
    readyNoPlate s = replayChans (s.rcv.frozen.map (·.1)) (toStage (if s.plt.active = .empty then 7 else 9) s) := by
  rw [readyNoPlate, if_neg (by simp [hw]), if_pos hs]

theorem bootWorks_cape {s : State} {n : Nat} (h : bootWorks s n = true) : s.rcv.cape = false := by
  simp only [bootWorks, Bool.and_eq_true, Bool.not_eq_true'] at h
  obtain ⟨⟨-, hcape⟩, -⟩ := h
  exact hcape

/-- The state from which the boot plate begins to load. -/
def plateTaken (s : State) : State := { s with boot := { s.boot with bootSlot := 255 }, plt := { s.plt with bootLoad := true } }

@[simp] theorem storePut_bootLoad (p : Option Plate) (s : State) : (storePut p s).plt.bootLoad = s.plt.bootLoad := by
  simp only [storePut, apply_ite Plt.bootLoad, ite_self]

/-- A load that starts is the bank's. -/
theorem loadStart_plt (cmd : Nat) (sid : W32) (b : Option (List Byte)) (s : State) :
    (loadStart cmd sid b s).plt.standby = .loading ∧ (loadStart cmd sid b s).plt.bootLoad = s.plt.bootLoad ∧
      (loadStart cmd sid b s).plt.load = some { cmd := cmd, sid := sid, bytes := b } := by
  unfold loadStart
  simp only [pwrTrack_plt, storePut_standby, storePut_bootLoad, storePut_load, and_self]

theorem loadStart_eq (cmd : Nat) (sid : W32) (b : Option (List Byte)) (s : State) :
    loadStart cmd sid b s = { s with plt := (loadStart cmd sid b s).plt, pwr := (loadStart cmd sid b s).pwr } := rfl

/-- Settles O47: each stage's command has a lemma for each of its outcomes. That the boot's audit records are held, and written when service
starts, is the model's choice (notes/assumptions/93.md). -/
theorem bootReachesService : Obligations.BootReachesService := by
  intro s hwire
  refine ⟨fun hw failed sigA sigB => ⟨fun hs => ⟨fun hnone => ?bootstrap, fun c hc => ?configured⟩, fun hs => ?warm⟩, fun hw up => ?links,
    fun hw => ⟨fun hs hwarm => ?first, fun hs => ?again⟩, fun hw hslot hstandby hactive => ?plate⟩
  case bootstrap => exact congrArg (fun t => Host.Outcome.next (settle t)) (islandBringup_bootstrap hw hs hnone)
  case configured => exact congrArg (fun t => Host.Outcome.next (settle t)) (islandBringup_configured hw hs hc)
  case warm => exact congrArg Host.Outcome.next ((congrArg settle (islandBringup_warm hw hs sigA sigB)).trans (settle_nil hwire))
  case links =>
    have hstage : 6 ≤ s.boot.stage := (bootWorks_stage hw).ge
    have hup := foldl_execLinkUp (ls := (List.range 17).filter (bit up.toNat))
      (fun l hl => List.mem_range.1 (List.mem_filter.1 hl).1) hstage
    rw [List.filter_filter] at hup
    have hkept : (fun l => linkComesUp s l && bit up.toNat l) = (fun l => bit up.toNat l && linkMode s l && !portLost s l &&
        !nmem s.pwr.ethLost (if l = 0 then 4 else (l - 1) / 4)) := by
      funext l
      rw [linkComesUp, Bool.and_comm, ← Bool.and_assoc, ← Bool.and_assoc]
    rw [hkept] at hup
    exact congrArg Host.Outcome.next ((if_neg (by simp [hw])).trans hup)
  case first =>
    obtain ⟨hready, hrcv⟩ := readyNoPlate_first hw hs hwarm (bootWorks_cape hw)
    have hcape := bootWorks_cape hw
    obtain ⟨⟨hlogs, hboot, hindex, -⟩, hcount⟩ := bootRecords_goesOn (s := serviceEntered s) hcape rfl
    have hconfirm := trialConfirm_only (bootRecords (serviceEntered s))
    rw [FlashAndFusesOnly] at hconfirm
    rw [LogsOnly] at hlogs
    generalize bootRecords (serviceEntered s) = u at *
    have hsettle : settle (readyNoPlate s) = trialConfirm u := by
      rw [hready]
      refine settle_nil ?_
      rw [hconfirm, hlogs]
      exact hwire
    refine ⟨trialConfirm u, congrArg Host.Outcome.next hsettle, ?stage, hrcv, ?held, ?index, ?count, ?mem, ?chans, ?sessions⟩ <;> rw [hconfirm]
    case stage => exact congrArg Boot.stage hboot
    case held => exact congrArg Boot.heldRecs hboot
    case index => exact hindex
    case count => exact hcount
    all_goals rw [hlogs]; rfl
  case again =>
    exact congrArg Host.Outcome.next ((congrArg settle (readyNoPlate_warm hw hs)).trans (settle_nil hwire))
  case plate =>
    have hload : bootPlateLoad s = toStage 8 (loadStart 8 0 (flashPlate s s.boot.bootSlot) (plateTaken s)) :=
      if_neg (by simp [hw, hslot, hstandby, hactive])
    obtain ⟨hbank, hmarked, hloads⟩ := loadStart_plt 8 0 (flashPlate s s.boot.bootSlot) (plateTaken s)
    have hframe := loadStart_eq 8 0 (flashPlate s s.boot.bootSlot) (plateTaken s)
    generalize loadStart 8 0 (flashPlate s s.boot.bootSlot) (plateTaken s) = u at *
    refine ⟨toStage 8 u, congrArg Host.Outcome.next hload, rfl, ?slot, hbank, hmarked, hloads, ?frame⟩ <;> rw [hframe]
    case slot => rfl
    case frame => rfl

end Sys2Proof.Machine

namespace Sys2Proof.Machine

/-! ## PWR_SWITCH (24 R538-R541) -/

/-- A word of requests by its number. -/
def pwrReqWord (n : Nat) : RegWord := { grd := if n = 2 then 0xFFFF else 0xFFFFFFFF, right := .installer }

theorem regAt_pwrReq {n : Nat} (h : n < 3) : regAt (0x00050000 + 4 * n) = some (pwrReqWord n) := by
  have : n = 0 ∨ n = 1 ∨ n = 2 := by omega
  rcases this with rfl | rfl | rfl <;> rfl

theorem guardDo_pwrReq {n : Nat} (h : n < 3) (v : W32) (sid : W32) (s : State) :
    guardDo (0x00050000 + 4 * n) (pwrReqWord n) v.toNat sid s =
      (cOk, pwrTrack (rset (0x00050000 + 4 * n) (if n = 2 then v &&& 0xFFFF#32 else v) s)) := by
  have hx : BitVec.ofNat 32 (v.toNat &&& (pwrReqWord n).grd) = if n = 2 then v &&& 0xFFFF#32 else v := by
    unfold pwrReqWord
    by_cases h2 : n = 2
    · simp only [h2, if_true]
      exact BitVec.eq_of_toNat_eq (by simp)
    · simp only [h2, if_false]
      exact BitVec.eq_of_toNat_eq (by
        have hmask : v.toNat &&& 0xFFFFFFFF = v.toNat % 2 ^ 32 := Nat.and_two_pow_sub_one_eq_mod v.toNat 32
        rw [hmask]
        simp [v.isLt])
  rw [← hx]
  have : n = 0 ∨ n = 1 ∨ n = 2 := by omega
  rcases this with rfl | rfl | rfl <;> rfl

/-- A word of requests that an installer sets: it is recorded, and domains begin to switch. -/
theorem pairRow_pwrReq {s : State} {sid : W32} {n : Nat} (h : OpenAs s sid .installer) (hn : n < 3) (v : W32) :
    pairRow (0x00050000 + 4 * n) v.toNat sid s = pairAfter sid (pwrTrack (rset (0x00050000 + 4 * n)
      (if n = 2 then v &&& 0xFFFF#32 else v) (pairBefore (0x00050000 + 4 * n) v.toNat sid s))) := by
  have hck : guardCheck { s with guards := mdel s.guards sid.toNat } (0x00050000 + 4 * n) v.toNat = cOk := by
    have : n = 0 ∨ n = 1 ∨ n = 2 := by omega
    rcases this with rfl | rfl | rfl <;> rfl
  exact pairRow_told h (regAt_pwrReq hn) rfl hck rfl (guardDo_pwrReq hn v sid _)

/-! ## DOMAIN_SWITCH_DONE (24 R541) -/

theorem xor_bit (w : BitVec 80) (d : Nat) (hd : d < 80) :
    (if !w.getLsbD d then w ||| (1#80 <<< d) else w &&& ~~~(1#80 <<< d)) = w ^^^ (1#80 <<< d) := by
  have hbit (i : Nat) : (1#80 <<< d).getLsbD i = (decide (i < 80) && decide (i = d)) :=
    (BitVec.getLsbD_twoPow ..).trans (by grind)
  refine BitVec.eq_of_getLsbD_eq fun i hi => ?_
  cases hw : w.getLsbD d with
  | false =>
    simp only [Bool.not_false, if_true, BitVec.getLsbD_or, BitVec.getLsbD_xor, hbit]
    by_cases hid : i = d
    · rw [hid, hw]; simp
    · simp [hid]
  | true =>
    simp only [Bool.not_true, Bool.false_eq_true, if_false, BitVec.getLsbD_and, BitVec.getLsbD_not, BitVec.getLsbD_xor, hbit]
    by_cases hid : i = d
    · rw [hid, hw]; simp [hd]
    · simp [hid, hi]

theorem mget_of_not_mem {α : Type} {d : α} {m : SMap α} {k : Nat} (h : ∀ p ∈ m, p.1 ≠ k) : mget d m k = d := by
  induction m with
  | nil => rfl
  | cons p m ih =>
    rw [mget, if_neg (h p (by simp))]
    exact ih (fun q hq => h q (by simp [hq]))

/-- What a domain that has switched leaves alone: but for a lagoon that wakes, memory too. -/
theorem domainEffect_frame (d : Nat) (on : Bool) (s : State) :
    (domainEffect d on s).pwr = s.pwr ∧ (domainEffect d on s).regs = s.regs ∧ (domainEffect d on s).chans = s.chans ∧
      (¬ (d < 64 ∧ d % 4 = 2) → (domainEffect d on s).mem = s.mem ∧ (domainEffect d on s).poison = s.poison) := by
  unfold domainEffect
  split
  · next hd =>
    split
    · exact ⟨rfl, rfl, rfl, fun _ => ⟨rfl, rfl⟩⟩
    · exact ⟨rfl, rfl, rfl, fun _ => ⟨rfl, rfl⟩⟩
    · next h2 => exact ⟨rfl, rfl, rfl, fun hn => absurd ⟨hd, h2⟩ hn⟩
    · exact ⟨rfl, rfl, rfl, fun _ => ⟨rfl, rfl⟩⟩
  · split
    · split <;> exact ⟨rfl, rfl, rfl, fun _ => ⟨rfl, rfl⟩⟩
    · split
      · have hdown := linksDown_suspendsOnly (harbourLinks (d - 72)) s
        rw [SuspendsOnly] at hdown
        rw [hdown]
        exact ⟨rfl, rfl, rfl, fun _ => ⟨rfl, rfl⟩⟩
      · exact ⟨rfl, rfl, rfl, fun _ => ⟨rfl, rfl⟩⟩

/-- A lagoon that wakes reads zero, with no poison. -/
theorem domainEffect_lagoon {d : Nat} (hd : d < 64) (h2 : d % 4 = 2) (s : State) {o : Nat} (ho : o < 0x10000000) :
    kget (domainEffect d true s) (lagKey (d / 4) o) = 0 ∧ nmem (domainEffect d true s).poison (lagKey (d / 4) o) = false := by
  have hwake : domainEffect d true s = { s with
      mem := s.mem.filter (fun p => !(decide (lagKey (d / 4) 0 ≤ p.1) && decide (p.1 < lagKey (d / 4) 0 + 0x10000000))),
      poison := s.poison.filter (fun p => !(decide (lagKey (d / 4) 0 ≤ p.1) && decide (p.1 < lagKey (d / 4) 0 + 0x10000000))) } := by
    simp only [domainEffect, hd, h2, if_true]
  have hgone {α : Type} (m : SMap α) : ∀ p ∈ m.filter (fun p => !(decide (lagKey (d / 4) 0 ≤ p.1) &&
      decide (p.1 < lagKey (d / 4) 0 + 0x10000000))), p.1 ≠ lagKey (d / 4) o := by
    intro p hp he
    have hout := (List.mem_filter.1 hp).2
    rw [he] at hout
    simp [lagKey] at hout
    omega
  rw [hwake]
  exact ⟨mget_of_not_mem (hgone _), mget_of_not_mem (hgone _)⟩

theorem domainSwitchDone_switches {d : Nat} {s : State} (h : nmem s.pwr.switching d = true) (hd : d < 80) :
    domainSwitchDone d s = pwrTrack (domainEffect d (!s.pwr.state.getLsbD d)
      { s with pwr := { s.pwr with state := s.pwr.state ^^^ (1#80 <<< d), switching := ndel s.pwr.switching d } }) := by
  simp only [domainSwitchDone, h, Bool.not_true, Bool.false_eq_true, if_false, xor_bit _ _ hd]

/-! ## Rails (24 R544, R551-R553) -/

/-- `t` differs from `s` in what power management holds alone. -/
def PwrOnly (s t : State) : Prop := t = { s with pwr := t.pwr }

namespace PwrOnly
variable {s t u : State}

theorem refl (s : State) : PwrOnly s s := rfl

theorem trans (h : PwrOnly s t) (h' : PwrOnly t u) : PwrOnly s u := by
  calc u = { t with pwr := u.pwr } := h'
    _ = { s with pwr := u.pwr } := by rw [h]

theorem rcv (h : PwrOnly s t) : t.rcv = s.rcv := by rw [PwrOnly] at h; rw [h]
theorem mem (h : PwrOnly s t) : t.mem = s.mem := by rw [PwrOnly] at h; rw [h]
theorem wire (h : PwrOnly s t) : t.wire = s.wire := by rw [PwrOnly] at h; rw [h]

end PwrOnly

/-- Of what power management holds the rails alone may change. -/
def RailsOnly (s t : State) : Prop := t = { s with pwr := { s.pwr with rails := t.pwr.rails } }

namespace RailsOnly
variable {s t u : State}

theorem refl (s : State) : RailsOnly s s := rfl

theorem trans (h : RailsOnly s t) (h' : RailsOnly t u) : RailsOnly s u := by
  calc u = { t with pwr := { t.pwr with rails := u.pwr.rails } } := h'
    _ = { s with pwr := { s.pwr with rails := u.pwr.rails } } := by rw [h]

theorem ite {p : Prop} [Decidable p] (h : RailsOnly s t) (h' : RailsOnly s u) : RailsOnly s (if p then t else u) := by
  split
  · exact h
  · exact h'

theorem pwrOnly (h : RailsOnly s t) : PwrOnly s t := by
  rw [RailsOnly] at h
  rw [PwrOnly]
  rw [h]

theorem temps (h : RailsOnly s t) : t.pwr.temps = s.pwr.temps := by rw [RailsOnly] at h; rw [h]
theorem tripped (h : RailsOnly s t) : t.pwr.tripped = s.pwr.tripped := by rw [RailsOnly] at h; rw [h]
theorem watts (h : RailsOnly s t) : t.pwr.watts = s.pwr.watts := by rw [RailsOnly] at h; rw [h]
theorem overSince (h : RailsOnly s t) : t.pwr.overSince = s.pwr.overSince := by rw [RailsOnly] at h; rw [h]

end RailsOnly

theorem railPut_railsOnly (k : Nat) (r : Rail) (s : State) : RailsOnly s (railPut k r s) := rfl

theorem railGet_railPut {r : Rail} (h : r.mv ≠ 750) (k : Nat) (s : State) : railGet (railPut k r s) k = r :=
  mget_mset_nd s.pwr.rails k (fun e => h (congrArg Rail.mv e))

theorem railGet_railPut_ne {k j : Nat} (h : j ≠ k) (r : Rail) (s : State) : railGet (railPut k r s) j = railGet s j :=
  mget_mset_ne _ s.pwr.rails k j r h

theorem foldl_railsOnly {f : State → Nat → State} (hf : ∀ s k, RailsOnly s (f s k)) (l : List Nat) (s : State) : RailsOnly s (l.foldl f s) :=
  List.foldlRecOn (motive := RailsOnly s) l f (.refl s) (fun t ht k _ => ht.trans (hf t k))

/-- A fold that sets each listed rail in turn leaves the others. -/
theorem railGet_foldl_of_not_mem {f : State → Nat → State} (hf : ∀ s k j, j ≠ k → railGet (f s k) j = railGet s j) {l : List Nat} {j : Nat}
    (hj : j ∉ l) (s : State) : railGet (l.foldl f s) j = railGet s j := by
  induction l generalizing s with
  | nil => rfl
  | cons k l ih =>
    rw [List.foldl_cons, ih (fun h => hj (by simp [h])), hf _ _ _ (fun h => hj (by simp [h]))]

/-- A fold over rails sets each listed one as its own step does. -/
theorem mv_foldl_of_mem {f : State → Nat → State} {g : Rail → Nat} (hf : ∀ s k j, j ≠ k → railGet (f s k) j = railGet s j)
    (hg : ∀ s k, (railGet (f s k) k).mv = g (railGet s k)) {l : List Nat} (hl : l.Nodup) {j : Nat} (hj : j ∈ l) (s : State) :
    (railGet (l.foldl f s) j).mv = g (railGet s j) := by
  induction l generalizing s with
  | nil => simp at hj
  | cons k l ih =>
    obtain ⟨hkl, hnodup⟩ := List.nodup_cons.1 hl
    rw [List.foldl_cons]
    rcases List.mem_cons.1 hj with rfl | hjl
    · rw [railGet_foldl_of_not_mem hf hkl, hg]
    · rw [ih hnodup hjl, hf _ _ _ (by rintro rfl; exact hkl hjl)]

/-! ### A trip (24 R553) -/

theorem tripAll_tripped (s : State) : (tripAll s).pwr.tripped = true ∧ PwrOnly s (tripAll s) ∧ (tripAll s).pwr.temps = s.pwr.temps := by
  have h := foldl_railsOnly (f := fun s t => railPut t { mv := 620, stepped := some s.time, coolSince := none, byPower := false } s)
    (fun _ _ => rfl) (List.range 25) { s with pwr := { s.pwr with tripped := true } }
  exact ⟨h.tripped, PwrOnly.trans (t := { s with pwr := { s.pwr with tripped := true } }) rfl h.pwrOnly, h.temps⟩

theorem tripAll_mv (s : State) {k : Nat} (hk : k < 25) : (railGet (tripAll s) k).mv = 620 :=
  mv_foldl_of_mem (f := fun s t => railPut t { mv := 620, stepped := some s.time, coolSince := none, byPower := false } s) (g := fun _ => 620)
    (fun _ _ _ h => railGet_railPut_ne h _ _) (fun s k => by rw [railGet_railPut (by simp)]) List.nodup_range
    (List.mem_range.2 hk) _

/-! ### Samples of temperatures -/

theorem railSample_railsOnly (was : Int) (t : Nat) (s : State) : RailsOnly s (railSample was t s) := by
  unfold railSample
  exact .ite rfl (.ite (.ite rfl rfl) (.ite rfl rfl))

/-- The temperatures once a sample is taken. -/
def tempsSampled (temps : List Byte) (m : SMap Byte) (ts : List Nat) : SMap Byte :=
  ts.foldl (fun m t => match temps[t]? with | some b => mset 0 m t b | none => m) m

theorem mget_tempsSampled_of_not_mem {temps : List Byte} {ts : List Nat} {k : Nat} (hk : k ∉ ts) (m : SMap Byte) :
    mget 0 (tempsSampled temps m ts) k = mget 0 m k := by
  induction ts generalizing m with
  | nil => rfl
  | cons t ts ih =>
    refine (ih (fun h => hk (by simp [h])) _).trans ?_
    dsimp only
    split
    · exact mget_mset_ne _ _ _ _ _ (by rintro rfl; exact hk (by simp))
    · rfl

/-- A die whose sample is not 0 has it as its temperature. -/
theorem mget_tempsSampled {temps : List Byte} {ts : List Nat} (hts : ts.Nodup) {k : Nat} (hk : k ∈ ts) {b : Byte} (hb : temps[k]? = some b)
    (h0 : b ≠ 0) (m : SMap Byte) : mget 0 (tempsSampled temps m ts) k = b := by
  induction ts generalizing m with
  | nil => simp at hk
  | cons t ts ih =>
    obtain ⟨htl, hnodup⟩ := List.nodup_cons.1 hts
    rcases List.mem_cons.1 hk with rfl | hkl
    · refine (mget_tempsSampled_of_not_mem htl _).trans ?_
      simp only [hb]
      exact mget_mset_nd m k h0
    · exact ih hnodup hkl _

/-- The state once the temperatures and the warning are set. -/
def thermalTaken (temps : List Byte) (s : State) : State :=
  let s1 := { s with pwr := { s.pwr with temps := tempsSampled temps s.pwr.temps dieCodes } }
  let warn := (dieCodes.filter (fun t => !codeLost s1 t)).any (fun t => decide (limitC s1 0 < (tempOf s1 t).toInt))
  { s1 with pwr := { s1.pwr with warn := warn } }

/-- The same once the alert for a new warning is raised. -/
def thermalWarned (temps : List Byte) (s : State) : State :=
  if (thermalTaken temps s).pwr.warn && !s.pwr.warn then alert 4 (thermalTaken temps s) else thermalTaken temps s

/-- Some live die is at TRIP_C or above. -/
def tripDue (temps : List Byte) (s : State) : Bool :=
  let s1 := { s with pwr := { s.pwr with temps := tempsSampled temps s.pwr.temps dieCodes } }
  (dieCodes.filter (fun t => !codeLost s1 t)).any (fun t => decide (limitC s1 2 - 1 < (tempOf s1 t).toInt))

theorem thermalSample_eq {s : State} (hpor : s.pins.porN = true) (hsup : s.pins.supplies = true) (hcape : s.rcv.cape = false)
    (temps : List Byte) :
    thermalSample temps 0 s =
      if (thermalWarned temps s).pwr.tripped then thermalWarned temps s
      else if tripDue temps s then tripAll (thermalWarned temps s)
      else (List.range 25).foldl (fun u t => railSample (tempOf s t).toInt t u) (thermalWarned temps s) := by
  rw [thermalSample, if_neg (by simp [hpor, hsup, hcape]), filter_bit_zero, List.foldl_nil]
  rfl

theorem thermalTaken_eq (temps : List Byte) (s : State) : PwrOnly s (thermalTaken temps s) ∧
    (thermalTaken temps s).pwr.temps = tempsSampled temps s.pwr.temps dieCodes ∧ (thermalTaken temps s).pwr.tripped = s.pwr.tripped :=
  ⟨rfl, rfl, rfl⟩

/-- The alert for a new warning leaves temperatures, rails, memory and the lost dies. -/
theorem thermalWarned_eq (temps : List Byte) (s : State) : (thermalWarned temps s).pwr.temps = tempsSampled temps s.pwr.temps dieCodes ∧
    (thermalWarned temps s).pwr.tripped = s.pwr.tripped ∧ (thermalWarned temps s).rcv = s.rcv ∧ (thermalWarned temps s).mem = s.mem ∧
    (thermalWarned temps s).wire = s.wire := by
  obtain ⟨honly, htemps, htrip⟩ := thermalTaken_eq temps s
  unfold thermalWarned
  split
  · rw [alert_eq]
    exact ⟨htemps, htrip, honly.rcv, honly.mem, honly.wire⟩
  · exact ⟨htemps, htrip, honly.rcv, honly.mem, honly.wire⟩

/-- What a sample of temperatures ends with: it leaves what it read, and a trip sets every rail to its lowest step. -/
theorem thermalSample_ends {s : State} (hpor : s.pins.porN = true) (hsup : s.pins.supplies = true) (hcape : s.rcv.cape = false)
    (temps : List Byte) : PwrOnly (thermalWarned temps s) (thermalSample temps 0 s) ∧
      (thermalSample temps 0 s).pwr.temps = tempsSampled temps s.pwr.temps dieCodes ∧
      (s.pwr.tripped = true ∨ tripDue temps s = true → (thermalSample temps 0 s).pwr.tripped = true) ∧
      (s.pwr.tripped = false → (thermalSample temps 0 s).pwr.tripped = true → ∀ k < 25, (railGet (thermalSample temps 0 s) k).mv = 620) := by
  obtain ⟨htemps, htrip, -, -, -⟩ := thermalWarned_eq temps s
  rw [thermalSample_eq hpor hsup hcape]
  cases htripped : s.pwr.tripped with
  | true =>
    rw [if_pos (htrip.trans htripped)]
    exact ⟨.refl _, htemps, fun _ => htrip.trans htripped, by simp⟩
  | false =>
    rw [if_neg (by simp [htrip, htripped])]
    cases hdue : tripDue temps s with
    | true =>
      obtain ⟨hnow, honly, hstand⟩ := tripAll_tripped (thermalWarned temps s)
      exact ⟨honly, hstand.trans htemps, fun _ => hnow, fun _ _ k hk => tripAll_mv _ hk⟩
    | false =>
      have hrails := foldl_railsOnly (fun u t => railSample_railsOnly (tempOf s t).toInt t u) (List.range 25) (thermalWarned temps s)
      rw [if_neg (by simp)]
      have hstays := hrails.tripped.trans (htrip.trans htripped)
      exact ⟨hrails.pwrOnly, hrails.temps.trans htemps, by simp, fun _ h => absurd (h.symm.trans hstays) (by simp)⟩

theorem codeLost_congr {s t : State} (h : t.rcv = s.rcv) (k : Nat) : codeLost t k = codeLost s k := by
  simp only [codeLost, islLost, dieLost, straitLost, harbourLost, h]

theorem tripDue_of_hot {temps : List Byte} {s t : State} (hrcv : t.rcv = s.rcv) (htemps : t.pwr.temps = tempsSampled temps s.pwr.temps dieCodes)
    (h : ∃ k ∈ dieCodes, codeLost s k = false ∧ limitC s 2 ≤ (tempOf t k).toInt) : tripDue temps s = true := by
  obtain ⟨k, hk, hlive, hhot⟩ := h
  have hsame := codeLost_congr (s := s) (t := { s with pwr := { s.pwr with temps := tempsSampled temps s.pwr.temps dieCodes } }) rfl k
  refine List.any_eq_true.2 ⟨k, List.mem_filter.2 ⟨hk, by rw [hsame, hlive]; rfl⟩, decide_eq_true ?_⟩
  rw [tempOf, codeLost_congr hrcv, htemps] at hhot
  rw [tempOf, hsame]
  exact Int.sub_one_lt_of_le hhot

theorem dieCodes_nodup : dieCodes.Nodup := List.nodup_range.filter _

/-! ### Samples of package power (24 R552) -/

/-- What one rail's voltage becomes in a ms above 3.6 kW. -/
def steppedMv (r : Rail) : Nat := if 620 < r.mv then stepDown r.mv else r.mv

theorem stepDown_lt (mv : Nat) : stepDown mv ≠ 750 := by
  unfold stepDown
  split <;> simp

/-- The live islands, whose rails follow the package's power. -/
def powerIslands (s : State) : List Nat := (List.range 16).filter (fun i => !islLost s i)

/-- One island's rail steps down. -/
def powerStep (s : State) (i : Nat) : State :=
  let r := railGet s i
  if 620 < r.mv then railPut i { mv := stepDown r.mv, stepped := some s.time, coolSince := none, byPower := true } s else s

/-- One island's rail that stepped down for power is watched, and steps up again. -/
def powerCool (cool : Bool) (s : State) (i : Nat) : State :=
  let r := railGet s i
  if r.mv < 750 && r.byPower then railPut i (railCool s.time cool r) s else s

theorem powerStep_railsOnly (s : State) (i : Nat) : RailsOnly s (powerStep s i) := .ite (railPut_railsOnly ..) (.refl s)

theorem powerCool_railsOnly (cool : Bool) (s : State) (i : Nat) : RailsOnly s (powerCool cool s i) := .ite (railPut_railsOnly ..) (.refl s)

theorem railGet_powerStep_ne (s : State) (i j : Nat) (h : j ≠ i) : railGet (powerStep s i) j = railGet s j := by
  unfold powerStep
  dsimp only
  split
  · exact railGet_railPut_ne h _ s
  · rfl

theorem railGet_powerCool_ne (cool : Bool) (s : State) (i j : Nat) (h : j ≠ i) : railGet (powerCool cool s i) j = railGet s j := by
  unfold powerCool
  dsimp only
  split
  · exact railGet_railPut_ne h _ s
  · rfl

theorem mv_powerStep (s : State) (i : Nat) : (railGet (powerStep s i) i).mv = steppedMv (railGet s i) := by
  unfold powerStep steppedMv
  dsimp only
  split
  · rw [railGet_railPut (stepDown_lt _)]
  · rfl

/-- While the package draws too much, no rail steps up. -/
theorem mv_powerCool (s : State) (i : Nat) : (railGet (powerCool false s i) i).mv = (railGet s i).mv := by
  unfold powerCool
  dsimp only
  split
  · next hlow =>
    have hmv : (railGet s i).mv < 750 := by
      simp only [Bool.and_eq_true, decide_eq_true_eq] at hlow
      exact hlow.1
    have hcool : (railCool s.time false (railGet s i)).mv = (railGet s i).mv := rfl
    rw [railGet_railPut (hcool.trans_ne (Nat.ne_of_lt hmv)), hcool]
  · rfl

/-- The state once power and the start of an excess are set, and the rails stepped down where an excess lasts a ms. -/
def powerTaken (w : Nat) (s : State) : State :=
  let s1 := { s with pwr := { s.pwr with watts := w } }
  if w ≤ 3600 then { s1 with pwr := { s1.pwr with overSince := none } }
  else match s1.pwr.overSince with
    | none => { s1 with pwr := { s1.pwr with overSince := some s1.time } }
    | some t =>
      if s1.time < t + 1000 then s1
      else (powerIslands s).foldl powerStep { s1 with pwr := { s1.pwr with overSince := some s1.time } }

theorem powerSample_eq {s : State} (hpor : s.pins.porN = true) (hsup : s.pins.supplies = true) (hcape : s.rcv.cape = false) (w : Nat) :
    powerSample w s = if (powerTaken w s).pwr.tripped then powerTaken w s
      else (powerIslands s).foldl (powerCool (decide (w ≤ 3400))) (powerTaken w s) := by
  rw [powerSample, if_neg (by simp [hpor, hsup, hcape])]
  rfl

/-- What follows the setting of the power changes rails alone. -/
theorem powerSample_railsOnly {s : State} (hpor : s.pins.porN = true) (hsup : s.pins.supplies = true) (hcape : s.rcv.cape = false) (w : Nat) :
    RailsOnly (powerTaken w s) (powerSample w s) := by
  rw [powerSample_eq hpor hsup hcape]
  exact .ite (.refl _) (foldl_railsOnly (powerCool_railsOnly _) _ _)

theorem powerTaken_watts (w : Nat) (s : State) : PwrOnly s (powerTaken w s) ∧ (powerTaken w s).pwr.watts = w ∧
    (w ≤ 3600 → (powerTaken w s).pwr.overSince = none) := by
  unfold powerTaken
  dsimp only
  split
  · exact ⟨rfl, rfl, fun _ => rfl⟩
  · next hover =>
    split
    · exact ⟨rfl, rfl, fun h => absurd h hover⟩
    · split
      · exact ⟨rfl, rfl, fun h => absurd h hover⟩
      · have hrails := foldl_railsOnly powerStep_railsOnly (powerIslands s)
          { s with pwr := { s.pwr with watts := w, overSince := some s.time } }
        exact ⟨PwrOnly.trans (t := { s with pwr := { s.pwr with watts := w, overSince := some s.time } }) rfl hrails.pwrOnly,
          hrails.watts, fun h => absurd h hover⟩

/-- A ms above 3.6 kW steps the rail of each live island down. -/
theorem powerTaken_steps {s : State} {w t0 : Nat} (hover : 3600 < w) (hsince : s.pwr.overSince = some t0) (hms : t0 + 1000 ≤ s.time)
    {i : Nat} (hi : i ∈ powerIslands s) : (railGet (powerTaken w s) i).mv = steppedMv (railGet s i) := by
  have htaken : powerTaken w s = (powerIslands s).foldl powerStep { s with pwr := { s.pwr with watts := w, overSince := some s.time } } := by
    simp only [powerTaken, if_neg (Nat.not_le.2 hover), hsince, if_neg (Nat.not_lt.2 hms)]
  rw [htaken]
  exact mv_foldl_of_mem railGet_powerStep_ne mv_powerStep (List.nodup_range.filter _) hi _

theorem powerSample_steps {s : State} (hpor : s.pins.porN = true) (hsup : s.pins.supplies = true) (hcape : s.rcv.cape = false) {w t0 : Nat}
    (hover : 3600 < w) (hsince : s.pwr.overSince = some t0) (hms : t0 + 1000 ≤ s.time) {i : Nat} (hi : i ∈ powerIslands s) :
    (railGet (powerSample w s) i).mv = steppedMv (railGet s i) := by
  rw [powerSample_eq hpor hsup hcape, decide_eq_false (by omega), ← powerTaken_steps hover hsince hms hi]
  split
  · rfl
  · exact mv_foldl_of_mem (g := Rail.mv) (railGet_powerCool_ne false) mv_powerCool (List.nodup_range.filter _) hi _

/-- Settles O52: of each command what it leaves alone and what it sets; a fold over rails sets each as its own step does. -/
theorem powerFollowsItsRequests : Obligations.PowerFollowsItsRequests := by
  unfold Obligations.PowerFollowsItsRequests
  intro s hw
  refine ⟨fun sid word v h hn => congrArg Host.Outcome.next (pairRow_pwrReq h hn v), fun d hsw hd => ⟨_, rfl, ?domain⟩,
    fun hpor hsup hcape => ⟨fun temps => ⟨thermalSample temps 0 s, ?runs, ?thermal⟩, fun watts => ⟨_, rfl, ?power⟩⟩, rfl, rfl, rfl, rfl⟩
  case domain =>
    rw [domainSwitchDone_switches hsw hd]
    obtain ⟨hpwr, hregs, hchans, hmem⟩ := domainEffect_frame d.toNat (!s.pwr.state.getLsbD d.toNat)
      { s with pwr := { s.pwr with state := s.pwr.state ^^^ (1#80 <<< d.toNat), switching := ndel s.pwr.switching d.toNat } }
    refine ⟨congrArg Pwr.state hpwr, hregs, hchans, fun hisl hlag hoff o ho => ?_, hmem⟩
    rw [hoff]
    exact domainEffect_lagoon hisl hlag _ ho
  case runs =>
    obtain ⟨-, -, -, -, hwire⟩ := thermalWarned_eq temps s
    exact congrArg Host.Outcome.next (settle_nil ((thermalSample_ends hpor hsup hcape temps).1.wire.trans (hwire.trans hw)))
  case thermal =>
    obtain ⟨honly, htemps, htrips, hlowest⟩ := thermalSample_ends hpor hsup hcape temps
    obtain ⟨-, -, hwrcv, hwmem, -⟩ := thermalWarned_eq temps s
    have hrcv := honly.rcv.trans hwrcv
    refine ⟨fun k hk b hb h0 hlive => ?_, fun hhot => htrips (.inr (tripDue_of_hot hrcv htemps hhot)), hlowest, fun h => htrips (.inl h),
      honly.mem.trans hwmem, hrcv⟩
    rw [tempOf, codeLost_congr hrcv, hlive, htemps]
    exact mget_tempsSampled dieCodes_nodup hk hb h0 _
  case power =>
    obtain ⟨honly, hwatts, hover⟩ := powerTaken_watts watts.toNat s
    have hrails := powerSample_railsOnly hpor hsup hcape watts.toNat
    refine ⟨hrails.watts.trans hwatts, honly.trans hrails.pwrOnly, fun h => hrails.overSince.trans (hover h),
      fun t0 habove hsince hms i hi hlive hmv => ?_⟩
    rw [powerSample_steps hpor hsup hcape habove hsince hms (List.mem_filter.2 ⟨List.mem_range.2 hi, by simp [hlive]⟩)]
    exact if_pos hmv

end Sys2Proof.Machine

namespace Sys2Proof.Machine

/-! ## A store that is not canonical (18 R443)

`rset` of 0 deletes an entry. Where the register store lists FI_ENABLE twice, which no sound state's does, the deletion of its first
entry lets the second one show. -/

/-- An open session of an installer. -/
def installerSession : Session :=
  { entry := 1, index := 0, link := 0, role := .installer, opened := true, initiator := true, peerSid := 9, transcript := 0, taken := 0,
    held := [], nonceTop := 0, nonces := [], nextSeq := 1, nextNonce := 0, queue := [], arb := Arb.init, unacked := [], credit := 64, cwnd := 64,
    cwndAt := 0, srtt := 0, rttvar := 0, rto := 100, ce := 0, peerCe := 0, suspendedAt := 0, lastHeard := 0 }

/-- Two slots stand enabled, one behind the other: FI_ENABLE reads 1, and 2 once that entry is deleted. -/
def enabledTwice : State :=
  { State.reset with regs := [(0x00080400, 1#32), (0x00080400, 2#32)], sessions := [(2, installerSession)] }

/-- FI_DISABLE of slot 0 ends slot 1 too. -/
theorem fiDisable_enabledTwice : ∃ t, exec (.fiDisable 2#32 0#3) enabledTwice = .next t ∧ (fiGet t 1).cause = 1 := by
  refine ⟨_, rfl, ?_⟩
  decide

/-- The statement's next state has slot 1 as it was. -/
theorem fiOff_enabledTwice : (fiGet (pairAfter 2#32 (fiOff 0 2#32 (pairBefore 0x00080400 0 2#32 enabledTwice))) 1).cause = 0 := by
  decide

/-- Refutes O53: FI_DISABLE of one slot, in a state whose register store lists FI_ENABLE twice, turns a second slot off. The statement
asks for a canonical register store in its last clause alone. -/
theorem not_slotsAndPeersTakeTheirWords : ¬ Obligations.SlotsAndPeersTakeTheirWords := by
  unfold Obligations.SlotsAndPeersTakeTheirWords
  intro h
  obtain ⟨hslots, -⟩ := h enabledTwice 2#32 installerSession rfl rfl
  obtain ⟨-, hdisable⟩ := hslots 0#3 (.inl rfl)
  obtain ⟨hnext, -⟩ := hdisable rfl
  obtain ⟨t, hexec, hended⟩ := fiDisable_enabledTwice
  have ht : t = pairAfter 2#32 (fiOff 0 2#32 (pairBefore 0x00080400 0 2#32 enabledTwice)) :=
    Host.Outcome.next.inj (hexec.symm.trans hnext)
  rw [ht, fiOff_enabledTwice] at hended
  exact absurd hended (by decide)

end Sys2Proof.Machine

namespace Sys2Proof.Machine

/-! ## Records of the integrity rings (19 R456-R463) -/

/-- `t` differs from `s` at most in the records of errors, their counters and what announces them. -/
def RecordsOnly (s t : State) : Prop :=
  t = { s with ceSeen := t.ceSeen, counters := t.counters, intRings := t.intRings, out := t.out, regs := t.regs }

namespace RecordsOnly
variable {s t u : State}

theorem refl (s : State) : RecordsOnly s s := rfl

theorem trans (h : RecordsOnly s t) (h' : RecordsOnly t u) : RecordsOnly s u := by
  calc u = { t with ceSeen := u.ceSeen, counters := u.counters, intRings := u.intRings, out := u.out, regs := u.regs } := h'
    _ = { s with ceSeen := u.ceSeen, counters := u.counters, intRings := u.intRings, out := u.out, regs := u.regs } := by rw [h]

theorem ite {p : Prop} [Decidable p] (h : RecordsOnly s t) (h' : RecordsOnly s u) : RecordsOnly s (if p then t else u) := by
  split
  · exact h
  · exact h'

theorem mem (h : RecordsOnly s t) : t.mem = s.mem := by rw [RecordsOnly] at h; rw [h]
theorem poison (h : RecordsOnly s t) : t.poison = s.poison := by rw [RecordsOnly] at h; rw [h]
theorem ueCount (h : RecordsOnly s t) : t.ueCount = s.ueCount := by rw [RecordsOnly] at h; rw [h]
theorem ueLimit (h : RecordsOnly s t) : t.ueLimit = s.ueLimit := by rw [RecordsOnly] at h; rw [h]
theorem wire (h : RecordsOnly s t) : t.wire = s.wire := by rw [RecordsOnly] at h; rw [h]
theorem plt (h : RecordsOnly s t) : t.plt = s.plt := by rw [RecordsOnly] at h; rw [h]
theorem chans (h : RecordsOnly s t) : t.chans = s.chans := by rw [RecordsOnly] at h; rw [h]
theorem rcv (h : RecordsOnly s t) : t.rcv = s.rcv := by rw [RecordsOnly] at h; rw [h]

end RecordsOnly

theorem alert_recordsOnly (k : Nat) (s : State) : RecordsOnly s (alert k s) := by
  rw [alert_eq]
  rfl

theorem satBump_recordsOnly (off : Nat) (s : State) : RecordsOnly s (satBump off s) := .ite (.refl s) rfl

theorem bump_recordsOnly (i n : Nat) (s : State) : RecordsOnly s (bump i n s) := rfl

theorem intRecord_recordsOnly (h : Nat) (r : IntRec) (s : State) : RecordsOnly s (intRecord h r s) := by
  have hring (x : SMap IntRing) : RecordsOnly s { s with intRings := x } := rfl
  have hset (off : Nat) (v : W32) {u : State} (hu : RecordsOnly s u) : RecordsOnly s (rset off v u) :=
    hu.trans (t := u) rfl
  refine .ite (.refl s) (.ite ?_ ?_)
  · exact (hset _ _ (.ite ((hring _).trans (satBump_recordsOnly _ _)) (hring _))).trans (alert_recordsOnly 0 _)
  · exact hset _ _ (.ite ((hring _).trans (satBump_recordsOnly _ _)) (hring _))

theorem ceOnce_recordsOnly (key h : Nat) (r : IntRec) (s : State) : RecordsOnly s (ceOnce key h r s) :=
  .ite (.refl s) (RecordsOnly.trans (t := { s with ceSeen := nadd s.ceSeen key }) rfl (intRecord_recordsOnly ..))

/-! ## Symbols that stay wrong (19 Table 19.2) -/

/-- Wrong symbols are written to memory, and nothing else changes. -/
theorem keepWrong_eq (at_ : Nat → Nat) (errs : List SymErr) (s : State) :
    keepWrong at_ errs s = { s with mem := (keepWrong at_ errs s).mem } := by
  refine List.foldlRecOn (motive := fun t : State => t = { s with mem := t.mem }) _ _ rfl (fun t ht e _ => ?_)
  rw [ht]

/-- Errors at three places or fewer are never taken for another codeword. -/
theorem keepWrong_of_few {errs : List SymErr} (h : (errorPlaces errs).length ≤ 3) (at_ : Nat → Nat) (s : State) :
    keepWrong at_ errs s = s := by
  simp only [keepWrong, wrongBits, if_pos h, List.filter_nil, List.foldl_nil]

/-! ## The scrubber (19 R459-R463) -/

/-- A codeword that is not the last moves its scrubber to the next one. -/
theorem scrubStep_mid {cw n : Nat} (h : cw + 1 < n) (k cnt : Nat) (mine : Nat → Bool) (s : State) :
    scrubStep k cw n cnt mine s = { s with scrub := mset 0 s.scrub k (cw + 1) } := by
  simp only [scrubStep, Nat.mod_eq_of_lt h, if_neg (Nat.ne_of_lt h)]

/-- A stack below its limit of uncorrectable errors stands. -/
theorem ueDeclare_below {s : State} {k : Nat} (h : mget 0 s.ueCount k < mget 256 s.ueLimit k) : ueDeclare k s = s :=
  if_neg (Nat.not_le.2 h)

/-- A corrected codeword counted and recorded, once in a pass. -/
def hbmCorrected (key k : Nat) (ps : List Nat) (s : State) : State :=
  ceOnce key k (ceRecord 0 k 1 key ps) (bump (islCnt k 3) 1 (bump (islCnt k 0) 1 s))

theorem hbmCorrected_recordsOnly (key k : Nat) (ps : List Nat) (s : State) : RecordsOnly s (hbmCorrected key k ps s) :=
  ((bump_recordsOnly (islCnt k 0) 1 s).trans (bump_recordsOnly (islCnt k 3) 1 _)).trans (ceOnce_recordsOnly ..)

/-- A failed codeword counted and recorded. -/
def hbmFailed (key k : Nat) (s : State) : State :=
  intRecord k (ueRecord 2 0 k 1 key) (bump (islCnt k 1) 1 { s with ueCount := mset 0 s.ueCount k (mget 0 s.ueCount k + 1) })

theorem hbmFailed_recordsOnly (key k : Nat) (s : State) :
    RecordsOnly { s with ueCount := mset 0 s.ueCount k (mget 0 s.ueCount k + 1) } (hbmFailed key k s) :=
  (bump_recordsOnly (islCnt k 1) 1 _).trans (intRecord_recordsOnly ..)

theorem sheetImage_congr {s t : State} (h : t.plt = s.plt) (k o : Nat) : sheetImage t k o = sheetImage s k o := by
  simp only [sheetImage, saveRegion, activePlate, caseNow, h]

theorem otherCopy_congr {s t : State} (h : t.chans = s.chans) (k o : Nat) : otherCopy t k o = otherCopy s k o := by
  simp only [otherCopy, h]

/-- Poisoning leaves all but counters and poison. -/
theorem hbmPoison_eq (k o : Nat) (s : State) :
    hbmPoison k o s = { s with counters := (hbmPoison k o s).counters, poison := (hbmPoison k o s).poison } := by
  unfold hbmPoison
  split
  · rfl
  · split
    · split <;> rfl
    · rfl

theorem hbmPoison_sheet {s : State} {k o : Nat} (h : sheetImage s k o = true) : (hbmPoison k o s).poison = s.poison := by
  rw [hbmPoison, if_pos h]
  rfl

theorem hbmPoison_alone {s : State} {k o : Nat} (hsheet : sheetImage s k o = false) (hcopy : otherCopy s k o = none) :
    (hbmPoison k o s).poison = nadd s.poison (hbmKey k o) := by
  rw [hbmPoison, if_neg (by simp [hsheet]), hcopy]

/-- With a good copy elsewhere, nothing is poisoned. -/
theorem hbmPoison_copied {s : State} {k o j : Nat} (hcopy : otherCopy s k o = some j) (hlive : islLost s j = false)
    (hgood : nmem s.poison (hbmKey j o) = false) : (hbmPoison k o s).poison = s.poison := by
  unfold hbmPoison
  split
  · rfl
  · simp only [hcopy, hlive, hgood, Bool.not_false, Bool.and_self, if_true]
    rfl

/-- The scrubber of a live stack that it is not held from runs. -/
theorem hbmScrub_runs {s : State} {k : Nat} (hlive : islLost s k = false) (hon : (rget s 0x00090000).getLsbD 0 = false) (hstage : 4 ≤ s.boot.stage) :
    ¬ (islLost s k || (rget s 0x00090000).getLsbD 0 || decide (s.boot.stage < 4)) = true := by
  rw [hlive, hon, decide_eq_false (Nat.not_lt.2 hstage)]
  simp

/-- So does that of an awake lagoon. -/
theorem lagoonScrub_runs {s : State} {i cw : Nat} (hlive : islLost s i = false) (hawake : lagoonOn s i = true)
    (hon : (rget s 0x00090000).getLsbD 1 = false) (hmid : cw + 1 < lagoonWords) :
    ¬ (decide (lagoonWords ≤ cw) || islLost s i || !lagoonOn s i || (rget s 0x00090000).getLsbD 1) = true := by
  rw [hlive, hawake, hon, decide_eq_false (Nat.not_le.2 (Nat.lt_of_succ_lt hmid))]
  simp

section
variable {s : State} {k cw : Nat} {errs : List SymErr} (hlive : islLost s k = false) (hon : (rget s 0x00090000).getLsbD 0 = false)
  (hstage : 4 ≤ s.boot.stage) (hclean : nmem s.poison (hbmKey k (64 * cw)) = false) (hmid : cw + 1 < 2 ^ 30)
include hlive hon hstage hclean hmid

theorem hbmScrub_clean (hd : decodeErrs errs = .corrected []) :
    hbmScrub k cw errs s = { keepWrong (fun j => hbmKey k (64 * cw) + 2 * j) errs s with
      scrub := mset 0 (keepWrong (fun j => hbmKey k (64 * cw) + 2 * j) errs s).scrub k (cw + 1) } := by
  rw [hbmScrub, if_neg (hbmScrub_runs hlive hon hstage), scrubStep_mid hmid, if_neg (Bool.not_eq_true _ ▸ hclean), hd]

theorem hbmScrub_corrected {ps : List Nat} (hd : decodeErrs errs = .corrected ps) (hps : ps ≠ []) :
    hbmScrub k cw errs s = { hbmCorrected (hbmKey k (64 * cw)) k ps (keepWrong (fun j => hbmKey k (64 * cw) + 2 * j) errs s) with
      scrub := mset 0 (hbmCorrected (hbmKey k (64 * cw)) k ps (keepWrong (fun j => hbmKey k (64 * cw) + 2 * j) errs s)).scrub k (cw + 1) } := by
  rw [hbmScrub, if_neg (hbmScrub_runs hlive hon hstage), scrubStep_mid hmid, if_neg (Bool.not_eq_true _ ▸ hclean), hd]
  cases ps with
  | nil => exact absurd rfl hps
  | cons p ps => rfl

theorem hbmScrub_failed (hd : decodeErrs errs = .failed) :
    hbmScrub k cw errs s = { hbmPoison k (64 * cw) (hbmFailed (hbmKey k (64 * cw)) k s) with
      scrub := mset 0 (hbmPoison k (64 * cw) (hbmFailed (hbmKey k (64 * cw)) k s)).scrub k (cw + 1) } := by
  rw [hbmScrub, if_neg (hbmScrub_runs hlive hon hstage), scrubStep_mid hmid, if_neg (Bool.not_eq_true _ ▸ hclean), hd]
  rfl

end

/-- A scrub that leaves the stack below its limit and puts nothing on its way is the command's next state. -/
theorem exec_hbmScrub {s t : State} {stack : BitVec 4} {codeword : BitVec 30} {errs : List SymErr}
    (h : hbmScrub stack.toNat codeword.toNat errs s = t) (hbelow : mget 0 t.ueCount stack.toNat < mget 256 t.ueLimit stack.toNat)
    (hwire : t.wire = []) : exec (.hbmScrub stack codeword errs) s = .next t := by
  refine congrArg Host.Outcome.next ?_
  rw [h, ueDeclare_below hbelow, settle_nil hwire]

/-- What corrected codewords change, which is neither a stack's count, nor its limit, nor what is on its way. -/
theorem corrected_stands {s t : State} {at_ : Nat → Nat} {errs : List SymErr} (h : RecordsOnly (keepWrong at_ errs s) t) :
    t.ueCount = s.ueCount ∧ t.ueLimit = s.ueLimit ∧ t.wire = s.wire := by
  have hcount := h.ueCount
  have hlimit := h.ueLimit
  have hwire := h.wire
  rw [keepWrong_eq] at hcount hlimit hwire
  exact ⟨hcount, hlimit, hwire⟩

/-- What a codeword of HBM that cannot be corrected leaves: one more of its stack's count, and poison where no good copy stands. -/
theorem hbmFailed_poisons (s : State) (k o : Nat) :
    let t := hbmPoison k o (hbmFailed (hbmKey k o) k s)
    t.ueCount = mset 0 s.ueCount k (mget 0 s.ueCount k + 1) ∧ t.ueLimit = s.ueLimit ∧ t.wire = s.wire ∧ t.mem = s.mem ∧
      (otherCopy s k o = none → sheetImage s k o = false → nmem t.poison (hbmKey k o) = true) ∧
      (sheetImage s k o = true → t.poison = s.poison) ∧
      (∀ j, otherCopy s k o = some j → islLost s j = false → nmem s.poison (hbmKey j o) = false → t.poison = s.poison) := by
  intro t
  have hrec := hbmFailed_recordsOnly (hbmKey k o) k s
  have hframe : t = _ := hbmPoison_eq k o (hbmFailed (hbmKey k o) k s)
  have hsheet := sheetImage_congr hrec.plt k o
  have hcopy := otherCopy_congr hrec.chans k o
  have hlost (j : Nat) : islLost (hbmFailed (hbmKey k o) k s) j = islLost s j := congrArg (fun r : Rcv => r.islands.getLsbD j) hrec.rcv
  refine ⟨?_, ?_, ?_, ?_, fun hnone hno => ?_, fun hyes => ?_, fun j hj hlive hgood => ?_⟩
  · rw [hframe]
    exact hrec.ueCount
  · rw [hframe]
    exact hrec.ueLimit
  · rw [hframe]
    exact hrec.wire
  · rw [hframe]
    exact hrec.mem
  · rw [show t.poison = _ from hbmPoison_alone (hsheet.trans hno) (hcopy.trans hnone)]
    exact nmem_nadd _ _
  · exact (hbmPoison_sheet (hsheet.trans hyes)).trans hrec.poison
  · exact (hbmPoison_copied (hcopy.trans hj) ((hlost j).trans hlive) (by rw [hrec.poison]; exact hgood)).trans hrec.poison

/-- A failed codeword of a lagoon: both of its lines are poisoned. -/
def lagoonFailed (key i r : Nat) (s : State) : State :=
  let t := intRecord i (ueRecord 2 1 (8 * i + r) 1 key) (bump (reefCnt (8 * i + r) 91) 1 s)
  { t with poison := nadd (nadd t.poison key) (key + 1024) }

theorem lagoonFailed_poisons (key i r : Nat) (s : State) : nmem (lagoonFailed key i r s).poison key = true ∧
    nmem (lagoonFailed key i r s).poison (key + 1024) = true ∧ (lagoonFailed key i r s).mem = s.mem := by
  have hrec := (bump_recordsOnly (reefCnt (8 * i + r) 91) 1 s).trans (intRecord_recordsOnly i (ueRecord 2 1 (8 * i + r) 1 key) _)
  exact ⟨(nmem_nadd_ne _ (by omega)).trans (nmem_nadd _ _), nmem_nadd _ _, hrec.mem⟩

theorem not_both {a b : Bool} (h : a = false ∨ b = false) : ¬ (a && b) = true := by
  rcases h with rfl | rfl <;> simp

section
variable {s : State} {i cw key : Nat} {errs : List SymErr} (hlive : islLost s i = false) (hawake : lagoonOn s i = true)
  (hon : (rget s 0x00090000).getLsbD 1 = false) (hmid : cw + 1 < lagoonWords)
  (hkey : key = lagKey i (cw / 393216 * 0x01800000 + (cw % 393216 / 32 * 2048 + cw % 32 * 32)))
  (hclean : nmem s.poison key = false ∨ nmem s.poison (key + 1024) = false)
include hlive hawake hon hmid hkey hclean

theorem lagoonScrub_clean (hd : decodeErrs errs = .corrected []) :
    lagoonScrub i cw errs s = { keepWrong (lagSymbol key) errs s with
      scrub := mset 0 (keepWrong (lagSymbol key) errs s).scrub (16 + i) (cw + 1) } := by
  subst hkey
  rw [lagoonScrub, if_neg (lagoonScrub_runs hlive hawake hon hmid), scrubStep_mid hmid, if_neg (not_both hclean), hd]

theorem lagoonScrub_corrected {ps : List Nat} (hd : decodeErrs errs = .corrected ps) (hps : ps ≠ []) :
    let u := ceOnce key i (ceRecord 1 (8 * i + cw / 393216) 1 key ps) (bump (reefCnt (8 * i + cw / 393216) 93) 1
      (bump (reefCnt (8 * i + cw / 393216) 90) 1 (keepWrong (lagSymbol key) errs s)))
    lagoonScrub i cw errs s = { u with scrub := mset 0 u.scrub (16 + i) (cw + 1) } := by
  subst hkey
  rw [lagoonScrub, if_neg (lagoonScrub_runs hlive hawake hon hmid), scrubStep_mid hmid, if_neg (not_both hclean), hd]
  cases ps with
  | nil => exact absurd rfl hps
  | cons p ps => rfl

theorem lagoonScrub_failed (hd : decodeErrs errs = .failed) :
    lagoonScrub i cw errs s = { lagoonFailed key i (cw / 393216) s with
      scrub := mset 0 (lagoonFailed key i (cw / 393216) s).scrub (16 + i) (cw + 1) } := by
  subst hkey
  rw [lagoonScrub, if_neg (lagoonScrub_runs hlive hawake hon hmid), scrubStep_mid hmid, if_neg (not_both hclean), hd]
  rfl

end

/-- Settles O54. Where the scrubber goes next and which copy of a codeword is another one are the model's choice
(notes/assumptions/60.md), as is that a sheet's image is never poisoned (notes/assumptions/121.md) and what decoding takes for another
codeword (notes/assumptions/59.md). -/
theorem scrubRecordsAndPoisons : Obligations.ScrubRecordsAndPoisons := by
  unfold Obligations.ScrubRecordsAndPoisons
  intro s hw
  refine ⟨fun stack codeword errs => ?hbm, fun island line errs => ?lagoon⟩
  case hbm =>
    intro k key hlive hon hstage hclean hbelow hmid on wrong
    have hstands {t : State} (h : RecordsOnly wrong t) : mget 0 (on t).ueCount k < mget 256 (on t).ueLimit k ∧ (on t).wire = [] := by
      obtain ⟨hcount, hlimit, hwire⟩ := corrected_stands h
      refine ⟨?_, hwire.trans hw⟩
      change mget 0 t.ueCount k < mget 256 t.ueLimit k
      rw [hcount, hlimit]
      exact Nat.lt_of_succ_lt hbelow
    refine ⟨fun hfew => keepWrong_of_few hfew _ s, fun hd => ?_, fun ps hd hps => ?_, fun hd => ?_⟩
    · obtain ⟨hunder, hwire⟩ := hstands (.refl wrong)
      exact exec_hbmScrub (hbmScrub_clean hlive hon hstage hclean hmid hd) hunder hwire
    · obtain ⟨hunder, hwire⟩ := hstands (hbmCorrected_recordsOnly key k ps wrong)
      exact exec_hbmScrub (hbmScrub_corrected hlive hon hstage hclean hmid hd hps) hunder hwire
    · obtain ⟨hcount, hlimit, hwire, hmem, hpoison⟩ := hbmFailed_poisons s k (64 * codeword.toNat)
      have hone : mget 0 (mset 0 s.ueCount k (mget 0 s.ueCount k + 1)) k = mget 0 s.ueCount k + 1 := mget_mset_nd _ _ (Nat.succ_ne_zero _)
      refine ⟨_, exec_hbmScrub (hbmScrub_failed hlive hon hstage hclean hmid hd) ?_ (hwire.trans hw), ?_, hmem, hpoison⟩
      · dsimp only
        rw [hcount, hlimit]
        exact hone.trans_lt hbelow
      · dsimp only
        rw [hcount]
        exact hone
  case lagoon =>
    intro i r key hlive hawake hon hmid hclean on wrong
    have hkey : key = lagKey i (line.toNat / 393216 * 0x01800000 + (line.toNat % 393216 / 32 * 2048 + line.toNat % 32 * 32)) :=
      congrArg (lagKey i) (Nat.add_assoc ..)
    refine ⟨fun hd => congrArg Host.Outcome.next (lagoonScrub_clean hlive hawake hon hmid hkey hclean hd),
      fun ps hd hps => congrArg Host.Outcome.next (lagoonScrub_corrected hlive hawake hon hmid hkey hclean hd hps), fun hd => ?_⟩
    obtain ⟨hkey1, hkey2, hmem⟩ := lagoonFailed_poisons key i r s
    exact ⟨_, congrArg Host.Outcome.next (lagoonScrub_failed hlive hawake hon hmid hkey hclean hd), hkey1, hkey2, hmem⟩

end Sys2Proof.Machine

namespace Sys2Proof.Machine

/-! ## Cuts of the counter snapshot (20 R487-R489) -/

/-- A filter on keys hides no entry of a key that it keeps. -/
theorem mget_filter_key {α : Type} {d : α} (m : SMap α) {keep : Nat → Prop} [DecidablePred keep] {i : Nat} (h : keep i) :
    mget d (m.filter (fun p => keep p.1)) i = mget d m i := by
  induction m with
  | nil => rfl
  | cons p m ih =>
    rw [List.filter_cons]
    split
    · simp only [mget, ih]
    · next hdrop =>
      rw [ih, mget, if_neg]
      rintro rfl
      exact hdrop (decide_eq_true h)

/-- One counter of a die goes to the bank as its cut takes it. -/
def cutStep (keep : Nat → Prop) [DecidablePred keep] (value : Nat → W64) (m : SMap W64) (c : Nat × W64) : SMap W64 :=
  if keep c.1 then mset 0 m c.1 (value c.1) else m

section
variable {keep : Nat → Prop} [DecidablePred keep] {value : Nat → W64}

theorem mget_cutStep_ne {c : Nat × W64} {i : Nat} (h : keep c.1 → c.1 ≠ i) (m : SMap W64) :
    mget 0 (cutStep keep value m c) i = mget 0 m i := by
  unfold cutStep
  split
  · next hk => exact mget_mset_ne _ _ _ _ _ (h hk).symm
  · rfl

/-- A cut leaves what the bank holds of other counters. -/
theorem mget_cut_of_not_mem {l : SMap W64} {i : Nat} (h : ∀ c ∈ l, keep c.1 → c.1 ≠ i) (m : SMap W64) :
    mget 0 (l.foldl (cutStep keep value) m) i = mget 0 m i := by
  refine List.foldlRecOn (motive := fun t => mget 0 t i = mget 0 m i) _ _ rfl (fun t ht c hc => ?_)
  rw [mget_cutStep_ne (h c hc), ht]

theorem mem_mset {α : Type} [DecidableEq α] {d : α} {m : SMap α} {k : Nat} {v : α} {p : Nat × α} (h : p ∈ mset d m k v) :
    p = (k, v) ∨ p ∈ m := by
  unfold mset at h
  split at h
  · exact .inr (mem_mdel h)
  · exact mem_mput h

theorem mget_mset_absent {α : Type} [DecidableEq α] {d : α} {m : SMap α} {k : Nat} (h : ∀ p ∈ m, p.1 ≠ k) (v : α) :
    mget d (mset d m k v) k = v := by
  by_cases hv : v = d
  · rw [mset, if_pos hv, mget_of_not_mem (fun p hp => h p (mem_mdel hp)), hv]
  · exact mget_mset_nd m k hv

/-- A bank with no entry of a counter holds its cut afterwards. -/
theorem mget_cut_of_mem {l : SMap W64} {lo : Option Nat} (hl : mrising lo l = true) {i : Nat} (hi : keep i) {v : W64} (hmem : (i, v) ∈ l)
    {m : SMap W64} (hm : ∀ p ∈ m, p.1 ≠ i) : mget 0 (l.foldl (cutStep keep value) m) i = value i := by
  induction l generalizing lo m with
  | nil => simp at hmem
  | cons c l ih =>
    obtain ⟨k, w⟩ := c
    simp only [mrising, Bool.and_eq_true] at hl
    obtain ⟨-, hrest⟩ := hl
    rcases List.mem_cons.1 hmem with heq | hlater
    · obtain ⟨rfl, -⟩ := Prod.mk.inj heq
      have hset : cutStep keep value m (i, w) = mset 0 m i (value i) := if_pos hi
      rw [List.foldl_cons, mget_cut_of_not_mem (fun c hc _ => Nat.ne_of_gt (mrising_above hrest c hc)), hset]
      exact mget_mset_absent hm (value i)
    · have hki : k ≠ i := Nat.ne_of_lt (mrising_above hrest _ hlater)
      refine ih hrest hlater fun p hp => ?_
      unfold cutStep at hp
      split at hp
      · rcases mem_mset hp with rfl | hp
        · exact hki
        · exact hm p hp
      · exact hm p hp

end

/-- What the bank of a capture holds once a die has taken its cut. -/
def cutBank (d : Nat) (s : State) (m : SMap W64) : SMap W64 :=
  s.counters.foldl (cutStep (fun i => counterDie i = d) (cutValue s)) (m.filter (fun p => counterDie p.1 ≠ d))

theorem snapCut_eq (d : Nat) (s : State) : snapCut d s = emit (.marker d (s.snap.seq + 1))
    (bankMod (s.snap.seq + 1) (cutBank d s) { s with snap := { s.snap with cut := nadd s.snap.cut d } }) := rfl

/-- Counters of other dies stand in the bank as they were. -/
theorem mget_cutBank_ne {d i : Nat} (h : counterDie i ≠ d) (s : State) (m : SMap W64) : mget 0 (cutBank d s m) i = mget 0 m i := by
  unfold cutBank
  rw [mget_cut_of_not_mem (fun c _ hc => by rintro rfl; exact h hc), mget_filter_key (keep := fun i => counterDie i ≠ d) m h]

/-- A counter that no entry lists is cut as 0. -/
theorem cutValue_of_not_mem {s : State} {i : Nat} (h : ∀ c ∈ s.counters, c.1 ≠ i) : cutValue s i = 0 := by
  unfold cutValue
  rw [mget_of_not_mem h]
  exact ite_self 0

/-- Each counter of the die is as the cut takes it. -/
theorem mget_cutBank {s : State} (hwf : mwf 0 s.counters = true) {d i : Nat} (h : counterDie i = d) (m : SMap W64) :
    mget 0 (cutBank d s m) i = cutValue s i := by
  have hgone : ∀ p ∈ m.filter (fun p => counterDie p.1 ≠ d), p.1 ≠ i := by
    rintro p hp rfl
    exact absurd h (of_decide_eq_true (List.mem_filter.1 hp).2)
  by_cases hlist : ∃ v, (i, v) ∈ s.counters
  · obtain ⟨v, hv⟩ := hlist
    exact mget_cut_of_mem (keep := fun i => counterDie i = d) (mwf_iff.1 hwf).1 h hv hgone
  · have hnone : ∀ c ∈ s.counters, c.1 ≠ i := by
      rintro c hc rfl
      exact hlist ⟨c.2, hc⟩
    unfold cutBank
    rw [mget_cut_of_not_mem (fun c hc _ => hnone c hc), mget_of_not_mem hgone, cutValue_of_not_mem hnone]

/-- The bank of the capture in progress is the one that its number names. -/
theorem bankPair_bankMod (n : Nat) (f : SMap W64 → SMap W64) (s : State) (i : Nat) :
    bankPair (bankMod (n + 1) f s) (decide (n % 2 = 1)) i = (mget 0 (f (if n % 2 = 1 then s.snap.bankB else s.snap.bankA)) i).toNat := by
  unfold bankPair bankMod
  rcases Nat.mod_two_eq_zero_or_one n with h | h
  · simp [h, show (n + 1) % 2 = 1 by omega]
  · simp [h, show (n + 1) % 2 = 0 by omega]

theorem bankPair_eq (s : State) (n i : Nat) :
    bankPair s (decide (n % 2 = 1)) i = (mget 0 (if n % 2 = 1 then s.snap.bankB else s.snap.bankA) i).toNat := by
  simp [bankPair]

/-- A change of one bank leaves the capture's number and state. -/
theorem bankMod_snap (n : Nat) (f : SMap W64 → SMap W64) (s : State) : (bankMod n f s).snap.seq = s.snap.seq ∧
    (bankMod n f s).snap.busy = s.snap.busy ∧ (bankMod n f s).snap.cut = s.snap.cut ∧ bankMod n f s = { s with snap := (bankMod n f s).snap } := by
  unfold bankMod
  dsimp only
  split <;> exact ⟨rfl, rfl, rfl, rfl⟩

theorem snapMarker_cuts {s : State} {d : Nat} (hbusy : s.snap.busy = true) (hd : d < 25) (hnew : nmem s.snap.cut d = false)
    (hlive : dieLost s d = false) : snapMarker d s = snapCut d s := by
  simp [snapMarker, hbusy, hnew, hlive, Nat.not_le.2 hd]

theorem snapStart_busy (s : State) : (snapStart s).snap.busy = true ∧ (snapStart s).snap.seq = s.snap.seq := by
  unfold snapStart
  dsimp only
  split
  · exact ⟨rfl, rfl⟩
  · rw [snapCut_eq]
    obtain ⟨hseq, hbusy, -, -⟩ := bankMod_snap (s.snap.seq + 1) (cutBank 24 { s with snap := { s.snap with busy := true, cut := [] } })
      { s with snap := { s.snap with busy := true, cut := nadd [] 24 } }
    exact ⟨hbusy, hseq⟩

/-- Lost dies read all ones: the bank changes, and the capture's number stands. -/
theorem foldl_snapLost (l : List Nat) (s : State) :
    (l.foldl (fun s d => snapLost d s) s).snap.seq = s.snap.seq ∧
      l.foldl (fun s d => snapLost d s) s = { s with snap := (l.foldl (fun s d => snapLost d s) s).snap } := by
  refine List.foldlRecOn (motive := fun t : State => t.snap.seq = s.snap.seq ∧ t = { s with snap := t.snap }) _ _ ⟨rfl, rfl⟩
    (fun t ht d _ => ?_)
  obtain ⟨hseq, hframe⟩ := ht
  obtain ⟨hseq', -, -, hframe'⟩ := bankMod_snap (t.snap.seq + 1)
    (fun m => ((List.range 57344).filter (fun i => snapIndex i && decide (counterDie i = d))).foldl (fun m i => mset 0 m i (BitVec.allOnes 64)) m) t
  refine ⟨hseq'.trans hseq, hframe'.trans ?_⟩
  rw [hframe]
  rfl

/-- The end of a capture whose live dies have all taken their cut: the number advances. -/
theorem snapDone_advances {s : State} (hbusy : s.snap.busy = true) (hall : ∀ d < 25, dieLost s d = true ∨ nmem s.snap.cut d = true) :
    (snapDone s).snap.seq = (s.snap.seq + 1) % 2 ^ 31 ∧ (snapDone s).snap.busy = false ∧ (snapDone s).snap.cut = [] ∧
      snapDone s = { s with snap := (snapDone s).snap } := by
  have hevery : (List.range 25).all (fun d => dieLost s d || nmem s.snap.cut d) = true :=
    List.all_eq_true.2 fun d hd => Bool.or_eq_true_iff.2 (hall d (List.mem_range.1 hd))
  obtain ⟨hseq, hframe⟩ := foldl_snapLost ((List.range 25).filter (fun d => !nmem s.snap.cut d)) s
  unfold snapDone
  rw [if_neg (by simp [hbusy, hevery])]
  generalize ((List.range 25).filter (fun d => !nmem s.snap.cut d)).foldl (fun s d => snapLost d s) s = u at hseq hframe
  refine ⟨congrArg (fun n => (n + 1) % 2 ^ 31) hseq, rfl, rfl, ?_⟩
  rw [hframe]

/-! ## Commands that every role may give (20 R487, 22 R516, R517) -/

theorem accessTick_eq (sid : W32) (s : State) :
    accessTick sid s = { s with guards := (accessTick sid s).guards, hiCaps := (accessTick sid s).hiCaps } := by
  unfold accessTick
  split <;> rfl

theorem mayWrite_all {r : Role} (h : r ≠ .none) {w : RegWord} (hw : w.right = .all) (v : Nat) : mayWrite r w v = true := by
  rw [mayWrite, if_neg h, hw]

/-- GLB_SNAP_CMD. -/
def snapCmdWord : RegWord := { wo := 1, right := .all }

/-- SEC_AUDIT_CMD. -/
def auditCmdWord : RegWord := { w1s := 3, right := .all }

theorem regName_snapCmd : regName 0x00010000 = .reg snapCmdWord := rfl

theorem regName_auditCmd : regName 0x00040010 = .reg auditCmdWord := rfl

/-- CAPTURE with no capture in progress starts one. -/
theorem cmdWrite_capture {s : State} {sid : W32} {r : Role} (h : OpenAs s sid r) (hr : r ≠ .none) (hidle : s.snap.busy = false) :
    cmdWrite 0x00010000 1 0 sid s = cmdAfter sid (snapStart (accessTick sid s)) := by
  have hck : wordCheck (accessTick sid s) 0x00010000 1 = cOk := by
    have hidle' : (accessTick sid s).snap.busy = false := by rw [accessTick_eq]; exact hidle
    simp [wordCheck, hidle']
  exact cmdWrite_done h (by decide) (by decide) regName_snapCmd rfl (mayWrite_all hr rfl 0) (by decide) (by decide) (by decide) (by decide) hck

/-- CHECKPOINT and FLUSH, of any role. -/
theorem cmdWrite_audit {s : State} {sid : W32} {r : Role} (h : OpenAs s sid r) (hr : r ≠ .none) {v : Nat} (hv : v < 2 ^ 32) :
    cmdWrite 0x00040010 v 0 sid s = cmdAfter sid (auditCmd v (accessTick sid s)) :=
  cmdWrite_done h (by decide) (by decide) regName_auditCmd rfl (mayWrite_all hr rfl 0) (by decide) hv (by decide) (by decide) rfl

/-- The bits of a command of the log are set. -/
def auditAsked (bits : W32) (s : State) : State := rset 0x00040010 (rget s 0x00040010 ||| bits) s

theorem auditCmd_checkpoint {s : State} (hcape : s.rcv.cape = false) :
    auditCmd 1 s = auditPeriodic (auditCheckpoint (auditAsked 1#32 s)) := by
  rw [auditCmd, if_neg (by simp [hcape])]
  rfl

theorem auditCmd_flush {s : State} (hcape : s.rcv.cape = false) : auditCmd 2 s = auditFlush (auditAsked 2#32 s) := by
  rw [auditCmd, if_neg (by simp [hcape])]
  rfl

theorem auditCheckpoint_checkpoints (s : State) :
    (auditCheckpoint s).audit.checkpoints.length = s.audit.checkpoints.length + 1 := List.length_append

theorem auditCheckpoint_ring (s : State) : (auditCheckpoint s).audit.ring.length = s.audit.ring.length + 1 := List.length_append

/-- CHECKPOINT adds a record and a checkpoint to the log. -/
theorem auditCmd_checkpoint_grows {s : State} (hcape : s.rcv.cape = false) : s.audit.count < (auditCmd 1 s).audit.count ∧
    s.audit.ring <+: (auditCmd 1 s).audit.ring ∧ s.audit.checkpoints.length < (auditCmd 1 s).audit.checkpoints.length := by
  rw [auditCmd_checkpoint hcape]
  obtain ⟨more, hring, hcount, -, hcp⟩ := auditPeriodic_grows (auditCheckpoint (auditAsked 1#32 s))
  obtain ⟨more', hring', -, -, -⟩ := auditCheckpoint_grows (auditAsked 1#32 s)
  have hone : (auditCheckpoint (auditAsked 1#32 s)).audit.count = s.audit.count + 1 := rfl
  refine ⟨by omega, ⟨more' ++ more, ?_⟩, (auditCheckpoint_checkpoints (auditAsked 1#32 s)).symm.le.trans hcp.length_le⟩
  rw [hring, hring', List.append_assoc]
  rfl

/-- A flush that starts takes the log as it stands, and its own checkpoint record. -/
def flushStarted (s : State) : State :=
  let t := auditCheckpoint s
  { t with audit := { t.audit with busy := true, flushing := t.audit.ring.length, flushingCp := t.audit.checkpoints.length } }

theorem auditFlush_idle {s : State} (hcape : s.rcv.cape = false) (hidle : s.audit.busy = false) :
    auditFlush s = auditPeriodic (flushStarted s) := by
  rw [auditFlush, if_neg (by simp [hcape]), if_neg (by simp [hidle])]
  rfl

theorem auditPeriodic_flushing (s : State) :
    (auditPeriodic s).audit.busy = s.audit.busy ∧ (auditPeriodic s).audit.flushing = s.audit.flushing := by
  unfold auditPeriodic
  split <;> exact ⟨rfl, rfl⟩

theorem auditCmd_flush_starts {s : State} (hcape : s.rcv.cape = false) (hidle : s.audit.busy = false) : (auditCmd 2 s).audit.busy = true ∧
    s.audit.ring.length < (auditCmd 2 s).audit.flushing := by
  rw [auditCmd_flush hcape, auditFlush_idle (s := auditAsked 2#32 s) hcape hidle]
  obtain ⟨hbusy, hflushing⟩ := auditPeriodic_flushing (flushStarted (auditAsked 2#32 s))
  have htaken : (flushStarted (auditAsked 2#32 s)).audit.flushing = s.audit.ring.length + 1 := auditCheckpoint_ring (auditAsked 2#32 s)
  exact ⟨hbusy, by omega⟩

/-- One in progress is asked for again. -/
theorem auditCmd_flush_again {s : State} (hcape : s.rcv.cape = false) (hbusy : s.audit.busy = true) :
    (auditCmd 2 s).audit = { s.audit with again := true } := by
  rw [auditCmd_flush hcape, auditFlush, if_neg (by simp [auditAsked, rset, hcape]), if_pos (by simp [auditAsked, rset, hbusy])]
  rfl

/-! ## FLUSH_DONE (22 R518) -/

/-- The flushed records go to the log's part of flash alone. -/
theorem mget_fputRound {a : Nat} (ha : a < 0x03000000 ∨ 0x07000000 ≤ a) (bs : List Byte) (p : Nat) (m : SMap Byte) :
    mget 0xFF (fputRound bs p m) a = mget 0xFF m a := by
  induction bs generalizing p m with
  | nil => rfl
  | cons b bs ih =>
    rw [fputRound, ih]
    exact mget_mset_ne _ _ _ _ _ (by omega)

theorem flushDone_drops {s : State} (hbusy : s.audit.busy = true) (hcape : s.rcv.cape = false) (hagain : s.audit.again = false) :
    (flushDone s).audit.ring = s.audit.ring.drop s.audit.flushing ∧ (flushDone s).audit.busy = false ∧
      (flushDone s).audit.count = s.audit.count ∧ (flushDone s).audit.head = s.audit.head ∧
      (∀ a, (a < 0x03000000 ∨ 0x07000000 ≤ a) → fget (flushDone s) a = fget s a) ∧
      flushDone s = { s with flash := (flushDone s).flash, audit := (flushDone s).audit, regs := (flushDone s).regs } := by
  rw [flushDone, if_neg (by simp [hbusy, hcape]), if_neg (by simp [hagain])]
  exact ⟨rfl, rfl, rfl, rfl, fun a ha => mget_fputRound ha _ _ _, rfl⟩

/-! ## DEBUG_UNLOCK (22 R512) -/

/-- The state of a device whose debug access a maker has opened. -/
def debugUnlocked (sid : W32) (s : State) : State :=
  let t := auditRoleChange 4 s.boot.roleSeq cOk sid s
  { t with audit := { t.audit with unlocked := true } }

theorem debugUnlock_open {s : State} {sid : W32} {x : Session} (hsess : sess? s sid = some x) (hopened : x.opened = true)
    (hcape : s.rcv.cape = false) : debugUnlock sid s =
      if x.role ≠ .maker then emit (.writeStatus sid cRoleRefused) (auditRefused sid 0 0 s)
      else emit (.writeStatus sid cOk) (debugUnlocked sid s) := by
  simp only [debugUnlock, inSession, hsess, hopened, hcape, if_true, Bool.false_eq_true, if_false, debugUnlocked]

/-- Settles O51. Which die holds a counter is the model's choice (notes/assumptions/62.md). -/
theorem snapshotAndAuditCommandsAct : Obligations.SnapshotAndAuditCommandsAct := by
  unfold Obligations.SnapshotAndAuditCommandsAct
  intro s
  refine ⟨fun sid x hsess hopened hrole => ?commands, fun die hbusy hd hnew hlive => ?marker,
    fun hbusy hall => ⟨_, rfl, snapDone_advances hbusy hall⟩, fun hbusy hcape hagain => ⟨_, rfl, flushDone_drops hbusy hcape hagain⟩⟩
  case commands =>
    have hopen : OpenAs s sid x.role := ⟨x, hsess, hopened, rfl⟩
    obtain ⟨hstart, hseq⟩ := snapStart_busy (accessTick sid s)
    have haudit : (accessTick sid s).audit = s.audit := by rw [accessTick_eq]
    have hrcv : (accessTick sid s).rcv = s.rcv := by rw [accessTick_eq]
    refine ⟨fun hidle => ⟨congrArg Host.Outcome.next (cmdWrite_capture hopen hrole hidle), hstart, hseq.trans ?_⟩, fun hcape => ?_⟩
    · rw [accessTick_eq]
    · have hcape' : (accessTick sid s).rcv.cape = false := by rw [hrcv]; exact hcape
      refine ⟨⟨_, congrArg Host.Outcome.next (cmdWrite_audit hopen hrole (by decide)), rfl, ?_⟩,
        fun hidle => ⟨_, congrArg Host.Outcome.next (cmdWrite_audit hopen hrole (by decide)), rfl, ?_⟩,
        fun hbusy => ⟨_, congrArg Host.Outcome.next (cmdWrite_audit hopen hrole (by decide)), ?_⟩, fun hmaker => ⟨debugUnlocked sid s, ?_, rfl⟩, fun hother => ?_⟩
      · rw [← haudit]
        exact auditCmd_checkpoint_grows hcape'
      · rw [← haudit]
        exact auditCmd_flush_starts hcape' (by rw [haudit]; exact hidle)
      · rw [← haudit]
        exact auditCmd_flush_again hcape' (by rw [haudit]; exact hbusy)
      · exact congrArg Host.Outcome.next ((debugUnlock_open hsess hopened hcape).trans (if_neg (not_not.2 hmaker)))
      · exact congrArg Host.Outcome.next ((debugUnlock_open hsess hopened hcape).trans (if_pos hother))
  case marker =>
    obtain ⟨-, -, hcut, hframe⟩ := bankMod_snap (s.snap.seq + 1) (cutBank die.toNat s)
      { s with snap := { s.snap with cut := nadd s.snap.cut die.toNat } }
    refine ⟨_, congrArg Host.Outcome.next ((snapMarker_cuts hbusy hd hnew hlive).trans (snapCut_eq _ s)), ?_, fun hwf i hi => ?_, fun i hi => ?_, hframe⟩
    · rw [hcut]
      exact nmem_nadd _ _
    · rw [bankPair_bankMod, mget_cutBank hwf hi]
    · rw [bankPair_bankMod, mget_cutBank_ne hi, bankPair_eq]

end Sys2Proof.Machine

namespace Sys2Proof.Machine

/-! ## Where registers stand (20 R470-R472) -/

theorem leBytes_length (n v : Nat) : (leBytes n v).length = n := by
  induction n generalizing v with
  | zero => rfl
  | succ n ih => rw [leBytes, List.length_cons, ih]

/-- A register stands below 0x400000000, at a multiple of 4, in the lower half of its 64 KiB. -/
theorem regAt_place {off : Nat} {w : RegWord} (h : regAt off = some w) : off < 0x400000000 ∧ off % 4 = 0 ∧ off % 0x10000 < 0x8000 := by
  by_cases hout : 0x400000000 ≤ off ∨ off % 4 ≠ 0 ∨ 0x8000 ≤ off % 0x10000
  · rw [regAt, if_pos hout] at h
    exact absurd h (by simp)
  · omega

theorem regName_reg {off : Nat} {w : RegWord} (h : regAt off = some w) : regName off = .reg w := by
  simp only [regName, h]

/-- The port of a guarded register stands 0x8000 above it. -/
theorem regName_port {off : Nat} {w : RegWord} (h : regAt off = some w) (hg : w.grd ≠ 0) : regName (off + 0x8000) = .port off w := by
  obtain ⟨hlow, hmul, hhalf⟩ := regAt_place h
  have hnone : regAt (off + 0x8000) = none := by
    rw [regAt, if_pos (by omega)]
  have hodd : (off + 0x8000) / 0x8000 % 2 = 1 := by omega
  simp only [regName, hnone, hodd, if_true, Nat.add_sub_cancel, h, hg, ne_eq, not_false_eq_true]

/-- Every line of the register region and of the region of its bits may be read. -/
theorem mapRead_reg {l : Nat} (hlow : regRegion ≤ l) (hhigh : l < 0x040000000000) : mapRead l = cOk := by
  unfold regRegion at hlow
  unfold mapRead placeOf
  rw [if_neg (by omega), if_neg (by omega), if_neg (by omega), if_neg (by omega)]
  by_cases hreg : l < 0x038000000000
  · rw [if_pos hreg]
  · rw [if_neg hreg, if_pos hhigh]

theorem lineAddrs_reg {a n : Nat} (hlow : regRegion ≤ a) (hhigh : a + n ≤ 0x040000000000) :
    (lineAddrs a n).any (fun l => mapRead l ≠ cOk) = false := by
  unfold regRegion at hlow
  refine List.any_eq_false.2 fun l hl => ?_
  obtain ⟨i, hi, rfl⟩ := List.mem_map.1 hl
  have hlines := List.mem_range.1 hi
  simp [mapRead_reg (l := (a / 32 + i) * 32) (by unfold regRegion; omega) (by omega)]

/-! ## Accesses of a session (20 R470) -/

theorem accessTick_of_none {s : State} {sid : W32} (h : mlook s.guards sid.toNat = none) :
    accessTick sid s = { s with hiCaps := mdel s.hiCaps sid.toNat } := by
  simp only [accessTick, h]

theorem accessTick_of_some {s : State} {sid : W32} {g : Guard} (h : mlook s.guards sid.toNat = some g) :
    accessTick sid s = { s with hiCaps := mdel s.hiCaps sid.toNat, guards := mput s.guards sid.toNat { g with left := g.left - 1 } } := by
  simp only [accessTick, h]

theorem accessEnd_of_none {s : State} {sid : W32} (h : mlook s.guards sid.toNat = none) : accessEnd sid s = s := by
  simp only [accessEnd, h]

/-- The free values are no part of an access. -/
theorem accessTick_free (sid : W32) (s : State) (n : Nat) : accessTick sid { s with free := n } = { accessTick sid s with free := n } := by
  unfold accessTick
  dsimp only
  split <;> rfl

/-- An access that succeeds, whose end lets no value lapse, leaves what it did. -/
theorem accessCode_ok {s : State} {sid : W32} (h : accessEnd sid s = s) (a : Nat) : accessCode sid a (cOk, s) = (cOk, s) := by
  simp only [accessCode, regRefuse_ok, h]

theorem LogsOnly.guards {s t : State} (h : LogsOnly s t) : t.guards = s.guards := by rw [LogsOnly] at h; rw [h]

/-- A refusal writes no guarded value. -/
theorem regRefuse_guards (c : W16) (sid : W32) (a : Nat) (s : State) : (regRefuse c sid a s).guards = s.guards := by
  unfold regRefuse
  split
  · dsimp only
    split
    · rw [(audit_logsOnly ..).guards, (alert_logsOnly ..).guards]
      simp only [bump_guards, rset_guards]
    · rw [(alert_logsOnly ..).guards]
      simp only [bump_guards, rset_guards]
  · rfl

/-- An access that fails, with no value pending after it, leaves its refusal. -/
theorem accessCode_refused {s : State} {sid : W32} (h : mlook s.guards sid.toNat = none) (c : W16) (a : Nat) :
    accessCode sid a (c, s) = (c, regRefuse c sid a s) := by
  simp only [accessCode, accessEnd_of_none (s := regRefuse c sid a s) (by rw [regRefuse_guards]; exact h)]

/-- A write of a session that reaches either region. -/
theorem writeRow_reg {s : State} {sid : W32} {x : Session} {addr : W64} {a n : Nat} {data : List Byte} (hsess : sess? s sid = some x)
    (hopened : x.opened = true) (hnode : nodeLocal s addr = true) (ha : localOf addr = a) (hlen : data.length = n) (hlow : regRegion ≤ a)
    (hn : 1 ≤ n) (hmax : n ≤ 64) (hhigh : a + n ≤ 0x040000000000) :
    writeRow sid addr data s = settle (emit (.writeStatus sid (freshWrite a data sid s).1) (freshWrite a data sid s).2) := by
  have hspan : (BitVec.ofNat 32 n).toNat = n := by
    rw [BitVec.toNat_ofNat]
    omega
  have hfields : fieldsOk 0x02 (writeHdr addr n) data = true := by
    simp only [fieldsOk, writeHdr, hspan, hlen]
    simp
    omega
  have hreg : isRegAddr a = true := by
    simp only [isRegAddr, Bool.and_eq_true, decide_eq_true_eq]
    omega
  have hop : opDo 0x02 sid x (writeHdr addr n) data s = (.status (freshWrite a data sid s).1, (freshWrite a data sid s).2) := by
    have hmem : isMemOp 0x02 = true := rfl
    have hspan' : opSpan 0x02 (writeHdr addr n) = n := hspan
    have haddr : (writeHdr addr n).addr = addr := rfl
    simp only [opDo, hfields, hmem, haddr, hnode, ha, hreg, Bool.not_true, Bool.false_eq_true, if_false, if_true, regOp, hspan',
      lineAddrs_reg hlow hhigh, show ¬ (0x02 : Nat) = 0x01 by decide]
  simp only [writeRow, inSession, hsess, hopened, if_true, hlen, hop, Ans.status]

theorem regOff_sub (off : Nat) : regRegion + off - regRegion = off := Nat.add_sub_cancel_left ..

theorem regShape_word {off : Nat} (h : off % 4 = 0) : regShape (regRegion + off) 4 = cOk := by
  have haligned : (regRegion + off) % 4 = 0 := by
    unfold regRegion
    omega
  simp [regShape, regLen, regAligned, haligned]

theorem regWords_word {off : Nat} (h : off % 4 = 0) : regWords off 4 = [off] := by
  have hdiv : off / 4 * 4 = off := by omega
  simp [regWords, hdiv, List.range_succ]

/-- A word written at a name that some register has, by a session with a role. -/
theorem regWrite_word {s : State} {sid : W32} {off v bad : Nat} {nm : RegName} (hmul : off % 4 = 0) (hname : regName off = nm)
    (hnm : nm ≠ .none) (hrole : roleOf s sid ≠ .none) (hv : v < 2 ^ 32) :
    regWrite (regRegion + off) (leBytes 4 v) bad sid s =
      if nm.guarded then guardHalf off nm v sid s
      else if !mayWrite (roleOf s sid) nm.word 0 then (cRoleRefused, auditRefused sid (regRegion + off) 0 s)
      else plainWrite (regRegion + off) [(off, nm)] [v] bad sid s := by
  have hnames : namesOf [off] = some [(off, nm)] := by
    cases nm with
    | reg w => simp [namesOf, hname]
    | port o w => simp [namesOf, hname]
    | none => exact absurd rfl hnm
  simp only [regWrite, leBytes_length, regShape_word hmul, regOff_sub, regWords_word hmul, words_of_leBytes hv, hnames, if_neg hrole, List.any_cons, List.any_nil, Bool.or_false,
    ne_eq, not_true_eq_false, if_false, show ¬ (4 : Nat) < 4 by decide]

theorem roleOf_of_sess {s : State} {sid : W32} {x : Session} (h : sess? s sid = some x) : roleOf s sid = x.role := by
  simp only [roleOf, h, Option.map_some, Option.getD_some]

/-- The state in which a write of a session is checked: a free value is drawn, and the access is counted. -/
def accessed (sid : W32) (s : State) : State := accessTick sid { s with free := s.free + 1 }

theorem roleOf_accessed {s : State} {sid : W32} {x : Session} (h : sess? s sid = some x) : roleOf (accessed sid s) sid = x.role := by
  rw [accessed, roleOf_accessTick, roleOf_of_sess (s := { s with free := s.free + 1 }) h]

theorem accessed_of_none {s : State} {sid : W32} (h : mlook s.guards sid.toNat = none) : accessed sid s = written sid s :=
  accessTick_of_none (s := { s with free := s.free + 1 }) h

theorem mlook_accessed {s : State} {sid : W32} {g : Guard} (h : mlook s.guards sid.toNat = some g) :
    mlook (accessed sid s).guards sid.toNat = some { g with left := g.left - 1 } := by
  rw [accessed, accessTick_of_some (s := { s with free := s.free + 1 }) h]
  exact mlook_mput_self _ _ _

/-- A write in the register region. -/
theorem freshWrite_reg {a : Nat} (h : a < aliasRegion) (data : List Byte) (sid : W32) (s : State) : freshWrite a data sid s =
    accessCode sid a (regWrite a data (proofMask s) sid (accessed sid s)) := by
  simp only [freshWrite, sessWrite, if_neg (Nat.not_le.2 h), accessed]

/-! ## Guarded pairs (20 R480-R482) -/

/-- A word written at a guarded register or its port is a half of a pair. -/
theorem freshWrite_half {s : State} {sid : W32} {x : Session} (hsess : sess? s sid = some x) (hrole : x.role ≠ .none) {off : Nat} {nm : RegName}
    (hmul : off % 4 = 0) (hlow : off < 0x8000000000) (hname : regName off = nm) (hguard : nm.guarded = true) (v : W32) :
    freshWrite (regRegion + off) (leBytes 4 v.toNat) sid s =
      accessCode sid (regRegion + off) (guardHalf off nm v.toNat sid (accessed sid s)) := by
  have hsome : roleOf (accessed sid s) sid ≠ .none := by
    rw [roleOf_accessed hsess]
    exact hrole
  have hnm : nm ≠ .none := by
    rintro rfl
    exact absurd hguard (by simp [RegName.guarded])
  rw [freshWrite_reg (by unfold regRegion aliasRegion; omega), regWrite_word hmul hname hnm hsome v.isLt, if_pos hguard]

/-- The state of a write whose pending value is used up. -/
def usedUp (sid : W32) (s : State) : State := { accessed sid s with guards := mdel (accessTick sid s).guards sid.toNat }

theorem usedUp_eq (sid : W32) (s : State) : { accessed sid s with guards := mdel (accessed sid s).guards sid.toNat } = usedUp sid s := by
  unfold usedUp accessed
  rw [accessTick_free]

/-- A value half with none pending is kept for 64 accesses. -/
theorem guardHalf_kept {s : State} {sid : W32} (h : mlook s.guards sid.toNat = none) (off : Nat) (w : RegWord) (v : W32) :
    guardHalf off (.reg w) v.toNat sid s = (cOk, { s with guards := mput s.guards sid.toNat { off := off, v := v, left := 64 } }) := by
  simp only [guardHalf, h, Option.isSome_none, Bool.false_eq_true, if_false, BitVec.ofNat_toNat, BitVec.setWidth_eq]

/-- A second one fails, and uses the value up. -/
theorem guardHalf_second {s : State} {sid : W32} {g : Guard} (hg : mlook s.guards sid.toNat = some g) (off : Nat) (w : RegWord) (v : Nat) :
    guardHalf off (.reg w) v sid s = (cGuardFail, { s with guards := mdel s.guards sid.toNat }) := by
  simp only [guardHalf, hg, Option.isSome_some, if_true]

/-- A complement that matches is the pair. -/
theorem guardHalf_pair {s : State} {sid : W32} {g : Guard} (hg : mlook s.guards sid.toNat = some g) {off : Nat} (hoff : g.off = off) {v : W32}
    (hv : v = ~~~g.v) (at_ : Nat) (w : RegWord) :
    guardHalf at_ (.port off w) v.toNat sid s = pairDone off w g.v.toNat sid { s with guards := mdel s.guards sid.toNat } := by
  have hxor : g.v ^^^ 0xFFFFFFFF#32 = BitVec.ofNat 32 v.toNat := by
    rw [BitVec.ofNat_toNat, BitVec.setWidth_eq, hv]
    exact BitVec.xor_allOnes
  simp only [guardHalf, hg, hoff, hxor, decide_true, Bool.and_self, if_true]

/-- Any other write at the port fails. -/
theorem guardHalf_mismatch {s : State} {sid : W32} {g : Guard} (hg : mlook s.guards sid.toNat = some g) {off : Nat} {v : W32}
    (h : g.off ≠ off ∨ v ≠ ~~~g.v) (at_ : Nat) (w : RegWord) :
    guardHalf at_ (.port off w) v.toNat sid s = (cGuardFail, { s with guards := mdel s.guards sid.toNat }) := by
  have hxor : g.v ^^^ 0xFFFFFFFF#32 = ~~~g.v := BitVec.xor_allOnes
  have hno : ¬ (decide (g.off = off) && decide (g.v ^^^ 0xFFFFFFFF#32 = BitVec.ofNat 32 v.toNat)) = true := by
    rw [BitVec.ofNat_toNat, BitVec.setWidth_eq, hxor, Bool.and_eq_true, decide_eq_true_eq, decide_eq_true_eq]
    rintro ⟨hoff, hv⟩
    exact h.elim (fun hne => hne hoff) (fun hne => hne hv.symm)
  simp only [guardHalf, hg]
  rw [if_neg hno]

/-- A pair that a role may write, of a register with no effect of its own. -/
theorem pairDone_plain {s : State} {sid : W32} {off v : Nat} {w : RegWord} (hmay : mayWrite (roleOf s sid) w v = true)
    (hplain : ∀ o ∈ [0x00030004, 0x00070004, 0x00080400, 0x000A0000], off ≠ o) (hpeer : isPeerWord off = false)
    (hpwr : ¬ (0x00050000 ≤ off ∧ off ≤ 0x00050008)) (hright : w.right = .installer) :
    pairDone off w v sid s = (cOk, rset off (BitVec.ofNat 32 (clampWord off (v &&& w.grd))) (auditWrite (regRegion + off) v 1 cOk sid s)) := by
  have hplt : off ≠ 0x00030004 := hplain _ (by simp)
  have hrcv : off ≠ 0x00070004 := hplain _ (by simp)
  have hfi : off ≠ 0x00080400 := hplain _ (by simp)
  have hsyn : off ≠ 0x000A0000 := hplain _ (by simp)
  have hck : guardCheck s off v = cOk := by
    rw [guardCheck, if_neg hplt, if_neg hrcv]
  have haud : auditedWrite (roleOf s sid) w = true := by
    rw [auditedWrite, hright]
  simp only [pairDone, hmay, hck, haud, guardDo, hplt, hrcv, hfi, hsyn, hpeer, hpwr, Bool.not_true, Bool.false_eq_true, ne_eq, not_true_eq_false,
    if_false, if_true]

/-- Settles O50: a half is one write of a word, whose name says which half it is. -/
theorem guardedPairsTakeBothHalves : Obligations.GuardedPairsTakeBothHalves := by
  unfold Obligations.GuardedPairsTakeBothHalves
  intro s sid x addr off w hreg hgrd hsess hopened hrole hnode hwire hcap
  obtain ⟨hlow, hmul, -⟩ := regAt_place hreg
  have hmulp : (off + 0x8000) % 4 = 0 := by omega
  have hlowp : off + 0x8000 < 0x500000000 := by omega
  have hguard : (RegName.reg w).guarded = true := by simp [RegName.guarded, hgrd]
  have hhalf {a at_ : Nat} {nm : RegName} (haddr : localOf addr = a) (ha : a = regRegion + at_) (hmul' : at_ % 4 = 0) (hlow' : at_ < 0x500000000)
      (hname : regName at_ = nm) (hg : nm.guarded = true) (v : W32) {c : W16} {t : State}
      (hdone : accessCode sid a (guardHalf at_ nm v.toNat sid (accessed sid s)) = (c, t)) :
      writeRow sid addr (leBytes 4 v.toNat) s = settle (emit (.writeStatus sid c) t) := by
    subst ha
    rw [writeRow_reg hsess hopened hnode haddr (leBytes_length 4 _) (Nat.le_add_right ..) (by decide) (by decide)
      (by unfold regRegion; omega), freshWrite_half hsess hrole hmul' (by omega) hname hg, hdone]
  refine ⟨fun haddr hnone v => ?value, fun g v hg => ⟨fun haddr hgone => ?second, fun haddr hgone => ⟨fun hoff hv => ?pair, fun hbad => ?mismatch⟩, ?lapse⟩,
    fun v u => pairDone_plain⟩
  case value =>
    refine congrArg Host.Outcome.next ((hhalf haddr rfl hmul (by omega) (regName_reg hreg) hguard v ?_).trans (settle_nil hwire))
    rw [accessed_of_none hnone, guardHalf_kept (s := written sid s) hnone]
    refine accessCode_ok ?_ _
    simp only [accessEnd, mlook_mput_self]
    rfl
  case second =>
    refine congrArg Host.Outcome.next (hhalf haddr rfl hmul (by omega) (regName_reg hreg) hguard v ?_)
    rw [guardHalf_second (mlook_accessed hg), usedUp_eq]
    exact accessCode_refused hgone _ _
  case pair =>
    refine congrArg Host.Outcome.next (hhalf haddr (Nat.add_assoc ..) hmulp hlowp (regName_port hreg hgrd) rfl v ?_)
    rw [guardHalf_pair (mlook_accessed hg) hoff hv, usedUp_eq]
    rfl
  case mismatch =>
    refine congrArg Host.Outcome.next (hhalf haddr (Nat.add_assoc ..) hmulp hlowp (regName_port hreg hgrd) rfl v ?_)
    rw [guardHalf_mismatch (mlook_accessed hg) hbad, usedUp_eq]
    exact accessCode_refused hgone _ _
  case lapse =>
    refine congrArg Host.Outcome.next ?_
    simp only [guardLapse, hg]
    rfl

end Sys2Proof.Machine

namespace Sys2Proof.Machine

/-! ## What an audit record does to registers (22 R514) -/

/-- Of the registers the audit command alone may change, and the store stays canonical. -/
def RegsKept (s t : State) : Prop := (mwf 0 s.regs = true → mwf 0 t.regs = true) ∧ ∀ k, k ≠ 0x00040010 → rget t k = rget s k

namespace RegsKept
variable {s t u : State}

theorem of_eq (h : t.regs = s.regs) : RegsKept s t := ⟨fun hwf => by rw [h]; exact hwf, fun _ _ => by rw [rget, h, rget]⟩

theorem trans (h : RegsKept s t) (h' : RegsKept t u) : RegsKept s u :=
  ⟨fun hwf => h'.1 (h.1 hwf), fun k hk => (h'.2 k hk).trans (h.2 k hk)⟩

end RegsKept

theorem auditCheckpoint_regsKept (s : State) : RegsKept s (auditCheckpoint s) :=
  ⟨fun hwf => mset_wf _ _ hwf, fun k hk => mget_mset_ne 0 s.regs _ k _ hk⟩

theorem auditPeriodic_regsKept (s : State) : RegsKept s (auditPeriodic s) := by
  unfold auditPeriodic
  split
  · exact auditCheckpoint_regsKept s
  · exact .of_eq rfl

theorem auditFlush_regsKept (s : State) : RegsKept s (auditFlush s) := by
  unfold auditFlush
  split
  · exact .of_eq rfl
  · split
    · exact .of_eq rfl
    · exact (auditCheckpoint_regsKept s).trans (RegsKept.trans (t := flushStarted s) (.of_eq rfl) (auditPeriodic_regsKept _))

theorem audit_regsKept (kind : Byte) (code : W16) (sid : W32) (source : Byte) (detail : List Byte) (s : State) :
    RegsKept s (audit kind code sid source detail s) := by
  have happended : RegsKept s (auditAppend kind code (roleOf s sid) source sid (subjectOf s sid) detail s) := .of_eq rfl
  have hlogged := happended.trans (auditPeriodic_regsKept _)
  unfold audit
  split
  · exact .of_eq rfl
  · split
    · exact .of_eq rfl
    · dsimp only
      split
      · exact hlogged.trans (auditFlush_regsKept _)
      · exact hlogged

/-! ## Plain words (20 R472-R475) -/

/-- What a plain write tells the log before its effect. -/
def plainTold (a v : Nat) (w : RegWord) (sid : W32) (s : State) : State :=
  if auditedWrite (roleOf s sid) w then auditWrite a v 1 cOk sid s else s

theorem plainTold_logsOnly (a v : Nat) (w : RegWord) (sid : W32) (s : State) : LogsOnly s (plainTold a v w sid s) := by
  unfold plainTold
  split
  · exact audit_logsOnly ..
  · exact .refl s

theorem plainTold_regsKept (a v : Nat) (w : RegWord) (sid : W32) (s : State) : RegsKept s (plainTold a v w sid s) := by
  unfold plainTold
  split
  · exact audit_regsKept ..
  · exact .of_eq rfl

theorem plainTold_of_unaudited {a v : Nat} {w : RegWord} {sid : W32} {s : State} (h : auditedWrite (roleOf s sid) w = false) :
    plainTold a v w sid s = s := by
  rw [plainTold, h]
  rfl

/-- A write of one word that passes its block's check, or has none to pass. -/
theorem plainWrite_one {s : State} {off v : Nat} (h : ((counterWord off).isSome || windowOff s off) = true ∨ wordCheck s off v = cOk)
    (a bad : Nat) (nm : RegName) (sid : W32) :
    plainWrite a [(off, nm)] [v] bad sid s = (cOk, plainDo off nm.word v bad sid (plainTold a v nm.word sid s)) := by
  have hcode : (if ((counterWord off).isSome || windowOff s off) = true then cOk else wordCheck s off v) = cOk := by
    rcases h with h | h
    · rw [if_pos h]
    · rw [h, ite_self]
  simp only [plainWrite, List.zip_cons_cons, List.zip_nil_right, List.map_cons, List.map_nil, hcode, firstCode, if_true, ne_eq,
    not_true_eq_false, if_false, List.any_cons, List.any_nil, Bool.or_false, List.headD_cons, List.length_cons, List.length_nil, Nat.zero_add,
    plainAll, plainTold]

/-- A register's words are set, and but for pins and power nothing else changes. -/
theorem regSet_frame (off : Nat) (v : W32) (s : State) : (regSet off v s).regs = (rset off v s).regs ∧ (regSet off v s).mem = s.mem ∧
    (regSet off v s).chans = s.chans ∧ (regSet off v s).plt = s.plt ∧ (regSet off v s).guards = s.guards ∧ (regSet off v s).wire = s.wire := by
  unfold regSet alertEdge
  dsimp only
  split <;> split <;> exact ⟨rfl, rfl, rfl, rfl, rfl, rfl⟩

/-- The effect on a plain register. -/
theorem plainDo_set {s : State} {sid : W32} {off v bad : Nat} {w : RegWord} (hro : w.readOnly = false)
    (hcmd : off ≠ 0x00010000 ∧ off ≠ 0x00030000 ∧ off ≠ 0x00040010) (hpeer : isPeerWord off = false) (hcnt : counterWord off = none)
    (hon : windowOff s off = false) : plainDo off w v bad sid s =
      regSet off (mergeWord (rget s off) (roleBits w (roleOf s sid)).1 (roleBits w (roleOf s sid)).2 (clampWord off v)) s := by
  obtain ⟨hsnap, hplt, haud⟩ := hcmd
  simp only [plainDo, hcnt, Option.isSome_none, Bool.false_eq_true, if_false, hon, wordDo, if_neg hsnap, if_neg hplt, if_neg haud, hpeer, hro]

/-- What a write of a plain register has done once its value is set. -/
theorem plainSet_spec {s : State} {sid : W32} {r : Role} {off v : Nat} {w : RegWord} (hrole : roleOf s sid = r) (hwf : mwf 0 s.regs = true)
    (hro : w.readOnly = false) (hcmd : off ≠ 0x00010000 ∧ off ≠ 0x00030000 ∧ off ≠ 0x00040010) (hpeer : isPeerWord off = false)
    (hcnt : counterWord off = none) (hon : windowOff s off = false) (a bad : Nat) :
    let t := plainDo off w v bad sid (plainTold a v w sid s)
    rget t off = mergeWord (rget s off) (roleBits w r).1 (roleBits w r).2 (clampWord off v) ∧
      (∀ k, k ≠ off → k ≠ 0x00040010 → rget t k = rget s k) ∧ t.mem = s.mem ∧ t.chans = s.chans ∧ t.plt = s.plt ∧ t.guards = s.guards ∧
      t.wire = s.wire := by
  have hlogs := plainTold_logsOnly a v w sid s
  obtain ⟨hwf', hothers⟩ := plainTold_regsKept a v w sid s
  have hrole' : roleOf (plainTold a v w sid s) sid = r := by
    rw [LogsOnly] at hlogs
    rw [hlogs]
    exact hrole
  have hon' : windowOff (plainTold a v w sid s) off = false := by
    rw [LogsOnly] at hlogs
    rw [hlogs]
    exact hon
  intro t
  have ht : t = _ := plainDo_set (v := v) (bad := bad) (sid := sid) hro hcmd hpeer hcnt hon'
  rw [hrole', hothers off hcmd.2.2] at ht
  obtain ⟨hregs, hmem, hchans, hstore, hguards, hwire⟩ := regSet_frame off
    (mergeWord (rget s off) (roleBits w r).1 (roleBits w r).2 (clampWord off v)) (plainTold a v w sid s)
  rw [ht]
  refine ⟨?_, fun k hk hk' => ?_, hmem.trans hlogs.mem, hchans.trans hlogs.chans, hstore.trans hlogs.plt, hguards.trans hlogs.guards,
    hwire.trans hlogs.wire⟩
  · rw [rget, hregs]
    exact (mget_mset (hwf' hwf) _ _ _).trans (if_pos rfl)
  · rw [rget, hregs, ← hothers k hk']
    exact mget_mset_ne _ _ _ _ _ hk

/-- A word written at a register that is not guarded, by a role that may write it. -/
theorem freshWrite_plain {s : State} {sid : W32} {x : Session} (hsess : sess? s sid = some x) (hrole : x.role ≠ .none)
    (hnone : mlook s.guards sid.toNat = none) {off : Nat} {w : RegWord} (hreg : regAt off = some w) (hgrd : w.grd = 0)
    (hmay : mayWrite x.role w 0 = true) {v : Nat} (hv : v < 2 ^ 32)
    (hck : ((counterWord off).isSome || windowOff (written sid s) off) = true ∨ wordCheck (written sid s) off v = cOk) :
    freshWrite (regRegion + off) (leBytes 4 v) sid s = accessCode sid (regRegion + off)
      (cOk, plainDo off w v (proofMask s) sid (plainTold (regRegion + off) v w sid (written sid s))) := by
  obtain ⟨hlow, hmul, -⟩ := regAt_place hreg
  have hrole' : roleOf (written sid s) sid = x.role := roleOf_of_sess (s := written sid s) hsess
  have hopen : (RegName.reg w).guarded = false := by simp [RegName.guarded, hgrd]
  have hmay' : (!mayWrite x.role w 0) = false := by rw [hmay]; rfl
  rw [freshWrite_reg (by unfold regRegion aliasRegion; omega), accessed_of_none hnone,
    regWrite_word hmul (regName_reg hreg) (by simp) (by rw [hrole']; exact hrole) hv, hopen, hrole']
  simp only [RegName.word, hmay', Bool.false_eq_true, if_false]
  rw [plainWrite_one hck]
  rfl

/-- The row of a write that ends with its status and nothing on its way. -/
theorem writeRow_done {s t : State} {sid : W32} {x : Session} {addr : W64} {a n : Nat} {data : List Byte} {c : W16} (hsess : sess? s sid = some x)
    (hopened : x.opened = true) (hnode : nodeLocal s addr = true) (ha : localOf addr = a) (hlen : data.length = n) (hlow : regRegion ≤ a)
    (hn : 1 ≤ n) (hmax : n ≤ 64) (hhigh : a + n ≤ 0x040000000000) (hdone : freshWrite a data sid s = (c, t)) (hwire : t.wire = []) :
    writeRow sid addr data s = emit (.writeStatus sid c) t := by
  rw [writeRow_reg hsess hopened hnode ha hlen hlow hn hmax hhigh, hdone]
  exact settle_nil hwire

/-- A register of read-only fields is no command, no counter, and takes nothing. -/
theorem plainDo_readOnly {off : Nat} (h : regAt off = some {}) (v bad : Nat) (sid : W32) (s : State) : plainDo off {} v bad sid s = s := by
  have hsnap : off ≠ 0x00010000 := by
    rintro rfl
    exact absurd h (by decide)
  have hplt : off ≠ 0x00030000 := by
    rintro rfl
    exact absurd h (by decide)
  have haud : off ≠ 0x00040010 := by
    rintro rfl
    exact absurd h (by decide)
  have hcnt : (counterWord off).isSome = false := by
    obtain ⟨hlow, hmul, hhalf⟩ := regAt_place h
    cases hc : (counterWord off).isSome with
    | false => rfl
    | true =>
      rw [regAt, if_neg (by omega), if_pos hc] at h
      exact absurd h (by decide)
  have hro : RegWord.readOnly {} = true := rfl
  simp only [plainDo, hcnt, Bool.false_eq_true, if_false, wordDo, if_neg hsnap, if_neg hplt, if_neg haud, hro, if_true, ite_self]

/-! ## Reads (20 R474, R476) -/

/-- A read of one word of a session that reaches the register region. -/
theorem opDo_read {s : State} {sid : W32} {addr : W64} {a : Nat} (hnode : nodeLocal s addr = true) (ha : localOf addr = a) (hlow : regRegion ≤ a)
    (hhigh : a + 4 ≤ 0x040000000000) (x : Session) {c : W16} {b : List Byte} {t : State} (hread : sessRead a 4 sid s = (c, b, t)) :
    opDo 0x01 sid x (writeHdr addr 4) [] s = ({ code := c, value := 0, data := b }, t) := by
  have hfields : fieldsOk 0x01 (writeHdr addr 4) [] = true := rfl
  have hreg : isRegAddr a = true := by
    simp only [isRegAddr, Bool.and_eq_true, decide_eq_true_eq]
    omega
  have hmem : isMemOp 0x01 = true := rfl
  have hspan : opSpan 0x01 (writeHdr addr 4) = 4 := rfl
  have haddr : (writeHdr addr 4).addr = addr := rfl
  simp only [opDo, hfields, hmem, haddr, hnode, ha, hreg, Bool.not_true, Bool.false_eq_true, if_false, if_true, regOp, hspan,
    lineAddrs_reg hlow hhigh, hread]

/-- The high word that a read of a low word leaves captured. -/
def captured (off : Nat) (s : State) : Option HiCapture :=
  (pairRead s off).map (fun p => { off := off + 4, v := BitVec.ofNat 32 (wordOf p 1) })

/-- A read of one word, with no high word captured before it. -/
theorem regReadOp_word {s : State} {sid : W32} (hrole : roleOf s sid ≠ .none) {off : Nat} {w : RegWord} (hreg : regAt off = some w) :
    regReadOp (regRegion + off) 4 none sid s = (cOk, leBytes 4 (regRead s sid off).toNat, captured off s) := by
  obtain ⟨-, hmul, -⟩ := regAt_place hreg
  have hnames : namesOf [off] = some [(off, .reg w)] := by simp [namesOf, regName_reg hreg]
  simp only [regReadOp, regShape_word hmul, regOff_sub, regWords_word hmul, hnames, if_neg hrole, ne_eq, not_true_eq_false, if_false,
    show ¬ (4 : Nat) < 4 by decide, readWords, if_true, List.append_nil, captured]

/-- The state with a captured high word. -/
def keepCapture (sid : W32) (c : Option HiCapture) (s : State) : State :=
  match c with
  | some h => { s with hiCaps := mput s.hiCaps sid.toNat h }
  | none => s

theorem keepCapture_guards (sid : W32) (c : Option HiCapture) (s : State) : (keepCapture sid c s).guards = s.guards := by
  cases c <;> rfl

theorem sessRead_word {s : State} {sid : W32} {x : Session} (hsess : sess? s sid = some x) (hrole : x.role ≠ .none)
    (hnone : mlook s.guards sid.toNat = none) (hcap : mlook s.hiCaps sid.toNat = none) {off : Nat} {w : RegWord} (hreg : regAt off = some w) :
    sessRead (regRegion + off) 4 sid s = (cOk, leBytes 4 (regRead (accessTick sid s) sid off).toNat,
      keepCapture sid (captured off (accessTick sid s)) (accessTick sid s)) := by
  obtain ⟨hlow, -, -⟩ := regAt_place hreg
  have hrole' : roleOf (accessTick sid s) sid ≠ .none := by
    rw [roleOf_accessTick, roleOf_of_sess hsess]
    exact hrole
  have hplain : ¬ aliasRegion ≤ regRegion + off := by
    unfold regRegion aliasRegion
    omega
  have hguards : mlook (accessTick sid s).guards sid.toNat = none := by rw [accessTick_of_none hnone]; exact hnone
  have hend (c : Option HiCapture) : accessCode sid (regRegion + off) (cOk, keepCapture sid c (accessTick sid s)) =
      (cOk, keepCapture sid c (accessTick sid s)) :=
    accessCode_ok (accessEnd_of_none (by rw [keepCapture_guards]; exact hguards)) _
  unfold sessRead
  simp only [hcap, if_neg hplain, regReadOp_word hrole' hreg, if_neg (show ¬ cOk = cRoleRefused by decide)]
  cases captured off (accessTick sid s) with
  | none => exact congrArg (fun r : W16 × State => (cOk, _, r.2)) (hend none)
  | some h => exact congrArg (fun r : W16 × State => (cOk, _, r.2)) (hend (some h))

/-! ## Counters (20 R476) -/

/-- A counter's low word stands at a multiple of 8, and its high word follows it. -/
theorem counterWord_low {off i : Nat} (h : counterWord off = some (i, false)) (hmul : off % 4 = 0) :
    off % 8 = 0 ∧ counterWord (off + 4) = some (i, true) := by
  obtain ⟨j, hj, heq⟩ := Option.map_eq_some_iff.1 h
  obtain ⟨rfl, hlow⟩ := Prod.mk.inj heq
  have hmul8 : off % 8 = 0 := by
    have := of_decide_eq_false hlow
    omega
  refine ⟨hmul8, ?_⟩
  have hbase : (off + 4) / 8 * 8 = off / 8 * 8 := by omega
  have hhigh : (off + 4) % 8 = 4 := by omega
  rw [counterWord, hbase, hj, hhigh]
  rfl

/-- The word of a counter, which operators write. -/
def counterReg : RegWord := { rw := full32, right := .operator }

/-- A counter's word is one. -/
theorem regAt_counter {off i : Nat} {hi : Bool} (hreg : regAt off ≠ none) (h : counterWord off = some (i, hi)) : regAt off = some counterReg := by
  have hsome : (counterWord off).isSome = true := by rw [h]; rfl
  obtain ⟨w, hw⟩ := Option.ne_none_iff_exists'.1 hreg
  obtain ⟨hlow, hmul, hhalf⟩ := regAt_place hw
  rw [regAt, if_neg (by omega), if_pos hsome]
  rfl

theorem regAt_counter_high {off i : Nat} (hreg : regAt off ≠ none) (h : counterWord off = some (i, false)) :
    regAt (off + 4) = some counterReg := by
  obtain ⟨w, hw⟩ := Option.ne_none_iff_exists'.1 hreg
  obtain ⟨hlow, hmul, hhalf⟩ := regAt_place hw
  obtain ⟨hmul8, hhigh⟩ := counterWord_low h hmul
  have hsome : (counterWord (off + 4)).isSome = true := by rw [hhigh]; rfl
  rw [regAt, if_neg (by omega), if_pos hsome]
  rfl

/-- A counter's low word reads the counter's low half, and captures its high half. -/
theorem regRead_counter {s : State} {off i : Nat} (h : counterWord off = some (i, false)) (hon : windowOff s off = false) (sid : W32) :
    regRead s sid off = BitVec.ofNat 32 (wordOf (cnt s i) 0) := by
  simp only [regRead, hon, Bool.false_eq_true, if_false, h, Bool.toNat_false]

theorem captured_counter {s : State} {off i : Nat} (h : counterWord off = some (i, false)) (hon : windowOff s off = false) :
    captured off s = some { off := off + 4, v := BitVec.ofNat 32 (wordOf (cnt s i) 1) } := by
  simp only [captured, pairRead, h, hon, Bool.false_eq_true, if_false, Option.map_some]

/-- A write of a counter's low word sets the counter to it. -/
theorem plainDo_counter {s : State} {off i : Nat} (h : counterWord off = some (i, false)) (hon : windowOff s off = false) (w : RegWord)
    (v bad : Nat) (sid : W32) : plainDo off w v bad sid s = setCounter i v s := by
  simp only [plainDo, h, Option.isSome_some, if_true, counterWord4, hon, Bool.false_eq_true, if_false]

/-- Eight little-endian bytes are two words. -/
theorem words_of_leBytes_eight {v : Nat} (hv : v < 2 ^ 64) : (chunks 4 (leBytes 8 v)).map leNat = [v % 2 ^ 32, v / 2 ^ 32] := by
  simp only [chunks, leBytes, List.length_cons, List.length_nil, chunksAux, List.take, List.drop, leNat, List.map,
    BitVec.toNat_ofNat, if_neg (show ¬ 4 = 0 by decide)]
  congr 1
  · omega
  · congr 1
    omega

/-- A write of both words sets the counter to both halves. -/
theorem plainWrite_counter {s : State} {sid : W32} {off i v : Nat} (h : counterWord off = some (i, false))
    (hhigh : counterWord (off + 4) = some (i, true)) (hon : windowOff s off = false) (hrole : roleOf s sid = .operator) (a bad : Nat) :
    plainWrite a [(off, .reg counterReg), (off + 4, .reg counterReg)] [v % 2 ^ 32, v / 2 ^ 32] bad sid s = (cOk, setCounter i v s) := by
  have haud : auditedWrite .operator counterReg = false := rfl
  have hword : v % 2 ^ 32 + 2 ^ 32 * (v / 2 ^ 32) = v := Nat.mod_add_div v (2 ^ 32)
  simp only [plainWrite, List.zip_cons_cons, List.zip_nil_right, List.map_cons, List.map_nil, h, hhigh, Option.isSome_some, Bool.true_or, if_true,
    firstCode, ne_eq, not_true_eq_false, if_false, List.any_cons, List.any_nil, RegName.word, hrole, haud, Bool.or_self, Bool.false_eq_true, hon,
    hword]

/-- Eight bytes written at a counter by an operator. -/
theorem regWrite_counter {s : State} {sid : W32} {off i v : Nat} (hreg : regAt off ≠ none) (h : counterWord off = some (i, false))
    (hon : windowOff s off = false) (hrole : roleOf s sid = .operator) (hv : v < 2 ^ 64) (bad : Nat) :
    regWrite (regRegion + off) (leBytes 8 v) bad sid s = (cOk, setCounter i v s) := by
  have hlowReg := regAt_counter hreg h
  have hhighReg := regAt_counter_high hreg h
  obtain ⟨-, hmul, -⟩ := regAt_place hlowReg
  obtain ⟨hmul8, hhigh⟩ := counterWord_low h hmul
  have haligned : (regRegion + off) % 8 = 0 := by
    unfold regRegion
    omega
  have hshape : regShape (regRegion + off) 8 = cOk := by simp [regShape, regLen, regAligned, haligned]
  have hwords : regWords off 8 = [off, off + 4] := by
    have hdiv : off / 4 * 4 = off := by omega
    simp [regWords, hdiv, List.range_succ]
  have hnames : namesOf [off, off + 4] = some [(off, .reg counterReg), (off + 4, .reg counterReg)] := by
    simp [namesOf, regName_reg hlowReg, regName_reg hhighReg]
  have hopen : (RegName.reg counterReg).guarded = false := rfl
  have hmay : mayWrite .operator counterReg 0 = true := rfl
  simp only [regWrite, leBytes_length, hshape, regOff_sub, hwords, words_of_leBytes_eight hv, hnames, hrole, List.any_cons, List.any_nil, hopen,
    RegName.word, hmay, Bool.not_true, Bool.or_self, Bool.false_eq_true, ne_eq, not_true_eq_false, if_false, show ¬ (8 : Nat) < 4 by decide,
    show ¬ Role.operator = Role.none by decide]
  exact plainWrite_counter h hhigh hon hrole _ _

/-! ## Single bits (20 R477-R479) -/

/-- A write in the region of the bits. -/
theorem freshWrite_alias {a : Nat} (h : aliasRegion ≤ a) (data : List Byte) (sid : W32) (s : State) : freshWrite a data sid s =
    accessCode sid a (aliasWrite a data sid (accessed sid s)) := by
  simp only [freshWrite, sessWrite, if_pos h, accessed]

/-- A write of one word there writes the bit that the word names. -/
theorem aliasWrite_word {s : State} {sid : W32} {rel : Nat} (hmul : rel % 4 = 0) (hok : aliasOk rel = true) (hrole : roleOf s sid ≠ .none) (d : Bool)
    {t : State} (hbit : aliasBit rel d.toNat sid s = (cOk, t)) : aliasWrite (aliasRegion + rel) (leBytes 4 d.toNat) sid s = (cOk, t) := by
  have haligned : (aliasRegion + rel) % 4 = 0 := by
    unfold aliasRegion
    omega
  have hshape : regShape (aliasRegion + rel) 4 = cOk := by simp [regShape, regLen, regAligned, haligned]
  have hall : (List.range ((4 + 3) / 4)).all (fun k => aliasOk (rel / 4 * 4 + 4 * k)) = true := by
    have hdiv : rel / 4 * 4 = rel := by omega
    simp [hdiv, hok, List.range_succ]
  have hchunks : chunks 4 (leBytes 4 d.toNat) = [leBytes 4 d.toNat] := by
    cases d <;> rfl
  have hlow : ((leBytes 4 d.toNat).headD 0).toNat % 2 = d.toNat := by
    cases d <;> rfl
  have hsub : aliasRegion + rel - aliasRegion = rel := Nat.add_sub_cancel_left ..
  simp only [aliasWrite, leBytes_length, hshape, hsub, hall, if_neg hrole, hchunks, aliasRun, hlow, hbit, ne_eq, not_true_eq_false, Bool.not_true,
    Bool.false_eq_true, if_false, Nat.lt_irrefl, decide_false, Bool.false_and]

/-- The value that a write of `d` to bit `b` gives a word that holds `old`. -/
def aliasValue (old b d : Nat) : Nat := old - bits old b b * 2 ^ b + d * 2 ^ b

/-- The bit is RW alone: the register is written with that bit set or cleared, and no W1C bit. -/
theorem aliasBit_plain {s : State} {sid : W32} {r : Role} (hrole : roleOf s sid = r) {rel off b d : Nat} {w : RegWord} (halias : aliasOf rel = (off, b))
    (hp : PlainReg s r off w (aliasValue (rget s off).toNat b d)) (hrw : bit w.rw b = true) (hw1c : bit w.w1c b = false)
    (hw1s : bit w.w1s b = false) (hwo : bit w.wo b = false) :
    aliasBit rel d sid s = plainWrite (aliasRegion + rel) [(off, .reg { w with w1c := 0 })] [aliasValue (rget s off).toNat b d] (proofMask s) sid s := by
  obtain ⟨hreg, hgrd, -, hmay, -, -, -, hpeer, hcnt, hon, -⟩ := hp
  have hzero : bit 0 b = false := by simp [bit]
  simp only [aliasBit, halias, hreg, hrole, hmay, inMask, hgrd, hzero, hon, hcnt, hw1c, hw1s, hwo, hrw, hpeer, aliasValue, Bool.not_true,
    Bool.false_and, Bool.false_eq_true, Bool.or_self, if_false, if_true]

/-! ## The statement's accesses -/

section
variable {s : State} {sid : W32} {x : Session} {addr : W64} {off : Nat} (haccess : RegAccess s sid x addr (regRegion + off))
include haccess

theorem RegAccess.role_written : roleOf (written sid s) sid = x.role := by
  obtain ⟨hsess, -⟩ := haccess
  exact roleOf_of_sess (s := written sid s) hsess

/-- A write that succeeds is answered by its status. -/
theorem RegAccess.writeRow_ok (hlow : off < 0x400000000) {n : Nat} {data : List Byte} {t : State} (hlen : data.length = n) (hn : 1 ≤ n)
    (hmax : n ≤ 64) (hdone : freshWrite (regRegion + off) data sid s = (cOk, t)) (ht : t.wire = []) :
    writeRow sid addr data s = emit (.writeStatus sid cOk) t := by
  obtain ⟨hsess, hopened, -, hnode, haddr, -⟩ := haccess
  exact writeRow_done hsess hopened hnode haddr hlen (Nat.le_add_right ..) hn hmax (by unfold regRegion; omega) hdone ht

/-- A word written at a register that its role may write, with the block's check passed. -/
theorem RegAccess.writeRow_word {w : RegWord} (hreg : regAt off = some w) (hgrd : w.grd = 0) (hmay : mayWrite x.role w 0 = true) {v : Nat}
    (hv : v < 2 ^ 32) (hck : ((counterWord off).isSome || windowOff s off) = true ∨ wordCheck s off v = cOk) {t : State}
    (hdone : plainDo off w v (proofMask s) sid (plainTold (regRegion + off) v w sid (written sid s)) = t)
    (hguards : t.guards = s.guards) (hwire : t.wire = s.wire) :
    writeRow sid addr (leBytes 4 v) s = emit (.writeStatus sid cOk) t := by
  have hrow := haccess.writeRow_ok (regAt_place hreg).1 (leBytes_length 4 v) (by decide) (by decide) (t := t)
  obtain ⟨hsess, hopened, hrole, hnode, haddr, hnone, hcap, hnil⟩ := haccess
  refine hrow ?_ (hwire.trans hnil)
  rw [freshWrite_plain hsess hrole hnone hreg hgrd hmay hv hck, hdone]
  exact accessCode_ok (accessEnd_of_none (by rw [hguards]; exact hnone)) _

theorem RegAccess.opDo_word {w : RegWord} (hreg : regAt off = some w) : opDo 0x01 sid x (writeHdr addr 4) [] s =
    ({ code := cOk, value := 0, data := leBytes 4 (regRead (accessTick sid s) sid off).toNat },
      keepCapture sid (captured off (accessTick sid s)) (accessTick sid s)) := by
  obtain ⟨hsess, -, hrole, hnode, haddr, hnone, hcap, -⟩ := haccess
  have hlow := (regAt_place hreg).1
  exact opDo_read hnode haddr (Nat.le_add_right ..) (by unfold regRegion; omega) x (sessRead_word hsess hrole hnone hcap hreg)

/-- A read of a word that is no low half of a pair answers it. -/
theorem RegAccess.read_word {w : RegWord} (hreg : regAt off = some w) (hpair : pairRead s off = none) {o : OpRef} (ho : o.sid = sid) :
    opRow 0x01 o (writeHdr addr 4) [] s =
      emit (.opResult o cOk 0 (leBytes 4 (regRead (accessTick sid s) sid off).toNat)) (accessTick sid s) := by
  have hop := haccess.opDo_word hreg
  obtain ⟨hsess, hopened, -, -, -, hnone, -, -⟩ := haccess
  have hpair' : pairRead (accessTick sid s) off = none := by
    rw [accessTick_of_none hnone]
    exact hpair
  have hnothing : captured off (accessTick sid s) = none := by rw [captured, hpair', Option.map_none]
  rw [hnothing] at hop
  subst ho
  simp only [opRow, hsess, hopened, Bool.not_true, Bool.false_eq_true, if_false, hop, keepCapture]

/-- A read of a counter's low word answers it, and leaves the high word captured. -/
theorem RegAccess.read_counter {i : Nat} (hreg : regAt off ≠ none) (hcnt : counterWord off = some (i, false)) (hon : windowOff s off = false) :
    exec (.counterLowRead sid addr) s = .next (emit (.readData sid cOk (leBytes 4 (BitVec.ofNat 32 (wordOf (cnt s i) 0)).toNat))
      { s with hiCaps := mput (mdel s.hiCaps sid.toNat) sid.toNat { off := off + 4, v := BitVec.ofNat 32 (wordOf (cnt s i) 1) } }) := by
  have hop := haccess.opDo_word (regAt_counter hreg hcnt)
  obtain ⟨hsess, hopened, -, -, -, hnone, -, -⟩ := haccess
  rw [accessTick_of_none hnone, regRead_counter (s := { s with hiCaps := mdel s.hiCaps sid.toNat }) hcnt hon,
    captured_counter (s := { s with hiCaps := mdel s.hiCaps sid.toNat }) hcnt hon] at hop
  have hrow : exec (.counterLowRead sid addr) s = .next (inSession sid (fun x s => let (a, t) := opDo 0x01 sid x (writeHdr addr 4) [] s
    emit (.readData sid a.code a.data) t) s) := rfl
  rw [hrow]
  simp only [inSession, hsess, hopened, if_true, hop, keepCapture]
  rfl

/-- A plain register that takes a value. -/
theorem RegAccess.writeRow_plain (hwf : mwf 0 s.regs = true) {w : RegWord} {v : W32} (hp : PlainReg s x.role off w v.toNat) :
    ∃ t, writeRow sid addr (leBytes 4 v.toNat) s = emit (.writeStatus sid cOk) t ∧
      rget t off = mergeWord (rget s off) (roleBits w x.role).1 (roleBits w x.role).2 (clampWord off v.toNat) ∧
      (∀ k, k ≠ off → k ≠ 0x00040010 → rget t k = rget s k) ∧ t.mem = s.mem ∧ t.chans = s.chans ∧ t.plt = s.plt := by
  obtain ⟨hreg, hgrd, hro, hmay, hsnap, hplt, haud, hpeer, hcnt, hon, hck⟩ := hp
  obtain ⟨hset, hothers, hmem, hchans, hstore, hguards, hwire⟩ := plainSet_spec (s := written sid s) (v := v.toNat) haccess.role_written hwf hro
    ⟨hsnap, hplt, haud⟩ hpeer hcnt hon (regRegion + off) (proofMask s)
  exact ⟨_, haccess.writeRow_word hreg hgrd hmay v.isLt (.inr hck) rfl hguards hwire, hset, hothers, hmem, hchans, hstore⟩

/-- A register of read-only fields discards a write. -/
theorem RegAccess.writeRow_readOnly (hreg : regAt off = some {}) {v : W32} (hck : wordCheck s off v.toNat = cOk) :
    writeRow sid addr (leBytes 4 v.toNat) s = emit (.writeStatus sid cOk) (written sid s) := by
  obtain ⟨-, -, hrole, -⟩ := id haccess
  refine haccess.writeRow_word hreg rfl (mayWrite_all hrole rfl 0) v.isLt (.inr hck) ?_ rfl rfl
  rw [plainDo_readOnly hreg, plainTold_of_unaudited rfl]

/-- An operator's write of a counter's low word sets the counter to it. -/
theorem RegAccess.writeRow_counter {i : Nat} (hreg : regAt off ≠ none) (hcnt : counterWord off = some (i, false)) (hon : windowOff s off = false)
    (hop : x.role = .operator) (v : W32) :
    writeRow sid addr (leBytes 4 v.toNat) s = emit (.writeStatus sid cOk) (setCounter i v.toNat (written sid s)) := by
  have haud : auditedWrite (roleOf (written sid s) sid) counterReg = false := by
    rw [haccess.role_written, hop]
    rfl
  refine haccess.writeRow_word (regAt_counter hreg hcnt) rfl (by rw [hop]; rfl) v.isLt (.inl (by rw [hcnt]; rfl)) ?_ rfl rfl
  rw [plainTold_of_unaudited haud, plainDo_counter (s := written sid s) hcnt hon]

/-- One of both words sets it whole. -/
theorem RegAccess.writeRow_counter_pair {i : Nat} (hreg : regAt off ≠ none) (hcnt : counterWord off = some (i, false))
    (hon : windowOff s off = false) (hop : x.role = .operator) (v : W64) :
    writeRow sid addr (leBytes 8 v.toNat) s = emit (.writeStatus sid cOk) (setCounter i v.toNat (written sid s)) := by
  have hlow := (regAt_place (regAt_counter hreg hcnt)).1
  have hrole := haccess.role_written.trans hop
  have hrow := haccess.writeRow_ok hlow (leBytes_length 8 v.toNat) (by decide) (by decide) (t := setCounter i v.toNat (written sid s))
  obtain ⟨-, -, -, -, -, hnone, -, hwire⟩ := haccess
  refine hrow ?_ hwire
  rw [freshWrite_reg (by unfold regRegion aliasRegion; omega), accessed_of_none hnone,
    regWrite_counter (s := written sid s) hreg hcnt hon hrole v.isLt]
  exact accessCode_ok (accessEnd_of_none (s := setCounter i v.toNat (written sid s)) hnone) _

end

theorem setCounter_toNat (i : Nat) (v : W64) (s : State) : setCounter i v.toNat s = { s with counters := mset 0 s.counters i v } := by
  rw [setCounter, BitVec.ofNat_toNat, BitVec.setWidth_eq]

/-- A write draws a free value and ends a capture, which no register depends on. -/
theorem PlainReg.written {s : State} {r : Role} {off v : Nat} {w : RegWord} (h : PlainReg s r off w v) (sid : W32) :
    PlainReg (written sid s) r off w v := h

/-- A word of RW bits is none of read-only fields alone. -/
theorem readOnly_of_bit {w : RegWord} {b : Nat} (h : bit w.rw b = true) : RegWord.readOnly { w with w1c := 0 } = false := by
  have hrw : w.rw ≠ 0 := by
    intro h0
    rw [h0] at h
    simp [bit] at h
  simp [RegWord.readOnly, hrw]

/-- A write of one RW bit. -/
theorem freshWrite_bit {s : State} {sid : W32} {x : Session} {rel off b : Nat} {w : RegWord} (d : Bool)
    (hsess : sess? s sid = some x) (hrole : x.role ≠ .none) (hnone : mlook s.guards sid.toNat = none) (halias : aliasOf rel = (off, b))
    (hmul : rel % 4 = 0) (hp : PlainReg s x.role off w (aliasValue (rget s off).toNat b d.toNat)) (hrw : bit w.rw b = true)
    (hw1c : bit w.w1c b = false) (hw1s : bit w.w1s b = false) (hwo : bit w.wo b = false) :
    freshWrite (aliasRegion + rel) (leBytes 4 d.toNat) sid s = accessCode sid (aliasRegion + rel)
      (cOk, plainDo off { w with w1c := 0 } (aliasValue (rget s off).toNat b d.toNat) (proofMask (written sid s)) sid
        (plainTold (aliasRegion + rel) (aliasValue (rget s off).toNat b d.toNat) { w with w1c := 0 } sid (written sid s))) := by
  have hwrole : roleOf (written sid s) sid = x.role := roleOf_of_sess (s := written sid s) hsess
  have hbit := aliasBit_plain (s := written sid s) hwrole halias (hp.written sid) hrw hw1c hw1s hwo
  obtain ⟨hreg, hgrd, hro, hmay, hsnap, hplt, haud, hpeer, hcnt, hon, hck⟩ := hp.written sid
  have hok : aliasOk rel = true := by
    rw [aliasOk, halias, hreg]
    rfl
  have hdone := hbit.trans (plainWrite_one (.inr hck) _ _ _ _)
  rw [freshWrite_alias (Nat.le_add_right ..), accessed_of_none hnone, aliasWrite_word hmul hok (by rw [hwrole]; exact hrole) d hdone]
  rfl

/-- Its row. -/
theorem writeRow_bit {s : State} {sid : W32} {x : Session} {addr : W64} {rel off b : Nat} {w : RegWord} (d : Bool)
    (haccess : RegAccess s sid x addr (aliasRegion + rel)) (hwf : mwf 0 s.regs = true) (halias : aliasOf rel = (off, b)) (hmul : rel % 4 = 0)
    (hp : PlainReg s x.role off w (aliasValue (rget s off).toNat b d.toNat)) (hrw : bit w.rw b = true) (hw1c : bit w.w1c b = false)
    (hw1s : bit w.w1s b = false) (hwo : bit w.wo b = false) :
    ∃ t, writeRow sid addr (leBytes 4 d.toNat) s = emit (.writeStatus sid cOk) t ∧
      rget t off = mergeWord (rget s off) (roleBits { w with w1c := 0 } x.role).1 (roleBits { w with w1c := 0 } x.role).2
        (clampWord off (aliasValue (rget s off).toNat b d.toNat)) ∧
      ∀ k, k ≠ off → k ≠ 0x00040010 → rget t k = rget s k := by
  obtain ⟨hsess, hopened, hrole, hnode, haddr, hnone, hcap, hnil⟩ := haccess
  have hdone := freshWrite_bit d hsess hrole hnone halias hmul hp hrw hw1c hw1s hwo
  obtain ⟨hreg, -, -, -, hsnap, hplt, haud, hpeer, hcnt, hon, -⟩ := hp
  have hlow := (regAt_place hreg).1
  have hoff : rel / 128 * 4 = off := congrArg Prod.fst halias
  obtain ⟨hset, hothers, -, -, -, hguards, hwire⟩ := plainSet_spec (s := written sid s) (v := aliasValue (rget s off).toNat b d.toNat)
    (roleOf_of_sess (s := written sid s) hsess) hwf (readOnly_of_bit hrw) ⟨hsnap, hplt, haud⟩ hpeer hcnt hon (aliasRegion + rel)
    (proofMask (written sid s))
  generalize plainDo off { w with w1c := 0 } (aliasValue (rget s off).toNat b d.toNat) (proofMask (written sid s)) sid
    (plainTold (aliasRegion + rel) (aliasValue (rget s off).toNat b d.toNat) { w with w1c := 0 } sid (written sid s)) = t
    at hdone hset hothers hguards hwire
  rw [accessCode_ok (accessEnd_of_none (by rw [hguards]; exact hnone))] at hdone
  have hinside : regRegion ≤ aliasRegion + rel ∧ aliasRegion + rel + 4 ≤ 0x040000000000 := by
    unfold regRegion aliasRegion
    omega
  exact ⟨t, writeRow_done hsess hopened hnode haddr (leBytes_length 4 _) hinside.1 (by decide) (by decide) hinside.2 hdone (hwire.trans hnil),
    hset, hothers⟩

/-- Settles O49: each access is one word read or written, or a pair of them, of the register that its address names. -/
theorem registersReadAndWrite : Obligations.RegistersReadAndWrite := by
  unfold Obligations.RegistersReadAndWrite
  intro s sid x addr off hwf
  refine ⟨fun haccess => ⟨fun w v hp => ?plain, fun v hreg hck => ?readOnly, fun w o h ho hh hreg hpair => ?read,
    fun i hreg hcnt hon => ⟨haccess.read_counter hreg hcnt hon, fun hop => ⟨fun v => ?one, fun v => ?both⟩⟩⟩,
    fun rel b d w haccess halias hmul => ?bitWrite⟩
  case plain =>
    obtain ⟨t, hrow, hspec⟩ := haccess.writeRow_plain hwf hp
    exact ⟨t, congrArg Host.Outcome.next hrow, hspec⟩
  case readOnly => exact congrArg Host.Outcome.next (haccess.writeRow_readOnly hreg hck)
  case read =>
    subst hh
    exact congrArg Host.Outcome.next (haccess.read_word hreg hpair ho)
  case one => exact congrArg Host.Outcome.next (haccess.writeRow_counter hreg hcnt hon hop v)
  case both =>
    refine congrArg Host.Outcome.next ((haccess.writeRow_counter_pair hreg hcnt hon hop v).trans ?_)
    rw [setCounter_toNat]
    rfl
  case bitWrite =>
    intro old new hp hrw hw1c hw1s hwo
    obtain ⟨t, hrow, hspec⟩ := writeRow_bit d haccess hwf halias hmul hp hrw hw1c hw1s hwo
    exact ⟨t, congrArg Host.Outcome.next hrow, hspec⟩

end Sys2Proof.Machine
